-- ==== Sys2Proof/Word.lean ====
section
/-! DEFINITION. The word types of the Haldam model: bytes, 64-bit registers and instructions, 32-bit floats. -/

namespace Sys2Proof

/-- One byte. -/
abbrev Byte := BitVec 8

/-- One 64-bit register, instruction or scalar (R9, R161). -/
abbrev Word64 := BitVec 64

/-- One FP32 bit pattern (R117). -/
abbrev F32 := BitVec 32

/-- The number of one of the 16 hardware contexts (R51). -/
abbrev CtxId := BitVec 4

/-- A tile index, row × 32 + column (R30). -/
abbrev TileId := BitVec 9

/-- A ring, that is one grid row (R30). -/
abbrev RingId := BitVec 4

/-- A thread slot of a tile (R52). -/
abbrev ThreadId := BitVec 5

/-- A Cersin queue pair (R368). -/
abbrev PairId := BitVec 6

end Sys2Proof
end

