-- ==== Sys2Proof/Syntax.lean ====
section
/-! DEFINITION. The commands of the Haldam block: one constructor of `Instr` per row of spec/opcode_table.json, with
the operands that the outside world (or the event itself) brings. What a command finds inside the module (a queue
entry, an instruction word, a descriptor) is read from the state and is no operand. -/

namespace Sys2Proof

/-- A UCB page (R34 to R36): the module's context page, the module's owner page, the gang page of a context, and the
ring and tile pages of a context. -/
inductive Page where
  | module (n : CtxId)
  | owner
  | gang (n : CtxId)
  | ring (r : RingId) (n : CtxId)
  | tile (t : TileId) (n : CtxId)
  deriving DecidableEq, Repr

/-- What another head that the walk of R32 reaches answers for its sub-gang: whether the sub-gang is defined there, its module
count, and whether the walk below it has met the gang ID being defined. -/
structure SubAnswer where
  isDefined : Bool
  modules : Nat
  meets : Bool
  deriving DecidableEq, Repr

/-- A beat under way: of the beats in flight, of the ring beats, or of the next row of a stream between its tile and the memory
ports. -/
inductive MetBeat where
  | beat (i : Nat)
  | ring (i : Nat)
  | row (t : TileId) (stream : BitVec 6)
  deriving DecidableEq, Repr

/-- A meeting of two beats at one router output (R229): the router, and the other beat. -/
structure Meeting where
  router : TileId
  other : MetBeat
  deriving DecidableEq, Repr

/-- What begins an array pass (R201): the tile, and how many beats of its ring pass a member's router before its first row. -/
structure PassBegin where
  tile : TileId
  missed : Nat
  deriving DecidableEq, Repr

/-- What a pass met on its ring. At a member: the numbers in the pass of the 64 B beats on which the tile's router finds a parity
error, and those in whose cycle no beat arrived (R230, R231). At any tile: of the ring beats under way, those on which a router
further on finds a parity error, with the router, and one that meets another beat (R229). -/
structure PassReport where
  tile : TileId
  parity : List Nat
  again : List Nat
  faults : List (Nat × TileId)
  meets : Option (Nat × Meeting)
  deriving DecidableEq, Repr

/-- The arrival of a token beat (R211): its place among the beats under way, the routers that find a parity error on it (R231), and
the beat that it meets on a link (R229). -/
structure BeatReport where
  index : Nat
  parity : List TileId
  meets : Option Meeting
  deriving DecidableEq, Repr

/-- The next row of a read stream: the stream, the routers on its way that find a parity error on its beats (R231), and the beat that
it meets (R229). -/
structure RowReport where
  stream : BitVec 6
  parity : List TileId
  meets : Option Meeting
  deriving DecidableEq, Repr

/-- The rows of a write stream on their way to the memory ports: the stream; of its rows, by number, those on which a router of the
way finds a parity error and those absent in a crossing's read cycle, with the router (R231, R250); and a row that meets another
beat (R229). -/
structure WriteReport where
  stream : BitVec 6
  parity : List (Nat × TileId)
  under : List (Nat × TileId)
  meets : Option (Nat × Meeting)
  deriving DecidableEq, Repr

/-- Bytes that a message carries, with its POISON bit (R348). -/
structure Payload where
  bytes : List Byte
  poison : Bool
  deriving DecidableEq, Repr

/-- What one fill's reads met on the LPDDR5X link (R262, R268): for the first, the second and the third read of the group, how many
attempts of each of its five reads (lines 0 to 3, then the group word) failed link ECC, of the three that R262 allows; the
single-bit corrections made; and, read by read, what errors that link ECC did not see add to the difference d. -/
structure LinkReport where
  first : List Nat
  second : List Nat
  third : List Nat
  corrected : Nat
  noise : List Word64
  deriving DecidableEq, Repr

/-- The header of a flit, as plaintext (R348; on Cersin bytes 12 to 13 hold QID, R366, here `gang`). -/
structure FlitHdr where
  type : BitVec 2
  vc : BitVec 3
  turned : Bool
  poison : Bool
  ctx : CtxId
  first : Bool
  last : Bool
  seq : BitVec 12
  ack : BitVec 12
  nakr : BitVec 2
  crVc : BitVec 3
  crCnt : BitVec 5
  len : BitVec 8
  dst : BitVec 16
  src : BitVec 16
  gang : BitVec 16
  op : BitVec 8
  rsvd : Bool
  deriving DecidableEq, Repr

/-- What a flit slot brings a port (R347 to R349): how many slots since the last one reported brought nothing new, the slot's 256
message bytes, and for each of the one or two codewords that hold them the symbols received wrong, by their places. -/
structure WireFlit where
  skip : Nat
  bytes : List Byte
  errs : List (List Nat)
  phase : BitVec 6
  deriving DecidableEq, Repr

/-- A flit as it is inside the module: its header and payload, and the outcomes of checks 1 to 3 of R350 (FEC decode, CRC, GCM
tag). -/
structure Flit where
  hdr : FlitHdr
  payload : List Byte
  fecOk : Bool
  crcOk : Bool
  tagOk : Bool
  deriving DecidableEq, Repr

/-- The payload of a TIME flit (R358, R360), with the receiver's own time stamp of its arrival, in 1/64 ns. -/
structure TimeMsg where
  reply : Bool
  locked : Bool
  untrusted : Bool
  root : Bool
  hops : BitVec 8
  number : BitVec 64
  t2 : BitVec 64
  t3 : BitVec 64
  stamp : BitVec 64
  deriving DecidableEq, Repr

/-- A gang command as it arrives (R358, OP 0x10): its message tag, its sender, its gang and context, its 64 B entry. -/
structure GangCmdMsg where
  mtag : BitVec 32
  src : BitVec 16
  gang : BitVec 16
  ctx : CtxId
  entry : List Byte
  deriving DecidableEq, Repr

/-- A notice of a sealed bucket (R309; R358, OP 0x20). -/
structure NoticeMsg where
  chan : Nat
  bucket : Nat
  step : BitVec 32
  rank : Nat
  sealTb : BitVec 64
  quar : Bool
  carryIn : Bool
  deriving DecidableEq, Repr

/-- A decision (R309; R358, OP 0x21); the bitmaps are numbers whose bit r stands for rank r. -/
structure DecideMsg where
  chan : Nat
  bucket : Nat
  step : BitVec 32
  atDeadline : Bool
  decideTb : BitVec 64
  ranks : Nat
  noticed : Nat
  quarantined : Nat
  deriving DecidableEq, Repr

/-- Partial sums (R358, OP 0x23 to 0x25): a subtree of ranks, 64-element chunks, FP32 values; none when ABSENT. -/
structure PartMsg where
  chan : Nat
  bucket : Nat
  step : BitVec 32
  lo : Nat
  span : Nat
  chunk : Nat
  count : Nat
  absent : Bool
  data : List F32
  poison : Bool
  deriving DecidableEq, Repr

/-- A gather range (R308; R358, OP 0x30). -/
structure GatherMsg where
  chan : Nat
  bucket : Nat
  step : BitVec 32
  rank : Nat
  offset : Nat
  data : List Byte
  poison : Bool
  deriving DecidableEq, Repr

/-- One admission answer (R358, OP 0x41). -/
structure AdmitEntry where
  index : Nat
  stat : BitVec 2
  slot : Nat
  position : Nat
  deriving DecidableEq, Repr

/-- A dispatched token row (R358, OP 0x42). -/
structure RowMsg where
  step : BitVec 32
  src : Nat
  index : Nat
  expert : Nat
  spilled : Bool
  data : List Byte
  poison : Bool
  deriving DecidableEq, Repr

/-- A peer's attestation report, as far as R396 and R397 look at it. -/
structure PeerReport where
  fusedId : BitVec 128
  nonce : BitVec 256
  ownerHash : BitVec 256
  debugUnlocked : Bool
  recovery : Bool
  meas : List Byte
  startRes : BitVec 64
  node : BitVec 16
  raw : List Byte
  deriving DecidableEq, Repr

/-- What a completed training of a port reached (R344, R346, R426). -/
structure TrainReport where
  lanesOk : Bool
  polarity : BitVec 12
  reversed : Bool
  rtt : BitVec 12
  eq : List (BitVec 64)
  retrain : Bool
  locked : Bool
  deriving DecidableEq, Repr

/-- The measurements Lintel records at a tick (R417): mean input power in W, input voltage in mV, highest junction
temperature in °C and the mean power of each ring in W; and what it sees of the PLL, the reference and the supply. -/
structure Telemetry where
  inputW : BitVec 12
  inputMv : BitVec 16
  tempC : BitVec 8
  ringW : List Nat
  idlePllLocked : Bool
  eccNow : List (TileId × Bool × Nat × Nat)
  deriving DecidableEq, Repr

/-- The engines of the progress watchdog (R432). -/
inductive Engine where
  | array (t : TileId)
  | vector (t : TileId)
  | louvre (t : TileId)
  | stream (t : TileId)
  | gather (t : TileId)
  | decode (e : BitVec 6)
  | token (p : BitVec 4)
  | shuffle
  | reduction
  | dispatch
  deriving DecidableEq, Repr

/-- The detectors and resets whose limit can run out, or whose detector can fire again (R437). -/
inductive ResetObj where
  | context (n : CtxId)
  | engine (e : Engine)
  | part (p : BitVec 5)
  deriving DecidableEq, Repr

/-- What a start step finds when its action ends (R382, R385, R424, R427): the outcome of the tests, which fields of the fuses pass
their check (one bit for each row of R382's table), the outcome of the entropy start-up test and of the counter's increment and
read, the memory stacks whose controllers missed their self-refresh, and the rows that failed BIST. -/
structure StartReport where
  ok : Bool
  fuses : BitVec 8
  entropyOk : Bool
  reservationOk : Bool
  slowMem : List (BitVec 4)
  bistRows : List (BitVec 9 × BitVec 4 × BitVec 11)
  deriving DecidableEq, Repr

/-- The IEEE 1149.1 instructions (R401, R471). -/
inductive Tap where
  | bypass
  | idcode
  | samplePreload
  | extest
  | privateTest
  | privateEnd
  deriving DecidableEq, Repr

/-- Where a partner is found silent (R435): a port, or a member of a bucket or of a dispatch batch. -/
inductive Silent where
  | port (p : BitVec 3)
  | bucket (n : CtxId) (chan : Nat) (bucket : Nat) (node : BitVec 16)
  | batch (n : CtxId) (node : BitVec 16)
  deriving DecidableEq, Repr

/-- The books of R458: the stream credits of a memory port, the fabric credits of a port and VC. -/
inductive Book where
  | stream (port : BitVec 4)
  | fabric (port : BitVec 3) (vc : BitVec 3)
  deriving DecidableEq, Repr

/-- One constructor per row of spec/opcode_table.json, in the table's order. -/
inductive Instr where
  -- commands taken from a UCB queue: the page whose next entry is taken
  | nop (p : Page)
  | ctxCreate (p : Page)
  | ctxLoad (p : Page)
  | ctxStart (p : Page)
  | ctxPause (p : Page)
  | ctxPauseComplete (n : CtxId)
  | ctxResume (p : Page)
  | ctxReset (p : Page)
  | reclaimSweepEnd (n : CtxId)
  | ctxDestroy (p : Page)
  | zeroisationEnd (n : CtxId)
  | gangDefine (p : Page) (answers : List SubAnswer)
  | gangBind (p : Page)
  | runChain (p : Page)
  | query (p : Page)
  | memMap (p : Page)
  | memUnmap (p : Page)
  | redConfig (p : Page)
  | redReplay (p : Page)
  | dspConfig (p : Page)
  | casConfig (p : Page)
  | casStart (p : Page)
  | casStop (p : Page)
  | casStopComplete (n : CtxId)
  | casSeek (p : Page)
  | commit (p : Page)
  | ownerSet (p : Page)
  | peerPolicy (p : Page)
  | dbgUnlock (p : Page)
  | modReset (p : Page)
  | partReset (p : Page)
  | dbgMode (p : Page)
  | groupCommandComplete (id : Nat)
  -- register writes with a row of their own: the pair that carries the write, the register, the value
  | doorbell (q : PairId) (p : Page) (v : Word64)
  | ucbCqWrite (q : PairId) (p : Page) (v : Word64)
  | resume (q : PairId) (p : Page)
  | flush (q : PairId) (p : Page)
  | errValidClear (q : PairId) (addr : BitVec 30) (setNow : Bool)
  | hold (q : PairId) (r : RingId) (v : Word64)
  | disable (q : PairId) (port : BitVec 3) (v : Word64)
  | reenable (q : PairId) (pair : PairId)
  | ledgerRdWrite (q : PairId) (n : CtxId) (v : Word64)
  | perfSelWrite (q : PairId) (k : BitVec 3) (v : Word64)
  | perfMselWrite (q : PairId) (k : BitVec 3) (v : Word64)
  | windowWrite (q : PairId) (v : Word64)
  | registerWrite (q : PairId) (addr : BitVec 30) (v : Word64)
  -- host requests (R369): pair, tag, address, length, data
  | regWr (q : PairId) (tag : BitVec 16) (addr : BitVec 64) (len : BitVec 32) (v : Word64)
  | regRd (q : PairId) (tag : BitVec 16) (addr : BitVec 64) (len : BitVec 32)
  | memWr (q : PairId) (tag : BitVec 16) (va : BitVec 64) (len : BitVec 32) (data : List Byte)
  | memRd (q : PairId) (tag : BitVec 16) (va : BitVec 64) (len : BitVec 32)
  -- operations of the management pair (R378, R393, R399, R431)
  | health (tag : BitVec 16)
  | tbParent (tag : BitVec 16) (port : Byte)
  | peerReset (tag : BitVec 16) (node : BitVec 16)
  | attest (tag : BitVec 16) (nonce : BitVec 256) (ctx : Byte)
  | openSession (tag : BitVec 16) (ct : List Byte) (role : Byte) (ctx : Byte) (pairs : BitVec 64)
      (pub : List Byte) (sig : List Byte)
  | nonce (tag : BitVec 16)
  | imgWrite (tag : BitVec 16) (bank : Byte) (offset : BitVec 32) (len : BitVec 32) (data : List Byte)
  | imgSelect (tag : BitVec 16) (bank : Byte) (flags : Byte)
  -- Guver instructions: the tile and the thread whose next instruction issues
  | alu (t : TileId) (h : ThreadId)
  | alui (t : TileId) (h : ThreadId)
  | li (t : TileId) (h : ThreadId)
  | pcmp (t : TileId) (h : ThreadId)
  | plog (t : TileId) (h : ThreadId)
  | br (t : TileId) (h : ThreadId)
  | jr (t : TileId) (h : ThreadId)
  | loop (t : TileId) (h : ThreadId)
  | ld (t : TileId) (h : ThreadId)
  | loadDelivery (t : TileId) (h : ThreadId)
  | st (t : TileId) (h : ThreadId)
  | amoadd (t : TileId) (h : ThreadId)
  | amoswap (t : TileId) (h : ThreadId)
  | amocas (t : TileId) (h : ThreadId)
  | spawn (t : TileId) (h : ThreadId)
  | halt (t : TileId) (h : ThreadId)
  | waitc (t : TileId) (h : ThreadId)
  | fence (t : TileId) (h : ThreadId)
  | threadWaitEnd (t : TileId) (h : ThreadId)
  | rdsr (t : TileId) (h : ThreadId)
  | wrsr (t : TileId) (h : ThreadId)
  | engineFault (t : TileId) (h : ThreadId) (cause : Byte)
  | strmStart (t : TileId) (h : ThreadId)
  | strmStop (t : TileId) (h : ThreadId)
  | streamDrained (t : TileId) (n : BitVec 6)
  | strmWait (t : TileId) (h : ThreadId)
  | barrier (t : TileId) (h : ThreadId)
  | strmStat (t : TileId) (h : ThreadId)
  | streamDone (t : TileId) (r : WriteReport)
  | gath (t : TileId) (h : ThreadId)
  | gatherComplete (t : TileId)
  | arr (t : TileId) (h : ThreadId)
  | arrayPassBegin (p : PassBegin)
  | arrayPassComplete (p : PassReport)
  | lvr (t : TileId) (h : ThreadId)
  | louvreTransferComplete (t : TileId)
  | fma (t : TileId) (h : ThreadId)
  | add (t : TileId) (h : ThreadId)
  | mul (t : TileId) (h : ThreadId)
  | min (t : TileId) (h : ThreadId)
  | max (t : TileId) (h : ThreadId)
  | cvt (t : TileId) (h : ThreadId)
  | curve (t : TileId) (h : ThreadId)
  | dcurve (t : TileId) (h : ThreadId)
  | rsum (t : TileId) (h : ThreadId)
  | rmax (t : TileId) (h : ThreadId)
  | sign (t : TileId) (h : ThreadId)
  | mask (t : TileId) (h : ThreadId)
  | rcp (t : TileId) (h : ThreadId)
  | rsqrt (t : TileId) (h : ThreadId)
  | dropmask (t : TileId) (h : ThreadId)
  | vectorOpComplete (t : TileId)
  | curveLoad (t : TileId) (h : ThreadId)
  | curveLoadComplete (t : TileId) (slot : BitVec 4)
  | tableLoad (t : TileId) (h : ThreadId)
  | tableLoadComplete (t : TileId) (n : CtxId) (slot : BitVec 4)
  | send (t : TileId) (h : ThreadId)
  | msend (t : TileId) (h : ThreadId)
  | latSendComplete (t : TileId)
  | beatArrival (i : Nat) (parity : List TileId) (meets : Option Meeting)
  | boundaryCrossing (i : Nat)
  | tinc (t : TileId) (h : ThreadId)
  | twait (t : TileId) (h : ThreadId)
  | ttake (t : TileId) (h : ThreadId)
  | tread (t : TileId) (h : ThreadId)
  | tsig (t : TileId) (h : ThreadId)
  | tsigArrival (p : BeatReport)
  | chain (t : TileId) (h : ThreadId)
  | chainBegin (t : TileId) (cmd : Option Nat)
  | chainIterationStart (t : TileId) (slot : BitVec 2) (stage : BitVec 3)
  | chainEnd (t : TileId) (slot : BitVec 2)
  | ucmd (t : TileId) (h : ThreadId)
  | ucmdComplete (t : TileId)
  | lookaheadCheck (t : TileId) (n : BitVec 6)
  -- shutters, crossings and clocks of the tile field
  | shutterRequest (r : RingId) (cause : BitVec 3) (src : Nat)
  | shutterFreeze (r : RingId)
  | shutterWithdraw (r : RingId) (cause : BitVec 3) (src : Nat)
  | shutterOpen (r : RingId)
  | skewHold (r : RingId) (c : BitVec 5)
  | skewHoldExpire (r : RingId) (c : BitVec 5)
  | adaptiveStretch (region : BitVec 5) (eighths : BitVec 3)
  | crossingUnderrun (b : MetBeat) (router : TileId)
  | cdcStall (crossing : BitVec 16) (regionA : BitVec 5) (regionB : BitVec 5)
  | resync (crossing : BitVec 16)
  -- the memory system
  | sliceRequest (slice : BitVec 6)
  | groupFill (slice : BitVec 6) (rep : LinkReport)
  | tableWalk (t : TileId)
  | mergeDelivery (slice : BitVec 6) (i : Nat)
  | mergeSplit (slice : BitVec 6) (i : Nat)
  | rowDelivery (t : TileId) (r : RowReport)
  | refresh (stack : BitVec 3)
  | rowMapOutDeferred (n : CtxId)
  | routerFault (r : RingId)
  -- the reduction engine
  | bucketSeal (n : CtxId) (chan : Nat) (bucket : Nat)
  | redNotice (n : CtxId) (m : NoticeMsg)
  | redDeadline (n : CtxId) (chan : Nat) (bucket : Nat)
  | redDecide (n : CtxId) (m : DecideMsg)
  | bucketReduceStart (n : CtxId)
  | redPart (n : CtxId) (m : PartMsg)
  | redShard (n : CtxId) (m : PartMsg)
  | redOrdered (n : CtxId) (m : PartMsg)
  | gatherFill (n : CtxId) (chan : Nat) (bucket : Nat)
  | redGather (n : CtxId) (m : GatherMsg)
  | lateFillComplete (n : CtxId) (chan : Nat) (bucket : Nat)
  | redAbort (n : CtxId) (chan : Nat) (bucket : Nat) (step : BitVec 32) (rank : Nat) (cause : BitVec 8)
  -- the dispatch engine
  | dspRoutes (n : CtxId) (step : BitVec 32) (src : Nat) (entries : List (BitVec 64 × Nat))
  | routeListFill (n : CtxId)
  | dspAdmission (n : CtxId)
  | dspAdmit (n : CtxId) (step : BitVec 32) (entries : List AdmitEntry)
  | dspRows (n : CtxId) (m : RowMsg)
  | dspOutFill (n : CtxId)
  | dspRet (n : CtxId) (step : BitVec 32) (index : Nat) (data : Payload)
  -- Casement
  | casDispatch (e : BitVec 6)
  | sampleDecodeComplete (e : BitVec 6)
  | consumedRecheck (n : CtxId)
  | scratchRun (n : CtxId) (cmd : Nat)
  -- the fabric and the host link
  | flitReceive (port : BitVec 4) (w : WireFlit)
  | credit (port : BitVec 4) (counts : List Nat)
  | time (port : BitVec 3) (m : TimeMsg)
  | timeExchange
  | gangCmd (m : GangCmdMsg)
  | gangCpl (src : BitVec 16) (mtag : BitVec 32) (status : Byte) (err : BitVec 64)
  | refuse (src : BitVec 16) (mtag : BitVec 32) (op : Byte) (reason : Byte)
  | portTraining (port : BitVec 3) (rep : TrainReport)
  | keyAttest (port : BitVec 3) (nonce : BitVec 256)
  | keyReport (port : BitVec 3) (rep : PeerReport)
  | keyEncaps (port : BitVec 3) (ct : List Byte)
  | keyConfirm (port : BitVec 3) (v : BitVec 128)
  | keyEk (ct : List Byte)
  | keyingRetry (port : BitVec 3)
  | noCodewordTimeout (port : BitVec 4)
  | cersinTraining (rep : TrainReport)
  | decapsKeyExpire
  | entropyRetest (ok : Bool)
  | bottomTreeBuild
  -- clocks, time and power
  | managementTick (m : Telemetry)
  | pllSwitch
  | vcoreSettled
  | pllLockTimeout
  | regionChange (r : RingId) (div : BitVec 2)
  | fastTrip (inputW : Nat)
  | crit (tempC : Nat)
  | refLoss
  | refRestore
  | bandwidthWindowEnd
  -- hangs, resets and starts
  | engineHang (e : Engine)
  | contextDeadline (n : CtxId)
  | shutterHang (r : RingId)
  | peerSilent (x : Silent)
  | lintelWatchdog
  | resetLimitExceeded (x : ResetObj)
  | booksOutOfBalance (b : Book)
  | engineReset (e : Engine)
  | partitionReset (p : BitVec 5)
  | partitionResetComplete (p : BitVec 5)
  | chipReset
  | powerCycle
  | inputOn
  | inputStop
  | inputLoss
  | startStepComplete (rep : StartReport)
  | startStepTimeout
  | startRetry
  | knownGood
  -- the management bus (R467): the outcome of the packet error check, and a byte written
  | status (pecOk : Bool)
  | busId (pecOk : Bool)
  | alertRead (pecOk : Bool)
  | alertWrite (pecOk : Bool) (v : Byte)
  | warmReset (pecOk : Bool)
  | jtagInstruction (i : Tap)
  | entropyTestFail
  | engineResetComplete (e : Engine)
  | debugHold (r : RingId) (raise : Bool)
  | trstNLow
  | stackHot (stack : BitVec 3) (hot : Bool)
  | preSwitchSkewHold
  deriving DecidableEq, Repr

end Sys2Proof
end

