-- ==== Sys2Proof/Config.lean ====
section
/-! DEFINITION. What one part fixes at manufacture or a firmware release fixes, and the free values: constants without a
body, so that no statement rests on a number of them. -/

namespace Sys2Proof

/-- A free value: what the manual leaves open, by the place of its use in the run (`State.freeCtr`). -/
opaque Config.free : Nat → Word64

/-- What the reads of a group fetched for an access that is served at once (and for a write-back) meet on the LPDDR5X link
(R262, R268), by the place of the fetch in the run (the same counter as `Config.free`'s) and the group: the failed attempts of
line k (4: the group word) in the first (0) and the second (1) read, the single-bit corrections, and what each read of the
group adds to the difference d. -/
opaque Config.linkFailed : Nat → Nat → Nat → Nat → Nat
opaque Config.linkCorrected : Nat → Nat → Nat
opaque Config.linkNoise : Nat → Nat → Nat → Word64

/-- The silicon stepping, UCB.ID.STEPPING (R34). -/
opaque Config.stepping : BitVec 8

/-- Which of the three grades the part is, and which tiles of ring r its test fences: numbers of the part, taken into their
ranges below. -/
opaque Config.gradeOf : Nat
opaque Config.fenceA : Nat → Nat
opaque Config.fenceB : Nat → Nat

/-- The tiles that each ring of a part of this grade loses at test: a part leaves test with 512, 496 or 480 tiles, of which a
ring lacks at most 0, 1 or 2, and so with exactly that many in every ring (R2, R4). -/
def Config.perRing : Nat := Config.gradeOf % 3

/-- The grade as sold, UCB.ID.GRADE: 0 HM9-512, 1 HM9-496, 2 HM9-480 (R2, R4). -/
def Config.grade : BitVec 8 := BitVec.ofNat 8 Config.perRing

/-- The columns of ring r that the test may fence. -/
def Config.fenceCol (r k : Nat) : Nat :=
  let a := Config.fenceA r % 32
  if k == 0 then a else (a + 1 + Config.fenceB r % 31) % 32

/-- The tiles fenced at test (R3, R4). -/
def Config.testFence (t : Nat) : Bool := (List.range Config.perRing).any (fun k => Config.fenceCol (t / 32) k == t % 32)

/-- The measured latencies of the attachments, above their least. -/
opaque Config.mplOver : Nat → Nat → Nat
opaque Config.dplOver : Nat → Nat

/-- Memory-port latency of attachment k of port p, 5 to 7 (R225, R232). -/
def Config.mpl (p k : Nat) : Nat := 5 + Config.mplOver p k % 3

/-- Die-to-die latency of port k, 5 to 8 (R225, R232). -/
def Config.dpl (k : Nat) : Nat := 5 + Config.dplOver k % 4

/-- FUSED_ID, 128 bits (R382). -/
opaque Config.fusedId : BitVec 128

/-- The rows mapped out at wafer test: tile, bank, entry to logical row (R66); none where the entry is free. -/
opaque Config.waferRow : Nat → Nat → Nat → Option Nat

/-- Yarrow's default clock step table: ROOT and VCORE_MV of each entry (R410). -/
def Config.defaultSteps : List (BitVec 2 × BitVec 12) := [(0, 780), (1, 740), (2, 705), (3, 670)]

/-- The table that a part's Yarrow loads in place of the default one; none where it is empty. -/
opaque Config.otherSteps : List (BitVec 2 × BitVec 12)

/-- Entries of a table as far as each is no faster than the one before. -/
def Config.slower : BitVec 2 → List (BitVec 2 × BitVec 12) → List (BitVec 2 × BitVec 12)
  | _, [] => []
  | r, e :: es => if r.toNat ≤ e.1.toNat then e :: Config.slower e.1 es else []

/-- The step table that is loaded: up to 8 entries from entry 0 on, from the fastest to the slowest (R410). -/
def Config.stepTable : List (BitVec 2 × BitVec 12) :=
  if Config.otherSteps.isEmpty then Config.defaultSteps else (Config.slower 0 Config.otherSteps).take 8

/-- CLK.STEPk as it is loaded: VALID, ROOT and VCORE_MV. -/
def Config.clkStep (k : Nat) : Word64 :=
  match Config.stepTable[k]? with
  | some e => BitVec.ofNat 64 (1 + e.1.toNat * 2 + e.2.toNat * 2 ^ 8)
  | none => 0

/-- An HSS signature on an image: the LMS and LM-OTS types of its levels from the top, by their numbers in SP 800-208, its public
key and its bytes (R386). -/
structure ImageSig where
  lms : List Nat
  ots : List Nat
  pub : List Byte
  bytes : List Byte
  deriving DecidableEq, Repr, Inhabited

/-- An image of a bank (R385 to R387, R429): its SHA-256, that of its body, VERSION, SVN, the compatibility list as the entries of
12 B that its header holds, the vendor's signature, the owner's if it carries one, and the vendor keys that an Aster revokes (R382). -/
structure Image where
  digest : List Byte
  body : List Byte
  version : BitVec 32
  svn : BitVec 7
  compat : List (List Byte)
  vendor : ImageSig
  owner : Option ImageSig
  revokes : BitVec 4
  deriving DecidableEq, Repr, Inhabited

/-- The images of a bank: Aster, Yarrow and Tansy in this order. -/
structure BankSet where
  images : List Image
  deriving DecidableEq, Repr, Inhabited

def BankSet.image (b : BankSet) (k : Nat) : Image := b.images.getD k default

/-- The vendor's key hashes (R382). -/
opaque Config.vendorHash : Nat → List Byte

/-- HSS signature verification (NIST SP 800-208): the signature with its key, and the digest signed. -/
opaque Config.hssVerify : ImageSig → List Byte → Bool

/-- The images of bank b, given the bytes written to the bank since manufacture by their offsets. -/
opaque Config.bank : Nat → List (Nat × Byte) → BankSet

/-- An owner token (R399): what the bytes of a command's operand say. The manual names the parts of a token and gives no
layout but for DBG_UNLOCK's parts: FUSED_ID, the nonce, the key and its signature, the new key hash and the slots to revoke
(OWNER_SET), the digests (PEER_POLICY), the scope (DBG_UNLOCK), whether the format is right, and the bytes that are signed
and the whole token's bytes. -/
structure OwnerToken where
  formatOk : Bool
  fusedId : BitVec 128
  nonce : BitVec 256
  pub : List Byte
  sig : List Byte
  signed : List Byte
  whole : List Byte
  hash : List Byte
  revoke : BitVec 3
  digests : List (List Byte)
  scope : Nat
  deriving DecidableEq, Repr, Inhabited

/-- The size of the token of an owner command's opcode, and its parts. -/
opaque Config.tokenSize : Nat → Nat
opaque Config.token : Nat → List Byte → OwnerToken

/-- A gang whose table entry another module holds (R31): its modules, the rank of this module in it, its head's node, and the
node of each rank. -/
opaque Config.gangModules : BitVec 16 → Nat
opaque Config.gangRank : BitVec 16 → Nat
opaque Config.gangHead : BitVec 16 → BitVec 16
opaque Config.gangNode : BitVec 16 → Nat → BitVec 16

/-- A peer's report chains to a Fjarsor root and its signature verifies (R388, R396). -/
opaque Config.reportOk : List Byte → Bool

/-- The device unique secret of the fuses, UDS (R382): only its outputs under the key derivation are ever used (R384). -/
opaque Config.rootSecret : List Byte

/-- LMS signature verification (NIST SP 800-208): public key, message, signature. -/
opaque Config.lmsVerify : List Byte → List Byte → List Byte → Bool

/-- LMS_SHA256_M32_H20 with LMOTS_SHA256_N32_W4 (NIST SP 800-208): the public key of a tree of a seed and an I, 56 B; and the
signature of a message by a leaf of it, 2,828 B, with the randomiser where one is given (R388). -/
opaque Config.lmsPublicOf : List Byte → List Byte → List Byte
opaque Config.lmsSignBy : List Byte → List Byte → Nat → Option (List Byte) → List Byte → List Byte

/-- ML-KEM-1024 key generation from a 64-byte seed: encapsulation key (R393). -/
opaque Config.kemPublic : List Byte → List Byte

/-- ML-KEM-1024 decapsulation from a seed and a ciphertext: the shared secret (R393, R395). -/
opaque Config.kemDecaps : List Byte → List Byte → List Byte

/-- ML-KEM-1024 encapsulation to a public key with 32 random bytes: ciphertext and shared secret (R392, R395). -/
opaque Config.kemEncaps : List Byte → List Byte → List Byte × List Byte

/-- The signed identity certificate held in the flash, whose SHA-256 the fuses hold (R382, R388). -/
opaque Config.certificate : List Byte

/-- AES-256 of one block (FIPS 197): the key, and the block as a number whose first byte is the highest (R349). -/
opaque Config.aes256 : List Byte → BitVec 128 → BitVec 128

/-- What the manual leaves open of the flits to the host (R366, R369): the OP of a flit of completion entries (0), of RD_DATA (1) and
of a management reply (2); and the 16 bytes before the data of an RD_DATA or a management reply, by that number, TAG and status. -/
opaque Config.hostOp : Nat → Byte
opaque Config.replyHead : Nat → BitVec 16 → Byte → BitVec 128

/-- The slots that pass with IDLE flits alone before the n-th flit that a port sends in a key epoch: port, epoch, n (R347). -/
opaque Config.idleSlots : Nat → Nat → Nat → Nat

/-- IDCODE bits [11:1], which the manual does not give (R471). -/
opaque Config.jtagMaker : BitVec 11

/-- The profiles that R330 supports. -/
inductive Profile where
  | mpeg2Main | avcHigh | avcHigh10 | hevcMain | hevcMain10 | av1Main | other
  deriving DecidableEq, Repr, Inhabited

/-- The format a coded picture signals: its level as ten times the number (for MPEG-2 Video 1 Low, 2 Main, 3 High-1440, 4 High),
its tier (0 Main, 1 High), its chroma (0 monochrome, 1 4:2:0, above that another), bit depth and size in luma samples. -/
structure PicFormat where
  profile : Profile
  level : Nat
  tier : Nat
  chroma : Nat
  depth : Nat
  width : Nat
  height : Nat
  deriving DecidableEq, Repr, Inhabited

/-- How a picture is coded: as a progressive frame, as two fields in one frame, the top one first or second, or as one field of
a parity (0 top). -/
inductive Coding where
  | progressive
  | interlaced (topFirst : Bool)
  | field (parity : Nat)
  deriving DecidableEq, Repr, Inhabited

/-- What stops the decoding of a picture (R332). -/
inductive PicError where
  | none | badSyntax | reference | truncated
  deriving DecidableEq, Repr, Inhabited

/-- The kinds of picture that R331 tells apart: an I picture of MPEG-2, an IDR picture of AVC, an IRAP picture of HEVC, a key frame
of AV1, and every other. -/
inductive PicKind where
  | intra | idr | irap | key | other
  deriving DecidableEq, Repr, Inhabited

/-- A coded picture as its standard decodes it: its kind, whether a sequence header stands between it and the picture before, the
pictures that its decoding refers to by their places in the sample (none for one before the sample), the error its access unit
meets, its place in display order, its PTS, and its luma and chroma samples row by row (chroma at half size). -/
structure Picture where
  fmt : PicFormat
  coding : Coding
  kind : PicKind
  header : Bool
  refs : List (Option Nat)
  err : PicError
  order : Nat
  pts : Nat
  y : List (BitVec 16)
  cb : List (BitVec 16)
  cr : List (BitVec 16)
  deriving DecidableEq, Repr, Inhabited

/-- What a decode yields: the signalled matrix and range, and the coded pictures in decode order. -/
structure Decoded where
  matrix : Nat
  range : Option Bool
  pictures : List Picture
  deriving DecidableEq, Repr, Inhabited

/-- What the codec's own standard, which is outside the manual, makes of an elementary stream (R330, R331): the CODEC, and the
chunks with their PTS where they carry one. -/
opaque Config.decodeSample : Nat → List (Option Nat × List Byte) → Decoded

/-- The standard field table PULLDOWN, whose entries the Tansy version fixes (R336). -/
opaque Config.pulldown : List Byte

/-- A luma or chroma sample that no field holds: what a weave of a first field shows on the missing lines (R335 names no
field before it). -/
opaque Config.noField : Nat → BitVec 16

end Sys2Proof
end

