-- ==== Sys2Proof/Machine/Float.lean ====
section
/-! DEFINITION. The element formats of "Number formats, scale arrays and format tables": exact values, decoding (R118 to
R121), rounding, saturation and stochastic rounding (R130 to R133), and FP32 arithmetic (R92, R93, R129). -/

namespace Sys2Proof.Machine

/-- An exact value: NaN, an infinity, or (−1)^neg × m × 2^e. -/
inductive Num where
  | nan
  | inf (neg : Bool)
  | fin (neg : Bool) (m : Nat) (e : Int)
  deriving DecidableEq, Repr

/-- Zero, as decoded from code 0. -/
def Num.zero : Num := .fin false 0 0

/-- Format codes of R117. -/
abbrev Fmt := Nat

/-- Exponent bits, mantissa bits and bias of a floating-point format code (R117); none for INT4, T4, T6 and the unused
codes. -/
def fmtSpec : Fmt → Option (Nat × Nat × Nat)
  | 0 => some (4, 3, 7)
  | 1 => some (5, 2, 15)
  | 2 => some (2, 3, 1)
  | 3 => some (3, 2, 3)
  | 4 => some (2, 1, 1)
  | 8 => some (8, 7, 127)
  | 9 => some (5, 10, 15)
  | 10 => some (8, 23, 127)
  | _ => none

/-- Width in bits of an element (R117). -/
def fmtBits : Fmt → Nat
  | 0 | 1 => 8
  | 2 | 3 | 7 => 6
  | 4 | 5 | 6 => 4
  | 8 | 9 => 16
  | 10 => 32
  | _ => 0

/-- A used format code (R117). -/
def fmtUsed (f : Fmt) : Bool := f ≤ 10

/-- The microscaled formats, Haldam-6 and Haldam-4 (R120). -/
def fmtMicro (f : Fmt) : Bool := 2 ≤ f && f ≤ 5

/-- The table formats T4 and T6. -/
def fmtTable (f : Fmt) : Bool := f == 6 || f == 7

/-- Decode a floating-point code (R118), the special encodings of R117 first. -/
def decodeFloat (f : Fmt) (c : Nat) : Num :=
  match fmtSpec f with
  | none => .nan
  | some (eb, mb, bias) =>
    let neg := (c >>> (eb + mb)) % 2 == 1
    let e := (c >>> mb) % 2 ^ eb
    let m := c % 2 ^ mb
    let top := e == 2 ^ eb - 1
    if f == 0 && top && m == 7 then .nan
    else if (f == 1 || f == 8 || f == 9 || f == 10) && top then (if m == 0 then .inf neg else .nan)
    else if e == 0 then .fin neg m (1 - bias - mb : Int)
    else .fin neg (2 ^ mb + m) (e - bias - mb : Int)

/-- The value of an INT4 code (R117). -/
def decodeInt4 (c : Nat) : Num :=
  if c % 16 < 8 then .fin false (c % 16) 0 else .fin true (16 - c % 16) 0

/-- Decode an element code of a format that needs no table and no scale (R118). -/
def decodeCode (f : Fmt) (c : Nat) : Num := if f == 5 then decodeInt4 c else decodeFloat f c

/-- Decode FP32 bits. -/
def ofF32 (x : F32) : Num := decodeFloat 10 x.toNat

/-- Multiply by a block's scale E (R120, R121); E = 0xFF is the NaN scale (R123). -/
def applyScale (E : Nat) : Num → Num
  | .fin s m e => if E == 255 then .nan else .fin s m (e + (E - 127 : Int))
  | x => if E == 255 then .nan else x

/-! ## Exact arithmetic -/

/-- The sign of a value. -/
def Num.neg : Num → Bool
  | .fin s _ _ => s
  | .inf s => s
  | .nan => false

def Num.isNan : Num → Bool
  | .nan => true
  | _ => false

def Num.isZero : Num → Bool
  | .fin _ 0 _ => true
  | _ => false

/-- The exact product; 0 × infinity is NaN (R93). -/
def Num.mul : Num → Num → Num
  | .fin s m e, .fin t n f => .fin (s != t) (m * n) (e + f)
  | .nan, _ => .nan
  | _, .nan => .nan
  | .inf s, y => if y.isZero then .nan else .inf (s != y.neg)
  | x, .inf t => if x.isZero then .nan else .inf (x.neg != t)

/-- A finite value as a signed integer at a common exponent no greater than its own. -/
def finAt (c : Int) : Num → Int
  | .fin s m e => let v : Int := (m <<< (e - c).toNat : Nat); if s then -v else v
  | _ => 0

/-- The least exponent of the finite values of a list (a bound for the alignment of their exact sum). -/
def minExp : List Num → Int
  | [] => 0
  | .fin _ _ e :: r => min e (minExp r)
  | _ :: r => minExp r

/-- The exact sum of a list under R92 and R93: NaN if any is NaN or infinities of both signs meet; an exact zero is +0
unless every term is −0. -/
def sumExact (xs : List Num) : Num :=
  if xs.any Num.isNan then .nan
  else
    let pinf := xs.any (fun x => x == .inf false)
    let ninf := xs.any (fun x => x == .inf true)
    if pinf && ninf then .nan
    else if pinf then .inf false
    else if ninf then .inf true
    else
      let c := minExp xs
      let t : Int := xs.foldl (fun a x => a + finAt c x) 0
      if t == 0 then .fin (!xs.isEmpty && xs.all Num.neg) 0 0
      else .fin (decide (t < 0)) t.natAbs c

/-- The exact sum of two values (IEEE 754 signs of zero). -/
def Num.add (x y : Num) : Num := sumExact [x, y]

/-- Comparison of two values that are not NaN. -/
def Num.lt (x y : Num) : Bool :=
  match x, y with
  | .nan, _ => false
  | _, .nan => false
  | .inf s, .inf t => s && !t
  | .inf s, .fin .. => s
  | .fin .., .inf t => !t
  | .fin .., .fin .. => let c := min (minExp [x]) (minExp [y]); decide (finAt c x < finAt c y)

/-- Equality of value of two values that are not NaN. -/
def Num.eqv (x y : Num) : Bool := !x.isNan && !y.isNan && !x.lt y && !y.lt x

/-- The absolute value. -/
def Num.abs : Num → Num
  | .fin _ m e => .fin false m e
  | .inf _ => .inf false
  | .nan => .nan

/-! ## Rounding -/

/-- Number of bits of a natural number. -/
def bitLen (n : Nat) : Nat := if n == 0 then 0 else Nat.log2 n + 1

/-- The spacing exponent of the magnitudes of a format with precision p and least exponent emin around m × 2^e. -/
def quantum (p : Nat) (emin : Int) (m : Nat) (e : Int) : Int := max emin ((bitLen m : Int) + e - p)

/-- m × 2^e in units of 2^q, rounded to nearest, ties to even. -/
def rneUnits (m : Nat) (e q : Int) : Nat :=
  if q ≤ e then m <<< (e - q).toNat
  else
    let d := (q - e).toNat
    let k := m >>> d
    let r := m % 2 ^ d
    if 2 * r > 2 ^ d || (2 * r == 2 ^ d && k % 2 == 1) then k + 1 else k

/-- m × 2^e in units of 2^q, rounded down. -/
def floorUnits (m : Nat) (e q : Int) : Nat :=
  if q ≤ e then m <<< (e - q).toNat else m >>> (q - e).toNat

/-- The fraction of R133, floor(((a − lo) / (hi − lo)) × 2^32), for a = m × 2^e and lo the unit below it. -/
def srFrac (m : Nat) (e q : Int) : Nat :=
  if q ≤ e then 0
  else let d := (q - e).toNat; ((m % 2 ^ d) <<< 32) >>> d

/-- Encode k units of 2^q with the sign given, in a floating-point format: subnormal, normal, or after a carry. -/
def encodeUnits (eb mb bias : Nat) (neg : Bool) (k : Nat) (q : Int) : Nat :=
  let s := if neg then 2 ^ (eb + mb) else 0
  if k < 2 ^ mb then s + k
  else
    let (k', q') := if k ≥ 2 ^ (mb + 1) then (k / 2, q + 1) else (k, q)
    s + ((q' + mb + bias).toNat <<< mb) + (k' - 2 ^ mb)

/-- The largest finite magnitude of a format, as a code (R117). -/
def maxCode : Fmt → Nat
  | 0 => 0x7E
  | 1 => 0x7B
  | 2 => 0x1F
  | 3 => 0x1F
  | 4 => 0x7
  | 8 => 0x7F7F
  | 9 => 0x7BFF
  | 10 => 0x7F7FFFFF
  | _ => 0

/-- The canonical NaN of a format (R131). -/
def nanCode : Fmt → Nat
  | 0 => 0x7F
  | 1 => 0x7E
  | 8 => 0x7FC0
  | 9 => 0x7E00
  | 10 => 0x7FC00000
  | _ => 0

/-- What a conversion of one element did: its code, whether a finite value was written as a largest finite value after
overflowing, and whether the element makes its block take the NaN scale or is a NaN. -/
structure Conv where
  code : Nat
  sat : Bool
  nan : Bool
  deriving DecidableEq, Repr

/-- Rounding mode RND (R130) with the random bits of an SR mode. -/
structure Rnd where
  mode : Nat
  bits : Nat

def Rnd.isSr (r : Rnd) : Bool := r.mode ≥ 2
def Rnd.isSat (r : Rnd) : Bool := r.mode % 2 == 1

/-- Convert to INT4 (R131): limits 7 and −8, thresholds 7.5 and −8.5 under RNE. -/
def convInt4 (r : Rnd) : Num → Conv
  | .fin neg m e =>
    let lim := if neg then 8 else 7
    let x2 := Num.fin false m e
    let ovf := if r.isSr then (Num.fin false lim 0).lt x2 else !(x2.lt (.fin false (2 * lim + 1) (-1)))
    if ovf then ⟨if neg then 8 else 7, true, false⟩
    else
      let k := if r.isSr then
          (let lo := floorUnits m e 0; if r.bits % 2 ^ 32 < srFrac m e 0 then lo + 1 else lo)
        else rneUnits m e 0
      ⟨if neg then (16 - k) % 16 else k, false, false⟩
  | _ => ⟨0, false, true⟩

/-- Convert to a floating-point format under R130, R131 and R133. -/
def convFloat (f : Fmt) (r : Rnd) (x : Num) : Conv :=
  match fmtSpec f with
  | none => ⟨0, false, true⟩
  | some (eb, mb, bias) =>
    let p := mb + 1
    let emin : Int := 1 - bias - mb
    let sbit (neg : Bool) : Nat := if neg then 2 ^ (eb + mb) else 0
    let lim := maxCode f
    match x with
    | .nan => ⟨nanCode f, false, true⟩
    | .inf neg =>
      if fmtMicro f then ⟨0, false, true⟩
      else if r.isSat then ⟨sbit neg + lim, false, false⟩
      else if f == 0 then ⟨0x7F, false, true⟩
      else ⟨sbit neg + (lim + 1), false, false⟩
    | .fin neg m e =>
      let a := Num.fin false m e
      let limN := decodeFloat f lim
      -- the limit plus half the spacing just inside it (R131)
      let thr := match limN with
        | .fin _ lm le => Num.fin false (2 * lm + 1) (le - 1)
        | y => y
      let ovf := if r.isSr then limN.lt a else !(a.lt thr)
      if ovf then
        if fmtMicro f || f == 0 || r.isSat then ⟨sbit neg + lim, true, false⟩
        else ⟨sbit neg + (lim + 1), false, false⟩
      else
        let q := quantum p emin m e
        let k := if r.isSr then
            (let lo := floorUnits m e q; if r.bits % 2 ^ 32 < srFrac m e q then lo + 1 else lo)
          else rneUnits m e q
        ⟨encodeUnits eb mb bias neg k q, false, false⟩

/-- Convert one element that is not table-coded. -/
def convert (f : Fmt) (r : Rnd) (x : Num) : Conv := if f == 5 then convInt4 r x else convFloat f r x

/-- Round to FP32, round-to-nearest-even, beyond the range to infinity, every NaN as 0x7FC0_0000 (R92, R129). -/
def toF32 (x : Num) : F32 := BitVec.ofNat 32 (convFloat 10 ⟨0, 0⟩ x).code

/-- Round to BF16, round-to-nearest-even (R129). -/
def toBf16 (x : Num) : Nat := (convFloat 8 ⟨0, 0⟩ x).code

/-! ## FP32 operations (R129), one rounding each -/

def f32Add (a b : F32) : F32 := toF32 ((ofF32 a).add (ofF32 b))
def f32Sub (a b : F32) : F32 := toF32 ((ofF32 a).add (ofF32 (b ^^^ 0x80000000)))
def f32Mul (a b : F32) : F32 := toF32 ((ofF32 a).mul (ofF32 b))
def f32Fma (a b c : F32) : F32 := toF32 (((ofF32 a).mul (ofF32 b)).add (ofF32 c))

def f32IsNan (a : F32) : Bool := (ofF32 a).isNan
def f32IsInf (a : F32) : Bool := a &&& 0x7FFFFFFF == 0x7F800000

/-- Minimum and maximum of R129: the operand that is not NaN when exactly one is NaN; −0 below +0. -/
def numMin (x y : Num) : Num :=
  if x.isNan then y else if y.isNan then x
  else if x.isZero && y.isZero then (if x.neg then x else y)
  else if y.lt x then y else x

def numMax (x y : Num) : Num :=
  if x.isNan then y else if y.isNan then x
  else if x.isZero && y.isZero then (if x.neg then y else x)
  else if x.lt y then y else x

/-- The reciprocal of m × 2^e in units of 2^q, with a sticky lowest bit: 64 quotient bits and the remainder mark. -/
def recipSticky (m : Nat) (e : Int) : Nat × Int :=
  let n := bitLen m + 64
  let d := 2 ^ n / m
  (2 * d + (if 2 ^ n % m == 0 then 0 else 1), -e - n - 1)

/-- Correctly rounded reciprocal (R295): 1/±0 is ±infinity, 1/±infinity is ±0. -/
def numRcp : Num → Num
  | .nan => .nan
  | .inf s => .fin s 0 0
  | .fin s m e => if m == 0 then .inf s else let (k, q) := recipSticky m e; .fin s k q

/-- Integer square root by binary search on the bits, from the highest one down. -/
def isqrtAux (n : Nat) : Nat → Nat → Nat
  | 0, r => r
  | b + 1, r => let r' := r + 2 ^ b; if r' * r' ≤ n then isqrtAux n b r' else isqrtAux n b r

def isqrt (n : Nat) : Nat := isqrtAux n (bitLen n / 2 + 1) 0

/-- The square root of m × 2^e with a sticky lowest bit. -/
def sqrtSticky (m : Nat) (e : Int) : Nat × Int :=
  let (m1, e1) := if e % 2 == 0 then (m, e) else (2 * m, e - 1)
  let n := m1 <<< 256
  let r := isqrt n
  (2 * r + (if r * r == n then 0 else 1), e1 / 2 - 128 - 1)

/-- Reciprocal square root (R295): the square root of the exact reciprocal to more bits than FP32 keeps, then rounded
once. A negative operand gives NaN, ±0 gives ±infinity. -/
def numRsqrt : Num → Num
  | .nan => .nan
  | .inf s => if s then .nan else .fin false 0 0
  | .fin s m e =>
    if m == 0 then .inf s
    else if s then .nan
    else
      -- 1/sqrt(m 2^e) = sqrt(2^n / m) 2^(-(e+n)/2), n chosen to make e + n even
      let n0 := 2 * bitLen m + 256
      let n := if (e + n0) % 2 == 0 then n0 else n0 + 1
      let d := 2 ^ n / m
      let r := isqrt d
      let exact := 2 ^ n % m == 0 && r * r == d
      .fin false (2 * r + (if exact then 0 else 1)) (-(e + n) / 2 - 1)

/-! ## Stochastic rounding bits (R133) -/

def mix (x : Word64) : Word64 :=
  let x := (x ^^^ (x >>> 29)) * 0x9F3A5C71E24B86D5#64
  let x := (x ^^^ (x >>> 32)) * 0xD1B54A320C6E97F3#64
  x ^^^ (x >>> 29)

def srBits (tensorId : BitVec 32) (index : Word64) (step : BitVec 32) (seed : Word64) : Word64 :=
  let k := mix (seed ^^^ (tensorId ++ step))
  mix (k ^^^ index.rotateLeft 17 ^^^ 0x5B1E0D47A39C2F61#64)

/-! ## Block scales (R132) -/

/-- floor(log2) of a positive finite value. -/
def floorLog2 (m : Nat) (e : Int) : Int := (bitLen m : Int) - 1 + e

/-- emax of R132. -/
def fmtEmax (f : Fmt) : Int := if f == 3 then 4 else 2

/-- The block scale for the largest magnitude, and whether the clamp changed it (R132). -/
def blockScale (f : Fmt) (amax : Num) : Nat × Bool :=
  match amax with
  | .fin _ m e =>
    if m == 0 then (0, false)
    else
      let v := floorLog2 m e - fmtEmax f + 127
      if v < 0 then (0, true) else if v > 254 then (254, true) else (v.toNat, false)
  | _ => (255, false)

/-- The value of x / 2^(E − 127). -/
def unscale (E : Nat) : Num → Num
  | .fin s m e => .fin s m (e - (E - 127 : Int))
  | x => x

/-! ## Packing of codes (R146) -/

/-- The little-endian bytes of a natural number. -/
def bytesOf (n : Nat) : Nat → List Byte
  | 0 => []
  | k + 1 => BitVec.ofNat 8 n :: bytesOf (n / 256) k

/-- The natural number of a little-endian byte list. -/
def natOf : List Byte → Nat
  | [] => 0
  | b :: r => b.toNat + 256 * natOf r

/-- Codes packed little-end first; groups of four 6-bit codes fill 24 bits exactly, so one rule serves all widths. -/
def packCodes (w : Nat) (cs : List Nat) : List Byte :=
  let v := cs.foldr (fun c acc => c % 2 ^ w + acc * 2 ^ w) 0
  bytesOf v ((cs.length * w + 7) / 8)

/-- The n codes of width w packed in a byte list. -/
def unpackAux (w : Nat) : Nat → Nat → List Nat
  | 0, _ => []
  | n + 1, v => v % 2 ^ w :: unpackAux w n (v / 2 ^ w)

def unpackCodes (w n : Nat) (bs : List Byte) : List Nat := unpackAux w n (natOf bs)

/-! ## Standard tables (R125) -/

/-- An FP32 integer value. -/
def f32OfInt (i : Int) : F32 := toF32 (.fin (decide (i < 0)) i.natAbs 0)

/-- T4-BELL, in units of 1/32 (R125). -/
def bellUnits : List Int := [-32, -24, -18, -14, -10, -6, -3, 0, 2, 5, 8, 12, 16, 21, 26, 32]

/-- Entry c of standard table slot 0 to 6 (R125). -/
def stdTable (slot c : Nat) : F32 :=
  match slot with
  | 0 => f32OfInt (if c < 8 then c else (c : Int) - 16)
  | 1 => toF32 (decodeFloat 4 c)
  | 2 => if c % 8 == 0 then (if c ≥ 8 then 0x80000000#32 else 0#32) else toF32 (.fin (decide (c ≥ 8)) 1 ((c % 8 : Nat) - 7 : Int))
  | 3 => let u := (bellUnits[c]?).getD 0; toF32 (.fin (decide (u < 0)) u.natAbs (-5))
  | 4 => f32OfInt (if c < 32 then c else (c : Int) - 64)
  | 5 => toF32 (decodeFloat 2 c)
  | 6 => toF32 (decodeFloat 3 c)
  | _ => 0#32

/-- The kind of a standard slot: true for T6 (R125). -/
def stdKind (slot : Nat) : Bool := slot ≥ 4

/-! ## Activation curves (R79, R80); a table is its 264 FP32 words -/

abbrev Curve := List F32

def Curve.word (c : Curve) (i : Nat) : F32 := List.getD c i 0#32
def Curve.xmin (c : Curve) : F32 := c.word 0
def Curve.xmax (c : Curve) : F32 := c.word 1
def Curve.scale (c : Curve) : F32 := c.word 2
def Curve.seg (c : Curve) (i j : Nat) : F32 := c.word (8 + 4 * i + j)

def curveTail (a b x : F32) : F32 := if (ofF32 a).isZero then b else f32Fma a x b

/-- The saturating conversion (u32)floor(u) of R80. -/
def floorU32 (u : F32) : Nat :=
  match ofF32 u with
  | .nan => 0
  | .inf s => if s then 0 else 0xFFFFFFFF
  | .fin s m e => if s then 0 else min (floorUnits m e 0) 0xFFFFFFFF

/-- The segment and its parameter t for an x inside the interval (R80). -/
def curveSeg (c : Curve) (x : F32) : Nat × F32 :=
  let u := f32Mul (f32Sub x c.xmin) c.scale
  let i := min (floorU32 u) 63
  (i, f32Sub u (f32OfInt i))

def f32Lt (a b : F32) : Bool := (ofF32 a).lt (ofF32 b)

/-- curve(c, x) of R80. -/
def evalCurve (c : Curve) (x : F32) : F32 :=
  if f32IsNan x then 0x7FC00000#32
  else if f32Lt x c.xmin then curveTail (c.word 3) (c.word 4) x
  else if !(f32Lt x c.xmax) then curveTail (c.word 5) (c.word 6) x
  else
    let (i, t) := curveSeg c x
    f32Fma (f32Fma (f32Fma (c.seg i 3) t (c.seg i 2)) t (c.seg i 1)) t (c.seg i 0)

/-- dcurve(c, x) of R80. -/
def evalDcurve (c : Curve) (x : F32) : F32 :=
  if f32IsNan x then 0x7FC00000#32
  else if f32Lt x c.xmin then c.word 3
  else if !(f32Lt x c.xmax) then c.word 5
  else
    let (i, t) := curveSeg c x
    let d := f32Fma (f32Fma (f32Mul (c.seg i 3) (f32OfInt 3)) t (f32Mul (c.seg i 2) (f32OfInt 2))) t (c.seg i 1)
    f32Mul d c.scale

/-- A loaded table is refused when XMIN is not below XMAX or a header value is not finite (CURVE_BAD). -/
def curveBad (c : Curve) : Bool :=
  !(f32Lt c.xmin c.xmax) ||
    ((List.range 7).any (fun i => f32IsNan (c.word i) || f32IsInf (c.word i)))

/-! ## The fixed pairwise tree of R76 -/

/-- One level: lane 2k with lane 2k + 1. -/
def pairLevel (op : F32 → F32 → F32) : List F32 → List F32
  | a :: b :: r => op a b :: pairLevel op r
  | l => l

def laneSum (xs : List F32) : F32 :=
  let t := pairLevel f32Add (pairLevel f32Add (pairLevel f32Add (pairLevel f32Add (pairLevel f32Add
    (pairLevel f32Add xs)))))
  t.headD 0#32

end Sys2Proof.Machine
end

