-- ==== Sys2Proof/Machine/SMap.lean ====
section
/-! DEFINITION. Sparse maps from numbers: a list of (key, value) pairs in one canonical form, keys strictly rising and
no value equal to what an unlisted key reads as. Memories, the register file and every table of the module use it. -/

namespace Sys2Proof.Machine

/-- A sparse map, listed by key. -/
abbrev SMap (α : Type) := List (Nat × α)

namespace SMap

variable {α : Type}

/-- The value at `k`; an unlisted key reads as `d k`. -/
def get (d : Nat → α) : SMap α → Nat → α
  | [], k => d k
  | (k0, v) :: m, k => if k < k0 then d k else if k = k0 then v else get d m k

/-- Put an entry unless it is what an unlisted key reads as. -/
def put [DecidableEq α] (d : Nat → α) (k : Nat) (v : α) (m : SMap α) : SMap α :=
  if v = d k then m else (k, v) :: m

/-- Write `v` at `k`, keeping the canonical form. -/
def set [DecidableEq α] (d : Nat → α) : SMap α → Nat → α → SMap α
  | [], k, v => put d k v []
  | (k0, v0) :: m, k, v =>
    if k < k0 then put d k v ((k0, v0) :: m)
    else if k = k0 then put d k v (m.dropWhile (fun e => e.1 ≤ k))
    else (k0, v0) :: set d m k v

/-- Every key of the list is above `b`, the keys rise strictly, and no value is a default. -/
def wfFrom [DecidableEq α] (d : Nat → α) (b : Nat) : SMap α → Bool
  | [] => true
  | (k, v) :: m => decide (b ≤ k) && decide (v ≠ d k) && wfFrom d (k + 1) m

/-- The canonical form. -/
def wf [DecidableEq α] (d : Nat → α) (m : SMap α) : Bool := wfFrom d 0 m

/-- Drop every entry whose key `p` selects (an area returns to what unlisted keys read as). -/
def clear (p : Nat → Bool) (m : SMap α) : SMap α := m.filter (fun e => ! p e.1)

end SMap

end Sys2Proof.Machine
end

