-- ==== Sys2Proof/Machine/State.lean ====
section
/-! DEFINITION. The state of the Haldam block: every register (held by host address), memory, queue, engine and
message the manual gives the module, as plain data. -/

namespace Sys2Proof.Machine

/-! ## Commands (R40 to R50) -/

/-- Where a command came from, and so where its completion goes (R222, R374, R358). -/
inductive Source where
  | host (q : PairId)
  | code (t : TileId) (h : ThreadId) (task : Nat) (va : Nat) (done : Nat)
  | copy (parent : Nat)
  | remote (src : BitVec 16) (mtag : BitVec 32) (gang : BitVec 16)
  deriving DecidableEq, Repr

/-- A command accepted and not yet complete, or a copy or code-queue entry waiting at a page. -/
structure Cmd where
  id : Nat
  page : Page
  ctx : CtxId
  src : Source
  entry : List Byte
  taken : Bool          -- false while it waits in the page's code or copy queue
  members : List Nat    -- ids of the copies (or remote member indices) not yet complete
  status : Byte         -- highest-ranked status so far (R48)
  err : Option Word64   -- the error record of the first failing member
  index : BitVec 16     -- its queue index
  since : Nat           -- the tick it was taken at
  deriving DecidableEq, Repr

/-- A doorbell's cover: the entries it made takeable, with the pair that rang and the context selected (R50). -/
structure Cover where
  page : Page
  tail : BitVec 16
  q : PairId
  ctx : CtxId
  deriving DecidableEq, Repr

/-- A completion entry of R374. -/
structure CqEntry where
  q : PairId
  unit : BitVec 32
  tag : BitVec 16
  status : Byte
  ctx : CtxId
  notify : Bool
  owner : Bool
  index : BitVec 16
  w0 : Word64
  w1 : Word64
  w2 : Word64
  deriving DecidableEq, Repr

/-- An answer that is no completion entry and waits to leave (R369, R378): RD_DATA or a management reply. -/
structure Reply where
  q : PairId
  tag : BitVec 16
  status : Byte
  addr : Word64
  data : List Byte
  deriving DecidableEq, Repr

/-- A code-queue completion whose word UCMD_COMPLETE writes (R222), with the thread that issued the command. -/
structure CodeDone where
  t : TileId
  h : ThreadId
  task : Nat
  va : Nat
  done : Nat
  status : Byte
  tag : BitVec 16
  deriving DecidableEq, Repr

/-- A module event that Lintel writes to its log at the next tick (R452). -/
structure EvRec where
  time : Word64
  code : BitVec 16
  ctx : Byte
  unit : BitVec 32
  d0 : Word64
  d1 : Word64
  deriving DecidableEq, Repr

/-- A message given to the fabric or the host link to send, by its OP (R358, R369) with its payload. -/
structure OutMsg where
  dst : BitVec 16
  gang : BitVec 16
  ctx : CtxId
  op : Byte
  payload : List Byte
  mtag : BitVec 32
  poison : Bool
  deriving DecidableEq, Repr

/-! ## The tile -/

/-- One operation of an engine of a tile (R193): the operands as the instruction or chain stage gives them (`d`, `a`,
`b`, `c` hold the values of RD, RA, RB, RC), the tables captured (R128, R206) and the progress made. -/
structure EOp where
  ctx : CtxId
  task : Nat
  thread : Option ThreadId   -- the thread that receives its faults
  chain : Option (Nat × Nat) -- chain slot and stage
  done : Nat                 -- token counter, 0 none
  minor : Nat
  fields : Nat
  d : Word64
  a : Word64
  b : Word64
  c : Word64
  acc : Bool                 -- ACC_OP of an array pass
  ring : Nat                 -- 0 OFF, 1 ENTRY, 2 MEMBER
  tabM : List F32
  tabS : List F32
  step : BitVec 32
  seed : Word64
  loaded : Nat
  row : Nat
  buf : List (List Byte)
  ser : Nat                  -- its number in the order of issue (R150)
  deriving DecidableEq, Repr

/-- A pass that drains behind the next pass of its array (R91): its rows have entered, and its last output row is computed with the
images that the cells then held, loaded transposed or not. -/
structure Drain where
  t : TileId
  op : EOp
  images : List (List Byte)
  turned : Bool
  deriving DecidableEq, Repr

/-- The running and the pending operation of an engine (R193). -/
structure EngineQ where
  running : Option EOp
  pend : Option EOp
  deriving DecidableEq, Repr

/-- A load whose data is captured and not yet delivered (R57, R189): mark 0 good, 1 poisoned, 2 uncorrectable. -/
structure Load where
  t : TileId
  h : ThreadId
  rd : BitVec 5
  value : Word64
  mark : BitVec 2
  pc : Nat
  deriving DecidableEq, Repr

/-- A curve or table load in progress (R126, R207). -/
structure VLoad where
  t : TileId
  ctx : CtxId
  slot : Nat
  table : Bool
  kind : Bool
  words : List F32
  deriving DecidableEq, Repr

/-- A chain on a tile: its descriptor copy (R213) and, per stage, the iterations started and completed (R215); `origin` is
the ring's open cycle of its start. -/
structure Chain where
  ctx : CtxId
  task : Nat
  thread : Option ThreadId
  cmd : Option Nat
  desc : List Byte
  origin : Nat
  started : List Nat
  finished : List Nat
  deriving DecidableEq, Repr

/-- A chain that waits to begin (R216, R217). -/
structure ChainWait where
  t : TileId
  ctx : CtxId
  task : Nat
  thread : Option ThreadId
  cmd : Option Nat
  desc : List Byte
  deriving DecidableEq, Repr

/-- A 64 B ring beat in flight round a ring (R104): its bytes, its number in the pass, the last-row mark, the hops east of the
entry from which its poison bit is set (64: nowhere), the tiles whose routers it has not reached yet, the entry tile, the open
cycle of its injection, the queue of the entry whose slot its return frees, and whether rows of a pass of 68 beats or more are
still to be injected behind it (R107). -/
structure RingBeat where
  ring : RingId
  ctx : CtxId
  data : List Byte
  num : Nat
  last : Bool
  poison : Nat
  left : List TileId
  entry : TileId
  at' : Nat
  queue : Option Nat
  live : Bool
  deriving DecidableEq, Repr

/-- What a router's ring input holds (R230): the beat, its context, its last-row mark and its poison bit. -/
structure RingIn where
  data : List Byte
  ctx : CtxId
  last : Bool
  poison : Bool
  deriving DecidableEq, Repr

/-- A tile in buffer `slot` of the Louvre (R154, R158): the operation it belongs to, of the array or a transfer, its number in
it, whether it is the operation's last, its shape and destination as LVR.STATUS codes them, the images that have entered with their poisoned granules, and the
output rows emitted. -/
structure LvTile where
  slot : Nat
  op : EOp
  array : Bool
  idx : Nat
  final : Bool
  shape : Nat
  dest : Nat
  imgs : List (List Byte × List Nat)
  out : Nat
  deriving DecidableEq, Repr

/-- Physical scratchpad bytes lo to hi − 1 of a tile that an operation, the `ser`-th in the order of issue, wrote while one issued
before it had still to write (R150). -/
structure Stamp where
  t : TileId
  lo : Nat
  hi : Nat
  ser : Nat
  deriving DecidableEq, Repr

/-- A Lattice send in progress (R208, R251). -/
structure SendOp where
  t : TileId
  ctx : CtxId
  task : Nat
  thread : Option ThreadId
  done : Nat
  src : Word64
  dests : List TileId
  queue : Nat
  beats : Nat
  sent : Nat
  deriving DecidableEq, Repr

/-- What a beat carries: 64 B for a tile queue, or a token increment (R208, R210). -/
inductive Cargo where
  | data (queue : Nat) (bytes : List Byte)
  | token (task : Nat) (n : Nat) (amount : Nat)
  deriving DecidableEq, Repr

/-- A beat in flight on the Lattice (R227), with the thread it comes from; `phase`: 2k on its way to boundary k of its route
(to its end, past the last), 2k + 1 in that boundary's buffer (R240). The copies of one multicast beat share a number `tree`, 0 for none,
and `seen` lists the routers that a copy has been counted at (R252). -/
structure Beat where
  ctx : CtxId
  src : TileId
  dst : TileId
  thread : Option ThreadId
  cargo : Cargo
  poison : Bool
  phase : Nat
  tree : Nat
  seen : List TileId
  deriving DecidableEq, Repr

/-- A tensor descriptor, decoded (R140). -/
structure TDesc where
  base : Nat
  tensor : BitVec 32
  fmt : Fmt
  blk16 : Bool
  padWrite : Bool
  space : Bool
  dims : Nat
  tslot : Nat
  sizes : List Nat
  strides : List Nat
  sbase : Nat
  sstrides : List Nat
  deriving DecidableEq, Repr

/-- A captured line of a read stream: mark 0 good, 1 poisoned, 2 integrity failure, 3 uncorrectable, 4 translation; and
the memory port whose return place it holds (16 for none). -/
structure LineCap where
  va : Nat
  data : List Byte
  mark : Nat
  port : Nat
  deriving DecidableEq, Repr

/-- A stream on a stream context (R279 to R284): `outst` lists the lines out, each with the memory port of its return
place. -/
structure Strm where
  ctx : CtxId
  task : Nat
  thread : Option ThreadId
  chain : Option (Nat × Nat)
  done : Nat
  td : TDesc
  endpoint : Word64
  write : Bool
  ddepth : Bool
  unpin : Bool
  prio : Nat
  reuse : Nat
  keepN : Nat
  mcount : Nat
  mgroup : Nat
  ahead : Nat
  order : List Nat
  origin : List Nat
  extent : List Nat
  gen : BitVec 32
  issued : Nat
  moved : Nat
  outst : List (Nat × Nat)
  caps : List LineCap
  failing : Bool
  ser : Nat
  deriving DecidableEq, Repr

/-- A thread fault that moved its context to FAULTED: the context, the tile, and the open cycle of the tile's ring (R59). -/
structure FaultAt where
  ctx : CtxId
  t : TileId
  cycle : Nat
  deriving DecidableEq, Repr

/-! ## The shutters -/

/-- One request on a shutter controller: its cause, its source and the period of the head's region it came in (R242). -/
structure ShutReq where
  cause : Nat
  src : Nat
  time : Nat
  deriving DecidableEq, Repr

/-- A shutter controller: the active requests, what SHT.LAST will record, the period the closure's requests began, the
period of the last withdrawal, the requests withdrawn in the closure: cause, first period, period of withdrawal (R247); and, for each
ring of the domain, the count of open cycles at which it freezes (R243). -/
structure Shut where
  reqs : List ShutReq
  first : Nat
  causes : Nat
  since : Nat
  last : Nat
  ended : List (Nat × Nat × Nat)
  stop : List (Nat × Nat)
  deriving DecidableEq, Repr

/-! ## The memory system -/

/-- A tag group held in a Transom way (R273 to R276). `bytes` lists what was written over the fill; `writers` the tile that
wrote a byte, twice its index plus one for padding, plus one (R454); `poisonAt` the bytes last written with a poisoned
element (R291). -/
structure Group where
  valid : Bool
  filled : Bool
  failed : Bool
  ctx : CtxId
  cls : Nat
  keep : Nat
  passGen : BitVec 8
  passed : Bool
  tensor : BitVec 32
  used : Nat
  bytes : SMap (Option Byte)
  writers : SMap Nat
  poisonIn : BitVec 4
  poisonWr : BitVec 4
  poisonAt : SMap Bool
  deriving DecidableEq, Repr

/-- What a request to a slice does (R273, R284, R293): `pads` and `poison` list the addresses of a write that hold padding and
those that hold poisoned elements. -/
inductive ReqKind where
  | read (t : TileId) (n : Nat) (va : Nat)
  | write (t : TileId) (task : Nat) (bytes : List (Nat × Byte)) (pads : List Nat) (poison : List Nat) (va : Nat)
  | gather (t : TileId) (va : Nat)
  deriving DecidableEq, Repr

/-- A line request waiting at a slice (R283): `since` is the CLK_UNC cycle of its arrival. -/
structure Req where
  pa : Nat
  ctx : CtxId
  level : Nat
  gen : BitVec 32
  since : Nat
  cls : Nat
  keepN : Nat
  tensor : BitVec 32
  unpin : Bool
  stream : Bool
  mgroup : Nat
  mcount : Nat
  kind : ReqKind
  deriving DecidableEq, Repr

/-- A group fill in progress with the requests that wait on it (R274, R289). -/
structure Fill where
  group : Nat
  waiters : List Req
  deriving DecidableEq, Repr

/-- A merge entry (R286, R287): the requests joined, each with the line as it captured it, the line as it stands once present
(R197), and the cycle it became so. -/
structure Merge where
  pa : Nat
  ctx : CtxId
  mgroup : Nat
  mcount : Nat
  joined : List (Req × Option (List Byte × Nat))
  present : Option (List Byte × Nat)
  since : Nat
  closed : Bool
  deriving DecidableEq, Repr

/-- A gather in flight at a tile's gather port (R198, R293); `walking` while its translation waits for a walk (R271). -/
structure Gath where
  t : TileId
  ctx : CtxId
  task : Nat
  thread : Option ThreadId
  done : Nat
  va : Nat
  dest : Nat
  size : Nat
  walking : Bool
  cap : Option LineCap
  ser : Nat
  deriving DecidableEq, Repr

/-- A TLB entry (R271). -/
structure Tlb where
  t : TileId
  ctx : CtxId
  vpn : Nat
  pte : Word64
  deriving DecidableEq, Repr

/-- A TLB miss that waits for its walk (R271). -/
structure Walk where
  t : TileId
  ctx : CtxId
  vpn : Nat
  deriving DecidableEq, Repr

/-! ## Contexts, gangs and resets -/

/-- What Latch and Lintel hold for a context beside its registers: the tenant hash (R43), the digest of the loaded object
and the fingerprint it was loaded under (R45, R258), whether an object is loaded, whether the running reset releases it
(R51), and the context keys, zeroised at CTX_DESTROY (R265). -/
structure CtxInfo where
  tenant : List Byte
  digest : List Byte
  fp : Word64
  loaded : Bool
  unload : Bool
  keys : List Byte
  deriving DecidableEq, Repr

/-- A gang table entry (R31): its members as (node, sub-gang), and the modules reached through each. -/
structure GangEntry where
  gang : BitVec 16
  members : List (BitVec 16 × BitVec 16)
  counts : List Nat
  deriving DecidableEq, Repr

/-- An engine, partition or context reset in progress, or completed (R437): the object, the tick it began (or completed), and
whether it has taken its effect. -/
structure ResetRun where
  obj : ResetObj
  tick : Nat
  acted : Bool
  done : Bool
  deriving DecidableEq, Repr

/-! ## The reduction engine (R298 to R316) -/

/-- A decision of the head (R309): bit r of a bitmap stands for rank r. -/
structure Decision where
  atDeadline : Bool
  decideTb : Word64
  noticed : Nat
  quar : Nat
  deriving DecidableEq, Repr

/-- A notice that the head holds: rank, QUAR and the receipt time. -/
structure Notice where
  rank : Nat
  quar : Bool
  at' : Nat
  deriving DecidableEq, Repr

/-- A bucket (R302, R304): its descriptor, its state (0 IDLE, 1 FILLING, 2 SEALED, 3 REDUCING, 4 SHARD, 5 GATHER) and the
progress of its step. `held` counts the consecutive held steps of each rank; `gathered` the bytes written of each rank's
range; the head's part is in `headOpen` to `headLast`. `raw` is the contribution before zeroing, `parts` and `early` hold messages
of this step and of steps to come, `ended` is the step of the last record. -/
structure Bucket where
  chan : Nat
  idx : Nat
  ordered : Bool
  cfmt : Nat
  base : Nat
  tensor : BitVec 32
  elems : Nat
  shardBase : Nat
  gatherBase : Nat
  gatherId : BitVec 32
  gfmt : Nat
  carryBase : Nat
  doneVa : Nat
  st : Nat
  count : Nat
  late : Bool
  lateDone : Bool
  step : BitVec 32
  sealTb : Nat
  order : Nat
  carryIn : Bool
  quar : Bool
  zeroed : Nat
  contrib : List F32
  decision : Option Decision
  parts : List PartMsg
  result : List F32
  gcount : Nat
  gathered : SMap Nat
  held : SMap Nat
  fate : SMap Nat
  waitTick : Nat
  aborted : Bool
  headOpen : Option (BitVec 32)
  notices : List Notice
  headLast : Option (BitVec 32)
  raw : List F32
  early : List GatherMsg
  ended : Option (BitVec 32)
  endedAbort : Bool
  ahead : List (BitVec 32 × Decision)
  tainted : Bool
  deriving DecidableEq, Repr

/-- A reduction job (R301): the parts that RED.POLICYn does not hold, the buckets, the records that wait for the ledger
(with the bucket each returns to IDLE), and the replay (R315). -/
structure RedJob where
  slots : Nat
  ledger : Nat
  buckets : List Bucket
  sealed : Nat
  heldRecs : List (Nat × Nat × List Byte)
  replay : List (List Byte)
  replayStep : BitVec 32
  isLocal : Bool
  replayCmd : Option Nat
  diverged : Bool
  deriving DecidableEq, Repr

/-! ## The dispatch engine (R317 to R321) -/

/-- A route entry as it stands in the batch: source rank, index in the source's list, the 8 B entry. -/
structure RouteIn where
  src : Nat
  index : Nat
  entry : Word64
  deriving DecidableEq, Repr

/-- An admitted entry at its owner: expert, local slot, position, source rank, route index, SPILLED. -/
structure AdmitRec where
  expert : Nat
  slot : Nat
  position : Nat
  src : Nat
  index : Nat
  spilled : Bool
  rowIn : Bool
  deriving DecidableEq, Repr

/-- A source's route entries for this owner, with their step (R358, OP 0x40). -/
structure RouteMsg where
  step : BitVec 32
  src : Nat
  routes : List RouteIn
  deriving DecidableEq, Repr

/-- The dispatch configuration and batch of a context: the route lists received, the member's own list with the status and
place of each entry, and the rows returned. -/
structure DspJob where
  desc : List Byte
  owners : List (Nat × Nat)
  step : BitVec 32
  rcount : Nat
  routesOut : Bool
  inbox : List RouteMsg
  mine : List Word64
  admitted : Bool
  admits : List AdmitRec
  stats : SMap Nat
  phase : Nat
  ocount : Nat
  outSent : Bool
  returned : SMap Bool
  waitTick : Nat
  deriving DecidableEq, Repr

/-! ## Casement (R324 to R343) -/

/-- A sample between its dispatch and its record: the engine that decodes it (none once decoded), its tokeniser pipeline (R333), its position, pool
entry, what the decode made of it, and whether its rows are written. -/
structure CasSample where
  eng : Option Nat
  pipe : Nat
  pos : BitVec 32
  epoch : BitVec 32
  q : Word64
  index : Nat
  entry : List Byte
  done : Bool
  code : Byte
  errFrame : Nat
  pts : Nat
  rows : List Byte
  rowsOut : Bool
  deriving DecidableEq, Repr

/-- A ROUTE SCRATCH run (R339): its RUN_CHAIN, the open cycle in which its chain started, the samples still to deliver and
the beats injected. -/
structure CasRun where
  cmd : Nat
  start : Nat
  left : Nat
  beat : Nat
  deriving DecidableEq, Repr

/-- A Casement job (R325): descriptor, copied tables (DI, HF, VF, CF, COLOUR, NORM; an empty COLOUR for AUTO), latched
seed, the samples in flight in Q order, the runs, the RUN_CHAIN commands that have started one, the CAS_STOP commands that
wait. -/
structure CasJob where
  desc : List Byte
  tables : List (List Byte)
  seed : Word64
  samples : List CasSample
  runs : List CasRun
  ran : List Nat
  stopCmds : List Nat
  deriving DecidableEq, Repr

/-! ## Latch and the flash (R382 to R397, R469) -/

/-- The OTP fields that change after manufacture (R382): owner key hashes in slot order, revoked slots, the SVN counters, the vendor
keys revoked. -/
structure Otp where
  owner : List (List Byte)
  revoke : BitVec 3
  svnAster : Nat
  svnYarrow : Nat
  svnTansy : Nat
  vendorRevoke : BitVec 4
  deriving DecidableEq, Repr

/-- The flash (R469): the bank control record, the monotonic counter, and the field records: rows mapped out in the field
and by BIST as (tile, bank, row, source), fenced tiles, tiles to be fenced, rings out of service; the bytes written to the banks, bank 1 from 0x180_0000 on. -/
structure Flash where
  active : Nat
  knownGood : Nat
  counter : Nat
  rows : List (TileId × Nat × Nat × Nat)
  fences : List TileId
  asked : List TileId
  oos : List RingId
  rowMapValid : Bool
  bytes : SMap (Option Byte)
  deriving DecidableEq, Repr

/-- A decapsulation key held for an OPEN, with its report and the time it was made (R393). -/
structure DecapKey where
  seed : List Byte
  report : List Byte
  at' : Nat
  deriving DecidableEq, Repr

/-- A session on Cersin (R393, R394): its role, secret, transcript hash and key epoch, the pairs bound to it, the slots of each
direction at which its epoch begins, and the flits of pair 63 that are to leave up to the end of its OPEN's reply. -/
structure Session where
  owner : Bool
  ctx : CtxId
  ss : List Byte
  th : List Byte
  epoch : Nat
  pairs : List PairId
  txBase : Word64
  rxBase : Word64
  waits : Nat
  deriving DecidableEq, Repr

/-- Latch's own state: signing (next leaf, START_RES, bottom trees built, and the ATTEST operations and port reports that wait
for a tree), the entropy source's failed repeats, the keys of this start, nonces issued, the peer list, and the management
exchange; and whether a reservation is still to be taken before the first signature (R389, R430). -/
structure Latch where
  nextLeaf : Nat
  startRes : Nat
  treesBuilt : Nat
  attestWait : List (BitVec 16 × BitVec 256 × Byte)
  keyWait : List (BitVec 3 × BitVec 256)
  entropyRepeats : Nat
  entropyAt : Nat
  moduleKey : List Byte
  decaps : List DecapKey
  sessions : List Session
  nonces : List (BitVec 256)
  peers : List (List Byte)
  kexSeed : List Byte
  mgmtKey : List Byte
  headerKey : List Byte
  epochBase : List Byte
  resDue : Bool
  deriving DecidableEq, Repr

/-! ## Links (R348 to R363, R392, R395) -/

/-- A message of which some flits, or a keying value of which some fragments, have arrived (R357, R358). -/
structure PartialMsg where
  hdr : FlitHdr
  bytes : List Byte
  deriving DecidableEq, Repr

/-- What a link's sequence stands at: the numbers expected, received last and sent next, the flits not acknowledged, and the number sent since the
link began (R351). -/
structure LinkSeq where
  expect : BitVec 12
  lastSeq : BitVec 12
  sendSeq : BitVec 12
  replay : List Flit
  sentTotal : Nat
  deriving DecidableEq, Repr

/-- A port of the fabric, or the Cersin link as port 8, or the module's own injection as port 9: the sequence number expected
and the last one received in order, recovery, the next to send, the replay buffer, the credits held per VC, the flits that
came in here (port 9: from the module itself) and wait for a credit of the port they leave by, LINK flits that wait for
replay room, the times of recent violations, messages in part, and the keying (R395): nonce, report, seed, the peer's
report, the ciphertext, LS with its TH, confirmations, the retry due; and in the present key epoch the flits sent, the slot
index that the next flit received has at least, the slot of the last REPLAY (R347, R351), and the sequence that a re-keying
retrain keeps with the partner's START_RES (R363, R397); the first slot not used, the place in the list of flits sent at which
the epoch began and its time in 1/64 ns of Timebase (R347, R360), and the sequenced flits sent since the link began (R362). -/
structure Port where
  expect : BitVec 12
  lastSeq : BitVec 12
  recovery : Bool
  sendSeq : BitVec 12
  replay : List Flit
  credits : SMap Nat
  waiting : List Flit
  linkWait : List Flit
  authTimes : List Nat
  seqTimes : List Nat
  reTimes : List Nat
  msgs : List PartialMsg
  trained : Bool
  downTick : Option Nat
  epoch : Nat
  myNonce : BitVec 256
  myReport : List Byte
  mySeed : List Byte
  peer : Option PeerReport
  ct : List Byte
  secret : List Byte
  linkTh : List Byte
  sentConfirm : Bool
  gotConfirm : Bool
  retryAt : Option Nat
  peerRes : BitVec 64
  peerNode : BitVec 16
  authLock : Bool
  sent : Nat
  rxSlot : Word64
  askedAt : Option Word64
  saved : Option (LinkSeq × BitVec 64)
  nextSlot : Nat
  era : Nat
  epochAt : Nat
  sentTotal : Nat
  deriving DecidableEq, Repr

/-- A flit put on a port's wire: in which key epoch and slot, the flit as it is inside the module, and the 256 bytes on the wire
(R347 to R349). -/
structure TxFlit where
  port : Nat
  epoch : Nat
  slot : Word64
  flit : Flit
  wire : List Byte
  deriving DecidableEq, Repr

/-! ## Clocks, time and power (R405 to R421) -/

/-- A module-level frequency change in flight (R411): its target, the tick it began, phase 0 locking, 1 waiting for T, 2
switched, 3 ramping down; the switch time or the time VCORE settles; and whether temperature caused it. -/
structure ClkChange where
  target : Nat
  tick : Nat
  phase : Nat
  at' : Nat
  thermal : Bool
  deriving DecidableEq, Repr

/-- The governor's own counts (R418 to R420, CLK.CTL), the Timebase exchange (R360, R361), and the rows and routers that
Lintel follows (R67, R257), the latter with the ticks of their parity errors: rows are tile × 16,384 + bank × 1,024 + row. Last the cycles of
CLK_TB since the start, the ns that the Timebase still counts at half rate, and the ns that slewing still adds or takes (R407);
the region-level changes asked for and not yet made (R413, R414), the rings whose clock is stopped, with the ns of Timebase at which it
restarts; and of each region what it latched at the last tick, its periods and the Timebase, and of the tick before it the periods and
the ns that passed (R408). -/
structure Gov where
  change : Option ClkChange
  lastDone : Option Nat
  dutyHi : SMap Nat
  dutyMid : SMap Nat
  ceilHi : Nat
  calm : Nat
  divs : SMap Nat
  refValidAt : Option Nat
  parentNext : Option Byte
  exchange : Option (BitVec 64)
  exchangeAt : Nat
  goodOffsets : Nat
  stepped : Bool
  parentUntrusted : Bool
  eccTimes : SMap (List Nat)
  ueRows : List Nat
  deferred : List (Nat × Bool)
  parityTimes : SMap (List Nat)
  tbCycles : Nat
  half : Nat
  slew : Int
  regionNext : List (RingId × BitVec 2)
  stopped : List (RingId × Nat)
  latches : List (Nat × Nat)
  means : List (Nat × Nat)
  deriving DecidableEq, Repr

/-! ## Starts and the management bus (R424, R463 to R471) -/

/-- The start supervisor and what goes with it: whether the input is on, whether a start runs and is cold, the time its
step began, the retry due, the ticks of NORMAL since the start, the alert causes, the answers given on the management bus,
the TAP's instruction, the crossings in the error state (R440), the memory stacks whose training values are invalid (R427), and the
flits to the host that are to leave before a start asked for begins (R431). -/
structure Supervisor where
  inputOn : Bool
  running : Bool
  cold : Bool
  stepAt : Nat
  retryAt : Option Nat
  normalTicks : Nat
  alert : Byte
  bus : List (List Byte)
  tap : Tap
  cdcErr : List (BitVec 16)
  badStacks : List (BitVec 4)
  startAfter : Option Nat
  deriving DecidableEq, Repr

/-- A fault of the model: none is raised by the meanings written so far; the constructor keeps the type inhabited. Safe:
a stop proves nothing about the module. -/
inductive Fault where
  /-- The queue holds more commands than any run can bring. No meaning raises it; safe. -/
  | unreachable
  deriving DecidableEq, Repr

/-- The refusals. -/
inductive Refusal where
  /-- The command has no meaning in the model yet; raised only by an arm of `exec`; safe. -/
  | notModelled (mnemonic : String)
  deriving DecidableEq, Repr

/-- The state of the block. Keys: a thread is tile × 32 + slot; a task is tile × 8 + slot. -/
structure State where
  /-- Commands waiting to be executed, first in, first out. -/
  pending : List Instr
  /-- The model's own counter for free values. -/
  freeCtr : Nat
  /-- Every host-visible register, by host address (R34). -/
  regs : SMap Word64
  -- UCB queues
  nextId : Nat
  covers : List Cover
  cmds : List Cmd
  cq : List CqEntry
  cqOut : List CqEntry
  cqCredit : SMap Nat
  replies : List Reply
  hostOut : List Flit
  refusals : SMap Nat
  codeDone : List CodeDone
  violTimes : SMap (List Nat)
  locks : SMap Bool
  evs : List EvRec
  out : List OutMsg
  bw : SMap Nat
  -- the tile
  gregs : SMap Word64
  preds : SMap Byte
  pcOut : SMap Bool
  wake : SMap Nat
  tslots : SMap (BitVec 32)
  entryPc : SMap Nat
  tokens : SMap (BitVec 16)
  imem : SMap Word64
  sp : List Host.Cell
  spMark : SMap (BitVec 2)
  acc : SMap F32
  stat : SMap (List Byte)
  statMeta : SMap Nat
  qhead : SMap Nat
  curves : SMap F32
  curveOwned : SMap Bool
  tables : SMap F32
  loads : List Load
  vloads : List VLoad
  engines : SMap EngineQ
  drains : List Drain
  /-- The model's count of operations issued, which orders the scratchpad writes of a tile, and of multicast beats (R150, R252). -/
  serial : Nat
  faultAt : List FaultAt   -- the thread faults that made contexts FAULTED
  badGroups : List Nat   -- the groups that failed their check and have not been written whole since (R274, R291)
  stamps : List Stamp
  chains : SMap (Option Chain)
  chainWaits : List ChainWait
  ringBeats : List RingBeat
  sends : List SendOp
  beats : List Beat
  tsigs : Nat
  lvrNext : SMap Nat
  /-- Per tile: the tiles in the Louvre's buffers, oldest first; `lvrNext` is the buffer in turn for the next. -/
  lvTiles : SMap (List LvTile)
  /-- Per tile: what the router's ring input holds (R230). -/
  ringIn : SMap RingIn
  /-- Per thread at a BARRIER: the context's generation counter when it began, plus one (R197). -/
  barriers : SMap Nat
  -- shutters and region time
  shuts : SMap Shut
  charged : SMap Nat
  cycles : SMap Nat
  /-- Per region: eighths of a period since its last edge, and eighths that stretch still adds (R8, R415). -/
  frac : SMap Nat
  debt : SMap Nat
  skew : SMap Nat
  -- memory
  dram : List Host.Cell
  tagDiff : SMap Word64
  groups : SMap Group
  useCtr : Nat
  ptes : SMap Word64
  freeFrames : List Nat
  nextFrame : Nat
  nextTable : Nat
  frameCtx : SMap Nat
  loadPages : List (Nat × Nat × Nat)
  gens : SMap (BitVec 32)
  strms : SMap (Option Strm)
  gaths : List Gath
  tlb : List Tlb
  walks : List Walk
  reqs : List Req
  curLvl : SMap Int
  fills : List Fill
  merges : List Merge
  stretchAt : SMap Nat
  preSwitch : Bool
  dbgScope : Nat
  hzRing : SMap Nat
  hzSlots : SMap Nat
  portUse : SMap Nat
  /-- Per memory controller: the blocks of its tag cache, least recently used first, each with whether it was written to (R268). -/
  tagCache : SMap (List (Nat × Bool))
  -- contexts, gangs, resets
  ctxInfo : SMap CtxInfo
  gangs : List GangEntry
  dupSeen : List (BitVec 16 × BitVec 32)
  gangSeen : List (BitVec 16 × BitVec 16 × CtxId × List Byte)
  tick : Nat
  resets : List ResetRun
  -- the watchdogs: each engine's progress count, that count and each ring's open cycles at the last tick, and the ticks
  -- without advance
  progress : SMap Nat
  watchSeen : SMap Nat
  watchIdle : SMap Nat
  openSeen : SMap Nat
  -- X-die engines
  red : SMap (Option RedJob)
  dsp : SMap (Option DspJob)
  cas : SMap (Option CasJob)
  casLast : Nat
  -- Latch, links, clocks, starts
  otp : Otp
  flash : Flash
  latch : Latch
  ports : SMap Port
  tx : List TxFlit
  gov : Gov
  sup : Supervisor
  bwWait : Bool
  deriving DecidableEq, Repr

/-- The OTP as a part leaves manufacture: no owner key programmed, every counter 0. -/
def otpReset : Otp := ⟨[], 0, 0, 0, 0, 0⟩

/-- The flash as a part leaves manufacture: bank 0 active and known-good, nothing recorded. -/
def flashReset : Flash := ⟨0, 0, 0, [], [], [], [], false, []⟩

def latchReset : Latch := {
  nextLeaf := 0, startRes := 0, treesBuilt := 0, attestWait := [], keyWait := [], entropyRepeats := 0, entropyAt := 0,
  moduleKey := [], decaps := [], sessions := [], nonces := [], peers := [], kexSeed := [], mgmtKey := [], headerKey := [],
  epochBase := [], resDue := false }

def govReset : Gov := {
  change := none, lastDone := none, dutyHi := [], dutyMid := [], ceilHi := 0, calm := 0, divs := [], refValidAt := none,
  parentNext := none, exchange := none, exchangeAt := 0, goodOffsets := 0, stepped := false, parentUntrusted := false, eccTimes := [], ueRows := [],
  deferred := [], parityTimes := [], tbCycles := 0, half := 0, slew := 0,
  regionNext := [], stopped := [], latches := [], means := [] }

def supReset : Supervisor := {
  inputOn := false, running := false, cold := false, stepAt := 0, retryAt := none, normalTicks := 0, alert := 0, bus := [],
  tap := .idcode, cdcErr := [], badStacks := [], startAfter := none }

/-- The machine right after reset: every register at its reset value, the queue empty, no start begun, the input not yet
applied. -/
def State.reset : State := {
  pending := [], freeCtr := 0, regs := [], nextId := 0, covers := [], cmds := [], cq := [], cqOut := [], cqCredit := [],
  replies := [], hostOut := [], refusals := [], codeDone := [], violTimes := [], locks := [], evs := [], out := [], bw := [], gregs := [], preds := [],
  pcOut := [], wake := [], tslots := [], entryPc := [], tokens := [], imem := [], sp := [], spMark := [], acc := [], stat := [],
  statMeta := [], qhead := [], curves := [], curveOwned := [], tables := [], loads := [], vloads := [], engines := [], drains := [], serial := 0, faultAt := [], badGroups := [], stamps := [],
  chains := [], chainWaits := [], ringBeats := [], sends := [], beats := [], tsigs := 0, lvrNext := [], lvTiles := [], ringIn := [], barriers := [], shuts := [], charged := [],
  cycles := [], frac := [], debt := [], skew := [], dram := [], tagDiff := [], groups := [], useCtr := 0, ptes := [], freeFrames := [], nextFrame := 0,
  nextTable := 0, frameCtx := [], loadPages := [], gens := [], strms := [], gaths := [], tlb := [], walks := [], reqs := [],
  curLvl := [], fills := [], merges := [], stretchAt := [], preSwitch := false, dbgScope := 0, hzRing := [], hzSlots := [],
  portUse := [], tagCache := [], ctxInfo := [], gangs := [], dupSeen := [], gangSeen := [], tick := 0, resets := [], progress := [], watchSeen := [], watchIdle := [], openSeen := [], red := [], dsp := [], cas := [],
  casLast := 0, otp := otpReset, flash := flashReset, latch := latchReset, ports := [], tx := [], gov := govReset,
  sup := supReset, bwWait := false }

end Sys2Proof.Machine
end

