-- ==== Sys2Proof/Machine/Regs.lean ====
section
/-! DEFINITION. The register map: every register of the manual by host address (R34, R73 of the field tables), its fields
with their access codes (R10) and reset values, and the operations that read and write registers and fields. -/

namespace Sys2Proof.Machine

/-- Access codes (R10). -/
inductive Acc where
  | ro | rw | w1c | w1s | wo | rwl | sc
  deriving DecidableEq, Repr

/-- A field of a register: lowest bit, width, access code, reset value (a value that firmware loads starts at 0). -/
structure RField where
  lo : Nat
  width : Nat
  acc : Acc
  reset : Nat
  deriving DecidableEq, Repr

/-- A register or an array of registers: its first address, the counts and strides of its indices, its fields. -/
structure RBlock where
  name : String
  base : Nat
  dims : List (Nat × Nat)
  fields : List RField
  deriving DecidableEq, Repr

/-- The register map, part 0. -/
def regMap0 : List RBlock := [
  ⟨"UCB.ID (module page)", 0x0, [(16, 0x100)], []⟩,
  ⟨"UCB.CAP (module page)", 0x8, [(16, 0x100)], [⟨0, 10, .ro, 0x0⟩, ⟨10, 4, .ro, 0xC⟩, ⟨14, 1, .ro, 0x0⟩, ⟨15, 1, .ro, 0x1⟩, ⟨16, 17, .ro, 0x0⟩]⟩,
  ⟨"UCB.STATE (module page)", 0x10, [(16, 0x100)], [⟨0, 3, .ro, 0x0⟩, ⟨8, 16, .ro, 0x0⟩]⟩,
  ⟨"UCB.DOORBELL (module page)", 0x20, [(16, 0x100)], [⟨0, 16, .wo, 0x0⟩]⟩,
  ⟨"UCB.CQ (module page)", 0x28, [(16, 0x100)], [⟨0, 4, .rw, 0x0⟩, ⟨12, 36, .rw, 0x0⟩, ⟨63, 1, .rw, 0x0⟩]⟩,
  ⟨"UCB.STATUS (module page)", 0x30, [(16, 0x100)], [⟨0, 16, .ro, 0x0⟩, ⟨16, 16, .ro, 0x0⟩, ⟨32, 1, .ro, 0x0⟩, ⟨33, 4, .ro, 0x0⟩, ⟨37, 1, .sc, 0x0⟩, ⟨38, 1, .sc, 0x0⟩, ⟨39, 1, .ro, 0x0⟩, ⟨40, 8, .ro, 0x0⟩, ⟨48, 1, .w1c, 0x0⟩]⟩,
  ⟨"UCB.ERR (module page)", 0x38, [(16, 0x100)], [⟨0, 8, .ro, 0x0⟩, ⟨8, 4, .ro, 0x0⟩, ⟨16, 32, .ro, 0x0⟩, ⟨48, 16, .ro, 0x0⟩]⟩,
  ⟨"UCB.CTX_SEL (module page)", 0x18, [(16, 0x100)], [⟨0, 4, .ro, 0x0⟩]⟩,
  ⟨"UCB.ID (owner page)", 0x1000, [], []⟩,
  ⟨"UCB.CAP (owner page)", 0x1008, [], [⟨0, 10, .ro, 0x0⟩, ⟨10, 4, .ro, 0xC⟩, ⟨14, 1, .ro, 0x0⟩, ⟨15, 1, .ro, 0x1⟩, ⟨16, 17, .ro, 0x0⟩]⟩,
  ⟨"UCB.STATE (owner page)", 0x1010, [], [⟨0, 3, .ro, 0x0⟩, ⟨8, 16, .ro, 0x0⟩]⟩,
  ⟨"UCB.DOORBELL (owner page)", 0x1020, [], [⟨0, 16, .wo, 0x0⟩]⟩]

/-- The register map, part 1. -/
def regMap1 : List RBlock := [
  ⟨"UCB.CQ (owner page)", 0x1028, [], [⟨0, 4, .rw, 0x0⟩, ⟨12, 36, .rw, 0x0⟩, ⟨63, 1, .rw, 0x0⟩]⟩,
  ⟨"UCB.STATUS (owner page)", 0x1030, [], [⟨0, 16, .ro, 0x0⟩, ⟨16, 16, .ro, 0x0⟩, ⟨32, 1, .ro, 0x0⟩, ⟨33, 4, .ro, 0x0⟩, ⟨37, 1, .sc, 0x0⟩, ⟨38, 1, .sc, 0x0⟩, ⟨39, 1, .ro, 0x0⟩, ⟨40, 8, .ro, 0x0⟩, ⟨48, 1, .w1c, 0x0⟩]⟩,
  ⟨"UCB.ERR (owner page)", 0x1038, [], [⟨0, 8, .ro, 0x0⟩, ⟨8, 4, .ro, 0x0⟩, ⟨16, 32, .ro, 0x0⟩, ⟨48, 16, .ro, 0x0⟩]⟩,
  ⟨"UCB.CTX_SEL (owner page)", 0x1018, [], [⟨0, 4, .rw, 0x0⟩]⟩,
  ⟨"UCB.ID (gang page)", 0x4000, [(16, 0x100)], []⟩,
  ⟨"UCB.CAP (gang page)", 0x4008, [(16, 0x100)], [⟨0, 10, .ro, 0x0⟩, ⟨10, 4, .ro, 0xC⟩, ⟨14, 1, .ro, 0x0⟩, ⟨15, 1, .ro, 0x1⟩, ⟨16, 17, .ro, 0x0⟩]⟩,
  ⟨"UCB.STATE (gang page)", 0x4010, [(16, 0x100)], [⟨0, 3, .ro, 0x0⟩, ⟨8, 16, .ro, 0x0⟩]⟩,
  ⟨"UCB.DOORBELL (gang page)", 0x4020, [(16, 0x100)], [⟨0, 16, .wo, 0x0⟩]⟩,
  ⟨"UCB.CQ (gang page)", 0x4028, [(16, 0x100)], [⟨0, 4, .rw, 0x0⟩, ⟨12, 36, .rw, 0x0⟩, ⟨63, 1, .rw, 0x0⟩]⟩,
  ⟨"UCB.STATUS (gang page)", 0x4030, [(16, 0x100)], [⟨0, 16, .ro, 0x0⟩, ⟨16, 16, .ro, 0x0⟩, ⟨32, 1, .ro, 0x0⟩, ⟨33, 4, .ro, 0x0⟩, ⟨37, 1, .sc, 0x0⟩, ⟨38, 1, .sc, 0x0⟩, ⟨39, 1, .ro, 0x0⟩, ⟨40, 8, .ro, 0x0⟩, ⟨48, 1, .w1c, 0x0⟩]⟩,
  ⟨"UCB.ERR (gang page)", 0x4038, [(16, 0x100)], [⟨0, 8, .ro, 0x0⟩, ⟨8, 4, .ro, 0x0⟩, ⟨16, 32, .ro, 0x0⟩, ⟨48, 16, .ro, 0x0⟩]⟩,
  ⟨"UCB.CTX_SEL (gang page)", 0x4018, [(16, 0x100)], [⟨0, 4, .ro, 0x0⟩]⟩]

/-- The register map, part 2. -/
def regMap2 : List RBlock := [
  ⟨"UCB.ID (ring page)", 0x1000000, [(16, 0x100000), (16, 0x100)], []⟩,
  ⟨"UCB.CAP (ring page)", 0x1000008, [(16, 0x100000), (16, 0x100)], [⟨0, 10, .ro, 0x0⟩, ⟨10, 4, .ro, 0xC⟩, ⟨14, 1, .ro, 0x0⟩, ⟨15, 1, .ro, 0x1⟩, ⟨16, 17, .ro, 0x0⟩]⟩,
  ⟨"UCB.STATE (ring page)", 0x1000010, [(16, 0x100000), (16, 0x100)], [⟨0, 3, .ro, 0x0⟩, ⟨8, 16, .ro, 0x0⟩]⟩,
  ⟨"UCB.DOORBELL (ring page)", 0x1000020, [(16, 0x100000), (16, 0x100)], [⟨0, 16, .wo, 0x0⟩]⟩,
  ⟨"UCB.CQ (ring page)", 0x1000028, [(16, 0x100000), (16, 0x100)], [⟨0, 4, .rw, 0x0⟩, ⟨12, 36, .rw, 0x0⟩, ⟨63, 1, .rw, 0x0⟩]⟩,
  ⟨"UCB.STATUS (ring page)", 0x1000030, [(16, 0x100000), (16, 0x100)], [⟨0, 16, .ro, 0x0⟩, ⟨16, 16, .ro, 0x0⟩, ⟨32, 1, .ro, 0x0⟩, ⟨33, 4, .ro, 0x0⟩, ⟨37, 1, .sc, 0x0⟩, ⟨38, 1, .sc, 0x0⟩, ⟨39, 1, .ro, 0x0⟩, ⟨40, 8, .ro, 0x0⟩, ⟨48, 1, .w1c, 0x0⟩]⟩,
  ⟨"UCB.ERR (ring page)", 0x1000038, [(16, 0x100000), (16, 0x100)], [⟨0, 8, .ro, 0x0⟩, ⟨8, 4, .ro, 0x0⟩, ⟨16, 32, .ro, 0x0⟩, ⟨48, 16, .ro, 0x0⟩]⟩,
  ⟨"UCB.CTX_SEL (ring page)", 0x1000018, [(16, 0x100000), (16, 0x100)], [⟨0, 4, .ro, 0x0⟩]⟩,
  ⟨"UCB.ID (tile page)", 0x10000000, [(512, 0x40000), (16, 0x100)], []⟩,
  ⟨"UCB.CAP (tile page)", 0x10000008, [(512, 0x40000), (16, 0x100)], [⟨0, 10, .ro, 0x0⟩, ⟨10, 4, .ro, 0xC⟩, ⟨14, 1, .ro, 0x0⟩, ⟨15, 1, .ro, 0x1⟩, ⟨16, 17, .ro, 0x0⟩]⟩,
  ⟨"UCB.STATE (tile page)", 0x10000010, [(512, 0x40000), (16, 0x100)], [⟨0, 3, .ro, 0x0⟩, ⟨8, 16, .ro, 0x0⟩]⟩,
  ⟨"UCB.DOORBELL (tile page)", 0x10000020, [(512, 0x40000), (16, 0x100)], [⟨0, 16, .wo, 0x0⟩]⟩]

/-- The register map, part 3. -/
def regMap3 : List RBlock := [
  ⟨"UCB.CQ (tile page)", 0x10000028, [(512, 0x40000), (16, 0x100)], [⟨0, 4, .rw, 0x0⟩, ⟨12, 36, .rw, 0x0⟩, ⟨63, 1, .rw, 0x0⟩]⟩,
  ⟨"UCB.STATUS (tile page)", 0x10000030, [(512, 0x40000), (16, 0x100)], [⟨0, 16, .ro, 0x0⟩, ⟨16, 16, .ro, 0x0⟩, ⟨32, 1, .ro, 0x0⟩, ⟨33, 4, .ro, 0x0⟩, ⟨37, 1, .sc, 0x0⟩, ⟨38, 1, .sc, 0x0⟩, ⟨39, 1, .ro, 0x0⟩, ⟨40, 8, .ro, 0x0⟩, ⟨48, 1, .w1c, 0x0⟩]⟩,
  ⟨"UCB.ERR (tile page)", 0x10000038, [(512, 0x40000), (16, 0x100)], [⟨0, 8, .ro, 0x0⟩, ⟨8, 4, .ro, 0x0⟩, ⟨16, 32, .ro, 0x0⟩, ⟨48, 16, .ro, 0x0⟩]⟩,
  ⟨"UCB.CTX_SEL (tile page)", 0x10000018, [(512, 0x40000), (16, 0x100)], [⟨0, 4, .ro, 0x0⟩]⟩,
  ⟨"CTX_STATUS", 0x40, [(16, 0x100)], [⟨0, 4, .ro, 0x0⟩, ⟨4, 1, .ro, 0x0⟩, ⟨5, 1, .ro, 0x0⟩, ⟨6, 1, .ro, 0x0⟩, ⟨8, 3, .ro, 0x0⟩, ⟨16, 12, .ro, 0x0⟩, ⟨32, 16, .ro, 0x0⟩]⟩,
  ⟨"MOD.FENCEi", 0x8000, [(8, 0x8)], [⟨0, 64, .ro, 0x0⟩]⟩,
  ⟨"MOD.FINGERPRINT", 0x8040, [], [⟨0, 64, .ro, 0x0⟩]⟩,
  ⟨"TILE.TASKn", 0x10002000, [(512, 0x40000), (8, 0x8)], [⟨0, 1, .ro, 0x0⟩, ⟨1, 4, .ro, 0x0⟩, ⟨8, 13, .ro, 0x0⟩, ⟨21, 14, .ro, 0x0⟩, ⟨35, 5, .ro, 0x0⟩, ⟨40, 6, .ro, 0x0⟩, ⟨46, 6, .ro, 0x0⟩, ⟨52, 7, .ro, 0x0⟩]⟩,
  ⟨"TSP.BASEn", 0x10002040, [(512, 0x40000), (8, 0x8)], [⟨11, 10, .ro, 0x0⟩]⟩,
  ⟨"TSP.BOUNDn", 0x10002080, [(512, 0x40000), (8, 0x8)], [⟨11, 11, .ro, 0x0⟩]⟩,
  ⟨"TCORE.THREADn", 0x10002100, [(512, 0x40000), (32, 0x8)], [⟨0, 3, .ro, 0x0⟩, ⟨4, 3, .ro, 0x0⟩, ⟨8, 13, .ro, 0x0⟩, ⟨32, 8, .ro, 0x0⟩]⟩,
  ⟨"TSP.ECC", 0x10002200, [(512, 0x40000)], [⟨0, 16, .ro, 0x0⟩, ⟨16, 1, .w1c, 0x0⟩, ⟨17, 1, .w1c, 0x0⟩, ⟨18, 4, .ro, 0x0⟩, ⟨22, 10, .ro, 0x0⟩, ⟨32, 8, .ro, 0x0⟩]⟩]

/-- The register map, part 4. -/
def regMap4 : List RBlock := [
  ⟨"TQ.Qn", 0x10002280, [(512, 0x40000), (16, 0x8)], [⟨0, 3, .ro, 0x0⟩, ⟨3, 1, .ro, 0x0⟩, ⟨7, 14, .ro, 0x0⟩, ⟨21, 10, .ro, 0x0⟩, ⟨32, 10, .ro, 0x0⟩]⟩,
  ⟨"VEC.CURVEn", 0x10002300, [(512, 0x40000), (16, 0x8)], [⟨0, 1, .ro, 0x0⟩, ⟨1, 1, .ro, 0x0⟩, ⟨4, 4, .ro, 0x0⟩]⟩,
  ⟨"TSP.RMAP", 0x10002400, [(512, 0x40000), (256, 0x8)], [⟨0, 1, .ro, 0x0⟩, ⟨1, 2, .ro, 0x0⟩, ⟨4, 10, .ro, 0x0⟩]⟩,
  ⟨"STE.CTXn", 0x10002C00, [(512, 0x40000), (64, 0x8)], [⟨0, 3, .ro, 0x0⟩, ⟨4, 3, .ro, 0x0⟩, ⟨8, 8, .ro, 0x0⟩, ⟨32, 16, .ro, 0x0⟩]⟩,
  ⟨"ARR.STATUS", 0x10002E00, [(512, 0x40000)], [⟨0, 2, .ro, 0x0⟩, ⟨2, 1, .ro, 0x0⟩, ⟨3, 1, .ro, 0x0⟩, ⟨4, 3, .ro, 0x0⟩, ⟨8, 4, .ro, 0x0⟩, ⟨12, 4, .ro, 0x0⟩, ⟨16, 12, .ro, 0x0⟩, ⟨32, 4, .ro, 0x0⟩]⟩,
  ⟨"ARR.RING", 0x10002E08, [(512, 0x40000)], [⟨0, 2, .ro, 0x0⟩, ⟨2, 1, .ro, 0x0⟩, ⟨8, 5, .ro, 0x0⟩, ⟨16, 5, .ro, 0x0⟩, ⟨24, 6, .ro, 0x0⟩]⟩,
  ⟨"ARR.COUNT", 0x10002E10, [(512, 0x40000)], [⟨0, 32, .ro, 0x0⟩, ⟨32, 32, .ro, 0x0⟩]⟩,
  ⟨"ARR.NONFINITE", 0x10002E18, [(512, 0x40000)], [⟨0, 24, .ro, 0x0⟩, ⟨24, 24, .ro, 0x0⟩, ⟨48, 16, .ro, 0x0⟩]⟩,
  ⟨"FMT.SEEDn", 0x8100, [(16, 0x10)], [⟨0, 64, .ro, 0x0⟩]⟩,
  ⟨"FMT.STEPn", 0x8108, [(16, 0x10)], [⟨0, 32, .ro, 0x0⟩]⟩,
  ⟨"VEC.CONV", 0x10002E40, [(512, 0x40000)], [⟨0, 24, .ro, 0x0⟩, ⟨24, 24, .ro, 0x0⟩, ⟨48, 16, .ro, 0x0⟩]⟩,
  ⟨"FMT.TBLCTXn", 0x10002F00, [(512, 0x40000), (16, 0x8)], [⟨0, 8, .ro, 0x0⟩, ⟨8, 8, .ro, 0x0⟩]⟩]

/-- The register map, part 5. -/
def regMap5 : List RBlock := [
  ⟨"LVR.STATUS", 0x10002E60, [(512, 0x40000)], [⟨0, 2, .ro, 0x0⟩, ⟨2, 2, .ro, 0x0⟩, ⟨4, 4, .ro, 0x0⟩, ⟨8, 4, .ro, 0x0⟩, ⟨12, 3, .ro, 0x0⟩, ⟨16, 3, .ro, 0x0⟩, ⟨20, 2, .ro, 0x0⟩, ⟨22, 2, .ro, 0x0⟩, ⟨24, 2, .ro, 0x0⟩, ⟨26, 2, .ro, 0x0⟩, ⟨28, 4, .ro, 0x0⟩, ⟨32, 3, .ro, 0x0⟩]⟩,
  ⟨"LVR.COUNT", 0x10002E68, [(512, 0x40000)], [⟨0, 32, .ro, 0x0⟩, ⟨32, 32, .ro, 0x0⟩]⟩,
  ⟨"CHN.SLOTn", 0x10002E80, [(512, 0x40000), (4, 0x8)], [⟨0, 1, .ro, 0x0⟩, ⟨1, 1, .ro, 0x0⟩, ⟨4, 4, .ro, 0x0⟩, ⟨8, 3, .ro, 0x0⟩, ⟨16, 8, .ro, 0x0⟩, ⟨32, 32, .ro, 0x0⟩]⟩,
  ⟨"LAT.IMAGEn", 0x8400, [(32, 0x8)], [⟨0, 64, .ro, 0x0⟩]⟩,
  ⟨"SHT.MAP", 0x8500, [], [⟨0, 64, .ro, 0x0⟩]⟩,
  ⟨"SHT.OWNER", 0x8508, [], [⟨0, 64, .ro, 0x0⟩]⟩,
  ⟨"SHT.OWNED", 0x8510, [], [⟨0, 16, .ro, 0x0⟩, ⟨16, 16, .ro, 0x0⟩]⟩,
  ⟨"SHT.STATEn", 0x8600, [(16, 0x20)], [⟨0, 2, .ro, 0x0⟩, ⟨4, 7, .ro, 0x0⟩, ⟨16, 32, .ro, 0x0⟩]⟩,
  ⟨"SHT.LASTn", 0x8608, [(16, 0x20)], [⟨0, 3, .ro, 0x0⟩, ⟨4, 7, .ro, 0x0⟩, ⟨16, 32, .ro, 0x0⟩]⟩,
  ⟨"SHT.HOLDn", 0x8610, [(16, 0x20)], [⟨0, 1, .rw, 0x0⟩]⟩,
  ⟨"LAT.RTRc", 0x1002000, [(16, 0x100000), (32, 0x8)], [⟨0, 16, .ro, 0x0⟩, ⟨16, 16, .ro, 0x0⟩, ⟨32, 16, .ro, 0x0⟩, ⟨48, 8, .ro, 0x0⟩]⟩,
  ⟨"MEM.ROOTn", 0x20000000, [(16, 0x8)], [⟨12, 28, .ro, 0x0⟩]⟩]

/-- The register map, part 6. -/
def regMap6 : List RBlock := [
  ⟨"MEM.PRIOk", 0x20000100, [(8, 0x8)], [⟨0, 8, .ro, 0x0⟩, ⟨8, 16, .ro, 0x0⟩]⟩,
  ⟨"MEM.PINn", 0x20000200, [(16, 0x8)], [⟨0, 24, .rw, 0x0⟩, ⟨32, 24, .ro, 0x0⟩]⟩,
  ⟨"MEM.FREE", 0x20000300, [], [⟨0, 19, .ro, 0x0⟩]⟩,
  ⟨"TSL.COUNTs", 0x20001000, [(64, 0x20)], [⟨0, 32, .ro, 0x0⟩, ⟨32, 32, .ro, 0x0⟩]⟩,
  ⟨"TSL.MERGEs", 0x20001008, [(64, 0x20)], [⟨0, 32, .ro, 0x0⟩, ⟨32, 16, .ro, 0x0⟩, ⟨48, 16, .ro, 0x0⟩]⟩,
  ⟨"TSL.INTEGs", 0x20001010, [(64, 0x20)], [⟨0, 16, .ro, 0x0⟩, ⟨16, 16, .ro, 0x0⟩, ⟨32, 16, .ro, 0x0⟩, ⟨48, 16, .ro, 0x0⟩]⟩,
  ⟨"TSL.CLASSs", 0x20001018, [(64, 0x20)], [⟨0, 24, .ro, 0x0⟩, ⟨32, 16, .ro, 0x0⟩]⟩,
  ⟨"MEM.STACKk", 0x20002000, [(8, 0x8)], [⟨0, 24, .ro, 0x0⟩, ⟨24, 16, .ro, 0x0⟩, ⟨40, 8, .ro, 0x0⟩, ⟨48, 1, .ro, 0x0⟩]⟩,
  ⟨"RED.RANKn", 0x9000, [(16, 0x40)], [⟨0, 16, .ro, 0x0⟩, ⟨16, 17, .ro, 0x1⟩]⟩,
  ⟨"RED.POLICYn", 0x9008, [(16, 0x40)], [⟨0, 1, .ro, 0x0⟩, ⟨1, 1, .ro, 0x0⟩, ⟨2, 2, .ro, 0x0⟩, ⟨4, 1, .ro, 0x0⟩, ⟨5, 3, .ro, 0x0⟩, ⟨8, 5, .ro, 0x0⟩, ⟨32, 32, .ro, 0x0⟩]⟩,
  ⟨"RED.LEDGERn", 0x9010, [(16, 0x40)], [⟨0, 32, .ro, 0x0⟩, ⟨32, 32, .rw, 0x0⟩]⟩,
  ⟨"RED.STATUSn", 0x9018, [(16, 0x40)], [⟨0, 4, .ro, 0x0⟩, ⟨4, 1, .ro, 0x0⟩, ⟨5, 1, .ro, 0x0⟩, ⟨6, 1, .ro, 0x0⟩, ⟨8, 13, .ro, 0x0⟩]⟩]

/-- The register map, part 7. -/
def regMap7 : List RBlock := [
  ⟨"RED.COUNTn", 0x9020, [(16, 0x40)], [⟨0, 16, .ro, 0x0⟩, ⟨16, 16, .ro, 0x0⟩, ⟨32, 16, .ro, 0x0⟩, ⟨48, 16, .ro, 0x0⟩]⟩,
  ⟨"DSP.COUNTn", 0x9028, [(16, 0x40)], [⟨0, 21, .ro, 0x0⟩, ⟨21, 21, .ro, 0x0⟩, ⟨42, 21, .ro, 0x0⟩]⟩,
  ⟨"CAS.STATEn", 0x28000000, [(16, 0x40)], [⟨0, 2, .ro, 0x0⟩, ⟨2, 1, .ro, 0x0⟩, ⟨4, 4, .ro, 0x0⟩, ⟨8, 6, .ro, 0x0⟩]⟩,
  ⟨"CAS.SHUFn", 0x28000008, [(16, 0x40)], [⟨0, 32, .ro, 0x0⟩, ⟨32, 32, .ro, 0x0⟩]⟩,
  ⟨"CAS.SEQn", 0x28000010, [(16, 0x40)], [⟨0, 64, .ro, 0x0⟩]⟩,
  ⟨"CAS.COUNTn", 0x28000018, [(16, 0x40)], [⟨0, 32, .ro, 0x0⟩, ⟨32, 32, .ro, 0x0⟩]⟩,
  ⟨"CAS.LOGn", 0x28000020, [(16, 0x40)], [⟨0, 32, .ro, 0x0⟩]⟩,
  ⟨"CAS.SHAREn", 0x28000028, [(16, 0x40)], [⟨0, 6, .rw, 0x0⟩]⟩,
  ⟨"CAS.TANSY", 0x28001000, [], [⟨0, 32, .ro, 0x0⟩]⟩,
  ⟨"NG.NODE", 0x30000000, [], [⟨0, 16, .rwl, 0x0⟩, ⟨16, 4, .rwl, 0x0⟩, ⟨20, 4, .rwl, 0x0⟩, ⟨24, 4, .rwl, 0x0⟩, ⟨28, 4, .rwl, 0x0⟩, ⟨32, 1, .rwl, 0x0⟩]⟩,
  ⟨"NG.TB", 0x30000008, [], [⟨0, 4, .ro, 0xF⟩, ⟨4, 1, .ro, 0x0⟩, ⟨5, 1, .ro, 0x0⟩, ⟨8, 8, .ro, 0x0⟩, ⟨16, 16, .ro, 0x0⟩]⟩,
  ⟨"NG.PORTp", 0x30000100, [(8, 0x20)], [⟨0, 3, .ro, 0x0⟩, ⟨3, 1, .rw, 0x0⟩, ⟨8, 8, .ro, 0x0⟩, ⟨16, 12, .ro, 0x0⟩, ⟨28, 12, .ro, 0x0⟩, ⟨40, 1, .ro, 0x0⟩]⟩]

/-- The register map, part 8. -/
def regMap8 : List RBlock := [
  ⟨"NG.ERRp", 0x30000108, [(8, 0x20)], [⟨0, 24, .ro, 0x0⟩, ⟨24, 16, .ro, 0x0⟩, ⟨40, 16, .ro, 0x0⟩, ⟨56, 8, .ro, 0x0⟩]⟩,
  ⟨"NG.VIOLp", 0x30000110, [(8, 0x20)], [⟨0, 16, .ro, 0x0⟩, ⟨16, 16, .ro, 0x0⟩, ⟨32, 16, .ro, 0x0⟩, ⟨48, 16, .ro, 0x0⟩]⟩,
  ⟨"NG.EQp_l", 0x30001000, [(8, 0x80), (12, 0x8)], [⟨0, 4, .ro, 0x0⟩, ⟨4, 8, .ro, 0x0⟩, ⟨16, 8, .ro, 0x0⟩, ⟨24, 8, .ro, 0x0⟩, ⟨32, 32, .ro, 0x0⟩]⟩,
  ⟨"CSN.LINK", 0x34000000, [], [⟨0, 3, .ro, 0x0⟩, ⟨8, 8, .ro, 0x0⟩, ⟨16, 12, .ro, 0x0⟩, ⟨28, 8, .ro, 0x0⟩, ⟨36, 1, .ro, 0x0⟩]⟩,
  ⟨"CSN.ERR", 0x34000008, [], [⟨0, 24, .ro, 0x0⟩, ⟨24, 16, .ro, 0x0⟩, ⟨40, 16, .ro, 0x0⟩, ⟨56, 8, .ro, 0x0⟩]⟩,
  ⟨"CSN.VIOL", 0x34000010, [], [⟨0, 16, .ro, 0x0⟩, ⟨16, 16, .ro, 0x0⟩, ⟨32, 16, .ro, 0x0⟩, ⟨48, 16, .ro, 0x0⟩]⟩,
  ⟨"CSN.QPq", 0x34000100, [(64, 0x8)], [⟨0, 2, .ro, 0x0⟩, ⟨2, 1, .ro, 0x0⟩, ⟨3, 1, .ro, 0x0⟩, ⟨4, 4, .ro, 0x0⟩, ⟨8, 1, .sc, 0x0⟩, ⟨16, 16, .ro, 0x0⟩, ⟨32, 16, .ro, 0x0⟩]⟩,
  ⟨"CSN.VLOG0", 0x34000400, [], [⟨0, 64, .ro, 0x0⟩]⟩,
  ⟨"CSN.VLOG1", 0x34000408, [], [⟨0, 8, .ro, 0x0⟩, ⟨8, 6, .ro, 0x0⟩, ⟨16, 8, .ro, 0x0⟩, ⟨24, 1, .w1c, 0x0⟩]⟩,
  ⟨"LATCH.STATUS", 0x38000000, [], [⟨0, 2, .ro, 0x0⟩, ⟨2, 1, .ro, 0x0⟩, ⟨3, 1, .ro, 0x0⟩, ⟨4, 1, .ro, 0x0⟩, ⟨5, 3, .ro, 0x0⟩, ⟨8, 8, .ro, 0x0⟩, ⟨16, 16, .ro, 0x0⟩]⟩,
  ⟨"LATCH.SIGN", 0x38000008, [], [⟨0, 40, .ro, 0x0⟩, ⟨40, 7, .ro, 0x0⟩]⟩,
  ⟨"LATCH.SVN", 0x38000010, [], [⟨0, 7, .ro, 0x0⟩, ⟨8, 7, .ro, 0x0⟩, ⟨16, 7, .ro, 0x0⟩]⟩,
  ⟨"LATCH.MEASm_w", 0x38000100, [(5, 0x20), (4, 0x8)], [⟨0, 64, .ro, 0x0⟩]⟩,
  ⟨"CLK.STATUS", 0xA000, [], [⟨0, 1, .ro, 0x0⟩, ⟨1, 1, .ro, 0x0⟩, ⟨2, 1, .ro, 0x0⟩, ⟨3, 1, .ro, 0x0⟩, ⟨4, 1, .ro, 0x0⟩, ⟨8, 3, .ro, 0x0⟩, ⟨12, 3, .ro, 0x0⟩, ⟨16, 12, .ro, 0x0⟩, ⟨32, 16, .ro, 0x0⟩]⟩]

/-- The register map, part 9. -/
def regMap9 : List RBlock := [
  ⟨"CLK.CTL", 0xA008, [], [⟨0, 3, .rw, 0x0⟩, ⟨4, 3, .rw, 0x0⟩, ⟨7, 1, .rw, 0x0⟩]⟩,
  ⟨"CLK.STEPk", 0xA010, [(8, 0x8)], [⟨0, 1, .ro, 0x0⟩, ⟨1, 2, .ro, 0x0⟩, ⟨8, 12, .ro, 0x0⟩]⟩,
  ⟨"CLK.REGIONr", 0xA100, [(23, 0x8)], [⟨0, 2, .ro, 0x0⟩, ⟨2, 1, .ro, 0x0⟩, ⟨8, 32, .ro, 0x0⟩]⟩,
  ⟨"CLK.PERIODr", 0xA600, [(23, 0x8)], [⟨0, 64, .ro, 0x0⟩]⟩,
  ⟨"TB.NOW", 0xA200, [], [⟨0, 64, .ro, 0x0⟩]⟩,
  ⟨"PWR.TELEM", 0xA300, [], [⟨0, 12, .ro, 0x0⟩, ⟨12, 16, .ro, 0x0⟩, ⟨28, 8, .ro, 0x0⟩, ⟨36, 1, .ro, 0x0⟩, ⟨37, 1, .ro, 0x0⟩, ⟨38, 1, .ro, 0x0⟩]⟩,
  ⟨"PWR.CEIL", 0xA308, [], [⟨0, 12, .rw, 0x640⟩, ⟨16, 12, .rw, 0x5AA⟩]⟩,
  ⟨"PWR.DOMn", 0xA400, [(16, 0x8)], [⟨0, 5, .ro, 0x0⟩, ⟨8, 12, .ro, 0x0⟩, ⟨32, 32, .ro, 0x0⟩]⟩,
  ⟨"PWR.CTXn", 0xA480, [(16, 0x8)], [⟨0, 12, .ro, 0x0⟩, ⟨16, 32, .ro, 0x0⟩]⟩,
  ⟨"RST.STATUS", 0xB000, [], [⟨0, 2, .ro, 0x0⟩, ⟨2, 1, .ro, 0x0⟩, ⟨3, 4, .ro, 0x0⟩, ⟨7, 2, .ro, 0x0⟩, ⟨9, 1, .ro, 0x0⟩, ⟨10, 1, .ro, 0x0⟩, ⟨11, 1, .ro, 0x0⟩]⟩,
  ⟨"RST.LAST", 0xB008, [], [⟨0, 3, .ro, 0x0⟩, ⟨3, 5, .ro, 0x0⟩, ⟨8, 4, .ro, 0x0⟩, ⟨12, 4, .ro, 0x0⟩, ⟨16, 1, .ro, 0x0⟩, ⟨32, 32, .ro, 0x0⟩]⟩,
  ⟨"RST.CDC", 0xB010, [], [⟨0, 16, .ro, 0x0⟩, ⟨16, 5, .ro, 0x0⟩, ⟨24, 5, .ro, 0x0⟩, ⟨32, 16, .ro, 0x0⟩]⟩]

/-- The register map, part 10. -/
def regMap10 : List RBlock := [
  ⟨"WDG.CTL", 0xB018, [], [⟨0, 16, .rw, 0xC8⟩, ⟨16, 16, .rw, 0x14⟩, ⟨32, 16, .rw, 0x7D0⟩]⟩,
  ⟨"WDG.DEADn", 0xB100, [(16, 0x8)], [⟨0, 32, .rw, 0x0⟩]⟩,
  ⟨"PERF.GRANTn", 0xC000, [(16, 0x8)], [⟨0, 2, .rw, 0x0⟩]⟩,
  ⟨"PERF.SELk", 0xC100, [(8, 0x8)], [⟨0, 8, .rw, 0x0⟩, ⟨8, 4, .rw, 0x0⟩, ⟨12, 4, .rw, 0x0⟩, ⟨16, 1, .rw, 0x0⟩, ⟨20, 8, .rw, 0x0⟩, ⟨28, 12, .rw, 0x0⟩, ⟨48, 1, .rw, 0x0⟩]⟩,
  ⟨"PERF.MSELk", 0xC140, [(8, 0x8)], [⟨0, 8, .rw, 0x0⟩, ⟨8, 4, .rw, 0x0⟩, ⟨12, 4, .rw, 0x0⟩, ⟨16, 1, .rw, 0x0⟩, ⟨20, 8, .rw, 0x0⟩, ⟨28, 12, .rw, 0x0⟩, ⟨48, 1, .rw, 0x0⟩]⟩,
  ⟨"PERF.MCNTk", 0xC180, [(8, 0x8)], [⟨0, 64, .ro, 0x0⟩]⟩,
  ⟨"PERF.BWCTL", 0xC200, [], [⟨0, 32, .rw, 0xF4240⟩, ⟨32, 32, .ro, 0x0⟩]⟩,
  ⟨"PERF.BWINp", 0xC800, [(34, 0x10)], [⟨0, 48, .ro, 0x0⟩, ⟨48, 16, .ro, 0x0⟩]⟩,
  ⟨"PERF.BWOUTp", 0xC808, [(34, 0x10)], [⟨0, 48, .ro, 0x0⟩, ⟨48, 16, .ro, 0x0⟩]⟩,
  ⟨"EVLOG.WR", 0xC300, [], [⟨0, 32, .ro, 0x0⟩]⟩,
  ⟨"DBG.HZn", 0xC400, [(16, 0x8)], [⟨0, 32, .ro, 0x0⟩, ⟨32, 1, .ro, 0x0⟩, ⟨33, 1, .ro, 0x0⟩, ⟨34, 1, .ro, 0x0⟩]⟩,
  ⟨"PMC.CNTk", 0x10002F80, [(512, 0x40000), (8, 0x8)], [⟨0, 64, .ro, 0x0⟩]⟩]

/-- The register map, part 11. -/
def regMap11 : List RBlock := [
  ⟨"TILE.POISON", 0x10002FC0, [(512, 0x40000)], [⟨0, 16, .ro, 0x0⟩, ⟨16, 16, .ro, 0x0⟩, ⟨32, 16, .ro, 0x0⟩]⟩]

/-- The register map. -/
def regMap : List RBlock := regMap0 ++ regMap1 ++ regMap2 ++ regMap3 ++ regMap4 ++ regMap5 ++ regMap6 ++ regMap7 ++ regMap8 ++ regMap9 ++ regMap10 ++ regMap11

/-- Whether an offset is an element of an array of the dimensions given. -/
def dimsHit : List (Nat × Nat) → Nat → Bool
  | [], off => off == 0
  | (c, st) :: ds, off => decide (off / st < c) && dimsHit ds (off % st)

/-- The register that occupies an address, if any (R34). -/
def blockAt (a : Nat) : Option RBlock :=
  regMap.find? (fun b => decide (b.base ≤ a) && dimsHit b.dims (a - b.base))

/-! ## Fields of a 64-bit value -/

/-- Bits [lo + w − 1 : lo]. -/
def getF (v : Word64) (lo w : Nat) : Nat := (v.toNat >>> lo) % 2 ^ w

/-- Replace bits [lo + w − 1 : lo]. -/
def putF (v : Word64) (lo w x : Nat) : Word64 :=
  BitVec.ofNat 64 (v.toNat - ((v.toNat >>> lo) % 2 ^ w) <<< lo + (x % 2 ^ w) <<< lo)

/-- The value a block holds after reset. -/
def RBlock.resetVal (b : RBlock) : Word64 :=
  b.fields.foldl (fun v f => putF v f.lo f.width f.reset) 0

/-- The reset value of the register at an address. -/
def regReset (a : Nat) : Word64 :=
  match blockAt a with
  | some b => b.resetVal
  | none => 0

/-! ## Access by address -/

/-- The register at an address, as held. -/
def reg (s : State) (a : Nat) : Word64 := s.regs.get regReset a

/-- Set the register at an address. -/
def setReg (s : State) (a : Nat) (v : Word64) : State := { s with regs := s.regs.set regReset a v }

/-- A field of the register at an address. -/
def fld (s : State) (a lo w : Nat) : Nat := getF (reg s a) lo w

/-- Set a field of the register at an address. -/
def setFld (s : State) (a lo w x : Nat) : State := setReg s a (putF (reg s a) lo w x)

/-- Add to a counter field that saturates. -/
def satAdd (s : State) (a lo w n : Nat) : State := setFld s a lo w (min (fld s a lo w + n) (2 ^ w - 1))

/-- Return every register whose address `p` selects to its reset value. -/
def resetRegs (s : State) (p : Nat → Bool) : State := { s with regs := s.regs.clear p }

/-! ## Windows (R34, R35) -/

def modG (off : Nat) : Nat := 0x8000 + off
def ringA (r off : Nat) : Nat := 0x1000000 + r * 0x100000 + off
def tileA (t off : Nat) : Nat := 0x10000000 + t * 0x40000 + off
def memA (off : Nat) : Nat := 0x20000000 + off
def casA (off : Nat) : Nat := 0x28000000 + off
def ngA (off : Nat) : Nat := 0x30000000 + off
def csnA (off : Nat) : Nat := 0x34000000 + off
def latchA (off : Nat) : Nat := 0x38000000 + off

/-- The first address of a UCB page (R34, R35). -/
def pageA : Page → Nat
  | .module n => n.toNat * 0x100
  | .owner => 0x1000
  | .gang n => 0x4000 + n.toNat * 0x100
  | .ring r n => ringA r.toNat (n.toNat * 0x100)
  | .tile t n => tileA t.toNat (n.toNat * 0x100)

/-- The page a UCB address lies in, with the offset in the page. -/
def pageAt (a : Nat) : Option (Page × Nat) :=
  let n (x : Nat) : CtxId := BitVec.ofNat 4 (x / 0x100)
  if a < 0x1000 then some (.module (n a), a % 0x100)
  else if a < 0x1100 then some (.owner, a % 0x100)
  else if 0x4000 ≤ a && a < 0x5000 then some (.gang (n (a - 0x4000)), a % 0x100)
  else if 0x1000000 ≤ a && a < 0x2000000 then
    let o := (a - 0x1000000) % 0x100000
    if o < 0x1000 then some (.ring (BitVec.ofNat 4 ((a - 0x1000000) / 0x100000)) (n o), o % 0x100) else none
  else if 0x10000000 ≤ a && a < 0x18000000 then
    let o := (a - 0x10000000) % 0x40000
    if o < 0x1000 then some (.tile (BitVec.ofNat 9 ((a - 0x10000000) / 0x40000)) (n o), o % 0x100) else none
  else none

/-! ## Tables of fields: what a register write does by access code (R10, R13) -/

/-- One field under a write, by its access code; RWL fields act as RW here, their lock is kept by the caller. -/
def writeField (old v : Word64) (acc : Word64) (f : RField) : Word64 :=
  let x := getF v f.lo f.width
  let o := getF old f.lo f.width
  match f.acc with
  | .rw | .rwl => putF acc f.lo f.width x
  | .w1c => putF acc f.lo f.width (o - (o &&& x))
  | .w1s => putF acc f.lo f.width (o ||| x)
  | .ro | .wo | .sc => acc

/-- The value of a register after a write, field by field (R13). -/
def writeFields (b : RBlock) (old v : Word64) : Word64 := b.fields.foldl (writeField old v) old

end Sys2Proof.Machine
end

