-- ==== Sys2Proof/Machine/Flags.lean ====
section
/-! DEFINITION. Flags and the counts held beside them: W1C flags with an overrun count (R12, R451), the UCB error record
(R38), the host violation record (R379), the module event log's queue (R452), and the completion statuses' ranking (R48). -/

namespace Sys2Proof.Machine

/-! ## Registers used everywhere -/

def aTbNow : Nat := modG 0x2200
def aRstStatus : Nat := modG 0x3000
def aNode : Nat := ngA 0x0
def aFence (i : Nat) : Nat := modG (8 * i)
def aFingerprint : Nat := modG 0x40
def aShtMap : Nat := modG 0x500
def aShtOwner : Nat := modG 0x508
def aShtOwned : Nat := modG 0x510
def aShtState (n : Nat) : Nat := modG (0x600 + n * 0x20)
def aShtLast (n : Nat) : Nat := modG (0x608 + n * 0x20)
def aShtHold (n : Nat) : Nat := modG (0x610 + n * 0x20)
def aCtx (n : CtxId) : Nat := n.toNat * 0x100 + 0x40
def aVlog0 : Nat := csnA 0x400
def aVlog1 : Nat := csnA 0x408
def aPair (q : PairId) : Nat := csnA (0x100 + q.toNat * 8)

/-- The Timebase, in ns (R407). -/
def nowNs (s : State) : Nat := (reg s aTbNow).toNat

/-- RST.STATUS.MODE (R423): 0 START, 1 NORMAL, 2 TEST, 3 RECOVERY. -/
def modeOf (s : State) : Nat := fld s aRstStatus 0 2

/-- Normal service. -/
def isNormal (s : State) : Bool := modeOf s == 1

/-- What a unit of the module does on its own: nothing with the 48 V input off (R28). -/
def powered (s t : State) : State := if s.sup.inputOn then t else s

/-- The next free value, and the state that has used it. -/
def takeFree (s : State) : Word64 × State := (Config.free s.freeCtr, { s with freeCtr := s.freeCtr + 1 })

/-- The module's node ID (R359). -/
def nodeId (s : State) : BitVec 16 := BitVec.ofNat 16 (fld s aNode 0 16)

/-- A unit address, UCB.ID[31:0] (R34): LEVEL, INDEX and NODE. -/
def unitAddr (level index : Nat) (node : BitVec 16) : BitVec 32 :=
  BitVec.ofNat 32 (level + index * 16 + node.toNat * 65536)

def unitTile (s : State) (t : TileId) : BitVec 32 := unitAddr 0 t.toNat (nodeId s)
def unitModule (s : State) : BitVec 32 := unitAddr 2 0 (nodeId s)

/-! ## Flags with an overrun count -/

/-- The source of a flag sets it: an ordinary setting when it reads 0, a lost one when it reads 1 (R451). -/
def flagSet (s : State) (a flag ovr : Nat) : State :=
  if fld s a flag 1 == 1 then satAdd s a ovr 8 1 else setFld s a flag 1 1

/-- A write of 1 to the flag; `setNow` when the source sets it in the same cycle, in which case the set wins (R12). -/
def flagClear (s : State) (a flag ovr : Nat) (setNow : Bool) : State :=
  let was := fld s a flag 1
  if setNow then setFld (setFld s a flag 1 1) a ovr 8 was
  else setFld (setFld s a flag 1 0) a ovr 8 0

/-- An error record in UCB.ERR layout. -/
def errWord (code : Byte) (ctx : CtxId) (unit : BitVec 32) (tag : BitVec 16) : Word64 :=
  BitVec.ofNat 64 (code.toNat + ctx.toNat * 2 ^ 8 + unit.toNat * 2 ^ 16 + tag.toNat * 2 ^ 48)

/-- Record an error at a UCB page: the first since ERR_VALID was cleared, later ones counted (R38). -/
def errRecord (s : State) (p : Page) (w : Word64) : State :=
  let a := pageA p + 0x30
  if fld s a 48 1 == 1 then satAdd s a 40 8 1
  else setReg (setFld s a 48 1 1) (pageA p + 0x38) w

/-! ## The event log's queue (R452) -/

/-- An event for Lintel to write at its next tick. -/
def recordEv (s : State) (code : Nat) (ctx : Byte) (unit : BitVec 32) (d0 d1 : Word64) : State :=
  { s with evs := s.evs ++ [⟨reg s aTbNow, BitVec.ofNat 16 code, ctx, unit, d0, d1⟩] }

/-! ## Host violations (R377, R379) -/

/-- The times of the last millisecond among a list, with the present time added. -/
def recentTimes (s : State) (l : List Nat) : List Nat :=
  (l.filter (fun x => decide (nowNs s < x + 1000000))) ++ [nowNs s]

/-- Log a host violation with its code, count it against its pair, and disable the pair on the 65th within 1 ms. -/
def violation (s : State) (q : PairId) (code : Nat) (addr : Nat) : State :=
  let s := if fld s aVlog1 24 1 == 1 then satAdd s aVlog1 16 8 1
    else setReg (setReg s aVlog0 (BitVec.ofNat 64 addr)) aVlog1
      (BitVec.ofNat 64 (code + q.toNat * 2 ^ 8 + fld s aVlog1 16 8 * 2 ^ 16 + 2 ^ 24))
  let ctx : Byte := if fld s (aPair q) 0 3 == 1 || fld s (aPair q) 0 3 == 2 then BitVec.ofNat 8 (fld s (aPair q) 4 4) else 0xFF
  let s := recordEv s 1 ctx (unitModule s) (BitVec.ofNat 64 addr) (BitVec.ofNat 64 (code + q.toNat * 2 ^ 8))
  let s := satAdd s (aPair q) 16 16 1
  let l := recentTimes s (s.violTimes.get (fun _ => []) q.toNat)
  let s := { s with violTimes := s.violTimes.set (fun _ => []) q.toNat l }
  if 64 < l.length && fld s (aPair q) 0 2 == 1 && q != 63 then setFld s (aPair q) 0 2 2 else s

/-! ## Completion statuses (R41, R43, R48, R272, R322, R374, R399) -/

def stOk : Byte := 0x00
def stBadState : Byte := 0x01
def stMalformed : Byte := 0x02
def stRefuse : Byte := 0x03
def stFingerprint : Byte := 0x04
def stBudget : Byte := 0x05
def stFault : Byte := 0x06
def stAborted : Byte := 0x07
def stNoMemory : Byte := 0x08
def stDiverged : Byte := 0x09
def stHostXlate : Byte := 0x0A
def stHostMemerr : Byte := 0x0B
def stAuthFail : Byte := 0x0C
def stNoEntropy : Byte := 0x0D
def stTableFull : Byte := 0x0E

/-- The order of R48, first the status that a group takes before every other. -/
def statusOrder : List Byte :=
  [stFault, stRefuse, stAborted, stBadState, stMalformed, stBudget, stNoMemory, stTableFull, stFingerprint,
    stHostXlate, stHostMemerr, stAuthFail, stNoEntropy, stDiverged, stOk]

/-- The status of a group with two members' statuses (R48). -/
def statusJoin (a b : Byte) : Byte :=
  if statusOrder.idxOf a ≤ statusOrder.idxOf b then a else b

end Sys2Proof.Machine
end

