-- ==== Sys2Proof/WellFormed.lean ====
section
/-! DEFINITION. What a well-formed command is: operands of the ranges the manual gives the things they name, where the
operand's type alone does not say it. An ill-formed command changes nothing. -/

namespace Sys2Proof

/-- An engine names a part the module has (R17, R432): 48 decode engines, 16 tokeniser pipelines. -/
def Engine.wf : Engine → Bool
  | .decode e => decide (e.toNat < 48)
  | _ => true

/-- A clock region 0 to 22 (R404). -/
def regionWf (r : BitVec 5) : Bool := decide (r.toNat < 23)

/-- A shutter cause 0 to 6 (R242). -/
def causeWf (c : BitVec 3) : Bool := decide (c.toNat < 7)

/-- A port that carries flits: fabric 0 to 7, or 8 for Cersin. -/
def portWf (p : BitVec 4) : Bool := decide (p.toNat ≤ 8)

/-- The lanes of a port, and of Cersin as port 8 (R344, R365). -/
def lanesOf (p : Nat) : Nat := if p == 8 then 8 else 12

/-- A slot brings 256 bytes, which one or two codewords of 544 symbols hold (R347, R348). -/
def WireFlit.wf (w : WireFlit) : Bool :=
  w.bytes.length == 256 && decide (w.errs.length ≤ 2) && w.errs.all (fun e => e.all (fun i => decide (i < 544)))

/-- Well-formed commands. -/
def Instr.wf : Instr → Bool
  | .shutterRequest _ c _ => causeWf c
  | .shutterWithdraw _ c _ => causeWf c
  | .adaptiveStretch r e => regionWf r && decide (0 < e.toNat ∧ e.toNat ≤ 4)
  | .cdcStall _ a b => regionWf a && regionWf b
  | .sampleDecodeComplete e => decide (e.toNat < 48)
  | .casDispatch e => decide (e.toNat < 48)
  | .flitReceive p w => portWf p && w.wf
  | .credit p _ => portWf p
  | .noCodewordTimeout p => portWf p
  | .engineHang e => e.wf
  | .engineReset e => e.wf
  | .engineResetComplete e => e.wf
  | _ => true

end Sys2Proof
end

