-- ==== Sys2Proof/Machine/Ops.lean ====
section
/-! DEFINITION. The named operations over the state that the meanings share: contexts, tiles and tasks, the scratchpad,
tile queues, the accumulator store, tokens, the end of commands, and the faults. -/

namespace Sys2Proof.Machine

/-! ## Contexts (R51) and units -/

def ctxState (s : State) (n : CtxId) : Nat := fld s (aCtx n) 0 4
def setCtxState (s : State) (n : CtxId) (x : Nat) : State := setFld s (aCtx n) 0 4 x

/-- The tile is fenced (R3, R39). -/
def isFenced (s : State) (t : TileId) : Bool := fld s (aFence (t.toNat / 64)) (t.toNat % 64) 1 == 1

/-- The ring is out of service (R257). -/
def isOos (s : State) (r : RingId) : Bool := fld s aShtOwned (16 + r.toNat) 1 == 1

/-- The ring of a tile, and its column (R30). -/
def ringOf (t : TileId) : RingId := BitVec.ofNat 4 (t.toNat / 32)
def colOf (t : TileId) : Nat := t.toNat % 32
def rowOf (t : TileId) : Nat := t.toNat / 32
def tileAt (c r : Nat) : TileId := BitVec.ofNat 9 (r * 32 + c)

/-- The tile is enabled and its ring in service. -/
def tileOn (s : State) (t : TileId) : Bool := !isFenced s t && !isOos s (ringOf t)

def allTiles : List TileId := (List.range 512).map (BitVec.ofNat 9)
def allRings : List RingId := (List.range 16).map (BitVec.ofNat 4)
def allCtx : List CtxId := (List.range 16).map (BitVec.ofNat 4)
def ringTiles (r : RingId) : List TileId := (List.range 32).map (fun c => tileAt c r.toNat)

/-- The head of a ring's schedule domain (R237), and the rings of a domain. -/
def headOf (s : State) (r : RingId) : RingId := BitVec.ofNat 4 (fld s aShtMap (4 * r.toNat) 4)
def domainRings (s : State) (h : RingId) : List RingId := allRings.filter (fun r => headOf s r == h)

def shutDef : Nat → Shut := fun _ => ⟨[], 0, 0, 0, 0, [], []⟩
/-- The shutter controller of a head, and its STATE: 0 OPEN, 1 CLOSING, 2 CLOSED, 3 OPENING. -/
def shutOf (s : State) (h : RingId) : Shut := s.shuts.get shutDef h.toNat
def shutState (s : State) (h : RingId) : Nat := fld s (aShtState h.toNat) 0 2

/-- The shutter of a ring's domain lets open cycles pass (R243 to R245): it is OPEN or CLOSING. -/
def shutterOpen (s : State) (r : RingId) : Bool := shutState s (headOf s r) ≤ 1

/-- The clock of a ring's region is stopped (R413). -/
def clockStopped (s : State) (r : RingId) : Bool := s.gov.stopped.any (fun e => e.1 == r && decide (nowNs s < e.2))

/-- A ring executes open cycles: its domain's shutter is OPEN or CLOSING, and its clock runs. -/
def ringOpen (s : State) (r : RingId) : Bool := shutterOpen s r && !clockStopped s r

/-- A tile can act: it is in service and its domain is open. -/
def tileRuns (s : State) (t : TileId) : Bool := tileOn s t && ringOpen s (ringOf t)

/-- The context's work goes on: it is RUNNING or PAUSED (R59, R165). -/
def ctxLive (s : State) (n : CtxId) : Bool := ctxState s n == 3 || ctxState s n == 4

/-! ## The engines' progress counts (R432) -/

/-- The key of an engine in the watchdog's maps. -/
def engineCode (e : Engine) : Nat :=
  match e with
  | .array t => 8 * t.toNat
  | .louvre t => 8 * t.toNat + 1
  | .vector t => 8 * t.toNat + 2
  | .stream t => 8 * t.toNat + 3
  | .gather t => 8 * t.toNat + 4
  | .decode k => 4096 + k.toNat
  | .token p => 4164 + p.toNat
  | .shuffle => 4161
  | .reduction => 4162
  | .dispatch => 4163

/-- An engine completes a row, beat, request or sample. -/
def bump (s : State) (k : Nat) : State := { s with progress := s.progress.set (fun _ => 0) k (s.progress.get (fun _ => 0) k + 1) }

/-! ## Tasks and threads (R53, R54) -/

def aTask (t : TileId) (k : Nat) : Nat := tileA t.toNat (0x2000 + 8 * k)
def aBase (t : TileId) (k : Nat) : Nat := tileA t.toNat (0x2040 + 8 * k)
def aBound (t : TileId) (k : Nat) : Nat := tileA t.toNat (0x2080 + 8 * k)
def aThread (t : TileId) (h : ThreadId) : Nat := tileA t.toNat (0x2100 + 8 * h.toNat)
def aEcc (t : TileId) : Nat := tileA t.toNat 0x2200
def aTq (t : TileId) (q : Nat) : Nat := tileA t.toNat (0x2280 + 8 * q)
def aCurve (t : TileId) (k : Nat) : Nat := tileA t.toNat (0x2300 + 8 * k)
def aRmap (t : TileId) (bank e : Nat) : Nat := tileA t.toNat (0x2400 + (bank * 16 + e) * 8)
def aSte (t : TileId) (n : Nat) : Nat := tileA t.toNat (0x2C00 + 8 * n)
def aArrStatus (t : TileId) : Nat := tileA t.toNat 0x2E00
def aArrRing (t : TileId) : Nat := tileA t.toNat 0x2E08
def aArrCount (t : TileId) : Nat := tileA t.toNat 0x2E10
def aArrNonfin (t : TileId) : Nat := tileA t.toNat 0x2E18
def aConv (t : TileId) : Nat := tileA t.toNat 0x2E40
def aLvr (t : TileId) : Nat := tileA t.toNat 0x2E60
def aLvrCount (t : TileId) : Nat := tileA t.toNat 0x2E68
def aChain (t : TileId) (k : Nat) : Nat := tileA t.toNat (0x2E80 + 8 * k)
def aTbl (t : TileId) (n : CtxId) : Nat := tileA t.toNat (0x2F00 + 8 * n.toNat)
def aPoison (t : TileId) : Nat := tileA t.toNat 0x2FC0
def aRtr (t : TileId) : Nat := ringA (rowOf t) (0x2000 + 8 * colOf t)
def aSeed (n : CtxId) : Nat := modG (0x100 + n.toNat * 0x10)
def aStep (n : CtxId) : Nat := modG (0x108 + n.toNat * 0x10)

def taskValid (s : State) (t : TileId) (k : Nat) : Bool := fld s (aTask t k) 0 1 == 1
def taskCtx (s : State) (t : TileId) (k : Nat) : CtxId := BitVec.ofNat 4 (fld s (aTask t k) 1 4)
def taskIbase (s : State) (t : TileId) (k : Nat) : Nat := fld s (aTask t k) 8 13
def taskIlimit (s : State) (t : TileId) (k : Nat) : Nat := fld s (aTask t k) 21 14
def taskAbase (s : State) (t : TileId) (k : Nat) : Nat := fld s (aTask t k) 35 5
def taskAlimit (s : State) (t : TileId) (k : Nat) : Nat := fld s (aTask t k) 40 6
def taskSbase (s : State) (t : TileId) (k : Nat) : Nat := fld s (aTask t k) 46 6
def taskScount (s : State) (t : TileId) (k : Nat) : Nat := fld s (aTask t k) 52 7

/-- Lintel gives n stream contexts from `base` on to task slot k (R85). -/
def ownStrms (s : State) (t : TileId) (base n k : Nat) : State :=
  (List.range n).foldl (fun s i => setFld s (aSte t (base + i)) 4 3 k) s

/-- A valid task of a context on a tile. -/
def taskOfCtx (s : State) (t : TileId) (n : CtxId) (k : Nat) : Bool := taskValid s t k && taskCtx s t k == n

/-- The lowest valid task slot of a context on a tile (R217). -/
def lowTask (s : State) (t : TileId) (n : CtxId) : Option Nat := (List.range 8).find? (taskOfCtx s t n)

def threadState (s : State) (t : TileId) (h : ThreadId) : Nat := fld s (aThread t h) 0 3
def setThreadState (s : State) (t : TileId) (h : ThreadId) (x : Nat) : State := setFld s (aThread t h) 0 3 x
def threadTask (s : State) (t : TileId) (h : ThreadId) : Nat := fld s (aThread t h) 4 3
def threadPc (s : State) (t : TileId) (h : ThreadId) : Nat := fld s (aThread t h) 8 13

def keyThread (t : TileId) (h : ThreadId) : Nat := t.toNat * 32 + h.toNat
def keyTask (t : TileId) (k : Nat) : Nat := t.toNat * 8 + k

/-- Thread slots assigned to a task (R163). -/
def tslotsOf (s : State) (t : TileId) (k : Nat) : BitVec 32 := s.tslots.get (fun _ => 0) (keyTask t k)

/-- The 32-bit IMM32 and OFF32 fields, sign-extended (R169). -/
def sext32 (x : Nat) : Word64 := (BitVec.ofNat 32 x).signExtend 64

/-- A g register; g0 reads 0 (R161). -/
def greg (s : State) (t : TileId) (h : ThreadId) (r : Nat) : Word64 :=
  if r == 0 then 0 else s.gregs.get (fun _ => 0) (keyThread t h * 32 + r)

/-- Write a g register; writes to g0 are ignored (R161). -/
def setGreg (s : State) (t : TileId) (h : ThreadId) (r : Nat) (v : Word64) : State :=
  if r == 0 then s else { s with gregs := s.gregs.set (fun _ => 0) (keyThread t h * 32 + r) v }

/-- A predicate; p0 reads 1 (R161). -/
def predOf (s : State) (t : TileId) (h : ThreadId) (p : Nat) : Bool :=
  p == 0 || ((s.preds.get (fun _ => 0) (keyThread t h)).toNat >>> p) % 2 == 1

/-- Write a predicate; writes to p0 are ignored (R161). -/
def setPred (s : State) (t : TileId) (h : ThreadId) (p : Nat) (v : Bool) : State :=
  if p == 0 then s
  else
    let o := (s.preds.get (fun _ => 0) (keyThread t h)).toNat
    let o := o - ((o >>> p) % 2) <<< p + (if v then 1 <<< p else 0)
    { s with preds := s.preds.set (fun _ => 0) (keyThread t h) (BitVec.ofNat 8 o) }

/-- Start a thread slot of a task at a PC with its registers at their initial values (R161, R163, R185). A PC that the thread
register cannot hold is outside the task's code (R177). -/
def startThread (s : State) (t : TileId) (h : ThreadId) (k pc : Nat) (g1 : Word64) : State :=
  let key := keyThread t h
  let s := { s with
    gregs := s.gregs.clear (fun i => i / 32 == key),
    preds := s.preds.set (fun _ => 0) key 0,
    pcOut := s.pcOut.set (fun _ => false) key (decide (8192 ≤ pc)),
    wake := s.wake.set (fun _ => 0) key 0,
    barriers := s.barriers.set (fun _ => 0) key 0 }
  setGreg (setReg s (aThread t h) (BitVec.ofNat 64 (1 + k * 16 + pc % 8192 * 256))) t h 1 g1

/-! ## Scratchpad (R60 to R66) -/

/-- Bytes and granule marks of a tile's scratchpad; an unwritten byte reads 0 (every start zero-fills, R64). -/
def spDef : Nat → Byte := fun _ => 0
def markDef : Nat → BitVec 2 := fun _ => 0

/-- The row that holds a logical row of a bank, through the row map (R65). -/
def mapRow (s : State) (t : TileId) (bank row : Nat) : Nat :=
  match (List.range 16).find? (fun e =>
    fld s (aRmap t bank e) 0 1 == 1 && fld s (aRmap t bank e) 4 10 == row) with
  | some e => 1024 + e
  | none => row

/-- The key of a physical scratchpad byte: the tile, then bank and row as mapped. -/
def spKey (s : State) (t : TileId) (pa : Nat) : Nat :=
  t.toNat * 2 ^ 22 + mapRow s t (pa / 128 % 16) (pa / 2048) * 2048 + pa % 2048

def spByte (s : State) (t : TileId) (pa : Nat) : Byte := SMap.get spDef s.sp (spKey s t pa)

/-- The bytes of a physical range. -/
def spRead (s : State) (t : TileId) (pa len : Nat) : List Byte := (List.range len).map (fun i => spByte s t (pa + i))

/-- The mark of a physical byte's granule: 0 good, 1 poisoned, 2 uncorrectable, 3 a single-bit error. -/
def spMarkAt (s : State) (t : TileId) (pa : Nat) : Nat :=
  (SMap.get markDef s.spMark (spKey s t pa / 32)).toNat

/-- The granules of a physical range. -/
def granules (pa len : Nat) : List Nat := if len == 0 then [] else (List.range ((pa + len - 1) / 32 - pa / 32 + 1)).map (fun i => pa / 32 + i)

/-- What consuming a range meets: 2 an uncorrectable granule, else 1 a poisoned one, else 0. -/
def spMark (s : State) (t : TileId) (pa len : Nat) : Nat :=
  let ms := (granules pa len).map (fun g => spMarkAt s t (g * 32))
  if ms.contains 2 then 2 else if ms.contains 1 then 1 else 0

/-- Record an error of a row in TSP.ECC: the first since CE and UE were clear; an uncorrectable one replaces a corrected
one (R63 and the register's fields). -/
def eccRecord (s : State) (t : TileId) (pa : Nat) (ue : Bool) : State :=
  let a := aEcc t
  let key := t.toNat * 16384 + pa / 128 % 16 * 1024 + pa / 2048
  let g := s.gov
  let s := if ue then { s with gov := { g with ueRows := if g.ueRows.contains key then g.ueRows else g.ueRows ++ [key] } }
    else { s with gov := { g with eccTimes := g.eccTimes.set (fun _ => []) key (g.eccTimes.get (fun _ => []) key ++ [s.tick]) } }
  let s := if ue then s else satAdd s a 0 16 1
  let ce := fld s a 16 1 == 1
  let u := fld s a 17 1 == 1
  if u || (ce && !ue) then satAdd s a 32 8 1
  else
    let s := if ce then setFld s a 16 1 0 else s
    setFld (setFld (setFld s a (if ue then 17 else 16) 1 1) a 18 4 (pa / 128 % 16)) a 22 10 (pa / 2048)

/-- The record that a read of a range leaves: single-bit errors are corrected and counted, uncorrectable ones recorded. -/
def eccRead (s : State) (t : TileId) (pa len : Nat) : State :=
  (granules pa len).foldl (fun s g =>
    let m := spMarkAt s t (g * 32)
    if m == 3 then eccRecord s t (g * 32) false else if m == 2 then eccRecord s t (g * 32) true else s) s

/-- Set the mark of a granule. -/
def setMark (s : State) (t : TileId) (g m : Nat) : State :=
  { s with spMark := SMap.set markDef s.spMark (spKey s t (g * 32) / 32) (BitVec.ofNat 2 m) }

/-- Write bytes at a physical address: a whole granule clears its mark; a part of an uncorrectable granule is merged
and the granule poisoned, and a part of one with a single-bit error is merged with its corrected bytes (R63, R180). The read
that merging makes is recorded where `count` says so. `poison` marks every granule written. -/
def spMerge (s : State) (t : TileId) (pa : Nat) (bs : List Byte) (poison count : Bool) : State :=
  let len := bs.length
  let s := (granules pa len).foldl (fun s g =>
    let whole := decide (pa ≤ g * 32 ∧ g * 32 + 32 ≤ pa + len)
    let m := spMarkAt s t (g * 32)
    let s := if whole || !count then s
      else if m == 2 then eccRecord s t (g * 32) true
      else if m == 3 then eccRecord s t (g * 32) false else s
    if poison then setMark s t g 1
    else if whole then setMark s t g 0
    else if m == 2 then setMark s t g 1
    else if m == 3 then setMark s t g 0 else s) s
  { s with sp := (bs.zipIdx).foldl (fun m e => SMap.set spDef m (spKey s t (pa + e.2)) e.1) s.sp }

/-- A write whose own merging read is recorded. -/
def spWrite (s : State) (t : TileId) (pa : Nat) (bs : List Byte) (poison : Bool := false) : State :=
  spMerge s t pa bs poison true

/-- Zero-fill a physical range, poison clear (R64). -/
def spZero (s : State) (t : TileId) (lo hi : Nat) : State :=
  spWrite s t lo (List.replicate (hi - lo) 0)

/-- The physical address of a task-relative access of `len` bytes, if it lies in the region, which ends inside the 2 MiB of the
scratchpad (R60, R62). -/
def spPhys (s : State) (t : TileId) (k addr len : Nat) : Option Nat :=
  let base := fld s (aBase t k) 11 10 * 2048
  let bound := min (fld s (aBound t k) 11 11 * 2048) (2 ^ 21)
  if base + addr < bound ∧ base + addr + len ≤ bound then some (base + addr) else none

/-! ## Tile queues (R69, R70) -/

def tqValid (s : State) (t : TileId) (q : Nat) : Bool := fld s (aTq t q) 3 1 == 1
def tqTask (s : State) (t : TileId) (q : Nat) : Nat := fld s (aTq t q) 0 3
def tqSlots (s : State) (t : TileId) (q : Nat) : Nat := fld s (aTq t q) 21 10
def tqFill (s : State) (t : TileId) (q : Nat) : Nat := fld s (aTq t q) 32 10
def tqHead (s : State) (t : TileId) (q : Nat) : Nat := s.qhead.get (fun _ => 0) (t.toNat * 16 + q)

/-- The physical address of the slot i after the head. -/
def tqSlot (s : State) (t : TileId) (q i : Nat) : Nat :=
  (fld s (aTq t q) 7 14 + (tqHead s t q + i) % max 1 (tqSlots s t q)) * 128

/-- The slots of a queue that a ring entry has taken and whose rows have not returned (R69, R104). -/
def tqFlight (s : State) (t : TileId) (q : Nat) : Nat := (s.ringBeats.filter (fun b => b.entry == t && b.queue == some q)).length

def tqHasSlot (s : State) (t : TileId) (q : Nat) : Bool := decide (tqFill s t q + tqFlight s t q < tqSlots s t q)

/-- Write a slot whole; the caller has checked that one is free. Shorter data fills the slot with zero bytes. -/
def tqPush (s : State) (t : TileId) (q : Nat) (bs : List Byte) (poison : Bool := false) : State :=
  let s' := spWrite s t (tqSlot s t q (tqFill s t q)) (bs ++ List.replicate (128 - bs.length) 0) poison
  setFld s' (aTq t q) 32 10 (tqFill s t q + 1)

/-- The first slot's bytes. -/
def tqFront (s : State) (t : TileId) (q : Nat) : List Byte := spRead s t (tqSlot s t q 0) 128

/-- Free the first slot. -/
def tqPop (s : State) (t : TileId) (q : Nat) : State :=
  { setFld s (aTq t q) 32 10 (tqFill s t q - 1) with
    qhead := s.qhead.set (fun _ => 0) (t.toNat * 16 + q) ((tqHead s t q + 1) % max 1 (tqSlots s t q)) }

/-! ## Accumulator store (R83, R97) -/

def accKey (t : TileId) (row col : Nat) : Nat := t.toNat * 131072 + row * 64 + col
def accGet (s : State) (t : TileId) (row col : Nat) : F32 := s.acc.get (fun _ => 0) (accKey t row col)
def accRow (s : State) (t : TileId) (row : Nat) : List F32 := (List.range 64).map (accGet s t row)
def accSet (s : State) (t : TileId) (row col : Nat) (v : F32) : State :=
  { s with acc := s.acc.set (fun _ => 0) (accKey t row col) v }
def accSetRow (s : State) (t : TileId) (row : Nat) (vs : List F32) : State :=
  (vs.zipIdx).foldl (fun s e => accSet s t row e.2 e.1) s

/-- Zero-fill blocks lo to hi − 1 of a tile (R84). -/
def accZero (s : State) (t : TileId) (lo hi : Nat) : State :=
  { s with acc := s.acc.clear (fun k => k / 131072 == t.toNat && decide (lo * 4096 ≤ k % 131072) && decide (k % 131072 < hi * 4096)) }

/-- The Transom slice of an address (R263). -/
def sliceOf (pa : Nat) : Nat := 8 * (pa / 512 % 8) + pa / 4096 % 8

/-! ## Selected counters (R445 to R448) and the bandwidth counts (R450) -/

/-- A selection register counts this event: EN, the engine and event, the context filter, and the QUAL of its place. -/
def selCounts (v : Word64) (ctx : Option CtxId) (engine event : Nat) (qual : Option Nat) : Bool :=
  getF v 48 1 == 1 && getF v 0 8 == event && getF v 8 4 == engine &&
    (getF v 16 1 == 0 || ctx == some (BitVec.ofNat 4 (getF v 12 4))) &&
    (match qual with | some q => getF v 20 8 == q | none => true)

/-- Count n events of a tile's engine in every selected counter that counts them. -/
def perfTile (s : State) (t : TileId) (ctx : Option CtxId) (engine event : Nat) (qual : Option Nat) (n : Nat) : State :=
  (List.range 8).foldl (fun s k =>
    if selCounts (reg s (modG (0x4100 + 8 * k))) ctx engine event qual then satAdd s (tileA t.toNat (0x2F80 + 8 * k)) 0 64 n
    else s) s

/-- Count n events of a module engine. -/
def perfMod (s : State) (ctx : Option CtxId) (engine event : Nat) (qual : Option Nat) (n : Nat) : State :=
  (List.range 8).foldl (fun s k =>
    if selCounts (reg s (modG (0x4140 + 8 * k))) ctx engine event qual then satAdd s (modG (0x4180 + 8 * k)) 0 64 n
    else s) s

/-- Count bytes of bandwidth port p; dir 0 IN, 1 OUT (R450). -/
def bwAdd (s : State) (p dir n : Nat) : State :=
  { s with bw := s.bw.set (fun _ => 0) (p * 2 + dir) (s.bw.get (fun _ => 0) (p * 2 + dir) + n) }

/-! ## The end of commands (R48, R222, R374, R375) -/

/-- The unit address of a page's unit. -/
def pageUnit (s : State) (p : Page) : BitVec 32 :=
  match p with
  | .module _ => unitModule s
  | .owner => unitModule s
  | .gang n => unitAddr 3 0 (BitVec.ofNat 16 (fld s (aCtx n) 32 16))
  | .ring r _ => unitAddr 1 r.toNat (nodeId s)
  | .tile t _ => unitTile s t

/-- Post a completion entry: it is held until it leaves on the link, as far as its CQ's allowance reaches; one bound for a CQ that
is OFF is discarded and counted (R375). -/
def postCq (s : State) (e : CqEntry) : State :=
  if fld s (aPair e.q) 0 2 == 0 then satAdd s (aPair e.q) 32 16 1
  else
    let s := bwAdd (perfMod s (some e.ctx) 15 0x11 (some e.q.toNat) 1) 32 1 48
    { s with cq := s.cq ++ [e] }

/-- The tag and the flags of an entry (R40). -/
def entryTag (e : List Byte) : BitVec 16 := BitVec.ofNat 16 (natOf ((e.drop 2).take 2))
def entryOp (e : List Byte) : Byte := e.headD 0
def entryAfter (e : List Byte) : Bool := ((e.getD 1 0).toNat) % 2 == 1
def entryNotify (e : List Byte) : Bool := ((e.getD 1 0).toNat / 2) % 2 == 1

/-- An unsigned little-endian field of `n` bytes at byte `i`. -/
def fieldAt (e : List Byte) (i n : Nat) : Nat := natOf ((e.drop i).take n)

/-- The completion of a command: to its CQ, its code queue, its group, or the head of the gang (R374, R222, R48). -/
def deliver (s : State) (c : Cmd) (status : Byte) (w0 w1 w2 : Word64) : State :=
  let tag := entryTag c.entry
  match c.src with
  | .host q => postCq s ⟨q, pageUnit s c.page, tag, status, c.ctx, entryNotify c.entry, decide (c.page = .owner),
      c.index, w0, w1, w2⟩
  | .code t h task va done => { s with codeDone := s.codeDone ++ [⟨t, h, task, va, done, status, tag⟩] }
  | .copy parent => { s with cmds := s.cmds.map (fun g =>
      if g.id == parent then
        { g with members := g.members.filter (· != c.id), status := statusJoin g.status status,
                 err := if g.err == none && status != stOk then some w0 else g.err } else g) }
  | .remote src mtag _ => { s with out := s.out ++ [⟨src, BitVec.ofNat 16 (fld s (aCtx c.ctx) 32 16), c.ctx, 0x11,
      bytesOf mtag.toNat 4 ++ [status] ++ List.replicate 3 0 ++ bytesOf (if status == stOk then 0 else w0.toNat) 8, 0, false⟩] }

/-- Complete a command: it leaves the list of commands in flight, its error is recorded at its page, and its completion
is delivered. `unit` is the first unit that failed. -/
def complete (s : State) (c : Cmd) (status : Byte) (unit : BitVec 32) : State :=
  let s := { s with cmds := s.cmds.filter (fun x => x.id != c.id) }
  if status == stOk then deliver s c status 0 0 0
  else
    let w := errWord status c.ctx unit (entryTag c.entry)
    deliver (errRecord s c.page w) c status w 0 0

/-- Complete the command with an id, if it is in flight. -/
def completeId (s : State) (id : Nat) (status : Byte) (unit : BitVec 32) : State :=
  match s.cmds.find? (fun c => c.id == id) with
  | some c => complete s c status unit
  | none => s

/-! ## Releasing a context's work on the tiles (R59, R86, R113, R159, R212) -/

/-- An operation of the context is dropped from an engine's two places; the pending one then runs, but for the array's, which
begins by itself (R113, R200). -/
def dropOp (n : CtxId) (array : Bool) (q : EngineQ) : EngineQ :=
  let keep (o : Option EOp) : Option EOp := match o with
    | some e => if e.ctx == n then none else some e
    | none => none
  match keep q.running with
  | some r => ⟨some r, keep q.pend⟩
  | none => if array then ⟨none, keep q.pend⟩ else ⟨keep q.pend, none⟩

def engDef : Nat → EngineQ := fun _ => ⟨none, none⟩
def chainDef : Nat → Option Chain := fun _ => none
def strmDef : Nat → Option Strm := fun _ => none

/-! ## The Louvre's buffers (R154, R158, R160) -/

def lvDef : Nat → List LvTile := fun _ => []
/-- The tiles in a Louvre's buffers, oldest first. -/
def lvOf (s : State) (t : TileId) : List LvTile := s.lvTiles.get lvDef t.toNat

/-! ## The order of scratchpad writes (R150) -/

/-- An operation of a tile issued before number `ser` has still to write. -/
def olderPends (s : State) (t : TileId) (ser : Nat) : Bool :=
  s.engines.any (fun e => e.1 / 4 == t.toNat && (e.2.running.toList ++ e.2.pend.toList).any (fun o => o.ser < ser)) ||
    (lvOf s t).any (fun x => x.op.ser < ser) || s.gaths.any (fun g => g.t == t && g.ser < ser) ||
    s.strms.any (fun e => e.1 / 64 == t.toNat && e.2.any (fun x => x.ser < ser))

/-- An operation issued later than number `ser` has written a physical byte already. -/
def writtenLater (s : State) (t : TileId) (ser a : Nat) : Bool :=
  s.stamps.any (fun x => x.t == t && ser < x.ser && decide (x.lo ≤ a ∧ a < x.hi))

/-- Split the bytes from a physical address on into runs of those that `p` lets through. -/
def runsOf (p : Nat → Bool) : Nat → List Byte → List (Nat × List Byte)
  | _, [] => []
  | a, b :: r =>
    if p a then match runsOf p (a + 1) r with
      | (a', bs) :: l => if a' == a + 1 then (a, b :: bs) :: l else (a, [b]) :: (a', bs) :: l
      | [] => [(a, [b])]
    else runsOf p (a + 1) r

/-- The scratchpad write of an operation, the `ser`-th in the order of issue: bytes that a later one has written stay, and the write is
remembered while an earlier one has still to write (R150). -/
def spOrdered (s : State) (t : TileId) (pa : Nat) (bs : List Byte) (poison : Bool) (ser : Nat) : State :=
  let s := (runsOf (fun a => !writtenLater s t ser a) pa bs).foldl (fun s r => spWrite s t r.1 r.2 poison) s
  let keep := s.stamps.filter (fun x => olderPends s x.t x.ser)
  { s with stamps := if olderPends s t ser then keep ++ [⟨t, pa, pa + bs.length, ser⟩] else keep }

/-- A thread's own write stands at once. As the tile's latest operation it is remembered while an earlier one has still to write
(R150). -/
def spStamp (s : State) (t : TileId) (pa len : Nat) : State :=
  { s with
    serial := s.serial + 1,
    stamps := if olderPends s t s.serial then s.stamps ++ [⟨t, pa, pa + len, s.serial⟩] else s.stamps }

/-- STATE of a buffer (R160): FILLING until the tile is whole, then HELD, and EMITTING from its first output row on. -/
def LvTile.state (x : LvTile) : Nat := if x.imgs.length < 64 then 1 else if x.out == 0 then 2 else 3

/-- The bits of LVR.STATUS of one buffer; a free one shows FREE and keeps its other fields (log 53). -/
def showBuffer (t : TileId) (l : List LvTile) (s : State) (i : Nat) : State :=
  let a := aLvr t
  let set (stLo ctxLo shLo dLo : Nat) : State :=
    match l.find? (fun x => x.slot == i) with
    | none => setFld s a stLo 2 0
    | some x => setFld (setFld (setFld (setFld s a stLo 2 x.state) a ctxLo 4 x.op.ctx.toNat) a shLo 3 x.shape) a dLo 2 x.dest
  match i with
  | 0 => set 0 4 12 20
  | 1 => set 2 8 16 22
  | _ => set 24 28 32 26

/-- Record the tiles of a Louvre, and show them. -/
def setLv (s : State) (t : TileId) (l : List LvTile) : State :=
  (List.range 3).foldl (showBuffer t l) { s with lvTiles := s.lvTiles.set lvDef t.toNat l }

/-- The tiles of a context in the Louvre are discarded (R159); those of others go on. -/
def dropTiles (s : State) (n : CtxId) : State :=
  s.lvTiles.foldl (fun s e =>
    if e.2.any (fun x => x.op.ctx == n) then setLv s (BitVec.ofNat 9 e.1) (e.2.filter (fun x => x.op.ctx != n)) else s) s

/-- Drop the entries of a map that became what unlisted keys read as. -/
def engPrune (m : SMap EngineQ) : SMap EngineQ := m.filter (fun e => e.2 != ⟨none, none⟩)

/-- The RUN_CHAIN copies of a context's chains and waiting chains. -/
def chainCmds (s : State) (n : CtxId) : List Nat :=
  (s.chains.filterMap (fun e => match e.2 with
    | some c => if c.ctx == n then c.cmd else none
    | none => none)) ++
  (s.chainWaits.filterMap (fun w => if w.ctx == n then w.cmd else none))

/-- Every chain register slot of the context's chains is cleared. -/
def clearChainRegs (s : State) (n : CtxId) : State :=
  s.chains.foldl (fun s e => match e.2 with
    | some c => if c.ctx == n then setReg s (aChain (BitVec.ofNat 9 (e.1 / 4)) (e.1 % 4)) 0 else s
    | none => s) s

/-- The array of a tile whose pass of the context is dropped reads idle, or DRAINING while a pass of another context still drains,
and the ring of an entry circulates no more (R107, R113). -/
def idleEngines (s : State) (n : CtxId) : State :=
  s.engines.foldl (fun s e =>
    let t : TileId := BitVec.ofNat 9 (e.1 / 4)
    match e.2.running with
    | none => s
    | some o =>
      if e.1 % 4 != 0 || o.ctx != n then s
      else
        let left := if s.drains.any (fun d => d.t == t && d.op.ctx != n) then 3 else 0
        let s := setFld (setFld s (aArrStatus t) 0 2 left) (aArrRing t) 2 1 0
        if o.ring == 1 then (ringTiles (ringOf t)).foldl (fun s u => setFld s (aArrRing u) 2 1 0) s else s) s

/-- The stream contexts of a context in state `st` become IDLE: none has a request out (R86, R281). -/
def idleStreams (st : Nat) (s : State) (n : CtxId) : State :=
  s.regs.foldl (fun s e =>
    let off := (e.1 - tileA 0 0) % 0x40000
    let t : TileId := BitVec.ofNat 9 ((e.1 - tileA 0 0) / 0x40000)
    if tileA 0 0 ≤ e.1 && e.1 < tileA 512 0 && 0x2C00 ≤ off && off < 0x2E00 && e.2.toNat % 8 == st &&
      taskOfCtx s t n (e.2.toNat / 16 % 8) then setFld s e.1 0 3 0 else s) s

/-- Abort the tasks of a context on every tile: its passes, transfers, vector operations, gathers, sends, ring beats and
chains end; its streams drain (a stream whose own request faulted will end in FAULT), and a finished one is IDLE. -/
def abortTasks (s : State) (n : CtxId) : State :=
  let s := dropTiles (idleStreams 3 (idleEngines (clearChainRegs s n) n) n) n
  let s := s.strms.foldl (fun s e => match e.2 with
    | some x => if x.ctx == n then setFld s (aSte (BitVec.ofNat 9 (e.1 / 64)) (e.1 % 64)) 0 3 2 else s
    | none => s) s
  { s with
    engines := engPrune (s.engines.map (fun e => (e.1, dropOp n (e.1 % 4 == 0) e.2))),
    drains := s.drains.filter (fun d => d.op.ctx != n),
    chains := s.chains.filter (fun e => match e.2 with | some c => c.ctx != n | none => false),
    chainWaits := s.chainWaits.filter (fun w => w.ctx != n),
    ringBeats := s.ringBeats.filter (fun b => b.ctx != n),
    sends := s.sends.filter (fun x => x.ctx != n),
    gaths := s.gaths.filter (fun x => x.ctx != n),
    vloads := s.vloads.filter (fun x => x.ctx != n) }

/-! ## Casement: the end of a job's samples (R341) -/

def casDef : Nat → Option CasJob := fun _ => none
def casOf (s : State) (n : CtxId) : Option CasJob := s.cas.get casDef n.toNat
def aCasState (n : CtxId) : Nat := casA (n.toNat * 0x40)
def aCasShuf (n : CtxId) : Nat := casA (n.toNat * 0x40 + 8)
def aCasSeq (n : CtxId) : Nat := casA (n.toNat * 0x40 + 0x10)
def aCasCount (n : CtxId) : Nat := casA (n.toNat * 0x40 + 0x18)
def aCasLog (n : CtxId) : Nat := casA (n.toNat * 0x40 + 0x20)
def aCasShare (n : CtxId) : Nat := casA (n.toNat * 0x40 + 0x28)

/-- Discard a context's samples in flight: the job takes state `final` (1 STOPPED, 0 NONE), CAS.SHUFn and CAS.SEQn the
first position and Q without a record, and a pending CAS_STOP completes ABORTED. -/
def casAbort (s : State) (n : CtxId) (final : Nat) : State :=
  match casOf s n with
  | none => s
  | some j =>
    let s := match j.samples with
      | [] => s
      | x :: _ => setReg (setReg s (aCasShuf n) (BitVec.ofNat 64 (x.pos.toNat + x.epoch.toNat * 2 ^ 32))) (aCasSeq n) x.q
    let s := setFld (setFld s (aCasState n) 0 2 final) (aCasState n) 8 6 0
    let j' : Option CasJob := if final == 0 then none else some { j with samples := [], runs := [], stopCmds := [] }
    let s := { s with cas := s.cas.set casDef n.toNat j' }
    j.stopCmds.foldl (fun s id => completeId s id stAborted (unitModule s)) s

/-! ## Faults (R59) -/

/-- A fault of a context, found at a unit: in normal service its tasks are aborted everywhere, a RUN_CHAIN it runs
completes with FAULT, UCB.ERR of its module page records the fault and it moves to FAULTED. A PAUSED context faults as a
RUNNING one does (DESIGN CHOICE, log entry 124); one in another state keeps it (R49, R51). -/
def ctxFault (s : State) (n : CtxId) (unit : BitVec 32) : State :=
  if isNormal s && ctxLive s n then
    let ids := chainCmds s n
    let s := casAbort (abortTasks s n) n 1
    let s := ids.foldl (fun s id => completeId s id stFault unit) s
    setCtxState (errRecord s (.module n) (errWord stFault n unit 0)) n 5
  else s

/-- A thread stops with its cause recorded (R59). -/
def threadRecord (s : State) (t : TileId) (h : ThreadId) (cause : Nat) : State :=
  setFld (setThreadState s t h 4) (aThread t h) 32 8 cause

/-- A thread fault: the thread stops with its cause recorded, and its context faults (R59). -/
def threadFault (s : State) (t : TileId) (h : ThreadId) (cause : Nat) : State :=
  let n := taskCtx s t (threadTask s t h)
  let s' := ctxFault (threadRecord s t h cause) n (unitTile s t)
  if isNormal s && ctxLive s n then
    { s' with faultAt := s'.faultAt.filter (fun f => f.ctx != n) ++ [⟨n, t, s.cycles.get (fun _ => 0) (rowOf t)⟩] }
  else s'

/-- A thread of the tile has made the context FAULTED in the present cycle of its ring (R59). -/
def faultedNow (s : State) (t : TileId) (n : CtxId) : Bool :=
  ctxState s n == 5 && s.faultAt.contains ⟨n, t, s.cycles.get (fun _ => 0) (rowOf t)⟩

/-- A fault that meets a context already FAULTED by another thread of the tile in the same cycle is recorded at its own thread; one that
meets a context reset leaves its cause there, the thread being FREE (R59). -/
def lateFault (s : State) (t : TileId) (h : ThreadId) (n : CtxId) (cause : Nat) : State :=
  if faultedNow s t n then threadRecord s t h cause
  else if ctxState s n == 6 then setFld s (aThread t h) 32 8 cause else s

/-- A fault of an engine operation or chain: the thread that issued it receives it (R189); without one (a RUN_CHAIN, a
token signal) the context faults, naming the tile. -/
def engineFaultOp (s : State) (t : TileId) (h : Option ThreadId) (n : CtxId) (cause : Nat) : State :=
  match h with
  | some h => if ctxLive s n then threadFault s t h cause else lateFault s t h n cause
  | none => ctxFault s n (unitTile s t)

/-! ## Tokens (R209, R211) -/

def tokKey (t : TileId) (k n : Nat) : Nat := (keyTask t k) * 32 + n
def tokGet (s : State) (t : TileId) (k n : Nat) : Nat := (s.tokens.get (fun _ => 0) (tokKey t k n)).toNat
def tokSet (s : State) (t : TileId) (k n v : Nat) : State :=
  { s with tokens := s.tokens.set (fun _ => 0) (tokKey t k n) (BitVec.ofNat 16 v) }

/-- Cause codes of the token instructions and the engine operands (R223). -/
def cToken : Nat := 0x10
def cEngineParam : Nat := 0x12

/-- Add to a token counter; above 65,535 it stays there and the context faults with TOKEN, UCB.ERR naming the counter's tile
(R211). The thread that the increment comes from, if any, records the cause (R223). -/
def tokAdd (s : State) (t : TileId) (k n amount : Nat) (who : Option (TileId × ThreadId)) : State :=
  let v := tokGet s t k n + amount
  if v ≤ 65535 then tokSet s t k n v
  else
    let s := tokSet s t k n 65535
    let s := match who with | some w => threadRecord s w.1 w.2 cToken | none => s
    ctxFault s (taskCtx s t k) (unitTile s t)

/-- The end of an operation of a task signals its DONE counter; DONE = 0 signals nothing (R194). -/
def tokDone (s : State) (t : TileId) (k n : Nat) (h : Option ThreadId) : State :=
  if n == 0 then s else tokAdd s t k n 1 (h.map (fun h => (t, h)))

end Sys2Proof.Machine
end

