-- ==== Sys2Proof/Machine/Operands.lean ====
section
/-! DEFINITION. Operand forms: the fields of a Guver word (R167, R169, R190), operand locators (R191), row images (R192),
tensor descriptors and the element addresses they give (R140 to R149), and the table and curve slots (R78, R124). -/

namespace Sys2Proof.Machine

/-! ## Fault causes (R59, R102, R136, R145, R188, R223, R292) -/

def cIllegalEnc : Nat := 0x01
def cPcBound : Nat := 0x02
def cSpBound : Nat := 0x03
def cAccBound : Nat := 0x04
def cStreamRange : Nat := 0x05
def cCurveOwner : Nat := 0x06
def cPoison : Nat := 0x07
def cSpUe : Nat := 0x08
def cCurveBad : Nat := 0x09
def cArrayParam : Nat := 0x0A
def cFmtParam : Nat := 0x0B
def cLayoutParam : Nat := 0x0C
def cAlign : Nat := 0x0D
def cSysreg : Nat := 0x0E
def cThreadParam : Nat := 0x0F
def cChainParam : Nat := 0x11
def cStreamParam : Nat := 0x13
def cXlate : Nat := 0x14
def cMemUe : Nat := 0x15
def cTagFail : Nat := 0x16

/-! ## Row images (R192) -/

/-- Bytes a row image takes. -/
def imgSize (f : Fmt) (dbl : Bool) : Nat :=
  match f with
  | 10 => 256
  | 8 | 9 => 128
  | 7 => if dbl then 128 else 64
  | 4 | 5 => if dbl then 128 else 64
  | _ => 64

/-- Elements of a row. -/
def rowElems (dbl : Bool) : Nat := if dbl then 128 else 64

/-- Block length (R121). -/
def blkLen (blk16 : Bool) : Nat := if blk16 then 16 else 32

/-- The table entry a T4 or T6 code selects. -/
def tabNum (tab : List F32) (c : Nat) : Num := ofF32 (tab.getD c 0#32)

/-- The values of a row image: elements, then scale bytes for the microscaled formats (R121, R192). -/
def decodeRow (f : Fmt) (blk16 dbl : Bool) (tab : List F32) (bs : List Byte) : List Num :=
  let n := rowElems dbl
  let w := fmtBits f
  let codes := unpackCodes w n (bs.take (n * w / 8))
  let scales := bs.drop (n * w / 8)
  (codes.zipIdx).map (fun e =>
    if fmtTable f then tabNum tab e.1
    else if fmtMicro f then applyScale ((scales.getD (e.2 / blkLen blk16) 0).toNat) (decodeCode f e.1)
    else decodeCode f e.1)

/-- What a conversion of a row counted (VEC.CONV): saturations, NaN elements, clamped scales. -/
structure RowConv where
  bytes : List Byte
  vals : List Num
  sat : Nat
  nan : Nat
  clamp : Nat

/-- The largest magnitude of a block; none when an element is NaN or infinite, which gives the NaN scale (R131, R132). -/
def blockMax (xs : List Num) : Num := xs.foldl (fun m x => match m, x.abs with
  | .nan, _ => .nan
  | _, .nan => .nan
  | _, .inf _ => .nan
  | m, a => if m.lt a then a else m) Num.zero

/-- Split a list into pieces of n. -/
def pieces {α : Type} (n : Nat) : Nat → List α → List (List α)
  | 0, _ => []
  | k + 1, l => if l.isEmpty then [] else l.take n :: pieces n k (l.drop n)

/-- Convert a row's values into a format and build its image (R131, R132, R192); `bits j` are the random bits of lane j. -/
def encodeRow (f : Fmt) (blk16 : Bool) (rnd : Nat) (bits : Nat → Nat) (xs : List Num) : RowConv :=
  let w := fmtBits f
  if fmtMicro f then
    let b := blkLen blk16
    let blocks := pieces b xs.length xs
    let out := (blocks.zipIdx).map (fun e =>
      let (E, cl) := blockScale f (blockMax e.1)
      if E == 255 then (e.1.map (fun _ => (⟨0, false, true⟩ : Conv)), E, cl)
      else ((e.1.zipIdx).map (fun (x : Num × Nat) => convert f ⟨rnd, bits (e.2 * b + x.2)⟩ (unscale E x.1)), E, cl))
    let cs : List Conv := (out.map (fun o => o.1)).flatten
    let raw := packCodes w (cs.map Conv.code) ++ out.map (fun o => BitVec.ofNat 8 o.2.1)
    { bytes := raw ++ List.replicate (imgSize f false - raw.length) 0,
      vals := (out.map (fun o => o.1.map (fun c => applyScale o.2.1 (decodeCode f c.code)))).flatten,
      sat := (cs.filter Conv.sat).length,
      nan := (cs.filter Conv.nan).length,
      clamp := (out.filter (fun o => o.2.2)).length }
  else
    let cs := (xs.zipIdx).map (fun x => convert f ⟨rnd, bits x.2⟩ x.1)
    { bytes := packCodes w (cs.map Conv.code),
      vals := cs.map (fun c => decodeCode f c.code),
      sat := (cs.filter Conv.sat).length,
      nan := if f == 10 then 0 else (cs.filter Conv.nan).length,
      clamp := 0 }

/-! ## Locators (R191) -/

def locKind (v : Word64) : Nat := v.toNat >>> 61
def locAddr (v : Word64) : Nat := v.toNat % 2 ^ 61

/-- Bits that the kind does not use are 0. -/
def locBitsOk (v : Word64) : Bool :=
  match locKind v with
  | 0 | 4 => decide (locAddr v < 2 ^ 21)
  | 1 => decide (locAddr v < 2 ^ 11)
  | 2 | 5 => decide (locAddr v < 16)
  | 3 => decide (locAddr v < 2 ^ 32)
  | _ => locAddr v == 0

/-- The queue is a valid queue of the task (R55). -/
def queueOk (s : State) (t : TileId) (k q : Nat) : Bool := tqValid s t q && tqTask s t q == k

/-- Accumulator rows a to a + n − 1 lie in the task's blocks (R97). -/
def accRange (s : State) (t : TileId) (k a n : Nat) : Bool :=
  decide (a + n ≤ (taskAlimit s t k - taskAbase s t k) * 64)

/-- Check a locator: accepted kinds, unused bits, an FP32 queue operand, alignment, range (R191, R204); the cause of the
first check that fails. `len` is the range in bytes of an SP operand, `rows` that of an ACC operand. -/
def locCheck (s : State) (t : TileId) (k : Nat) (kinds : List Nat) (fp32 : Bool) (len rows : Nat) (v : Word64) :
    Option Nat :=
  let kd := locKind v
  if !(kinds.contains kd) || !locBitsOk v then some cEngineParam
  else if (kd == 2 || kd == 5) && fp32 then some cEngineParam
  else if (kd == 0 || kd == 4) && locAddr v % 64 != 0 then some cAlign
  else if kd == 0 || kd == 4 then (if (spPhys s t k (locAddr v) len).isSome then none else some cSpBound)
  else if kd == 1 then (if accRange s t k (locAddr v) rows then none else some cAccBound)
  else if kd == 2 || kd == 5 then (if queueOk s t k (locAddr v) then none else some cSpBound)
  else none

/-- Several checks; the first failure decides. -/
def firstFail : List (Option Nat) → Option Nat
  | [] => none
  | some c :: _ => some c
  | none :: r => firstFail r

/-- A check as a condition that must hold. -/
def need (ok : Bool) (cause : Nat) : Option Nat := if ok then none else some cause

/-! ## Table and curve slots (R78, R124) -/

def tblLoaded (s : State) (t : TileId) (n : CtxId) (slot : Nat) : Bool := fld s (aTbl t n) (slot - 8) 1 == 1
def tblKind (s : State) (t : TileId) (n : CtxId) (slot : Nat) : Bool := fld s (aTbl t n) (8 + (slot - 8)) 1 == 1
def tblKey (t : TileId) (n : CtxId) (slot c : Nat) : Nat := ((t.toNat * 16 + n.toNat) * 8 + (slot - 8)) * 64 + c

/-- A table slot serves a T4 or T6 operand of a context (R124). -/
def tableOk (s : State) (t : TileId) (n : CtxId) (f : Fmt) (slot : Nat) : Bool :=
  if slot < 7 then stdKind slot == (f == 7)
  else slot ≥ 8 && tblLoaded s t n slot && tblKind s t n slot == (f == 7)

/-- The contents of a table slot, captured (R128). -/
def tableOf (s : State) (t : TileId) (n : CtxId) (f : Fmt) (slot : Nat) : List F32 :=
  if !fmtTable f then []
  else (List.range (if f == 7 then 64 else 16)).map (fun c =>
    if slot < 7 then stdTable slot c else s.tables.get (fun _ => 0) (tblKey t n slot c))

/-- A format with its table slot: T4 and T6 need a slot that serves them (FMT_PARAM). -/
def fmtSlotCheck (s : State) (t : TileId) (n : CtxId) (f : Fmt) (slot : Nat) : Option Nat :=
  if fmtTable f then need (tableOk s t n f slot) cFmtParam else none

def curveKey (t : TileId) (slot w : Nat) : Nat := (t.toNat * 16 + slot) * 264 + w
def curveLoaded (s : State) (t : TileId) (slot : Nat) : Bool := fld s (aCurve t slot) 0 1 == 1
def curveOwned (s : State) (t : TileId) (slot : Nat) : Bool := s.curveOwned.get (fun _ => false) (t.toNat * 16 + slot)
def curveCtx (s : State) (t : TileId) (slot : Nat) : CtxId := BitVec.ofNat 4 (fld s (aCurve t slot) 4 4)

/-- A context may evaluate a curve slot (R78): a standard one, or a user slot it owns and whose curve is present. -/
def curveOk (s : State) (t : TileId) (n : CtxId) (slot : Nat) : Bool :=
  slot < 8 || (curveOwned s t slot && curveCtx s t slot == n && curveLoaded s t slot)

/-! ## Tensor descriptors (R140 to R145) -/

/-- Decode the 128 bytes of a tensor descriptor (R140). -/
def parseTDesc (b : List Byte) : TDesc :=
  let f12 := fieldAt b 12 1
  { base := fieldAt b 0 6,
    tensor := BitVec.ofNat 32 (fieldAt b 8 4),
    fmt := f12 % 16,
    blk16 := f12 / 16 % 2 == 1,
    padWrite := f12 / 32 % 2 == 1,
    space := f12 / 64 % 2 == 1,
    dims := fieldAt b 13 1 % 8,
    tslot := fieldAt b 14 1 % 16,
    sizes := (List.range 5).map (fun k => fieldAt b (16 + 4 * k) 4),
    strides := (List.range 4).map (fun k => fieldAt b (40 + 8 * k) 6),
    sbase := fieldAt b 72 6,
    sstrides := (List.range 4).map (fun k => fieldAt b (80 + 8 * k) 6) }

/-- The size of dimension d; dimensions at or above DIMS have size 1 (R141). -/
def TDesc.size (td : TDesc) (d : Nat) : Nat := if d < td.dims then td.sizes.getD d 1 else 1
def TDesc.stride (td : TDesc) (d : Nat) : Nat := if d < td.dims then td.strides.getD (d - 1) 0 else 0
def TDesc.sstride (td : TDesc) (d : Nat) : Nat := if d < td.dims then td.sstrides.getD (d - 1) 0 else 0

/-- The checks of R145 in their order, up to the table slot. -/
def tdCheck (s : State) (t : TileId) (n : CtxId) (td : TDesc) (write : Bool) : Option Nat :=
  let used := (List.range 5).filter (fun d => d ≥ 1 && d < td.dims)
  firstFail [
    need (fmtUsed td.fmt) cFmtParam,
    need (1 ≤ td.dims && td.dims ≤ 5 && (List.range td.dims).all (fun d => td.sizes.getD d 1 != 0)) cLayoutParam,
    need (td.base % 64 == 0 && used.all (fun d => td.stride d % 64 == 0 &&
      !(write && td.stride d == 0 && td.size d > 1))) cLayoutParam,
    need (!fmtMicro td.fmt || (td.sbase % 64 == 0 && used.all (fun d => td.sstride d % 64 == 0))) cFmtParam,
    fmtSlotCheck s t n td.fmt td.tslot]

/-- The slice check of R147: o0 a multiple of 64; e0 a multiple of 64 or reaching N0. -/
def sliceOk (td : TDesc) (o e : List Nat) : Bool :=
  o.getD 0 0 % 64 == 0 && (e.getD 0 0 % 64 == 0 || decide (o.getD 0 0 + e.getD 0 0 ≥ td.size 0))

/-- Byte of the line where element i0 of a dimension-0 line begins, for i0 a multiple of a group (R143). -/
def lineByte (f : Fmt) (i0 : Nat) : Nat := if fmtBits f == 6 then i0 / 4 * 3 else i0 * fmtBits f / 8

/-- Bytes that v elements at the start of a group take (R142, R146). -/
def lineLen (f : Fmt) (v : Nat) : Nat := if fmtBits f == 6 then 3 * ((v + 3) / 4) else (v * fmtBits f + 7) / 8

/-- The byte address of element (i0, ..., i4): its bit address, a 64-bit word (R143, R14), divided by 8. -/
def elemAddr (td : TDesc) (i : List Nat) : Nat :=
  (td.base * 8 + (List.range 4).foldl (fun a k => a + i.getD (k + 1) 0 * td.stride (k + 1) * 8) 0 +
    lineByte td.fmt (i.getD 0 0) * 8) % 2 ^ 64 / 8

/-- The address of the scale of a block (R122). -/
def scaleAddr (td : TDesc) (i : List Nat) : Nat :=
  td.sbase + (List.range 4).foldl (fun a k => a + i.getD (k + 1) 0 * td.sstride (k + 1)) 0 +
    i.getD 0 0 / blkLen td.blk16

/-- Rows of a stream (R280). -/
def chunkLen (x : Strm) : Nat := if x.ddepth then 128 else 64
def levelExtent (x : Strm) (code : Nat) : Nat :=
  if code == 0 then (x.extent.getD 0 1 + chunkLen x - 1) / chunkLen x else x.extent.getD code 1
def strmRows (x : Strm) : Nat := (List.range 5).foldl (fun a c => a * levelExtent x c) 1

/-- The counters of the loop nest at row r, by code (R280). -/
def nestIndex (x : Strm) (r : Nat) : List Nat :=
  (List.range 5).map (fun code =>
    let below := (x.order.takeWhile (· != code)).foldl (fun a c => a * levelExtent x c) 1
    r / below % levelExtent x code)

/-- The logical index of the first element of row r. -/
def rowIndex (x : Strm) (r : Nat) : List Nat :=
  let c := nestIndex x r
  (List.range 5).map (fun d =>
    if d == 0 then x.origin.getD 0 0 + c.getD 0 0 * chunkLen x else x.origin.getD d 0 + c.getD d 0)

/-- Valid elements of row r: inside the extent and inside the tensor (R147). -/
def rowValid (x : Strm) (r : Nat) : Nat :=
  let i := rowIndex x r
  if (List.range 4).all (fun k => decide (i.getD (k + 1) 0 < x.td.size (k + 1))) then
    min (chunkLen x) (min (x.origin.getD 0 0 + x.extent.getD 0 1) (x.td.size 0) - i.getD 0 0)
  else 0

/-- Blocks of v valid elements. -/
def blocksOf (x : Strm) (v : Nat) : Nat := (v + blkLen x.td.blk16 - 1) / blkLen x.td.blk16

/-- The address ranges that hold v elements from an index on, and their scale bytes. -/
def segsAt (x : Strm) (i : List Nat) (v : Nat) : List (Nat × Nat) :=
  if v == 0 then []
  else (elemAddr x.td i, lineLen x.td.fmt v) ::
    (if fmtMicro x.td.fmt then [(scaleAddr x.td i, blocksOf x v)] else [])

/-- The address ranges of row r that hold v of its elements and their scale bytes. -/
def rowSegs (x : Strm) (r v : Nat) : List (Nat × Nat) := segsAt x (rowIndex x r) v

/-- The rows of padding that complete the 64-row tiles of a slice under PAD_WRITE (R147, R149): they follow the slice's last
index in dimension 1, and are written with its row. A tensor of one dimension, or of stride 0 there, has no such rows. -/
def padRows (x : Strm) (r : Nat) : List (List Nat) :=
  let i := rowIndex x r
  let e := x.extent.getD 1 1
  if x.td.padWrite && x.td.stride 1 != 0 && e % 64 != 0 && i.getD 1 0 + 1 == x.origin.getD 1 0 + e then
    (List.range (64 - e % 64)).map (fun j => i.set 1 (i.getD 1 0 + 1 + j))
  else []

/-- The address ranges that write row r stores to (R149). -/
def storeSegs (x : Strm) (r : Nat) : List (Nat × Nat) :=
  rowSegs x r (if x.td.padWrite then chunkLen x else rowValid x r) ++
    (padRows x r).flatMap (fun i => segsAt x i (chunkLen x))

/-- Clear the codes beyond the v valid ones of an element byte string: padding is delivered as code 0 (R148). -/
def maskCodes (f : Fmt) (n v : Nat) (bs : List Byte) : List Byte :=
  packCodes (fmtBits f) (((unpackCodes (fmtBits f) n (natOf bs |> fun x => bytesOf x (n * fmtBits f / 8))).zipIdx).map
    (fun e => if e.2 < v then e.1 else 0))

/-- A row image from its element and scale bytes (R192, R280): padding as code 0 and scale 0. -/
def rowImage (x : Strm) (v : Nat) (elems scales : List Byte) : List Byte :=
  let n := chunkLen x
  let e := maskCodes x.td.fmt n v elems
  let sc := if fmtMicro x.td.fmt then
      (List.range (n / blkLen x.td.blk16)).map (fun k => if k < blocksOf x v then scales.getD k 0 else 0)
    else []
  let raw := e ++ sc
  raw ++ List.replicate (imgSize x.td.fmt x.ddepth - raw.length) 0

/-- The bytes a write row stores: (address, byte) pairs (R149). -/
def rowStores (x : Strm) (r : Nat) (img : List Byte) : List (Nat × Byte) :=
  let n := chunkLen x
  let v := rowValid x r
  let w := if x.td.padWrite then n else v
  let i := rowIndex x r
  let eb := n * fmtBits x.td.fmt / 8
  let elems := (maskCodes x.td.fmt n v (img.take eb)).take (lineLen x.td.fmt w)
  let scales := if fmtMicro x.td.fmt then
      (List.range (blocksOf x w)).map (fun k => if k < blocksOf x v then (img.drop eb).getD k 0 else 0)
    else []
  (elems.zipIdx).map (fun e => (elemAddr x.td i + e.2, e.1)) ++
    (scales.zipIdx).map (fun e => (scaleAddr x.td i + e.2, e.1)) ++
    (padRows x r).flatMap (fun i => (segsAt x i n).flatMap (fun sg => (List.range sg.2).map (fun j => (sg.1 + j, 0))))

/-- The addresses of a write row that hold poisoned elements or their scales: those to which the granules `badG` of the image
go (R291). -/
def rowBad (x : Strm) (r : Nat) (badG : List Nat) : List Nat :=
  if badG.isEmpty then []
  else
    let img := (List.range (imgSize x.td.fmt x.ddepth)).map (fun i => if badG.contains (i / 32) then (0xFF : Byte) else 0)
    ((rowStores x r img).filter (fun e => e.2 != 0)).map (fun e => e.1)

/-- The addresses of a write row that hold padding elements or scales of blocks of padding (R149). -/
def rowPads (x : Strm) (r : Nat) (img : List Byte) : List Nat :=
  let v := rowValid x r
  let i := rowIndex x r
  let all := (rowStores x r img).map (fun e => e.1)
  let a := elemAddr x.td i
  let b := scaleAddr x.td i
  all.filter (fun y =>
    !(decide (a ≤ y ∧ y < a + lineLen x.td.fmt v)) &&
      !(fmtMicro x.td.fmt && decide (b ≤ y ∧ y < b + blocksOf x v)))

end Sys2Proof.Machine
end

