-- ==== Sys2Proof/Machine/Issue.lean ====
section
/-! DEFINITION. The issue of a Guver instruction: fetch (R58, R162), the encoding checks (R170), the guard (R167, R168), the
wait on a load (R57), and the advance of the PC. -/

namespace Sys2Proof.Machine

/-! ## Fields of an instruction word -/

def wf (w : Word64) (lo n : Nat) : Nat := getF w lo n

def iMajor (w : Word64) : Nat := wf w 58 6
def iGn (w : Word64) : Nat := wf w 57 1
def iGp (w : Word64) : Nat := wf w 54 3
def iRd (w : Word64) : Nat := wf w 49 5
def iRa (w : Word64) : Nat := wf w 44 5
def iRb (w : Word64) : Nat := wf w 39 5
def iSize (w : Word64) : Nat := wf w 37 2
def iSx (w : Word64) : Nat := wf w 36 1
def iMinor (w : Word64) : Nat := wf w 32 4
def iImm (w : Word64) : Nat := wf w 0 32
-- format E (R190)
def eMinor (w : Word64) : Nat := wf w 48 6
def eRd (w : Word64) : Nat := wf w 43 5
def eRa (w : Word64) : Nat := wf w 38 5
def eRb (w : Word64) : Nat := wf w 33 5
def eRc (w : Word64) : Nat := wf w 28 5
def eFields (w : Word64) : Nat := wf w 0 28
/-- Bits [hi:lo] of FIELDS. -/
def eF (w : Word64) (lo n : Nat) : Nat := wf w lo n
def eDone (w : Word64) : Nat := wf w 0 5

/-- The unused register fields of a format E word are 0; the flags say which of RD, RA, RB, RC are used. -/
def eUnused (w : Word64) (d a b c : Bool) : Bool :=
  (d || eRd w == 0) && (a || eRa w == 0) && (b || eRb w == 0) && (c || eRc w == 0)

/-- The encoding of a VEC word (R203, R204, R295): register fields by minor; SLOT 0 outside CURVE and DCURVE, where
DROPMASK names another fault for it. -/
def vecEncOk (w : Word64) : Bool :=
  let m := eMinor w
  let slot0 := eF w 14 4 == 0
  if m == 0 then slot0
  else if m ≤ 4 || m == 11 then slot0 && eRc w == 0
  else if m == 5 then slot0
  else if m == 6 then eRb w == 0 && eRc w == 0
  else if m == 7 then eRc w == 0
  else if m ≤ 10 then slot0 && eRb w == 0 && eRc w == 0
  else if m == 12 || m == 13 then slot0 && eRb w == 0 && eRc w == 0
  else m == 14

/-- The word is a defined encoding (R170): the checks that depend on the word alone. -/
def encOk (w : Word64) : Bool :=
  let mi := iMinor w
  match iMajor w with
  | 0x01 => wf w 8 31 == 0 && wf w 0 8 ≤ 0x13 && (wf w 0 8 < 0x11 || iRb w == 0)
  | 0x02 => wf w 36 8 == 0 && mi ≤ 7 && (!(4 ≤ mi && mi ≤ 6) || wf w 6 26 == 0)
  | 0x03 => wf w 48 1 == 0 || wf w 16 32 == 0
  | 0x04 => wf w 36 2 == 0 && mi ≤ 6 && wf w 49 2 ≤ 2 &&
      (if wf w 38 1 == 0 then iImm w == 0 else iRb w == 0)
  | 0x05 => wf w 36 9 == 0 && wf w 0 32 == 0
  | 0x08 => wf w 36 8 == 0 && wf w 16 16 == 0 && mi ≤ 2 && (mi != 1 || wf w 0 16 == 0) && (mi != 2 || iRd w == 0)
  | 0x0C => mi == 0
  | 0x0D => mi == 0 && iSx w == 0 && iRb w == 0
  | 0x0E => mi ≤ 2 && iSize w == 3 && iSx w == 0
  | 0x10 => wf w 36 3 == 0 && mi ≤ 3 &&
      (if mi == 0 then iRd w == 0 && wf w 13 19 == 0
       else iRa w == 0 && iRb w == 0 && iRd w == 0 && (mi == 2 || iImm w == 0))
  | 0x11 => wf w 36 3 == 0 && mi ≤ 1 && wf w 12 20 == 0 && iRb w == 0 && (if mi == 0 then iRa w == 0 else iRd w == 0)
  | 0x20 => match eMinor w with
    | 0 => eUnused w false true false false && eF w 11 17 == 0
    | 1 | 2 => eUnused w false false false false && eF w 11 17 == 0 && eF w 0 5 == 0
    | 3 => eUnused w false false false false && eFields w == 0
    | 4 => eUnused w true false false false && eF w 11 17 == 0 && eF w 0 5 == 0
    | _ => false
  | 0x22 => eMinor w == 0 && eUnused w true true false false && eF w 7 21 == 0
  | 0x24 => eMinor w == 0 && (fmtTable (eF w 18 4) || eF w 10 4 == 0) && (fmtTable (eF w 14 4) || eF w 6 4 == 0) &&
      (eF w 23 2 != 0 || eF w 0 5 == 0)
  | 0x26 => eMinor w == 0 && eUnused w true true false false && eF w 5 2 == 0
  | 0x28 => vecEncOk w
  | 0x2A => eUnused w false true false false && (match eMinor w with
    | 0 => eF w 4 24 == 0
    | 1 => eF w 5 23 == 0
    | _ => false)
  | 0x30 => eMinor w ≤ 1 && eUnused w false true true false && eF w 5 7 == 0
  | 0x34 => eMinor w == 0 && eUnused w false true false false && eFields w == 0
  | 0x38 => eF w 21 7 == 0 && (match eMinor w with
    | 0 | 1 | 2 => eUnused w false false false false
    | 3 => eUnused w true false false false && eF w 5 16 == 0
    | 4 => eUnused w false true false false
    | _ => false)
  | 0x3C => eMinor w == 0 && eUnused w false true true false && eF w 5 23 == 0
  | _ => false

/-- The g registers that a word names as sources or destinations (R57). -/
def regsNamed (w : Word64) : List Nat :=
  match iMajor w with
  | 0x01 | 0x0E | 0x10 => [iRd w, iRa w, iRb w]
  | 0x08 => if iMinor w == 0 then [iRd w] else [iRd w, iRa w]
  | 0x02 | 0x0C | 0x0D | 0x11 => [iRd w, iRa w]
  | 0x03 => [iRd w]
  | 0x04 => [iRa w, iRb w]
  | 0x05 => []
  | 0x24 => [eRa w, eRb w, eRc w]
  | _ => [eRd w, eRa w, eRb w, eRc w]

/-- A thread about to execute an instruction; `base` is the state it is presented in. -/
structure Iss where
  base : State
  t : TileId
  h : ThreadId
  k : Nat
  n : CtxId
  pc : Nat
  w : Word64

def issOf (s : State) (t : TileId) (h : ThreadId) : Iss :=
  let k := threadTask s t h
  let pc := threadPc s t h
  ⟨s, t, h, k, taskCtx s t k, pc, s.imem.get (fun _ => 0) (t.toNat * 8192 + (taskIbase s t k + pc))⟩

/-- The value of a g register of the issuing thread. -/
def Iss.g (x : Iss) (s : State) (r : Nat) : Word64 := greg s x.t x.h r

/-- Fault the issuing thread. -/
def Iss.fault (x : Iss) (s : State) (cause : Nat) : State := threadFault s x.t x.h cause

/-- Set the PC; a target outside the task's instructions leaves the PC at the branch and faults at the fetch (R177). -/
def Iss.goto (x : Iss) (s : State) (target : Int) : State :=
  let lim : Int := taskIlimit s x.t x.k - taskIbase s x.t x.k
  if 0 ≤ target ∧ target < lim then setFld s (aThread x.t x.h) 8 13 target.toNat
  else { s with pcOut := s.pcOut.set (fun _ => false) (keyThread x.t x.h) true }

/-- Fall through to PC + 1. The PC of a thread that runs off its instructions is the index reached (R58). -/
def Iss.next (x : Iss) (s : State) : State :=
  let lim := taskIlimit s x.t x.k - taskIbase s x.t x.k
  let s := setFld s (aThread x.t x.h) 8 13 ((x.pc + 1) % 8192)
  if x.pc + 1 < lim then s else { s with pcOut := s.pcOut.set (fun _ => false) (keyThread x.t x.h) true }

/-- The thread enters WAIT: the instruction has no effect, not even a count, and will be presented again (R476). -/
def Iss.wait (x : Iss) : State := setThreadState x.base x.t x.h 2

/-- A fault when a check fails, else the effect. -/
def Iss.check (x : Iss) (s : State) (c : Option Nat) (ok : State → State) : State :=
  match c with
  | some cause => x.fault s cause
  | none => ok s

/-- The thread can issue: its slot is READY, its tile runs and its context is live. -/
def canIssue (s : State) (t : TileId) (h : ThreadId) : Bool :=
  tileRuns s t && threadState s t h == 1 && ctxLive s (taskCtx s t (threadTask s t h))

/-- The fetch of the next instruction lies outside the task (R58). -/
def fetchOut (s : State) (t : TileId) (h : ThreadId) : Bool :=
  s.pcOut.get (fun _ => false) (keyThread t h) ||
    !decide (threadPc s t h < taskIlimit s t (threadTask s t h) - taskIbase s t (threadTask s t h))

/-- The guard of a word (R167). -/
def guardOk (s : State) (t : TileId) (h : ThreadId) (w : Word64) : Bool := predOf s t h (iGp w) != (iGn w == 1)

/-- A load of the thread that has not delivered names one of the word's registers (R57). -/
def loadBlocks (s : State) (t : TileId) (h : ThreadId) (w : Word64) : Bool :=
  s.loads.any (fun l => l.t == t && l.h == h && l.rd != 0 && (regsNamed w).contains l.rd.toNat)

/-- The thread presents its instruction in the cycle in which another thread of its tile has made its context FAULTED: it can still
fault (R59). -/
def canFault (s : State) (t : TileId) (h : ThreadId) : Bool :=
  tileRuns s t && threadState s t h == 1 && faultedNow s t (taskCtx s t (threadTask s t h))

/-- Present the next instruction of a thread where the word belongs to the row (`mine`): the fetch, encoding and guard
rules, then the row's effect. -/
def attempt (s : State) (t : TileId) (h : ThreadId) (mine : Word64 → Bool) (body : Iss → State → State) : State :=
  let x := issOf s t h
  if fetchOut s t h then x.fault s cPcBound
  else if !encOk x.w then x.fault s cIllegalEnc
  else if !mine x.w then s
  else
    let s := perfTile s t (some x.n) 0 0x10 none 1
    if !guardOk s t h x.w then x.next s
    else if loadBlocks s t h x.w then x.wait
    else body x s

/-- Issue the next instruction of a thread. Where the thread cannot issue, or the word is another row's, nothing takes place; of an
instruction presented in the cycle of another thread's fault, its own fault is recorded and nothing else (R59). -/
def issue (s : State) (t : TileId) (h : ThreadId) (mine : Word64 → Bool) (body : Iss → State → State) : State :=
  if canIssue s t h then attempt s t h mine body
  else if canFault s t h then
    let s' := attempt s t h mine body
    if threadState s' t h == 4 then threadRecord s t h (fld s' (aThread t h) 32 8) else s
  else s

/-- The word has a major opcode and, in format E, a minor. -/
def isMajor (m : Nat) (w : Word64) : Bool := iMajor w == m
def isMinor (m k : Nat) (w : Word64) : Bool := iMajor w == m && iMinor w == k
def isEng (m k : Nat) (w : Word64) : Bool := iMajor w == m && eMinor w == k

end Sys2Proof.Machine
end

