-- ==== Sys2Proof/Machine/Routes.lean ====
section
/-! DEFINITION. The ways of beats over the Lattice (R225, R228, R234, R235): dimension-ordered routes, the attachments of the
memory ports, and the sides by which a beat comes into a router and leaves it (R229). -/

namespace Sys2Proof.Machine

/-- The places between a and d in order, a left out. -/
def span (a d : Nat) : List Nat :=
  if a ≤ d then (List.range (d - a)).map (fun i => a + i + 1) else (List.range (a - d)).map (fun i => a - i - 1)

/-- The routers of a route: along the source row to the destination column, then along that column (R228). -/
def pathOf (src dst : TileId) : List TileId :=
  src :: (span (colOf src) (colOf dst)).map (fun c => tileAt c (rowOf src)) ++
    (span (rowOf src) (rowOf dst)).map (fun r => tileAt (colOf dst) r)

/-- The router of memory port p's attachment that a path to or from a tile uses: ports 0 to 7 on the west edge, the others on the
east edge, each at rows 2j and 2j + 1 (R225, R234, R235). -/
def attachOf (p : Nat) (t : TileId) : TileId :=
  let j := p % 8
  tileAt (if p < 8 then 0 else 31) (if rowOf t ≤ 2 * j then 2 * j else 2 * j + 1)

/-- A beat's way: its first and last router, and the sides by which it enters the first and leaves the last, ranked as R229 ranks
inputs: 0 wrap, 1 west, 2 east, 3 north, 4 south, 5 the tile itself. -/
structure Way where
  src : TileId
  dst : TileId
  enter : Nat
  leave : Nat
  deriving DecidableEq, Repr

def Way.path (w : Way) : List TileId := pathOf w.src w.dst

/-- The side by which the beat comes into a router of its way, and the side by which it leaves. -/
def Way.sides (w : Way) (u : TileId) : Option (Nat × Nat) :=
  if !w.path.contains u then none
  else
    let into := if u == w.src then w.enter
      else if rowOf u == rowOf w.src then (if colOf w.src < colOf u then 1 else 2)
      else if rowOf w.src < rowOf u then 3 else 4
    let out := if u == w.dst then w.leave
      else if colOf u != colOf w.dst then (if colOf u < colOf w.dst then 2 else 1)
      else if rowOf u < rowOf w.dst then 4 else 3
    some (into, out)

/-- The side of the edge router at which memory port p attaches. -/
def portSide (p : Nat) : Nat := if p < 8 then 1 else 2

/-- The way of a line from memory port p to a tile, and back (R228, R235). -/
def wayFrom (p : Nat) (t : TileId) : Way := ⟨attachOf p t, t, portSide p, 5⟩
def wayTo (t : TileId) (p : Nat) : Way := ⟨t, attachOf p t, 5, portSide p⟩

/-- The way passes a ring out of service, whose links carry nothing (R257). -/
def wayIdle (s : State) (w : Way) : Bool := w.path.any (fun u => isOos s (ringOf u))

/-- The way of a beat in flight; a beat without a thread comes from a die-to-die port, on the north side of its first router. -/
def Beat.way (b : Beat) : Way := ⟨b.src, b.dst, if b.thread.isNone then 3 else 5, 5⟩

/-- Hops east of an entry tile (R105). -/
def hopsEast (entry t : TileId) : Nat := (colOf t + 32 - colOf entry) % 32

/-- The router of a ring that a ring beat has reached last, in hops from its entry. -/
def RingBeat.reached (b : RingBeat) : Nat :=
  ((List.range 32).map (fun c => tileAt c b.ring.toNat)).foldl (fun a u => if b.left.contains u then a else
    if b.left.any (fun v => hopsEast b.entry v < hopsEast b.entry u) then a else max a (hopsEast b.entry u)) 0

/-- The sides of a router that a ring beat has still to pass: in from the west, by the wrap link at column 0, or from the entry
tile itself; out to the east, by the wrap link at column 31 (R104, R225, R228). -/
def RingBeat.sides (b : RingBeat) (u : TileId) : Option (Nat × Nat) :=
  if ringOf u != b.ring || (u != b.entry && hopsEast b.entry u ≤ b.reached) || (u == b.entry && b.reached != 0) then none
  else some (if u == b.entry then 5 else if colOf u == 0 then 0 else 1, if colOf u == 31 then 0 else 2)

/-- Two beats are copies of one multicast beat (R252). -/
def Beat.twin (b o : Beat) : Bool := b.tree != 0 && o.tree == b.tree

/-- A beat leaves the Lattice; a TSIG is no longer in flight. -/
def loseBeat (s : State) (i : Nat) : State :=
  { s with
    beats := s.beats.eraseIdx i,
    tsigs := if (s.beats[i]?).any (fun b => match b.cargo with | .token .. => true | .data .. => false) then s.tsigs - 1 else s.tsigs }

/-- A beat is lost at a router: with it the copies of a multicast beat for the tiles behind (R252). -/
def loseAt (s : State) (b : Beat) (i : Nat) (u : TileId) : State :=
  let s := loseBeat s i
  { s with beats := s.beats.filter (fun o => !(b.twin o && o.way.path.contains u)) }

/-- A beat is poisoned at a router: with it the copies for the tiles behind (R231, R252). -/
def poisonBeat (s : State) (b : Beat) (i : Nat) (u : TileId) : State :=
  { s with beats := (s.beats.set i { b with poison := true }).map (fun o =>
      if b.twin o && o.way.path.contains u then { o with poison := true } else o) }

end Sys2Proof.Machine
end

