-- ==== Sys2Proof/Machine/Engine.lean ====
section
/-! DEFINITION. The engines of a tile as a whole: the running and pending place (R193), completion (R194), the fields of a
chain descriptor (R213), and the rows an engine takes from and gives to the scratchpad, the queues and the accumulator
store (R191). -/

namespace Sys2Proof.Machine

/-! ## Chain descriptors (R213) -/

def chHead (d : List Byte) (i n : Nat) : Nat := fieldAt d i n
def chStages (d : List Byte) : Nat := fieldAt d 0 1 % 16
def chField (d : List Byte) (st i n : Nat) : Nat := fieldAt d (64 + 64 * st + i) n
def chEngine (d : List Byte) (st : Nat) : Nat := chField d st 0 1 % 8
def chEntryOnly (d : List Byte) (st : Nat) : Bool := chField d st 0 1 / 8 % 2 == 1
def chMinor (d : List Byte) (st : Nat) : Nat := chField d st 1 1 % 64
def chFields (d : List Byte) (st : Nat) : Nat := chField d st 12 4 % 2 ^ 28
def chLoc (d : List Byte) (st j : Nat) : Word64 := BitVec.ofNat 64 (chField d st (16 + 8 * j) 8)
def chStep (d : List Byte) (st j : Nat) : Int := (BitVec.ofNat 16 (chField d st (48 + 2 * j) 2)).toInt
def chIters (d : List Byte) (st : Nat) : Nat := chField d st 56 4
def chGroup (d : List Byte) (st : Nat) : Nat := chField d st 60 2
/-- The RING field of an ARRAY stage: 3 is AUTO (R218). -/
def chAuto (d : List Byte) (st : Nat) : Bool := chEngine d st == 2 && chFields d st / 2 ^ 23 % 4 == 3
def chWaitTok (d : List Byte) (st : Nat) : Option Nat :=
  let b := chField d st 2 1
  if b / 32 % 2 == 1 then some (b % 32) else none

/-- The stages of a descriptor. -/
def chList (d : List Byte) : List Nat := List.range (chStages d)

/-- The entry column of a descriptor's AUTO stage. -/
def chEntryCol (d : List Byte) : Option Nat :=
  ((chList d).find? (chAuto d)).map (fun st => chFields d st % 32)

/-- A stage runs on a tile: ENTRY_ONLY stages only at the entry tile of the ring (R218). -/
def chRunsOn (d : List Byte) (t : TileId) (st : Nat) : Bool :=
  !chEntryOnly d st || chEntryCol d == some (colOf t)

/-- An array word uses the Louvre: NEW_T, or moving rows through it (R200). -/
def usesLouvre (fields : Nat) (srcM : Word64) : Bool :=
  fields / 2 ^ 25 % 4 == 1 || locKind srcM == 4 || locKind srcM == 5

/-- The role of an AUTO stage's tile: 1 ENTRY, 2 MEMBER; else the role the stage gives (R218). -/
def chRole (d : List Byte) (t : TileId) (st : Nat) : Nat :=
  if !chAuto d st then chFields d st / 2 ^ 23 % 4 else if chFields d st % 32 == colOf t then 1 else 2

/-- The moving source of an ARRAY stage on a tile: the ring at a member (R218). -/
def chSrcM (d : List Byte) (t : TileId) (st : Nat) : Word64 :=
  if chRole d t st == 2 then BitVec.ofNat 64 (6 * 2 ^ 61) else chLoc d st 2

/-- The engines a chain takes on a tile (R216): 0 array, 1 Louvre, 2 vector. -/
def chTakes (d : List Byte) (t : TileId) (e : Nat) : Bool :=
  (chList d).any (fun st => chRunsOn d t st && (
    (e == 0 && chEngine d st == 2) || (e == 2 && chEngine d st == 3) ||
    (e == 1 && (chEngine d st == 1 || (chEngine d st == 2 && usesLouvre (chFields d st) (chSrcM d t st))))))

def chainKey (t : TileId) (slot : Nat) : Nat := t.toNat * 4 + slot
def chainOf (s : State) (t : TileId) (slot : Nat) : Option Chain := s.chains.get chainDef (chainKey t slot)

/-- An engine of a tile is held by a chain (R216). -/
def engineHeld (s : State) (t : TileId) (e : Nat) : Bool :=
  (List.range 4).any (fun i => match chainOf s t i with | some c => chTakes c.desc t e | none => false)

/-! ## Places (R193) -/

def engKey (t : TileId) (e : Nat) : Nat := t.toNat * 4 + e
def engOf (s : State) (t : TileId) (e : Nat) : EngineQ := s.engines.get engDef (engKey t e)
/-- Record an engine's places; a change of what runs is progress (R432). -/
def setEng (s : State) (t : TileId) (e : Nat) (q : EngineQ) : State :=
  let was := (engOf s t e).running
  let s := if was.isSome && was != q.running then bump s (8 * t.toNat + e) else s
  { s with engines := s.engines.set engDef (engKey t e) q }

/-- The pending place is free for an instruction. -/
def placeFree (s : State) (t : TileId) (e : Nat) : Bool := !engineHeld s t e && (engOf s t e).pend.isNone

/-- Accept an operation: the array keeps it pending until its pass begins (R200); the other engines run it at once when
they are free. -/
def acceptOp (s : State) (t : TileId) (e : Nat) (op : EOp) : State :=
  let q := engOf s t e
  let s := { s with serial := s.serial + 1 }
  if e != 0 && q.running.isNone then setEng s t e ⟨some op, q.pend⟩ else setEng s t e ⟨q.running, some op⟩

/-- The running operation has ended; the pending one takes its place, but for the array's. -/
def retire (s : State) (t : TileId) (e : Nat) : State :=
  let q := engOf s t e
  if e == 0 then setEng s t e ⟨none, q.pend⟩ else setEng s t e ⟨q.pend, none⟩

/-- Record the progress of the running operation. -/
def progress (s : State) (t : TileId) (e : Nat) (op : EOp) : State :=
  setEng s t e ⟨some op, (engOf s t e).pend⟩

/-! ## Completion (R194, R215) -/

def listSet {α : Type} (l : List α) (i : Nat) (v : α) : List α := l.set i v

/-- The stages of a chain with iterations left, as CHN.SLOT.ACTIVE (R224). -/
def activeBits (c : Chain) (t : TileId) : Nat :=
  (chList c.desc).foldl (fun a st =>
    if chRunsOn c.desc t st && decide (c.finished.getD st 0 < chIters c.desc st) then a + 2 ^ st else a) 0

/-- An iteration of a chain stage has completed: its count, its signal and ACTIVE (R194, R215). -/
def stageDone (s : State) (t : TileId) (slot st : Nat) : State :=
  match chainOf s t slot with
  | none => s
  | some c =>
    let f := c.finished.getD st 0 + 1
    let c' := { c with finished := c.finished.set st f }
    let s := { s with chains := s.chains.set chainDef (chainKey t slot) (some c') }
    let s := setFld s (aChain t slot) 16 8 (activeBits c' t)
    let b := chField c.desc st 3 1
    if b / 32 % 2 == 1 && (b / 64 % 2 == 0 || f == chIters c.desc st) then tokAdd s t c.task (b % 32) 1 (c.thread.map (fun h => (t, h))) else s

/-- An operation is complete: its DONE token, or its stage's iteration (R194). -/
def opComplete (s : State) (t : TileId) (op : EOp) : State :=
  match op.chain with
  | some (slot, st) => stageDone s t slot st
  | none => tokDone s t op.task op.done op.thread

/-- A fault of an operation reaches the thread that issued it (R189). -/
def opFault (s : State) (t : TileId) (op : EOp) (cause : Nat) : State := engineFaultOp s t op.thread op.ctx cause

/-! ## Rows in and out (R191) -/

/-- What reading a piece of data meets: its bytes, its mark (0 good, 1 poisoned, 2 uncorrectable) and those of its granules,
counted from its first, that are marked. -/
structure Piece where
  bytes : List Byte
  mark : Nat
  badG : List Nat

/-- Element i of a row image is poisoned: a granule that holds bits of its code, or its block's scale byte, is marked. -/
def elemBad (f : Fmt) (blk16 dbl : Bool) (badG : List Nat) (i : Nat) : Bool :=
  let w := fmtBits f
  let hit (b : Nat) : Bool := badG.contains (b / 256)
  hit (i * w) || hit (i * w + w - 1) || (fmtMicro f && hit (rowElems dbl * w + 8 * (i / blkLen blk16)))

/-- The poisoned elements among the first n of a row image (R63, R114). -/
def badCount (f : Fmt) (blk16 dbl : Bool) (badG : List Nat) (n : Nat) : Nat :=
  if badG.isEmpty then 0 else ((List.range n).filter (elemBad f blk16 dbl badG)).length

/-- Read a physical range with its ECC record. -/
def readPiece (s : State) (t : TileId) (pa len : Nat) : State × Piece :=
  (eccRead s t pa len, ⟨spRead s t pa len, spMark s t pa len,
    ((granules pa len).filter (fun g => let m := spMarkAt s t (g * 32); m == 1 || m == 2)).map (fun g => g - pa / 32)⟩)

/-- A read stream of the task, other than the one on context `skip`, has still to write a byte of a task-relative range of the
scratchpad: streamed data that has not arrived (R72). -/
def absentIn (s : State) (t : TileId) (k a len : Nat) (skip : Option Nat) : Bool :=
  s.strms.any (fun e => e.1 / 64 == t.toNat && skip != some (e.1 % 64) && (match e.2 with
    | none => false
    | some x =>
      let size := imgSize x.td.fmt x.ddepth
      let lo := locAddr x.endpoint + x.moved * size
      let hi := locAddr x.endpoint + strmRows x * size
      !x.write && x.task == k && locKind x.endpoint == 0 && fld s (aSte t (e.1 % 64)) 0 3 == 1 && decide (lo < a + len ∧ a < hi)))

/-- Row i of a source of rows of `size` bytes: SP rows follow one another; a queue gives its first slot, which is freed.
None where the queue holds no slot, or streamed data of the row has not arrived (R72). -/
def takeRow (s : State) (t : TileId) (k : Nat) (loc : Word64) (i size : Nat) : Option (State × Piece) :=
  match locKind loc with
  | 0 | 4 => match spPhys s t k (locAddr loc + i * size) size with
    | some pa => if absentIn s t k (locAddr loc + i * size) size none then none else some (readPiece s t pa size)
    | none => none
  | 2 | 5 =>
    let q := locAddr loc
    if tqFill s t q == 0 then none
    else
      let (s', p) := readPiece s t (tqSlot s t q 0) (min size 128)
      some (tqPop s' t q, p)
  | _ => none

/-- Put row i of a destination, of the operation with number `ser` in the order of issue; none where the queue has no free slot. -/
def putRow (s : State) (t : TileId) (k : Nat) (loc : Word64) (i size : Nat) (bs : List Byte) (poison : Bool) (ser : Nat) :
    Option State :=
  match locKind loc with
  | 0 => match spPhys s t k (locAddr loc + i * size) bs.length with
    | some pa => some (spOrdered s t pa bs poison ser)
    | none => none
  | 2 => if tqHasSlot s t (locAddr loc) then
      some (perfTile (tqPush s t (locAddr loc) bs poison) t none 7 0x10 (some (locAddr loc)) 1) else none
  | _ => none

/-- A router finds a parity error on an arriving beat (R231). -/
def parityAt (ctx : CtxId) (s : State) (u : TileId) : State :=
  let ts := s.gov.parityTimes
  let s := { s with gov := { s.gov with parityTimes := ts.set (fun _ => []) u.toNat (ts.get (fun _ => []) u.toNat ++ [s.tick]) } }
  perfTile (satAdd s (aRtr u) 32 16 1) u (some ctx) 6 0x13 none 1

/-- The fault that a mark raises in normal service (R63). -/
def markCause (mark : Nat) : Nat := if mark == 2 then cSpUe else cPoison

end Sys2Proof.Machine
end

