-- ==== Sys2Proof/Machine/Time.lean ====
section
/-! DEFINITION. Time: the Timebase (R407), the periods of the 23 clock regions (R404, R408, R409) and the open cycles of
the rings (R186, R245). -/

namespace Sys2Proof.Machine

def aClkStatus : Nat := modG 0x2000
def aClkCtl : Nat := modG 0x2008
def aClkStep (k : Nat) : Nat := modG (0x2010 + 8 * k)
def aRegion (r : Nat) : Nat := modG (0x2100 + 8 * r)
def aPeriod (r : Nat) : Nat := modG (0x2600 + 8 * r)

/-- The root frequency of the present step, in units of 0.1 GHz (R409, R410). -/
def rootFreq (s : State) : Nat :=
  match fld s (aClkStep (fld s aClkStatus 8 3)) 1 2 with
  | 0 => 84
  | 1 => 80
  | 2 => 76
  | _ => 72

/-- The divider a DIV code names. -/
def divOfCode (c : Nat) : Nat :=
  match c with
  | 0 => 4
  | 1 => 5
  | 2 => 6
  | _ => 8

/-- The divider of a region, as CLK.REGIONr.DIV names it (R409, R422): the rings' own, 4 for the memory and bridge regions, whose
clock is thus CLK_CORE, and 6 for the I/O die. -/
def regionDiv (s : State) (r : Nat) : Nat := if 19 ≤ r then 6 else divOfCode (fld s (aRegion r) 0 2)

/-- Eighths of an unstretched period of a region in a number of CLK_TB cycles, at the present frequency. -/
def eighthsTo (s : State) (r c : Nat) : Nat := c * rootFreq s * 8 / (10 * regionDiv s r)

/-! ## The Timebase and CLK_TB (R360, R407): one ns a cycle but where a correction is made -/

/-- Slewing corrects one cycle in each 20,001 ns, which is less than 50 in a million (R407; which cycle is the model's choice, log
145). The cycles it corrects in the next d ns, the half rate over. -/
def slewsIn (s : State) (d : Nat) : Nat :=
  min s.gov.slew.natAbs ((nowNs s + d) / 20001 - (nowNs s + min d s.gov.half) / 20001)

/-- CLK_TB cycles of the next d ns: two a ns at half rate; a slew adds 2 on a single cycle, or 0. -/
def cyclesIn (s : State) (d : Nat) : Nat :=
  if s.gov.slew < 0 then d + min d s.gov.half + slewsIn s d else d + min d s.gov.half - slewsIn s d

/-- The least whole number of ns that takes c cycles. -/
def nsFor (s : State) (c : Nat) : Nat :=
  if c ≤ 2 * s.gov.half then (c + 1) / 2
  else
    let d := c - s.gov.half
    let d := (List.range 8).foldl (fun x _ => if s.gov.slew < 0 then d - slewsIn s x else d + slewsIn s x) d
    if cyclesIn s d < c then d + 1 else d

/-- The corrections that d ns of Timebase make. -/
def correct (s : State) (d : Nat) : State :=
  let k : Int := slewsIn s d
  { s with gov := { s.gov with tbCycles := s.gov.tbCycles + cyclesIn s d, half := s.gov.half - d,
                               slew := if s.gov.slew < 0 then s.gov.slew + k else s.gov.slew - k } }

/-! ## The regions -/

/-- Eighths of a period that stand over from a region's last edge, and those that stretch still adds to a period (R8). -/
def fracOf (s : State) (r : Nat) : Nat := s.frac.get (fun _ => 0) r
def debtOf (s : State) (r : Nat) : Nat := s.debt.get (fun _ => 0) r

/-- The eighths that a region has gained by d ns from now, stretch not yet taken off. -/
def eighthsIn (s : State) (r d : Nat) : Nat :=
  fracOf s r + (eighthsTo s r (s.gov.tbCycles + cyclesIn s d) - eighthsTo s r s.gov.tbCycles)

/-- Periods that a region counts in the next d ns: what stretch adds to a period comes off first. -/
def periodsIn (s : State) (r d : Nat) : Nat := (eighthsIn s r d - debtOf s r) / 8

/-- The present period count of a region. -/
def periodOf (s : State) (r : Nat) : Nat := (reg s (aPeriod r)).toNat

/-- The open cycles of a ring. -/
def cyclesOf (s : State) (r : Nat) : Nat := s.cycles.get (fun _ => 0) r

/-- The count of open cycles at which a ring of a closing domain freezes (R243). -/
def freezeAt (s : State) (r : Nat) : Option Nat :=
  let h := headOf s (BitVec.ofNat 4 r)
  if shutState s h != 1 then none else ((shutOf s h).stop.find? (fun e => e.1 == r)).map (fun e => e.2)

/-- A ring's open cycles can reach a count before its domain freezes. -/
def cycleOk (s : State) (r target : Nat) : Bool := target ≤ cyclesOf s r || (freezeAt s r).all (target ≤ ·)

/-- One region's share of d ns: its periods, and its open cycles where it is a ring whose domain is open; none beyond the count at
which the domain freezes. -/
def advanceRegion (d : Nat) (s : State) (r : Nat) : State :=
  let n := periodsIn s r d
  let x := eighthsIn s r d
  let open' := r < 16 && shutterOpen s (BitVec.ofNat 4 r)
  let stop := freezeAt s r
  let s := { setReg s (aPeriod r) (BitVec.ofNat 64 (min (periodOf s r + n) (2 ^ 64 - 1))) with
    frac := s.frac.set (fun _ => 0) r ((x - debtOf s r) % 8),
    debt := s.debt.set (fun _ => 0) r (debtOf s r - x) }
  if open' then { s with cycles := s.cycles.set (fun _ => 0) r (match stop with
    | some c => max (cyclesOf s r) (min (cyclesOf s r + n) c)
    | none => cyclesOf s r + n) } else s

/-- Let d ns of Timebase pass; none passes with the input off (R28). -/
def advance (s : State) (d : Nat) : State :=
  if d == 0 || !s.sup.inputOn then s
  else
    let s' := (List.range 23).foldl (advanceRegion d) s
    setReg (correct s' d) aTbNow (BitVec.ofNat 64 (nowNs s + d))

/-- Let the Timebase reach a time, if it has not yet. -/
def advanceTo (s : State) (ns : Nat) : State := advance s (ns - nowNs s)

/-- Let a region's period count reach a value, if it has not yet: the least whole number of ns that suffices. -/
def advancePeriod (s : State) (r target : Nat) : State :=
  let n := target - periodOf s r
  if n == 0 then s
  else
    let f := rootFreq s
    let k := 10 * regionDiv s r
    let e := eighthsTo s r s.gov.tbCycles + (8 * n + debtOf s r - fracOf s r)
    advance s (nsFor s ((e * k + 8 * f - 1) / (8 * f) - s.gov.tbCycles))

/-- The CLK_UNC cycle count: half the periods of the west memory region, whose clock is CLK_CORE (R403). It stretches with that region,
and the slices of both memory regions count by it (DESIGN CHOICE, log entry 163). -/
def uncCycle (s : State) : Nat := periodOf s 16 / 2

/-- Let the CLK_UNC count reach a value, if it has not yet. -/
def advanceUnc (s : State) (target : Nat) : State := advancePeriod s 16 (2 * target)

/-! ## The steps (R410, R411) -/

/-- VCORE of a step entry, mV. -/
def stepMv (s : State) (k : Nat) : Nat := fld s (aClkStep k) 8 12

def presentStep (s : State) : Nat := fld s aClkStatus 8 3
/-- The present VCORE, mV (R411): while it ramps, 1 mV short of the end for each µs that is left. -/
def vcoreNow (s : State) : Nat :=
  match s.gov.change with
  | none => fld s aClkStatus 16 12
  | some c =>
    let left := (c.at' - nowNs s + 999) / 1000
    if c.phase == 0 && c.target < presentStep s then stepMv s c.target - left
    else if c.phase == 3 then stepMv s c.target + left
    else fld s aClkStatus 16 12

end Sys2Proof.Machine
end

