-- ==== Sys2Proof/Machine/Shutter.lean ====
section
/-! DEFINITION. Shutters (R242 to R248), crossings and their skew (R249, R250), and adaptive stretch (R415). -/

namespace Sys2Proof.Machine

open Host (Outcome)

/-- The ACTIVE bits of a list of requests. -/
def causeBits (rs : List ShutReq) : Nat :=
  (List.range 7).foldl (fun a k => if rs.any (fun r => r.cause == k) then a + 2 ^ k else a) 0

/-- Record a controller, with the ACTIVE bits of SHT.STATE. -/
def setShut (s : State) (h : RingId) (c : Shut) : State :=
  setFld { s with shuts := s.shuts.set shutDef h.toNat c } (aShtState h.toNat) 4 7 (causeBits c.reqs)

def setShutState (s : State) (h : RingId) (x : Nat) : State := setFld s (aShtState h.toNat) 0 2 x

/-- A request becomes active at the domain of a ring (R242 to R244): it begins a closure of an open domain, joins one that
is going on, or cancels an opening. -/
def shutRaise (s : State) (r : RingId) (cause src : Nat) : State :=
  let h := headOf s r
  let c := shutOf s h
  let q : ShutReq := ⟨cause, src, periodOf s h.toNat⟩
  let st := shutState s h
  if c.reqs.any (fun x => x.cause == cause && x.src == src) then s
  else if st == 0 then
    setShutState (setShut s h ⟨[q], cause, 2 ^ cause, periodOf s h.toNat, periodOf s h.toNat, [],
      (domainRings s h).map (fun x => (x.toNat, cyclesOf s x.toNat + 24))⟩) h 1
  else
    let c := { c with reqs := c.reqs ++ [q], causes := c.causes ||| 2 ^ cause }
    let s := setShut s h c
    if st == 3 then setShutState s h 2 else s

/-- A request is withdrawn in cycle `at'`: with none left at a closed domain the opening countdown begins. A request is
active in at least the cycle it came in, so that every closure lasts one cycle or more (R244). -/
def shutDropAt (s : State) (h : RingId) (p : ShutReq → Bool) (at' : Nat) : State :=
  let c := shutOf s h
  let gone := c.reqs.filter p
  if gone.isEmpty then s
  else
    let upTo (x : ShutReq) : Nat := max at' (x.time + 1)
    let c := { c with
      reqs := c.reqs.filter (fun x => !p x),
      last := gone.foldl (fun a x => max a (upTo x)) c.last,
      ended := c.ended ++ gone.map (fun x => (x.cause, x.time, upTo x)) }
    let s := setShut s h c
    if c.reqs.isEmpty && shutState s h == 2 then setShutState s h 3 else s

/-- A withdrawal in the present cycle. -/
def shutDrop (s : State) (h : RingId) (p : ShutReq → Bool) : State := shutDropAt s h p (periodOf s h.toNat)

def shutWithdraw (s : State) (r : RingId) (cause src : Nat) : State :=
  shutDrop s (headOf s r) (fun x => x.cause == cause && x.src == src)

/-- The source numbers of the requests that the module's own units raise. -/
def srcStream (t : TileId) (n : Nat) : Nat := 0x10000 + t.toNat * 64 + n
def srcHold (r : RingId) : Nat := 0x20000 + r.toNat
def srcPower : Nat := 0x30000
def srcTrip : Nat := 0x30001
def srcCrit : Nat := 0x30002
def srcSkew (r : Nat) (c : Nat) : Nat := 0x40000 + r * 32 + c
def srcDebug : Nat := 0x50000

/-- Every ring of a closing domain has executed its 24 cycles, and no more. -/
def freezeRings (s : State) (h : RingId) : State :=
  (shutOf s h).stop.foldl (fun s e => { s with cycles := s.cycles.set (fun _ => 0) e.1 (max (cyclesOf s e.1) e.2) }) s

/-- SHUTTER_FREEZE (R243): 24 cycles after the request that set it, at one count in every ring; with every request withdrawn by then the
opening has already been counted from the last withdrawal. -/
def execShutterFreeze (r : RingId) (s : State) : Outcome State Fault Refusal :=
  .next (
    let h := headOf s r
    if shutState s h != 1 then s
    else
      let s := freezeRings (advancePeriod s h.toNat ((shutOf s h).since + 24)) h
      let s := satAdd s (aShtState h.toNat) 16 32 1
      setShutState s h (if (shutOf s h).reqs.isEmpty then 3 else 2))

/-! ## Crossings: crossing r lies between rings r and r + 1 (R249) -/

/-- The stretch of the two regions of a crossing since its measure restarted, in eighths of a period. -/
def skewOf (s : State) (r : Nat) : Nat :=
  let a := s.skew.get (fun _ => 0) (2 * r)
  let b := s.skew.get (fun _ => 0) (2 * r + 1)
  max a b - min a b

/-- Restart the measure of every crossing that touches one of the rings. -/
def skewClear (s : State) (rs : List RingId) : State :=
  { s with skew := s.skew.clear (fun k => rs.any (fun r => r.toNat == k / 2 || r.toNat == k / 2 + 1)) }

/-- The skew, in cycles, at which a crossing slips: 2, or 1 just before a module-level switch (R249, R412). -/
def skewLimit (s : State) : Nat := if s.preSwitch then 1 else 2

/-- The skew of a crossing has reached the limit. -/
def skewed (s : State) (r : Nat) : Bool :=
  r < 15 && 8 * skewLimit s ≤ skewOf s r && !isOos s (BitVec.ofNat 4 r) && !isOos s (BitVec.ofNat 4 (r + 1))

/-- A crossing whose skew has reached the limit raises skew hold at the domain of each of its two rings (R249; that a crossing between
two domains closes both is the model's choice, log entry 164). -/
def skewCheck (s : State) (r c : Nat) : State :=
  if !skewed s r then s
  else shutRaise (shutRaise s (BitVec.ofNat 4 r) 1 (srcSkew r c)) (BitVec.ofNat 4 (r + 1)) 1 (srcSkew r c)

/-- The ranking of R247, highest first: debug hold, power hold, skew hold, link retry, host hold, multicast wait, memory
late. -/
def causeRank : List Nat := [6, 2, 1, 3, 5, 4, 0]

/-- The highest-ranked cause of the requests (cause, first period, period of withdrawal) that `p` selects. -/
def topCause (l : List (Nat × Nat × Nat)) (p : Nat × Nat × Nat → Bool) : Option Nat :=
  causeRank.find? (fun k => l.any (fun x => x.1 == k && p x))

/-- The cause that a frozen cycle x is charged to, where y = x − 24 (R247): of the requests active in cycle y, or, where none
was, of those raised in the first cycle after it in which any is active. -/
def chargeAt (l : List (Nat × Nat × Nat)) (y : Nat) : Nat :=
  match topCause l (fun x => decide (x.2.1 ≤ y ∧ y < x.2.2)) with
  | some k => k
  | none =>
    let later := (l.map (fun x => x.2.1)).filter (fun b => y < b)
    let first := later.foldl min (later.headD 0)
    (topCause l (fun x => x.2.1 == first)).getD 0

/-- Insert a period into a rising list. -/
def insertCut : List Nat → Nat → List Nat
  | [], b => [b]
  | a :: l, b => if b < a then b :: a :: l else a :: insertCut l b

/-- The cycles of a closure by cause: between two neighbouring starts and ends of requests the cause is one. -/
def chargesOf (c : Shut) : List (Nat × Nat) :=
  let cuts := ((c.ended.map (fun x => x.2.1) ++ c.ended.map (fun x => x.2.2)).filter (fun b => c.since < b && b < c.last)).foldl insertCut []
  let bounds := [c.since] ++ cuts ++ [c.last]
  (bounds.zip (bounds.drop 1)).map (fun b => (chargeAt c.ended b.1, b.2 - b.1))

/-- What an engine of a tile holds (R449), by its code, the context and the queue of each: 0 cores, 1 stream engine, 2 array,
3 vector unit, 4 Louvre, 5 gather port, 6 router, 7 queues. A beat in flight counts at its destination's router. -/
def workOf (s : State) (t : TileId) (e : Nat) : List (CtxId × Option Nat) :=
  let plain (l : List CtxId) : List (CtxId × Option Nat) := l.map (fun n => (n, none))
  let ops (k : Nat) : List CtxId :=
    let q := s.engines.get engDef (t.toNat * 4 + k)
    (q.running.toList ++ q.pend.toList).map (fun o => o.ctx)
  match e with
  | 0 => plain (((List.range 32).map (fun h => BitVec.ofNat 5 h)).filterMap (fun h =>
      let x := fld s (aThread t h) 0 3
      if x == 1 || x == 2 then some (taskCtx s t (threadTask s t h)) else none))
  | 1 => plain (s.strms.filterMap (fun x => if x.1 / 64 == t.toNat then x.2.map (fun y => y.ctx) else none))
  | 2 => plain (ops 0 ++ (s.drains.filter (fun d => d.t == t)).map (fun d => d.op.ctx))
  | 3 => plain (ops 2)
  | 4 => plain (ops 1 ++ (lvOf s t).map (fun x => x.op.ctx))
  | 5 => plain ((s.gaths.filter (fun g => g.t == t)).map (fun g => g.ctx))
  | 6 => plain ((s.sends.filter (fun x => x.t == t)).map (fun x => x.ctx) ++ (s.beats.filter (fun b => b.dst == t)).map (fun b => b.ctx))
  | 7 => ((List.range 16).filter (fun q => tqFill s t q != 0)).map (fun q => (taskCtx s t (tqTask s t q), some q))
  | _ => []

/-- The requests that the slices hold, each with its slice, its context and its tile. -/
def traffic (s : State) : List (Nat × CtxId × TileId) :=
  let all := s.reqs ++ (s.fills.map (fun f => f.waiters)).flatten ++ (s.merges.map (fun m => m.joined.map (fun x => x.1))).flatten
  all.map (fun q => (sliceOf q.pa, q.ctx, match q.kind with
    | .read t _ _ => t
    | .write t _ _ _ _ _ => t
    | .gather t _ => t))

/-- The lines that the memory ports hold for streams, in the same form. -/
def portTraffic (s : State) : List (Nat × CtxId × TileId) :=
  (s.strms.map (fun e => match e.2 with
    | some x => (x.caps.filter (fun c => c.port < 16)).map (fun c => (c.port, x.ctx, BitVec.ofNat 9 (e.1 / 64)))
    | none => [])).flatten

/-- The selection registers of one kind that count an event, each with its number. -/
def selsOf (s : State) (base event : Nat) : List (Nat × Word64) :=
  ((List.range 8).map (fun k => (k, reg s (modG (base + 8 * k))))).filter (fun x => getF x.2 48 1 == 1 && getF x.2 0 8 == event)

/-- A selection counts an event of some of this work. -/
def selWork (v : Word64) (e event : Nat) (work : List (CtxId × Option Nat)) : Bool :=
  work.any (fun w => selCounts v (some w.1) e event w.2)

/-- Charge n frozen cycles of a domain to a cause: in the domain's own count; to every engine of its tiles that holds work; and to
every slice and memory port that holds its traffic (R247, R449). -/
def charge (h : RingId) (s : State) (x : Nat × Nat) : State :=
  let key := h.toNat * 8 + x.1
  let s := { s with charged := s.charged.set (fun _ => 0) key (s.charged.get (fun _ => 0) key + x.2) }
  let tiles := (domainRings s h).flatMap ringTiles
  let held (l : List (Nat × CtxId × TileId)) : List (CtxId × Option Nat) :=
    (l.filter (fun y => tiles.contains y.2.2)).map (fun y => (y.2.1, some y.1))
  let s := (selsOf s 0x4100 x.1).foldl (fun s c =>
    tiles.foldl (fun s t =>
      if selWork c.2 (getF c.2 8 4) x.1 (workOf s t (getF c.2 8 4)) then satAdd s (tileA t.toNat (0x2F80 + 8 * c.1)) 0 64 x.2 else s) s) s
  (selsOf s 0x4140 x.1).foldl (fun s c =>
    let work := held (traffic s)
    let ports := work.map (fun w => (w.1, w.2.map (fun i => i / 4))) ++ held (portTraffic s)
    if selWork c.2 8 x.1 work || selWork c.2 9 x.1 ports then satAdd s (modG (0x4180 + 8 * c.1)) 0 64 x.2 else s) s

/-- SHUTTER_OPEN (R244, R247): the closure is recorded, its cycles are charged and the crossings of the domain restart. -/
def execShutterOpen (r : RingId) (s : State) : Outcome State Fault Refusal :=
  .next (
    let h := headOf s r
    let c := shutOf s h
    if shutState s h != 3 || !c.reqs.isEmpty then s
    else
      let s := advancePeriod s h.toNat (c.last + 24)
      let s := setReg s (aShtLast h.toNat)
        (BitVec.ofNat 64 (c.first + c.causes * 16 + min (c.last - c.since) (2 ^ 32 - 1) * 2 ^ 16))
      let s := (chargesOf c).foldl (charge h) s
      setShutState (setShut (skewClear s (domainRings s h)) h (shutDef 0)) h 0)

/-- SKEW_HOLD (R249, R412). -/
def execSkewHold (r : RingId) (c : BitVec 5) (s : State) : Outcome State Fault Refusal :=
  .next (powered s (skewCheck s r.toNat c.toNat))

/-- The requests of one crossing. -/
def skewReq (r : RingId) (c : BitVec 5) (x : ShutReq) : Bool := x.cause == 1 && x.src == srcSkew r.toNat c.toNat

/-- A crossing's request at one head is withdrawn 8 cycles after it was raised. -/
def expireAt (r : RingId) (c : BitVec 5) (s : State) (h : RingId) : State :=
  match (shutOf s h).reqs.find? (skewReq r c) with
  | none => s
  | some x => shutDropAt (advancePeriod s h.toNat (x.time + 8)) h (skewReq r c) (x.time + 8)

/-- SKEW_HOLD_EXPIRE (R242): at the domains of both rings of the crossing. -/
def execSkewHoldExpire (r : RingId) (c : BitVec 5) (s : State) : Outcome State Fault Refusal :=
  .next (([headOf s r, headOf s (r + 1)].eraseDups).foldl (expireAt r c) s)

/-- ADAPTIVE_STRETCH (R249, R415): at most one in any 16 consecutive periods of a region. -/
def execAdaptiveStretch (region : BitVec 5) (eighths : BitVec 3) (s : State) : Outcome State Fault Refusal :=
  .next (powered s (
    let r := region.toNat
    let e := eighths.toNat
    let at' := s.stretchAt.get (fun _ => 0) r
    if r ≥ 23 || e == 0 || 4 < e || (at' != 0 && periodOf s r + 1 < at' + 16) then s
    else
      let s := satAdd s (aRegion r) 8 32 1
      let s := { s with debt := s.debt.set (fun _ => 0) r (debtOf s r + e) }
      let s := { s with stretchAt := s.stretchAt.set (fun _ => 0) r (periodOf s r + 1) }
      let add (s : State) (k : Nat) : State := { s with skew := s.skew.set (fun _ => 0) k (s.skew.get (fun _ => 0) k + e) }
      if r ≥ 16 then s
      else
        let s := if r < 15 then add s (2 * r) else s
        if 0 < r then add s (2 * (r - 1) + 1) else s))

/-- PRE_SWITCH_SKEW_HOLD (R412): from 50 ns before the switch time the limit is 1, and every crossing already there
raises skew hold. -/
def preSwitchAll (s : State) : State :=
  (List.range 15).foldl (fun s r => (List.range 32).foldl (fun s c => skewCheck s r c) s) { s with preSwitch := true }

end Sys2Proof.Machine
end

