-- ==== Sys2Proof/Machine/MemSys.lean ====
section
/-! DEFINITION. The memory system: the address maps (R263, R264), tag groups and their words (R267, R268), translation
(R270 to R272), the Transom (R273 to R278), the priority rule (R283), merged reads (R286 to R288), the order of reads and
writes (R289, R290) and the hazard records (R453, R454). -/

namespace Sys2Proof.Machine

open Host (Outcome)

/-! ## Addresses (R263, R264, R267) -/

def groupOf (pa : Nat) : Nat := pa / 512
def stackOf (pa : Nat) : Nat := pa / 512 % 8
def setOf (pa : Nat) : Nat := (pa / 2 ^ 15 % 2048) ^^^ (pa / 2 ^ 26 % 2048)
def frameSize : Nat := 2 ^ 21

/-- The address of a group's word in the tag region (R267). -/
def tagAddr (pa : Nat) : Nat :=
  let g := pa / 512
  let o := 8 * (g / 64)
  0x8DC0000000 + o / 512 * 2 ^ 15 + g % 64 * 512 + o % 512

def aMemRoot (n : CtxId) : Nat := memA (8 * n.toNat)
def aMemPrio (k : Nat) : Nat := memA (0x100 + 8 * k)
def aMemPin (n : CtxId) : Nat := memA (0x200 + 8 * n.toNat)
def aMemFree : Nat := memA 0x300
def aTslCount (i : Nat) : Nat := memA (0x1000 + 0x20 * i)
def aTslMerge (i : Nat) : Nat := memA (0x1008 + 0x20 * i)
def aTslInteg (i : Nat) : Nat := memA (0x1010 + 0x20 * i)
def aTslClass (i : Nat) : Nat := memA (0x1018 + 0x20 * i)
def aStack (k : Nat) : Nat := memA (0x2000 + 8 * k)

/-! ## Memory contents: plaintext bytes, and per group the difference d of R268 -/

def dramDef : Nat → Byte := fun _ => 0
def dramByte (s : State) (pa : Nat) : Byte := SMap.get dramDef s.dram pa

/-- The poison pattern p(k) of R267. -/
def poisonPat (k : Nat) : Word64 := (0x9E3779B97F4A7C15#64).rotateLeft (16 * k)

/-- The XOR of the patterns of the lines that a mask selects. -/
def poisonWord (m : Nat) : Word64 := (List.range 4).foldl (fun w k => if (m >>> k) % 2 == 1 then w ^^^ poisonPat k else w) 0

/-- The poisoned lines that a difference shows: 0 when it is intact, none when the group fails (R268). -/
def poisonMask (d : Word64) : Option Nat := (List.range 16).find? (fun m => poisonWord m == d)

/-! ## Groups in the Transom -/

def grpNone : Group := ⟨false, false, false, 0, 0, 0, 0, false, 0, 0, [], [], 0, 0, []⟩
def grpDef : Nat → Group := fun _ => grpNone
def grp (s : State) (g : Nat) : Group := s.groups.get grpDef g

def pinnedBy (x : Group) (n : CtxId) : Nat := if x.valid && x.cls == 3 && x.ctx == n then 1 else 0

/-- Adjust the counts of PINNED groups of a context and a slice. -/
def pinAdjust (s : State) (g : Nat) (old new : Group) (n : CtxId) : State :=
  let i := sliceOf (g * 512)
  let a := pinnedBy old n
  let b := pinnedBy new n
  if a == b then s
  else
    let s := setFld s (aMemPin n) 32 24 (fld s (aMemPin n) 32 24 + b - a)
    setFld s (aTslClass i) 32 16 (fld s (aTslClass i) 32 16 + b - a)

/-- Record a group, keeping the counts of PINNED groups (R294). -/
def setGrp (s : State) (g : Nat) (x : Group) : State :=
  let old := grp s g
  let s := pinAdjust s g old x old.ctx
  let s := if x.ctx == old.ctx then s else pinAdjust s g old x x.ctx
  { s with groups := s.groups.set grpDef g x }

def grpByte (s : State) (g off : Nat) : Byte :=
  match (grp s g).bytes.get (fun _ => none) off with
  | some b => b
  | none => dramByte s (g * 512 + off)

/-- The bytes of line k as they stand. -/
def lineBytes (s : State) (g k : Nat) : List Byte := (List.range 128).map (fun i => grpByte s g (k * 128 + i))

/-- Bytes of line k written since the fill. -/
def writtenIn (x : Group) (k : Nat) : Nat := (x.bytes.filter (fun e => e.1 / 128 == k)).length
def lineWhole (x : Group) (k : Nat) : Bool := writtenIn x k == 128
def groupWhole (x : Group) : Bool := x.bytes.length == 512

/-- A read of line k hits. -/
def lineHit (x : Group) (k : Nat) : Bool := x.valid && (x.filled || lineWhole x k)

/-- Line k is poisoned (R274, R291): written whole since the fill, when some byte of it was last written with a poisoned
element; else when it was poisoned at the fill or a poisoned element was written to it. -/
def linePoison (x : Group) (k : Nat) : Bool :=
  if lineWhole x k then x.poisonAt.any (fun e => e.1 / 128 == k && e.2) else x.poisonWr.getLsbD k || x.poisonIn.getLsbD k

/-- The mark a capture of line k takes: 2 integrity failure, 1 poison (R291). -/
def lineMark (x : Group) (k : Nat) : Nat := if x.failed then 2 else if linePoison x k then 1 else 0

def poisonLines (x : Group) : Nat := (List.range 4).foldl (fun a k => if linePoison x k then a + 2 ^ k else a) 0

/-- The words of 8 consecutive groups of a channel: a block of the tag cache (R268). -/
def tagBlock (g : Nat) : Nat := tagAddr (g * 512) / 64

/-- One burst of 64 B that a controller reads (`dir` 0) or writes (1) for a group (R448, R450). -/
def tagBurst (s : State) (g dir : Nat) : State :=
  let k := stackOf (g * 512)
  perfMod (bwAdd s (16 + k) dir 64) (some (grp s g).ctx) 10 (0x10 + dir) (some k) 1

/-- The controller uses the block of a group's word, and writes to it where `write` (R268): its tag cache keeps 4,096 blocks
and gives up the one used longest ago, which is written out where it was written to. A miss is counted and reads a burst. -/
def touchTag (s : State) (g : Nat) (write : Bool) : State :=
  let k := stackOf (g * 512)
  let held := s.tagCache.get (fun _ => []) k
  let was := held.find? (fun e => e.1 == tagBlock g)
  let s := if was.isSome then s else tagBurst (perfMod s (some (grp s g).ctx) 10 0x15 (some k) 1) g 0
  let kept := held.filter (fun e => e.1 != tagBlock g)
  let out := kept.take (kept.length - 4095)
  let s := if out.any (fun e => e.2) then tagBurst s g 1 else s
  let new := kept.drop (kept.length - 4095) ++ [(tagBlock g, write || was.any (fun e => e.2))]
  { s with tagCache := s.tagCache.set (fun _ => []) k new }

/-- Store a group's written bytes and its word; the word of a group that has failed stays as it is, and the group goes on failing
(R274). -/
def storeGroup (s : State) (g : Nat) (x : Group) (fresh : Bool) : State :=
  let dram := x.bytes.foldl (fun m e => match e.2 with
    | some b => SMap.set dramDef m (g * 512 + e.1) b
    | none => m) s.dram
  let s := { s with dram := dram }
  let s := bwAdd s (16 + stackOf (g * 512)) 1 512
  let s := perfMod (perfMod s (some x.ctx) 10 0x11 (some (stackOf (g * 512))) 8) (some x.ctx) 8 0x14 (some (sliceOf (g * 512))) 1
  if fresh then
    let s := touchTag s g true
    { s with badGroups := s.badGroups.filter (· != g), tagDiff := s.tagDiff.set (fun _ => 0) g (poisonWord (poisonLines x)) }
  else if x.failed then { s with badGroups := s.badGroups.filter (· != g) ++ [g] } else s

/-- The reads of a group, lines 0 to 3 and its word, that failed three times (R262). -/
def failMask (fails : List Nat) : BitVec 5 :=
  BitVec.ofNat 5 ((List.range 5).foldl (fun a k => if 3 ≤ fails.getD k 0 then a + 2 ^ k else a) 0)

/-- The reads issued again: each failed attempt but a third (R262). -/
def retriesOf (fails : List Nat) : Nat := (List.range 5).foldl (fun a k => a + min 2 (fails.getD k 0)) 0

/-- The attempts of the i-th read of a group (R268). -/
def readFails (rep : LinkReport) (i : Nat) : List Nat := if i == 0 then rep.first else if i == 1 then rep.second else rep.third

/-- What the i-th read of a group shows of its difference d (R268). -/
def readDiff (s : State) (g : Nat) (rep : LinkReport) (i : Nat) : Option Nat :=
  poisonMask (s.tagDiff.get (fun _ => 0) g ^^^ rep.noise.getD i 0)

/-- The number of the read that is checked first: the second where the first met an uncorrectable link error. -/
def checkedRead (rep : LinkReport) : Nat := if failMask rep.first == 0 then 0 else 1

/-- The group could not be checked: both reads of it met an uncorrectable link error (R268, step 5). -/
def linkFails (rep : LinkReport) : Bool := failMask rep.first != 0 && failMask rep.second != 0

/-- The reads of a group that its check takes: one; one more after an uncorrectable link error; and one more after a difference, in the
read that is checked, that is no poison (R268, steps 4 and 5). -/
def readsOf (s : State) (g : Nat) (rep : LinkReport) : Nat :=
  let n := checkedRead rep
  n + 1 + (if !linkFails rep && (readDiff s g rep n).isNone then 1 else 0)

/-- A group fails its check. In normal service it goes on failing until it is written whole or its frame is unmapped (R291). -/
def failCheck (s : State) (g : Nat) : State :=
  let s := setGrp (satAdd s (aTslInteg (sliceOf (g * 512))) 16 16 1) g { grp s g with filled := true, failed := true }
  if isNormal s then { s with badGroups := s.badGroups.filter (· != g) ++ [g] } else s

/-- The outcome of a check of a group's word (R268): filled, with its poisoned lines, its failure, or the success of the read
repeated in step 4. -/
def fillCheck (s : State) (g : Nat) (rep : LinkReport) : State :=
  let i := sliceOf (g * 512)
  let n := checkedRead rep
  let again := if failMask (readFails rep (n + 1)) != 0 then none else readDiff s g rep (n + 1)
  let good (s : State) (m : Nat) : State :=
    let s := satAdd s (aTslInteg i) 32 16 ((List.range 4).filter (fun k => (m >>> k) % 2 == 1)).length
    setGrp s g { grp s g with filled := true, failed := false, poisonIn := BitVec.ofNat 4 m }
  if s.badGroups.contains g then failCheck s g
  else match readDiff s g rep n, again with
  | some m, _ => good s m
  | none, some m => good (satAdd s (aTslInteg i) 0 16 1) m
  | none, none => failCheck s g

def bitsSet (b : BitVec 5) : Nat := ((List.range 5).filter (fun k => b.getLsbD k)).length

/-- The mark of line k when the second read of its group met the link errors `bits` (R268). -/
def ueMark (bits : BitVec 5) (k : Nat) : Nat := if bits.getLsbD k then 3 else 2

/-- Count what a fetch read and met on the link (R262, R294, R450): the group, as often as it is read; its word through the tag
cache. -/
def linkCounts (s : State) (g : Nat) (rep : LinkReport) : State :=
  let st := stackOf (g * 512)
  let n := (grp s g).ctx
  let reads := readsOf s g rep
  let each (f : List Nat → Nat) : Nat := ((List.range reads).map (fun i => f (readFails rep i))).sum
  let retries := each retriesOf
  let s := touchTag s g false
  let s := satAdd (satAdd (satAdd s (aStack st) 0 24 rep.corrected) (aStack st) 24 16 retries) (aStack st) 40 8
    (each (fun f => bitsSet (failMask f)))
  let s := satAdd s (aTslInteg (sliceOf (g * 512))) 48 16 (each (fun f => bitsSet (failMask f &&& 0xF)))
  let s := bwAdd s (16 + st) 0 (512 * reads + 64 * retries)
  perfMod (perfMod (perfMod s (some n) 10 0x10 (some st) (8 * reads)) (some n) 10 0x13 (some st) rep.corrected)
    (some n) 10 0x14 (some st) retries

/-- What the next fetch that is served at once meets on the link: free values. -/
def linkReport (s : State) (g : Nat) : LinkReport :=
  ⟨(List.range 5).map (Config.linkFailed s.freeCtr g 0), (List.range 5).map (Config.linkFailed s.freeCtr g 1),
    (List.range 5).map (Config.linkFailed s.freeCtr g 2),
    Config.linkCorrected s.freeCtr g, (List.range 3).map (Config.linkNoise s.freeCtr g)⟩

/-- Fetch and check a group at once. Where the group cannot be checked, the state holds it unfilled, and the answer gives the
lines that met the link error. -/
def fetchGroup (s : State) (g : Nat) : State × Option (BitVec 5) :=
  let rep := linkReport s g
  let s := linkCounts { s with freeCtr := s.freeCtr + 1 } g rep
  if linkFails rep then (s, some (failMask rep.second)) else (fillCheck s g rep, none)

/-- Write a group back if it is dirty: whole, filled, or after a fetch (R274). A group that fails, or cannot be checked, keeps
its stored word. -/
def writeBack (s : State) (g : Nat) : State :=
  let x := grp s g
  if !x.valid || x.bytes.isEmpty then s
  else if groupWhole x then storeGroup s g x true
  else if x.filled then storeGroup s g x (!x.failed)
  else match fetchGroup s g with
    | (s, some _) => storeGroup s g x false
    | (s, none) => storeGroup s g (grp s g) (!(grp s g).failed)

/-- Drop a group without write-back. -/
def dropGroup (s : State) (g : Nat) : State := setGrp s g grpNone

def hasFill (s : State) (g : Nat) : Bool := s.fills.any (fun f => f.group == g)

/-- The groups of a set of a slice. -/
def setGroups (s : State) (g : Nat) : List Nat :=
  (s.groups.filter (fun e => e.2.valid && sliceOf (e.1 * 512) == sliceOf (g * 512) &&
    setOf (e.1 * 512) == setOf (g * 512))).map (fun e => e.1)

/-- The rank of a group as a victim: class, then KEEP count, then age (R277); PINNED groups are never chosen. -/
def victimRank (x : Group) : Nat × Nat × Nat := (x.cls, if x.cls == 2 then x.keep else 0, x.used)

def rankLt (a b : Nat × Nat × Nat) : Bool :=
  a.1 < b.1 || (a.1 == b.1 && (a.2.1 < b.2.1 || (a.2.1 == b.2.1 && a.2.2 < b.2.2)))

/-- The victim of a set, if some group can be evicted. -/
def victim (s : State) (gs : List Nat) : Option Nat :=
  (gs.filter (fun g => (grp s g).cls != 3 && !hasFill s g)).foldl (fun best g => match best with
    | none => some g
    | some b => if rankLt (victimRank (grp s g)) (victimRank (grp s b)) then some g else some b) none

/-- Give a group a way: an invalid one, else the victim's, which is written back (R274, R277). -/
def allocate (s : State) (g : Nat) (n : CtxId) (tensor : BitVec 32) : Option State :=
  if (grp s g).valid then some s
  else
    let fresh : Group := { grpNone with valid := true, ctx := n, cls := 0, tensor := tensor }
    let gs := setGroups s g
    if gs.length < 16 then some (setGrp s g fresh)
    else match victim s gs with
      | none => none
      | some v => some (setGrp (dropGroup (writeBack s v) v) g fresh)

/-- An access raises the class of a group, within the PINNED limits (R275, R277). -/
def raiseClass (s : State) (g : Nat) (n : CtxId) (cls keepN : Nat) (gen : BitVec 32) : State :=
  let x := grp s g
  let pinned := ((setGroups s g).filter (fun k => (grp s k).cls == 3)).length
  let full := cls == 3 && x.cls != 3 && (12 ≤ pinned || fld s (aMemPin n) 0 24 ≤ fld s (aMemPin n) 32 24)
  let s := if full then satAdd s (aTslClass (sliceOf (g * 512))) 0 24 1 else s
  let c := if full then max x.cls 1 else max x.cls cls
  let x' := { x with
    cls := c, used := s.useCtr,
    keep := if cls == 2 && c == 2 then max x.keep keepN else x.keep,
    passGen := if c == 2 && x.cls != 2 then BitVec.ofNat 8 gen.toNat else x.passGen }
  setGrp { s with useCtr := s.useCtr + 1 } g x'

/-- A pass of a read stream over a KEEP group (R276): the read that made the group KEEP is not one. -/
def countPass (s : State) (g : Nat) (q : Req) : State :=
  let x := grp s g
  if x.cls == 2 && q.stream && q.tensor == x.tensor && x.passGen != BitVec.ofNat 8 q.gen.toNat then
    let x' := { x with keep := x.keep - 1, passGen := BitVec.ofNat 8 q.gen.toNat }
    setGrp s g (if x'.keep == 0 then { x' with cls := 1 } else x')
  else s

/-- What an access does to the class of the group it reaches (R275 to R278). -/
def access (s : State) (g : Nat) (q : Req) : State :=
  let s := raiseClass s g q.ctx q.cls q.keepN q.gen
  let isRead := match q.kind with | .write .. => false | _ => true
  let s := if isRead then countPass s g q else s
  if q.unpin && isRead && (grp s g).cls == 3 then setGrp s g { grp s g with cls := 1 } else s

/-! ## Hazards (R453, R454) -/

def aHz (n : CtxId) : Nat := modG (0x4400 + 8 * n.toNat)
def ctxDebug (s : State) (n : CtxId) : Bool := fld s (aCtx n) 6 1 == 1

/-! ## Translation (R270) -/

def pteAt (s : State) (a : Nat) : Word64 := s.ptes.get (fun _ => 0) a

/-- The address of the leaf entry of a page number, through the two upper levels. -/
def leafAddr (s : State) (n : CtxId) (vpn : Nat) : Option Nat :=
  let root := fld s (aMemRoot n) 12 28 * 4096
  let e1 := pteAt s (root + 8 * (vpn / 2 ^ 18 % 512))
  let e2 := pteAt s (getF e1 12 28 * 4096 + 8 * (vpn / 512 % 512))
  if root == 0 || getF e1 0 1 == 0 || getF e1 3 1 == 0 || getF e2 0 1 == 0 || getF e2 3 1 == 0 then none
  else some (getF e2 12 28 * 4096 + 8 * (vpn % 512))

/-- The leaf entry of a page, 0 where it is not mapped. -/
def walk (s : State) (n : CtxId) (vpn : Nat) : Word64 :=
  match leafAddr s n vpn with
  | some a => if getF (pteAt s a) 0 1 == 1 && getF (pteAt s a) 3 1 == 0 then pteAt s a else 0
  | none => 0

def pteOk (e : Word64) (write : Bool) : Bool := getF e 0 1 == 1 && getF e (if write then 2 else 1) 1 == 1

/-- The physical address of a VA for a read or a write. -/
def translate (s : State) (n : CtxId) (va : Nat) (write : Bool) : Option Nat :=
  let e := walk s n (va / frameSize % 2 ^ 27)
  if va < 2 ^ 48 && pteOk e write then some (getF e 12 28 * 4096 + va % frameSize) else none

/-- The fault of a consumed mark (R291): 1 POISON, 2 TAG_FAIL, 3 MEM_UE, 4 XLATE. -/
def memCause (mark : Nat) : Nat :=
  match mark with
  | 1 => cPoison
  | 2 => cTagFail
  | 3 => cMemUe
  | _ => cXlate

/-! ## Bytes that land in a group -/

/-- Merge bytes, by physical address, into a group: they join what is written over the fill; `bad` says which hold a poisoned
element (R274, R291). -/
def mergeInto (x : Group) (bytes : List (Nat × Byte)) (bad : Nat → Bool) : Group :=
  let hit := (List.range 4).foldl (fun a k =>
    if bytes.any (fun e => e.1 / 128 % 4 == k && bad e.1) then a + 2 ^ k else a) 0
  { x with
    bytes := bytes.foldl (fun m e => SMap.set (fun _ => none) m (e.1 % 512) (some e.2)) x.bytes,
    poisonAt := bytes.foldl (fun m e => SMap.set (fun _ => false) m (e.1 % 512) (bad e.1)) x.poisonAt,
    poisonWr := x.poisonWr ||| BitVec.ofNat 4 hit }

/-- The pieces of a range that lie in one line each: (offset, length). -/
def lineCuts (a len : Nat) : List (Nat × Nat) :=
  if len == 0 then []
  else (List.range ((a + len - 1) / 128 - a / 128 + 1)).map (fun i =>
    let lo := max a ((a / 128 + i) * 128)
    let hi := min (a + len) ((a / 128 + i + 1) * 128)
    (lo - a, hi - lo))

/-- Every page of a range allows the access. -/
def vaOk (s : State) (n : CtxId) (va len : Nat) (write : Bool) : Bool :=
  (lineCuts va len).all (fun c => (translate s n (va + c.1) write).isSome)

/-- A way for a group whose access is served at once; where every way of the set is held, the group takes one beyond them for
the time of the access. -/
def takeWay (s : State) (g : Nat) (n : CtxId) : State :=
  match allocate s g n 0 with
  | some s => s
  | none => setGrp s g { grpNone with valid := true, ctx := n }

/-- The end of an access served at once: a group beyond the 16 ways of its set is written back and dropped. -/
def endWay (s : State) (g : Nat) : State :=
  if (setGroups s g).length ≤ 16 then s else dropGroup (writeBack s g) g

/-- Count an access served at once as a hit or a miss of its slice (R294). -/
def countNow (s : State) (g k : Nat) : State :=
  satAdd s (aTslCount (sliceOf (g * 512))) (if lineHit (grp s g) k then 0 else 32) 32 1

/-- Land part of one line. -/
def storePart (s : State) (n : CtxId) (pa : Nat) (bs : List Byte) (cls : Nat) (poison : Bool) : State :=
  let g := groupOf pa
  let s := raiseClass (takeWay (countNow s g (pa / 128 % 4)) g n) g n cls 0 0
  endWay (setGrp s g (mergeInto (grp s g) ((bs.zipIdx).map (fun e => (pa + e.2, e.1))) (fun _ => poison))) g

/-- Land a range of a context's memory: the records of the hazard detector. -/
def storeVa (s : State) (n : CtxId) (va : Nat) (bs : List Byte) (cls : Nat) : State :=
  (lineCuts va bs.length).foldl (fun s c =>
    storePart s n ((translate s n (va + c.1) true).getD 0) ((bs.drop c.1).take c.2) cls false) s

/-! ## The hazard detector's records -/

/-- The domains of which a context is slot owner. -/
def ownedHeads (s : State) (n : CtxId) : List RingId :=
  allRings.filter (fun r => headOf s r == r && fld s aShtOwned r.toNat 1 == 1 && fld s aShtOwner (4 * r.toNat) 4 == n.toNat)

/-- Report a hazard of a context: a record in its ring, and with BREAK the debug hold (R453, R454). -/
def hazard (s : State) (n : CtxId) (code : Nat) (unit : BitVec 32) (d0 d1 : Word64) : State :=
  if !ctxDebug s n then s
  else
    let wr := fld s (aHz n) 0 32
    let va := s.hzRing.get (fun _ => 0) n.toNat + wr % max 1 (s.hzSlots.get (fun _ => 0) n.toNat) * 32
    let rec' := bytesOf (nowNs s) 8 ++ bytesOf code 2 ++ bytesOf n.toNat 1 ++ [0] ++ bytesOf unit.toNat 4 ++
      bytesOf d0.toNat 8 ++ bytesOf d1.toNat 8
    let s := if vaOk s n va 32 true then storeVa s n va rec' 1 else s
    let s := setFld s (aHz n) 0 32 (wr + 1)
    if fld s (aHz n) 33 1 == 1 && fld s (aHz n) 34 1 == 0 then
      (ownedHeads s n).foldl (fun s h => shutRaise s h 6 srcDebug) (setFld s (aHz n) 34 1 1)
    else s

/-! ## Captures -/

def strmKey (t : TileId) (n : Nat) : Nat := t.toNat * 64 + n
def strmOf (s : State) (t : TileId) (n : Nat) : Option Strm := s.strms.get strmDef (strmKey t n)
/-- The stream engine has advanced: a row moved, a request returned, or the stream ended (R432). -/
def strmAdvance (old new : Option Strm) : Bool :=
  match old, new with
  | some a, some b => a.moved != b.moved || b.outst.length < a.outst.length
  | some _, none => true
  | none, _ => false

def setStrm (s : State) (t : TileId) (n : Nat) (x : Option Strm) : State :=
  let s := if strmAdvance (strmOf s t n) x then bump s (8 * t.toNat + 3) else s
  { s with strms := s.strms.set strmDef (strmKey t n) x }

/-- Request entries that a stream holds: the lines still out and those not yet taken by a row; a deferred line was never
issued and holds none (R71, R285). -/
def strmHeld (x : Strm) : Nat := x.outst.length + (x.caps.filter (fun c => c.port < 16)).length

/-- Record a stream and its OUTSTANDING entries. -/
def putStrm (s : State) (t : TileId) (n : Nat) (x : Strm) : State :=
  setFld (setStrm s t n (some x)) (aSte t n) 8 8 (strmHeld x)

/-- Return places of a memory port in use, of its 2,048 (R284). -/
def portUsed (s : State) (p : Nat) : Nat := s.portUse.get (fun _ => 0) p
def portTake (s : State) (p : Nat) : State := { s with portUse := s.portUse.set (fun _ => 0) p (portUsed s p + 1) }
def portFree (s : State) (p : Nat) : State := { s with portUse := s.portUse.set (fun _ => 0) p (portUsed s p - 1) }

/-- A row that the stream has still to deliver, and has begun to request, holds data in the line at `va`. -/
def needsLine (x : Strm) (va : Nat) : Bool :=
  (List.range (min (x.issued + 1) (strmRows x) - x.moved)).any (fun i =>
    (rowSegs x (x.moved + i) (rowValid x (x.moved + i))).any (fun sg =>
      decide (sg.2 != 0 ∧ sg.1 / 128 * 128 ≤ va ∧ va < sg.1 + sg.2)))

/-- A line reaches the return place of a stream; a draining stream discards it, and so does one that needs it for no row any more, the
row having been delivered as marked (R285, R291). -/
def captureRead (s : State) (t : TileId) (n va p : Nat) (gen : BitVec 32) (bs : List Byte) (mark : Nat) : State :=
  match strmOf s t n with
  | none => s
  | some x =>
    if x.gen != gen || !x.outst.contains (va, p) then s
    else
      let x := { x with outst := x.outst.erase (va, p) }
      if fld s (aSte t n) 0 3 == 1 && needsLine x va then putStrm s t n { x with caps := x.caps ++ [⟨va, bs, mark, p⟩] }
      else putStrm (portFree s p) t n x

/-- Every request in the memory system. -/
def allReqs (s : State) : List Req :=
  s.reqs ++ (s.fills.map (fun f => f.waiters)).flatten ++ ((s.merges.filter (fun m => !m.closed)).map (fun m => m.joined.map (fun j => j.1))).flatten

/-- A request's return is discarded: its entry and its return place are free. -/
def discardReq (s : State) (q : Req) : State :=
  let p := sliceOf q.pa / 4
  match q.kind with
  | .read t n va => match strmOf s t n with
    | some x => if x.gen == q.gen && x.outst.contains (va, p) then
        putStrm (portFree s p) t n { x with outst := x.outst.erase (va, p) } else s
    | none => s
  | _ => s

/-- Discard the requests that `p` selects, with the merge entries they joined. -/
def discardWhere (s : State) (p : Req → Bool) : State :=
  let s' := ((allReqs s).filter p).foldl discardReq s
  { s' with
    reqs := s'.reqs.filter (fun q => !p q),
    fills := s'.fills.map (fun f => { f with waiters := f.waiters.filter (fun q => !p q) }),
    merges := s'.merges.filter (fun m => !m.joined.any (fun j => p j.1)) }

/-- A gather that waits for the line at `va` of a context. -/
def Gath.waits (g : Gath) (t : TileId) (n : CtxId) (va : Nat) : Bool :=
  g.t == t && g.ctx == n && g.va / 128 * 128 == va && !g.walking && g.cap.isNone

/-- The tile's first gather that waits for a line takes it. -/
def captureGath (t : TileId) (n : CtxId) (c : LineCap) : List Gath → List Gath
  | [] => []
  | g :: r => if g.waits t n c.va then { g with cap := some c } :: r else g :: captureGath t n c r

/-- The two beats of a line that a memory port gives to the Lattice for a context (R450). -/
def portBeats (s : State) (pa : Nat) (n : CtxId) : State :=
  let p := sliceOf pa / 4
  perfMod (bwAdd s p 0 128) (some n) 9 0x10 (some p) 2

/-- A line reaches one request. -/
def handLine (s : State) (q : Req) (bs : List Byte) (mark : Nat) : State :=
  let p := sliceOf q.pa / 4
  match q.kind with
  | .read t n va => captureRead s t n va p q.gen bs mark
  | .gather t va => { s with gaths := captureGath t q.ctx ⟨va, bs, mark, p⟩ s.gaths }
  | .write .. => s

/-- Deliver a line to one request, counting its two beats at its port. -/
def deliverLine (s : State) (q : Req) (bs : List Byte) (mark : Nat) : State :=
  handLine (portBeats s q.pa q.ctx) q bs mark

/-- The domain of the tile that a request is for. -/
def reqDomain (s : State) (q : Req) : RingId :=
  match q.kind with
  | .read t _ _ | .write t _ _ _ _ _ | .gather t _ => headOf s (ringOf t)

/-- Deliver a merge entry's line to every subscriber that has joined: those of one domain share one copy at the port (R287). -/
def deliverMerge (s : State) (m : Merge) (held : List Byte × Nat) : State :=
  let s := ((m.joined.map (fun j => reqDomain s j.1)).eraseDups).foldl (fun s _ => portBeats s m.pa m.ctx) s
  m.joined.foldl (fun s j => let c := j.2.getD held; handLine s j.1 c.1 c.2) s

/-- A capture: to the merge entry that the request opened, for every request that has joined, or to the request. -/
def capture (s : State) (q : Req) (bs : List Byte) (mark : Nat) : State :=
  if q.mgroup != 0 && s.merges.any (fun m => m.pa == q.pa && m.ctx == q.ctx && m.mgroup == q.mgroup && !m.closed) then
    { s with merges := s.merges.map (fun m =>
        if m.pa == q.pa && m.ctx == q.ctx && m.mgroup == q.mgroup && !m.closed && m.present.isNone
        then { m with
          present := some (bs, mark),
          joined := m.joined.map (fun j => (j.1, some (bs, mark))),
          since := uncCycle s } else m) }
  else deliverLine s q bs mark

/-- A write lands in a line that a merge entry holds: what the entry holds for the requests that join later follows it, so that
a read started after a BARRIER sees it (R197, R289). -/
def mergeSees (pa : Nat) (bytes : List (Nat × Byte)) (bad : Nat → Bool) (m : Merge) : Merge :=
  if m.pa / 128 != pa / 128 || m.closed then m
  else
    let laid (b : List Byte) : List Byte := bytes.foldl (fun b e => b.set (e.1 % 128) e.2) b
    let mark (k : Nat) : Nat := if bytes.any (fun e => bad e.1) then max 1 k else if bytes.length == 128 && k != 2 then 0 else k
    { m with present := m.present.map (fun p => (laid p.1, mark p.2)) }

/-! ## Fills counted by bytes (R303, R308, R318, R321) -/

/-- How many of the addresses lie in a range. -/
def countIn (vas : List Nat) (lo len : Nat) : Nat := (vas.filter (fun a => lo ≤ a && a < lo + len)).length

/-- Bytes of an element of a reduction format. -/
def elemSize (f : Nat) : Nat := if f == 10 then 4 else if f == 8 then 2 else 1

/-- The first chunk of shard r (R306). -/
def shardChunk (elems n r : Nat) : Nat := r * ((elems + 63) / 64) / n

/-- The elements of shard r. -/
def shardLo (elems n r : Nat) : Nat := min (64 * shardChunk elems n r) elems
def shardLen (elems n r : Nat) : Nat := shardLo elems n (r + 1) - shardLo elems n r

def aRank (n : CtxId) : Nat := modG (0x1000 + n.toNat * 0x40)
def aPolicy (n : CtxId) : Nat := modG (0x1008 + n.toNat * 0x40)
def aLedger (n : CtxId) : Nat := modG (0x1010 + n.toNat * 0x40)
def aRedStatus (n : CtxId) : Nat := modG (0x1018 + n.toNat * 0x40)
def aRedCount (n : CtxId) : Nat := modG (0x1020 + n.toNat * 0x40)
def aDspCount (n : CtxId) : Nat := modG (0x1028 + n.toNat * 0x40)

def myRank (s : State) (n : CtxId) : Nat := fld s (aRank n) 0 16
def ranksOf (s : State) (n : CtxId) : Nat := max 1 (fld s (aRank n) 16 17)

def redDef : Nat → Option RedJob := fun _ => none
def redOf (s : State) (n : CtxId) : Option RedJob := s.red.get redDef n.toNat

/-- Record a job, with the count of its buckets that are not IDLE in RED.STATUSn.ACTIVE. -/
def keepRed (s : State) (n : CtxId) (j : Option RedJob) : State :=
  let active := match j with
    | some j => (j.buckets.filter (fun b => b.st != 0)).length
    | none => 0
  setFld { s with red := s.red.set redDef n.toNat j } (aRedStatus n) 8 13 active

/-- Record a job that the reduction engine itself has moved on (R432); the bytes that the tiles write are not its progress. -/
def setRed (s : State) (n : CtxId) (j : Option RedJob) : State := keepRed (bump s (engineCode .reduction)) n j

/-- One bucket's counts under the bytes of a write; the last part is the fault's code: 2 where they met a bucket already sealed
or a late fill already complete (R304), 1 where they passed a gather fill already sent (R308), 0 for none. -/
def countBucket (N r : Nat) (tensor : BitVec 32) (vas : List Nat) (b : Bucket) : Bucket × Nat :=
  let c := if b.tensor == tensor then countIn vas b.base (b.elems * elemSize b.cfmt) else 0
  let gsz := elemSize b.gfmt
  let g := if b.gatherBase != 0 && b.gatherId == tensor then
    countIn vas (b.gatherBase + shardLo b.elems N r * gsz) (shardLen b.elems N r * gsz) else 0
  let early := c != 0 && 2 ≤ b.st && (!b.late || b.lateDone)
  let code := if early then 2 else if g != 0 && b.st == 5 then 1 else 0
  let b := { b with gcount := b.gcount + g }
  if c == 0 || early then (b, code)
  else ({ b with count := b.count + c, st := if b.st == 0 then 1 else b.st }, code)

/-- A reduction fault (R322): recorded, and in normal service the context faults, naming the module. -/
def redFault (s : State) (n : CtxId) (code : Nat) : State :=
  ctxFault (setFld s (aRedStatus n) 0 4 code) n (unitModule s)

def dspDef : Nat → Option DspJob := fun _ => none
def dspOf (s : State) (n : CtxId) : Option DspJob := s.dsp.get dspDef n.toNat
def keepDsp (s : State) (n : CtxId) (j : Option DspJob) : State := { s with dsp := s.dsp.set dspDef n.toNat j }

/-- Record a batch that the dispatch engine itself has moved on (R432). -/
def setDsp (s : State) (n : CtxId) (j : Option DspJob) : State := keepDsp (bump s (engineCode .dispatch)) n j

/-- Every fill of a context counts the bytes of valid elements that a slice has accepted. A route list or an OUT that is given more
than its size, before or after it is full, is overfilled (R303, R318, R321). -/
def countFill (s : State) (n : CtxId) (tensor : BitVec 32) (vas : List Nat) : State :=
  let s := match dspOf s n with
    | none => s
    | some j =>
      let w (i k : Nat) : Nat := fieldAt j.desc i k
      let rows := j.admits.length * w 12 4
      let c1 := if BitVec.ofNat 32 (w 40 4) == tensor then countIn vas (w 32 8) (8 * w 44 4) else 0
      let local' := w 6 2 * w 8 4 * w 12 4
      let c2 := if BitVec.ofNat 32 (w 64 4) == tensor && rows != 0 then countIn vas (w 56 8) local' else 0
      let s := if c1 == 0 && c2 == 0 then s else keepDsp s n (some { j with rcount := j.rcount + c1, ocount := j.ocount + c2 })
      if (c1 != 0 && 8 * w 44 4 < j.rcount + c1) || (c2 != 0 && rows < j.ocount + c2) then redFault s n 1 else s
  match redOf s n with
  | none => s
  | some j =>
    let rs := j.buckets.map (countBucket (ranksOf s n) (myRank s n) tensor vas)
    let s := keepRed s n (some { j with buckets := rs.map (fun e => e.1) })
    match rs.find? (fun e => e.2 != 0) with
    | some e => redFault s n e.2
    | none => s

/-! ## Serving a request (R273, R274, R286, R289) -/

/-- The overlaps of a write with the bytes that another tile has written (R151, R454): the hazard's code, 4 where one of the two
is padding and 5 otherwise, and the other tile; each pair once. -/
def clashes (x : Group) (t : TileId) (bytes : List (Nat × Byte)) (pads : List Nat) : List (Nat × Nat) :=
  (bytes.filterMap (fun (e : Nat × Byte) =>
    let w := x.writers.get (fun _ => 0) (e.1 % 512)
    if w == 0 || (w - 1) / 2 == t.toNat then none
    else some (if pads.contains e.1 || (w - 1) % 2 == 1 then 4 else 5, (w - 1) / 2))).eraseDups

/-- The bytes of a write land in the group, byte by byte, with the hazards of overlapping writers (R151, R454). -/
def landBytes (s : State) (q : Req) (t : TileId) (bytes : List (Nat × Byte)) (pads bad : List Nat) (va : Nat) : State :=
  let s := countFill s q.ctx q.tensor ((bytes.filter (fun e => !pads.contains e.1)).map (fun e => va + e.1 % frameSize))
  let g := groupOf q.pa
  let s := (clashes (grp s g) t bytes pads).foldl (fun s c =>
    hazard s q.ctx c.1 (unitModule s) (BitVec.ofNat 64 (q.pa / 128)) (BitVec.ofNat 64 c.2)) s
  let x := mergeInto (grp s g) bytes bad.contains
  let s := { s with merges := s.merges.map (mergeSees q.pa bytes bad.contains) }
  setGrp s g { x with
    writers := if ctxDebug s q.ctx then
        bytes.foldl (fun m e => SMap.set (fun _ => 0) m (e.1 % 512) (2 * t.toNat + (if pads.contains e.1 then 1 else 0) + 1)) x.writers
      else x.writers }

/-- A waiter that reads a line. -/
def readsLine (pa : Nat) (q : Req) : Bool :=
  q.pa / 128 == pa / 128 && (match q.kind with | .write .. => false | _ => true)

/-- Wait on the fill of a group, which begins if none is going on. -/
def addWaiter (s : State) (g : Nat) (q : Req) : State :=
  if hasFill s g then { s with fills := s.fills.map (fun f => if f.group == g then { f with waiters := f.waiters ++ [q] } else f) }
  else { s with fills := s.fills ++ [⟨g, [q]⟩] }

/-- Count a hit or a miss. -/
def countHit (s : State) (q : Req) (hit : Bool) : State :=
  let i := sliceOf q.pa
  perfMod (satAdd s (aTslCount i) (if hit then 0 else 32) 32 1) (some q.ctx) 8 (if hit then 0x10 else 0x11) (some i) 1

/-- A read is served: a hit captures the line, a miss waits for the group's fill. None where no way can be had. -/
def serveRead (s : State) (q : Req) : Option State :=
  let g := groupOf q.pa
  let k := q.pa / 128 % 4
  if lineHit (grp s g) k then
    let s := access (countHit s q true) g q
    some (capture s q (lineBytes s g k) (lineMark (grp s g) k))
  else match allocate s g q.ctx q.tensor with
    | none => none
    | some s => some (addWaiter (access (countHit s q false) g q) g q)

/-- A write of a context reaches a line on which a read of the same context is pending (R290, R454). -/
def pendingHazard (s : State) (n : CtxId) (gen : BitVec 32) (pa : Nat) (w : Req) : State :=
  if w.ctx == n then hazard s n 6 (unitModule s) (BitVec.ofNat 64 (pa / 128))
    (BitVec.ofNat 64 (gen.toNat + w.gen.toNat * 2 ^ 32)) else s

/-- A write is served: into the present line, into a group allocated without a fetch, or after the pending reads of its
line (R274, R289, R290). -/
def serveWrite (s : State) (q : Req) (t : TileId) (bytes : List (Nat × Byte)) (pads bad : List Nat) (va : Nat) :
    Option State :=
  let g := groupOf q.pa
  match (s.fills.find? (fun f => f.group == g)).bind (fun f => f.waiters.find? (readsLine q.pa)) with
  | some w =>
    some (addWaiter (pendingHazard s q.ctx q.gen q.pa w) g q)
  | none =>
    let hit := lineHit (grp s g) (q.pa / 128 % 4)
    match allocate s g q.ctx q.tensor with
    | none => none
    | some s =>
      let s := access (countHit s q hit) g q
      some (landBytes s q t bytes pads bad va)

/-- Open merge entries of a slice. -/
def openMerges (s : State) (i : Nat) : Nat := (s.merges.filter (fun m => sliceOf m.pa == i && !m.closed)).length

/-- A grouped read joins, opens, or is served alone (R286, R288). -/
def serveMerge (s : State) (q : Req) : Option State :=
  let i := sliceOf q.pa
  let same (m : Merge) : Bool := m.pa == q.pa && m.ctx == q.ctx && m.mgroup == q.mgroup
  match s.merges.find? same with
  | some m =>
    if m.closed then
      let s := satAdd s (aTslMerge i) 32 16 1
      let ms := s.merges.map (fun x => if same x then { x with joined := x.joined ++ [(q, none)] } else x)
      let s := { s with merges := ms.filter (fun x => !(same x && decide (x.mcount ≤ x.joined.length))) }
      serveRead (perfMod s (some q.ctx) 8 0x13 (some i) 1) { q with mgroup := 0 }
    else
      let s := perfMod (satAdd s (aTslMerge i) 0 32 1) (some q.ctx) 8 0x12 (some i) 1
      let s := if (grp s (groupOf q.pa)).valid then access s (groupOf q.pa) q else s
      some { s with merges := s.merges.map (fun x => if same x then { x with joined := x.joined ++ [(q, x.present)] } else x) }
  | none =>
    if 128 ≤ openMerges s i then serveRead (satAdd s (aTslMerge i) 48 16 1) { q with mgroup := 0 }
    else serveRead { s with merges := s.merges ++ [⟨q.pa, q.ctx, q.mgroup, q.mcount, [(q, none)], none, 0, false⟩] } q

/-- Serve a request at its slice. -/
def serve (s : State) (q : Req) : Option State :=
  match q.kind with
  | .write t _ bytes pads bad va =>
    let p := sliceOf q.pa / 4
    let n := (bytes.length + 63) / 64
    serveWrite (perfMod (bwAdd s p 1 (64 * n)) (some q.ctx) 9 0x11 (some p) n) q t bytes pads bad va
  | .gather .. => serveRead s q
  | .read .. => if q.mgroup == 0 then serveRead s q else serveMerge s q

/-- Insert a waiter by generation, after those of the same generation (R290). -/
def insertGen (q : Req) : List Req → List Req
  | [] => [q]
  | x :: r => if q.gen.toNat < x.gen.toNat then q :: x :: r else x :: insertGen q r

def byGen (qs : List Req) : List Req := qs.foldl (fun acc q => insertGen q acc) []

/-- One waiter is served from a completed fill. -/
def serveWaiter (ue : Option (BitVec 5)) (s : State) (q : Req) : State :=
  let g := groupOf q.pa
  let k := q.pa / 128 % 4
  match q.kind with
  | .write t _ bytes pads bad va =>
    let s := access (countHit s q (lineHit (grp s g) k)) g q
    landBytes s q t bytes pads bad va
  | _ => match ue with
    | none => capture s q (lineBytes s g k) (lineMark (grp s g) k)
    | some b => capture s q (lineBytes s g k) (ueMark b k)

/-- A fill completes with what its reads met on the link (R268): its waiters are served by generation; a group that could not
be checked is not kept. -/
def completeFill (s : State) (f : Fill) (rep : LinkReport) : State :=
  let g := f.group
  let s := linkCounts { s with fills := s.fills.filter (fun x => x.group != g) } g rep
  if !linkFails rep then (byGen f.waiters).foldl (serveWaiter none) (fillCheck s g rep)
  else
    let s := (byGen f.waiters).foldl (serveWaiter (some (failMask rep.second))) s
    if (grp s g).bytes.isEmpty then dropGroup s g else s

/-- The fill of a group that an access served at once meets completes before that access (R274, R289). -/
def fillNow (s : State) (g : Nat) : State :=
  match s.fills.find? (fun f => f.group == g) with
  | none => s
  | some f => completeFill { s with freeCtr := s.freeCtr + 1 } f (linkReport s g)

/-! ## Arbitration (R283) -/

def prioWeight (s : State) (l : Nat) : Nat := max 1 (fld s (aMemPrio l) 0 8)
def prioAge (s : State) (l : Nat) : Nat := fld s (aMemPrio l) 8 16

/-- The credits of an input from `base` on, after adding the weights of the levels that are not empty. -/
def creditsAdd (s : State) (base : Nat) (full : Nat → Bool) : SMap Int :=
  (List.range 8).foldl (fun m l =>
    if full l then m.set (fun _ => 0) (base + l) (m.get (fun _ => 0) (base + l) + prioWeight s l) else m) s.curLvl

/-- The non-empty level with the largest credit, the higher one on a tie. -/
def pickLevel (m : SMap Int) (base : Nat) (full : Nat → Bool) : Nat :=
  (((List.range 8).filter full).foldl (fun (best : Option Nat) l => match best with
    | none => some l
    | some b => if m.get (fun _ => 0) (base + b) ≤ m.get (fun _ => 0) (base + l) then some l else some b) none).getD 0

/-- The rule of R283 over what waits at one input, oldest first, each by the request that gives its level and its arrival: the
one served, with the credits afterwards; an empty level's credit is 0. -/
def arbitrate {α : Type} [BEq α] (s : State) (base : Nat) (ws : List α) (req : α → Req) : Option (α × SMap Int) :=
  let full (l : Nat) : Bool := ws.any (fun x => (req x).level == l)
  let picked := match ws.find? (fun x => decide ((req x).since + prioAge s (req x).level ≤ uncCycle s)) with
    | some x => some (x, s.curLvl)
    | none =>
      let m := creditsAdd s base full
      let l := pickLevel m base full
      let total := ((List.range 8).filter full).foldl (fun a k => a + prioWeight s k) 0
      let m := m.set (fun _ => 0) (base + l) (m.get (fun _ => 0) (base + l) - total)
      (ws.find? (fun x => (req x).level == l)).map (fun x => (x, m))
  picked.map (fun p =>
    let left := ws.erase p.1
    (p.1, (List.range 8).foldl (fun m l =>
      if left.any (fun x => (req x).level == l) then m else m.set (fun _ => 0) (base + l) 0) p.2))

/-- A write that must not pass an earlier one: a write of the same tile to the same line stands before it (R150). -/
def behind (q : Req) : List Req → Bool
  | [] => false
  | x :: r => x != q && ((match x.kind, q.kind with
      | .write t .., .write u .. => t == u && x.pa / 128 == q.pa / 128
      | _, _ => false) || behind q r)

/-- The request that a slice serves next, with the credits afterwards. -/
def choose (s : State) (i : Nat) : Option (Req × SMap Int) :=
  let ws := s.reqs.filter (fun q => sliceOf q.pa == i)
  arbitrate s (8 * i) (ws.filter (fun q => !behind q ws)) id

/-- The request by which an access that is served at once takes its turn at its slice: at its context's PRIORITY (R283). -/
def nowReq (s : State) (n : CtxId) (pa : Nat) : Req :=
  ⟨pa, n, fld s (aCtx n) 8 3, 0, uncCycle s, 1, 0, 0, false, false, 0, 0, .gather 0 1⟩

/-- Before an access that is served at once, its slice serves the requests that wait there and go before it (R273, R283); a request
that finds no way goes on waiting. -/
def serveAhead (q : Req) : Nat → State → State
  | 0, s => s
  | f + 1, s =>
    let ws := s.reqs.filter (fun x => sliceOf x.pa == sliceOf q.pa)
    if ws.isEmpty then s
    else match arbitrate s (8 * sliceOf q.pa) (ws.filter (fun x => !behind x ws) ++ [q]) id with
      | none => s
      | some (x, m) =>
        if x == q then { s with curLvl := m }
        else match serve { s with reqs := s.reqs.erase x, curLvl := m } x with
          | some s => serveAhead q f s
          | none => s

/-! ## Accesses of X-die engines, the host and Lintel, one line at a time through its slice, each served in its turn there, at once -/

/-- Bring a group into the Transom for an access that is served at once; the answer is that of `fetchGroup`. -/
def fetchNow (s : State) (g : Nat) (n : CtxId) (k cls : Nat) : State × Option (BitVec 5) :=
  let s := raiseClass (takeWay (fillNow (countNow s g k) g) g n) g n cls 0 0
  if lineHit (grp s g) k then (s, none) else fetchGroup s g

/-- Read part of one line; its mark is 0 good, 1 poisoned, 2 failing, 3 uncorrectable. A group that could not be checked is
not kept (R268). -/
def readPart (s : State) (n : CtxId) (pa len cls : Nat) : State × List Byte × Nat :=
  let g := groupOf pa
  let k := pa / 128 % 4
  let (s, ue) := fetchNow (serveAhead (nowReq s n pa) s.reqs.length s) g n k cls
  let bs := (List.range len).map (fun i => grpByte s g (pa % 512 + i))
  match ue with
  | none => (endWay s g, bs, lineMark (grp s g) k)
  | some b => (endWay (if (grp s g).bytes.isEmpty then dropGroup s g else s) g, bs, ueMark b k)

/-- Write part of one line. Where reads of the line are pending, they capture first (R289), and a write of the same context is
reported (R290). -/
def writePart (s : State) (n : CtxId) (pa : Nat) (bs : List Byte) (cls : Nat) (poison : Bool) : State :=
  let g := groupOf pa
  let s := serveAhead (nowReq s n pa) s.reqs.length s
  let s := match (s.fills.find? (fun f => f.group == g)).bind (fun f => f.waiters.find? (readsLine pa)) with
    | some w => fillNow (pendingHazard s n 0 pa w) g
    | none => s
  let s := { s with merges := s.merges.map (mergeSees pa ((bs.zipIdx).map (fun e => (pa + e.2, e.1))) (fun _ => poison)) }
  storePart s n pa bs cls poison

/-- Bytes that cross the die-to-die link: dir 0 from the X-die to the C-die, 1 the other way (R450). -/
def dieBytes (s : State) (dir n : Nat) : State := bwAdd s 33 dir n

/-- Read a physical range. -/
def readPhys (s : State) (n : CtxId) (pa len cls : Nat) : State × List Byte × Nat :=
  (lineCuts pa len).foldl (fun (r : State × List Byte × Nat) c =>
    let (s, bs, m) := readPart r.1 n (pa + c.1) c.2 cls
    (s, r.2.1 ++ bs, max r.2.2 m)) (dieBytes s 1 len, [], 0)

/-- Write a physical range. -/
def writePhys (s : State) (n : CtxId) (pa : Nat) (bs : List Byte) (cls : Nat) (poison : Bool) : State :=
  (lineCuts pa bs.length).foldl (fun s c => writePart s n (pa + c.1) ((bs.drop c.1).take c.2) cls poison) (dieBytes s 0 bs.length)

/-- Read a range of a context; the caller has checked `vaOk`. A tile that reads so uses no die-to-die link. -/
def readLines (s : State) (n : CtxId) (va len cls : Nat) : State × List Byte × Nat :=
  (lineCuts va len).foldl (fun (r : State × List Byte × Nat) c =>
    let (s, bs, m) := readPart r.1 n ((translate r.1 n (va + c.1) false).getD 0) c.2 cls
    (s, r.2.1 ++ bs, max r.2.2 m)) (s, [], 0)

/-- Such a read by the host or by an X-die engine: its bytes cross the die-to-die link (R16). -/
def readVa (s : State) (n : CtxId) (va len cls : Nat) : State × List Byte × Nat := readLines (dieBytes s 1 len) n va len cls

/-- Write a range of a context. -/
def writeVa (s : State) (n : CtxId) (va : Nat) (bs : List Byte) (cls : Nat) (poison : Bool := false) : State :=
  (lineCuts va bs.length).foldl (fun s c =>
    writePart s n ((translate s n (va + c.1) true).getD 0) ((bs.drop c.1).take c.2) cls poison) (dieBytes s 0 bs.length)

/-! ## Mapping (R270, R272) -/

/-- Lintel's area in the module frames: the owner area of R369 in frame 1, page tables from frame 2 on. -/
def ownerBase : Nat := 0x200000
def tableBase : Nat := 0x400000

/-- A new page table. -/
def newTable (s : State) : Nat × State := (tableBase + (16 + s.nextTable) * 4096, { s with nextTable := s.nextTable + 1 })

/-- The next table below the entry at `a`, created where it is missing. -/
def tableBelow (s : State) (a : Nat) : Nat × State :=
  let e := pteAt s a
  if getF e 0 1 == 1 then (getF e 12 28 * 4096, s)
  else
    let (t, s) := newTable s
    (t, { s with ptes := s.ptes.set (fun _ => 0) a (BitVec.ofNat 64 (t + 9)) })

/-- A frame for a context, zero-filled with an intact group word for each of its groups. -/
def takeFrame (s : State) (n : CtxId) : Nat × State :=
  let (f, s) := match s.freeFrames with
    | f :: r => (f, { s with freeFrames := r })
    | [] => (512 + s.nextFrame, { s with nextFrame := s.nextFrame + 1 })
  let s := { s with
    frameCtx := s.frameCtx.set (fun _ => 0) f (n.toNat + 1),
    dram := SMap.clear (fun a => a / frameSize == f) s.dram,
    badGroups := s.badGroups.filter (fun g => g * 512 / frameSize != f),
    tagDiff := s.tagDiff.clear (fun g => g * 512 / frameSize == f) }
  (f, setFld s aMemFree 0 19 (fld s aMemFree 0 19 - 1))

/-- Map one page. -/
def mapPage (s : State) (n : CtxId) (vpn : Nat) (read write : Bool) : State :=
  let s := if fld s (aMemRoot n) 12 28 == 0 then
    setReg s (aMemRoot n) (BitVec.ofNat 64 (tableBase + n.toNat * 4096)) else s
  let root := fld s (aMemRoot n) 12 28 * 4096
  let (t2, s) := tableBelow s (root + 8 * (vpn / 2 ^ 18 % 512))
  let (t3, s) := tableBelow s (t2 + 8 * (vpn / 512 % 512))
  let (f, s) := takeFrame s n
  let e : Word64 := BitVec.ofNat 64 (1 + (if read then 2 else 0) + (if write then 4 else 0) + f * frameSize)
  { s with ptes := s.ptes.set (fun _ => 0) (t3 + 8 * (vpn % 512)) e }

def mapPages (s : State) (n : CtxId) (vpn pages : Nat) (read write : Bool) : State :=
  (List.range pages).foldl (fun s i => mapPage s n (vpn + i) read write) s

/-- A request of a list touches a frame. -/
def reqIn (f : Nat) (q : Req) : Bool := q.pa / frameSize == f

def isWrite (q : Req) : Bool := match q.kind with | .write .. => true | _ => false

/-- The write rows in flight to a frame are accepted at their slices (R272). -/
def acceptWrites (s : State) (f : Nat) : State :=
  let s := (s.reqs.filter (fun q => isWrite q && reqIn f q)).foldl (fun s q =>
    let s := { s with reqs := s.reqs.erase q }
    (serve s q).getD s) s
  (s.fills.filter (fun x => x.group * 512 / frameSize == f)).foldl (fun s x =>
    (byGen (x.waiters.filter isWrite)).foldl (serveWaiter none) s) s

/-- A frame returns: the write rows in flight to it are accepted, then its groups are invalidated without write-back and every
other request to it is discarded (R272). -/
def freeFrame (s : State) (f : Nat) : State :=
  let s := acceptWrites s f
  let s := ((s.groups.filter (fun e => e.1 * 512 / frameSize == f)).map (fun e => e.1)).foldl dropGroup s
  let s := discardWhere s (reqIn f)
  let s := { s with
    fills := s.fills.filter (fun x => x.group * 512 / frameSize != f),
    frameCtx := s.frameCtx.set (fun _ => 0) f 0,
    freeFrames := f :: s.freeFrames }
  setFld s aMemFree 0 19 (fld s aMemFree 0 19 + 1)

/-- Unmap one page, and drop it from every TLB. -/
def unmapPage (s : State) (n : CtxId) (vpn : Nat) : State :=
  match leafAddr s n vpn with
  | none => s
  | some a =>
    if getF (pteAt s a) 0 1 == 0 then s
    else
      let f := getF (pteAt s a) 12 28 * 4096 / frameSize
      let s := { s with
        ptes := s.ptes.set (fun _ => 0) a 0,
        tlb := s.tlb.filter (fun e => !(e.ctx == n && e.vpn == vpn)) }
      freeFrame s f

def unmapPages (s : State) (n : CtxId) (vpn pages : Nat) : State :=
  (List.range pages).foldl (fun s i => unmapPage s n (vpn + i)) s

/-- Unmap every page of a context (R272). -/
def unmapAll (s : State) (n : CtxId) : State :=
  let leaves := (s.ptes.filter (fun e => getF e.2 3 1 == 0 &&
    s.frameCtx.get (fun _ => 0) (getF e.2 12 28 * 4096 / frameSize) == n.toNat + 1))
  let s := leaves.foldl (fun s e =>
    freeFrame { s with ptes := s.ptes.set (fun _ => 0) e.1 0 } (getF e.2 12 28 * 4096 / frameSize)) s
  { s with tlb := s.tlb.filter (fun e => e.ctx != n), loadPages := s.loadPages.filter (fun p => p.1 != n.toNat) }

/-- SLICE_REQUEST (R273, R283): the slice serves one waiting request. -/
def execSliceRequest (slice : BitVec 6) (s : State) : Outcome State Fault Refusal :=
  .next (match choose s slice.toNat with
    | none => s
    | some (q, m) => (serve { s with reqs := s.reqs.erase q, curLvl := m } q).getD s)

def fillReq (f : Fill) : Req :=
  f.waiters.headD ⟨f.group * 512, 0, 0, 0, 0, 1, 0, 0, false, false, 0, 0, .gather 0 0⟩

/-- The fill that controller k completes next: its command scheduler takes the fills of its eight slices by the level and the arrival
of the request that began each (R283). -/
def chooseFill (s : State) (k : Nat) : Option (Fill × SMap Int) :=
  arbitrate s (512 + 8 * k) (s.fills.filter (fun f => stackOf (f.group * 512) == k)) fillReq

/-- GROUP_FILL (R268): a fill of the slice completes with what its reads met on the link, when its controller serves it next. -/
def execGroupFill (slice : BitVec 6) (rep : LinkReport) (s : State) : Outcome State Fault Refusal :=
  .next (match chooseFill s (slice.toNat / 8) with
    | none => s
    | some (f, m) => if sliceOf (f.group * 512) != slice.toNat then s else completeFill { s with curLvl := m } f rep)

/-- MERGE_DELIVERY (R287): the line is present and every subscriber has joined. -/
def execMergeDelivery (slice : BitVec 6) (i : Nat) (s : State) : Outcome State Fault Refusal :=
  .next (match (s.merges.filter (fun m => sliceOf m.pa == slice.toNat))[i]? with
    | none => s
    | some m => match m.present with
      | none => s
      | some (bs, mark) =>
        if m.closed || m.joined.length < m.mcount then s
        else deliverMerge { s with merges := s.merges.erase m } m (bs, mark))

/-- MERGE_SPLIT (R288): 4,096 CLK_UNC cycles after the line became present. -/
def execMergeSplit (slice : BitVec 6) (i : Nat) (s : State) : Outcome State Fault Refusal :=
  .next (match (s.merges.filter (fun m => sliceOf m.pa == slice.toNat))[i]? with
    | none => s
    | some m => match m.present with
      | none => s
      | some (bs, mark) =>
        if m.closed || m.mcount ≤ m.joined.length then s
        else
          let s := advanceUnc s (m.since + 4096)
          let s := { s with merges := s.merges.map (fun x => if x == m then { x with closed := true } else x) }
          deliverMerge s m (bs, mark))

/-- REFRESH (R262): banks are refreshed; no state that the manual gives changes. -/
def execRefresh (stack : BitVec 3) (s : State) : Outcome State Fault Refusal :=
  .next (powered s (perfMod s none 10 0x12 (some stack.toNat) 1))

/-- STACK_HOT (R262): the stack's report crosses 85 °C. -/
def execStackHot (stack : BitVec 3) (hot : Bool) (s : State) : Outcome State Fault Refusal :=
  .next (powered s (setFld s (aStack stack.toNat) 48 1 (if hot then 1 else 0)))

end Sys2Proof.Machine
end

