-- ==== Sys2Proof/Machine/Stream.lean ====
section
/-! DEFINITION. The stream engine (R71 to R74, R196, R197, R279 to R285, R291, R292) and the gather port (R198, R293). -/

namespace Sys2Proof.Machine

open Host (Outcome)

/-! ## Stream descriptors (R279, R292) -/

/-- The ORDER codes, level 0 first. -/
def sdOrder (b : List Byte) : List Nat := (List.range 5).map (fun k => fieldAt b 22 2 / 2 ^ (3 * k) % 8)

/-- The checks of a stream descriptor's own fields (STREAM_PARAM). -/
def sdCheck (b : List Byte) : Option Nat :=
  let f (i n : Nat) : Nat := fieldAt b i n
  let write := f 16 1 % 2 == 1
  let order := sdOrder b
  let ext := (List.range 5).map (fun k => f (44 + 4 * k) 4)
  let endp : Word64 := BitVec.ofNat 64 (f 8 8)
  need (f 0 8 / 2 ^ 48 % 2 ^ 15 == 0 && f 16 1 / 8 == 0 && f 17 1 / 32 == 0 && f 18 1 / 16 == 0 && f 19 1 / 64 == 0 &&
    f 22 2 / 2 ^ 15 == 0 && f 0 8 % 64 == 0 &&
    (List.range 5).all (fun c => order.contains c) &&
    ext.all (fun e => e != 0) &&
    (locKind endp == 0 || locKind endp == 2) &&
    (if f 17 1 / 8 % 4 == 2 then f 18 1 % 16 != 0 else f 18 1 % 16 == 0) &&
    (f 20 1 == 0 || !write) &&
    (if f 20 1 == 0 then f 19 1 % 64 == 0 else 1 ≤ f 19 1 % 64 && f 19 1 % 64 ≤ 32) &&
    f 21 1 ≤ 128) cStreamParam

/-- Where a stream is started from: its task, its thread or chain stage, and its DONE counter. -/
structure StartCtx where
  t : TileId
  k : Nat
  n : CtxId
  thread : Option ThreadId
  chain : Option (Nat × Nat)
  done : Nat

/-- The stream of a descriptor and its tensor descriptor. -/
def mkStrm (c : StartCtx) (b : List Byte) (td : TDesc) (gen : BitVec 32) : Strm :=
  let f (i n : Nat) : Nat := fieldAt b i n
  { ctx := c.n, task := c.k, thread := c.thread, chain := c.chain, done := c.done, td := td,
    endpoint := BitVec.ofNat 64 (f 8 8), write := f 16 1 % 2 == 1, ddepth := f 16 1 / 2 % 2 == 1,
    unpin := f 16 1 / 4 % 2 == 1, prio := f 17 1 % 8, reuse := f 17 1 / 8 % 4, keepN := f 18 1 % 16,
    mcount := f 19 1 % 64, mgroup := f 20 1, ahead := f 21 1, order := sdOrder b,
    origin := (List.range 5).map (fun k => f (24 + 4 * k) 4), extent := (List.range 5).map (fun k => f (44 + 4 * k) 4),
    gen := gen, issued := 0, moved := 0, outst := [], caps := [], failing := false, ser := 0 }

/-- The stream's own fields that need the tensor descriptor, DDEPTH and the endpoint (R191), then the checks of R145 in their
order. -/
def strmCheck (s : State) (x : Strm) (t : TileId) : Option Nat :=
  let rows := strmRows x
  firstFail [
    need (!x.ddepth || (4 ≤ x.td.fmt && x.td.fmt ≤ 7 && x.origin.getD 0 0 % 128 == 0 && x.extent.getD 0 0 % 128 == 0)) cStreamParam,
    locCheck s t x.task [0, 2] (x.td.fmt == 10) (rows * imgSize x.td.fmt x.ddepth) 0 x.endpoint,
    tdCheck s t x.ctx x.td x.write,
    need (sliceOk x.td x.origin x.extent) cLayoutParam]

/-- Read the tensor descriptor that a stream descriptor names: its bytes, or the fault (R144, R292). -/
def readTDesc (s : State) (c : StartCtx) (b : List Byte) : State × Except Nat (List Byte) :=
  let a := fieldAt b 0 6
  if fieldAt b 0 8 / 2 ^ 63 == 1 then
    match spPhys s c.t c.k a 128 with
    | none => (s, .error cSpBound)
    | some pa =>
      let (s, p) := readPiece s c.t pa 128
      if isNormal s && p.mark != 0 then (s, .error (markCause p.mark)) else (s, .ok p.bytes)
  else if !vaOk s c.n a 128 false then (s, .error cXlate)
  else
    let (s, bs, m) := readLines s c.n a 128 1
    if isNormal s && m != 0 then (s, .error (memCause m)) else (s, .ok bs)

/-- Start the descriptor at an SP locator on stream context `n` of the tile (R196, R279, R282). -/
def strmStart (s : State) (c : StartCtx) (loc : Word64) (n : Nat) : State × Option Nat :=
  match locCheck s c.t c.k [0] false 64 0 loc with
  | some f => (s, some f)
  | none =>
    let pa := (spPhys s c.t c.k (locAddr loc) 64).getD 0
    let (s, p) := readPiece s c.t pa 64
    if isNormal s && p.mark != 0 then (s, some (markCause p.mark))
    else match sdCheck p.bytes with
      | some f => (s, some f)
      | none => match readTDesc s c p.bytes with
        | (s, .error f) => (s, some f)
        | (s, .ok tb) =>
          let gen := s.gens.get (fun _ => 0) c.n.toNat + 1
          let x := mkStrm c p.bytes (parseTDesc tb) gen
          match strmCheck s x c.t with
          | some f => (s, some f)
          | none =>
            let x := { x with ser := s.serial }
            let s := { s with gens := s.gens.set (fun _ => 0) c.n.toNat gen, serial := s.serial + 1 }
            let s := setFld (setFld s (aSte c.t n) 0 3 1) (aSte c.t n) 4 3 c.k
            (putStrm s c.t n x, none)

/-! ## Requests of a read stream (R71, R284, R285) -/

/-- The lines (by VA) that hold the valid elements and scale bytes of row r. -/
def rowLines (x : Strm) (r : Nat) : List Nat :=
  (((rowSegs x r (rowValid x r)).map (fun sg =>
    (lineCuts sg.1 sg.2).map (fun c => (sg.1 + c.1) / 128 * 128))).flatten).eraseDups

/-- The lines that row r still requests: those that no request of the stream is out for and that it does not hold (R284). -/
def newLines (x : Strm) (r : Nat) : List Nat :=
  (rowLines x r).filter (fun l => !(x.outst.any (fun o => o.1 == l) || x.caps.any (fun c => c.va == l)))

def vpnOf (va : Nat) : Nat := va / frameSize % 2 ^ 27

/-- The TLB's entry for a page. -/
def tlbOf (s : State) (t : TileId) (n : CtxId) (vpn : Nat) : Option Word64 :=
  (s.tlb.find? (fun e => e.t == t && e.ctx == n && e.vpn == vpn)).map (fun e => e.pte)

/-- What translating a page gives: a frame address, a fault, or a miss. -/
inductive Xlate where
  | frame (a : Nat)
  | fault
  | miss

/-- Translate through the TLB; `bad` is a page of a context whose walk has just failed. -/
def xlateOf (s : State) (t : TileId) (n : CtxId) (va : Nat) (write : Bool) (bad : Option (CtxId × Nat)) : Xlate :=
  if 2 ^ 48 ≤ va || bad == some (n, vpnOf va) then .fault
  else match tlbOf s t n (vpnOf va) with
    | some e => if pteOk e write then .frame (getF e 12 28 * 4096) else .fault
    | none => .miss

/-- The first line whose page misses. -/
def firstMiss (s : State) (t : TileId) (n : CtxId) (write : Bool) (bad : Option (CtxId × Nat)) (ls : List Nat) : Option Nat :=
  ls.find? (fun l => match xlateOf s t n l write bad with | .miss => true | _ => false)

/-- A miss waits for its walk (R271). -/
def addWalk (s : State) (t : TileId) (n : CtxId) (vpn : Nat) : State :=
  if s.walks.any (fun w => w.t == t && w.ctx == n && w.vpn == vpn) then s
  else { s with walks := s.walks ++ [⟨t, n, vpn⟩] }

/-- Request entries that a tile's streams and gathers hold (R71). -/
def tileHeld (s : State) (t : TileId) : Nat :=
  (List.range 64).foldl (fun a n => a + fld s (aSte t n) 8 8) 0 + (s.gaths.filter (fun g => g.t == t)).length

/-- Issue the request of one line, or mark it when its translation faults (R285); none while its page is not in the TLB, or
an entry or the return place it needs is not free (R71, R284). -/
def issueLine (t : TileId) (n : Nat) (bad : Option (CtxId × Nat)) (s : State) (x : Strm) (va : Nat) : Option State :=
  match xlateOf s t x.ctx va false bad with
  | .miss => none
  | .frame f =>
    let pa := f + va % frameSize
    if 128 ≤ strmHeld x || 256 ≤ tileHeld s t || 2048 ≤ portUsed s (sliceOf pa / 4) then none
    else
      let q : Req := ⟨pa, x.ctx, min x.prio (fld s (aCtx x.ctx) 8 3), x.gen, uncCycle s, x.reuse, x.keepN, x.td.tensor,
        x.unpin, true, x.mgroup, x.mcount, .read t n va⟩
      let s := portTake { s with reqs := s.reqs ++ [q] } (sliceOf pa / 4)
      some (perfTile (putStrm s t n { x with outst := x.outst ++ [(va, sliceOf pa / 4)] }) t (some x.ctx) 1 0x11 none 1)
  | .fault => some (setStrm s t n (some { x with caps := x.caps ++ [⟨va, List.replicate 128 0, 4, 16⟩] }))

/-- Issue the lines of a read stream in row order, as far as AHEAD, the request entries and the TLB allow. -/
def pump (t : TileId) (n : Nat) (bad : Option (CtxId × Nat)) : Nat → State → State
  | 0, s => s
  | f + 1, s => match strmOf s t n with
    | none => s
    | some x =>
      let r := x.issued
      if x.write || x.td.space || fld s (aSte t n) 0 3 != 1 || strmRows x ≤ r || (x.ahead != 0 && x.moved + x.ahead ≤ r) then s
      else
        match newLines x r with
        | [] => pump t n bad f (setStrm s t n (some { x with issued := r + 1 }))
        | l :: _ => match firstMiss s t x.ctx false bad [l] with
          | some l => addWalk s t x.ctx (vpnOf l)
          | none => match issueLine t n bad s x l with
            | some s => pump t n bad f s
            | none => s

/-- The lines and rows that a stream may run ahead of its delivery at once. -/
def pumpFuel : Nat := 512

/-- The stream contexts of a tile that hold a stream. -/
def tileStrms (s : State) (t : TileId) : List Nat :=
  (List.range 64).filter (fun i => (strmOf s t i).isSome)

/-- Every read stream of a tile issues what it can, in the order of their priorities, the lower stream context first among
equal ones (R71). -/
def pumpTile (t : TileId) (bad : Option (CtxId × Nat)) (s : State) : State :=
  ((List.range 8).reverse.flatMap (fun p => (tileStrms s t).filter (fun i => (strmOf s t i).any (fun x => x.prio == p)))).foldl
    (fun s i => pump t i bad pumpFuel s) s

/-! ## Delivery of read rows (R285, R291) -/

/-- A byte of the captured lines. -/
def capByte (x : Strm) (va : Nat) : Byte :=
  match x.caps.find? (fun c => c.va == va / 128 * 128) with
  | some c => c.data.getD (va % 128) 0
  | none => 0

def capBytes (x : Strm) (va len : Nat) : List Byte := (List.range len).map (fun i => capByte x (va + i))

/-- The worst mark among a row's lines: 4 translation first, then MEM_UE, TAG_FAIL, POISON (R285, R291). -/
def rowMark (x : Strm) (r : Nat) : Nat :=
  (rowLines x r).foldl (fun m l => match x.caps.find? (fun c => c.va == l) with
    | some c => max m c.mark
    | none => m) 0

/-- A request of the row is deferred: its translation faulted (R285). -/
def rowMarked (x : Strm) (r : Nat) : Bool := (rowLines x r).any (fun l => x.caps.any (fun c => c.va == l && c.mark == 4))

/-- The row stands at its ports, or counts as present because it is marked (R285). -/
def rowPresent (x : Strm) (r : Nat) : Bool :=
  rowMarked x r || (decide (r < x.issued) && (rowLines x r).all (fun l => x.caps.any (fun c => c.va == l)))

/-- The ways of the beats of a read stream's next row, from the memory ports that hold its lines (R235), and of a line of a write row
to its port. -/
def rowWays (t : TileId) (x : Strm) : List Way :=
  let ports := (rowLines x x.moved).filterMap (fun l => (x.caps.find? (fun c => c.va == l)).map (fun c => c.port))
  ((ports.filter (· < 16)).eraseDups).map (fun p => wayFrom p t)

/-- The lines that a write row stores to. -/
def storeLines (x : Strm) (r : Nat) : List Nat :=
  ((rowStores x r []).map (fun e => e.1 / 128 * 128)).eraseDups

/-- The way of a line of a write row to its memory port. -/
def lineWay (s : State) (t : TileId) (n : CtxId) (l : Nat) : Option Way :=
  match xlateOf s t n l true none with
  | .frame f => some (wayTo t (sliceOf (f + l % frameSize) / 4))
  | _ => none

/-- The ways of the next row of a stream, a read row that stands at its ports or a write row. -/
def strmWays (s : State) (t : TileId) (x : Strm) : List Way :=
  if x.td.space then []
  else if x.write then (storeLines x x.moved).filterMap (lineWay s t x.ctx)
  else rowWays t x

/-! ## Meetings of beats (R229) -/

/-- The context of a beat under way that passes a router, and the sides by which it comes in and leaves. -/
def metSides (s : State) (m : MetBeat) (u : TileId) : Option (CtxId × Nat × Nat) :=
  match m with
  | .beat i => (s.beats[i]?).bind (fun b => (b.way.sides u).map (fun x => (b.ctx, x)))
  | .ring i => (s.ringBeats[i]?).bind (fun b => (b.sides u).map (fun x => (b.ctx, x)))
  | .row t n => (strmOf s t n.toNat).bind (fun x => ((strmWays s t x).findSome? (fun w => w.sides u)).map (fun y => (x.ctx, y)))

/-- The row of a stream is lost on its way: it counts as moved, and nothing of it arrives (DESIGN CHOICE, log 161). -/
def loseRow (s : State) (t : TileId) (n : Nat) : State :=
  match strmOf s t n with
  | some x => setStrm s t n (some { x with moved := x.moved + 1 })
  | none => s

/-- A beat is lost at a router's output, counted there, and reported in debug mode (R229). -/
def loseMet (s : State) (m : MetBeat) (u : TileId) (ctx : CtxId) (rank : Nat) : State :=
  let s := match m with
    | .beat i => match s.beats[i]? with | some b => loseAt s b i u | none => s
    | .ring i => { s with ringBeats := s.ringBeats.eraseIdx i }
    | .row t n => loseRow s t n.toNat
  let s := perfTile (satAdd s (aRtr u) 0 16 1) u (some ctx) 6 0x11 none 1
  hazard s ctx 1 (unitTile s u) (BitVec.ofNat 64 rank) (BitVec.ofNat 64 ctx.toNat)

/-- A beat meets another at a router where both leave by one side: the lower-ranked of the two is lost. The answer says whether the
first of them is. -/
def meet (s : State) (m : MetBeat) (x : Meeting) : State × Bool :=
  match metSides s m x.router, metSides s x.other x.router with
  | some (c, i, o), some (c', i', o') =>
    if m == x.other || o != o' || i == i' then (s, false)
    else if i' < i then (loseMet s m x.router c i, true) else (loseMet s x.other x.router c' i', false)
  | _, _ => (s, false)

/-- A stream's own fault: it drains towards FAULT, and its thread or chain receives the cause (R281, R292). -/
def strmFault (s : State) (t : TileId) (n : Nat) (x : Strm) (cause : Nat) : State :=
  let s := setStrm (setFld s (aSte t n) 0 3 2) t n (some { x with failing := true })
  engineFaultOp s t x.thread x.ctx cause

/-- Put a row image at a stream's endpoint and count it; none where a queue has no slot. -/
def strmPut (s : State) (t : TileId) (n : Nat) (x : Strm) (img : List Byte) (poison : Bool) : Option State :=
  match putRow s t x.task x.endpoint x.moved (imgSize x.td.fmt x.ddepth) img poison x.ser with
  | none => none
  | some s =>
    let s := perfTile s t (some x.ctx) 1 0x10 none 1
    let s := if poison then perfTile (satAdd s (aPoison t) 32 16 1) t (some x.ctx) 1 0x14 none 1 else s
    some (setStrm s t n (some { x with moved := x.moved + 1, issued := max x.issued (x.moved + 1) }))

/-- Release the lines of a row taken that no later row, as far as the stream has issued, needs. -/
def dropLines (s : State) (t : TileId) (n r : Nat) : State :=
  match strmOf s t n with
  | none => s
  | some x =>
    let keep := ((List.range (min (x.issued + 1) (strmRows x) - (r + 1))).map (fun i => rowLines x (r + 1 + i))).flatten
    let gone := x.caps.filter (fun c => (rowLines x r).contains c.va && !keep.contains c.va)
    let s := gone.foldl (fun s c => if c.port < 16 then portFree s c.port else s) s
    putStrm s t n { x with caps := x.caps.filter (fun c => !(gone.any (fun g => g.va == c.va))) }

/-- The bytes that row r of a stream over a scratchpad tensor reads are there (R72). -/
def spPresent (s : State) (t : TileId) (n : Nat) (x : Strm) (r : Nat) : Bool :=
  (rowSegs x r (rowValid x r)).all (fun sg => !absentIn s t x.task sg.1 sg.2 (some n))

/-- A row of a stream over a scratchpad tensor (R281): its bytes and their mark, or a fault. -/
def spRow (s : State) (t : TileId) (x : Strm) (r : Nat) : State × Except Nat (List Byte × List Byte × Nat) :=
  let segs := rowSegs x r (rowValid x r)
  let read (s : State) (sg : Nat × Nat) : State × Except Nat (List Byte × Nat) :=
    match spPhys s t x.task sg.1 sg.2 with
    | none => (s, .error cSpBound)
    | some pa => let (s, p) := readPiece s t pa sg.2; (s, .ok (p.bytes, p.mark))
  match segs with
  | [] => (s, .ok ([], [], 0))
  | [a] => match read s a with
    | (s, .ok (b, m)) => (s, .ok (b, [], m))
    | (s, .error f) => (s, .error f)
  | a :: c :: _ => match read s a with
    | (s, .error f) => (s, .error f)
    | (s, .ok (b, m)) => match read s c with
      | (s, .error f) => (s, .error f)
      | (s, .ok (d, m')) => (s, .ok (b, d, if m == 2 || m' == 2 then 2 else max m m'))

/-- The way of a row passes a ring out of service: it never arrives (R257). -/
def rowLost (s : State) (t : TileId) (x : Strm) : Bool := (rowWays t x).any (wayIdle s)

/-- ROW_DELIVERY: the next row of a read stream (R148, R285, R291), or, where it is not there, what the tile's streams can
issue (R71). Its beats come from their memory ports by the routes of R228, on which routers may find parity errors (R231) and
another beat may be met (R229). -/
def execRowDelivery (t : TileId) : RowReport → State → Outcome State Fault Refusal
  | ⟨n, parity, meets⟩, s => .next (
    let i := n.toNat
    match strmOf s t i with
    | none => s
    | some x =>
      let r := x.moved
      if x.write || fld s (aSte t i) 0 3 != 1 || strmRows x ≤ r || !tileRuns s t || !ctxLive s x.ctx then s
      else if x.td.space then
        if !spPresent s t i x r then s
        else match spRow s t x r with
        | (s', .error f) => strmFault s' t i x f
        | (s', .ok (e, sc, m)) =>
          if isNormal s && m != 0 then strmFault s' t i x (markCause m)
          else match strmPut s' t i x (rowImage x (rowValid x r) e sc) (m != 0) with
            | some s' => s'
            | none => s
      else if !rowPresent x r || rowLost s t x then pumpTile t none s
      else
        let us := parity.filter (fun u => (rowWays t x).any (fun w => w.path.contains u))
        let s' := us.foldl (parityAt x.ctx) s
        let m := if us.isEmpty then rowMark x r else max 1 (rowMark x r)
        let (s', lost) := match meets with | some y => meet s' (.row t n) y | none => (s', false)
        if lost then pumpTile t none (dropLines s' t i r)
        else if isNormal s && m != 0 then strmFault s' t i x (memCause m)
        else
          let v := rowValid x r
          let at' := rowIndex x r
          let e := capBytes x (elemAddr x.td at') (lineLen x.td.fmt v)
          let sc := capBytes x (scaleAddr x.td at') (blocksOf x v)
          let img := if m == 4 then List.replicate (imgSize x.td.fmt x.ddepth) 0 else rowImage x v e sc
          match strmPut s' t i x img (m != 0) with
          | none => s
          | some s' => pumpTile t none (dropLines s' t i r))

/-! ## Rows of a write stream (R149, R281) -/

/-- The addresses of a list that lie in a line, as physical ones in frame f. -/
def inLine (f l : Nat) (as : List Nat) : List Nat := (as.filter (fun a => a / 128 * 128 == l)).map (fun a => f + a % frameSize)

/-- Send one line of a write row to its slice. The line holds none of the request entries of R71 (DESIGN CHOICE, log entry 162). -/
def sendLine (t : TileId) (x : Strm) (stores : List (Nat × Byte)) (pads poison : List Nat) (s : State) (l : Nat) : State :=
  match xlateOf s t x.ctx l true none with
  | .frame f =>
    let here := stores.filter (fun e => e.1 / 128 * 128 == l)
    let pa := f + l % frameSize
    let q : Req := ⟨pa, x.ctx, min x.prio (fld s (aCtx x.ctx) 8 3), x.gen, uncCycle s, x.reuse, x.keepN, x.td.tensor,
      false, true, 0, 0, .write t x.task (here.map (fun e => (f + e.1 % frameSize, e.2)))
        (inLine f l pads) (inLine f l poison) (l / frameSize * frameSize)⟩
    perfTile { s with reqs := s.reqs ++ [q] } t (some x.ctx) 1 0x11 none 1
  | _ => s

/-- Store a write row of a scratchpad tensor; none where an address lies outside the region (R149). -/
def spStore (s : State) (t : TileId) (k ser : Nat) (stores : List (Nat × Byte)) (poison : List Nat) : Option State :=
  if stores.all (fun e => (spPhys s t k e.1 1).isSome) then
    some (stores.foldl (fun s e => spOrdered s t ((spPhys s t k e.1 1).getD 0) [e.2] (poison.contains e.1) ser) s)
  else none

/-- Two lists of address ranges share a byte. -/
def rangesMeet (as bs : List (Nat × Nat)) : Bool := as.any (fun a => bs.any (fun b => decide (a.1 < b.1 + b.2 ∧ b.1 < a.1 + a.2)))

/-- A write stream of the tile and context that started earlier has still to write a byte of row r (R150); scratchpad addresses are
those of a task. -/
def earlierWrites (s : State) (t : TileId) (x : Strm) (r : Nat) : Bool :=
  s.strms.any (fun e => e.1 / 64 == t.toNat && (match e.2 with
    | none => false
    | some y =>
      y.write && y.ctx == x.ctx && (y.task == x.task || !x.td.space) && y.td.space == x.td.space && y.gen != x.gen &&
        decide ((x.gen - y.gen).toNat < 2 ^ 31) && fld s (aSte t (e.1 % 64)) 0 3 == 1 &&
        (List.range (strmRows y - y.moved)).any (fun i => rangesMeet (storeSegs x r) (storeSegs y (y.moved + i)))))

/-- What routers and crossings of the way of a row make of it: the routers that find a parity error on it (R231), and the first
routers of a row below or above whose crossing found it absent (R250). -/
structure RowWay where
  parity : List TileId
  under : List TileId
  meets : Option Meeting

def noWay : Nat → RowWay := fun _ => ⟨[], [], none⟩

/-- The report on the rows of a write stream, row by row. -/
def reportRow (w : WriteReport) (r : Nat) : RowWay :=
  let at' (l : List (Nat × TileId)) : List TileId := (l.filter (fun e => e.1 == r)).map (fun e => e.2)
  ⟨at' w.parity, at' w.under, (w.meets.filter (fun e => e.1 == r)).map (fun e => e.2)⟩

/-- A crossing finds a beat absent at a router that the beat enters over a north-south link: counted, and logged (R250). -/
def underrunAt (s : State) (u : TileId) : State :=
  recordEv (satAdd s (aRtr u) 48 8 1) 0xD 0xFF (unitTile s u) (BitVec.ofNat 64 (colOf u)) (BitVec.ofNat 64 (rowOf u))

/-- The router lies behind a crossing of a way. -/
def Way.crosses (w : Way) (u : TileId) : Bool := (w.sides u).any (fun x => u != w.src && (x.1 == 3 || x.1 == 4))

/-- The lines of a write row go to their slices; with an error on the way, or absent at a crossing, their bytes are poisoned, and a
line whose way passes a ring out of service is lost (R231, R250, R257). -/
def rowOut (t : TileId) (x : Strm) (stores : List (Nat × Byte)) (pads poison : List Nat) (y : RowWay) (s : State) (l : Nat) : State :=
  match lineWay s t x.ctx l with
  | none => s
  | some w =>
    if wayIdle s w then s
    else
      let us := y.parity.filter (fun u => w.path.contains u)
      let vs := y.under.filter w.crosses
      let s := vs.foldl underrunAt (us.foldl (parityAt x.ctx) s)
      let bad := if us.isEmpty && vs.isEmpty then poison else poison ++ stores.map (fun e => e.1)
      sendLine t x stores pads bad s l

/-- The rows of a write stream leave the tile as far as its endpoint holds them; `way` tells what they meet. -/
def emitRows (t : TileId) (n : Nat) (bad : Option (CtxId × Nat)) (way : Nat → RowWay) : Nat → State → State
  | 0, s => s
  | f + 1, s => match strmOf s t n with
    | none => s
    | some x =>
      let r := x.moved
      if !x.write || fld s (aSte t n) 0 3 != 1 || strmRows x ≤ r || earlierWrites s t x r then s
      else
        let ls := if x.td.space then [] else storeLines x r
        match firstMiss s t x.ctx true bad ls with
        | some l => addWalk s t x.ctx (vpnOf l)
        | none => match takeRow s t x.task x.endpoint r (imgSize x.td.fmt x.ddepth) with
          | none => s
          | some (s', p) =>
            let xl := ls.any (fun l => match xlateOf s t x.ctx l true bad with | .fault => true | _ => false)
            if isNormal s && p.mark != 0 then strmFault s' t n x (markCause p.mark)
            else if isNormal s && xl then strmFault s' t n x cXlate
            else
              let stores := rowStores x r p.bytes
              let pads := rowPads x r p.bytes
              let poison := rowBad x r p.badG
              let done (s : State) : State :=
                perfTile (setStrm s t n (some { x with moved := r + 1 })) t (some x.ctx) 1 0x10 none 1
              if x.td.space then
                match spStore s' t x.task x.ser stores poison with
                | some s' => emitRows t n bad way f (done s')
                | none => strmFault s' t n x cSpBound
              else if xl then emitRows t n bad way f (done s')
              else
                let y := way r
                let (s', lost) := match y.meets with | some m => meet s' (.row t (BitVec.ofNat 6 n)) m | none => (s', false)
                emitRows t n bad way f (if lost then s' else done (ls.foldl (rowOut t x stores pads poison y) s'))

/-- STREAM_DONE (R194, R281): rows of a write stream leave as they can, meeting what the report says; after its last row the stream is DONE and its
token, or its chain stage, is signalled. -/
def execStreamDone (t : TileId) (w : WriteReport) (s : State) : Outcome State Fault Refusal :=
  .next (
    let i := w.stream.toNat
    match strmOf s t i with
    | none => s
    | some x =>
      if fld s (aSte t i) 0 3 != 1 || !tileRuns s t || !ctxLive s x.ctx then s
      else
        let s := if x.write then emitRows t i none (reportRow w) (strmRows x + 1) s else s
        match strmOf s t i with
        | none => s
        | some x =>
          if fld s (aSte t i) 0 3 != 1 || x.moved < strmRows x then s
          else
            let s := setStrm (setFld (setFld s (aSte t i) 0 3 3) (aSte t i) 8 8 0) t i none
            match x.chain with
            | some (slot, st) => stageDone s t slot st
            | none => tokDone s t x.task x.done x.thread)

/-- The reads that a walk makes through the Transom under the module key: the entries of the levels it reaches (R270, R271). -/
def walkReads (s : State) (n : CtxId) (vpn : Nat) : List Nat :=
  let a1 := fld s (aMemRoot n) 12 28 * 4096 + 8 * (vpn / 2 ^ 18 % 512)
  let e1 := pteAt s a1
  let a2 := getF e1 12 28 * 4096 + 8 * (vpn / 512 % 512)
  let below (e : Word64) (l : List Nat) : List Nat := if getF e 0 1 == 1 && getF e 3 1 == 1 then l else []
  if fld s (aMemRoot n) 12 28 == 0 then []
  else a1 :: below e1 (a2 :: below (pteAt s a2) [getF (pteAt s a2) 12 28 * 4096 + 8 * (vpn % 512)])

/-- The request of a gather whose page is translated (R293): one line, as a NORMAL access at the context's PRIORITY. -/
def gathReq (s : State) (g : Gath) (pa : Nat) : Req :=
  ⟨pa / 128 * 128, g.ctx, fld s (aCtx g.ctx) 8 3, s.gens.get (fun _ => 0) g.ctx.toNat, uncCycle s, 1, 0, 0,
    false, false, 0, 0, .gather g.t (g.va / 128 * 128)⟩

/-- A gather goes on with its translation: its request, or its fault, which is raised at once; during start, test and recovery
its line is marked (R293). -/
def gathGo (bad : Option (CtxId × Nat)) (s : State) (g : Gath) : State :=
  match xlateOf s g.t g.ctx g.va false bad with
  | .miss => s
  | .frame f => { s with
      gaths := s.gaths.map (fun x => if x == g then { x with walking := false } else x),
      reqs := s.reqs ++ [gathReq s g (f + g.va % frameSize)] }
  | .fault =>
    if isNormal s then engineFaultOp { s with gaths := s.gaths.erase g } g.t g.thread g.ctx cXlate
    else { s with gaths := s.gaths.map (fun x =>
      if x == g then { x with walking := false, cap := some ⟨g.va / 128 * 128, List.replicate 128 0, 4, 16⟩ } else x) }

/-- TABLE_WALK (R270, R271): the oldest miss of the tile is walked through the Transom; the tile's streams and gathers go on
with the entry or the fault. -/
def execTableWalk (t : TileId) (s : State) : Outcome State Fault Refusal :=
  .next (match s.walks.find? (fun w => w.t == t) with
    | none => s
    | some w =>
      let s := { s with walks := s.walks.erase w }
      let e := walk s w.ctx w.vpn
      let s := (walkReads s w.ctx w.vpn).foldl (fun s a => (readPart s 15 a 8 1).1) s
      let bad := if getF e 0 1 == 0 then some (w.ctx, w.vpn) else none
      let s := if getF e 0 1 == 0 then s
        else
          let mine := s.tlb.filter (fun x => x.t == t)
          let rest := if mine.length < 64 then s.tlb else (match mine with | o :: _ => s.tlb.erase o | [] => s.tlb)
          { s with tlb := rest ++ [⟨t, w.ctx, w.vpn, e⟩] }
      let s := pumpTile t bad s
      let s := (tileStrms s t).foldl (fun s i => match strmOf s t i with
        | some x => if x.write && tileRuns s t && ctxLive s x.ctx then emitRows t i bad noWay (strmRows x + 1) s else s
        | none => s) s
      (s.gaths.filter (fun g => g.t == t && g.ctx == w.ctx && g.walking && vpnOf g.va == w.vpn)).foldl (gathGo bad) s)

/-! ## The stream instructions (R195 to R197) -/

/-- The stream context that a handle of the task names, if it lies below SCOUNT (R54). -/
def handleOf (s : State) (t : TileId) (k hnd : Nat) : Option Nat :=
  if hnd < taskScount s t k then some (taskSbase s t k + hnd) else none

/-- Execute with the stream context of the handle in FIELDS [10:5], or fault with STREAM_RANGE. -/
def withHandle (x : Iss) (s : State) (body : Nat → State) : State :=
  match handleOf s x.t x.k (eF x.w 5 6) with
  | some n => body n
  | none => x.fault s cStreamRange

/-- STRM_START (R196). -/
def execStrmStart (t : TileId) (h : ThreadId) (s : State) : Outcome State Fault Refusal :=
  .next (issue s t h (isEng 0x20 0) fun x s => withHandle x s fun n =>
    let st := fld s (aSte t n) 0 3
    if st != 0 && st != 3 then x.wait
    else match strmStart s ⟨t, x.k, x.n, some h, none, eDone x.w⟩ (x.g s (eRa x.w)) n with
      | (s, some f) => x.fault s f
      | (s, none) => pumpTile t none (x.next s))

/-- STRM_STOP (R195): a running or finished stream drains. -/
def execStrmStop (t : TileId) (h : ThreadId) (s : State) : Outcome State Fault Refusal :=
  .next (issue s t h (isEng 0x20 1) fun x s => withHandle x s fun n =>
    let st := fld s (aSte t n) 0 3
    x.next (if st == 1 || st == 3 then setFld s (aSte t n) 0 3 2 else s))

/-- Marked rows that are never delivered (R285), the row whose requests have only begun among them; the row that a failing stream
raised its fault for is not one. -/
def deferredRows (x : Strm) : Nat :=
  let from' := x.moved + (if x.failing then 1 else 0)
  let begun := if x.ahead == 0 || x.issued < x.moved + x.ahead then min (x.issued + 1) (strmRows x) else x.issued
  ((List.range (begun - from')).filter (fun i => rowMarked x (from' + i))).length

/-- A stream whose own request failed ends in FAULT, but where its context is being reset or destroyed (R86). -/
def endsFaulty (s : State) (x : Strm) : Bool := x.failing && ctxState s x.ctx != 6 && ctxState s x.ctx != 7

/-- STREAM_DRAINED (R86, R281, R285): with no request out, a draining stream ends, in FAULT when its own request failed. -/
def execStreamDrained (t : TileId) (n : BitVec 6) (s : State) : Outcome State Fault Refusal :=
  .next (
    let i := n.toNat
    if fld s (aSte t i) 0 3 != 2 || !tileRuns s t then s
    else match strmOf s t i with
      | none => setFld (setFld s (aSte t i) 0 3 0) (aSte t i) 8 8 0
      | some x =>
        if !x.outst.isEmpty then s
        else
          let d := deferredRows x
          let s := x.caps.foldl (fun s c => if c.port < 16 then portFree s c.port else s) s
          let s := perfTile (satAdd s (aSte t i) 32 16 d) t (some x.ctx) 1 0x12 none d
          pumpTile t none (setStrm (setFld (setFld s (aSte t i) 0 3 (if endsFaulty s x then 4 else 0)) (aSte t i) 8 8 0) t i none))

/-- STRM_WAIT (R195). -/
def execStrmWait (t : TileId) (h : ThreadId) (s : State) : Outcome State Fault Refusal :=
  .next (issue s t h (isEng 0x20 2) fun x s => withHandle x s fun n =>
    let st := fld s (aSte t n) 0 3
    if st == 0 || st == 3 then x.next s else x.wait)

/-- A generation of the context counted up to g, in 32 bits, stands at or before g (R282). -/
def genBefore (gen g : BitVec 32) : Bool := decide ((g - gen).toNat < 2 ^ 31)

/-- Of the write streams that the task started up to generation g, none is short of DONE, and every row they have sent is
accepted at its slice. -/
def writesDone (s : State) (t : TileId) (k : Nat) (g : BitVec 32) : Bool :=
  (List.range 64).all (fun i => match strmOf s t i with
    | some x => !(x.write && x.task == k && genBefore x.gen g)
    | none => true) &&
  (allReqs s).all (fun q => match q.kind with
    | .write t' k' _ _ _ _ => !(t' == t && k' == k && genBefore q.gen g)
    | _ => true)

/-- The generation up to which a BARRIER of a thread waits: that of its first presentation (R197). -/
def barrierGen (s : State) (t : TileId) (h : ThreadId) (n : CtxId) : BitVec 32 :=
  match s.barriers.get (fun _ => 0) (keyThread t h) with
  | 0 => s.gens.get (fun _ => 0) n.toNat
  | g + 1 => BitVec.ofNat 32 g

/-- BARRIER (R197): the streams that the task starts while it waits are not waited for. -/
def execBarrier (t : TileId) (h : ThreadId) (s : State) : Outcome State Fault Refusal :=
  .next (issue s t h (isEng 0x20 3) fun x s =>
    let g := barrierGen s t h x.n
    let mark (s : State) (v : Nat) : State := { s with barriers := s.barriers.set (fun _ => 0) (keyThread t h) v }
    if writesDone s t x.k g then x.next (mark s 0) else mark x.wait (g.toNat + 1))

/-- STRM_STAT (R195). -/
def execStrmStat (t : TileId) (h : ThreadId) (s : State) : Outcome State Fault Refusal :=
  .next (issue s t h (isEng 0x20 4) fun x s => withHandle x s fun n =>
    x.next (setGreg s t h (eRd x.w) (reg s (aSte t n))))

/-! ## Gathers (R198, R293) -/

/-- GATH. -/
def execGath (t : TileId) (h : ThreadId) (s : State) : Outcome State Fault Refusal :=
  .next (issue s t h (isEng 0x22 0) fun x s =>
    let size := 2 ^ eF x.w 5 2
    let va := (x.g s (eRa x.w)).toNat
    let d := x.g s (eRd x.w)
    x.check s (firstFail [
      need (locKind d == 0 && locBitsOk d) cEngineParam,
      need (locAddr d % size == 0 && va % size == 0) cAlign,
      need (spPhys s t x.k (locAddr d) size).isSome cSpBound]) fun s =>
        if 2 ≤ (s.gaths.filter (fun g => g.t == t)).length || 256 ≤ tileHeld s t then x.wait
        else
          let g : Gath := ⟨t, x.n, x.k, some h, eDone x.w, va, locAddr d, size, false, none, s.serial⟩
          let s' := { s with serial := s.serial + 1 }
          match xlateOf s t x.n va false none with
          | .miss => x.next (addWalk { s' with gaths := s.gaths ++ [{ g with walking := true }] } t x.n (vpnOf va))
          | .fault =>
            if isNormal s then x.fault s cXlate
            else x.next { s' with gaths := s.gaths ++ [{ g with cap := some ⟨va / 128 * 128, List.replicate 128 0, 4, 16⟩ }] }
          | .frame f => x.next { s' with gaths := s.gaths ++ [g], reqs := s.reqs ++ [gathReq s g (f + va % frameSize)] })

/-- GATHER_COMPLETE: the oldest gather of the tile, once its line is there. -/
def execGatherComplete (t : TileId) (s : State) : Outcome State Fault Refusal :=
  .next (match s.gaths.find? (fun g => g.t == t) with
    | none => s
    | some g => match g.cap with
      | none => s
      | some c =>
        if !tileRuns s t || !ctxLive s g.ctx then s
        else
          let s := bump { s with gaths := s.gaths.erase g } (engineCode (.gather t))
          if isNormal s && c.mark != 0 then engineFaultOp s t g.thread g.ctx (memCause c.mark)
          else match spPhys s t g.task g.dest g.size with
            | none => engineFaultOp s t g.thread g.ctx cSpBound
            | some pa =>
              let bs := if c.mark == 0 then (c.data.drop (g.va % 128)).take g.size else List.replicate g.size 0
              let s := spOrdered s t pa bs (c.mark != 0) g.ser
              tokDone (perfTile s t (some g.ctx) 5 0x10 none 1) t g.task g.done g.thread)

end Sys2Proof.Machine
end

