-- ==== Sys2Proof/Machine/Lattice.lean ====
section
/-! DEFINITION. Lattice sends and beats (R208, R227 to R231, R240, R251 to R254), token counters and their signals
(R209 to R212). -/

namespace Sys2Proof.Machine

open Host (Outcome)

/-- The enabled tile that a unit address names on this module (R34, R208). -/
def tileOfUnit (s : State) (u : Nat) : Option TileId :=
  if u % 16 == 0 && u / 65536 % 65536 == (nodeId s).toNat && u / 16 % 4096 < 512 && tileOn s (BitVec.ofNat 9 (u / 16))
  then some (BitVec.ofNat 9 (u / 16)) else none

/-! ## Sends (R208, R251) -/

def sendBeats (x : Iss) : Nat := eF x.w 12 16 + 1

/-- Accept a send: its beats enter as its source holds them. -/
def acceptSend (x : Iss) (s : State) (dests : List TileId) (queue : Nat) : State :=
  x.next { s with sends := s.sends ++ [⟨x.t, x.n, x.k, some x.h, eDone x.w, x.g s (eRa x.w), dests, queue, sendBeats x, 0⟩] }

/-- SEND (R208). -/
def execSend (t : TileId) (h : ThreadId) (s : State) : Outcome State Fault Refusal :=
  .next (issue s t h (isEng 0x30 0) fun x s =>
    let b := (x.g s (eRb x.w)).toNat
    x.check s (locCheck s t x.k [0, 2] false (64 * sendBeats x) 0 (x.g s (eRa x.w))) fun s =>
      match tileOfUnit s (b % 2 ^ 32) with
      | none => x.fault s cEngineParam
      | some d => acceptSend x s [d] (b / 2 ^ 32 % 16))

/-- The tiles of the rectangle of an MSEND, or none where the operand is refused (R251). -/
def rectOf (s : State) (t : TileId) (v : Nat) : Option (List TileId) :=
  let cl := v % 32
  let ch := v / 2 ^ 8 % 32
  let rl := v / 2 ^ 16 % 16
  let rh := v / 2 ^ 24 % 16
  let q := v / 2 ^ 32 % 16
  let clean := v == cl + ch * 2 ^ 8 + rl * 2 ^ 16 + rh * 2 ^ 24 + q * 2 ^ 32
  let rows := (List.range 16).filter (fun r => rl ≤ r && r ≤ rh)
  let inDomain := rows.all (fun r => headOf s (BitVec.ofNat 4 r) == headOf s (ringOf t) && !isOos s (BitVec.ofNat 4 r))
  if !clean || cl > ch || rl > rh || !inDomain then none
  else some ((rows.map (fun r => ((List.range 32).filter (fun c => cl ≤ c && c ≤ ch)).map (fun c => tileAt c r))).flatten.filter
    (fun d => !isFenced s d))

/-- MSEND (R251). -/
def execMsend (t : TileId) (h : ThreadId) (s : State) : Outcome State Fault Refusal :=
  .next (issue s t h (isEng 0x30 1) fun x s =>
    let b := (x.g s (eRb x.w)).toNat
    x.check s (locCheck s t x.k [0, 2] false (64 * sendBeats x) 0 (x.g s (eRa x.w))) fun s =>
      match rectOf s t b with
      | none => x.fault s cEngineParam
      | some ds => acceptSend x s ds (b / 2 ^ 32 % 16))

/-- Beats of a send enter the Lattice while its source holds them. -/
def sendRun : Nat → State → SendOp → State × SendOp × Nat
  | 0, s, x => (s, x, 0)
  | f + 1, s, x =>
    if x.beats ≤ x.sent then (s, x, 0)
    else match takeRow s x.t x.task x.src x.sent 64 with
      | none => (s, x, 0)
      | some (s', p) =>
        if isNormal s && p.mark != 0 then (s', x, markCause p.mark)
        else
          let tree := if x.dests.length ≤ 1 then 0 else s'.serial + 1
          let new := x.dests.map (fun d => (⟨x.ctx, x.t, d, x.thread, .data x.queue p.bytes, p.mark != 0, 0, tree, []⟩ : Beat))
          let s' := perfTile { s' with beats := s'.beats ++ new, serial := s'.serial + 1 } x.t (some x.ctx) 6 0x10 none 1
          sendRun f s' { x with sent := x.sent + 1 }

/-- The sends of a tile go on, in order of issue, from index i of the list; each on its own source (R208). -/
def sendsGo (t : TileId) : Nat → Nat → State → State
  | 0, _, s => s
  | f + 1, i, s => match s.sends[i]? with
    | none => s
    | some x =>
      if x.t != t || !ctxLive s x.ctx then sendsGo t f (i + 1) s
      else
        let (s', y, c) := sendRun x.beats s x
        let gone := { s' with sends := s'.sends.eraseIdx i }
        if c != 0 then engineFaultOp gone t x.thread x.ctx c
        else if y.beats ≤ y.sent then sendsGo t f i (tokDone gone t x.task x.done x.thread)
        else sendsGo t f (i + 1) { s' with sends := s'.sends.set i y }

/-- LAT_SEND_COMPLETE: every send of the tile goes on as far as its source holds beats; the last beat leaving the router ends
one (R194, R208, R253). -/
def execLatSendComplete (t : TileId) (s : State) : Outcome State Fault Refusal :=
  .next (if tileRuns s t then sendsGo t s.sends.length 0 s else s)

/-! ## Beats in flight -/

/-- The route's rows after the source's, in order (R228). -/
def routeRows (b : Beat) : List Nat := span (rowOf b.src) (rowOf b.dst)

/-- A router lies on a beat's route (R228). -/
def onRoute (b : Beat) (u : TileId) : Bool := b.way.path.contains u

/-- The routers that a beat passes before it comes to router u. -/
def before (b : Beat) (u : TileId) : List TileId := b.way.path.takeWhile (· != u)

/-- A beat's route passes a ring. -/
def crossesRing (b : Beat) (r : RingId) : Bool := rowOf b.src == r.toNat || (routeRows b).contains r.toNat

def isToken (b : Beat) : Bool := match b.cargo with | .token .. => true | .data .. => false

/-- Count a beat at the routers that have forwarded it (R448). A send's beat was counted at its source as it left, and a multicast
beat is counted once at each router of its tree (R252). -/
def passed (s : State) (b : Beat) (u : TileId) : State :=
  let new := (before b u).filter (fun v => !b.seen.contains v)
  let s := (new.filter (fun v => isToken b || v != b.src || b.thread.isNone)).foldl (fun s v => perfTile s v (some b.ctx) 6 0x10 none 1) s
  if b.tree == 0 then s else { s with beats := s.beats.map (fun o => if b.twin o then { o with seen := o.seen ++ new } else o) }

/-- The routers of a ring out of service hold their links idle: no beat passes (R257). -/
def routeIdle (s : State) (b : Beat) : Bool := allRings.any (fun r => isOos s r && crossesRing b r)

/-- The boundaries of a route: the last row on the near side and the first on the far side of each (R240). -/
def crossings (s : State) (b : Beat) : List (Nat × Nat) :=
  let rows := routeRows b
  ((rowOf b.src :: rows).zip rows).filter (fun x => headOf s (BitVec.ofNat 4 x.1) != headOf s (BitVec.ofNat 4 x.2))

/-- The boundary that a beat comes to next, or stands at. -/
def crossingOf (s : State) (b : Beat) : Option (Nat × Nat) := (crossings s b)[b.phase / 2]?

/-- The boundary router of a crossing beat: the receiving row at its destination's column. -/
def crossTile (s : State) (b : Beat) : Option TileId := (crossingOf s b).map (fun x => tileAt (colOf b.dst) x.2)

/-- The beats that the boundary buffer of a router holds for one direction of its link. -/
def bufferFill (s : State) (u : TileId) (south : Bool) : Nat :=
  (s.beats.filter (fun b => b.phase % 2 == 1 && crossTile s b == some u && decide (rowOf b.src < rowOf u) == south)).length

/-- The context of a beat faults, UCB.ERR naming tile u; the thread that sent it records TOKEN for a TSIG and ENGINE_PARAM for
data (R240, R223). -/
def faultSender (s : State) (b : Beat) (u : TileId) : State :=
  let s := match b.thread with
    | some h => if ctxLive s b.ctx then threadRecord s b.src h (if isToken b then cToken else cEngineParam) else s
    | none => s
  ctxFault s b.ctx (unitTile s u)

/-- The two domains of a boundary have one owner (R240). -/
def sameOwner (s : State) (x : Nat × Nat) : Bool :=
  fld s aShtOwned x.1 1 == fld s aShtOwned x.2 1 && fld s aShtOwner (4 * x.1) 4 == fld s aShtOwner (4 * x.2) 4

/-- BOUNDARY_CROSSING (R240): a beat enters the boundary buffer, or meets it full and faults its sender's context; a
beat in the buffer is taken out by the receiving domain. A beat meets no room at a boundary to another owner's domain
(DESIGN CHOICE, log entry 127). -/
def execBoundaryCrossing (i : Nat) (s : State) : Outcome State Fault Refusal :=
  .next (match s.beats[i]? with
    | none => s
    | some b => match crossingOf s b with
      | none => s
      | some x =>
        let u := tileAt (colOf b.dst) x.2
        if b.phase % 2 == 0 then
          if !ringOpen s (BitVec.ofNat 4 x.1) then s
          else if sameOwner s x && bufferFill s u (decide (rowOf b.src < rowOf u)) < 32 then
            { s with beats := s.beats.set i { b with phase := b.phase + 1 } }
          else faultSender (loseBeat s i) b u
        else if ringOpen s (ringOf u) then { s with beats := s.beats.set i { b with phase := b.phase + 1 } }
        else s)

/-- Beat i can arrive: its domain is open, a crossing beat has been taken out of its buffers, and no beat that entered before
it on the same way is still in flight: beats of one way all take its travel time (R228, R234). -/
def canArrive (s : State) (i : Nat) (b : Beat) : Bool :=
  ringOpen s (ringOf b.dst) && b.phase == 2 * (crossings s b).length &&
    !(s.beats.take i).any (fun o => o.src == b.src && o.dst == b.dst)

/-- Delivery of a data beat to its queue, or its discard (R208, R253). -/
def deliverBeat (s : State) (b : Beat) (queue : Nat) (bytes : List Byte) : State :=
  let d := b.dst
  let discard (s : State) (why : Nat) : State :=
    let s := perfTile (satAdd s (aRtr d) 16 16 1) d (some b.ctx) 6 0x12 none 1
    hazard s b.ctx 7 (unitTile s d) (BitVec.ofNat 64 queue) (BitVec.ofNat 64 why)
  if !tileOn s d then s
  else if !tqValid s d queue then discard s 2
  else if taskCtx s d (tqTask s d queue) != b.ctx then discard s 3
  else if !tqHasSlot s d queue then discard s 1
  else perfTile (tqPush s d queue bytes b.poison) d (some b.ctx) 7 0x10 (some queue) 1

/-- A TSIG adds to its counter (R211); for a context under reset it is discarded (R212). A poisoned one is poisoned data that
its counter consumes: it faults the context in normal service, else it adds and is counted (R231, R63). -/
def deliverToken (s : State) (b : Beat) (k n amount : Nat) : State :=
  if !(tileOn s b.dst && taskOfCtx s b.dst b.ctx k && ctxState s b.ctx != 6 && ctxState s b.ctx != 7) then s
  else if b.poison && isNormal s then ctxFault s b.ctx (unitTile s b.dst)
  else
    let s := if b.poison then satAdd s (aPoison b.dst) 0 16 1 else s
    tokAdd s b.dst k n amount (b.thread.map (fun h => (b.src, h)))

/-- Routers of its route find parity errors on beat i (R231). -/
def parityOn (s : State) (i : Nat) (us : List TileId) : State :=
  us.foldl (fun s u => match s.beats[i]? with
    | some b => if onRoute b u then poisonBeat (parityAt b.ctx s u) b i u else s
    | none => s) s

/-- Beat i reaches its destination's router and is delivered there. -/
def land (s : State) (i : Nat) : State :=
  match s.beats[i]? with
  | none => s
  | some b =>
    let s := passed s b b.dst
    let s := match b.cargo with
      | .data queue bytes => deliverBeat s b queue bytes
      | .token k n amount => deliverToken s b k n amount
    loseBeat s i

/-- Beat i arrives (R208, R211): after the parity errors that routers of its route find, and perhaps a meeting at one of them,
which the higher-ranked input wins (R229). -/
def arrive (token : Bool) (i : Nat) (parity : List TileId) (meets : Option Meeting) (s : State) : State :=
  match s.beats[i]? with
  | none => s
  | some b =>
    if isToken b != token then s
    else if routeIdle s b then loseBeat s i
    else if !canArrive s i b then s
    else
      let s := parityOn s i parity
      match meets with
      | none => land s i
      | some m => match meet s (.beat i) m with
        | (s', true) => passed s' b m.router
        | (s', false) => land s' (s'.beats.findIdx (fun o => o.src == b.src && o.dst == b.dst))

/-- BEAT_ARRIVAL (R208, R229, R231). -/
def execBeatArrival (i : Nat) (parity : List TileId) (meets : Option Meeting) (s : State) : Outcome State Fault Refusal :=
  .next (arrive false i parity meets s)

/-- CROSSING_UNDERRUN (R250): a beat in flight, or the row of a read stream at its ports, is absent in the read cycle of a crossing
of its way: it is delivered poisoned, counted at the router behind the crossing and logged. A frozen domain's crossings hold
(R245). -/
def execCrossingUnderrun (m : MetBeat) (router : TileId) (s : State) : Outcome State Fault Refusal :=
  .next (if !ringOpen s (ringOf router) then s else match m with
    | .beat i => match s.beats[i]? with
      | some b => if b.way.crosses router then underrunAt (poisonBeat s b i router) router else s
      | none => s
    | .row t n => match strmOf s t n.toNat with
      | some x =>
        let hit (c : LineCap) : Bool := c.port < 16 && (rowLines x x.moved).contains c.va && (wayFrom c.port t).crosses router
        if x.write || !x.caps.any hit then s
        else underrunAt (setStrm s t n.toNat (some { x with
          caps := x.caps.map (fun c => if hit c then { c with mark := max 1 c.mark } else c) })) router
      | none => s
    | .ring _ => s)

/-! ## Tokens (R209 to R211) -/

def tokN (x : Iss) : Nat := eF x.w 5 16

/-- TINC. -/
def execTinc (t : TileId) (h : ThreadId) (s : State) : Outcome State Fault Refusal :=
  .next (issue s t h (isEng 0x38 0) fun x s =>
    x.check s (need (tokN x != 0) cToken) fun s => tokAdd (x.next s) t x.k (eF x.w 0 5) (tokN x) (some (t, h)))

/-- TWAIT. -/
def execTwait (t : TileId) (h : ThreadId) (s : State) : Outcome State Fault Refusal :=
  .next (issue s t h (isEng 0x38 1) fun x s =>
    x.check s (need (tokN x != 0) cToken) fun s =>
      let v := tokGet s t x.k (eF x.w 0 5)
      if tokN x ≤ v then x.next (tokSet s t x.k (eF x.w 0 5) (v - tokN x)) else x.wait)

/-- TTAKE. -/
def execTtake (t : TileId) (h : ThreadId) (s : State) : Outcome State Fault Refusal :=
  .next (issue s t h (isEng 0x38 2) fun x s =>
    let v := tokGet s t x.k (eF x.w 0 5)
    x.check s (firstFail [need (tokN x != 0) cToken, need (tokN x ≤ v) cToken]) fun s =>
      x.next (tokSet s t x.k (eF x.w 0 5) (v - tokN x)))

/-- TREAD. -/
def execTread (t : TileId) (h : ThreadId) (s : State) : Outcome State Fault Refusal :=
  .next (issue s t h (isEng 0x38 3) fun x s =>
    x.next (setGreg s t h (eRd x.w) (BitVec.ofNat 64 (tokGet s t x.k (eF x.w 0 5)))))

/-- TSIG (R210). -/
def execTsig (t : TileId) (h : ThreadId) (s : State) : Outcome State Fault Refusal :=
  .next (issue s t h (isEng 0x38 4) fun x s =>
    let a := (x.g s (eRa x.w)).toNat
    let k := a / 2 ^ 32 % 8
    x.check s (need (tokN x != 0) cToken) fun s =>
      match tileOfUnit s (a % 2 ^ 32) with
      | none => x.fault s cToken
      | some d =>
        if !taskOfCtx s d x.n k then x.fault s cToken
        else x.next { s with
          beats := s.beats ++ [⟨x.n, t, d, some h, .token k (eF x.w 0 5) (tokN x), false, 0, 0, []⟩],
          tsigs := s.tsigs + 1 })

/-- TSIG_ARRIVAL (R211). -/
def execTsigArrival (p : BeatReport) (s : State) : Outcome State Fault Refusal :=
  .next (arrive true p.index p.parity p.meets s)

end Sys2Proof.Machine
end

