-- ==== Sys2Proof/Machine/Array.lean ====
section
/-! DEFINITION. Array passes (R87 to R114, R199 to R201): their checks, the stationary load, the exact sums, wide-shallow mode,
accumulator addressing and the ring. -/

namespace Sys2Proof.Machine

open Host (Outcome)

/-! ## Parameters (R100, R199) -/

def EOp.wide (o : EOp) : Bool := o.fields / 2 ^ 27 % 2 == 1
def EOp.load (o : EOp) : Nat := o.fields / 2 ^ 25 % 4
def EOp.fmtM (o : EOp) : Fmt := o.fields / 2 ^ 18 % 16
def EOp.fmtS (o : EOp) : Fmt := o.fields / 2 ^ 14 % 16
def EOp.slotM (o : EOp) : Nat := o.fields / 2 ^ 10 % 16
def EOp.slotS (o : EOp) : Nat := o.fields / 2 ^ 6 % 16
def EOp.blk16 (o : EOp) : Bool := o.fields / 32 % 2 == 1
def EOp.entryCol (o : EOp) : Nat := o.fields % 32
def EOp.rows (o : EOp) : Nat := getF o.c 0 11 + 1
def EOp.accRow (o : EOp) : Nat := getF o.c 16 11

/-- The operand pairs of R88. -/
def pairOk (m st : Fmt) : Bool := (m == 8 && st == 8) || (m ≤ 7 && st ≤ 7)

/-- The double-depth pairs of R88: two K elements in each cell. -/
def pairDouble (m st : Fmt) (ring : Nat) : Bool :=
  4 ≤ st && st ≤ 7 && (m == 6 || ((m == 4 || m == 5) && ring == 0))

def EOp.dbl (o : EOp) : Bool := pairDouble o.fmtM o.fmtS o.ring
/-- The K depth of the pass (R88, R95). -/
def EOp.depth (o : EOp) : Nat := (if o.wide then 16 else 64) * (if o.dbl then 2 else 1)
/-- The output width (R87, R95). -/
def EOp.width (o : EOp) : Nat := if o.wide then 256 else 64
/-- Bytes of a moving row's image. In a WIDE pass under a double-depth pair it is the double-depth image, whose first K elements
and their scales count (R95; DESIGN CHOICE, log 16). -/
def EOp.sizeM (o : EOp) : Nat := imgSize o.fmtM o.dbl
def EOp.sizeS (o : EOp) : Nat := imgSize o.fmtS o.dbl

/-- The accumulator rows of the pass lie in the task's blocks (R97, R98). -/
def passAccOk (s : State) (t : TileId) (o : EOp) : Bool :=
  let blocks := taskAlimit s t o.task - taskAbase s t o.task
  if o.wide then decide (4 * ((o.accRow + o.rows - 1) / 64) + 3 < blocks)
  else decide (o.accRow + o.rows ≤ blocks * 64)

def statValid (s : State) (t : TileId) : Bool := fld s (aArrStatus t) 3 1 == 1
def statTask (s : State) (t : TileId) : Nat := fld s (aArrStatus t) 4 3

/-- The moving rows pass the Louvre. -/
def EOp.viaLouvre (o : EOp) : Bool := locKind o.b == 4 || locKind o.b == 5

/-- The checks of a pass at its issue: its own fields (ARRAY_PARAM), its formats, its locators, its table slots, the Louvre's
rules, the accumulator range (R88, R96 to R102, R136, R155, R156, R199). What KEEP finds in the cells is checked when the pass
begins (DEDUCED, log 133). R153 gives the double-depth shape for a stationary operand only and names no fault for moving rows:
LAYOUT_PARAM there is the model's choice (DESIGN CHOICE, log 134). -/
def passCheck (s : State) (t : TileId) (o : EOp) : Option Nat :=
  let kb := locKind o.b
  let rowsMask : Word64 := BitVec.ofNat 64 (2 ^ 11 - 1 + (2 ^ 11 - 1) * 2 ^ 16)
  firstFail [
    need (fmtUsed o.fmtM && fmtUsed o.fmtS) cFmtParam,
    need (o.load != 3 && o.ring != 3) cArrayParam,
    need (pairOk o.fmtM o.fmtS) cArrayParam,
    need (o.c &&& ~~~rowsMask == 0) cArrayParam,
    need (!o.wide || (o.rows ≤ 512 && o.accRow ≤ 511)) cArrayParam,
    need (!o.wide || (o.load != 1 && o.ring == 0 && kb != 6 && !o.viaLouvre)) cArrayParam,
    need ((kb == 6) == (o.ring == 2)) cArrayParam,
    need (!(o.ring == 1 && o.viaLouvre && o.load == 1)) cArrayParam,
    if o.load == 2 then none else locCheck s t o.task [0, 2] false (64 * o.sizeS) 0 o.a,
    if kb == 6 then need (locBitsOk o.b) cEngineParam
      else locCheck s t o.task [0, 2, 4, 5] false
        ((if kb == 4 then (o.rows + 63) / 64 * 64 else o.rows) * o.sizeM) 0 o.b,
    fmtSlotCheck s t o.ctx o.fmtM o.slotM,
    fmtSlotCheck s t o.ctx o.fmtS o.slotS,
    need (!(o.load == 1 && o.fmtS == 7 && o.dbl)) cLayoutParam,
    need (!(o.viaLouvre && (fmtMicro o.fmtM || o.dbl))) cLayoutParam,
    need (passAccOk s t o) cAccBound]

/-- The operation that an engine instruction of a thread issues. -/
def opOf (x : Iss) (s : State) (minor done : Nat) (d a b c : Word64) : EOp :=
  { ctx := x.n, task := x.k, thread := some x.h, chain := none, done := done, minor := minor, fields := eFields x.w,
    d := d, a := a, b := b, c := c, acc := eFields x.w / 2 ^ 22 % 2 == 1, ring := eFields x.w / 2 ^ 23 % 4,
    tabM := [], tabS := [], step := BitVec.ofNat 32 (fld s (aStep x.n) 0 32), seed := reg s (aSeed x.n),
    loaded := 0, row := 0, buf := [], ser := s.serial }

/-- ARR (R199): the pass is accepted, or the thread waits for the pending place (R193). -/
def execArr (t : TileId) (h : ThreadId) (s : State) : Outcome State Fault Refusal :=
  .next (issue s t h (isMajor 0x24) fun x s =>
    let o := opOf x s 0 (eRd x.w) 0 (x.g s (eRa x.w)) (x.g s (eRb x.w)) (x.g s (eRc x.w))
    x.check s (passCheck s t o) fun s =>
      if placeFree s t 0 then x.next (acceptOp s t 0 o) else x.wait)

/-! ## The stationary operand (R89, R101) -/

def statKey (t : TileId) (j : Nat) : Nat := t.toNat * 64 + j
def statImage (s : State) (t : TileId) (j : Nat) : List Byte := s.stat.get (fun _ => []) (statKey t j)
/-- The cells were loaded transposed (R89). -/
def statTransposed (s : State) (t : TileId) : Bool := s.statMeta.get (fun _ => 0) t.toNat == 1

/-- The 64 images of the cells, decoded under the pass's own parameters. -/
def statDecode (s : State) (t : TileId) (o : EOp) : List (List Num) :=
  (List.range 64).map (fun j => decodeRow o.fmtS o.blk16 o.dbl o.tabS (statImage s t j))

/-- The cell value s[k][n] (R87): row images of a SQUARE tile, of its transpose, or of a WIDE tile. A double-depth image
holds rows 2j and 2j + 1 (R153). What a KEEP pass computes whose MODE or depth is not that of the load, the spec does not say:
the model reads the held images under the pass's own parameters, with zeros beyond them (DESIGN CHOICE, log 135). -/
def cellOf (dec : List (List Num)) (wide dbl tr : Bool) (k n : Nat) : Num :=
  let at' (j i : Nat) : Num := (dec.getD j []).getD i .zero
  if tr then at' n k
  else
    let (j, half) := if dbl then (k / 2, k % 2 * 64) else (k, 0)
    if wide then at' (4 * j + n / 64) (half + n % 64) else at' j (half + n)

/-! ## The Louvre's buffers (R154, R158, R160) -/

/-- The shape code of a format (R160). -/
def lvShape (f : Fmt) (dbl : Bool) : Nat :=
  match fmtBits f with
  | 8 => 0
  | 6 => 1
  | 4 => if dbl then 3 else 2
  | _ => 4

/-- The oldest tile has been emitted in full: counted, and its buffer is free. -/
def tileOut (s : State) (t : TileId) : State :=
  match lvOf s t with
  | [] => s
  | x :: l => setLv (perfTile (satAdd s (aLvrCount t) 0 32 1) t (some x.op.ctx) 4 0x10 none 1) t l

/-- The oldest tile, if it is whole and belongs to the array or to a transfer as `array` says. -/
def lvFront (s : State) (t : TileId) (array : Bool) : Option LvTile :=
  match lvOf s t with
  | [] => none
  | x :: _ => if x.array == array && x.imgs.length == 64 then some x else none

/-- What an operation passes through the Louvre: its source, the bytes of an image, its number of tiles, their shape and
destination. -/
structure LvIn where
  array : Bool
  loc : Word64
  size : Nat
  tiles : Nat
  shape : Nat
  dest : Nat

/-- A tile begins to enter the buffer in turn, if that is free (R154, R158). Where a discard has freed buffers out of turn, the tile
still waits for the one in turn (DESIGN CHOICE, log 158). -/
def lvEnter (s : State) (t : TileId) (o : EOp) (v : LvIn) : Option State :=
  let b := s.lvrNext.get (fun _ => 0) t.toNat
  let l := lvOf s t
  if l.any (fun x => x.slot == b) then none
  else
    let x : LvTile := ⟨b, o, v.array, o.minor, o.minor + 1 == v.tiles, v.shape, v.dest, [], 0⟩
    some (setLv { s with lvrNext := s.lvrNext.set (fun _ => 0) t.toNat ((b + 1) % 3) } t (l ++ [x]))

/-- Images enter the Louvre as far as the source has them and a buffer is free; `minor` counts the tiles begun. The last part
is a fault's cause, or 0. -/
def lvIn (t : TileId) (v : LvIn) : Nat → State → EOp → State × EOp × Nat
  | 0, s, o => (s, o, 0)
  | f + 1, s, o =>
    match (lvOf s t).getLast?.filter (fun x => x.imgs.length < 64) with
    | some x => match takeRow s t o.task v.loc (x.idx * 64 + x.imgs.length) v.size with
      | none => (s, o, 0)
      | some (s', p) =>
        if isNormal s && p.mark != 0 then (s', o, markCause p.mark)
        else lvIn t v f (setLv s' t ((lvOf s' t).dropLast ++ [{ x with imgs := x.imgs ++ [(p.bytes, p.badG)] }])) o
    | none =>
      if v.tiles ≤ o.minor then (s, o, 0)
      else match lvEnter s t o v with
        | none => (s, o, 0)
        | some s => lvIn t v f s { o with minor := o.minor + 1 }

/-- The images that may enter at once: three buffers of 64. -/
def lvFuel : Nat := 200

/-- A pass holds the Louvre until it ends (R200). -/
def arrayHolds (s : State) (t : TileId) : Bool :=
  (engOf s t 0).running.any (fun o => usesLouvre o.fields o.b) || s.drains.any (fun d => d.t == t && usesLouvre d.op.fields d.op.b)

/-- Put an image into the cells, and count its poisoned elements (R114). -/
def setCell (t : TileId) (o : EOp) (s : State) (j : Nat) (bytes : List Byte) (badG : List Nat) : State :=
  let bad := badCount o.fmtS o.blk16 o.dbl badG (rowElems o.dbl)
  let s := if bad == 0 then s else satAdd s (aArrNonfin t) 48 16 bad
  { s with stat := s.stat.set (fun _ => []) (statKey t j) bytes }

/-- Load stationary images while the source has them (NEW). -/
def loadStat : Nat → State → TileId → EOp → State × EOp × Nat
  | 0, s, _, o => (s, o, 0)
  | f + 1, s, t, o =>
    if o.loaded ≥ 64 then (s, o, 0)
    else match takeRow s t o.task o.a o.loaded o.sizeS with
      | none => (s, o, 0)
      | some (s, p) =>
        if isNormal s && p.mark != 0 then (s, o, markCause p.mark)
        else loadStat f (setCell t o s o.loaded p.bytes p.badG) t { o with loaded := o.loaded + 1 }

/-- The tables that a pass names, captured (R128). -/
def EOp.captured (s : State) (t : TileId) (o : EOp) : EOp :=
  { o with tabM := tableOf s t o.ctx o.fmtM o.slotM, tabS := tableOf s t o.ctx o.fmtS o.slotS }

/-- Load the stationary tile through the Louvre (NEW_T): once it is whole, and the oldest, the load begins, which captures the
pass's tables (R128), and its 64 rows enter the cells. -/
def loadTurned (s : State) (t : TileId) (o : EOp) : State × EOp × Nat :=
  let (s, o, f) := lvIn t ⟨true, o.a, o.sizeS, 1, lvShape o.fmtS o.dbl, 0⟩ lvFuel s o
  if f != 0 then (s, o, f)
  else match lvFront s t true with
    | none => (s, o, 0)
    | some x =>
      let s := (x.imgs.zipIdx).foldl (fun s e => setCell t o s e.2 e.1.1 e.1.2) s
      (tileOut s t, { o.captured s t with loaded := 64, minor := 0 }, 0)

/-! ## Moving rows -/

/-- Row j of the transpose of a tile of 64 row images (R152). -/
def transposedRow (f : Fmt) (imgs : List (List Byte)) (j : Nat) : List Byte :=
  let w := fmtBits f
  let raw := packCodes w (imgs.map (fun b => (unpackCodes w 64 (b.take (64 * w / 8))).getD j 0))
  raw ++ List.replicate (imgSize f false - raw.length) 0

/-- The next moving row with its mark, or a member's fault. -/
inductive Moving where
  | absent (s : State) (o : EOp)
  | bad (cause : Nat)
  | row (s : State) (o : EOp) (bytes : List Byte) (mark bad : Nat)

def ringInDef : Nat → RingIn := fun _ => ⟨List.replicate 64 0, 0, false, false⟩
/-- What a router's ring input holds; nothing but zeros before its first beat (DESIGN CHOICE, log 136). -/
def ringInOf (s : State) (t : TileId) : RingIn := s.ringIn.get ringInDef t.toNat

/-- A beat as a tile's router receives it. -/
def RingBeat.seen (b : RingBeat) (t : TileId) : RingIn := ⟨b.data, b.ctx, b.last, decide (b.poison ≤ hopsEast b.entry t)⟩

/-- The first ring beat that has not reached a tile's router (R104). -/
def nextBeat (t : TileId) (bs : List RingBeat) : Option RingBeat :=
  bs.find? (fun b => b.ring == ringOf t && b.left.contains t)

/-- A beat reaches the router, which finds a parity error on it where `parity`: its poison bit is set from there on (R231). -/
def passBeat (t : TileId) (parity : Bool) : List RingBeat → List RingBeat
  | [] => []
  | b :: r =>
    if b.ring == ringOf t && b.left.contains t then
      { b with
        left := b.left.filter (· != t),
        poison := if parity then min b.poison (hopsEast b.entry t) else b.poison } :: r
    else b :: passBeat t parity r

/-- CIRCULATING of every enabled tile of a ring (R107). -/
def setCirc (s : State) (r : RingId) (v : Nat) : State :=
  ((ringTiles r).filter (tileOn s)).foldl (fun s t => setFld s (aArrRing t) 2 1 v) s

/-- Link beats of a row: a BF16 row takes two (R104). -/
def rowBeats (f : Fmt) : Nat := if f == 8 then 2 else 1

/-- The beats of a ring that have passed every router have returned to the entry, which discards them (R104). With the first beat
of a pass whose rows are still to be injected the ring circulates, unless the pass has fewer than 68 beats (R107). -/
def returnBeats (s : State) (r : RingId) : State :=
  let back := s.ringBeats.filter (fun b => b.ring == r && b.left.isEmpty)
  let s := { s with ringBeats := s.ringBeats.filter (fun b => !(b.ring == r && b.left.isEmpty)) }
  if back.any (fun b => b.num == 0 && b.live) then setCirc s r 1 else s

/-- The next beat reaches a tile's router, whose ring input keeps it (R230). -/
def reach (s : State) (t : TileId) (parity : Bool) : State :=
  match nextBeat t s.ringBeats with
  | none => s
  | some b =>
    let s := if parity then parityAt b.ctx s t else s
    let seen := b.seen t
    let s := { s with
      ringBeats := passBeat t parity s.ringBeats,
      ringIn := s.ringIn.set ringInDef t.toNat { seen with poison := seen.poison || parity } }
    returnBeats s (ringOf t)

/-- Beats injected 68 open cycles ago are back at their entry, whatever took them (R105). -/
def ringExpire (s : State) (r : RingId) : State :=
  let now := s.cycles.get (fun _ => 0) r.toNat
  let old := s.ringBeats.filter (fun b => b.ring == r && decide (b.at' + 68 ≤ now))
  old.foldl (fun s b => b.left.foldl (fun s t => reach s t false) s) s

/-- The beats on a ring's links. -/
def ringLoad (s : State) (r : RingId) : Nat := (s.ringBeats.filter (fun b => b.ring == r)).length

/-- The beats of a ring that a member takes for a row, from number `num` on: in each cycle the one at its router, which is the
one before again where none arrived (R201, R230). None where one is still to come. -/
def takeBeats (t : TileId) (parity again : List Nat) : Nat → Nat → State → Option (State × List RingIn)
  | 0, _, s => some (s, [])
  | n + 1, num, s =>
    if !again.contains num && (nextBeat t s.ringBeats).isNone then none
    else
      let s := if again.contains num then s else reach s t (parity.contains num)
      (takeBeats t parity again n (num + 1) s).map (fun r => (r.1, ringInOf s t :: r.2))

/-- A member's next moving row, with the checks of R104 on each of its beats. A poisoned beat poisons the elements of its row. -/
def memberRow (s : State) (t : TileId) (o : EOp) (parity again : List Nat) : Moving :=
  let k := rowBeats o.fmtM
  match takeBeats t parity again k (o.row * k) s with
  | none => .absent s o
  | some (s, bs) =>
    if bs.any (fun b => b.ctx != o.ctx || b.last != (o.row + 1 == o.rows)) then .bad cArrayParam
    else
      let bad := (bs.filter RingIn.poison).length
      .row s o (bs.flatMap RingIn.data) (if bad == 0 then 0 else 1) (bad * o.depth / k)

/-- A row through the Louvre: the next output row of the array's oldest tile (R152, R154). The tile is counted as emitted with the
last row that the pass takes of it (DESIGN CHOICE, log 159). -/
def turnedRow (s : State) (t : TileId) (o : EOp) : Moving :=
  let (s, o, f) := lvIn t ⟨true, o.b, o.sizeM, (o.rows + 63) / 64, lvShape o.fmtM o.dbl, 1⟩ lvFuel s o
  if f != 0 then .bad f
  else match lvFront s t true with
    | none => .absent s o
    | some x =>
      let bad := (x.imgs.filter (fun i => elemBad o.fmtM o.blk16 o.dbl i.2 x.out)).length
      let row := transposedRow o.fmtM (x.imgs.map (fun i => i.1)) x.out
      let s := setLv s t ({ x with out := x.out + 1 } :: (lvOf s t).drop 1)
      let s := if x.out == 63 || o.row + 1 == o.rows then tileOut s t else s
      .row s o row (if bad == 0 then 0 else 1) bad

/-- The next moving row of a pass (R89, R104): from the ring at a member, through the Louvre, or in order from its source. An
entry puts no more on the ring than its 68 cycles hold. -/
def movingRow (s : State) (t : TileId) (o : EOp) (parity again : List Nat) : Moving :=
  if o.ring == 2 then memberRow s t o parity again
  else if o.ring == 1 && 68 < ringLoad s (ringOf t) + rowBeats o.fmtM then .absent s o
  else if o.viaLouvre then turnedRow s t o
  else match takeRow s t o.task o.b o.row o.sizeM with
    | none => .absent s o
    | some (s, p) => .row s o p.bytes p.mark (badCount o.fmtM o.blk16 o.dbl p.badG o.depth)

/-! ## Sums (R92, R93) -/

/-- One output element: the exact sum of the products over the K depth. -/
def dotExact (xs : List Num) (col : Nat → Num) (depth : Nat) : Num :=
  sumExact ((List.range depth).map (fun k => (xs.getD k .zero).mul (col k)))

/-- Write one output element at a physical accumulator row, and count it when it is NaN or infinite (R92, R93). -/
def outElem (s : State) (t : TileId) (o : EOp) (row col : Nat) (x : Num) : State :=
  let r := toF32 x
  let v := if o.acc then f32Add (accGet s t row col) r else r
  let s := accSet s t row col v
  if f32IsNan v then perfTile (satAdd s (aArrNonfin t) 0 24 1) t (some o.ctx) 2 0x13 none 1
  else if f32IsInf v then perfTile (satAdd s (aArrNonfin t) 24 24 1) t (some o.ctx) 2 0x14 none 1
  else s

/-- The physical accumulator row and column of output column n of output row i (R97, R98). -/
def outPlace (s : State) (t : TileId) (o : EOp) (i n : Nat) : Nat × Nat :=
  let base := taskAbase s t o.task
  let a := o.accRow + i
  if o.wide then ((base + 4 * (a / 64) + n / 64) * 64 + a % 64, n % 64) else (base * 64 + a, n)

/-- Write an output row from its moving row and the cells' decoded images. -/
def outRowOf (dec : List (List Num)) (tr : Bool) (s : State) (t : TileId) (o : EOp) (bytes : List Byte) : State :=
  let xs := (decodeRow o.fmtM o.blk16 o.dbl o.tabM bytes).take o.depth
  (List.range o.width).foldl (fun s n =>
    let (r, c) := outPlace s t o o.row n
    outElem s t o r c (dotExact xs (fun k => cellOf dec o.wide o.dbl tr k n) o.depth)) s

/-- Write an output row from its moving row, with the cells as they are. -/
def outRow (s : State) (t : TileId) (o : EOp) (bytes : List Byte) : State :=
  outRowOf (statDecode s t o) (statTransposed s t) s t o bytes

/-- The link beats of a row: its elements and scales, the rest zero bytes, 64 B in each beat (R104). -/
def linkBytes (o : EOp) (bytes : List Byte) : List Byte :=
  let n := rowElems o.dbl
  let used := n * fmtBits o.fmtM / 8 + (if fmtMicro o.fmtM then n / blkLen o.blk16 else 0)
  bytes.take used ++ List.replicate (64 * rowBeats o.fmtM - used) 0

/-- The entry injects the row eastward, one beat or two: the router of every other enabled tile of the ring will receive each
(R104, R110). A disabled tile's forwards it only. With the last row the ring's circulation ends (R107). -/
def inject (s : State) (t : TileId) (o : EOp) (bytes : List Byte) (poison : Bool) : State :=
  if o.ring != 1 then s
  else
    let r := ringOf t
    let k := rowBeats o.fmtM
    let last := o.row + 1 == o.rows
    let beat (i : Nat) : RingBeat := ⟨r, o.ctx, ((linkBytes o bytes).drop (64 * i)).take 64, o.row * k + i, last, if poison then 0 else 64,
      (ringTiles r).filter (fun u => u != t && tileOn s u), t, s.cycles.get (fun _ => 0) r.toNat,
      if locKind o.b == 2 && i + 1 == k then some (locAddr o.b) else none, decide (68 ≤ o.rows * k)⟩
    let all := s.ringBeats ++ (List.range k).map beat
    let s := returnBeats { s with
      ringBeats := if last then all.map (fun b => if b.entry == t then { b with live := false } else b) else all } r
    if last then setCirc s r 0 else s

/-- Take moving rows while they are there; the output row of the last one is pending when it has entered. -/
def runRows (parity again : List Nat) : Nat → State → TileId → EOp → State × EOp × Nat
  | 0, s, _, o => (s, o, 0)
  | f + 1, s, t, o =>
    if o.row ≥ o.rows then (s, o, 0)
    else match movingRow s t o parity again with
      | .absent s o => (s, o, 0)
      | .bad cause => (s, o, cause)
      | .row s o bytes mark bad =>
        if isNormal s && mark != 0 then (s, o, markCause mark)
        else
          let s := if bad == 0 then s else
            perfTile (satAdd s (aArrNonfin t) 48 16 bad) t (some o.ctx) 2 0x15 none bad
          let s := inject s t o bytes (mark != 0)
          let s := perfTile s t (some o.ctx) 2 0x11 none 1
          if o.row + 1 == o.rows then (s, { o with row := o.row + 1, buf := [bytes] }, 0)
          else runRows parity again f (outRow s t o bytes) t { o with row := o.row + 1 }

/-! ## Begin and end (R91, R193, R194, R200) -/

/-- The state the registers show of a pass (R115): LOADING, STREAMING, DRAINING, and its parameters. What MODE, FMT_M, FMT_S,
CTX, ROWS_LEFT, ROLE, DIST and ENTRY_COL read while the array is IDLE, the spec does not say: they keep the last pass's (DESIGN
CHOICE, log 53). -/
def showPass (s : State) (t : TileId) (o : EOp) : State :=
  let a := aArrStatus t
  let s := setFld s a 0 2 (if o.loaded < 64 then 1 else if o.row < o.rows then 2 else 3)
  let s := setFld (setFld s a 2 1 (if o.wide then 1 else 0)) a 8 4 o.fmtM
  let s := setFld (setFld s a 12 4 o.fmtS) a 16 12 (o.rows - o.row)
  let s := setFld s a 32 4 o.ctx.toNat
  let r := aArrRing t
  let s := setFld s r 0 2 o.ring
  if o.ring == 0 then s
  else setFld (setFld s r 16 5 o.entryCol) r 8 5 ((colOf t + 32 - o.entryCol) % 32)

/-- The stationary load goes on; once complete it is counted and its task recorded (R101). -/
def passLoad (s : State) (t : TileId) (o : EOp) : State × EOp × Nat :=
  let (s, o1, f) := if o.load == 1 && o.loaded < 64 then loadTurned s t o else loadStat 64 s t o
  if o.loaded < 64 && o1.loaded == 64 && f == 0 then
    let s := setFld (setFld s (aArrStatus t) 3 1 1) (aArrStatus t) 4 3 o.task
    let s := { s with statMeta := s.statMeta.set (fun _ => 0) t.toNat (if o.load == 1 then 1 else 0) }
    (satAdd s (aArrCount t) 32 32 1, o1, f)
  else (s, o1, f)

/-- The last output row of a pass is written: the pass is counted and DONE is signalled (R194). -/
def passEnd (s : State) (t : TileId) (o : EOp) : State :=
  let s := outRow s t { o with row := o.rows - 1 } (o.buf.headD [])
  let s := setFld (retire (showPass s t o) t 0) (aArrStatus t) 0 2 0
  opComplete (perfTile (satAdd s (aArrCount t) 0 32 1) t (some o.ctx) 2 0x10 none 1) t o

/-- A pass that has taken its last row drains behind the next one, with the cells as they are (R91). -/
def drainPass (s : State) (t : TileId) : State :=
  match (engOf s t 0).running with
  | none => s
  | some o => { setEng s t 0 ⟨none, (engOf s t 0).pend⟩ with
      drains := s.drains ++ [⟨t, o, (List.range 64).map (statImage s t), statTransposed s t⟩] }

/-- The tile's oldest pass that drains ends: its last output row is written with the cells that it was computed with (R91, R194). -/
def drainEnd (s : State) (t : TileId) : State :=
  match s.drains.find? (fun d => d.t == t) with
  | none => s
  | some d =>
    let o := d.op
    let dec := d.images.map (decodeRow o.fmtS o.blk16 o.dbl o.tabS)
    let s := outRowOf dec d.turned { s with drains := s.drains.erase d } t { o with row := o.rows - 1 } (o.buf.headD [])
    let s := if (engOf s t 0).running.isNone then setFld s (aArrStatus t) 0 2 0 else s
    opComplete (perfTile (satAdd s (aArrCount t) 0 32 1) t (some o.ctx) 2 0x10 none 1) t o

/-- Continue a pass: the rest of its load, then its rows; or, when its last row has entered, end it. -/
def passRun (s : State) (t : TileId) (o : EOp) (parity again : List Nat) : State :=
  if o.rows ≤ o.row then passEnd s t o
  else
    let (s, o1, f1) := passLoad s t o
    if f1 != 0 then opFault s t o f1
    else
      let (s, o2, f2) := if o1.loaded < 64 then (s, o1, 0) else runRows parity again o1.rows s t o1
      if f2 != 0 then opFault s t o2 f2 else progress (showPass s t o2) t 0 o2

/-- The pending pass can begin (R91, R200, R216): the pass before it, if any, has taken its last row, and the Louvre is not held by a
transfer or a chain where the pass uses it. -/
def passCanBegin (s : State) (t : TileId) (o : EOp) : Bool :=
  !(engOf s t 0).running.any (fun r => r.row < r.rows) && tileRuns s t && ctxLive s o.ctx &&
    !(usesLouvre o.fields o.b && ((engOf s t 1).running.isSome || (o.chain.isNone && engineHeld s t 1)))

/-- The array begins its pending pass, and the pass before it drains; what KEEP finds is checked (R101, R102), tables are captured,
those of a NEW_T pass at its load (R128), and the load begins: from then on the cells are the loading task's, and valid again
once it has ended (DESIGN CHOICE, log 160). At a member, `missed` beats of the ring pass its router before its first row (R201). -/
def execArrayPassBegin : PassBegin → State → Outcome State Fault Refusal
  | ⟨t, missed⟩, s => .next (
    match (engOf s t 0).pend with
    | some o =>
      if !passCanBegin s t o then s
      else
        let s := drainPass s t
        if o.load == 2 && !(statValid s t && statTask s t == o.task) then
          opFault (setEng s t 0 ⟨none, none⟩) t o cArrayParam
        else
          let o := if o.load == 1 then o else o.captured s t
          let o := { o with loaded := if o.load == 2 then 64 else 0 }
          let s := if o.load == 2 then s else setFld (setFld s (aArrStatus t) 3 1 0) (aArrStatus t) 4 3 o.task
          let s := ringExpire s (ringOf t)
          let s := if o.ring == 2 then (List.range missed).foldl (fun s _ => reach s t false) s else s
          showPass (setEng s t 0 ⟨some o, none⟩) t o
    | none => s)

/-- A router further on finds a parity error on a ring beat: its poison bit is set from there on (R231). -/
def ringFault (s : State) (x : Nat × TileId) : State :=
  match s.ringBeats[x.1]? with
  | some b => match b.sides x.2 with
    | some _ => { parityAt b.ctx s x.2 with ringBeats := s.ringBeats.set x.1 { b with poison := min b.poison (hopsEast b.entry x.2) } }
    | none => s
  | none => s

/-- A ring beat meets another beat at a router's output: the lower-ranked of the two is lost (R229). -/
def ringMeets (s : State) (x : Nat × Meeting) : State := (meet s (.ring x.1) x.2).1

/-- A pass that drains ends first; the running pass goes on as far as its operands allow, and once its last row has entered, its
last output row ends it. At a member, `parity` lists the beats on which the router finds a parity error (R231), `again` those in
whose cycle none arrived (R230); `faults` and `meets` are of the ring beats under way. -/
def execArrayPassComplete : PassReport → State → Outcome State Fault Refusal
  | ⟨t, parity, again, faults, meets⟩, s => .next (
    let s := if tileRuns s t then (meets.toList.foldl ringMeets (faults.foldl ringFault s)) else s
    let s := if tileRuns s t && s.drains.any (fun d => d.t == t && ctxLive s d.op.ctx) then drainEnd s t else s
    match (engOf s t 0).running with
    | some o => if tileRuns s t && ctxLive s o.ctx then passRun (ringExpire s (ringOf t)) t o parity again else s
    | none => s)

end Sys2Proof.Machine
end

