-- ==== Sys2Proof/Machine/Louvre.lean ====
section
/-! DEFINITION. Louvre transfers (R152 to R159, R202): tiles transposed into the scratchpad or a tile queue. -/

namespace Sys2Proof.Machine

open Host (Outcome)

def EOp.lvFmt (o : EOp) : Fmt := o.fields / 2 ^ 24 % 16
def EOp.lvDbl (o : EOp) : Bool := o.fields / 2 ^ 23 % 2 == 1
def EOp.lvTiles (o : EOp) : Nat := o.fields / 2 ^ 7 % 2 ^ 16 + 1

/-- Bytes of one row or beat of a tile: 64, or the 128 of two beats of a 16-bit row (R153, R202). -/
def lvSize (f : Fmt) : Nat := if fmtBits f == 16 then 128 else 64

/-- The checks of a transfer (R145, R153, R155, R156, R191, R202). -/
def lvCheck (s : State) (t : TileId) (o : EOp) : Option Nat :=
  let f := o.lvFmt
  let len := o.lvTiles * 64 * lvSize f
  firstFail [
    need (fmtUsed f) cFmtParam,
    locCheck s t o.task [0, 2] (f == 10) len 0 o.d,
    locCheck s t o.task [0, 2] (f == 10) len 0 o.a,
    need (f != 10 && !(o.lvDbl && fmtBits f != 4) && !fmtMicro f) cLayoutParam]

/-- LVR (R202). -/
def execLvr (t : TileId) (h : ThreadId) (s : State) : Outcome State Fault Refusal :=
  .next (issue s t h (isMajor 0x26) fun x s =>
    let o := opOf x s 0 (eDone x.w) (x.g s (eRd x.w)) (x.g s (eRa x.w)) 0 0
    x.check s (lvCheck s t o) fun s =>
      if placeFree s t 1 then x.next (acceptOp s t 1 o) else x.wait)

/-- The codes of row r of a tile's images. -/
def tileCodes (f : Fmt) (n : Nat) (imgs : List (List Byte)) : List (List Nat) :=
  imgs.map (fun b => unpackCodes (fmtBits f) n (b.take (n * fmtBits f / 8)))

/-- Output row or beat j of a tile: row j of the transpose, or for the double-depth shape its rows 2j and 2j + 1
(R152, R153). -/
def lvOut (f : Fmt) (dbl : Bool) (imgs : List (List Byte)) (j : Nat) : List Byte :=
  let n := rowElems dbl
  let codes := tileCodes f n imgs
  let col (i : Nat) : List Nat := codes.map (fun r => r.getD i 0)
  let raw := packCodes (fmtBits f) (if dbl then col (2 * j) ++ col (2 * j + 1) else col j)
  raw ++ List.replicate (lvSize f - raw.length) 0

/-- What a transfer passes through the Louvre. -/
def EOp.lvIn (o : EOp) : LvIn :=
  ⟨false, o.a, lvSize o.lvFmt, o.lvTiles, lvShape o.lvFmt o.lvDbl, if locKind o.d == 0 then 2 else 3⟩

/-- Input of the running transfer, unless a pass holds the Louvre (R200); once its last tile has entered, the next transfer
takes its place. -/
def lvInput (s : State) (t : TileId) : State :=
  match (engOf s t 1).running with
  | none => s
  | some o =>
    if arrayHolds s t || !ctxLive s o.ctx then s
    else
      let (s, o', f) := lvIn t o.lvIn lvFuel s o
      if f != 0 then opFault s t o f
      else if o.lvTiles ≤ o'.minor && (lvOf s t).all (fun x => x.imgs.length == 64) then retire s t 1
      else if o' == o then s else progress s t 1 o'

/-- Write the rows of a tile of a transfer, while the destination takes them. -/
def lvEmit : Nat → State → TileId → LvTile → State × LvTile
  | 0, s, _, x => (s, x)
  | f + 1, s, t, x =>
    if x.out ≥ 64 then (s, x)
    else
      let o := x.op
      let bytes := lvOut o.lvFmt o.lvDbl (x.imgs.map (fun i => i.1)) x.out
      let poison := x.imgs.any (fun i => !i.2.isEmpty)
      match putRow s t o.task o.d (x.idx * 64 + x.out) (lvSize o.lvFmt) bytes poison o.ser with
      | none => (s, x)
      | some s => lvEmit f s t { x with out := x.out + 1 }

/-- Output of the oldest tile, when it is a transfer's and whole; after its operation's last tile the transfer is complete. -/
def lvOutput (s : State) (t : TileId) : State :=
  match lvFront s t false with
  | none => s
  | some x =>
    if !ctxLive s x.op.ctx then s
    else
      let (s, y) := lvEmit 64 s t x
      let s := if y.out == x.out then s else bump s (engineCode (.louvre t))
      if y.out < 64 then (if y.out == x.out then s else setLv s t (y :: (lvOf s t).drop 1))
      else
        let s := tileOut s t
        if x.final then opComplete s t x.op else s

/-- Transfers go on, input and output in turn, as long as something moves. -/
def lvRun : Nat → State → TileId → State
  | 0, s, _ => s
  | f + 1, s, t =>
    let s' := lvOutput (lvInput s t) t
    if lvOf s' t == lvOf s t && engOf s' t 1 == engOf s t 1 then s' else lvRun f s' t

/-- The transfers of a tile go on as far as their sources, buffers and destinations allow; the last beat written ends one
(R194). -/
def execLouvreTransferComplete (t : TileId) (s : State) : Outcome State Fault Refusal :=
  .next (if tileRuns s t then
      lvRun (2 * ((engOf s t 1).running.elim 0 EOp.lvTiles + (engOf s t 1).pend.elim 0 EOp.lvTiles) + 8) s t
    else s)

end Sys2Proof.Machine
end

