-- ==== Sys2Proof/Machine/Curves.lean ====
section
/-! DEFINITION. The standard curves of R82: the exact functions in fixed point with 256 fraction bits, rounded to FP32 at the
segment ends, and the Hermite coefficients in binary64 rounded to FP32. -/

namespace Sys2Proof.Machine

/-- Fraction bits of the fixed-point values. -/
def fxP : Nat := 256

def fxOne : Int := 2 ^ fxP
def fxMul (a b : Int) : Int := a * b / 2 ^ fxP
def fxDiv (a b : Int) : Int := a * 2 ^ fxP / b
/-- p/q as a fixed-point value. -/
def fxRat (p q : Int) : Int := p * 2 ^ fxP / q

/-- Σ y^k / k! from term k on. -/
def expTerms (y : Int) : Nat → Nat → Int → Int
  | 0, _, _ => 0
  | f + 1, k, term => term + expTerms y f (k + 1) (fxMul term y / (k + 1))

def squareTimes : Nat → Int → Int
  | 0, v => v
  | n + 1, v => squareTimes n (fxMul v v)

/-- e^x: the series at x / 256, squared eight times. -/
def fxExp (x : Int) : Int := squareTimes 8 (expTerms (x / 256) 60 0 fxOne)

/-- Σ sign^k z^(2k+1) / (2k+1): atan (sign −1) or atanh (sign 1). -/
def atanTerms (sign z2 : Int) : Nat → Nat → Int → Int
  | 0, _, _ => 0
  | f + 1, k, p => p / (2 * k + 1) + atanTerms sign z2 f (k + 1) (sign * fxMul p z2)

def fxAtan (z : Int) : Int := atanTerms (-1) (fxMul z z) 130 0 z
def fxAtanh (z : Int) : Int := atanTerms 1 (fxMul z z) 180 0 z

def fxPi : Int := 16 * fxAtan (fxRat 1 5) - 4 * fxAtan (fxRat 1 239)
def fxSqrt (v : Int) : Int := isqrt (v.toNat * 2 ^ fxP)
def fxLn2 : Int := 2 * fxAtanh (fxRat 1 3)

/-- ln y for y ≥ 1. -/
def fxLn (y : Int) : Int :=
  let k := Nat.log2 y.toNat - fxP
  let m := y / 2 ^ k
  k * fxLn2 + 2 * fxAtanh (fxDiv (m - fxOne) (m + fxOne))

/-- Σ (−1)^n x^(2n+1) / (n! (2n+1)). -/
def erfTerms (x2 : Int) : Nat → Nat → Int → Int
  | 0, _, _ => 0
  | f + 1, n, p => p / (2 * n + 1) + erfTerms x2 f (n + 1) (-(fxMul p x2) / (n + 1))

def fxErf (x : Int) : Int := fxDiv (2 * erfTerms (fxMul x x) 220 0 x) (fxSqrt fxPi)

def fxSigmoid (x : Int) : Int := fxDiv fxOne (fxOne + fxExp (-x))
def fxTanh (x : Int) : Int := let e := fxExp (2 * x); fxDiv (e - fxOne) (e + fxOne)

/-- The function of a standard slot and its derivative (R82). The tanh form of GELU takes its usual constant 0.044715
(PRESUMED: the manual names the form and no constant; log entry 14). -/
def stdFun (slot : Nat) (x : Int) : Int × Int :=
  match slot with
  | 0 =>
    let c := (fxOne + fxErf (fxDiv x (fxSqrt (2 * fxOne)))) / 2
    (fxMul x c, c + fxMul x (fxDiv (fxExp (-(fxMul x x) / 2)) (fxSqrt (2 * fxPi))))
  | 1 =>
    let g := fxSqrt (fxDiv (2 * fxOne) fxPi)
    let a := fxRat 44715 1000000
    let x2 := fxMul x x
    let th := fxTanh (fxMul g (x + fxMul a (fxMul x2 x)))
    let d := fxMul g (fxOne + 3 * fxMul a x2)
    (fxMul x (fxOne + th) / 2, (fxOne + th) / 2 + fxMul (fxMul x (fxOne - fxMul th th)) d / 2)
  | 2 => let g := fxSigmoid x; (fxMul x g, g + fxMul x (fxMul g (fxOne - g)))
  | 3 => let g := fxSigmoid x; (g, fxMul g (fxOne - g))
  | 4 => let g := fxTanh x; (g, fxOne - fxMul g g)
  | 5 => let g := fxExp x; (g, g)
  | 6 => (fxLn (fxOne + fxExp x), fxSigmoid x)
  | _ => (fxErf x, fxDiv (2 * fxExp (-(fxMul x x))) (fxSqrt fxPi))

/-- XMIN, XMAX and SCALE of a standard slot, and its tails LA, LB, RA, RB (R82). -/
def stdShape (slot : Nat) : Int × Int × Int × List Int :=
  match slot with
  | 0 => (-8, 8, 4, [0, 0, 1, 0])
  | 1 => (-8, 8, 4, [0, 0, 1, 0])
  | 2 => (-16, 16, 2, [0, 0, 1, 0])
  | 3 => (-16, 16, 2, [0, 0, 0, 1])
  | 4 => (-8, 8, 4, [0, -1, 0, 1])
  | 5 => (-32, 0, 2, [0, 0, 0, 1])
  | 6 => (-16, 16, 2, [0, 0, 1, 0])
  | _ => (-4, 4, 8, [0, -1, 0, 1])

/-- A fixed-point value rounded to FP32, as an exact value. -/
def fxF32 (v : Int) : Num := ofF32 (toF32 (.fin (decide (v < 0)) v.natAbs (-(fxP : Int))))

/-- Rounding to binary64. -/
def r64 : Num → Num
  | .fin s m e => let q := quantum 53 (-1074) m e; .fin s (rneUnits m e q) q
  | x => x

def add64 (x y : Num) : Num := r64 (x.add y)
def mul64 (x y : Num) : Num := r64 (x.mul y)
def negNum : Num → Num
  | .fin s m e => .fin (!s) m e
  | x => x
def sub64 (x y : Num) : Num := add64 x (negNum y)
def numInt (i : Int) : Num := .fin (decide (i < 0)) i.natAbs 0

/-- The coefficients of segment i (R82). -/
def stdSegment (slot i : Nat) : List F32 :=
  let (lo, hi, _, _) := stdShape slot
  let h := (hi - lo)                       -- 64 h
  let at' (k : Nat) : Int := fxRat (64 * lo + h * k) 64
  let (fa, da) := stdFun slot (at' i)
  let (fb, db) := stdFun slot (at' (i + 1))
  let (fa, da, fb, db) := (fxF32 fa, fxF32 da, fxF32 fb, fxF32 db)
  let hN : Num := .fin false h.natAbs (-6)
  let c1 := mul64 hN da
  let c2 := sub64 (mul64 (numInt 3) (sub64 fb fa)) (mul64 hN (add64 (mul64 (numInt 2) da) db))
  let c3 := add64 (mul64 (numInt 2) (sub64 fa fb)) (mul64 hN (add64 da db))
  [toF32 fa, toF32 c1, toF32 c2, toF32 c3]

/-- The table of a standard slot, as R79 lays it out in words. -/
def stdCurve (slot : Nat) : Curve :=
  let (lo, hi, sc, tails) := stdShape slot
  [f32OfInt lo, f32OfInt hi, f32OfInt sc] ++ tails.map f32OfInt ++ [0#32] ++
    ((List.range 64).map (stdSegment slot)).flatten

end Sys2Proof.Machine
end

