-- ==== Sys2Proof/Machine/Vector.lean ====
section
/-! DEFINITION. Vector operations (R203 to R206, R295, R296), and the loads of curve and table slots (R78, R126, R207). -/

namespace Sys2Proof.Machine

open Host (Outcome)

/-! ## Parameters (R203) -/

def EOp.vFmtD (o : EOp) : Fmt := o.fields / 2 ^ 24 % 16
def EOp.vFmtS (o : EOp) : Fmt := o.fields / 2 ^ 20 % 16
def EOp.vRnd (o : EOp) : Nat := o.fields / 2 ^ 18 % 4
def EOp.vSlot (o : EOp) : Nat := o.fields / 2 ^ 14 % 16
def EOp.vRows (o : EOp) : Nat := o.fields / 2 ^ 6 % 256 + 1
def EOp.vBlk16 (o : EOp) : Bool := o.fields / 32 % 2 == 1

/-- The sources that a minor reads as rows: b, then c (R203, R205, R296). -/
def vUsesB (m : Nat) : Bool := m ≤ 4 || m == 7 || m == 11
def vUsesC (m : Nat) : Bool := m == 0

/-- The destination holds one FP32 or one 8 B word per row, and lies in SP (R204, R296). -/
def vNarrow (m : Nat) : Bool := m == 8 || m == 9 || m == 10 || m == 14

/-- Bytes of a destination row. -/
def EOp.vDestSize (o : EOp) : Nat :=
  if o.minor == 8 || o.minor == 9 then 4
  else if o.minor == 10 || o.minor == 14 then 8
  else imgSize o.vFmtD false

/-- The keep threshold of R296: min(floor(k × 2³²), 2³²). -/
def keepQ (k : F32) : Nat :=
  match ofF32 k with
  | .fin false m e => min (floorUnits m (e + 32) 0) (2 ^ 32)
  | _ => 0

/-- A k that is NaN, not above 0, or above 1 is refused (R296). -/
def keepOk (k : F32) : Bool :=
  match ofF32 k with
  | .fin false m e => m != 0 && !(Num.lt (.fin false 1 0) (.fin false m e))
  | _ => false

/-- A format of a vector operand: used, and not a table format (R204). -/
def vFmtOk (f : Fmt) : Bool := fmtUsed f && !fmtTable f

/-- The checks of R204 after the encoding, in their order. -/
def vecCheck (s : State) (t : TileId) (o : EOp) : Option Nat :=
  let m := o.minor
  let srcLen := o.vRows * imgSize o.vFmtS false
  let src (v : Word64) : Option Nat := locCheck s t o.task [0, 1, 2, 3] (o.vFmtS == 10) srcLen o.vRows v
  firstFail [
    need (vFmtOk o.vFmtD && vFmtOk o.vFmtS) cFmtParam,
    need (o.vRnd < 2 || m == 5) cEngineParam,
    need (!(m == 8 || m == 9) || o.vFmtD == 10) cEngineParam,
    need (m != 14 || (o.vFmtD == 0 && o.vFmtS == 0 && o.vRnd == 0 && o.vSlot == 0)) cEngineParam,
    need (!(m == 14 && locKind o.a == 3) || keepOk (BitVec.ofNat 32 (locAddr o.a))) cEngineParam,
    locCheck s t o.task (if vNarrow m then [0] else [0, 1, 2]) (o.vFmtD == 10 && !vNarrow m)
      (o.vRows * o.vDestSize) o.vRows o.d,
    if m == 14 then locCheck s t o.task [3] false 0 0 o.a else src o.a,
    if m == 11 then locCheck s t o.task [0] false (8 * o.vRows) 0 o.b else if vUsesB m then src o.b else none,
    if vUsesC m then src o.c else none,
    if m == 6 || m == 7 then need (curveOk s t o.ctx o.vSlot) cCurveOwner else none]

/-- The curve an operation captures (R206). -/
def curveOf (s : State) (t : TileId) (slot : Nat) : Curve :=
  if slot < 8 then stdCurve slot
  else (List.range 264).map (fun w => s.curves.get (fun _ => 0) (curveKey t slot w))

/-- The operation of a VEC word with its captures. -/
def vecOp (x : Iss) (s : State) : EOp :=
  let o := opOf x s (eMinor x.w) (eDone x.w) (x.g s (eRd x.w)) (x.g s (eRa x.w)) (x.g s (eRb x.w)) (x.g s (eRc x.w))
  let o := { o with acc := false, ring := 0 }
  if o.minor == 6 || o.minor == 7 then { o with tabM := curveOf s x.t o.vSlot } else o

/-- Issue of a VEC instruction of one minor (R203, R204, R193). -/
def vec (t : TileId) (h : ThreadId) (minor : Nat) (s : State) : State :=
  issue s t h (isEng 0x28 minor) fun x s =>
    let o := vecOp x s
    x.check s (vecCheck s t o) fun s =>
      if placeFree s t 2 then x.next (acceptOp s t 2 o) else x.wait

/-- FMA (R203, R204). -/
def execFma (t : TileId) (h : ThreadId) (s : State) : Outcome State Fault Refusal := .next (vec t h 0 s)
/-- ADD (R203, R204). -/
def execAdd (t : TileId) (h : ThreadId) (s : State) : Outcome State Fault Refusal := .next (vec t h 1 s)
/-- MUL (R203, R204). -/
def execMul (t : TileId) (h : ThreadId) (s : State) : Outcome State Fault Refusal := .next (vec t h 2 s)
/-- MIN (R203, R204). -/
def execMin (t : TileId) (h : ThreadId) (s : State) : Outcome State Fault Refusal := .next (vec t h 3 s)
/-- MAX (R203, R204). -/
def execMax (t : TileId) (h : ThreadId) (s : State) : Outcome State Fault Refusal := .next (vec t h 4 s)
/-- CVT (R205). -/
def execCvt (t : TileId) (h : ThreadId) (s : State) : Outcome State Fault Refusal := .next (vec t h 5 s)
/-- CURVE (R80, R206). -/
def execCurve (t : TileId) (h : ThreadId) (s : State) : Outcome State Fault Refusal := .next (vec t h 6 s)
/-- DCURVE (R80, R206). -/
def execDcurve (t : TileId) (h : ThreadId) (s : State) : Outcome State Fault Refusal := .next (vec t h 7 s)
/-- RSUM (R76). -/
def execRsum (t : TileId) (h : ThreadId) (s : State) : Outcome State Fault Refusal := .next (vec t h 8 s)
/-- RMAX (R204). -/
def execRmax (t : TileId) (h : ThreadId) (s : State) : Outcome State Fault Refusal := .next (vec t h 9 s)
/-- SIGN (R77). -/
def execSign (t : TileId) (h : ThreadId) (s : State) : Outcome State Fault Refusal := .next (vec t h 10 s)
/-- MASK (R204). -/
def execMask (t : TileId) (h : ThreadId) (s : State) : Outcome State Fault Refusal := .next (vec t h 11 s)
/-- RCP (R295). -/
def execRcp (t : TileId) (h : ThreadId) (s : State) : Outcome State Fault Refusal := .next (vec t h 12 s)
/-- RSQRT (R295). -/
def execRsqrt (t : TileId) (h : ThreadId) (s : State) : Outcome State Fault Refusal := .next (vec t h 13 s)
/-- DROPMASK (R296). -/
def execDropmask (t : TileId) (h : ThreadId) (s : State) : Outcome State Fault Refusal := .next (vec t h 14 s)

/-! ## Rows -/

/-- A source row: its 64 values, its mark and its poisoned elements. -/
structure VRow where
  xs : List Num
  mark : Nat
  bad : Nat

/-- Read row r of a source in the format of SP and QUEUE operands, a microscaled element beyond the FP32 range as an infinity
(R123); none where its queue holds no slot, or its data has not arrived (R72, R191, R204). -/
def vSource (s : State) (t : TileId) (o : EOp) (loc : Word64) : Option (State × VRow) :=
  match locKind loc with
  | 1 => some (s, ⟨(accRow s t (taskAbase s t o.task * 64 + locAddr loc + o.row)).map ofF32, 0, 0⟩)
  | 3 => some (s, ⟨List.replicate 64 (ofF32 (BitVec.ofNat 32 (locAddr loc))), 0, 0⟩)
  | _ => match takeRow s t o.task loc o.row (imgSize o.vFmtS false) with
    | none => none
    | some (s, p) =>
      let xs := decodeRow o.vFmtS o.vBlk16 false [] p.bytes
      some (s, ⟨if fmtMicro o.vFmtS then xs.map (fun x => ofF32 (toF32 x)) else xs, p.mark, badCount o.vFmtS o.vBlk16 false p.badG 64⟩)

/-- The 8 B mask word of row r: the b operand of MASK, with its mark (R204). -/
def vMaskWord (s : State) (t : TileId) (o : EOp) : State × Nat × Nat :=
  match spPhys s t o.task (locAddr o.b + 8 * o.row) 8 with
  | some pa => let (s, p) := readPiece s t pa 8; (s, natOf p.bytes, p.mark)
  | none => (s, 0, 0)

/-- Operation in BF16 arithmetic: both formats BF16 and a minor of 0 to 4 (R204). -/
def EOp.vBf16 (o : EOp) : Bool := o.vFmtD == 8 && o.vFmtS == 8 && o.minor ≤ 4

/-- Round an exact result to FP32 on its way to a narrower format, a finite overflow by RND's column (R129, R130). The format
itself then counts the saturation: in each, the largest FP32 value saturates again. An infinite result is none that overflows: it
reaches the format as an infinity (R131, R139). -/
def EOp.vRound (o : EOp) (x : Num) : Num :=
  match x with
  | .inf n => .inf n
  | x => ofF32 (BitVec.ofNat 32 (convFloat 10 ⟨o.vRnd, 0⟩ x).code)

/-- One element of a row result, as an exact value: rounded to FP32 first but in BF16 arithmetic, and for an FP32 destination,
where the conversion under RND is that rounding (R129, R130, R204, R295). -/
def vElem (o : EOp) (a b c : Num) (maskBit : Bool) : Num :=
  let r (x : Num) : Num := if o.vBf16 || o.vFmtD == 10 then x else o.vRound x
  match o.minor with
  | 0 => r ((a.mul b).add c)
  | 1 => r (a.add b)
  | 2 => r (a.mul b)
  | 3 => r (numMin a b)
  | 4 => r (numMax a b)
  | 5 => a
  | 6 => ofF32 (evalCurve o.tabM (toF32 a))
  | 7 => r ((ofF32 (evalDcurve o.tabM (toF32 a))).mul (ofF32 (toF32 b)))
  | 11 => if maskBit then a else Num.zero
  | 12 => r (numRcp a)
  | _ => r (numRsqrt a)

/-- Random bits of lane j of the running row (R134, R205). -/
def vBits (o : EOp) (j : Nat) : Nat :=
  (srBits (BitVec.ofNat 32 o.b.toNat) (o.c + BitVec.ofNat 64 (64 * o.row + j)) o.step o.seed).toNat % 2 ^ 32

/-- The bytes of the one-word results: RSUM, RMAX, SIGN and DROPMASK. -/
def vNarrowBytes (o : EOp) (xs : List Num) : List Byte :=
  let bits (p : Nat → Bool) : Nat := (List.range 64).foldl (fun a j => if p j then a + 2 ^ j else a) 0
  match o.minor with
  | 8 => bytesOf (laneSum (xs.map toF32)).toNat 4
  | 9 => bytesOf (toF32 (xs.tail.foldl numMax (xs.headD .zero))).toNat 4
  | 10 => bytesOf (bits (fun j => Num.lt .zero (xs.getD j .zero))) 8
  | _ => bytesOf (bits (fun j => decide (vBits o j < keepQ (BitVec.ofNat 32 (locAddr o.a))))) 8

/-- Count a row's conversion (R139) and its events (R448). -/
def vCount (s : State) (t : TileId) (o : EOp) (rc : RowConv) : State :=
  let a := aConv t
  let s := satAdd (satAdd (satAdd s a 0 24 rc.sat) a 24 24 rc.nan) a 48 16 rc.clamp
  let ev (s : State) (e n : Nat) : State := if n == 0 then s else perfTile s t (some o.ctx) 3 e none n
  ev (ev (ev s 0x11 rc.sat) 0x12 rc.nan) 0x13 rc.clamp

/-- Write a result row; none where a queue has no free slot. -/
def vDest (s : State) (t : TileId) (o : EOp) (rc : RowConv) (poison : Bool) : Option State :=
  match locKind o.d with
  | 1 => some (accSetRow s t (taskAbase s t o.task * 64 + locAddr o.d + o.row) (rc.vals.map toF32))
  | _ => putRow s t o.task o.d o.row o.vDestSize rc.bytes poison o.ser

/-- The next row's sources; a source not used reads zeros. None where one of them, or MASK's word, is not there (R72). -/
def vFetch (s : State) (t : TileId) (o : EOp) : Option (State × VRow × VRow × VRow) :=
  let nil : VRow := ⟨List.replicate 64 .zero, 0, 0⟩
  let get (s : State) (used : Bool) (loc : Word64) : Option (State × VRow) :=
    if used then vSource s t o loc else some (s, nil)
  if o.minor == 11 && absentIn s t o.task (locAddr o.b + 8 * o.row) 8 none then none
  else match get s (o.minor != 14) o.a with
  | none => none
  | some (s, ra) => match get s (vUsesB o.minor && o.minor != 11) o.b with
    | none => none
    | some (s, rb) => match get s (vUsesC o.minor) o.c with
      | none => none
      | some (s, rc) => some (s, ra, rb, rc)

/-- The converted result of a row. -/
def vResult (o : EOp) (ra rb rc : VRow) (mask : Nat) : RowConv :=
  if vNarrow o.minor then ⟨vNarrowBytes o ra.xs, [], 0, 0, 0⟩
  else
    let xs := (List.range 64).map (fun j =>
      vElem o (ra.xs.getD j .zero) (rb.xs.getD j .zero) (rc.xs.getD j .zero) ((mask >>> j) % 2 == 1))
    encodeRow o.vFmtD o.vBlk16 o.vRnd (vBits o) xs

/-- Rows of the running operation while their operands and their destination slots are there; at the last row it is
complete. In normal service a marked source faults (R63). -/
def vRun : Nat → State → TileId → EOp → State
  | 0, s, t, o => progress s t 2 o
  | f + 1, s, t, o =>
    if o.row ≥ o.vRows then opComplete (retire s t 2) t o
    else match vFetch s t o with
      | none => progress s t 2 o
      | some (s', ra, rb, rc) =>
        let (s', word, wm) := if o.minor == 11 then vMaskWord s' t o else (s', 0, 0)
        let marks := [ra.mark, rb.mark, rc.mark, wm]
        let mark := if marks.contains 2 then 2 else if marks.contains 1 then 1 else 0
        if isNormal s && mark != 0 then opFault s' t o (markCause mark)
        else
          let bad := ra.bad + rb.bad + rc.bad + (if wm != 0 then 64 else 0)
          let r := vResult o ra rb rc word
          match vDest s' t o r (mark != 0) with
          | none => progress s t 2 o
          | some s' =>
            let s' := perfTile (vCount s' t o r) t (some o.ctx) 3 0x10 none 1
            let s' := if bad == 0 then s' else perfTile (satAdd s' (aPoison t) 16 16 bad) t (some o.ctx) 3 0x14 none bad
            vRun f s' t { o with row := o.row + 1 }

/-- The running vector operation goes on as far as its operands allow; its last result row ends it (R193, R194). -/
def execVectorOpComplete (t : TileId) (s : State) : Outcome State Fault Refusal :=
  .next (match (engOf s t 2).running with
    | some o => if tileRuns s t && ctxLive s o.ctx then vRun (o.vRows + 1) s t o else s
    | none => s)

/-! ## Curve and table loads (R78, R126, R207) -/

/-- The FP32 words of a scratchpad range. -/
def wordsAt (bs : List Byte) (n : Nat) : List F32 := (List.range n).map (fun i => BitVec.ofNat 32 (fieldAt bs (4 * i) 4))

/-- Read the n FP32 words that a load takes, with the mark that faults it in normal service; outside it the poisoned words are
counted (R63). -/
def loadWords (s : State) (t : TileId) (c : CtxId) (pa n : Nat) : State × Nat × List F32 :=
  let (s, p) := readPiece s t pa (4 * n)
  if isNormal s then (s, p.mark, wordsAt p.bytes n)
  else
    let bad := badCount 10 false false p.badG n
    (if bad == 0 then s else perfTile (satAdd s (aPoison t) 16 16 bad) t (some c) 3 0x14 none bad, 0, wordsAt p.bytes n)

/-- CURVE_LOAD: the slot is taken in the issue cycle where it is free; the curve is there from the completion. The thread waits for
streamed data of the source (R72). -/
def execCurveLoad (t : TileId) (h : ThreadId) (s : State) : Outcome State Fault Refusal :=
  .next (issue s t h (isEng 0x2A 0) fun x s =>
    let slot := eF x.w 0 4
    let loc := x.g s (eRa x.w)
    x.check s (firstFail [
      need (8 ≤ slot) cEngineParam,
      locCheck s t x.k [0] false 1056 0 loc,
      need (!curveOwned s t slot || curveCtx s t slot == x.n) cCurveOwner]) fun s =>
      if absentIn s t x.k (locAddr loc) 1056 none then x.wait else
      let (s, mark, words) := loadWords s t x.n ((spPhys s t x.k (locAddr loc) 1056).getD 0) 264
      x.check s (firstFail [need (mark == 0) (markCause mark), need (!curveBad words) cCurveBad]) fun s =>
        let s := { s with
          curveOwned := s.curveOwned.set (fun _ => false) (t.toNat * 16 + slot) true,
          vloads := s.vloads ++ [⟨t, x.n, slot, false, false, words⟩] }
        x.next (setFld s (aCurve t slot) 4 4 x.n.toNat))

/-- TABLE_LOAD: 16 entries of a T4 table or 64 of a T6 table; the thread waits for streamed data of the source (R72). -/
def execTableLoad (t : TileId) (h : ThreadId) (s : State) : Outcome State Fault Refusal :=
  .next (issue s t h (isEng 0x2A 1) fun x s =>
    let slot := eF x.w 0 4
    let six := eF x.w 4 1 == 1
    let len := if six then 256 else 64
    let loc := x.g s (eRa x.w)
    x.check s (firstFail [
      need (8 ≤ slot) cFmtParam,
      need (locKind loc == 0 && locBitsOk loc) cEngineParam,
      need (locAddr loc % 64 == 0) cFmtParam,
      locCheck s t x.k [0] false len 0 loc]) fun s =>
      if absentIn s t x.k (locAddr loc) len none then x.wait else
      let (s, mark, words) := loadWords s t x.n ((spPhys s t x.k (locAddr loc) len).getD 0) (len / 4)
      x.check s (need (mark == 0) (markCause mark)) fun s =>
        x.next { s with vloads := s.vloads ++ [⟨t, x.n, slot, true, six, words⟩] })

/-- Remove the first load that `p` selects. -/
def dropVLoad (p : VLoad → Bool) : List VLoad → List VLoad
  | [] => []
  | l :: r => if p l then r else l :: dropVLoad p r

/-- Put words at consecutive keys. -/
def putWords (m : SMap F32) (key : Nat → Nat) (ws : List F32) : SMap F32 :=
  (ws.zipIdx).foldl (fun m e => m.set (fun _ => 0) (key e.2) e.1) m

/-- A curve load completes: the slot holds the new curve (R207). -/
def execCurveLoadComplete (t : TileId) (slot : BitVec 4) (s : State) : Outcome State Fault Refusal :=
  .next (
    let mine (l : VLoad) : Bool := l.t == t && !l.table && l.slot == slot.toNat
    match s.vloads.find? mine with
    | none => s
    | some l =>
      if !tileRuns s t then s
      else setFld { s with
        vloads := dropVLoad mine s.vloads,
        curves := putWords s.curves (curveKey t l.slot) l.words } (aCurve t l.slot) 0 1 1)

/-- A table load completes: the context's slot holds the new table and its kind (R126, R128). -/
def execTableLoadComplete (t : TileId) (n : CtxId) (slot : BitVec 4) (s : State) : Outcome State Fault Refusal :=
  .next (
    let mine (l : VLoad) : Bool := l.t == t && l.table && l.ctx == n && l.slot == slot.toNat
    match s.vloads.find? mine with
    | none => s
    | some l =>
      if !tileRuns s t then s
      else
        let s := { s with
          vloads := dropVLoad mine s.vloads,
          tables := putWords s.tables (tblKey t n l.slot) l.words }
        setFld (setFld s (aTbl t n) (l.slot - 8) 1 1) (aTbl t n) (8 + (l.slot - 8)) 1 (if l.kind then 1 else 0))

end Sys2Proof.Machine
end

