-- ==== Sys2Proof/Machine/Chain.lean ====
section
/-! DEFINITION. Chains (R213 to R220) and commands from code (R221, R222). -/

namespace Sys2Proof.Machine

open Host (Outcome)

/-! ## The check of a descriptor (R214, R218, R219) -/

/-- Bytes lo to hi − 1 of a descriptor are zero. -/
def zeroBytes (d : List Byte) (lo hi : Nat) : Bool := ((d.drop lo).take (hi - lo)).all (· == 0)

/-- Reserved bits of the header and the stages. -/
def chReserved (d : List Byte) : Bool :=
  fieldAt d 0 1 / 16 == 0 && fieldAt d 1 1 / 64 == 0 && zeroBytes d 2 4 && zeroBytes d 8 64 &&
    (chList d).all (fun st => chField d st 0 1 / 16 == 0 && chField d st 1 1 / 64 == 0 && chField d st 2 1 / 64 == 0 &&
      chField d st 3 1 / 128 == 0 && chField d st 15 1 / 16 == 0 && zeroBytes d (64 + 64 * st + 62) (64 + 64 * st + 64) &&
      (chEngine d st == 2 || chFields d st % 32 == 0))

/-- The queue a locator names. -/
def locQueue (v : Word64) : List Nat := if locKind v == 2 || locKind v == 5 then [locAddr v] else []

/-- The queue at the endpoint of the stream descriptor that a stage names. -/
def strmQueue (s : State) (t : TileId) (k : Nat) (loc : Word64) : List Nat :=
  match spPhys s t k (locAddr loc) 64 with
  | some pa => locQueue (BitVec.ofNat 64 (fieldAt (spRead s t pa 64) 8 8))
  | none => []

/-- The queues that a stage writes, and those that it reads. -/
def chProduces (s : State) (t : TileId) (k : Nat) (d : List Byte) (st : Nat) : List Nat :=
  match chEngine d st with
  | 0 => strmQueue s t k (chLoc d st 1)
  | 1 | 3 => locQueue (chLoc d st 0)
  | _ => []

def chConsumes (s : State) (t : TileId) (k : Nat) (d : List Byte) (st : Nat) : List Nat :=
  let f := chFields d st
  match chEngine d st with
  | 1 => locQueue (chLoc d st 1)
  | 2 => (if f / 2 ^ 25 % 4 == 2 then [] else locQueue (chLoc d st 1)) ++ locQueue (chLoc d st 2)
  | 3 => let m := chMinor d st
    (if m == 14 then [] else locQueue (chLoc d st 1)) ++ (if vUsesB m then locQueue (chLoc d st 2) else []) ++
      (if vUsesC m then locQueue (chLoc d st 3) else [])
  | 4 => strmQueue s t k (chLoc d st 1)
  | _ => []

/-- Every queue of the chain has one producing and one consuming stage. -/
def chQueuesOk (s : State) (t : TileId) (k : Nat) (d : List Byte) : Bool :=
  (List.range 16).all (fun q =>
    let p := ((chList d).filter (fun st => (chProduces s t k d st).contains q)).length
    let c := ((chList d).filter (fun st => (chConsumes s t k d st).contains q)).length
    (p == 0 && c == 0) || (p == 1 && c == 1))

/-- The steps that R214 wants 0 are 0: those of a locator used whose kind is not SP, ACC or LOUVRE_SP, and that of the LOC_B
of CVT and DROPMASK. -/
def chStepsOk (d : List Byte) (st : Nat) : Bool :=
  let m := chMinor d st
  let e := chEngine d st
  let values := e == 3 && (m == 5 || m == 14)
  let ok (used : Bool) (k : Nat) : Bool := !used || chStep d st k == 0 || [0, 1, 4].contains (locKind (chLoc d st k))
  ok (e == 1 || e == 3) 0 &&
    ok ((e == 3 && m != 14) || e == 1 || (e == 2 && chFields d st / 2 ^ 25 % 4 != 2)) 1 &&
    ok (e == 2 || (e == 3 && vUsesB m && !values)) 2 && (!values || chStep d st 2 == 0) &&
    ok (e == 3 && vUsesC m && !values) 3

def chCount (d : List Byte) (e : Nat) : Nat := ((chList d).filter (fun st => chEngine d st == e)).length

/-- Every enabled tile of the ring holds a task of the context (R217). -/
def ringHasTasks (s : State) (r : RingId) (n : CtxId) : Bool :=
  (ringTiles r).all (fun u => !tileOn s u || (lowTask s u n).isSome)

/-- The checks of R219; `tileLevel` when the chain is run at tile level (CHAIN, or RUN_CHAIN at a tile UCB). -/
def chainOk (s : State) (t : TileId) (k : Nat) (n : CtxId) (d : List Byte) (tileLevel : Bool) : Bool :=
  let ns := chStages d
  let auto := (chList d).any (chAuto d)
  1 ≤ ns && ns ≤ 8 && chReserved d &&
    (chList d).all (fun st => chEngine d st ≤ 4 && chIters d st != 0 &&
      !((chEngine d st == 0 || chEngine d st == 4) && (chIters d st != 1 || chField d st 8 4 != 0)) &&
      !(chEngine d st == 2 && (chFields d st / 2 ^ 23 % 4 == 1 || chFields d st / 2 ^ 23 % 4 == 2)) &&
      (!chEntryOnly d st || auto) && chStepsOk d st) &&
    chQueuesOk s t k d &&
    chCount d 2 ≤ 1 && chCount d 1 ≤ 1 && chCount d 3 ≤ 4 &&
    !(chCount d 1 == 1 && (chList d).any (fun st => chEngine d st == 2 && usesLouvre (chFields d st) (chLoc d st 2))) &&
    (!auto || (!tileLevel && ringHasTasks s (ringOf t) n &&
      (match chEntryCol d with | some c => tileOn s (tileAt c (rowOf t)) | none => false)))

/-! ## Reading a descriptor from the scratchpad (R213) -/

/-- The descriptor at an SP locator: its bytes, or the fault. -/
def readChain (s : State) (t : TileId) (k : Nat) (loc : Word64) : State × Except Nat (List Byte) :=
  match locCheck s t k [0] false 64 0 loc with
  | some f => (s, .error f)
  | none =>
    let pa := (spPhys s t k (locAddr loc) 64).getD 0
    let ns := chStages (spRead s t pa 64)
    if 8 < ns then (s, .error cChainParam)
    else match spPhys s t k (locAddr loc) (64 + 64 * ns) with
      | none => (s, .error cSpBound)
      | some pa =>
        let (s, p) := readPiece s t pa (64 + 64 * ns)
        if isNormal s && p.mark != 0 then (s, .error (markCause p.mark)) else (s, .ok p.bytes)

/-! ## Beginning a chain (R216, R217) -/

/-- The engines a descriptor needs on a tile are free; the Louvre is not while a pass uses it (R200) or a tile of a transfer
stands in its buffers. -/
def enginesFree (s : State) (t : TileId) (d : List Byte) : Bool :=
  (List.range 3).all (fun e => !chTakes d t e ||
    (!engineHeld s t e && (engOf s t e).running.isNone && (engOf s t e).pend.isNone &&
      !(e == 0 && s.drains.any (fun d => d.t == t)) && !(e == 1 && (arrayHolds s t || !(lvOf s t).isEmpty))))

def freeSlots (s : State) (t : TileId) : List Nat := (List.range 4).filter (fun i => (chainOf s t i).isNone)

/-- The chain can begin on its tile now. -/
def canBegin (s : State) (w : ChainWait) : Bool :=
  enginesFree s w.t w.desc && !(freeSlots s w.t).isEmpty && tileRuns s w.t && ctxState s w.ctx == 3

/-- A waiting RUN_CHAIN on the tile needs an engine, or the last free slot, that this descriptor would take. -/
def reserved (s : State) (t : TileId) (d : List Byte) : Bool :=
  s.chainWaits.any (fun w => w.t == t && w.cmd.isSome && ((freeSlots s t).length ≤ 1 ||
    (List.range 3).any (fun e => chTakes w.desc t e && chTakes d t e)))

/-- Begin a chain on its tile: it takes a slot and its engines. -/
def beginChain (s : State) (w : ChainWait) : State :=
  match freeSlots s w.t with
  | [] => s
  | slot :: _ =>
    let zero := (chList w.desc).map (fun _ => 0)
    let c : Chain := ⟨w.ctx, w.task, w.thread, w.cmd, w.desc, s.cycles.get (fun _ => 0) (rowOf w.t), zero, zero⟩
    let s := { s with chains := s.chains.set chainDef (chainKey w.t slot) (some c), chainWaits := s.chainWaits.erase w }
    let s := setReg s (aChain w.t slot) (BitVec.ofNat 64 (1 + (if w.cmd.isSome then 2 else 0) + w.ctx.toNat * 16 +
      w.task * 256 + activeBits c w.t * 2 ^ 16 + fieldAt w.desc 4 4 * 2 ^ 32))
    match w.thread with
    | some h =>
      -- the CHAIN instruction takes effect: its thread goes on behind it
      let x := issOf s w.t h
      let s := setThreadState s w.t h 1
      perfTile (x.next s) w.t (some w.ctx) 0 0x10 none 1
    | none => s

/-- CHAIN (R213, R216, R219): the descriptor is read and checked, and the thread waits for the chain to begin; in a
context that is PAUSED it waits for CTX_RESUME first (R165). -/
def execChain (t : TileId) (h : ThreadId) (s : State) : Outcome State Fault Refusal :=
  .next (issue s t h (isEng 0x34 0) fun x s =>
    if ctxState s x.n != 3 then x.wait
    else match readChain s t x.k (x.g s (eRa x.w)) with
      | (s, .error f) => x.fault s f
      | (s, .ok d) =>
        if !chainOk s t x.k x.n d true then x.fault s cChainParam
        else
          let w : ChainWait := ⟨t, x.n, x.k, some h, none, d⟩
          { x.wait with chainWaits := s.chainWaits ++ [w] })

/-- The command at the head of a command's chain of parents (R46). -/
def rootCmd (s : State) : Nat → Nat → Nat
  | 0, id => id
  | f + 1, id => match s.cmds.find? (fun c => c.id == id) with
    | some c => match c.src with
      | .copy p => rootCmd s f p
      | _ => id
    | none => id

/-- Copies of a command that wait at tiles of a domain and have not been taken there. -/
def copiesComing (s : State) (root : Nat) (h : RingId) : Bool :=
  s.cmds.any (fun c => !c.taken && rootCmd s 4 c.id == root && (match c.page with
    | .tile t _ => headOf s (ringOf t) == h
    | .ring r _ => headOf s r == h
    | _ => true))

/-- CHAIN_BEGIN (R216, R217): for a thread's chain, the waiting chain of the lowest thread that can begin; for a
RUN_CHAIN, given by its command, every tile of the domain that it reaches, at once. -/
def execChainBegin (t : TileId) (cmd : Option Nat) (s : State) : Outcome State Fault Refusal :=
  .next (match cmd with
    | none =>
      let able := s.chainWaits.filter (fun w => w.t == t && w.cmd.isNone && canBegin s w && !reserved s t w.desc)
      match able.foldl (fun (best : Option ChainWait) w => match best with
          | none => some w
          | some b => if w.thread.getD 0 < b.thread.getD 0 then some w else some b) none with
      | some w => beginChain s w
      | none => s
    | some root =>
      let h := headOf s (ringOf t)
      let ws := s.chainWaits.filter (fun w => headOf s (ringOf w.t) == h && (match w.cmd with
        | some id => rootCmd s 4 id == root
        | none => false))
      if ws.isEmpty || copiesComing s root h || !ws.all (canBegin s) then s else ws.foldl beginChain s)

/-! ## Iterations (R214, R215, R218) -/

/-- A locator stepped for iteration i. -/
def stepLoc (v : Word64) (step : Int) (i : Nat) : Word64 :=
  let unit : Int := if locKind v == 0 || locKind v == 4 then 64 else if locKind v == 1 then 1 else 0
  let a := ((locAddr v : Int) + unit * step * i) % 2 ^ 61
  BitVec.ofNat 64 (locKind v * 2 ^ 61 + a.toNat)

/-- The operation of iteration i of a stage of the array, the Louvre or the vector unit. -/
def stageOp (s : State) (t : TileId) (c : Chain) (slot st i : Nat) : EOp :=
  let d := c.desc
  let f := chFields d st
  let e := chEngine d st
  let m := chMinor d st
  let role := if e == 2 then chRole d t st else 0
  let rows := f / 2 ^ 6 % 256 + 1
  let values := e == 3 && (m == 5 || m == 14)
  let cw := chLoc d st 3
  { ctx := c.ctx, task := c.task, thread := c.thread, chain := some (slot, st), done := 0, minor := if e == 3 then m else 0,
    fields := f,
    d := stepLoc (chLoc d st 0) (chStep d st 0) i,
    a := stepLoc (chLoc d st 1) (chStep d st 1) i,
    b := if role == 2 then BitVec.ofNat 64 (6 * 2 ^ 61) else if values then chLoc d st 2 else stepLoc (chLoc d st 2) (chStep d st 2) i,
    c := if e == 2 then BitVec.ofInt 64 ((cw.toNat : Int) + 65536 * chStep d st 3 * i)
      else if values then cw + BitVec.ofNat 64 (64 * rows * i) else stepLoc cw (chStep d st 3) i,
    acc := if e != 2 then false else if chGroup d st == 0 then f / 2 ^ 22 % 2 == 1 else i % chGroup d st != 0,
    ring := role,
    tabM := if e == 3 && (m == 6 || m == 7) then curveOf s t (f / 2 ^ 14 % 16) else [],
    tabS := [],
    step := BitVec.ofNat 32 (fld s (aStep c.ctx) 0 32), seed := reg s (aSeed c.ctx),
    loaded := 0, row := 0, buf := [], ser := s.serial }

/-- The engine place of a stage: 0 array, 1 Louvre, 2 vector unit. -/
def stageEngine (e : Nat) : Nat := if e == 2 then 0 else if e == 1 then 1 else 2

/-- The checks of a stage's operation: its minor is one of its engine, then the engine's own checks. -/
def stageCheck (s : State) (t : TileId) (e : Nat) (minor : Nat) (o : EOp) : Option Nat :=
  match e with
  | 2 => firstFail [need (minor == 0) cIllegalEnc, passCheck s t o]
  | 1 => firstFail [need (minor == 0) cIllegalEnc, lvCheck s t o]
  | _ => firstFail [need (minor ≤ 14) cIllegalEnc, vecCheck s t o]

/-- A source that an operation reads by rows: its task, its locator, the bytes of a row, the next row and their number. -/
structure Feed where
  task : Nat
  loc : Word64
  size : Nat
  next : Nat
  rows : Nat

/-- The next image that an operation gives the Louvre. -/
def lvNext (s : State) (t : TileId) (o : EOp) : Nat :=
  if o.minor == 0 then 0
  else match (lvOf s t).getLast?.filter (fun x => x.imgs.length < 64) with
    | some x => 64 * x.idx + x.imgs.length
    | none => 64 * o.minor

/-- The sources of an operation of an engine. -/
def opFeeds (s : State) (t : TileId) (e : Nat) (o : EOp) : List Feed :=
  match e with
  | 0 =>
    let loading := o.load == 1 && o.loaded < 64
    (if o.load == 2 then [] else [⟨o.task, o.a, o.sizeS, if loading then lvNext s t o else o.loaded, 64⟩]) ++
      (if o.ring == 2 then []
        else if o.viaLouvre then [⟨o.task, o.b, o.sizeM, if loading then 0 else lvNext s t o, (o.rows + 63) / 64 * 64⟩]
        else [⟨o.task, o.b, o.sizeM, o.row, o.rows⟩])
  | 1 => [⟨o.task, o.a, lvSize o.lvFmt, lvNext s t o, 64 * o.lvTiles⟩]
  | _ =>
    let size := imgSize o.vFmtS false
    (if o.minor == 14 then [] else [⟨o.task, o.a, size, o.row, o.vRows⟩]) ++
      (if vUsesB o.minor then [⟨o.task, o.b, if o.minor == 11 then 8 else size, o.row, o.vRows⟩] else []) ++
      (if vUsesC o.minor then [⟨o.task, o.c, size, o.row, o.vRows⟩] else [])

/-- The operations accepted of a chain's stage, and not yet complete. -/
def stageOps (s : State) (t : TileId) (e slot st : Nat) : List EOp :=
  ((engOf s t e).running.toList ++ (engOf s t e).pend.toList).filter (fun o => o.chain == some (slot, st))

/-- The slots of a queue that earlier iterations of a stage have still to take. -/
def owedIn (s : State) (t : TileId) (e slot st q : Nat) : Nat :=
  ((stageOps s t e slot st).map (fun o => ((opFeeds s t e o).filter (fun f => (locQueue f.loc).contains q)).foldl
    (fun a f => a + (f.rows - f.next)) 0)).sum

/-- The slots of its output queue that earlier iterations of a stage have still to fill. -/
def owedOut (s : State) (t : TileId) (e slot st : Nat) : Nat :=
  if e == 1 then ((lvOf s t).filter (fun x => x.op.chain == some (slot, st))).foldl (fun a x => a + (64 - x.out)) 0 +
    ((stageOps s t 1 slot st).map (fun o => 64 * (o.lvTiles - o.minor))).sum
  else if e == 2 then ((stageOps s t 2 slot st).map (fun o => o.vRows - o.row)).sum
  else 0

/-- Each input queue holds the slot of an iteration's first row, behind those that the iterations before it have still to take,
and the output queue has a free slot for its first result, beside theirs (R215). -/
def queuesReady (s : State) (t : TileId) (e slot st : Nat) (o : EOp) : Bool :=
  let g := stageEngine e
  let full (v : Word64) : Bool := (locQueue v).all (fun q => owedIn s t g slot st q < tqFill s t q)
  let room (v : Word64) : Bool := (locQueue v).all (fun q =>
    tqFill s t q + tqFlight s t q + owedOut s t g slot st < tqSlots s t q)
  match e with
  | 2 => (o.load == 2 || full o.a) && full o.b
  | 1 => full o.a && room o.d
  | _ => (o.minor == 14 || full o.a) && (!vUsesB o.minor || full o.b) && (!vUsesC o.minor || full o.c) && room o.d

/-- The scheduled open cycle of iteration i, on a member A(d) cycles behind the entry (R105, R215, R218). -/
def stageDue (t : TileId) (c : Chain) (st i : Nat) : Nat :=
  let d := c.desc
  let entry := chFields d st % 32
  let hop := if chAuto d st then 2 * ((colOf t + 32 - entry) % 32) + (if colOf t < entry then 4 else 0) else 0
  c.origin + chField d st 4 4 + i * chField d st 8 4 + hop

/-- Another VECTOR stage of the chain starts first: its next iteration is scheduled earlier, or as early with the lower number
(R216). -/
def behindStage (t : TileId) (c : Chain) (st : Nat) : Bool :=
  let due (x : Nat) : Nat := stageDue t c x (c.started.getD x 0)
  chEngine c.desc st == 3 && (chList c.desc).any (fun x => x != st && chEngine c.desc x == 3 && chRunsOn c.desc t x &&
    decide (c.started.getD x 0 < chIters c.desc x ∧ (due x < due st ∨ (due x = due st ∧ x < st))))

/-- Let a ring's open cycles reach a value, if its domain does not freeze before. -/
def advanceCycles (s : State) (row target : Nat) : State :=
  let now := s.cycles.get (fun _ => 0) row
  if target ≤ now || !cycleOk s row target then s else advancePeriod s row (periodOf s row + (target - now))

/-- The iteration counts as started, and its WAIT token is taken (R213). -/
def markStarted (s : State) (t : TileId) (slot st : Nat) (c : Chain) : State :=
  let i := c.started.getD st 0
  let s := { s with chains := s.chains.set chainDef (chainKey t slot) (some { c with started := c.started.set st (i + 1) }) }
  match chWaitTok c.desc st with
  | some n => tokSet s t c.task n (tokGet s t c.task n - 1)
  | none => s

/-- Start a stream stage (R214). -/
def startStream (s : State) (t : TileId) (slot st : Nat) (c : Chain) : State :=
  match handleOf s t c.task (chFields c.desc st / 32 % 64) with
  | none => engineFaultOp s t c.thread c.ctx cStreamRange
  | some n =>
    let state := fld s (aSte t n) 0 3
    if state != 0 && state != 3 then s
    else
      let s := markStarted s t slot st c
      match strmStart s ⟨t, c.task, c.ctx, c.thread, some (slot, st), 0⟩ (chLoc c.desc st 1) n with
      | (s, some f) => engineFaultOp s t c.thread c.ctx f
      | (s, none) => pumpTile t none s

/-- CHAIN_ITERATION_START (R215): at the later of the scheduled cycle and the readiness of its token, its queues and its
engine's place. -/
def execChainIterationStart (t : TileId) (slot : BitVec 2) (stage : BitVec 3) (s : State) : Outcome State Fault Refusal :=
  .next (
    let st := stage.toNat
    match chainOf s t slot.toNat with
    | none => s
    | some c =>
      let i := c.started.getD st 0
      let tokenOk := match chWaitTok c.desc st with
        | some n => tokGet s t c.task n != 0
        | none => true
      if chStages c.desc ≤ st || !chRunsOn c.desc t st || chIters c.desc st ≤ i || !tileRuns s t || !ctxLive s c.ctx ||
          !tokenOk || behindStage t c st || !cycleOk s (rowOf t) (stageDue t c st i) then s
      else
        let s := advanceCycles s (rowOf t) (stageDue t c st i)
        let e := chEngine c.desc st
        if e == 0 || e == 4 then startStream s t slot.toNat st c
        else
          let o := stageOp s t c slot.toNat st i
          match stageCheck s t e (chMinor c.desc st) o with
          | some f => engineFaultOp s t c.thread c.ctx f
          | none =>
            if !(engOf s t (stageEngine e)).pend.isNone || !queuesReady s t e slot.toNat st o then s
            else acceptOp (markStarted s t slot.toNat st c) t (stageEngine e) o)

/-- Every stage that runs on the tile has completed its last iteration. -/
def chainOver (t : TileId) (c : Chain) : Bool :=
  (chList c.desc).all (fun st => !chRunsOn c.desc t st || decide (chIters c.desc st ≤ c.finished.getD st 0))

/-- CHAIN_END (R220): the engines and the slot free, DONE_TOK is signalled, and a RUN_CHAIN completes at this tile. -/
def execChainEnd (t : TileId) (slot : BitVec 2) (s : State) : Outcome State Fault Refusal :=
  .next (match chainOf s t slot.toNat with
    | none => s
    | some c =>
      if !chainOver t c || !tileRuns s t then s
      else
        let s := { s with chains := s.chains.set chainDef (chainKey t slot.toNat) none }
        let s := setReg s (aChain t slot.toNat) 0
        let b := fieldAt c.desc 1 1
        let s := if b / 32 % 2 == 1 then tokAdd s t c.task (b % 32) 1 (c.thread.map (fun h => (t, h))) else s
        match c.cmd with
        | some id => completeId s id stOk (unitTile s t)
        | none => s)

/-! ## Commands from code (R221, R222) -/

/-- The ring or module page that a unit address names for a context: a ring of this module, or this module. -/
def codePage (s : State) (n : CtxId) (u : Nat) : Option Page :=
  if u / 65536 % 65536 != (nodeId s).toNat then none
  else if u % 16 == 1 && u / 16 % 4096 < 16 then some (.ring (BitVec.ofNat 4 (u / 16)) n)
  else if u % 16 == 2 && u / 16 % 4096 == 0 then some (.module n)
  else none

def isCode (c : Cmd) : Bool := match c.src with | .code .. => true | _ => false

/-- Entries waiting in the code queue of a page. -/
def codeWaiting (s : State) (p : Page) : Nat := (s.cmds.filter (fun c => c.page == p && !c.taken && isCode c)).length

/-- UCMD (R221): the entry is copied into the code queue of the unit. -/
def execUcmd (t : TileId) (h : ThreadId) (s : State) : Outcome State Fault Refusal :=
  .next (issue s t h (isEng 0x3C 0) fun x s =>
    let loc := x.g s (eRa x.w)
    x.check s (locCheck s t x.k [0] false 128 0 loc) fun s =>
      match codePage s x.n ((x.g s (eRb x.w)).toNat % 2 ^ 32) with
      | none => x.fault s cEngineParam
      | some p =>
        if ctxState s x.n != 3 || 16 ≤ codeWaiting s p then x.wait
        else
          let (s, piece) := readPiece s t ((spPhys s t x.k (locAddr loc) 64).getD 0) 64
          if isNormal s && piece.mark != 0 then x.fault s (markCause piece.mark)
          else
            let c : Cmd := ⟨s.nextId, p, x.n, .code t h x.k (locAddr loc) (eDone x.w), piece.bytes, false, [], stOk, none, 0, 0⟩
            x.next { s with cmds := s.cmds ++ [c], nextId := s.nextId + 1 })

/-- UCMD_COMPLETE (R222): the completion word is written, then DONE is signalled. -/
def execUcmdComplete (t : TileId) (s : State) : Outcome State Fault Refusal :=
  .next (match s.codeDone.find? (fun d => d.t == t) with
    | none => s
    | some d =>
      if !tileRuns s t then s
      else
        let s := { s with codeDone := s.codeDone.erase d }
        match spPhys s t d.task (d.va + 64) 8 with
        | some pa => tokDone (spWrite s t pa (bytesOf (d.status.toNat + d.tag.toNat * 2 ^ 16) 8)) t d.task d.done (some d.h)
        | none => s)

/-! ## The look-ahead of streamed data (R72, R246) -/

/-- What the tile is to consume by rows: the operations its engines hold, the next iterations of its chains that are due within
32 open cycles, its sends and its write streams. -/
def feedsOf (s : State) (t : TileId) : List Feed :=
  let ops := (List.range 3).flatMap (fun e =>
    ((engOf s t e).running.toList ++ (engOf s t e).pend.toList).flatMap (opFeeds s t e))
  let now := s.cycles.get (fun _ => 0) (rowOf t)
  let due := (List.range 4).flatMap (fun slot => match chainOf s t slot with
    | none => []
    | some c => (chList c.desc).flatMap (fun st =>
      let i := c.started.getD st 0
      let e := chEngine c.desc st
      if e == 0 || e == 4 || !chRunsOn c.desc t st || chIters c.desc st ≤ i || now + 32 < stageDue t c st i then []
      else opFeeds s t (stageEngine e) (stageOp s t c slot st i)))
  let sends := (s.sends.filter (fun x => x.t == t)).map (fun x => (⟨x.task, x.src, 64, x.sent, x.beats⟩ : Feed))
  let writes := (tileStrms s t).flatMap (fun i => match strmOf s t i with
    | some x => if x.write then [(⟨x.task, x.endpoint, imgSize x.td.fmt x.ddepth, x.moved, strmRows x⟩ : Feed)] else []
    | none => [])
  ops ++ due ++ sends ++ writes

/-- The rows lo to hi − 1 of a read stream that a consumer takes within 32 cycles, at a row a cycle (log entry 5). -/
def window (s : State) (t : TileId) (x : Strm) (f : Feed) : Nat × Nat :=
  let last := min f.rows (f.next + 32)
  if f.task != x.task then (0, 0)
  else if locKind x.endpoint == 2 then
    if (locQueue f.loc).contains (locAddr x.endpoint) then
      (x.moved, x.moved + (last - f.next - tqFill s t (locAddr x.endpoint)))
    else (0, 0)
  else if locKind f.loc == 0 || locKind f.loc == 4 then
    let size := imgSize x.td.fmt x.ddepth
    let a := locAddr f.loc + f.next * f.size
    let b := locAddr f.loc + last * f.size
    if b ≤ locAddr x.endpoint then (0, 0)
    else ((a - locAddr x.endpoint) / size, (b - locAddr x.endpoint + size - 1) / size)
  else (0, 0)

/-- The first row of a read stream that is needed within 32 cycles and is neither delivered nor at hand; a marked row counts as
present (R285). -/
def lateRow (s : State) (t : TileId) (x : Strm) : Option Nat :=
  ((feedsOf s t).map (window s t x)).findSome? (fun w =>
    let lo := max x.moved w.1
    ((List.range (min (strmRows x) w.2 - lo)).map (· + lo)).find? (fun r => !rowPresent x r))

/-- The cause for which a stream context of a tile is late, if it is (R242, R246): of a running read stream a row needed within 32
cycles is absent, multicast wait when a merge entry holds a missing line, else memory late. -/
def lateCause (s : State) (t : TileId) (i : Nat) : Option Nat :=
  match strmOf s t i with
  | none => none
  | some x =>
    if x.write || fld s (aSte t i) 0 3 != 1 then none
    else (lateRow s t x).map (fun r =>
      let missing := (rowLines x r).filter (fun l => !x.caps.any (fun c => c.va == l))
      if s.merges.any (fun m => !m.closed && m.joined.any (fun q => match q.1.kind with
        | .read t' n' va => t' == t && n' == i && missing.contains va
        | _ => false)) then 4 else 0)

/-- LOOKAHEAD_CHECK (R72, R246). -/
def execLookaheadCheck (t : TileId) (n : BitVec 6) (s : State) : Outcome State Fault Refusal :=
  .next (if !tileRuns s t then s else match lateCause s t n.toNat with
    | none => s
    | some k => shutRaise s (ringOf t) k (srcStream t n.toNat))

end Sys2Proof.Machine
end

