-- ==== Sys2Proof/Machine/Xdie.lean ====
section
/-! DEFINITION. What the X-die engines share: messages to other members, completion words (R307), the step ledger (R312,
R313), the abort of buckets and batches (R314, R439), random values (R383) and gangs (R31, R298). -/

namespace Sys2Proof.Machine

/-- n bytes of a random or open value, and the state that has used them. -/
def takeRandom (s : State) (n : Nat) : List Byte × State :=
  let k := (n + 7) / 8
  (((List.range k).map (fun i => bytesOf (Config.free (s.freeCtr + i)).toNat 8)).flatten.take n,
    { s with freeCtr := s.freeCtr + k })

/-- Latch issues random values (R383). -/
def entropyOk (s : State) : Bool := fld s (latchA 0) 2 1 == 1

def infoDef : Nat → CtxInfo := fun _ => ⟨[], [], 0, false, false, []⟩
def infoOf (s : State) (n : CtxId) : CtxInfo := s.ctxInfo.get infoDef n.toNat
def setInfo (s : State) (n : CtxId) (x : CtxInfo) : State := { s with ctxInfo := s.ctxInfo.set infoDef n.toNat x }

/-! ## Gangs -/

/-- The gang a context is bound to (R33), 0 for none. -/
def gangOf (s : State) (n : CtxId) : BitVec 16 := BitVec.ofNat 16 (fld s (aCtx n) 32 16)

def gangEntry (s : State) (g : BitVec 16) : Option GangEntry := s.gangs.find? (fun e => e.gang == g)

/-- The modules of a gang entry. -/
def gangSize (e : GangEntry) : Nat := e.counts.foldl (· + ·) 0

/-- N of a gang of another head, 1 to 65,536, and this module's rank in it (R298). -/
def foreignSize (g : BitVec 16) : Nat := Config.gangModules g % 65536 + 1
def foreignRank (g : BitVec 16) : Nat := Config.gangRank g % foreignSize g

/-- The modules in rank order of a gang of another head that this module is in: it stands at its own rank. -/
def foreignNodes (s : State) (g : BitVec 16) : List (BitVec 16) :=
  (List.range (foreignSize g)).map (fun k => if k == foreignRank g then nodeId s else Config.gangNode g k)

/-- The modules of a gang in rank order (R298): its direct members in turn, a sub-gang's modules in its own order. The entries
of other heads stand on their modules, so what they hold is a constant of the configuration (log 76). A nesting among this
module's own entries is no deeper than its table, which the fuel covers. -/
def gangNodes (s : State) : Nat → BitVec 16 → List (BitVec 16)
  | 0, _ => []
  | f + 1, g => match gangEntry s g with
    | none => foreignNodes s g
    | some e => (e.members.zip e.counts).flatMap (fun m =>
      if m.1.2 == 0#16 then [m.1.1]
      else if m.1.1 == nodeId s then gangNodes s f m.1.2
      else (List.range m.2).map (Config.gangNode m.1.2))

/-- N and the rank of a context (R298): N = 1 and rank 0 unbound; from the table entry here; or from the one at the head. -/
def ranks (s : State) (n : CtxId) : Nat × Nat :=
  let g := gangOf s n
  if g == 0 then (1, 0)
  else match gangEntry s g with
    | some e => (max 1 (gangSize e), (gangNodes s 65 g).idxOf (nodeId s) % max 1 (gangSize e))
    | none => (foreignSize g, foreignRank g)

/-- The node ID of a rank of a context's gang. -/
def rankNode (s : State) (n : CtxId) (k : Nat) : BitVec 16 :=
  (gangNodes s 65 (gangOf s n)).getD k (Config.gangNode (gangOf s n) k)

/-- Give a message for a rank of a context's gang to the fabric; `poison` where its payload holds poisoned data (R348). -/
def sendRank (s : State) (n : CtxId) (k : Nat) (op : Byte) (payload : List Byte) (poison : Bool := false) : State :=
  { s with out := s.out ++ [⟨rankNode s n k, gangOf s n, n, op, payload, 0, poison⟩] }

/-- The head of a context's gang: this module where its table holds the gang. -/
def headIsHere (s : State) (n : CtxId) : Bool := gangOf s n == 0 || (gangEntry s (gangOf s n)).isSome

/-- Give a message for the head to the fabric. -/
def sendHead (s : State) (n : CtxId) (op : Byte) (payload : List Byte) : State :=
  if headIsHere s n then s
  else { s with out := s.out ++ [⟨Config.gangHead (gangOf s n), gangOf s n, n, op, payload, 0, false⟩] }

/-- Give a message for every other rank to the fabric. -/
def sendAll (s : State) (n : CtxId) (op : Byte) (payload : List Byte) (poison : Bool := false) : State :=
  (List.range (ranksOf s n)).foldl (fun s k => if k == myRank s n then s else sendRank s n k op payload poison) s

/-! ## Writes of the engines -/

/-- Write a range of a context as a NORMAL access, poisoned where the data are (R291); a range that has lost its mapping since
the configuration takes nothing. -/
def engineWrite (s : State) (n : CtxId) (va : Nat) (bs : List Byte) (poison : Bool := false) : State :=
  if vaOk s n va bs.length true then writeVa s n va bs 1 poison else s

/-- The completion word (R307). -/
def writeDone (s : State) (n : CtxId) (va : Nat) (step : BitVec 32) (phase : Nat) : State :=
  engineWrite s n va (bytesOf (step.toNat + phase * 2 ^ 32) 8)

/-- Little-endian bytes of FP32 values. -/
def f32Bytes (xs : List F32) : List Byte := (xs.map (fun x => bytesOf x.toNat 4)).flatten

/-! ## The step ledger -/

def bmBytes (N : Nat) : Nat := 64 * ((N + 511) / 512)
def recSize (N : Nat) : Nat := 64 + 5 * bmBytes N

def ledgerWr (s : State) (n : CtxId) : Nat := fld s (aLedger n) 0 32
def ledgerUsed (s : State) (n : CtxId) : Nat := (ledgerWr s n + 2 ^ 32 - fld s (aLedger n) 32 32) % 2 ^ 32

def ledgerFlag (s : State) (n : CtxId) (j : RedJob) : State :=
  setFld s (aRedStatus n) 5 1 (if j.slots ≤ ledgerUsed s n then 1 else 0)

/-- Write a record at WR mod LEDGER_SLOTS and advance WR. -/
def ledgerWrite (s : State) (n : CtxId) (j : RedJob) (rec' : List Byte) : State :=
  let wr := ledgerWr s n
  let s := engineWrite s n (j.ledger + wr % max 1 j.slots * recSize (ranksOf s n)) rec'
  ledgerFlag (setFld s (aLedger n) 0 32 (wr + 1)) n j

/-- The ranks of a fate code as a bitmap: 1 PRESENT, 2 QUARANTINED, 3 HELD, 4 DROPPED; bit 3 CARRY_IN. -/
def fateMap (b : Bucket) (N : Nat) (p : Nat → Bool) : Nat :=
  (List.range N).foldl (fun a r => if p (b.fate.get (fun _ => 0) r) then a + 2 ^ r else a) 0

/-- The policy bits of a job. -/
def tolerant (s : State) (n : CtxId) : Bool := fld s (aPolicy n) 0 1 == 1
def nanPol (s : State) (n : CtxId) : Nat := fld s (aPolicy n) 2 2
def inReplay (s : State) (n : CtxId) : Bool := fld s (aRedStatus n) 4 1 == 1

/-- The record of the bucket that a replay compares with. -/
def replayRec (j : RedJob) (b : Bucket) : Option (List Byte) :=
  j.replay.find? (fun r => fieldAt r 2 1 == b.chan && fieldAt r 8 4 == b.idx)

/-- A bitmap of a ledger record. -/
def recMap (r : List Byte) (N i : Nat) : Nat := fieldAt r (64 + i * bmBytes N) (bmBytes N)

/-- The fates of a record's ranks. -/
def recFates (r : List Byte) (N : Nat) : SMap Nat :=
  (List.range N).foldl (fun (m : SMap Nat) k =>
    let c := if (recMap r N 0).testBit k then 1 else if (recMap r N 1).testBit k then 2 else if (recMap r N 2).testBit k then 3 else 4
    m.set (fun _ => 0) k (c + (if (recMap r N 4).testBit k then 8 else 0))) []

/-- The fates of a step that an abort ended before its decision, which the manual does not state: for each rank exactly one of
the four (R313), and CARRY_IN perhaps for the first two. -/
def openFates (s : State) (N : Nat) : SMap Nat × State :=
  (List.range N).foldl (fun (a : SMap Nat × State) k =>
    let (v, s) := takeFree a.2
    let c := v.toNat % 4 + 1
    (a.1.set (fun _ => 0) k (if c ≤ 2 && v.getLsbD 2 then c + 8 else c), s)) ([], s)

/-- What a record says of the decision: the fates, DECIDE_TB and whether it fell at the deadline. A LOCAL replay takes them from
the record it compares with (R315, R316). -/
def recDecision (s : State) (j : RedJob) (b : Bucket) (N : Nat) : (SMap Nat × Nat × Bool) × State :=
  match b.decision, (if j.isLocal then replayRec j b else none) with
  | some d, _ => ((b.fate, d.decideTb.toNat, d.atDeadline), s)
  | none, some r => ((recFates r N, fieldAt r 24 8, fieldAt r 3 1 / 32 % 2 == 1), s)
  | none, none =>
    let (f, s) := openFates s N
    let (v, s) := takeFree s
    ((f, v.toNat, false), s)

/-- The elements that another PRESENT rank has zeroed, 0 to ELEMS: no message carries their number (log 76). -/
def othersZeroed (s : State) (n : CtxId) (b : Bucket) (N : Nat) (fate : SMap Nat) : Nat × State :=
  ((List.range N).filter (fun r => r != myRank s n && fate.get (fun _ => 0) r % 8 == 1)).foldl (fun (a : Nat × State) _ =>
    let (v, s) := takeFree a.2
    (a.1 + v.toNat % (b.elems + 1), s)) (0, s)

/-- A ledger record (R313). NAN_ZEROED is the sum over the PRESENT ranks of the elements each has zeroed. -/
def mkRecord (s : State) (n : CtxId) (j : RedJob) (b : Bucket) (aborted diverged : Bool) : List Byte × State :=
  let N := ranksOf s n
  let B := bmBytes N
  let ((fate, tb, atDeadline), s) := recDecision s j b N
  let bit (c : Bool) (k : Nat) : Nat := if c then 2 ^ k else 0
  let flags := bit b.ordered 0 + bit (tolerant s n) 1 + bit (inReplay s n) 2 + bit aborted 3 + bit diverged 4 +
    bit atDeadline 5 + bit (inReplay s n && j.isLocal) 6
  let b := { b with fate := fate }
  let own := if fate.get (fun _ => 0) (myRank s n) % 8 == 1 then b.zeroed else 0
  let (others, s) := if nanPol s n != 2 then (0, s) else othersZeroed s n b N fate
  let nan := if nanPol s n != 2 then 0 else own + others
  let included := ((List.range N).filter (fun r => fate.get (fun _ => 0) r % 8 == 1)).length
  let maps := bytesOf (fateMap b N (fun c => c % 8 == 1)) B ++ bytesOf (fateMap b N (fun c => c % 8 == 2)) B ++
    bytesOf (fateMap b N (fun c => c % 8 == 3)) B ++ bytesOf (fateMap b N (fun c => c % 8 == 4)) B ++
    bytesOf (fateMap b N (fun c => 8 ≤ c)) B
  (bytesOf 1 2 ++ [BitVec.ofNat 8 b.chan, BitVec.ofNat 8 flags] ++ bytesOf b.step.toNat 4 ++ bytesOf b.idx 4 ++
    bytesOf N 4 ++ bytesOf included 4 ++ bytesOf nan 4 ++ bytesOf tb 8 ++ bytesOf (if b.late then 0 else b.sealTb) 8 ++
    bytesOf (if b.late then 0 else digest8 (f32Bytes b.contrib)) 8 ++ bytesOf (digest8 (f32Bytes b.result)) 8 ++
    List.replicate 8 0 ++ maps, s)

/-! ## Buckets -/

/-- The messages of steps still to come. -/
def laterParts (b : Bucket) : List PartMsg := b.parts.filter (fun p => p.step != b.step)
def laterRanges (b : Bucket) : List GatherMsg := b.early.filter (fun m => m.step != b.step)

/-- A bucket back in IDLE; what lasts from step to step stays. -/
def bucketIdle (b : Bucket) : Bucket :=
  { b with st := 0, count := 0, late := false, lateDone := false, carryIn := false, quar := false, zeroed := 0, contrib := [], raw := [],
           decision := none, parts := laterParts b, early := laterRanges b, result := [], gcount := 0, gathered := [], fate := [], waitTick := 0,
           aborted := false, tainted := false }

def bucketKey (b : Bucket) : Nat := b.chan * 4096 + b.idx

/-- The bucket of a channel and index. -/
def bucketOf (j : RedJob) (chan idx : Nat) : Option Bucket := j.buckets.find? (fun b => b.chan == chan && b.idx == idx)

/-- Replace a bucket. -/
def putBucket (s : State) (n : CtxId) (b : Bucket) : State :=
  match redOf s n with
  | none => s
  | some j => setRed s n (some { j with buckets := j.buckets.map (fun x => if bucketKey x == bucketKey b then b else x) })

/-- Write the records that wait, as far as the ring has space; each returns its bucket to IDLE (R312, R314). -/
def flushRecs : Nat → CtxId → State → State
  | 0, _, s => s
  | f + 1, n, s => match redOf s n with
    | none => s
    | some j => match j.heldRecs with
      | [] => s
      | (key, phase, rec') :: rest =>
        if j.slots ≤ ledgerUsed s n then s
        else
          let s := ledgerWrite s n j rec'
          let s := setRed s n (some { j with heldRecs := rest })
          match j.buckets.find? (fun b => bucketKey b == key) with
          | none => flushRecs f n s
          | some b =>
            let s := if phase == 0 then s else writeDone s n b.doneVa b.step phase
            flushRecs f n (putBucket s n { bucketIdle b with ended := some b.step, endedAbort := b.aborted })

/-- End a bucket's step with its record: held where the ring is full, an abort's ahead of every other and in place of one that the
bucket still holds (R314). -/
def endBucket (s : State) (n : CtxId) (b : Bucket) (aborted diverged : Bool) : State :=
  match redOf s n with
  | none => s
  | some j =>
    let (rec', s) := mkRecord s n j b aborted diverged
    let b := { b with aborted := aborted, parts := laterParts b, early := laterRanges b }
    let item := (bucketKey b, if aborted then 0 else 2, rec')
    let recs := if aborted then
        j.heldRecs.filter (fun r => r.2.1 == 0) ++ [item] ++ j.heldRecs.filter (fun r => r.2.1 != 0 && r.1 != bucketKey b)
      else j.heldRecs ++ [item]
    let s := setRed s n (some { j with heldRecs := recs })
    let s := putBucket s n b
    let s := if aborted then writeDone s n b.doneVa b.step 3 else s
    flushRecs (recs.length + 1) n s

/-- A replay waits no longer for a bucket (R315). -/
def replayDrop (s : State) (n : CtxId) (b : Bucket) : State :=
  match redOf s n with
  | none => s
  | some j => setRed s n (some { j with replay := j.replay.filter (fun r => !(fieldAt r 2 1 == b.chan && fieldAt r 8 4 == b.idx)) })

/-- Abort one bucket at this member, in whatever state it stands, with a record (R314). -/
def abortStep (s : State) (n : CtxId) (b : Bucket) : State :=
  if b.aborted then s
  else
    let s := satAdd s (aRedCount n) 48 16 1
    let b := { b with st := max 2 b.st, headOpen := none, notices := [] }
    replayDrop (endBucket (putBucket s n b) n b true false) n b

/-- Abort one bucket that is SEALED or further. -/
def abortBucket (s : State) (n : CtxId) (b : Bucket) : State := if b.st < 2 then s else abortStep s n b

/-- The payload of RED_ABORT (R358). -/
def abortBytes (chan bucket : Nat) (step : BitVec 32) (rank cause : Nat) : List Byte :=
  bytesOf chan 4 ++ bytesOf bucket 4 ++ bytesOf step.toNat 4 ++ bytesOf rank 4 ++ [BitVec.ofNat 8 cause]

def abortMsg (s : State) (n : CtxId) (b : Bucket) (cause : Nat) : List Byte := abortBytes b.chan b.idx b.step (myRank s n) cause

/-- Send an abort towards every member, through the head. -/
def sendAbort (s : State) (n : CtxId) (b : Bucket) (cause : Nat) : State :=
  if ranksOf s n == 1 then s
  else if headIsHere s n then sendAll s n 0x22 (abortMsg s n b cause) else sendHead s n 0x22 (abortMsg s n b cause)

/-- Leave the replay mode; its command has ended otherwise. -/
def leaveReplay (s : State) (n : CtxId) : State :=
  match redOf s n with
  | none => s
  | some j => setFld (setRed s n (some { j with replay := [], replayCmd := none, isLocal := false })) (aRedStatus n) 4 1 0

/-- Abort every bucket of a context in SEALED or a later state, sending the aborts; a bucket still filling returns to
IDLE, and a replay is over. -/
def abortBuckets (s : State) (n : CtxId) (cause : Nat) : State :=
  match redOf s n with
  | none => s
  | some j => leaveReplay (j.buckets.foldl (fun s b =>
      if b.st == 0 || b.aborted then s
      else if b.st == 1 then putBucket s n (bucketIdle b)
      else abortBucket (sendAbort s n b cause) n b) s) n

/-- The batch starts again empty. -/
def dspReset (j : DspJob) : DspJob :=
  { j with rcount := 0, routesOut := false, inbox := j.inbox.filter (fun m => m.step != j.step), mine := [], admitted := false,
           admits := [], stats := [], phase := 0, ocount := 0, outSent := false, returned := [], waitTick := 0 }

/-- A dispatch batch in flight writes PHASE 3 and ends (R439). -/
def abortBatch (s : State) (n : CtxId) : State :=
  match dspOf s n with
  | none => s
  | some j =>
    let s := if j.routesOut then writeDone s n (fieldAt j.desc 88 8) j.step 3 else s
    setDsp s n (some { dspReset j with inbox := [] })

end Sys2Proof.Machine
end

