-- ==== Sys2Proof/Machine/Queue.lean ====
section
/-! DEFINITION. UCB queues: the state of a page (R473), taking a command (R41, R474, R47, R375), its order and its checks,
and the distribution down the levels (R46). -/

namespace Sys2Proof.Machine

open Host (Outcome)

/-! ## Pages -/

/-- The context a page acts for: its own, or the one in CTX_SEL on the owner page (R36). -/
def pageCtx (s : State) : Page → CtxId
  | .module n | .gang n | .ring _ n | .tile _ n => n
  | .owner => BitVec.ofNat 4 (fld s (pageA .owner + 0x18) 0 4)

/-- 0 tile, 1 ring, 2 module, 3 gang, 4 owner page. -/
def pageKind : Page → Nat
  | .tile .. => 0
  | .ring .. => 1
  | .module _ => 2
  | .gang _ => 3
  | .owner => 4

def pageRing : Page → Option RingId
  | .tile t _ => some (ringOf t)
  | .ring r _ => some r
  | _ => none

/-- A partition reset is in progress. -/
def partBusy (s : State) (p : BitVec 5) : Bool := s.resets.any (fun r => r.obj == .part p && !r.done)

def ringBusy (s : State) (r : RingId) : Bool := partBusy s (BitVec.ofNat 5 r.toNat)

/-- The tile is fenced, or the ring out of service. -/
def pageFenced (s : State) : Page → Bool
  | .tile t _ => !tileOn s t
  | .ring r _ => isOos s r
  | _ => false

def qSize (s : State) (p : Page) : Nat := 2 ^ fld s (pageA p + 0x28) 0 4

/-- The queue accepts doorbells: ENABLE with a SIZE of 4 to 12, not DISABLED. -/
def qEnabled (s : State) (p : Page) : Bool :=
  let k := fld s (pageA p + 0x28) 0 4
  fld s (pageA p + 0x28) 63 1 == 1 && decide (4 ≤ k ∧ k ≤ 12) && fld s (pageA p + 0x30) 39 1 == 0

def qHead (s : State) (p : Page) : Nat := fld s (pageA p + 0x30) 0 16
def qTail (s : State) (p : Page) : Nat := fld s (pageA p + 0x30) 16 16
def qStopped (s : State) (p : Page) : Bool := fld s (pageA p + 0x30) 32 1 == 1

/-- Commands of context n accepted and not complete at this unit (R473). -/
def outstanding (s : State) (p : Page) (n : CtxId) : Nat :=
  (s.cmds.filter (fun c => c.page == p && c.ctx == n &&
    (c.taken || (match c.src with | .copy _ | .remote .. => true | _ => false)))).length

/-- UCB.STATE.UNIT for context n (R473). -/
def unitState (s : State) (p : Page) (n : CtxId) : Nat :=
  let inReset := match pageRing p with | some r => ringBusy s r | none => false
  if pageFenced s p then 4
  else if !isNormal s || inReset then 0
  else if ctxState s n == 5 then 5
  else if qStopped s p then 3
  else if outstanding s p n != 0 then 2
  else 1

/-- UCB.STATE of a page for context n: the page's context as a register read sees it, a command's own in QUERY (R50). -/
def ucbState (s : State) (p : Page) (n : CtxId) : Word64 :=
  BitVec.ofNat 64 (unitState s p n + min (outstanding s p n) 65535 * 256)

/-- UCB.ID as it reads (R34, R35); FENCED is also 1 on a tile of a ring out of service, whose other registers still read
(DESIGN CHOICE, log entry 119). -/
def ucbId (s : State) (p : Page) : Word64 :=
  BitVec.ofNat 64 ((pageUnit s p).toNat + Config.stepping.toNat * 2 ^ 32 + Config.grade.toNat * 2 ^ 40 +
    (if pageFenced s p then 2 ^ 48 else 0))

/-- UCB.CAP as it reads. -/
def ucbCap (s : State) (p : Page) : Word64 :=
  let gang := match p with | .gang n => gangEntry s (gangOf s n) | _ => none
  let members := match p with
    | .tile .. => 0
    | .ring r _ => ((ringTiles r).filter (fun t => !isFenced s t)).length
    | .module _ | .owner => (allRings.filter (fun r => !isOos s r)).length
    | .gang _ => (gang.map (fun e => e.members.length)).getD 0
  let modules := match p with
    | .tile .. | .ring .. => 0
    | .module _ | .owner => 1
    | .gang _ => (gang.map gangSize).getD 0
  BitVec.ofNat 64 (members + 0xC * 2 ^ 10 + (if 2 ≤ pageKind p then 2 ^ 14 else 0) + 2 ^ 15 + modules * 2 ^ 16)

/-- A queue of the context is stopped at some level (CTX_STATUS.QSTOP). -/
def qStopAny (s : State) (n : CtxId) : Bool :=
  qStopped s (.module n) || qStopped s (.gang n) || allRings.any (fun r => qStopped s (.ring r n)) ||
    allTiles.any (fun t => qStopped s (.tile t n))

/-- CTX_STATUS as it reads. -/
def ctxStatus (s : State) (n : CtxId) : Word64 := putF (reg s (aCtx n)) 5 1 (if qStopAny s n then 1 else 0)

/-! ## The next entry of a page -/

def isCopy (c : Cmd) : Bool := match c.src with | .copy _ | .remote .. => true | _ => false

/-- The copy or code-queue entry that waits at the page: copies go first (R47). A stopped queue gives no copy (R41); its
code queue goes on (R222). A CTX_RESET goes ahead of the copies that wait (R49). -/
def nextHeld (s : State) (p : Page) (op : Nat) : Option Cmd :=
  let open' (c : Cmd) : Bool := c.page == p && !c.taken && !(isCopy c && qStopped s p)
  match s.cmds.find? (fun c => open' c && isCopy c && op == 6 && (entryOp c.entry).toNat == 6) with
  | some c => some c
  | none => match s.cmds.find? (fun c => open' c && isCopy c) with
    | some c => some c
    | none => s.cmds.find? open'

/-- The doorbell cover of the entry at HEAD (R374). -/
def headCover (s : State) (p : Page) : Option Cover := s.covers.find? (fun c => c.page == p)

/-- 256 completion entries of a CQ wait for allowance, beyond those that the present one lets go four to a flit (R375). -/
def cqFull (s : State) (q : PairId) : Bool :=
  decide (256 + 4 * s.cqCredit.get (fun _ => 0) q.toNat ≤ (s.cq.filter (fun e => e.q == q)).length)

/-- The host queue may give its next entry: enabled, not stopped, not empty, and with room on its CQ (R375). -/
def hostReady (s : State) (p : Page) : Option Cover :=
  if !qEnabled s p || qStopped s p || qHead s p == qTail s p then none
  else match headCover s p with
    | some c => if cqFull s c.q then none else some c
    | none => none

/-- Read the entry at HEAD: its bytes, or the status and VA of a failed read (R41, R369). -/
def readEntry (s : State) (p : Page) : State × Except (Byte × Nat) (List Byte) :=
  let va := fld s (pageA p + 0x28) 12 36 * 4096 + 64 * qHead s p
  match p with
  | .owner =>
    if 0x40000 < va + 64 then (s, .error (stHostXlate, va))
    else match readPhys s 0xF (ownerBase + va) 64 0 with
      | (s, bs, 0) => (s, .ok bs)
      | (s, _, _) => (s, .error (stHostMemerr, va))
  | _ =>
    if !vaOk s (pageCtx s p) va 64 false then (s, .error (stHostXlate, va))
    else match readVa s (pageCtx s p) va 64 0 with
      | (s, bs, 0) => (s, .ok bs)
      | (s, _, _) => (s, .error (stHostMemerr, va))

/-- HEAD advances past an entry, with its cover where it was the last one. -/
def advanceHead (s : State) (p : Page) : State :=
  let h := (qHead s p + 1) % qSize s p
  let s := setFld s (pageA p + 0x30) 0 16 h
  match headCover s p with
  | some c => if c.tail.toNat == h then { s with covers := s.covers.erase c } else s
  | none => s

/-! ## Order (R40, R474) -/

/-- Commands of the page taken and not complete. -/
def inFlight (s : State) (p : Page) : List Cmd := s.cmds.filter (fun c => c.page == p && c.taken)

/-- Context and gang commands. -/
def isCtxOp (op : Nat) : Bool := 1 ≤ op && op ≤ 9

/-- Taken as soon as they reach HEAD. -/
def atOnce (op : Nat) : Bool := op == 4 || op == 6 || op == 7

/-- An entry may be taken now beside the commands in flight of its page. -/
def orderOk (s : State) (p : Page) (e : List Byte) : Bool :=
  let fl := inFlight s p
  let op := (entryOp e).toNat
  if entryAfter e && !fl.isEmpty then false
  else if atOnce op then true
  else if isCtxOp op then fl.isEmpty
  else !fl.any (fun c => isCtxOp (entryOp c.entry).toNat)

/-! ## Checks (R40 to R43 and the tables that extend them) -/

/-- The levels that accept an opcode: 0 tile, 1 ring, 2 module, 3 gang, 4 owner page; none for an undefined opcode. -/
def levelsOf (op : Nat) : List Nat :=
  match op with
  | 0x00 | 0x11 => [0, 1, 2, 3, 4]
  | 0x01 | 0x07 | 0x08 => [4]
  | 0x06 => [2, 3, 4]
  | 0x02 | 0x03 | 0x04 | 0x05 | 0x09 => [2, 3]
  | 0x10 => [0, 1, 2, 3]
  | 0x12 | 0x13 => [2]
  | 0x14 | 0x15 | 0x16 | 0x17 | 0x18 | 0x19 | 0x1A | 0x21 => [2, 3]
  | 0x1B | 0x1C | 0x1D | 0x1E | 0x1F | 0x20 => [4]
  | _ => []

/-- The operand bytes from byte i to the end are zero. -/
def zeroFrom (e : List Byte) (i : Nat) : Bool := zeroBytes e i 64

/-- The operand bytes of an opcode hold legal values, and its unused bytes are zero. -/
def operandsOk (s : State) (op : Nat) (e : List Byte) : Bool :=
  match op with
  | 0x01 => fieldAt e 8 1 ≤ 7 && zeroBytes e 9 12 && 1 ≤ fieldAt e 12 4 && fieldAt e 12 4 ≤ fld s (modG 0x2308) 16 12 &&
      zeroBytes e 16 32
  | 0x02 => zeroFrom e 20
  | 0x06 => fieldAt e 8 1 ≤ 1 && zeroFrom e 9
  | 0x08 | 0x10 | 0x14 | 0x15 | 0x16 | 0x17 | 0x1B | 0x1C | 0x1D | 0x1E => zeroFrom e 16
  | 0x09 => zeroFrom e 10
  | 0x12 => fieldAt e 8 8 % frameSize == 0 && 1 ≤ fieldAt e 16 4 && fieldAt e 8 8 + fieldAt e 16 4 * frameSize ≤ 2 ^ 48 &&
      fieldAt e 20 1 ≤ 3 && zeroFrom e 21
  | 0x13 => fieldAt e 8 8 % frameSize == 0 && 1 ≤ fieldAt e 16 4 && fieldAt e 8 8 + fieldAt e 16 4 * frameSize ≤ 2 ^ 48 &&
      zeroFrom e 20
  | 0x1A => zeroBytes e 8 16 && zeroFrom e 32
  | 0x20 => fieldAt e 8 1 < 20 && zeroFrom e 9
  | 0x21 => zeroBytes e 8 16 && fieldAt e 16 1 ≤ 7 && zeroBytes e 17 24 && zeroFrom e 36
  | _ => zeroFrom e 8

/-- The entry is well formed and accepted at the page's level; from code only NOP, QUERY and RUN_CHAIN are (R221). -/
def entryOk (s : State) (p : Page) (code : Bool) (e : List Byte) : Bool :=
  let op := (entryOp e).toNat
  (levelsOf op).contains (pageKind p) && (e.getD 1 0).toNat / 4 == 0 && zeroBytes e 4 8 && operandsOk s op e &&
    (!code || op == 0 || op == 0x10 || op == 0x11)

/-- The context states in which an opcode is legal. -/
def legalIn (op st : Nat) : Bool :=
  match op with
  | 0x01 => st == 0
  | 0x02 => st == 1
  | 0x03 => st == 2
  | 0x04 | 0x10 => st == 3
  | 0x05 => st == 4
  | 0x06 => decide (1 ≤ st ∧ st ≤ 6)
  | 0x07 => st == 1 || st == 2 || st == 4 || st == 5
  | 0x09 | 0x16 => st == 1 || st == 2
  | 0x11 => st != 0
  | 0x12 | 0x14 | 0x17 | 0x1A => decide (1 ≤ st ∧ st ≤ 4)
  | 0x13 => st == 1 || st == 2 || st == 5
  | 0x15 => st == 3 || st == 4
  | 0x18 => decide (2 ≤ st ∧ st ≤ 4)
  | 0x19 | 0x21 => decide (1 ≤ st ∧ st ≤ 5)
  | _ => true

/-- What else the present state must allow, beside the context's state: the reduction engine idle, the Casement job in the
state named, NORMAL mode for CTX_CREATE (R322, R324, R423). -/
def legalElse (s : State) (n : CtxId) (op : Nat) : Bool :=
  let cas := fld s (aCasState n) 0 2
  match op with
  | 0x01 => isNormal s
  | 0x14 => !ctxLive s n || fld s (aRedStatus n) 8 13 == 0
  | 0x15 => fld s (aRedStatus n) 8 13 == 0
  | 0x17 => cas == 0 || cas == 1
  | 0x18 | 0x1A => cas == 1
  | _ => true

/-- A CAS_SEEK names a POSITION not below N of the job (R324). -/
def seekBeyond (s : State) (c : Cmd) : Bool :=
  entryOp c.entry == 0x1A && (casOf s c.ctx).any (fun j => decide (fieldAt j.desc 32 4 < fieldAt c.entry 20 4))

/-- A command taken ends with BAD_STATE; the page's queue stops (R41), but not for a command from code (R222). -/
def badState (s : State) (c : Cmd) : State :=
  let s := if isCode c then s
    else setFld (setFld s (pageA c.page + 0x30) 32 1 1) (pageA c.page + 0x30) 33 4 (ctxState s c.ctx)
  complete s c stBadState (pageUnit s c.page)

/-- The checks of R41 after the reading, then the command's own effect. -/
def takeIn (s : State) (c : Cmd) (body : Cmd → State → State) : State :=
  let op := (entryOp c.entry).toNat
  if !entryOk s c.page (isCode c) c.entry || seekBeyond s c then complete s c stMalformed (pageUnit s c.page)
  else if (pageFenced s c.page && op != 0 && op != 0x11) || !legalIn op (ctxState s c.ctx) || !legalElse s c.ctx op then badState s c
  else body c s

/-- The row of opcode `op` may take an entry: one of its own opcode or of an undefined one, in the order of R474. -/
def mayTake (op : Nat) (s : State) (p : Page) (e : List Byte) : Bool :=
  ((entryOp e).toNat == op || (levelsOf (entryOp e).toNat).isEmpty) && orderOk s p e

/-- The copies that wait at a page which is not stopped: the commands distributed to it that were accepted before what its host queue
holds. -/
def openCopies (s : State) (p : Page) : List Cmd := s.cmds.filter (fun c => c.page == p && !c.taken && isCopy c && !qStopped s p)

/-- The entry at HEAD is a command of opcode `op` that is taken at once, ahead of a copy that waits (R474, R49): but a copy that is
taken at once itself goes first (R47), and one with AFTER waits for every copy (R40). -/
def headAtOnce (op : Nat) (s : State) (p : Page) : Bool :=
  let cs := openCopies s p
  atOnce op && !cs.any (fun c => atOnce (entryOp c.entry).toNat) && (hostReady s p).isSome && (match (readEntry s p).2 with
    | .ok e => (entryOp e).toNat == op && orderOk s p e && !(entryAfter e && !cs.isEmpty)
    | .error _ => false)

/-- The entry at HEAD of a page's host queue is taken. One that cannot be read ends in every row, once no context command of
the page is in flight (R41, R474). -/
def takeHead (op : Nat) (p : Page) (body : Cmd → State → State) (s : State) : State :=
  match hostReady s p with
  | none => s
  | some cov =>
    let index := BitVec.ofNat 16 (qHead s p)
    match readEntry s p with
    | (s', .error (st, va)) =>
      if (inFlight s p).any (fun c => isCtxOp (entryOp c.entry).toNat) then s
      else
        let w := errWord st cov.ctx (pageUnit s' p) 0
        let s := errRecord (advanceHead s' p) p w
        postCq s ⟨cov.q, pageUnit s p, 0, st, cov.ctx, false, decide (p = .owner), index, BitVec.ofNat 64 va, 0, 0⟩
    | (s', .ok e) =>
      if !mayTake op s p e then s
      else
        let c : Cmd := ⟨s'.nextId, p, cov.ctx, .host cov.q, e, true, [], stOk, none, index, s.tick⟩
        let s := advanceHead { s' with cmds := s'.cmds ++ [c], nextId := s'.nextId + 1 } p
        takeIn s c body

/-- A copy or code-queue entry that waits is taken. -/
def takeHeld (op : Nat) (p : Page) (body : Cmd → State → State) (s : State) (c : Cmd) : State :=
  if !mayTake op s p c.entry then s
  else
    let c := { c with taken := true, since := s.tick }
    takeIn { s with cmds := s.cmds.map (fun x => if x.id == c.id then c else x) } c body

/-- The row of opcode `op` takes the next entry of a page: one of its own opcode; an entry that cannot be read and one of an
undefined opcode end in every row. -/
def command (op : Nat) (p : Page) (body : Cmd → State → State) (s : State) : State :=
  let inReset := match pageRing p with | some r => ringBusy s r | none => false
  if inReset then s
  else if headAtOnce op s p then takeHead op p body s
  else match nextHeld s p op with
    | some c => takeHeld op p body s c
    | none => takeHead op p body s

/-- The end of a command at its own unit. -/
def finish (s : State) (c : Cmd) (st : Byte) : State := complete s c st (pageUnit s c.page)

/-! ## Distribution (R46) -/

/-- Insert copies of a command at pages of the level below. -/
def copyTo (s : State) (c : Cmd) (ps : List Page) : State :=
  let news := ps.zipIdx.map (fun (x : Page × Nat) =>
    (⟨s.nextId + x.2, x.1, c.ctx, .copy c.id, c.entry, false, [], stOk, none, 0, 0⟩ : Cmd))
  let c' := { c with members := c.members ++ news.map (fun x => x.id) }
  { s with
    cmds := s.cmds.map (fun x => if x.id == c.id then c' else x) ++ news,
    nextId := s.nextId + ps.length }

/-- The direct members of a gang as modules to send to; a sub-gang that this module heads itself is entered in place: its members join
these, and no copy stands in this module's own gang page, so that OUTSTANDING does not count one (DESIGN CHOICE, log entry 174). The
table holds 64 entries and no cycle, so 64 is deep enough. -/
def gangTargets (s : State) : Nat → GangEntry → List (BitVec 16 × BitVec 16)
  | 0, e => e.members
  | f + 1, e => (e.members.map (fun m =>
      if m.1 == nodeId s && m.2 != 0 then
        match gangEntry s m.2 with
        | some x => gangTargets s f x
        | none => [m]
      else [m])).flatten

/-- How often a gang command has reached this module for a context by way of a head: its gang page for sub-gang `g`, or its module
page (`g` 0). -/
def gangCount (s : State) (src g : BitVec 16) (n : CtxId) (e : List Byte) : Nat :=
  (s.gangSeen.filter (fun x => x == (src, g, n, e))).length

/-- A gang command that comes by way of a head has come before by way of another (R32): that one has brought it more often.
How a module knows the command again is the model's choice (DESIGN CHOICE, log entry 120). -/
def secondCopy (s : State) (src g : BitVec 16) (n : CtxId) (e : List Byte) : Bool :=
  s.gangSeen.any (fun x => x.1 != src && x.2 == (g, n, e) && decide (gangCount s src g n e < gangCount s x.1 g n e))

/-- A gang command reaches a page of this module for a context by way of a head. -/
def noteGang (s : State) (src g : BitVec 16) (n : CtxId) (e : List Byte) : State :=
  { s with gangSeen := s.gangSeen ++ [(src, g, n, e)] }

/-- Replace a command in flight. -/
def putCmd (s : State) (c : Cmd) : State := { s with cmds := s.cmds.map (fun x => if x.id == c.id then c else x) }

/-- A member of a group refuses its copy at once. -/
def memberRefuses (s : State) (c : Cmd) (unit : BitVec 32) : State :=
  putCmd s { c with
    status := statusJoin c.status stRefuse,
    err := if c.err == none then some (errWord stRefuse c.ctx unit (entryTag c.entry)) else c.err }

/-- One member of a gang gets its copy: this module's own page, or a GANG_CMD under the message tag `mtag`. `twice` where the
gang reaches the member a second time. -/
def passMember (s : State) (c : Cmd) (m : BitVec 16 × BitVec 16) (mtag : Nat) (twice : Bool) : State :=
  if m.1 == nodeId s && m.2 == 0#16 then
    let again := twice || secondCopy s (nodeId s) 0 c.ctx c.entry
    let s := noteGang s (nodeId s) 0 c.ctx c.entry
    if again then memberRefuses s c (unitModule s) else copyTo s c [.module c.ctx]
  else
    { putCmd s { c with members := c.members ++ [mtag] } with
      out := s.out ++ [⟨m.1, if m.2 == 0#16 then gangOf s c.ctx else m.2, c.ctx, 0x10,
        c.entry ++ bytesOf (nodeId s).toNat 2 ++ bytesOf c.ctx.toNat 1, BitVec.ofNat 32 mtag, false⟩] }

/-- A gang UCB passes a command to each direct member; copies for one module carry one message tag. -/
def passGang (s : State) (c : Cmd) : State :=
  let g := match c.src with | .remote _ _ g => g | _ => gangOf s c.ctx
  match gangEntry s g with
  | none => finish s c stRefuse
  | some e =>
    let ts := gangTargets s 64 e
    let base := s.nextId
    ts.zipIdx.foldl (fun (s : State) (m : (BitVec 16 × BitVec 16) × Nat) =>
      match s.cmds.find? (fun x => x.id == c.id) with
      | none => s
      | some c => passMember s c m.1 (base + ts.idxOf m.1) (ts.idxOf m.1 != m.2))
      { s with nextId := s.nextId + ts.length }

/-- A command that a gang page passes on and every other page runs itself. -/
def viaGang (body : Cmd → State → State) (c : Cmd) (s : State) : State :=
  match c.page with
  | .gang _ => passGang s c
  | _ => body c s

/-- A command that waits for members: a gang page's, or a RUN_CHAIN above the tiles. -/
def isGroup (c : Cmd) : Bool :=
  match c.page with
  | .gang _ => !((entryOp c.entry).toNat == 0 || (entryOp c.entry).toNat == 0x11)
  | .module _ | .ring .. => (entryOp c.entry).toNat == 0x10
  | _ => false

/-- GROUP_COMMAND_COMPLETE (R48). -/
def execGroupCommandComplete (id : Nat) (s : State) : Outcome State Fault Refusal :=
  .next (match s.cmds.find? (fun c => c.id == id && c.taken && isGroup c && c.members.isEmpty) with
    | none => s
    | some c =>
      let unit := match c.err with
        | some w => BitVec.ofNat 32 (getF w 16 32)
        | none => pageUnit s c.page
      complete s c c.status unit)

/-- NOP (R41). -/
def execNop (p : Page) (s : State) : Outcome State Fault Refusal :=
  .next (command 0x00 p (fun c s => finish s c stOk) s)

/-- QUERY (R41, R374): the completion carries UCB.STATE, CTX_STATUS where the page has one, and UCB.CAP, as they
are once the QUERY itself is complete (DEDUCED). -/
def execQuery (p : Page) (s : State) : Outcome State Fault Refusal :=
  .next (command 0x11 p (fun c s =>
    let s := { s with cmds := s.cmds.filter (fun x => x.id != c.id) }
    let w0 := ucbState s p c.ctx
    let w1 : Word64 := match p with
      | .module n => ctxStatus s n
      | .owner => ctxStatus s c.ctx
      | _ => 0
    deliver s c stOk w0 w1 (ucbCap s p)) s)

/-! ## RUN_CHAIN (R213, R217, R219, R258, R475) -/

/-- At a tile the descriptor is read and checked, and the command waits for the chain to begin. -/
def runChainTile (t : TileId) (c : Cmd) (s : State) : State :=
  let n := c.ctx
  let va := fieldAt c.entry 8 8
  match lowTask s t n with
  | none => finish s c stOk
  | some k =>
    if va % 64 != 0 || !vaOk s n va 64 false then finish s c stMalformed
    else
      let (s, hd, m) := readLines s n va 64 1
      let ns := chStages hd
      if m != 0 then finish s c stHostMemerr
      else if 8 < ns || !vaOk s n va (64 + 64 * ns) false then finish s c stMalformed
      else
        let (s, d, m) := readLines s n va (64 + 64 * ns) 1
        if m != 0 then finish s c stHostMemerr
        else if !chainOk s t k n d (!isCopy c) then finish s c stMalformed
        else { s with chainWaits := s.chainWaits ++ [⟨t, n, k, none, some c.id, d⟩] }

/-- The effect of an accepted RUN_CHAIN at each level. -/
def runChain (c : Cmd) (s : State) : State :=
  if (infoOf s c.ctx).fp != reg s aFingerprint then finish s c stFingerprint
  else match c.page with
    | .module n => copyTo s c ((allRings.filter (fun r => !isOos s r)).map (fun r => .ring r n))
    | .ring r n => copyTo s c (((ringTiles r).filter (fun t => !isFenced s t)).map (fun t => .tile t n))
    | .tile t _ => runChainTile t c s
    | _ => passGang s c

/-- RUN_CHAIN (R217). -/
def execRunChain (p : Page) (s : State) : Outcome State Fault Refusal := .next (command 0x10 p runChain s)

end Sys2Proof.Machine
end

