-- ==== Sys2Proof/Machine/Contexts.lean ====
section
/-! DEFINITION. The context commands (R41 to R43, R51), pausing (R474), the reclaim sweep of a context reset (R439, R86), the
end of a destruction, memory mapping (R272), gangs (R32, R43) and debug mode (R453). -/

namespace Sys2Proof.Machine

open Host (Outcome)

def budgetOf (s : State) (n : CtxId) : Nat := fld s (aCtx n) 16 12

/-! ## CTX_CREATE (R42, R43, R398, R423) -/

def ctxCreate (c : Cmd) (s : State) : State :=
  let n := c.ctx
  let sum := (allCtx.filter (fun m => ctxState s m != 0)).foldl (fun a m => a + budgetOf s m) 0
  let b := fieldAt c.entry 12 4
  if fld s (modG 0x2308) 16 12 < sum + b then finish s c stBudget
  else if !entropyOk s then finish s c stNoEntropy
  else
    let (keys, s) := takeRandom s 96
    let s := setInfo s n ⟨(c.entry.drop 32).take 32, [], 0, false, false, keys⟩
    let s := setFld (setFld (setCtxState s n 1) (aCtx n) 8 3 (fieldAt c.entry 8 1)) (aCtx n) 16 12 b
    finish s c stOk

def execCtxCreate (p : Page) (s : State) : Outcome State Fault Refusal := .next (command 0x01 p ctxCreate s)

/-! ## CTX_START, CTX_PAUSE, CTX_RESUME -/

/-- The entry thread of a task becomes READY (R163). -/
def startTask (s : State) (t : TileId) (k : Nat) : State :=
  match (List.range 32).find? (fun i => (tslotsOf s t k).getLsbD i) with
  | some h => startThread s t (BitVec.ofNat 5 h) k (s.entryPc.get (fun _ => 0) (keyTask t k)) 0
  | none => s

/-- The tasks of a context: tiles and slots. -/
def ctxTasks (s : State) (n : CtxId) : List (TileId × Nat) :=
  (allTiles.map (fun t => ((List.range 8).filter (taskOfCtx s t n)).map (fun k => (t, k)))).flatten

def ctxStart (c : Cmd) (s : State) : State :=
  if (infoOf s c.ctx).fp != reg s aFingerprint then finish s c stFingerprint
  else
    let s := (ctxTasks s c.ctx).foldl (fun s e => startTask s e.1 e.2) (setCtxState s c.ctx 3)
    finish s c stOk

def execCtxStart (p : Page) (s : State) : Outcome State Fault Refusal := .next (command 0x03 p (viaGang ctxStart) s)

/-- CTX_PAUSE: PAUSED at acceptance; it completes at CTX_PAUSE_COMPLETE. -/
def execCtxPause (p : Page) (s : State) : Outcome State Fault Refusal :=
  .next (command 0x04 p (viaGang (fun c s => setCtxState s c.ctx 4)) s)

/-- The commands of a context in flight at its own pages with an opcode. -/
def flying (s : State) (n : CtxId) (op : Nat) : List Cmd :=
  s.cmds.filter (fun c => c.ctx == n && c.taken && (entryOp c.entry).toNat == op && (c.page == .module n || c.page == .owner))

/-- CTX_PAUSE_COMPLETE (R474): every chain of the context that had begun has ended. -/
def execCtxPauseComplete (n : CtxId) (s : State) : Outcome State Fault Refusal :=
  .next (
    if s.chains.any (fun e => match e.2 with | some c => c.ctx == n | none => false) then s
    else (flying s n 0x04).foldl (fun s c => finish s c stOk) s)

def execCtxResume (p : Page) (s : State) : Outcome State Fault Refusal :=
  .next (command 0x05 p (viaGang (fun c s => finish (setCtxState s c.ctx 3) c stOk)) s)

/-! ## The release of a context's work (R49, R86, R439) -/

/-- A command ends with ABORTED at its unit; a group's status and record take in what its members left (R48). -/
def abortCmd (s : State) (id : Nat) : State :=
  match s.cmds.find? (fun c => c.id == id) with
  | none => s
  | some c => complete s c (statusJoin c.status stAborted) (match c.err with
    | some w => BitVec.ofNat 32 (getF w 16 32)
    | none => pageUnit s c.page)

/-- The commands of a context that are accepted and not complete end with ABORTED, but for resets: at the tiles first, then
at each level above. -/
def abortCommands (s : State) (n : CtxId) : State :=
  let mine (c : Cmd) : Bool := c.ctx == n && (entryOp c.entry).toNat != 6 && (entryOp c.entry).toNat != 7 &&
    (entryOp c.entry).toNat != 0x20
  let ids := (List.range 5).flatMap (fun k => (s.cmds.filter (fun c => mine c && pageKind c.page == k)).map (fun c => c.id))
  ids.foldl abortCmd s

/-- One task's release on its tile: threads FREE, queues empty, tokens 0, accumulator blocks zero-filled, its stationary
operand, whole or cut off in its load, cleared (R101, R113). -/
def sweepTask (s : State) (t : TileId) (k : Nat) : State :=
  let s := (List.range 32).foldl (fun s h => if (tslotsOf s t k).getLsbD h then
    let key := keyThread t (BitVec.ofNat 5 h)
    setThreadState { s with
      wake := s.wake.set (fun _ => 0) key 0,
      pcOut := s.pcOut.set (fun _ => false) key false,
      loads := s.loads.filter (fun l => !(l.t == t && l.h.toNat == h)) } t (BitVec.ofNat 5 h) 0 else s) s
  let s := (List.range 16).foldl (fun s q => if tqValid s t q && tqTask s t q == k then
    { setFld s (aTq t q) 32 10 0 with qhead := s.qhead.set (fun _ => 0) (t.toNat * 16 + q) 0 } else s) s
  let s := { s with tokens := s.tokens.clear (fun i => i / 32 == keyTask t k) }
  let s := accZero s t (taskAbase s t k) (taskAlimit s t k)
  if fld s (aArrStatus t) 4 3 == k then
    { setFld s (aArrStatus t) 3 1 0 with stat := s.stat.clear (fun i => i / 64 == t.toNat), statMeta := s.statMeta.set (fun _ => 0) t.toNat 0 }
  else s

/-- One tile's release of a context's curve and table slots. -/
def sweepTile (n : CtxId) (s : State) (t : TileId) : State :=
  let s := (List.range 8).foldl (fun s i =>
    let slot := 8 + i
    if curveOwned s t slot && curveCtx s t slot == n then
      { setReg s (aCurve t slot) 0 with curveOwned := s.curveOwned.set (fun _ => false) (t.toNat * 16 + slot) false }
    else s) s
  setReg s (aTbl t n) 0

/-- The sweep of a context's work on the tiles whose domains execute open cycles (R86, R248). -/
def sweepOpen (s : State) (n : CtxId) : State :=
  let s := ((ctxTasks s n).filter (fun e => ringOpen s (ringOf e.1))).foldl (fun s e => sweepTask s e.1 e.2) s
  (allTiles.filter (fun t => ringOpen s (ringOf t))).foldl (sweepTile n) s

/-- Requests that a context's streams and X-die deliveries raised at the domains it owns (R248). -/
def withdrawOwned (s : State) (n : CtxId) : State :=
  (ownedHeads s n).foldl (fun s h => shutDrop s h (fun x =>
    decide (x.src < srcHold 0) && (x.cause == 0 || x.cause == 3 || x.cause == 4 || x.cause == 5))) s

/-- What a context reset, a destruction and a debug unlock do to the work of a context: `cause` is that of R314, `final` the
Casement state. -/
def releaseWork (s : State) (n : CtxId) (cause final : Nat) : State :=
  let s := abortCommands s n
  let s := idleStreams 4 (abortTasks s n) n
  let s := withdrawOwned s n
  let s := sweepOpen s n
  let s := discardWhere s (fun q => q.ctx == n)
  let s := { s with
    walks := s.walks.filter (fun w => w.ctx != n),
    codeDone := s.codeDone.filter (fun d => taskCtx s d.t d.task != n) }
  abortBatch (abortBuckets (casAbort s n final) n cause) n

/-- The queues of a context's own pages leave DISABLED (R377). -/
def enableQueues (s : State) (n : CtxId) : State :=
  let clr (s : State) (p : Page) : State := if fld s (pageA p + 0x30) 39 1 == 1 then setFld s (pageA p + 0x30) 39 1 0 else s
  let s := clr (clr s (.module n)) (.gang n)
  let s := allRings.foldl (fun s r => clr s (.ring r n)) s
  allTiles.foldl (fun s t => clr s (.tile t n)) s

/-- RST.LAST, written as every reset begins (R437): level, partition, cause and context; SLOW_MEM stays. The event log takes
a record of it. -/
def resetRec (s : State) (level part cause : Nat) (n : Option CtxId) : State :=
  let a := modG 0x3008
  let c := (n.map (fun n => n.toNat)).getD 0
  let s := setReg s a (BitVec.ofNat 64 (level + part * 2 ^ 3 + cause * 2 ^ 8 + c * 2 ^ 12 + fld s a 16 1 * 2 ^ 16 + s.tick % 2 ^ 32 * 2 ^ 32))
  recordEv s 5 (match n with | some n => BitVec.ofNat 8 n.toNat | none => 0xFF) (unitModule s) (reg s a) 0

/-- A reset of the object runs. -/
def resetting (s : State) (o : ResetObj) : Bool := s.resets.any (fun r => r.obj == o && !r.done)

/-- A reset run of an object begins. -/
def addRun (s : State) (o : ResetObj) (acted : Bool) : State :=
  { s with resets := s.resets.filter (fun r => r.obj != o) ++ [⟨o, s.tick, acted, false⟩] }

/-- Begin a context reset (R439), or join the one that runs (R438); UNLOAD asks for the further release of R51. -/
def beginReset (s : State) (n : CtxId) (unload : Bool) (cause : Nat) : State :=
  let i := infoOf s n
  if ctxState s n == 6 then setInfo s n { i with unload := i.unload || unload }
  else
    let s := addRun (resetRec s 1 0 cause (some n)) (.context n) true
    let s := setInfo (setFld (setCtxState s n 6) (aCtx n) 4 1 1) n { i with unload := unload }
    enableQueues (releaseWork s n 2 1) n

/-- CTX_RESET: it stays in flight until the sweep ends. -/
def execCtxReset (p : Page) (s : State) : Outcome State Fault Refusal :=
  .next (command 0x06 p (viaGang (fun c s => beginReset s c.ctx (fieldAt c.entry 8 1 == 1) 0)) s)

/-! ## The end of a sweep and of a destruction -/

/-- No engine holds an item of the context, and the domains that it owns are open (R439, R248). -/
def sweepOver (s : State) (n : CtxId) : Bool :=
  !s.strms.any (fun e => match e.2 with | some x => x.ctx == n | none => false) &&
    !(allReqs s).any (fun q => q.ctx == n) && !s.walks.any (fun w => w.ctx == n) && !s.sends.any (fun x => x.ctx == n) &&
    !s.beats.any (fun b => b.ctx == n) && !s.drains.any (fun d => d.op.ctx == n) && !s.lvTiles.any (fun e => e.2.any (fun x => x.op.ctx == n)) && !s.gaths.any (fun g => g.ctx == n) && (ownedHeads s n).all (ringOpen s) &&
    allRings.all (fun r => ringOpen s r || !(ringTiles r).any (fun t => (List.range 8).any (taskOfCtx s t n)))

/-- The rings that a context owns. -/
def ownedRings (s : State) (n : CtxId) : List RingId :=
  allRings.filter (fun r => fld s aShtOwned r.toNat 1 == 1 && fld s aShtOwner (4 * r.toNat) 4 == n.toNat)

/-- A ring forms a domain of its own, without an owner: HOLD returns to 0 with its request (R238, R260). -/
def freeRing (s : State) (r : RingId) : State :=
  let s := shutWithdraw s r 5 (srcHold r)
  let s := setFld (setFld s aShtOwned r.toNat 1 0) aShtOwner (4 * r.toNat) 4 0
  let s := setFld (setFld s aShtMap (4 * r.toNat) 4 r.toNat) (modG (0x2100 + 8 * r.toNat)) 2 1 0
  setFld (setReg s (aShtHold r.toNat) 0) (modG (0x2400 + 8 * r.toNat)) 0 5 0

/-- One task's slot is given back; `zero` also zero-fills its scratchpad region (R51, R64). -/
def freeTask (s : State) (t : TileId) (k : Nat) : State :=
  let s := spZero s t (fld s (aBase t k) 11 10 * 2048) (fld s (aBound t k) 11 11 * 2048)
  let s := (List.range 16).foldl (fun s q => if tqValid s t q && tqTask s t q == k then setReg s (aTq t q) 0 else s) s
  let s := { s with
    tslots := s.tslots.set (fun _ => 0) (keyTask t k) 0,
    entryPc := s.entryPc.set (fun _ => 0) (keyTask t k) 0 }
  let s := ownStrms s t (taskSbase s t k) (taskScount s t k) 0
  setReg (setReg (setReg s (aBase t k) 0) (aBound t k) 0) (aTask t k) 0

/-- Release task slots, ownership and scratchpad regions (R51). -/
def releasePlace (s : State) (n : CtxId) : State :=
  let s := (ctxTasks s n).foldl (fun s e => freeTask s e.1 e.2) s
  (ownedRings s n).foldl freeRing s

/-- Mark a reset run of an object done. -/
def resetDone (s : State) (o : ResetObj) : State :=
  { s with resets := s.resets.map (fun r => if r.obj == o && !r.done then { r with done := true, tick := s.tick } else r) }

/-- RECLAIM_SWEEP_END (R439, R51): the tiles of domains that were closed are swept by now as the others are. -/
def execReclaimSweepEnd (n : CtxId) (s : State) : Outcome State Fault Refusal :=
  .next (
    if ctxState s n != 6 || !sweepOver s n then s
    else
      let s := sweepOpen s n
      let i := infoOf s n
      let s := if i.unload then
          let s := releasePlace s n
          let s := (s.loadPages.filter (fun p => p.1 == n.toNat)).foldl (fun s p => unmapPages s n p.2.1 p.2.2) s
          { setInfo s n { i with loaded := false, unload := false, fp := 0, digest := [] } with
            loadPages := s.loadPages.filter (fun p => p.1 != n.toNat) }
        else s
      let s := setFld (setCtxState s n (if (infoOf s n).loaded then 2 else 1)) (aCtx n) 4 1 0
      let s := resetDone s (.context n)
      (flying s n 0x06).foldl (fun s c => finish s c stOk) s)

/-- A pair becomes OFF: the completion entries it holds are discarded and counted, and what waits to leave goes with them (R368, R375). -/
def pairOff (s : State) (q : PairId) : State :=
  let held := (s.cq.filter (fun e => e.q == q)).length
  let s := setFld (satAdd s (aPair q) 32 16 held) (aPair q) 0 8 0
  { s with
    cq := s.cq.filter (fun e => e.q != q),
    replies := s.replies.filter (fun r => r.q != q),
    hostOut := s.hostOut.filter (fun f => f.hdr.gang.toNat != q.toNat),
    cqCredit := s.cqCredit.set (fun _ => 0) q.toNat 0,
    violTimes := s.violTimes.set (fun _ => []) q.toNat [] }

/-- Close the sessions that `p` selects: their pairs become OFF (R368, R394). -/
def closeSessions (s : State) (p : Session → Bool) : State :=
  let gone := s.latch.sessions.filter p
  let s := gone.foldl (fun s x => x.pairs.foldl pairOff s) s
  let l := { s.latch with sessions := s.latch.sessions.filter (fun x => !p x) }
  setFld { s with latch := l } (latchA 0) 8 8 l.sessions.length

/-- Begin to destroy a context: DESTROYING, its work ended, its sessions closed, its jobs gone (R51, R314, R341, R394). -/
def beginDestroy (s : State) (n : CtxId) : State :=
  let s := setCtxState s n 7
  let s := releaseWork s n 3 0
  let s := setDsp (setRed s n none) n none
  closeSessions s (fun x => !x.owner && x.ctx == n)

def execCtxDestroy (p : Page) (s : State) : Outcome State Fault Refusal :=
  .next (command 0x07 p (fun c s => beginDestroy s c.ctx) s)

/-- A destroyed context's state and keys are zeroised, its memory unmapped, and it is FREE (R51, R64, R272, R398, R443). -/
def zeroise (s : State) (n : CtxId) : State :=
  let s := unmapAll (releasePlace s n) n
  let s := { s with
    ctxInfo := s.ctxInfo.clear (fun k => k == n.toNat),
    gangSeen := s.gangSeen.filter (fun x => x.2.2.1 != n),
    gens := s.gens.set (fun _ => 0) n.toNat 0,
    hzRing := s.hzRing.set (fun _ => 0) n.toNat 0,
    hzSlots := s.hzSlots.set (fun _ => 0) n.toNat 0,
    ptes := s.ptes.clear (fun a => a / 4096 == fld s (aMemRoot n) 12 28) }
  let s := resetRegs s (fun a => a == aCtx n || a == aMemRoot n || a == aSeed n || a == aStep n || a == aHz n ||
    a == modG (0x4000 + 8 * n.toNat) || (aRank n ≤ a && a ≤ aDspCount n) || (aCasState n ≤ a && a ≤ aCasLog n))
  s

/-- ZEROISATION_END (R51). -/
def execZeroisationEnd (n : CtxId) (s : State) : Outcome State Fault Refusal :=
  .next (
    if ctxState s n != 7 || !sweepOver s n then s
    else
      let cs := flying s n 0x07
      cs.foldl (fun s c => finish s c stOk) (zeroise (sweepOpen s n) n))

/-! ## MEM_MAP and MEM_UNMAP (R272) -/

def mappedPage (s : State) (n : CtxId) (vpn : Nat) : Bool := getF (walk s n vpn) 0 1 == 1

def memMap (c : Cmd) (s : State) : State :=
  let n := c.ctx
  let vpn := fieldAt c.entry 8 8 / frameSize
  let pages := fieldAt c.entry 16 4
  let f := fieldAt c.entry 20 1
  if fld s aMemFree 0 19 < pages then finish s c stNoMemory
  else if (List.range pages).any (fun i => mappedPage s n (vpn + i)) then finish s c stMalformed
  else finish (mapPages s n vpn pages (f % 2 == 1) (f / 2 == 1)) c stOk

def execMemMap (p : Page) (s : State) : Outcome State Fault Refusal := .next (command 0x12 p memMap s)

/-- The ranges that CTX_LOAD mapped and that still stand, once pages are unmapped. -/
def dropLoaded (n : CtxId) (vpn pages : Nat) (l : List (Nat × Nat × Nat)) : List (Nat × Nat × Nat) :=
  l.flatMap (fun p =>
    if p.1 != n.toNat then [p]
    else
      let below := (p.1, p.2.1, min vpn (p.2.1 + p.2.2) - p.2.1)
      let from' := max p.2.1 (vpn + pages)
      let above := (p.1, from', p.2.1 + p.2.2 - from')
      [below, above].filter (fun x => x.2.2 != 0))

def memUnmap (c : Cmd) (s : State) : State :=
  let n := c.ctx
  let vpn := fieldAt c.entry 8 8 / frameSize
  let pages := fieldAt c.entry 16 4
  if 289792 < pages || !(List.range pages).all (fun i => mappedPage s n (vpn + i)) then finish s c stMalformed
  else
    let s := unmapPages s n vpn pages
    finish { s with loadPages := dropLoaded n vpn pages s.loadPages } c stOk

def execMemUnmap (p : Page) (s : State) : Outcome State Fault Refusal := .next (command 0x13 p memUnmap s)

/-! ## GANG_DEFINE and GANG_BIND (R31, R32, R43) -/

/-- The members of a gang record. -/
def recMembers (r : List Byte) : List (BitVec 16 × BitVec 16) :=
  (List.range (fieldAt r 4 1)).map (fun m => (BitVec.ofNat 16 (fieldAt r (16 + 8 * m) 2), BitVec.ofNat 16 (fieldAt r (18 + 8 * m) 2)))

/-- The record obeys R43, whatever the table holds. -/
def recOk (s : State) (r : List Byte) : Bool :=
  let k := fieldAt r 4 1
  fieldAt r 0 2 != 0 && fieldAt r 2 2 == (nodeId s).toNat && k ≤ 16 && zeroBytes r 5 16 && zeroBytes r (16 + 8 * k) 144 &&
    (List.range k).all (fun m => zeroBytes r (20 + 8 * m) (24 + 8 * m)) &&
    (k == 0 || (recMembers r).any (fun m => m.1 == nodeId s))

/-- The answer for one sub-gang of a definition of gang `g` (R32): this module's own table where it is the head, walked to
its depth; else the next answer of the other heads, in the order in which the walk reaches them. -/
def askSub : Nat → State → BitVec 16 → BitVec 16 × BitVec 16 → List SubAnswer → SubAnswer × List SubAnswer
  | 0, _, _, _, as => (⟨false, 0, false⟩, as)
  | fuel + 1, s, g, m, as =>
    if m.1 != nodeId s then
      match as with
      | [] => (⟨false, 0, m.2 == g⟩, [])
      | a :: as => ({ a with meets := a.meets || m.2 == g }, as)
    else if m.2 == g then (⟨true, 0, true⟩, as)
    else match gangEntry s m.2 with
      | none => (⟨false, 0, false⟩, as)
      | some e =>
        e.members.foldl (fun (acc : SubAnswer × List SubAnswer) x =>
          if x.2 == 0 then (⟨true, acc.1.modules + 1, acc.1.meets⟩, acc.2)
          else
            let (a, rest) := askSub fuel s g x acc.2
            (⟨true, acc.1.modules + a.modules, acc.1.meets || a.meets⟩, rest)) (⟨true, 0, false⟩, as)

/-- The answer for each member of a record: a module member stands for itself. -/
def memberAnswers (s : State) (g : BitVec 16) (ms : List (BitVec 16 × BitVec 16)) (as : List SubAnswer) : List SubAnswer :=
  (ms.foldl (fun (acc : List SubAnswer × List SubAnswer) m =>
    if m.2 == 0 then (acc.1 ++ [⟨true, 1, false⟩], acc.2)
    else
      let (a, rest) := askSub 65 s g m acc.2
      (acc.1 ++ [a], rest)) ([], as)).1

/-- The answers allow the definition (R32). -/
def answersOk (as : List SubAnswer) : Bool :=
  as.all (fun a => a.isDefined && !a.meets) && (as.map (fun a => a.modules)).foldl (· + ·) 0 ≤ 65536

/-- A structure in the owner area (R475, R369): its bytes, or the status. -/
def readOwner (s : State) (va len align : Nat) : State × Except Byte (List Byte) :=
  if va % align != 0 || 0x40000 < va + len then (s, .error stMalformed)
  else match readPhys s 0xF (ownerBase + va) len 0 with
    | (s, bs, 0) => (s, .ok bs)
    | (s, _, _) => (s, .error stHostMemerr)

/-- A structure in context memory (R475). -/
def readCtx (s : State) (n : CtxId) (va len align : Nat) : State × Except Byte (List Byte) :=
  if va % align != 0 || !vaOk s n va len false then (s, .error stMalformed)
  else match readVa s n va len 1 with
    | (s, bs, 0) => (s, .ok bs)
    | (s, _, _) => (s, .error stHostMemerr)

/-- GANG_DEFINE; the checks come in this order: the record, a deletion, the sub-gangs (R32), BAD_STATE for a gang that a
context is bound to, TABLE_FULL (DESIGN CHOICE, log entry 122). -/
def gangDefine (answers : List SubAnswer) (c : Cmd) (s : State) : State :=
  match readOwner s (fieldAt c.entry 8 8) 144 64 with
  | (s, .error st) => finish s c st
  | (s, .ok r) =>
    let g : BitVec 16 := BitVec.ofNat 16 (fieldAt r 0 2)
    let known := (gangEntry s g).isSome
    let bound := allCtx.any (fun n => gangOf s n == g)
    let ms := recMembers r
    let as := memberAnswers s g ms answers
    if !recOk s r then finish s c stMalformed
    else if ms.isEmpty then
      if !known then finish s c stMalformed
      else if bound then badState s c
      else finish { s with gangs := s.gangs.filter (fun e => e.gang != g) } c stOk
    else if !answersOk as then finish s c stMalformed
    else if known && bound then badState s c
    else if !known && 64 ≤ s.gangs.length then finish s c stTableFull
    else finish { s with gangs := s.gangs.filter (fun e => e.gang != g) ++ [⟨g, ms, as.map (fun a => a.modules)⟩] } c stOk

def execGangDefine (p : Page) (answers : List SubAnswer) (s : State) : Outcome State Fault Refusal :=
  .next (command 0x08 p (gangDefine answers) s)

/-- GANG_BIND: in LOADED a context unbound or bound to another gang loses its reduction job and dispatch configuration. -/
def gangBind (c : Cmd) (s : State) : State :=
  let n := c.ctx
  let g := fieldAt c.entry 8 2
  let s := if ctxState s n == 2 && g != (gangOf s n).toNat then
      let s := setDsp (setRed s n none) n none
      resetRegs s (fun a => aRank n ≤ a && a ≤ aRedStatus n)
    else s
  let s := { s with gangSeen := s.gangSeen.filter (fun x => x.2.2.1 != n) }
  finish (setFld s (aCtx n) 32 16 g) c stOk

def execGangBind (p : Page) (s : State) : Outcome State Fault Refusal := .next (command 0x09 p (viaGang gangBind) s)

/-! ## DBG_MODE (R453) -/

/-- Withdraw a context's debug hold. -/
def releaseDebug (s : State) (n : CtxId) : State :=
  setFld ((ownedHeads s n).foldl (fun s h => shutDrop s h (fun x => x.cause == 6 && x.src == srcDebug)) s) (aHz n) 34 1 0

def dbgMode (c : Cmd) (s : State) : State :=
  let n := c.ctx
  let f := fieldAt c.entry 16 1
  let va := fieldAt c.entry 24 8
  let slots := fieldAt c.entry 32 4
  if f % 2 == 0 then
    let s := releaseDebug s n
    finish (setReg (setFld s (aCtx n) 6 1 0) (aHz n) 0) c stOk
  else if va % 64 != 0 || slots == 0 || 65536 < slots || !vaOk s n va (32 * slots) true then finish s c stMalformed
  else
    let s := if f / 4 == 1 then releaseDebug s n else s
    let s := { s with hzRing := s.hzRing.set (fun _ => 0) n.toNat va, hzSlots := s.hzSlots.set (fun _ => 0) n.toNat slots }
    let s := setFld (setFld (setFld s (aCtx n) 6 1 1) (aHz n) 32 1 1) (aHz n) 33 1 (f / 2 % 2)
    finish s c stOk

def execDbgMode (p : Page) (s : State) : Outcome State Fault Refusal := .next (command 0x21 p (viaGang dbgMode) s)

end Sys2Proof.Machine
end

