-- ==== Sys2Proof/Machine/Loader.lean ====
section
/-! DEFINITION. CTX_LOAD: the checks of a Guver object (R44), its placement (R53, R238) and its loading (R45, R414). -/

namespace Sys2Proof.Machine

open Host (Outcome)

/-! ## Records of an object -/

def obTasks (o : List Byte) : Nat := fieldAt o 52 4
def obSegs (o : List Byte) : Nat := fieldAt o 56 4
def obRelocs (o : List Byte) : Nat := fieldAt o 60 4
def obTask (o : List Byte) (i : Nat) : List Byte := (o.drop (fieldAt o 64 8 + 96 * i)).take 96
def obSeg (o : List Byte) (i : Nat) : List Byte := (o.drop (fieldAt o 72 8 + 32 * i)).take 32
def obReloc (o : List Byte) (i : Nat) : List Byte := (o.drop (fieldAt o 80 8 + 16 * i)).take 16

/-- A span lies within the object. -/
def within (o : List Byte) (off len : Nat) : Bool := off + len ≤ o.length

def headerOk (o : List Byte) : Bool :=
  128 ≤ o.length && o.take 4 == [0x47, 0x55, 0x56, 0x4F] && fieldAt o 4 2 == 1 && zeroBytes o 6 8 && fieldAt o 20 2 ≤ 512 &&
    fieldAt o 22 1 ≤ 32 && zeroBytes o 23 24 && zeroBytes o 88 128 && 1 ≤ obTasks o && obTasks o ≤ 4096 && obSegs o ≤ 65535 &&
    [64, 72, 80].all (fun i => fieldAt o i 8 % 8 == 0) && within o (fieldAt o 64 8) (96 * obTasks o) &&
    within o (fieldAt o 72 8) (32 * obSegs o) && within o (fieldAt o 80 8) (16 * obRelocs o) &&
    (List.range 16).all (fun r => fieldAt o (24 + r) 1 < 16 || fieldAt o (24 + r) 1 == 0xFF)

/-- A task record of R44. -/
def taskRecOk (s : State) (o r : List Byte) : Bool :=
  let nq := fieldAt r 5 1
  let sp := fieldAt r 12 4
  fieldAt r 0 2 < 512 && tileOn s (BitVec.ofNat 9 (fieldAt r 0 2)) && 1 ≤ fieldAt r 2 1 && fieldAt r 2 1 ≤ 32 &&
    1 ≤ fieldAt r 3 1 && fieldAt r 3 1 ≤ 64 && fieldAt r 4 1 ≤ 32 && nq ≤ 16 && 1 ≤ fieldAt r 8 4 && fieldAt r 8 4 ≤ 8192 &&
    sp ≤ 1024 && fieldAt r 16 8 % 8 == 0 && within o (fieldAt r 16 8) (8 * fieldAt r 8 4) &&
    zeroBytes r 24 32 && zeroBytes r (32 + 4 * nq) 96 &&
    (List.range nq).all (fun q =>
      let w := fieldAt r (32 + 4 * q) 4
      let slots := w / 2 ^ 14 % 1024
      w / 2 ^ 24 == 0 && 1 ≤ slots && (w % 2 ^ 14 + slots) * 128 ≤ sp * 2048)

/-- A segment record of R44. -/
def segRecOk (o r : List Byte) : Bool :=
  let pages := fieldAt r 8 4
  let len := fieldAt r 24 8
  fieldAt r 0 8 % frameSize == 0 && 1 ≤ pages && fieldAt r 0 8 + pages * frameSize ≤ 2 ^ 48 && fieldAt r 12 1 ≤ 3 &&
    zeroBytes r 13 16 && len ≤ pages * frameSize && within o (fieldAt r 16 8) len && (len != 0 || fieldAt r 16 8 == 0)

/-- The 8 B word of a relocation lies inside a task's code or a segment's initial contents. -/
def relocInside (o : List Byte) (off : Nat) : Bool :=
  (List.range (obTasks o)).any (fun i =>
    let r := obTask o i
    fieldAt r 16 8 ≤ off && off + 8 ≤ fieldAt r 16 8 + 8 * fieldAt r 8 4) ||
  (List.range (obSegs o)).any (fun i =>
    let r := obSeg o i
    fieldAt r 16 8 ≤ off && off + 8 ≤ fieldAt r 16 8 + fieldAt r 24 8)

def relocRecOk (o r : List Byte) : Bool :=
  let kind := fieldAt r 8 1
  let i := fieldAt r 12 4
  fieldAt r 0 8 % 8 == 0 && relocInside o (fieldAt r 0 8) && kind ≤ 2 && fieldAt r 9 1 ≤ 63 && 1 ≤ fieldAt r 10 1 &&
    fieldAt r 10 1 ≤ 32 && fieldAt r 9 1 + fieldAt r 10 1 ≤ 64 && i < obTasks o &&
    (if kind == 1 then fieldAt r 11 1 < fieldAt (obTask o i) 5 1 else fieldAt r 11 1 == 0)

/-- Step 1 of R45. -/
def objectOk (s : State) (o : List Byte) : Bool :=
  headerOk o && (List.range (obTasks o)).all (fun i => taskRecOk s o (obTask o i)) &&
    (List.range (obSegs o)).all (fun i => segRecOk o (obSeg o i)) &&
    (List.range (obRelocs o)).all (fun i => relocRecOk o (obReloc o i))

/-! ## Domains (R237, R238) -/

def domByte (o : List Byte) (r : Nat) : Nat := fieldAt o (24 + r) 1

/-- The declared domains are contiguous ranges named by their lowest ring, in service, and owned by no other context. -/
def domainsOk (s : State) (n : CtxId) (o : List Byte) : Bool :=
  (List.range 16).all (fun r =>
    let h := domByte o r
    let ring : RingId := BitVec.ofNat 4 r
    h == 0xFF || (h ≤ r && (List.range (r - h + 1)).all (fun i => domByte o (h + i) == h) && !isOos s ring &&
      !(fld s aShtOwned r 1 == 1 && fld s aShtOwner (4 * r) 4 != n.toNat)))

/-! ## Placement (R53): the lowest free place of each kind on the tile -/

/-- Where a task record is placed. -/
structure Place where
  t : TileId
  k : Nat
  ibase : Nat
  ilen : Nat
  spBase : Nat
  spLen : Nat
  accBase : Nat
  accLen : Nat
  sBase : Nat
  sLen : Nat
  threads : List Nat
  queues : List Nat
  deriving DecidableEq, Repr

/-- The lowest start of a free range of `len` among `total`, the ranges given being taken. -/
def gap (taken : List (Nat × Nat)) (total len : Nat) : Option Nat :=
  let free (b : Nat) : Bool := b + len ≤ total && taken.all (fun e => e.2 == 0 || len == 0 || b + len ≤ e.1 || e.1 + e.2 ≤ b)
  (0 :: taken.map (fun e => e.1 + e.2)).foldl (fun best b =>
    if !free b then best else match best with
      | none => some b
      | some x => some (min x b)) none

/-- The valid tasks of a tile as places. -/
def placesOn (s : State) (t : TileId) : List Place :=
  ((List.range 8).filter (taskValid s t)).map (fun k =>
    { t := t, k := k, ibase := taskIbase s t k, ilen := taskIlimit s t k - taskIbase s t k,
      spBase := fld s (aBase t k) 11 10, spLen := fld s (aBound t k) 11 11 - fld s (aBase t k) 11 10,
      accBase := taskAbase s t k, accLen := taskAlimit s t k - taskAbase s t k, sBase := taskSbase s t k,
      sLen := taskScount s t k, threads := (List.range 32).filter (fun i => (tslotsOf s t k).getLsbD i),
      queues := (List.range 16).filter (fun q => tqValid s t q && tqTask s t q == k) })

/-- Place one task record beside the places already taken. -/
def placeTask (s : State) (made : List Place) (r : List Byte) : Option Place :=
  let t : TileId := BitVec.ofNat 9 (fieldAt r 0 2)
  let here := placesOn s t ++ made.filter (fun p => p.t == t)
  let threads := ((List.range 32).filter (fun i => !here.any (fun p => p.threads.contains i))).take (fieldAt r 2 1)
  let queues := ((List.range 16).filter (fun i => !here.any (fun p => p.queues.contains i))).take (fieldAt r 5 1)
  match (List.range 8).find? (fun k => !here.any (fun p => p.k == k)), gap (here.map (fun p => (p.ibase, p.ilen))) 8192 (fieldAt r 8 4),
      gap (here.map (fun p => (p.spBase, p.spLen))) 1024 (fieldAt r 12 4), gap (here.map (fun p => (p.accBase, p.accLen))) 32 (fieldAt r 4 1),
      gap (here.map (fun p => (p.sBase, p.sLen))) 64 (fieldAt r 3 1) with
  | some k, some i, some sp, some a, some x =>
    if threads.length == fieldAt r 2 1 && queues.length == fieldAt r 5 1 then
      some ⟨t, k, i, fieldAt r 8 4, sp, fieldAt r 12 4, a, fieldAt r 4 1, x, fieldAt r 3 1, threads, queues⟩
    else none
  | _, _, _, _, _ => none

/-- Place every task record, in order. -/
def placeAll (s : State) (o : List Byte) : Option (List Place) :=
  (List.range (obTasks o)).foldl (fun acc i => match acc with
    | none => none
    | some ps => (placeTask s ps (obTask o i)).map (fun p => ps ++ [p])) (some [])

/-! ## Relocation (R44) -/

def relocValue (s : State) (ps : List Place) (r : List Byte) : Nat :=
  match ps[fieldAt r 12 4]? with
  | none => 0
  | some p => match fieldAt r 8 1 with
    | 0 => p.k
    | 1 => p.queues.getD (fieldAt r 11 1) 0
    | _ => (unitTile s p.t).toNat

/-- A value that does not fit fails the load. -/
def relocFits (s : State) (ps : List Place) (r : List Byte) : Bool := relocValue s ps r < 2 ^ fieldAt r 10 1

def patchBytes (o : List Byte) (off : Nat) (bs : List Byte) : List Byte := o.take off ++ bs ++ o.drop (off + bs.length)

def applyReloc (s : State) (ps : List Place) (o r : List Byte) : List Byte :=
  let off := fieldAt r 0 8
  let w := putF (BitVec.ofNat 64 (fieldAt o off 8)) (fieldAt r 9 1) (fieldAt r 10 1) (relocValue s ps r)
  patchBytes o off (bytesOf w.toNat 8)

def relocated (s : State) (ps : List Place) (o : List Byte) : List Byte :=
  ((List.range (obRelocs o)).map (obReloc o)).foldl (applyReloc s ps) o

/-! ## Segments -/

/-- (first page, pages, flags) of every segment. -/
def segList (o : List Byte) : List (Nat × Nat × Nat) :=
  (List.range (obSegs o)).map (fun i => (fieldAt (obSeg o i) 0 8 / frameSize, fieldAt (obSeg o i) 8 4, fieldAt (obSeg o i) 12 1))

/-- No segment overlaps another or a present mapping. -/
def segsFree (s : State) (n : CtxId) (o : List Byte) : Bool :=
  let l := segList o
  l.zipIdx.all (fun (x : (Nat × Nat × Nat) × Nat) =>
    (l.take x.2).all (fun y => x.1.1 + x.1.2.1 ≤ y.1 || y.1 + y.2.1 ≤ x.1.1) &&
      (List.range (min x.1.2.1 289793)).all (fun i => !mappedPage s n (x.1.1 + i)))

/-- Write into a context's frames past the page permissions, as Lintel does. -/
def lintelWrite (s : State) (n : CtxId) (va : Nat) (bs : List Byte) : State :=
  (lineCuts va bs.length).foldl (fun s c =>
    let a := va + c.1
    writePart s n (getF (walk s n (a / frameSize)) 12 28 * 4096 + a % frameSize) ((bs.drop c.1).take c.2) 0 false) (dieBytes s 0 bs.length)

def loadSeg (n : CtxId) (o : List Byte) (s : State) (i : Nat) : State :=
  let r := obSeg o i
  let vpn := fieldAt r 0 8 / frameSize
  let pages := fieldAt r 8 4
  let f := fieldAt r 12 1
  let s := mapPages s n vpn pages (f % 2 == 1) (f / 2 % 2 == 1)
  let s := lintelWrite s n (fieldAt r 0 8) ((o.drop (fieldAt r 16 8)).take (fieldAt r 24 8))
  { s with loadPages := s.loadPages ++ [(n.toNat, vpn, pages)] }

/-! ## Step 5 of R45 -/

def loadTask (n : CtxId) (o : List Byte) (s : State) (e : Place × Nat) : State :=
  let p := e.1
  let r := obTask o e.2
  let code := (o.drop (fieldAt r 16 8)).take (8 * p.ilen)
  let s := { s with
    imem := (List.range p.ilen).foldl (fun m i =>
      m.set (fun _ => 0) (p.t.toNat * 8192 + (p.ibase + i)) (BitVec.ofNat 64 (fieldAt code (8 * i) 8))) s.imem,
    tslots := s.tslots.set (fun _ => 0) (keyTask p.t p.k) (BitVec.ofNat 32 (p.threads.foldl (fun a i => a + 2 ^ i) 0)),
    entryPc := s.entryPc.set (fun _ => 0) (keyTask p.t p.k) (fieldAt r 6 2) }
  let s := setReg s (aTask p.t p.k) (BitVec.ofNat 64 (1 + n.toNat * 2 + p.ibase * 2 ^ 8 + (p.ibase + p.ilen) * 2 ^ 21 +
    p.accBase * 2 ^ 35 + (p.accBase + p.accLen) * 2 ^ 40 + p.sBase * 2 ^ 46 + p.sLen * 2 ^ 52))
  let s := ownStrms s p.t p.sBase p.sLen p.k
  let s := setReg s (aBase p.t p.k) (BitVec.ofNat 64 (p.spBase * 2048))
  let s := setReg s (aBound p.t p.k) (BitVec.ofNat 64 ((p.spBase + p.spLen) * 2048))
  p.queues.zipIdx.foldl (fun (s : State) (q : Nat × Nat) =>
    let w := fieldAt r (32 + 4 * q.2) 4
    let s := { s with qhead := s.qhead.set (fun _ => 0) (p.t.toNat * 16 + q.1) 0 }
    setReg s (aTq p.t q.1) (BitVec.ofNat 64 (p.k + 8 + (p.spBase * 16 + w % 2 ^ 14) * 2 ^ 7 + w / 2 ^ 14 % 1024 * 2 ^ 21))) s

/-- An object declares a domain of more than one ring that holds ring r. -/
def inWide (o : List Byte) (r : Nat) : Bool := domByte o r != 0xFF && (List.range 16).any (fun q => q != r && domByte o q == domByte o r)

/-- The rings that have still to return to divider 4 before Lintel sets SHT.MAP (R414). -/
def slowRings (s : State) (o : List Byte) : List RingId :=
  ((List.range 16).filter (fun r => inWide o r && fld s (modG (0x2100 + 8 * r)) 0 2 != 0)).map (BitVec.ofNat 4)

/-- The changes to divider 4 are asked for (R413, R414). -/
def askDividers (s : State) (rs : List RingId) : State :=
  { s with gov := { s.gov with regionNext := s.gov.regionNext.filter (fun e => !rs.contains e.1) ++ rs.map (fun r => (r, 0)) } }

/-- A CTX_LOAD taken at its module page waits for its rings' dividers. -/
def loadWaits (c : Cmd) : Bool := c.taken && (entryOp c.entry).toNat == 0x02 && (match c.page with | .module _ => true | _ => false)

/-- Claim one ring for a context (R238, R260, R414). -/
def claimRing (n : CtxId) (o : List Byte) (s : State) (r : Nat) : State :=
  let h := domByte o r
  if h == 0xFF then s
  else
    let s := shutWithdraw s (BitVec.ofNat 4 r) 5 (srcHold (BitVec.ofNat 4 r))
    let s := setReg s (aShtHold r) 0
    let s := if inWide o r then setFld s (modG (0x2100 + 8 * r)) 2 1 1 else s
    setFld (setFld (setFld s aShtMap (4 * r) 4 h) aShtOwner (4 * r) 4 n.toNat) aShtOwned r 1 1

/-- CTX_LOAD (R45, R42, R475). A relocation value that does not fit ends it MALFORMED, and so does a segment that overlaps,
both before NO_MEMORY (DESIGN CHOICE, log entry 123). While a ring of a declared domain of several rings stands at another divider
than 4, the load waits (R414). -/
def ctxLoad (c : Cmd) (s : State) : State :=
  let n := c.ctx
  match readCtx s n (fieldAt c.entry 8 8) (fieldAt c.entry 16 4) 64 with
  | (s, .error st) => finish s c st
  | (s, .ok o) =>
    if !objectOk s o then finish s c stMalformed
    else if fieldAt o 8 8 != (reg s aFingerprint).toNat then finish s c stFingerprint
    else if budgetOf s n < fieldAt o 16 4 then finish s c stBudget
    else if !domainsOk s n o then finish s c stMalformed
    else match placeAll s o with
      | none => finish s c stMalformed
      | some ps =>
        let total := (segList o).foldl (fun a x => a + x.2.1) 0
        if !((List.range (obRelocs o)).all (fun i => relocFits s ps (obReloc o i))) then finish s c stMalformed
        else if !segsFree s n o then finish s c stMalformed
        else if fld s aMemFree 0 19 < total then finish s c stNoMemory
        else if !(slowRings s o).isEmpty then askDividers s (slowRings s o)
        else
          let o' := relocated s ps o
          let s := (List.range (obSegs o)).foldl (loadSeg n o') s
          let s := ps.zipIdx.foldl (loadTask n o') s
          let s := (List.range 16).foldl (claimRing n o) s
          let s := setReg (setReg s (aSeed n) (BitVec.ofNat 64 (fieldAt o 40 8))) (aStep n) (BitVec.ofNat 64 (fieldAt o 48 4))
          let i := infoOf s n
          let s := setInfo s n { i with digest := sha256 o, fp := reg s aFingerprint, loaded := true }
          finish (setCtxState s n 2) c stOk

def execCtxLoad (p : Page) (s : State) : Outcome State Fault Refusal := .next (command 0x02 p (viaGang ctxLoad) s)

end Sys2Proof.Machine
end

