-- ==== Sys2Proof/Machine/Reduce.lean ====
section
/-! DEFINITION. The reduction engine: jobs (R301, R302), ranks (R298), seals and notices (R303, R309 to R311), decisions, the
fixed tree (R299) and the ordered sum (R300), shards (R306), gathers (R308), late fills (R310), aborts (R314) and replay
(R315, R316). -/

namespace Sys2Proof.Machine

open Host (Outcome)

/-- A read of an engine on the X-die, and whether it met poison: none where it faults, which in normal service faults the
context, naming the module (R291, R340). -/
def engineRead (s : State) (n : CtxId) (va len : Nat) : State × Option (List Byte × Bool) :=
  if !vaOk s n va len false then (ctxFault s n (unitModule s), none)
  else match readVa s n va len 1 with
    | (s, bs, m) => if isNormal s && m != 0 then (ctxFault s n (unitModule s), none) else (s, some (bs, m != 0))

/-- n values of a contribution in its format: FP32 or BF16. -/
def contribOf (fmt n : Nat) (bs : List Byte) : List F32 :=
  (List.range n).map (fun i =>
    if fmt == 10 then BitVec.ofNat 32 (fieldAt bs (4 * i) 4) else BitVec.ofNat 32 (fieldAt bs (2 * i) 2 * 65536))

def f32List (n : Nat) (bs : List Byte) : List F32 := contribOf 10 n bs

/-! ## RED_CONFIG (R298, R301, R302, R322) -/

def dChan (d : List Byte) (c i n : Nat) : Nat := fieldAt d (64 + 16 * c + i) n

/-- The job descriptor obeys R301. -/
def jobOk (d : List Byte) : Bool :=
  let tol := fieldAt d 2 1 % 2 == 1
  let carry := tol && fieldAt d 2 1 / 2 % 2 == 0
  let nch := fieldAt d 5 1
  fieldAt d 0 2 == 1 && fieldAt d 2 1 ≤ 3 && (tol || fieldAt d 2 1 == 0) && fieldAt d 3 1 ≤ 7 && fieldAt d 3 1 % 4 != 3 &&
    (if carry then 1 ≤ fieldAt d 4 1 && fieldAt d 4 1 ≤ 7 else fieldAt d 4 1 == 0) && 1 ≤ nch && nch ≤ 16 && zeroBytes d 6 8 &&
    (if tol then 1000 ≤ fieldAt d 8 4 && fieldAt d 8 4 ≤ 4000000000 else fieldAt d 8 4 == 0) &&
    1 ≤ fieldAt d 12 4 && fieldAt d 12 4 ≤ 65536 && fieldAt d 16 8 % 64 == 0 && fieldAt d 16 8 < 2 ^ 48 && zeroBytes d 24 64 &&
    (List.range nch).all (fun c => dChan d c 0 8 % 64 == 0 && dChan d c 0 8 < 2 ^ 48 && 1 ≤ dChan d c 8 4 && dChan d c 8 4 ≤ 4096 &&
      dChan d c 12 4 < 32 && (dChan d c 12 4 / 2 == 8 || dChan d c 12 4 / 2 == 10)) &&
    (List.range nch).foldl (fun a c => a + dChan d c 8 4) 0 ≤ 4096

/-- A bucket as configured. -/
def newBucket (d : List Byte) (c i : Nat) (b : List Byte) : Bucket :=
  { chan := c, idx := i, ordered := dChan d c 12 4 % 2 == 1, cfmt := dChan d c 12 4 / 2, base := fieldAt b 0 8,
    tensor := BitVec.ofNat 32 (fieldAt b 8 4), elems := fieldAt b 12 4, shardBase := fieldAt b 16 8, gatherBase := fieldAt b 24 8,
    gatherId := BitVec.ofNat 32 (fieldAt b 32 4), gfmt := fieldAt b 36 1, carryBase := fieldAt b 40 8, doneVa := fieldAt b 48 8,
    st := 0, count := 0, late := false, lateDone := false, step := 0, sealTb := 0, order := 0, carryIn := false, quar := false,
    zeroed := 0, contrib := [], decision := none, parts := [], result := [], gcount := 0, gathered := [], held := [], fate := [],
    waitTick := 0, aborted := false, headOpen := none, notices := [], headLast := none,
    raw := [], early := [], ended := none, endedAbort := false, ahead := [], tainted := false }

/-- A region is mapped with write permission. -/
def regionOk (s : State) (n : CtxId) (va len : Nat) : Bool := va + len ≤ 2 ^ 48 && vaOk s n va len true

/-- The bucket descriptor obeys R302. -/
def bucketOk (s : State) (n : CtxId) (d b : List Byte) (x : Bucket) (last : Bool) (N r : Nat) : Bool :=
  let size := x.elems * elemSize x.cfmt
  let carry := fieldAt d 2 1 == 1
  let al (v k : Nat) : Bool := v % k == 0
  al x.base 64 && al x.shardBase 64 && al x.gatherBase 64 && (!x.ordered || x.gatherBase == 0) &&
    [0, 1, 8, 10].contains x.gfmt && zeroBytes b 37 40 && (if carry then x.carryBase != 0 else x.carryBase == 0) && al x.doneVa 8 &&
    zeroBytes b 56 64 &&
    (if x.ordered then 64 ≤ size && size ≤ 65536
      else size ≤ 67108864 && (4194304 ≤ size || (last && 64 ≤ size))) &&
    regionOk s n x.base size && regionOk s n x.shardBase (4 * (if x.ordered then x.elems else shardLen x.elems N r)) &&
    (x.gatherBase == 0 || regionOk s n x.gatherBase (x.elems * elemSize x.gfmt)) &&
    (x.carryBase == 0 || regionOk s n x.carryBase (4 * x.elems)) && regionOk s n x.doneVa 8

/-- Read the bucket descriptors of every channel. -/
def readBuckets (s : State) (n : CtxId) (d : List Byte) : State × Except Byte (List (List Byte × Bucket × Bool)) :=
  (List.range (fieldAt d 5 1)).foldl (fun (acc : State × Except Byte (List (List Byte × Bucket × Bool))) c => match acc with
    | (s, .error e) => (s, .error e)
    | (s, .ok l) =>
      let nb := dChan d c 8 4
      match readCtx s n (dChan d c 0 8) (64 * nb) 64 with
      | (s, .error e) => (s, .error e)
      | (s, .ok bs) => (s, .ok (l ++ (List.range nb).map (fun i =>
          let b := (bs.drop (64 * i)).take 64
          (b, newBucket d c i b, decide (i + 1 = nb)))))) (s, .ok [])

def redConfig (c : Cmd) (s : State) : State :=
  let n := c.ctx
  let va := fieldAt c.entry 8 8
  match readCtx s n va 64 64 with
  | (s, .error e) => finish s c e
  | (s, .ok hd) => match readCtx s n va (64 + 16 * min 16 (fieldAt hd 5 1)) 64 with
    | (s, .error e) => finish s c e
    | (s, .ok d) =>
      if !jobOk d then finish s c stMalformed
      else match readBuckets s n d with
        | (s, .error e) => finish s c e
        | (s, .ok bs) =>
          let (N, r) := ranks s n
          if !bs.all (fun x => bucketOk s n d x.1 x.2.1 x.2.2 N r) ||
              !regionOk s n (fieldAt d 16 8) (fieldAt d 12 4 * recSize N) then finish s c stMalformed
          else
            let s := setReg s (aRank n) (BitVec.ofNat 64 (r + N * 65536))
            let s := setReg s (aPolicy n) (BitVec.ofNat 64 (fieldAt d 2 1 + fieldAt d 3 1 % 4 * 4 + fieldAt d 3 1 / 4 * 16 +
              fieldAt d 4 1 * 32 + fieldAt d 5 1 * 256 + fieldAt d 8 4 * 2 ^ 32))
            let s := setReg (setReg s (aLedger n) 0) (aRedCount n) 0
            let s := setFld (setFld s (aRedStatus n) 4 3 0) (aRedStatus n) 8 13 0
            let s := bs.foldl (fun s x => if x.2.1.carryBase == 0 then s
              else engineWrite s n x.2.1.carryBase (List.replicate (4 * x.2.1.elems) 0)) s
            let j : RedJob := ⟨fieldAt d 12 4, fieldAt d 16 8, bs.map (fun x => x.2.1), 0, [], [], 0, false, none, false⟩
            finish (setRed s n (some j)) c stOk

def execRedConfig (p : Page) (s : State) : Outcome State Fault Refusal := .next (command 0x14 p (viaGang redConfig) s)

/-! ## The fixed tree (R299) -/

def includedIn (d : Option Decision) (r : Nat) : Bool :=
  match d with
  | none => false
  | some d => d.noticed.testBit r && !d.quar.testBit r

/-- The smallest power of two not below N, with its exponent. -/
def log2up (N : Nat) : Nat := if N ≤ 1 then 0 else Nat.log2 (N - 1) + 1

/-- The part that covers a chunk of a subtree, if one is here: none inside for ABSENT. -/
def partAt (ps : List PartMsg) (lo span chunk : Nat) : Option (Option (List F32)) :=
  (ps.find? (fun p => p.lo == lo && p.span == span && p.chunk ≤ chunk && chunk < p.chunk + p.count)).map (fun p =>
    if p.absent then none else some ((p.data.drop (64 * (chunk - p.chunk))).take 64))

/-- The parts of the bucket's step. -/
def stepParts (b : Bucket) : List PartMsg := b.parts.filter (fun p => p.step == b.step)

/-- tree(lo, 2^f) over one chunk, as far as it is known here: none while a part is still to come. -/
def treeAt (b : Bucket) (N chunk : Nat) : Nat → Nat → Option (Option (List F32))
  | 0, lo => match partAt (stepParts b) lo 1 chunk with
    | some v => some v
    | none => if N ≤ lo || (b.decision.isSome && !includedIn b.decision lo) then some none else none
  | f + 1, lo => match partAt (stepParts b) lo (2 ^ (f + 1)) chunk with
    | some v => some v
    | none => match treeAt b N chunk f lo, treeAt b N chunk f (lo + 2 ^ f) with
      | some none, some y => some y
      | some x, some none => some x
      | some (some x), some (some y) => some (some (List.zipWith f32Add x y))
      | _, _ => none

/-- The chunks of shard r. -/
def shardChunks (b : Bucket) (N r : Nat) : List Nat :=
  (List.range (shardChunk b.elems N (r + 1) - shardChunk b.elems N r)).map (fun i => shardChunk b.elems N r + i)

/-- The whole reduced shard of this member, once every chunk of it is known. -/
def shardValue (b : Bucket) (N r : Nat) : Option (List F32) :=
  let vs := (shardChunks b N r).map (fun c => treeAt b N c (log2up N) 0)
  if vs.any (fun v => v.isNone) then none
  else some ((vs.map (fun v => (v.getD none).getD (List.replicate 64 0))).flatten.take (shardLen b.elems N r))

/-! ## Messages -/

def partBytes (m : PartMsg) : List Byte :=
  bytesOf m.chan 4 ++ bytesOf m.bucket 4 ++ bytesOf m.step.toNat 4 ++ bytesOf m.lo 4 ++ bytesOf m.span 4 ++ bytesOf m.chunk 4 ++
    bytesOf m.count 4 ++ bytesOf (if m.absent then 1 else 0) 4 ++ (if m.absent then [] else f32Bytes m.data)

/-- Chunks of a contribution, the last one filled with +0. -/
def chunkData (b : Bucket) (lo count : Nat) : List F32 :=
  let d := (b.contrib.drop (64 * lo)).take (64 * count)
  d ++ List.replicate (64 * count - d.length) 0

def ownPart (b : Bucket) (r lo count : Nat) : PartMsg :=
  ⟨b.chan, b.idx, b.step, r, 1, lo, count, false, chunkData b lo count, b.tainted⟩

/-! ## The end of a step -/

/-- Every range of the gather is written. -/
def gatherOver (b : Bucket) (N : Nat) : Bool :=
  (List.range N).all (fun r => decide (shardLen b.elems N r * elemSize b.gfmt ≤ b.gathered.get (fun _ => 0) r))

def hasGather (b : Bucket) : Bool := b.gatherBase != 0 && !b.ordered

/-- The shard, and where there is one the gather, are done. -/
def stepOver (b : Bucket) (N : Nat) : Bool := if hasGather b then b.st == 5 && gatherOver b N else b.st == 4

/-- The step did not reproduce its record (R315, R316). -/
def diverges (j : RedJob) (b : Bucket) (N : Nat) : Bool :=
  match replayRec j b with
  | none => false
  | some r =>
    fieldAt r 40 8 != (if b.late then 0 else digest8 (f32Bytes b.contrib)) ||
      (!j.isLocal && (fieldAt r 48 8 != digest8 (f32Bytes b.result) || recMap r N 1 != fateMap b N (fun c => c % 8 == 2)))

/-- RED_REPLAY completes once every bucket of the replay has its record and is IDLE. -/
def replayEnd (s : State) (n : CtxId) : State :=
  match redOf s n with
  | none => s
  | some j =>
    if !inReplay s n || !j.replay.isEmpty || !j.heldRecs.isEmpty || j.buckets.any (fun b => b.st != 0) then s
    else
      let s := setFld (setRed s n (some { j with replayCmd := none, isLocal := false })) (aRedStatus n) 4 1 0
      match j.replayCmd with
      | some id => completeId s id (if j.diverged then stDiverged else stOk) (unitModule s)
      | none => s

/-- The bucket's step ends: its record, PHASE 2 and IDLE; a late fill still going on keeps it (R304). -/
def endStep (s : State) (n : CtxId) (b : Bucket) : State :=
  match redOf s n with
  | none => s
  | some j =>
    if b.late && !b.lateDone then putBucket s n b
    else
      let div := inReplay s n && diverges j b (ranksOf s n)
      let s := endBucket (putBucket s n b) n b false div
      match redOf s n with
      | none => s
      | some j =>
        let s := replayDrop (setRed s n (some { j with diverged := j.diverged || div })) n b
        replayEnd (if div then setFld s (aRedStatus n) 6 1 1 else s) n

/-- The shard or the whole result is written and PHASE 1 follows (R306, R307). It is poisoned where a contribution was (R291). -/
def shardDone (s : State) (n : CtxId) (b : Bucket) (v : List F32) : State :=
  let s := engineWrite s n b.shardBase (f32Bytes v) (b.tainted || (stepParts b).any (fun p => p.poison))
  let s := writeDone s n b.doneVa b.step 1
  let s := perfMod (perfMod s (some n) 12 0x10 none 1) (some n) 12 0x11 none ((b.elems * elemSize b.cfmt + 63) / 64)
  let b := { b with st := 4, result := v, parts := laterParts b }
  if hasGather b then putBucket s n b else endStep s n b

/-! ## Ranges (R308) -/

/-- A range of the gather is written. -/
def storeRange (s : State) (n : CtxId) (b : Bucket) (m : GatherMsg) : State × Bucket :=
  (engineWrite s n (b.gatherBase + m.offset) m.data m.poison,
    { b with gathered := b.gathered.set (fun _ => 0) m.rank (b.gathered.get (fun _ => 0) m.rank + m.data.length) })

/-- The bucket runs the gather that rebuilds the weights for a replay (R315). -/
def rebuilding (b : Bucket) : Bool := b.st == 5 && b.decision.isNone

/-- The step whose ranges the bucket takes: its own, or where it rebuilds that of the step before, whose weights the ranges are
(DESIGN CHOICE, log entry 176). -/
def gatherStep (b : Bucket) : BitVec 32 := if rebuilding b then b.step - 1 else b.step

/-- The ranges of the step that the bucket takes, which arrived before it could take them. -/
def takeEarly (s : State) (n : CtxId) (b : Bucket) : State × Bucket :=
  (b.early.filter (fun m => m.step == gatherStep b)).foldl (fun (a : State × Bucket) m => storeRange a.1 n a.2 m)
    (s, { b with early := b.early.filter (fun m => m.step != gatherStep b) })

/-! ## Contributions leave (R299, R300, R305) -/

/-- The ordered sum with this rank's contribution. -/
def orderedNext (b : Bucket) (r : Nat) (sum : Option (List F32)) : Option (List F32) :=
  if !includedIn b.decision r then sum
  else match sum with
    | none => some b.contrib
    | some x => some (List.zipWith f32Add x b.contrib)

/-- Pass the running sum on: to the next rank, or from the last one, whole, to every member. -/
def orderedPass (s : State) (n : CtxId) (b : Bucket) (sum : Option (List F32)) : State :=
  let N := ranksOf s n
  let r := myRank s n
  let chunks := (b.elems + 63) / 64
  let data := sum.getD []
  let m : PartMsg := ⟨b.chan, b.idx, b.step, 0, r + 1, 0, chunks, sum.isNone,
    if sum.isNone then [] else data ++ List.replicate (64 * chunks - data.length) 0, b.tainted⟩
  let b := { b with waitTick := s.tick }
  if r + 1 < N then putBucket (sendRank s n (r + 1) 0x25 (partBytes m) b.tainted) n b
  else shardDone (sendAll s n 0x25 (partBytes m) b.tainted) n b (sum.getD (List.replicate b.elems 0))

/-- The ordered sum that has arrived goes on: the whole result ends the shard, the sum of the ranks before this one takes its
contribution and is passed on (R300). -/
def orderedGo (s : State) (n : CtxId) (b : Bucket) : State :=
  let N := ranksOf s n
  let r := myRank s n
  let sum (m : PartMsg) : Option (List F32) := if m.absent then none else some (m.data.take b.elems)
  match (stepParts b).find? (fun m => m.lo + m.span == N && r + 1 != N) with
  | some m => shardDone s n b ((sum m).getD (List.replicate b.elems 0))
  | none => match (stepParts b).find? (fun m => m.lo + m.span == r && r != 0) with
    | some m => orderedPass s n { b with parts := b.parts.erase m, tainted := b.tainted || m.poison } (orderedNext b r (sum m))
    | none => putBucket s n b

/-- A message has brought the whole reduced shard. -/
def shardHere (b : Bucket) (N r : Nat) : Bool :=
  N != 1 && !(shardChunks b N r).isEmpty && (shardChunks b N r).all (fun c => (partAt (stepParts b) 0 (2 ^ log2up N) c).isSome)

/-- The bucket goes on with what has arrived for its shard. -/
def shardGo (s : State) (n : CtxId) (b : Bucket) : State :=
  let N := ranksOf s n
  let r := myRank s n
  match (if shardHere b N r then shardValue b N r else none) with
  | some v => shardDone s n b v
  | none => putBucket s n b

/-- A decided bucket in REDUCING takes the ranges that came early and gives its contribution: to the owner of each shard, or to
the ordered sum from rank 0. -/
def contribute (s : State) (n : CtxId) (b : Bucket) : State :=
  let (s, b) := takeEarly s n { b with waitTick := s.tick }
  let N := ranksOf s n
  let r := myRank s n
  if b.ordered then (if r == 0 then orderedPass s n b (orderedNext b 0 none) else orderedGo s n b)
  else if !includedIn b.decision r then shardGo s n b
  else
    let s := (List.range N).foldl (fun s k =>
      let lo := shardChunk b.elems N k
      let c := shardChunk b.elems N (k + 1) - lo
      if k == r || c == 0 then s else sendRank s n k 0x23 (partBytes (ownPart b r lo c)) b.tainted) s
    let lo := shardChunk b.elems N r
    shardGo s n { b with parts := b.parts ++ [ownPart b r lo (shardChunk b.elems N (r + 1) - lo)] }

/-! ## Decisions (R309) -/

/-- The fate of each rank under a decision: 1 PRESENT, 2 QUARANTINED, 3 HELD, 4 DROPPED, with 8 for CARRY_IN, and the held
steps afterwards. -/
def fates (s : State) (n : CtxId) (j : RedJob) (b : Bucket) (d : Decision) (N : Nat) : SMap Nat × SMap Nat :=
  let limit := fld s (aPolicy n) 5 3
  let carry := tolerant s n && fld s (aPolicy n) 1 1 == 0
  (List.range N).foldl (fun (a : SMap Nat × SMap Nat) r =>
    let h := b.held.get (fun _ => 0) r
    if d.noticed.testBit r then
      (a.1.set (fun _ => 0) r ((if d.quar.testBit r then 2 else 1) + (if h == 0 then 0 else 8)), a.2.set (fun _ => 0) r 0)
    else
      let held := match (if inReplay s n then replayRec j b else none) with
        | some rc => (recMap rc N 2).testBit r
        | none => carry && h + 1 ≤ limit
      if held then (a.1.set (fun _ => 0) r 3, a.2.set (fun _ => 0) r (h + 1))
      else (a.1.set (fun _ => 0) r 4, a.2.set (fun _ => 0) r 0)) ([], b.held)

/-- A late contribution is complete: carried where the rank is HELD, else dropped with what the carry buffer holds (R310). None
where the carry buffer cannot be read. -/
def lateEnd (s : State) (n : CtxId) (b : Bucket) (c : List F32) : State × Option Bucket :=
  let held := b.fate.get (fun _ => 0) (myRank s n) % 8 == 3
  match (if held then engineRead s n b.carryBase (4 * b.elems) else (s, some ([], false))) with
  | (s, none) => (s, none)
  | (s, some (cs, p)) =>
    let s := if held then
        satAdd (engineWrite s n b.carryBase (f32Bytes (List.zipWith f32Add (f32List b.elems cs) c)) (b.tainted || p)) (aRedCount n) 16 16 1
      else
        let s := if b.carryBase != 0 then engineWrite s n b.carryBase (List.replicate (4 * b.elems) 0) else s
        satAdd s (aRedCount n) 32 16 1
    (s, some { b with lateDone := true })

/-- A slot of the reduction engine is free: a member reduces at most 8 buckets at once (R305). -/
def slotFree (j : RedJob) : Bool := (j.buckets.filter (fun x => x.st == 3)).length < 8

/-- The bucket has still a step to go through, or a late fill, before it can take a decision for another. -/
def busyWith (b : Bucket) (step : BitVec 32) : Bool :=
  b.aborted || b.decision.isSome || (2 ≤ b.st && b.step != step) || rebuilding b

/-- A member receives the decision: a rank that was not noticed goes on filling, with LATE set, and reduces as soon as a slot is free;
where it has sealed meanwhile, its late fill is complete at once (R304, R309, R310). A decision for a step that the bucket has not
come to waits; one for a step that has ended here is void (R314). -/
def applyDecision (s : State) (n : CtxId) (b : Bucket) (step : BitVec 32) (d : Decision) : State :=
  match redOf s n with
  | none => s
  | some j =>
    let N := ranksOf s n
    if b.ended.any (fun e => decide (step.toNat ≤ e.toNat)) || (busyWith b step && b.step == step && !rebuilding b) then s
    else if busyWith b step then putBucket s n { b with ahead := b.ahead ++ [(step, d)] }
    else
      let (fate, held) := fates s n j b d N
      let late := !d.noticed.testBit (myRank s n)
      let b := { b with decision := some d, fate := fate, held := held, step := step }
      let go (s : State) (b : Bucket) : State := if b.st == 3 then contribute s n b else putBucket s n b
      if b.st ≤ 1 then
        if !late then s
        else if slotFree j then contribute s n { b with late := true, st := 3 }
        else putBucket s n { b with late := true }
      else if !late then go s b
      else match lateEnd s n { b with late := true, sealTb := 0 } b.raw with
        | (s, none) => s
        | (s, some b) => go s b

/-- A bucket back in IDLE or filling takes the decision that has waited for it. -/
def takeAhead (n : CtxId) (s : State) (key : Nat) : State :=
  match (redOf s n).bind (fun j => j.buckets.find? (fun b => bucketKey b == key)) with
  | none => s
  | some b => match b.ahead with
    | [] => s
    | (step, d) :: rest =>
      if busyWith b step then s else applyDecision (putBucket s n { b with ahead := rest }) n { b with ahead := rest } step d

/-- The decisions that have waited, bucket by bucket: the engine looks at them before it seals a bucket or takes one into REDUCING. -/
def takeAheadAll (s : State) (n : CtxId) : State :=
  match redOf s n with
  | none => s
  | some j => ((j.buckets.filter (fun b => !b.ahead.isEmpty)).map bucketKey).foldl (takeAhead n) s

def decideBytes (N : Nat) (b : Bucket) (step : BitVec 32) (d : Decision) : List Byte :=
  bytesOf b.chan 4 ++ bytesOf b.idx 4 ++ bytesOf step.toNat 4 ++ bytesOf (if d.atDeadline then 1 else 0) 4 ++
    bytesOf d.decideTb.toNat 8 ++ bytesOf N 4 ++ bytesOf 0 4 ++ bytesOf d.noticed (bmBytes N) ++ bytesOf d.quar (bmBytes N)

/-- The head decides a bucket's open step and broadcasts the decision. -/
def decideNow (s : State) (n : CtxId) (b : Bucket) (step : BitVec 32) (atDeadline : Bool) (allowed : Nat → Bool) : State :=
  let ns := b.notices.filter (fun x => allowed x.rank)
  let d : Decision := ⟨atDeadline, BitVec.ofNat 64 (nowNs s), ns.foldl (fun a x => a + 2 ^ x.rank) 0,
    (ns.filter (fun x => x.quar)).foldl (fun a x => a + 2 ^ x.rank) 0⟩
  let b := { b with headOpen := none, notices := [], headLast := some step }
  let s := sendAll (putBucket s n b) n 0x21 (decideBytes (ranksOf s n) b step d)
  applyDecision s n b step d

/-- The ranks that the head waits for: in a replay those that the record does not hold as HELD or DROPPED. -/
def awaited (s : State) (n : CtxId) (b : Bucket) (r : Nat) : Bool :=
  match redOf s n with
  | none => true
  | some j => match (if inReplay s n then replayRec j b else none) with
    | some rc => !(recMap rc (ranksOf s n) 2).testBit r && !(recMap rc (ranksOf s n) 3).testBit r
    | none => true

/-- A notice out of step faults the member that sent it (R309). The head tells it by an abort that names the member itself and
its notice's step, with cause 4 (DESIGN CHOICE, log 78: the manual gives this message no form of its own). -/
def mismatch (s : State) (n : CtxId) (b : Bucket) (rank : Nat) (step : BitVec 32) : State :=
  if rank == myRank s n then redFault s n 3
  else sendRank s n rank 0x22 (abortBytes b.chan b.idx step rank 4)

/-- The head receives a notice. -/
def headNotice (s : State) (n : CtxId) (b : Bucket) (rank : Nat) (step : BitVec 32) (quar : Bool) : State :=
  if b.headLast == some step && b.headOpen != some step then s
  else
    let old := match b.headLast with | some l => decide (step.toNat < l.toNat) | none => false
    if (match b.headOpen with | some o => o != step | none => old) then mismatch s n b rank step
    else
      let x : Notice := ⟨rank, quar, nowNs s⟩
      let b := { b with headOpen := some step, notices := b.notices.filter (fun y => y.rank != rank) ++ [x] }
      let s := putBucket s n b
      if (List.range (ranksOf s n)).all (fun r => !awaited s n b r || b.notices.any (fun y => y.rank == r)) then
        decideNow s n b step false (awaited s n b)
      else s

/-! ## BUCKET_SEAL (R303, R309 to R311) -/

/-- The elements that NANPOL treats as NaN. -/
def badElem (s : State) (n : CtxId) (x : F32) : Bool := f32IsNan x || (fld s (aPolicy n) 4 1 == 1 && f32IsInf x)

def noticeBytes (s : State) (n : CtxId) (b : Bucket) : List Byte :=
  bytesOf b.chan 4 ++ bytesOf b.idx 4 ++ bytesOf b.step.toNat 4 ++ bytesOf (myRank s n) 4 ++ bytesOf b.sealTb 8 ++
    bytesOf ((if b.quar then 1 else 0) + (if b.carryIn then 2 else 0)) 1

/-- A LOCAL replay takes the decision from the record, as every replay does: a rank recorded HELD or DROPPED is late, and its carry
follows R310. It compares the contribution's digest and ends the bucket's step (R315, R316). -/
def localSeal (s : State) (n : CtxId) (b : Bucket) : State :=
  let N := ranksOf s n
  match (redOf s n).bind (fun j => replayRec j b) with
  | none => endStep s n { b with result := [] }
  | some rc =>
    let f := recFates rc N
    let fate (r : Nat) : Nat := f.get (fun _ => 0) r % 8
    let held := (List.range N).foldl (fun (m : SMap Nat) r =>
      m.set (fun _ => 0) r (if fate r == 3 then b.held.get (fun _ => 0) r + 1 else 0)) b.held
    let b := { b with result := [], fate := f, held := held }
    if fate (myRank s n) < 3 then endStep s n b
    else match lateEnd s n { b with late := true, sealTb := 0 } b.raw with
      | (s, none) => s
      | (s, some b) => endStep s n b

def execBucketSeal (n : CtxId) (chan bucket : Nat) (s : State) : Outcome State Fault Refusal :=
  .next (
    let s := takeAheadAll s n
    match (redOf s n).bind (fun j => (bucketOf j chan bucket).map (fun b => (j, b))) with
    | none => s
    | some (j, b) =>
      let size := b.elems * elemSize b.cfmt
      if b.st != 1 || b.late || b.count < size then s
      else if size < b.count then redFault s n 1
      else match engineRead s n b.base size with
        | (s, none) => s
        | (s, some (bs, p)) =>
          let c := contribOf b.cfmt b.elems bs
          let carryIn := b.carryBase != 0 && b.held.get (fun _ => 0) (myRank s n) != 0
          match (if carryIn then engineRead s n b.carryBase (4 * b.elems) else (s, some ([], false))) with
          | (s, none) => s
          | (s, some (cs, pc)) =>
            let c := if carryIn then List.zipWith f32Add c (f32List b.elems cs) else c
            let s := if carryIn then engineWrite s n b.carryBase (List.replicate (4 * b.elems) 0) else s
            let bad := (c.filter (badElem s n)).length
            let quar := nanPol s n == 0 && bad != 0
            let zero := nanPol s n == 2
            let raw := c
            let c := if zero then c.map (fun x => if badElem s n x then 0 else x) else c
            let b := { b with
              st := 2, contrib := c, raw := raw, step := BitVec.ofNat 32 (fld s (aStep n) 0 32), sealTb := nowNs s, order := j.sealed,
              carryIn := carryIn, quar := quar, zeroed := if zero then bad else 0, waitTick := s.tick,
              tainted := p || pc }
            let s := if quar then satAdd s (aRedCount n) 0 16 1 else s
            let s := match redOf s n with
              | some j => setRed s n (some { j with sealed := j.sealed + 1 })
              | none => s
            let s := putBucket s n b
            if inReplay s n && j.isLocal then localSeal s n b
            else if headIsHere s n then headNotice s n b (myRank s n) b.step b.quar
            else sendHead s n 0x20 (noticeBytes s n b))

/-- RED_NOTICE (R309): the head receives a member's notice. -/
def execRedNotice (n : CtxId) (m : NoticeMsg) (s : State) : Outcome State Fault Refusal :=
  .next (match (redOf s n).bind (fun j => bucketOf j m.chan m.bucket) with
    | none => s
    | some b => if !headIsHere s n || ranksOf s n ≤ m.rank then s else headNotice s n b m.rank m.step m.quar)

/-- RED_DEADLINE (R309). -/
def execRedDeadline (n : CtxId) (chan bucket : Nat) (s : State) : Outcome State Fault Refusal :=
  .next (match (redOf s n).bind (fun j => bucketOf j chan bucket) with
    | none => s
    | some b => match b.headOpen, b.notices with
      | some step, x :: _ =>
        if !headIsHere s n || !tolerant s n || b.ordered || inReplay s n then s
        else decideNow (advanceTo s (x.at' + fld s (aPolicy n) 32 32)) n b step true (fun _ => true)
      | _, _ => s)

/-- RED_DECIDE (R309). -/
def execRedDecide (n : CtxId) (m : DecideMsg) (s : State) : Outcome State Fault Refusal :=
  .next (match (redOf s n).bind (fun j => bucketOf j m.chan m.bucket) with
    | none => s
    | some b => if m.ranks != ranksOf s n then s
      else applyDecision s n b m.step ⟨m.atDeadline, m.decideTb, m.noticed, m.quarantined⟩)

/-! ## Reducing -/

/-- A bucket that a decision has excluded and that waits for a slot (R304, R305). -/
def lateWaits (b : Bucket) : Bool := b.st < 2 && b.late && b.decision.isSome && !b.aborted

/-- The sealed bucket that enters REDUCING next (R305). -/
def nextSealed (j : RedJob) : Option Bucket :=
  (j.buckets.filter (fun b => b.st == 2 && !b.aborted)).foldl (fun (best : Option Bucket) b => match best with
    | none => some b
    | some x => if b.order < x.order then some b else some x) none

/-- BUCKET_REDUCE_START (R304, R305, R312): at most 8 at once. A bucket that is excluded and waits enters first (DESIGN CHOICE, log
entry 175); no bucket leaves SEALED while the ledger ring is full. -/
def execBucketReduceStart (n : CtxId) (s : State) : Outcome State Fault Refusal :=
  .next (
    let s := takeAheadAll s n
    match redOf s n with
    | none => s
    | some j =>
      if !slotFree j then s
      else match j.buckets.find? lateWaits with
        | some b => contribute s n { b with st := 3 }
        | none => match nextSealed j with
          | none => s
          | some b =>
            if j.slots ≤ ledgerUsed s n then s
            else
              let b := { b with st := 3 }
              if b.decision.isSome then contribute s n b else putBucket s n b)

/-- Store a part. -/
def addPart (b : Bucket) (m : PartMsg) : Bucket :=
  { b with parts := b.parts.filter (fun p => !(p.step == m.step && p.lo == m.lo && p.span == m.span && p.chunk == m.chunk)) ++ [m] }

/-- The bucket has still to reduce a step: the one it stands in, or one to come. Its messages may arrive in any order, and before
the bucket seals or the decision does (R299). -/
def awaitsStep (b : Bucket) (step : BitVec 32) : Bool :=
  if b.ended == some step then false
  else if b.st < 2 then true
  else if b.step == step then !b.aborted && (b.st ≤ 3 || b.decision.isNone)
  else decide (b.step.toNat < step.toNat)

/-- The bucket that a part belongs to. -/
def partBucket (s : State) (n : CtxId) (m : PartMsg) (ordered : Bool) : Option Bucket :=
  ((redOf s n).bind (fun j => bucketOf j m.chan m.bucket)).filter (fun b => b.ordered == ordered && awaitsStep b m.step)

/-- The bucket reduces the step of a message, and is decided. -/
def reducing (b : Bucket) (m : PartMsg) : Bool := b.st == 3 && b.step == m.step && b.decision.isSome

/-- RED_PART (R299). -/
def execRedPart (n : CtxId) (m : PartMsg) (s : State) : Outcome State Fault Refusal :=
  .next (match partBucket s n m false with
    | none => s
    | some b => putBucket s n (addPart b m))

/-- RED_SHARD (R306, R307): the reduced result for this member's shard, from a message or from its own tree. -/
def execRedShard (n : CtxId) (m : PartMsg) (s : State) : Outcome State Fault Refusal :=
  .next (match partBucket s n m false with
    | none => s
    | some b =>
      let N := ranksOf s n
      let r := myRank s n
      match (if reducing b m then shardValue b N r else none) with
      | some v => shardDone s n b v
      | none =>
        let b := addPart b { m with lo := 0, span := 2 ^ log2up N }
        match (if reducing b m then shardValue b N r else none) with
        | some v => shardDone s n b v
        | none => putBucket s n b)

/-- RED_ORDERED (R300). -/
def execRedOrdered (n : CtxId) (m : PartMsg) (s : State) : Outcome State Fault Refusal :=
  .next (match partBucket s n m true with
    | none => s
    | some b => if reducing b m then orderedGo s n (addPart b m) else putBucket s n (addPart b m))

/-! ## Gathers (R308) -/

/-- The payload of RED_GATHER (R358). -/
def gatherBytes (b : Bucket) (r off : Nat) (bs : List Byte) : List Byte :=
  bytesOf b.chan 4 ++ bytesOf b.idx 4 ++ bytesOf (gatherStep b).toNat 4 ++ bytesOf r 4 ++ bytesOf off 8 ++ List.replicate 8 0 ++ bs

/-- Send the member's own range to every other member. -/
def sendGather (s : State) (n : CtxId) (b : Bucket) : State × Option Bucket :=
  let N := ranksOf s n
  let r := myRank s n
  let g := elemSize b.gfmt
  let off := shardLo b.elems N r * g
  let len := shardLen b.elems N r * g
  match engineRead s n (b.gatherBase + off) len with
  | (s, none) => (s, none)
  | (s, some (bs, p)) =>
    let b := { b with st := 5, gathered := b.gathered.set (fun _ => 0) r len, waitTick := s.tick }
    (sendAll s n 0x30 (gatherBytes b r off bs) p, some b)

/-- A gather that is over ends the step; the rebuild of a replay has no record. -/
def gatherEnd (s : State) (n : CtxId) (b : Bucket) : State :=
  if !(b.st == 5 && gatherOver b (ranksOf s n)) then putBucket s n b
  else if b.decision.isNone then putBucket s n { bucketIdle b with parts := b.parts, early := b.early }
  else endStep s n b

/-- GATHER_FILL (R308). -/
def execGatherFill (n : CtxId) (chan bucket : Nat) (s : State) : Outcome State Fault Refusal :=
  .next (match (redOf s n).bind (fun j => bucketOf j chan bucket) with
    | none => s
    | some b =>
      let size := shardLen b.elems (ranksOf s n) (myRank s n) * elemSize b.gfmt
      if b.st != 4 || b.aborted || !hasGather b || b.gcount < size then s
      else if size < b.gcount then redFault s n 1
      else match sendGather s n b with
        | (s, none) => s
        | (s, some b) => gatherEnd s n b)

/-- RED_GATHER (R308): a range arrives and is written; one that comes before its step is held, and one of a step that an abort has
ended is discarded (R314). -/
def execRedGather (n : CtxId) (m : GatherMsg) (s : State) : Outcome State Fault Refusal :=
  .next (match (redOf s n).bind (fun j => bucketOf j m.chan m.bucket) with
    | none => s
    | some b =>
      let N := ranksOf s n
      let g := elemSize b.gfmt
      let lo := shardLo b.elems N m.rank * g
      let here := gatherStep b == m.step && 2 ≤ b.st
      let stale := b.endedAbort && b.ended == some m.step && !here
      if !hasGather b || N ≤ m.rank || m.rank == myRank s n || m.offset < lo ||
          lo + shardLen b.elems N m.rank * g < m.offset + m.data.length || stale || (here && b.aborted) then s
      else if here && (b.st == 5 || (3 ≤ b.st && b.decision.isSome)) then
        let (s, b) := storeRange s n b m
        gatherEnd s n b
      else putBucket s n { b with early := b.early ++ [m] })

/-! ## Late fills and aborts (R310, R314) -/

/-- LATE_FILL_COMPLETE (R310). -/
def execLateFillComplete (n : CtxId) (chan bucket : Nat) (s : State) : Outcome State Fault Refusal :=
  .next (match (redOf s n).bind (fun j => bucketOf j chan bucket) with
    | none => s
    | some b =>
      let size := b.elems * elemSize b.cfmt
      if !b.late || b.lateDone || b.aborted || b.count < size then s
      else if size < b.count then redFault s n 1
      else match engineRead s n b.base size with
        | (s, none) => s
        | (s, some (bs, p)) => match lateEnd s n { b with tainted := p } (contribOf b.cfmt b.elems bs) with
          | (s, none) => s
          | (s, some b) => if stepOver b (ranksOf s n) then endStep s n b else putBucket s n b)

/-- The abort is of the step that the bucket stands in, or of one that it has not reached yet. -/
def abortNow (b : Bucket) (step : BitVec 32) : Bool :=
  if 2 ≤ b.st then b.step == step && !b.aborted else b.ended.all (fun e => decide (e.toNat < step.toNat))

/-- The messages that a bucket waits for are of these ranks: the head's decision, the notices that the head collects, contributions
to this shard, the ordered sum before this rank and the whole one from the last, and ranges of the gather (R299, R300, R308, R309). -/
def waitedRanks (s : State) (n : CtxId) (b : Bucket) : List Nat :=
  let N := ranksOf s n
  let r := myRank s n
  let others := (List.range N).filter (fun k => k != r)
  if rebuilding b || b.st == 5 then
    others.filter (fun k => decide (b.gathered.get (fun _ => 0) k < shardLen b.elems N k * elemSize b.gfmt))
  else if b.st == 2 || b.st == 3 then
    if b.decision.isNone then
      if headIsHere s n then others.filter (fun k => awaited s n b k && !b.notices.any (fun x => x.rank == k)) else []
    else if b.st == 2 then []
    else if b.ordered then others.filter (fun k => k + 1 == r || k + 1 == N)
    else others.filter (fun k => includedIn b.decision k &&
      !(shardChunks b N r).all (fun c => (stepParts b).any (fun m =>
        m.lo ≤ k && k < m.lo + m.span && m.chunk ≤ c && c < m.chunk + m.count)))
  else []

/-- The bucket waits on a message from the member of that node ID. -/
def waitsOn (s : State) (n : CtxId) (b : Bucket) (node : BitVec 16) : Bool :=
  (b.decision.isNone && (b.st == 2 || b.st == 3) && !headIsHere s n && Config.gangHead (gangOf s n) == node) ||
    (waitedRanks s n b).any (fun k => rankNode s n k == node)

/-- The channel and the bucket that an abort names where it is of a dispatch batch (DESIGN CHOICE, log entry 177). -/
def batchChan : Nat := 0xFF
def batchBucket : Nat := 0xFFFFFFFF

/-- An abort of a batch arrives: the head passes it on, and a batch of that step ends here (R435). -/
def batchAborted (s : State) (n : CtxId) (step : BitVec 32) (rank : Nat) (cause : BitVec 8) : State :=
  let s := if headIsHere s n && rank != myRank s n then
    sendAll s n 0x22 (abortBytes batchChan batchBucket step rank cause.toNat) else s
  if rank == myRank s n || !(dspOf s n).any (fun j => j.routesOut && j.step == step) then s
  else abortBatch (setFld s (aRedStatus n) 0 4 4) n

/-- Send the abort of a batch towards the head (R435). -/
def sendBatchAbort (s : State) (n : CtxId) (step : BitVec 32) : State :=
  let m := abortBytes batchChan batchBucket step (myRank s n) 5
  if headIsHere s n then sendAll s n 0x22 m else sendHead s n 0x22 m

/-- RED_ABORT (R314): an abort arrives from another rank, and aborts the bucket here even where it is still filling; the head
passes it on to every member, whatever its own bucket does. One that names this rank arises here from a context that has faulted, or is the head's word that
this member's notice was out of step (R309; log 78). -/
def execRedAbort (n : CtxId) (chan bucket : Nat) (step : BitVec 32) (rank : Nat) (cause : BitVec 8) (s : State) :
    Outcome State Fault Refusal :=
  .next (if chan == batchChan && bucket == batchBucket then batchAborted s n step rank cause
    else match (redOf s n).bind (fun j => bucketOf j chan bucket) with
    | none => s
    | some b =>
      let s := if headIsHere s n && rank != myRank s n then sendAll s n 0x22 (abortBytes chan bucket step rank cause.toNat) else s
      if !abortNow b step then s
      else if rank == myRank s n then
        if b.st < 2 then s
        else if ctxState s n == 5 && (cause == 1 || cause == 4) then replayEnd (abortBucket (sendAbort s n b cause.toNat) n b) n
        else if cause == 4 && !headIsHere s n then replayEnd (abortBucket (sendAbort (redFault s n 3) n b 4) n b) n
        else s
      else
        replayEnd (abortStep (setFld s (aRedStatus n) 0 4 4) n { b with step := step }) n)

/-! ## RED_REPLAY (R315, R316) -/

/-- Split the records of a replay area. -/
def replayRecs (bs : List Byte) (size k : Nat) : List (List Byte) :=
  (List.range k).map (fun i => (bs.drop (64 + i * size)).take size)

/-- The records are one for each bucket, in order, of this N and step. -/
def replayOk (j : RedJob) (N step : Nat) (rs : List (List Byte)) : Bool :=
  (j.buckets.zip rs).all (fun (x : Bucket × List Byte) =>
    fieldAt x.2 0 2 == 1 && fieldAt x.2 2 1 == x.1.chan && fieldAt x.2 8 4 == x.1.idx && fieldAt x.2 4 4 == step && fieldAt x.2 12 4 == N)

/-- A bucket begins the gather of a replay; its held steps follow the record's CARRY_IN. -/
def replayBucket (n : CtxId) (N : Nat) (isLocal : Bool) (s : State) (x : Bucket × List Byte) : State :=
  let held := (List.range N).foldl (fun (m : SMap Nat) r => if (recMap x.2 N 4).testBit r then m.set (fun _ => 0) r 1 else m) []
  let b := { bucketIdle x.1 with held := held, headOpen := none, notices := [], headLast := none,
                                 step := BitVec.ofNat 32 (fieldAt x.2 4 4), ended := none, endedAbort := false, parts := x.1.parts,
                                 early := x.1.early }
  if isLocal || !hasGather b || N == 1 then putBucket s n b
  else match sendGather s n b with
    | (s, none) => s
    | (s, some b) =>
      let (s, b) := takeEarly s n b
      gatherEnd s n b

def redReplay (c : Cmd) (s : State) : State :=
  let n := c.ctx
  let N := ranksOf s n
  match redOf s n with
  | none => finish s c stMalformed
  | some j =>
    let k := j.buckets.length
    match readCtx s n (fieldAt c.entry 8 8) (64 + k * recSize N) 1 with
    | (s, .error e) => finish s c e
    | (s, .ok bs) =>
      let step := fieldAt bs 0 4
      let isLocal := fieldAt bs 16 1 % 2 == 1
      let rs := replayRecs bs (recSize N) k
      if !replayOk j N step rs || (isLocal && isCopy c) then finish s c stMalformed
      else
        let s := setReg (setReg s (aStep n) (BitVec.ofNat 64 step)) (aSeed n) (BitVec.ofNat 64 (fieldAt bs 8 8))
        let s := setFld (setFld s (aRedStatus n) 4 1 1) (aRedStatus n) 6 1 0
        let j := { j with replay := rs, replayStep := BitVec.ofNat 32 step, isLocal := isLocal, replayCmd := some c.id, diverged := false }
        (j.buckets.zip rs).foldl (replayBucket n N isLocal) (setRed s n (some j))

def execRedReplay (p : Page) (s : State) : Outcome State Fault Refusal := .next (command 0x15 p (viaGang redReplay) s)

end Sys2Proof.Machine
end

