-- ==== Sys2Proof/Machine/Experts.lean ====
section
/-! DEFINITION. The dispatch engine: expert dispatch of token rows (R317 to R321). A message to the member itself takes effect
at once. -/

namespace Sys2Proof.Machine

open Host (Outcome)

/-! ## The descriptor (R317) -/

def dsp (j : DspJob) (i k : Nat) : Nat := fieldAt j.desc i k
def dspCap (j : DspJob) : Nat := dsp j 8 4
def dspRow (j : DspJob) : Nat := dsp j 12 4
def dspLocal (j : DspJob) : Nat := dsp j 6 2
def dspRoutes (j : DspJob) : Nat := dsp j 44 4
def dspSpill (j : DspJob) : Bool := dsp j 2 1 == 1

/-- The descriptor obeys R317, and its regions are mapped and writable (R322). The descriptor gives TOKENS no length: its first row
is checked, and a row that an entry names is when it is read (DESIGN CHOICE, log 138). -/
def dspOk (s : State) (n : CtxId) (d : List Byte) (owners : List (Nat × Nat)) (N r : Nat) : Bool :=
  let f := fieldAt d
  let rows := f 6 2 * f 8 4
  f 0 2 == 1 && f 2 1 ≤ 1 && f 3 1 == 0 && f 6 2 ≤ 256 && 1 ≤ f 8 4 && f 8 4 ≤ 65535 &&
    f 12 4 % 64 == 0 && 64 ≤ f 12 4 && f 12 4 ≤ 65536 && 1 ≤ f 44 4 && f 44 4 ≤ 2 ^ 20 && zeroBytes d 68 72 && zeroBytes d 96 128 &&
    f 88 8 % 8 == 0 && owners.all (fun o => o.1 < N && (o.1 != r || o.2 < f 6 2)) &&
    regionOk s n (f 16 8) (4 * f 4 2) && regionOk s n (f 24 8) (f 12 4) &&
    regionOk s n (f 32 8) (8 * f 44 4) && regionOk s n (f 48 8) (rows * (f 12 4 + 8)) && regionOk s n (f 56 8) (rows * f 12 4) &&
    regionOk s n (f 72 8) (f 44 4 * f 12 4) && regionOk s n (f 80 8) (f 44 4) && regionOk s n (f 88 8) 8

/-- An owner entry, none where a bit that no field holds is 1. -/
def ownerOf (w : Nat) : Option (Nat × Nat) :=
  if w / 2 ^ 17 % 8 == 0 && w / 2 ^ 28 == 0 then some (w % 2 ^ 17, w / 2 ^ 20 % 256) else none

def dspConfig (c : Cmd) (s : State) : State :=
  let n := c.ctx
  match readCtx s n (fieldAt c.entry 8 8) 128 64 with
  | (s, .error e) => finish s c e
  | (s, .ok d) =>
    let nexp := fieldAt d 4 2
    if nexp == 0 || 4095 < nexp then finish s c stMalformed
    else match readCtx s n (fieldAt d 16 8) (4 * nexp) 1 with
      | (s, .error e) => finish s c e
      | (s, .ok bs) =>
        let os := (List.range nexp).filterMap (fun i => ownerOf (fieldAt bs (4 * i) 4))
        let (N, r) := if (redOf s n).isSome then (ranksOf s n, myRank s n) else ranks s n
        if os.length != nexp || !dspOk s n d os N r then finish s c stMalformed
        else
          let s := setReg s (aRank n) (BitVec.ofNat 64 (r + N * 65536))
          finish (setDsp s n (some ⟨d, os, 0, 0, false, [], [], false, [], [], 0, 0, false, [], 0⟩)) c stOk

def execDspConfig (p : Page) (s : State) : Outcome State Fault Refusal := .next (command 0x16 p (viaGang dspConfig) s)

/-! ## Route entries (R318) -/

def rtToken (w : Word64) : Nat := getF w 0 20
def rtExpert (w : Word64) : Nat := getF w 20 12
def rtAlt (w : Word64) : Nat := getF w 32 12
def rtSlot (w : Word64) : Nat := getF w 44 2

/-- The owner of an expert and its slot there; none for 0xFFF and for a number that names no expert. -/
def expertAt (j : DspJob) (e : Nat) : Option (Nat × Nat) := if e == 0xFFF then none else j.owners[e]?

def ownedBy (j : DspJob) (r e : Nat) : Bool := match expertAt j e with | some o => o.1 == r | none => false

/-- The ranks that own an expert. -/
def ownerRanks (j : DspJob) : List Nat := (j.owners.map (fun o => o.1)).eraseDups

/-! ## Statuses and the completion words (R320, R321) -/

def statDef : Nat → Nat := fun _ => 4
def statAt (j : DspJob) (i : Nat) : Nat := j.stats.get statDef i

/-- Every status of the member's own list is known. -/
def statsDone (j : DspJob) : Bool := j.routesOut && (List.range j.mine.length).all (fun i => statAt j i != 4)

/-- PHASE 1 when the local rows are in and the member's statuses written, PHASE 2 when every row of its list has returned; the
batch ends when its own outputs have gone too. -/
def batchProgress (s : State) (n : CtxId) : State :=
  match dspOf s n with
  | none => s
  | some j =>
    let rowsIn := (j.admitted || !(ownerRanks j).contains (myRank s n)) && j.admits.all (fun a => a.rowIn)
    let backs := (List.range j.mine.length).all (fun i => 2 ≤ statAt j i || j.returned.get (fun _ => false) i)
    let (s, j) := if j.phase == 0 && rowsIn && statsDone j then
        (writeDone s n (dsp j 88 8) j.step 1, { j with phase := 1, waitTick := s.tick }) else (s, j)
    let (s, j) := if j.phase == 1 && backs then (writeDone s n (dsp j 88 8) j.step 2, { j with phase := 2 }) else (s, j)
    if j.phase == 2 && (j.outSent || j.admits.isEmpty) then setDsp s n (some (dspReset j)) else setDsp s n (some j)

/-- A status of the member's own list: written to STAT; a dropped or unused entry's returned row is zero. -/
def putStat (s : State) (n : CtxId) (i st : Nat) : State :=
  match dspOf s n with
  | none => s
  | some j =>
    if j.mine.length ≤ i || statAt j i != 4 then s
    else
      let s := engineWrite s n (dsp j 80 8 + i) [BitVec.ofNat 8 st]
      let s := if st == 2 then perfMod (satAdd s (aDspCount n) 42 21 1) (some n) 13 0x11 none 1 else s
      let s := if 2 ≤ st then engineWrite s n (dsp j 72 8 + i * dspRow j) (List.replicate (dspRow j) 0) else s
      setDsp s n (some { j with stats := j.stats.set statDef i st })

/-! ## Returned rows (R321) -/

def takeRet (s : State) (n : CtxId) (step : BitVec 32) (i : Nat) (data : List Byte) (poison : Bool) : State :=
  match dspOf s n with
  | none => s
  | some j =>
    if j.step != step || j.mine.length ≤ i || 2 ≤ statAt j i || data.length != dspRow j then s
    else
      let s := perfMod (engineWrite s n (dsp j 72 8 + i * dspRow j) data poison) (some n) 13 0x12 none 1
      batchProgress (setDsp s n (some { j with returned := j.returned.set (fun _ => false) i true })) n

/-- DSP_RET. -/
def execDspRet (n : CtxId) (step : BitVec 32) (index : Nat) (data : Payload) (s : State) : Outcome State Fault Refusal :=
  .next (takeRet s n step index data.bytes data.poison)

/-- DSP_OUT_FILL: OUT is full, and each output row returns to its source. -/
def execDspOutFill (n : CtxId) (s : State) : Outcome State Fault Refusal :=
  .next (match dspOf s n with
    | none => s
    | some j =>
      let size := j.admits.length * dspRow j
      if !j.admitted || j.outSent || size == 0 || j.ocount < size then s
      else if size < j.ocount then redFault s n 1
      else
        let s := setDsp s n (some { j with outSent := true })
        let s := j.admits.foldl (fun s a =>
          match engineRead s n (dsp j 56 8 + (a.slot * dspCap j + a.position) * dspRow j) (dspRow j) with
          | (s, none) => s
          | (s, some (row, p)) =>
            if a.src == myRank s n then takeRet s n j.step a.index row p
            else sendRank s n a.src 0x43 (bytesOf j.step.toNat 4 ++ bytesOf a.index 4 ++ row) p) s
        batchProgress s n)

/-! ## Token rows (R320) -/

def takeDspRow (s : State) (n : CtxId) (m : RowMsg) : State :=
  match dspOf s n with
  | none => s
  | some j =>
    match j.admits.find? (fun a => a.src == m.src && a.index == m.index) with
    | none => s
    | some a =>
      if j.step != m.step || a.rowIn || m.data.length != dspRow j then s
      else
        let s := engineWrite s n (dsp j 48 8 + (a.slot * dspCap j + a.position) * dspRow j) m.data m.poison
        let as := j.admits.map (fun x => if x == a then { x with rowIn := true } else x)
        batchProgress (setDsp s n (some { j with admits := as })) n

/-- DSP_ROWS. -/
def execDspRows (n : CtxId) (m : RowMsg) (s : State) : Outcome State Fault Refusal := .next (takeDspRow s n m)

/-- Send the row of an admitted entry of the member's list to the owner of the expert it was admitted to. -/
def sendRow (s : State) (n : CtxId) (i st : Nat) : State :=
  match dspOf s n with
  | none => s
  | some j =>
    let w := j.mine.getD i 0
    let e := if st == 1 then rtAlt w else rtExpert w
    match expertAt j e with
    | none => s
    | some o => match engineRead s n (dsp j 24 8 + rtToken w * dspRow j) (dspRow j) with
      | (s, none) => s
      | (s, some (row, p)) =>
        if o.1 == myRank s n then takeDspRow s n ⟨j.step, myRank s n, i, e, st == 1, row, p⟩
        else sendRank s n o.1 0x42 (bytesOf j.step.toNat 4 ++ bytesOf (myRank s n) 4 ++ bytesOf i 4 ++ bytesOf e 2 ++
          [if st == 1 then 1 else 0, 0] ++ row) p

/-- Admission statuses reach their source. -/
def takeAdmit (s : State) (n : CtxId) (step : BitVec 32) (es : List AdmitEntry) : State :=
  match dspOf s n with
  | none => s
  | some j =>
    if !j.routesOut || j.step != step then s
    else
      let s := es.foldl (fun s e => match dspOf s n with
        | none => s
        | some j =>
          if j.mine.length ≤ e.index || statAt j e.index != 4 then s
          else
            let s := putStat s n e.index e.stat.toNat
            if e.stat.toNat ≤ 1 then sendRow s n e.index e.stat.toNat else s) s
      batchProgress s n

/-- DSP_ADMIT. -/
def execDspAdmit (n : CtxId) (step : BitVec 32) (entries : List AdmitEntry) (s : State) : Outcome State Fault Refusal :=
  .next (takeAdmit s n step entries)

/-! ## Admission (R319) -/

/-- The order of offers: source rank, TOKEN, SLOT. -/
def routeLe (a b : RouteIn) : Bool :=
  decide (a.src < b.src) || (a.src == b.src && (decide (rtToken a.entry < rtToken b.entry) ||
    (rtToken a.entry == rtToken b.entry && decide (rtSlot a.entry ≤ rtSlot b.entry))))

def insertRoute (x : RouteIn) : List RouteIn → List RouteIn
  | [] => [x]
  | y :: ys => if routeLe y x then y :: insertRoute x ys else x :: y :: ys

/-- The offers in their order. -/
def orderRoutes (xs : List RouteIn) : List RouteIn := xs.foldl (fun acc x => insertRoute x acc) []

/-- Admit entries to an expert while capacity remains: those admitted with their positions, and those left over. -/
def admitTo (cap expert slot pos : Nat) (spilled : Bool) (xs : List RouteIn) : List AdmitRec × List RouteIn :=
  let room := cap - pos
  ((xs.take room).zipIdx.map (fun (x : RouteIn × Nat) => ⟨expert, slot, pos + x.2, x.1.src, x.1.index, spilled, false⟩), xs.drop room)

/-- The experts of a rank, with their slots. -/
def expertsOf (j : DspJob) (r : Nat) : List (Nat × Nat) :=
  ((j.owners.zipIdx).filter (fun (o : (Nat × Nat) × Nat) => o.1.1 == r)).map (fun o => (o.2, o.1.2))

/-- The first round at this member's experts: admitted, and left over. -/
def roundOne (j : DspJob) (r : Nat) (xs : List RouteIn) : List AdmitRec × List RouteIn :=
  (expertsOf j r).foldl (fun (acc : List AdmitRec × List RouteIn) e =>
    let (a, l) := admitTo (dspCap j) e.1 e.2 0 false (orderRoutes (xs.filter (fun x => rtExpert x.entry == e.1)))
    (acc.1 ++ a, acc.2 ++ l)) ([], [])

/-- The least number of the offers, in their order, that an expert elsewhere has admitted: all up to the last of this member's own
entries whose status says so. -/
def knownIn (j : DspJob) (r : Nat) (xs : List RouteIn) : Nat :=
  xs.zipIdx.foldl (fun (a : Nat) (x : RouteIn × Nat) =>
    if x.1.src == r && statAt j x.1.index == 0 then x.2 + 1 else a) 0

/-- The entries left over in the first round of experts that other members own, of those with an ALT here. Each such expert
admits the first CAP of all its offers in order (R319), so of the offers seen here it admits the first few and leaves the
others: how many, at most CAP and no fewer than this member's own statuses say, hangs on offers that no message brings here, and is
open (log 139). -/
def leftElsewhere (s : State) (j : DspJob) (r : Nat) (xs : List RouteIn) : List RouteIn × State :=
  let seen := xs.filter (fun x =>
    (expertAt j (rtExpert x.entry)).isSome && !ownedBy j r (rtExpert x.entry) && ownedBy j r (rtAlt x.entry))
  ((seen.map (fun x => rtExpert x.entry)).eraseDups).foldl (fun (acc : List RouteIn × State) e =>
    let (v, s) := takeFree acc.2
    let offers := orderRoutes (seen.filter (fun x => rtExpert x.entry == e))
    (acc.1 ++ offers.drop (max (knownIn j r offers) (v.toNat % (dspCap j + 1))), s)) ([], s)

/-- The second round: the offers to each of this member's experts as ALT. -/
def roundTwo (j : DspJob) (r : Nat) (first : List AdmitRec) (xs : List RouteIn) : List AdmitRec × List RouteIn :=
  (expertsOf j r).foldl (fun (acc : List AdmitRec × List RouteIn) e =>
    let pos := (first.filter (fun a => a.expert == e.1)).length
    let (a, l) := admitTo (dspCap j) e.1 e.2 pos true (orderRoutes (xs.filter (fun x => rtAlt x.entry == e.1)))
    (acc.1 ++ a, acc.2 ++ l)) ([], [])

/-- The origin entry of an admitted row (R320). -/
def originOf (a : AdmitRec) : Nat := a.src + a.index * 2 ^ 17 + (if a.spilled then 2 ^ 37 else 0)

/-- The origin entries of every position of the member's slots. -/
def originBytes (j : DspJob) (as : List AdmitRec) : List Byte :=
  ((List.range (dspLocal j * dspCap j)).map (fun i =>
    match as.find? (fun a => a.slot * dspCap j + a.position == i) with
    | some a => bytesOf (originOf a) 8
    | none => List.replicate 8 0xFF)).flatten

def admitBytes (es : List AdmitEntry) : List Byte :=
  (es.map (fun e => bytesOf (e.index + e.stat.toNat * 2 ^ 20 + e.slot % 256 * 2 ^ 22 + e.position % 65536 * 2 ^ 30) 8)).flatten

/-- DSP_ADMISSION: every rank's list is here; the member's experts answer, the origins are written and the sources told. -/
def execDspAdmission (n : CtxId) (s : State) : Outcome State Fault Refusal :=
  .next (match dspOf s n with
    | none => s
    | some j =>
      let r := myRank s n
      let ms := j.inbox.filter (fun m => m.step == j.step)
      if !j.routesOut || j.admitted || !(ownerRanks j).contains r ||
          !(List.range (ranksOf s n)).all (fun k => ms.any (fun m => m.src == k)) then s
      else
        let xs := (ms.map (fun m => m.routes)).flatten
        let (a1, left) := roundOne j r xs
        let (other, s) := if dspSpill j then leftElsewhere s j r xs else ([], s)
        let hasAlt (x : RouteIn) : Bool := dspSpill j && (expertAt j (rtAlt x.entry)).isSome
        let (a2, out2) := roundTwo j r a1 (left.filter (fun x => hasAlt x && ownedBy j r (rtAlt x.entry)) ++ other)
        let gone := left.filter (fun x => !hasAlt x) ++ out2
        let as := a1 ++ a2
        let s := engineWrite s n (dsp j 48 8 + dspLocal j * dspCap j * dspRow j) (originBytes j as)
        let s := satAdd (satAdd s (aDspCount n) 0 21 as.length) (aDspCount n) 21 21 a2.length
        let s := perfMod s (some n) 13 0x10 none as.length
        let s := setDsp s n (some { j with admitted := true, admits := as, waitTick := s.tick })
        let told (k : Nat) : List AdmitEntry :=
          (as.filter (fun a => a.src == k)).map (fun a => ⟨a.index, if a.spilled then 1 else 0, a.slot, a.position⟩) ++
            (gone.filter (fun x => x.src == k)).map (fun x => ⟨x.index, 2, 0, 0⟩)
        let s := (List.range (ranksOf s n)).foldl (fun s k =>
          if told k == [] then s
          else if k == r then takeAdmit s n j.step (told k)
          else sendRank s n k 0x41 (bytesOf j.step.toNat 4 ++ bytesOf (told k).length 4 ++ admitBytes (told k))) s
        batchProgress s n)

/-- The batch waits on messages from these ranks: their route lists, the rows of the entries admitted here, the statuses and the
returned rows of this member's own entries (R319, R320, R321). -/
def batchWaits (s : State) (n : CtxId) (j : DspJob) : List Nat :=
  let r := myRank s n
  let lists := if j.admitted || !(ownerRanks j).contains r then []
    else (List.range (ranksOf s n)).filter (fun k => !j.inbox.any (fun m => m.step == j.step && m.src == k))
  let rows := (j.admits.filter (fun a => !a.rowIn)).map (fun a => a.src)
  let mine := (j.mine.zipIdx).flatMap (fun (e : Word64 × Nat) =>
    let st := statAt j e.2
    let owner (x : Nat) : List Nat := ((expertAt j x).map (fun o => o.1)).toList
    if st == 4 then owner (rtExpert e.1) ++ owner (rtAlt e.1)
    else if j.returned.get (fun _ => false) e.2 then []
    else if st == 0 then owner (rtExpert e.1) else if st == 1 then owner (rtAlt e.1) else [])
  (lists ++ rows ++ mine).filter (fun k => k != r)

/-! ## Route lists (R318, R319) -/

def takeRoutes (s : State) (n : CtxId) (m : RouteMsg) : State :=
  match dspOf s n with
  | none => s
  | some j =>
    if j.inbox.any (fun x => x.step == m.step && x.src == m.src) then s
    else setDsp s n (some { j with inbox := j.inbox ++ [m] })

/-- DSP_ROUTES. -/
def execDspRoutes (n : CtxId) (step : BitVec 32) (src : Nat) (entries : List (BitVec 64 × Nat)) (s : State) :
    Outcome State Fault Refusal :=
  .next (takeRoutes s n ⟨step, src, entries.map (fun e => ⟨src, e.2, e.1⟩)⟩)

/-- ROUTE_LIST_FILL: the member's list is complete; it goes to every owner, and its entries without an expert take status
3. -/
def execRouteListFill (n : CtxId) (s : State) : Outcome State Fault Refusal :=
  .next (match dspOf s n with
    | none => s
    | some j =>
      let size := 8 * dspRoutes j
      if j.routesOut || j.rcount < size then s
      else if size < j.rcount then redFault s n 1
      else match engineRead s n (dsp j 32 8) size with
        | (s, none) => s
        | (s, some (bs, _)) =>
          let mine := (List.range (dspRoutes j)).map (fun i => BitVec.ofNat 64 (fieldAt bs (8 * i) 8))
          let step := BitVec.ofNat 32 (fld s (aStep n) 0 32)
          let s := setDsp s n (some { j with routesOut := true, mine := mine, step := step, waitTick := s.tick })
          let s := (mine.zipIdx).foldl (fun (s : State) (e : Word64 × Nat) =>
            if (expertAt j (rtExpert e.1)).isNone then putStat s n e.2 3 else s) s
          let s := (ownerRanks j).foldl (fun s k =>
            let es := (mine.zipIdx).filter (fun (e : Word64 × Nat) =>
              (expertAt j (rtExpert e.1)).isSome && (ownedBy j k (rtExpert e.1) || ownedBy j k (rtAlt e.1)))
            if k == myRank s n then takeRoutes s n ⟨step, k, es.map (fun e => ⟨k, e.2, e.1⟩)⟩
            else sendRank s n k 0x40 (bytesOf step.toNat 4 ++ bytesOf (myRank s n) 4 ++ bytesOf es.length 4 ++ List.replicate 4 0 ++
              (es.map (fun e => bytesOf e.1.toNat 8 ++ bytesOf e.2 4 ++ List.replicate 4 0)).flatten)) s
          batchProgress s n)

end Sys2Proof.Machine
end

