-- ==== Sys2Proof/Machine/Media.lean ====
section
/-! DEFINITION. What Casement computes from bytes alone: the shuffle permutation (R327), the transport stream demultiplexer
(R329), the tokeniser tables (R334 to R337) and the tokeniser (R333). -/

namespace Sys2Proof.Machine

/-! ## The shuffle (R327) -/

/-- ceil(log2 n). -/
def ceilLog2 (n : Nat) : Nat := if n ≤ 1 then 0 else Nat.log2 (n - 1) + 1

/-- The four Feistel rounds on halves of h bits. -/
def feistel (kw : List Word64) (h x : Nat) : Nat :=
  let m := 2 ^ h
  let (l, r) := kw.foldl (fun (lr : Nat × Nat) k => (lr.2, (lr.1 ^^^ ((mix (BitVec.ofNat 64 lr.2 ^^^ k)).toNat % m)) % m)) (x / m, x % m)
  l * m + r

/-- Walk the cycle until the value lies below n. -/
def permWalk (kw : List Word64) (h n : Nat) : Nat → Nat → Nat
  | 0, x => x
  | f + 1, x => let y := feistel kw h x; if y < n then y else permWalk kw h n f y

/-- perm(i) of R327. -/
def permOf (kw : List Word64) (n i : Nat) : Nat :=
  let c := ceilLog2 n
  let b := max 2 (c + c % 2)
  permWalk kw (b / 2) n (2 ^ b) i

/-! ## Demultiplexing (R329) -/

/-- A byte of a packet. -/
def pb (p : List Byte) (i : Nat) : Nat := (p.getD i 0).toNat

/-- A transport packet's parts: PID, the unit start mark, the continuity counter, the discontinuity mark, the payload. -/
def tsPid (p : List Byte) : Nat := pb p 1 % 32 * 256 + pb p 2
def tsUnitStart (p : List Byte) : Bool := pb p 1 / 64 % 2 == 1
def tsHasPayload (p : List Byte) : Bool := pb p 3 / 16 % 2 == 1
def tsHasAdapt (p : List Byte) : Bool := pb p 3 / 32 % 2 == 1
def tsDiscont (p : List Byte) : Bool := tsHasAdapt p && 1 ≤ pb p 4 && pb p 5 / 128 == 1
def tsPayload (p : List Byte) : List Byte :=
  if tsHasPayload p then p.drop (if tsHasAdapt p then 5 + pb p 4 else 4) else []

/-- Cut bytes into tsPackets of n bytes, dropping the first `skip` of each. -/
def tsPackets (n skip : Nat) : Nat → List Byte → List (List Byte)
  | 0, _ => []
  | f + 1, bs => if bs.isEmpty then [] else (bs.take n).drop skip :: tsPackets n skip f (bs.drop n)

/-- The first section of a PID: its payloads from the first unit start on, after the pointer field, up to the next section. -/
def sectionOf (ps : List (List Byte)) (pid : Nat) : List Byte :=
  match (ps.filter (fun p => tsPid p == pid)).dropWhile (fun p => !tsUnitStart p) with
  | [] => []
  | p :: rest =>
    let tail := match rest.find? tsUnitStart with
      | some q => ((tsPayload q).drop 1).take (pb (tsPayload q) 0)
      | none => []
    ((tsPayload p).drop (1 + pb (tsPayload p) 0)) ++ (rest.takeWhile (fun q => !tsUnitStart q)).flatMap tsPayload ++ tail

/-- The section is here in full. -/
def sectionDone (s : List Byte) : Bool := 3 ≤ s.length && 3 + (pb s 1 % 16 * 256 + pb s 2) ≤ s.length

/-- The packet with which the first section of a PID is complete. -/
def sectionPlace (ps : List (List Byte)) (pid : Nat) : Option Nat :=
  (List.range ps.length).find? (fun k => sectionDone (sectionOf (ps.take (k + 1)) pid))

/-- Bytes of a section before its CRC. -/
def sectionEnd (s : List Byte) : Nat := 3 + (pb s 1 % 16 * 256 + pb s 2) - 4

/-- The PMT PIDs of the programs of a PAT section, in order. -/
def patPids (s : List Byte) : List Nat :=
  ((List.range ((sectionEnd s - 8) / 4)).map (fun i => 8 + 4 * i)).filterMap (fun o =>
    if pb s o * 256 + pb s (o + 1) == 0 then none else some (pb s (o + 2) % 32 * 256 + pb s (o + 3)))

/-- The elementary streams of a PMT section from offset o: (stream_type, PID). -/
def pmtStreams (s : List Byte) : Nat → Nat → List (Nat × Nat)
  | 0, _ => []
  | f + 1, o =>
    if sectionEnd s ≤ o then []
    else (pb s o, pb s (o + 1) % 32 * 256 + pb s (o + 2)) :: pmtStreams s f (o + 5 + (pb s (o + 3) % 16 * 256 + pb s (o + 4)))

/-- The elementary streams of the program with a PMT PID. -/
def programStreams (ps : List (List Byte)) (pid : Nat) : List (Nat × Nat) :=
  let s := sectionOf ps pid
  if !sectionDone s then [] else pmtStreams s 256 (12 + (pb s 10 % 16 * 256 + pb s 11))

/-- The CODEC of a stream_type: 0 MPEG-2, 1 AVC, 2 HEVC. -/
def streamCodec (t : Nat) : Option Nat := if t == 0x02 then some 0 else if t == 0x1B then some 1 else if t == 0x24 then some 2 else none

/-- The packets of a PID up to the first error: the payloads with their unit start marks, and the error code (0 none). `last` is
the continuity counter before, with whether its packet may be repeated no more: one with a payload may be repeated once, but for
one marked discontinuous, which is no repeat. A packet without a payload does not advance the counter. -/
def pidScan (pid : Nat) : Option (Nat × Bool) → List (List Byte) → List (Bool × List Byte) × Nat
  | _, [] => ([], 0)
  | last, p :: ps =>
    if pb p 0 != 0x47 then ([], 0x01)
    else if tsPid p != pid then pidScan pid last ps
    else if pb p 1 / 128 == 1 then ([], 0x02)
    else
      let cc := pb p 3 % 16
      let checked := !tsDiscont p
      let again := checked && tsHasPayload p && last.any (fun l => l.1 == cc && !l.2)
      if checked && !again && last.any (fun l => cc != (if tsHasPayload p then l.1 + 1 else l.1) % 16) then ([], 0x03)
      else if pb p 3 / 64 != 0 then ([], 0x04)
      else
        let (r, e) := pidScan pid (some (cc, again || !tsHasPayload p)) ps
        (if tsHasPayload p && !again then (tsUnitStart p, tsPayload p) :: r else r, e)

/-- The PTS of a PES packet, and the bytes after its header. -/
def pesHead (b : List Byte) : Option Nat × List Byte :=
  let pts := if pb b 7 / 128 == 1 then
      some (pb b 9 / 2 % 8 * 2 ^ 30 + pb b 10 * 2 ^ 22 + pb b 11 / 2 * 2 ^ 15 + pb b 12 * 2 ^ 7 + pb b 13 / 2) else none
  (pts, b.drop (9 + pb b 8))

/-- Reassemble PES tsPackets from payloads. -/
def pesJoin : List (Bool × List Byte) → List (List Byte) → List (Option Nat × List Byte)
  | [], cur => if cur.isEmpty then [] else [pesHead cur.reverse.flatten]
  | (start, b) :: r, cur =>
    if start then (if cur.isEmpty then [] else [pesHead cur.reverse.flatten]) ++ pesJoin r [b]
    else if cur.isEmpty then pesJoin r [] else pesJoin r (b :: cur)

/-- The PID that AUTO selects: of the first stream with a codec of the first program. -/
def autoPid (ps : List (List Byte)) : Option Nat :=
  let pids := patPids (sectionOf ps 0)
  ((pids.head?.elim [] (programStreams ps)).find? (fun x => (streamCodec x.1).isSome)).map (fun x => x.2)

/-- The packet at which AUTO knows that no program has a stream to select. -/
def noProgramAt (ps : List (List Byte)) : Option Nat :=
  (sectionPlace ps 0).bind (fun a => match (patPids (sectionOf ps 0)).head? with
    | none => some a
    | some m => (sectionPlace ps m).map (fun b => max a b))

/-- The packet at which a program's table gives the PID a stream type that disagrees with CODEC. -/
def typeAt (ps : List (List Byte)) (codec v : Nat) : Option Nat :=
  (sectionPlace ps 0).bind (fun a =>
    ((patPids (sectionOf ps 0)).find? (fun m => (programStreams ps m).any (fun x => x.2 == v))).bind (fun m =>
      if ((programStreams ps m).find? (fun x => x.2 == v)).all (fun x => streamCodec x.1 == some codec) then none
      else (sectionPlace ps m).map (fun b => max a b)))

/-- A sample's elementary stream and the error met in its container (0 none): CONTAINER, CODEC, PID, the bytes. Of several errors
the first in stream order counts (R332): each stands at the packet that shows it. -/
def demux (container codec pid : Nat) (bs : List Byte) : List (Option Nat × List Byte) × Nat :=
  if container == 2 then ([(none, bs)], 0)
  else if codec == 3 then ([], 0x06)
  else
    let n := if container == 0 then 188 else 192
    if bs.length % n != 0 then ([], 0x01)
    else
      let ps := tsPackets n (n - 188) bs.length bs
      let good := ps.takeWhile (fun p => pb p 0 == 0x47)
      match (if pid == 0x1FFF then autoPid good else some pid) with
      | none => ([], if (noProgramAt good).isNone && good.length < ps.length then 0x01 else 0x05)
      | some v =>
        let wrong := typeAt good codec v
        let (pay, e) := pidScan v none (match wrong with | some k => ps.take (k + 1) | none => ps)
        (pesJoin pay [], if e == 0 && wrong.isSome then 0x06 else e)

/-! ## Tables (R335 to R337) -/

/-- An FP32 value, little-endian, of a table. -/
def tabF32 (t : List Byte) (i : Nat) : F32 := BitVec.ofNat 32 (natOf ((t.drop i).take 4))

/-- A coefficient in units of 2⁻¹⁴. -/
def tabCoef (t : List Byte) (ph j : Nat) : Int :=
  let v := natOf ((t.drop (16 * ph + 2 * j)).take 2)
  if v < 32768 then v else (v : Int) - 65536

def finite32 (x : F32) : Bool := !f32IsNan x && !f32IsInf x

/-- The bytes from i to j are zero. -/
def tabZero (t : List Byte) (i j : Nat) : Bool := ((t.drop i).take (j - i)).all (fun b => b == 0)

/-- The check of R335 on a table by its place: 0 DI, 1 to 3 filters, 4 colour, 5 normalisation. -/
def casTableOk (k : Nat) (t : List Byte) : Bool :=
  if k == 0 then
    let th (i : Nat) : Num := ofF32 (tabF32 t (4 * i))
    (List.range 3).all (fun i => finite32 (tabF32 t (4 * i))) && (th 0).lt (th 1) && (th 1).lt (th 2) && pb t 12 < 16 &&
      tabZero t 13 16 && (List.range 64).all (fun i => pb t (16 + i) / 16 < 3)
  else if k ≤ 3 then
    (List.range 64).all (fun ph => (List.range 8).foldl (fun (a : Int) j => a + tabCoef t ph j) 0 == 16384)
  else if k == 4 then (List.range 12).all (fun i => finite32 (tabF32 t (4 * i))) && tabZero t 48 64
  else (List.range 6).all (fun i => finite32 (tabF32 t (4 * i))) && tabZero t 24 32

def tableSize (k : Nat) : Nat := if k == 0 then 80 else if k ≤ 3 then 1024 else if k == 4 then 64 else 32

/-- p / q rounded once to FP32. -/
def ratF32 (p : Int) (q : Nat) : F32 :=
  let n := 64 + bitLen q
  let v := p.natAbs * 2 ^ n
  toF32 (.fin (decide (p < 0)) (2 * (v / q) + (if v % q == 0 then 0 else 1)) (-n - 1))

/-- A rational p / q to the nearest integer. -/
def roundDiv (p q : Int) : Int :=
  let (p, q) := if q < 0 then (-p, -q) else (p, q)
  if 0 ≤ p then (2 * p + q) / (2 * q) else -((-2 * p + q) / (2 * q))

/-- The scale of the fixed-point values of the kernels, and π in it. -/
def fixOne : Int := 2 ^ 128
def fixPi : Int := 0x3243F6A8885A308D313198A2E03707344

/-- The Taylor sum of the sine from term k on: `term` is the present term, y the argument. -/
def sinSum : Nat → Nat → Int → Int → Int → Int
  | 0, _, _, _, acc => acc
  | f + 1, k, y, term, acc =>
    let next := -(term * y / fixOne * y / fixOne) / ((k + 1) * (k + 2) : Nat)
    sinSum f (k + 2) y next (acc + term)

/-- The sine of a fixed-point angle. -/
def sinFix (y : Int) : Int := sinSum 40 1 y y 0

/-- The kernels' weights at x = m / 64 by filter number: exact integers for BILINEAR and CUBIC, fixed-point for the two with
sines. -/
def kernelW (f : Nat) (m : Int) : Int :=
  let a : Int := m.natAbs
  if f == 0 then max 0 (64 - a)
  else if f == 1 then
    if a ≤ 64 then 3 * a ^ 3 - 5 * 64 * a ^ 2 + 2 * 64 ^ 3
    else if a < 128 then -(a ^ 3) + 5 * 64 * a ^ 2 - 8 * 64 ^ 2 * a + 4 * 64 ^ 3
    else 0
  else
    let k : Int := if f == 2 then 3 else 4
    if a == 0 then fixOne
    else if a ≥ 64 * k then 0
    else
      let y := fixPi * a / 64
      sinFix y * sinFix (y / k) / fixOne * k * fixOne / (y * y / fixOne)

/-- The taps of a standard filter: first and last. -/
def kernelTaps (f : Nat) : Nat × Nat := if f == 0 then (3, 4) else if f == 1 then (2, 5) else if f == 2 then (1, 6) else (0, 7)

/-- The coefficients of one phase of a standard filter (R336). -/
def phaseCoefs (f ph : Nat) : List Int :=
  let (lo, hi) := kernelTaps f
  let w (j : Nat) : Int := if lo ≤ j && j ≤ hi then kernelW f (64 * ((j : Int) - 3) - ph) else 0
  let sum := (List.range 8).foldl (fun (a : Int) j => a + w j) 0
  let cs := (List.range 8).map (fun j => roundDiv (16384 * w j) sum)
  let res := 16384 - cs.foldl (· + ·) 0
  let at' := if 32 ≤ ph then 4 else 3
  cs.zipIdx.map (fun (c : Int × Nat) => if c.2 == at' then c.1 + res else c.1)

def int16Bytes (v : Int) : List Byte := bytesOf (v % 65536).toNat 2

/-- A standard filter table. -/
def stdFilter (f : Nat) : List Byte := (List.range 64).flatMap (fun ph => (phaseCoefs f ph).flatMap int16Bytes)

/-- Kr and Kb of a colour standard in units of 1/10,000. -/
def colourK (c : Nat) : Int × Int := if c == 0 then (2990, 1140) else if c == 1 then (2126, 722) else (2627, 593)

/-- A standard colour table (R337). -/
def stdColour (k : Nat) : List Byte :=
  let f (p : Int) (q : Nat) : List Byte := bytesOf (ratF32 p q).toNat 4
  let z := f 0 1
  let one := f 1 1
  if k == 6 then one ++ z ++ z ++ z ++ one ++ z ++ z ++ z ++ one ++ z ++ z ++ z ++ List.replicate 16 0
  else
    let full := k % 2 == 1
    let (kr, kb) := colourK (k / 2)
    let kg := 10000 - kr - kb
    let sY := if full then 255 else 219
    let sC := if full then 255 else 224
    let y := f 1 sY
    let r := f (2 * (10000 - kr)) (10000 * sC)
    let b := f (2 * (10000 - kb)) (10000 * sC)
    let gb := f (-2 * kb * (10000 - kb)) (kg.toNat * 10000 * sC)
    let gr := f (-2 * kr * (10000 - kr)) (kg.toNat * 10000 * sC)
    y ++ z ++ r ++ y ++ gb ++ gr ++ y ++ b ++ z ++ f (if full then 0 else 16) 1 ++ f 128 1 ++ f 128 1 ++ List.replicate 16 0

/-- A standard normalisation table: UNIT or CENTRED. -/
def stdNorm (k : Nat) : List Byte :=
  let f (p : Int) (q : Nat) : List Byte := bytesOf (ratF32 p q).toNat 4
  let m := if k == 0 then f 0 1 else f 1 2
  let i := if k == 0 then f 1 1 else f 2 1
  m ++ m ++ m ++ i ++ i ++ i ++ List.replicate 8 0

/-- A standard field table: BOB, WEAVE, PULLDOWN. -/
def stdField (k : Nat) : List Byte :=
  if k == 0 then List.replicate 16 0 ++ List.replicate 64 0x10
  else if k == 1 then List.replicate 16 0 ++ List.replicate 4 0x21 ++ List.replicate 60 0
  else Config.pulldown

/-- A standard table by its place and number, if there is one. -/
def casTable (k num : Nat) : Option (List Byte) :=
  if k == 0 then (if num ≤ 2 then some (stdField num) else none)
  else if k ≤ 3 then (if num ≤ 3 then some (stdFilter num) else none)
  else if k == 4 then (if num ≤ 6 then some (stdColour num) else none)
  else if num ≤ 1 then some (stdNorm num) else none

/-- The number of the standard colour table that AUTO chooses (R337). -/
def autoColour (matrix height : Nat) (range : Option Bool) : Nat :=
  let base := if matrix == 1 then 1 else if matrix == 5 || matrix == 6 then 0 else if matrix == 9 then 2
    else if 720 ≤ height then 1 else 0
  2 * base + (if range == some true then 1 else 0)

/-! ## Frames (R333, R335) -/

/-- A plane: rows of FP32 samples. -/
abbrev Plane := List (List F32)

/-- A frame: luma and the two chroma planes, and its PTS. -/
structure Frame where
  y : Plane
  cb : Plane
  cr : Plane
  pts : Nat

/-- Rows of w samples. -/
def planeRows (w : Nat) : Nat → List (BitVec 16) → Plane
  | 0, _ => []
  | h + 1, xs => (xs.take w).map (fun x => f32OfInt x.toNat) :: planeRows w h (xs.drop w)

/-- One field: its parity (0 the top lines), its planes of half height, its picture. -/
structure Field where
  parity : Nat
  fr : Frame

def fieldRows (p : Nat) (x : Plane) : Plane := (x.zipIdx.filter (fun (r : List F32 × Nat) => r.2 % 2 == p)).map (fun r => r.1)

def fieldOfFrame (p : Nat) (f : Frame) : Field := ⟨p, ⟨fieldRows p f.y, fieldRows p f.cb, fieldRows p f.cr, f.pts⟩⟩

/-- Two fields' rows woven, field a of parity p. -/
def weavePlane (p : Nat) (a b : Plane) : Plane :=
  (List.range (a.length + b.length)).map (fun i => if i % 2 == p then a.getD (i / 2) [] else b.getD (i / 2) [])

def weave (f g : Field) : Frame :=
  ⟨weavePlane f.parity f.fr.y g.fr.y, weavePlane f.parity f.fr.cb g.fr.cb, weavePlane f.parity f.fr.cr g.fr.cr, f.fr.pts⟩

/-- One filtered value of a line at source index i and phase ph (the loop of R333). -/
def tapSum (tab : List Byte) (ph : Nat) (i : Int) (line : List F32) : F32 :=
  (List.range 8).foldl (fun (acc : F32) (j : Nat) =>
    let k : Int := max 0 (min (i - 3 + j) ((line.length : Int) - 1))
    f32Fma (f32Mul (f32OfInt (tabCoef tab ph j)) (ratF32 1 16384)) (line.getD k.toNat 0) acc) 0

/-- The columns of a plane. -/
def transpose (x : Plane) : Plane := (List.range (x.headD []).length).map (fun c => x.map (fun r => r.getD c 0))

/-- A frame's plane from one field of parity p: the missing lines by phase 32 of VF. -/
def bobPlane (vf : List Byte) (p : Nat) (a : Plane) : Plane :=
  let cols := transpose a
  (List.range (2 * a.length)).map (fun i =>
    if i % 2 == p then a.getD (i / 2) []
    else cols.map (fun line => tapSum vf 32 (if p == 0 then ((i / 2 : Nat) : Int) else ((i / 2 : Nat) : Int) - 1) line))

def bob (vf : List Byte) (f : Field) : Frame :=
  ⟨bobPlane vf f.parity f.fr.y, bobPlane vf f.parity f.fr.cb, bobPlane vf f.parity f.fr.cr, f.fr.pts⟩

/-- A field that the stream does not hold: its samples are open. -/
def openField (f : Field) : Field :=
  let g (x : Plane) : Plane := x.zipIdx.map (fun (r : List F32 × Nat) =>
    (List.range r.1.length).map (fun c => f32OfInt (Config.noField (r.2 * 65536 + c)).toNat))
  ⟨1 - f.parity, ⟨g f.fr.y, g f.fr.cb, g f.fr.cr, f.fr.pts⟩⟩

/-- The class of a field by the mean absolute difference from the field two before it, in 8-bit-equivalent luma. -/
def fieldClass (di : List Byte) (depth : Nat) (f : Field) (prev : Option Field) : Nat :=
  match prev with
  | none => 3
  | some g =>
    let xs := (f.fr.y.flatten).zip g.fr.y.flatten
    let sum := xs.foldl (fun (a : Num) x => a.add (ofF32 (f32Sub x.1 x.2)).abs) Num.zero
    let th (i : Nat) : Num := (ofF32 (tabF32 di (4 * i))).mul (.fin false (max 1 xs.length * 2 ^ (depth - 8)) 0)
    if sum.lt (th 0) then 0 else if sum.lt (th 1) then 1 else if sum.lt (th 2) then 2 else 3

/-- Field handling: the pictures in display order (progressive, its fields in order), the state and the last two
fields. -/
def handleFields (di vf : List Byte) (depth : Nat) : List (Bool × List Field × Frame) → Nat → List Field → List Frame
  | [], _, _ => []
  | (true, _, f) :: r, st, prev => f :: handleFields di vf depth r st prev
  | (false, fs, _) :: r, st, prev =>
    let (out, st, prev) := fs.foldl (fun (acc : List Frame × Nat × List Field) f =>
      let (out, st, prev) := acc
      let k := fieldClass di depth f (prev[1]?)
      let e := pb di (16 + 4 * st + k)
      let g := prev.headD (openField f)
      let out := if e / 16 % 8 == 0 then out ++ [weave f g] else if e / 16 % 8 == 1 then out ++ [bob vf f] else out
      (out, e % 16, f :: prev.take 1)) ([], st, prev)
    out ++ handleFields di vf depth r st prev

/-! ## What a decode supports and yields (R330 to R332) -/

/-- The formats that the decode engines support (R330), by CODEC. -/
def supported (codec : Nat) (f : PicFormat) : Bool :=
  let size (w h : Nat) : Bool := f.width ≤ w && f.height ≤ h
  let level (lo hi : Nat) : Bool := lo ≤ f.level && f.level ≤ hi
  let depth10 : Bool := f.depth == 8 || f.depth == 10
  match codec with
  | 0 => f.profile == .mpeg2Main && level 1 4 && f.chroma == 1 && f.depth == 8 && size 1920 1152
  | 1 => ((f.profile == .avcHigh && f.depth == 8) || (f.profile == .avcHigh10 && depth10)) && level 10 52 && f.chroma ≤ 1 &&
      size 4096 2304
  | 2 => ((f.profile == .hevcMain && f.depth == 8) || (f.profile == .hevcMain10 && depth10)) && level 10 51 && f.tier ≤ 1 &&
      f.chroma == 1 && size 4096 2304
  | _ => f.profile == .av1Main && level 20 51 && f.tier ≤ 1 && f.chroma ≤ 1 && depth10 && size 4096 2304

/-- The code of a picture's error (R332). -/
def picErrorCode : PicError → Nat
  | .none => 0
  | .badSyntax => 0x07
  | .reference => 0x08
  | .truncated => 0x0A

/-- A random access point begins with the picture (R331). -/
def isRap (codec : Nat) (p : Picture) : Bool :=
  match codec with
  | 0 => p.header && p.kind == .intra
  | 1 => p.kind == .idr
  | 2 => p.kind == .irap
  | _ => p.header && p.kind == .key

/-- The pictures from place i on that can be decoded from the random access point at place `start`: those that refer to no picture
before it and to none that is skipped (R331). -/
def decodable (start : Nat) : Nat → List Nat → List Picture → List Picture
  | _, _, [] => []
  | i, gone, p :: ps =>
    if p.refs.any (fun r => match r with | none => true | some k => decide (k < start) || gone.contains k)
    then decodable start (i + 1) (i :: gone) ps
    else p :: decodable start (i + 1) gone ps

/-- The pictures of a sample from its first random access point on, but for those that cannot be decoded from there (R331). -/
def fromRap (codec : Nat) (ps : List Picture) : List Picture :=
  let start := ps.findIdx (isRap codec)
  decodable start start [] (ps.drop start)

/-- The pictures before the first that has an error, that error (0 none), and the pictures from it on. -/
def scanPics (codec : Nat) (first : Option PicFormat) : List Picture → List Picture × Nat × List Picture
  | [] => ([], 0, [])
  | p :: ps =>
    let same := first.all (fun f =>
      f.width == p.fmt.width && f.height == p.fmt.height && f.chroma == p.fmt.chroma && f.depth == p.fmt.depth)
    let e := if !supported codec p.fmt then 0x06 else if !same then 0x0B else picErrorCode p.err
    if e != 0 then ([], e, p :: ps)
    else
      let (a, c, r) := scanPics codec (some (first.getD p.fmt)) ps
      (p :: a, c, r)

/-- One entry of the display order: its place, whether it is progressive, its fields in order, the frame. -/
structure Shown where
  order : Nat
  progressive : Bool
  fields : List Field
  frame : Frame

/-- The planes of a picture of h rows; monochrome has mid-grey chroma (R330). -/
def picFrame (h : Nat) (p : Picture) : Frame :=
  let w := p.fmt.width
  let grey := List.replicate (w / 2 * (h / 2)) (BitVec.ofNat 16 (2 ^ (p.fmt.depth - 1)))
  let c (x : List (BitVec 16)) : Plane := planeRows (w / 2) (h / 2) (if p.fmt.chroma == 0 then grey else x)
  ⟨planeRows w h p.y, c p.cb, c p.cr, p.pts⟩

/-- Frames as they stand, and field pictures paired in decode order (R330); `half` is a field whose second has not come, with its
place. -/
def showPics (half : Option (Nat × Field)) : List Picture → List Shown
  | [] => half.elim [] (fun x => [⟨x.1, false, [x.2], x.2.fr⟩])
  | p :: ps =>
    let alone : List Shown := half.elim [] (fun x => [⟨x.1, false, [x.2], x.2.fr⟩])
    let f := picFrame p.fmt.height p
    match p.coding with
    | .progressive => alone ++ ⟨p.order, true, [], f⟩ :: showPics none ps
    | .interlaced top =>
      let a := if top then 0 else 1
      alone ++ ⟨p.order, false, [fieldOfFrame a f, fieldOfFrame (1 - a) f], f⟩ :: showPics none ps
    | .field a =>
      let g : Field := ⟨a, picFrame (p.fmt.height / 2) p⟩
      match half with
      | some x => ⟨x.1, false, [x.2, g], x.2.fr⟩ :: showPics none ps
      | none => showPics (some (p.order, g)) ps

def insertShown (x : Shown) : List Shown → List Shown
  | [] => [x]
  | y :: ys => if y.order ≤ x.order then y :: insertShown x ys else x :: y :: ys

/-- The output frames of pictures, in display order after field handling; a picture that one still to be decoded may precede is
not yet out. -/
def outputFrames (di vf : List Byte) (depth : Nat) (good rest : List Picture) : List Frame :=
  let out := good.filter (fun p => rest.all (fun q => decide (p.order < q.order)))
  let shown := (showPics none out).foldl (fun l x => insertShown x l) []
  handleFields di vf depth (shown.map (fun x => (x.progressive, x.fields, x.frame))) (pb di 12) []

/-- A rectangle of a plane. -/
def cropPlane (x y w h : Nat) (p : Plane) : Plane := ((p.drop y).take h).map (fun r => (r.drop x).take w)

/-- One resized line (R333). -/
def resampleLine (tab : List Byte) (nOut : Nat) (line : List F32) : List F32 :=
  (List.range nOut).map (fun o =>
    let q : Int := (((2 * o + 1 : Nat) * line.length : Nat) - (nOut : Int)) * 64 / (2 * nOut : Nat)
    tapSum tab (q % 64).toNat (q / 64) line)

/-- Resize a plane, horizontally and then vertically. -/
def resizePlane (ht vt : List Byte) (ow oh : Nat) (p : Plane) : Plane :=
  let rows := p.map (resampleLine ht ow)
  transpose ((transpose rows).map (resampleLine vt oh))

/-- One pixel's scaling, colour and normalisation: channel c of the output. -/
def pixelOut (col nrm : List Byte) (depth : Nat) (v : List F32) (c : Nat) : F32 :=
  let x (j : Nat) : F32 := f32Sub (f32Mul (v.getD j 0) (ratF32 1 (2 ^ (depth - 8)))) (tabF32 col (36 + 4 * j))
  let m (j : Nat) : F32 := tabF32 col (12 * c + 4 * j)
  let o := f32Fma (m 2) (x 2) (f32Fma (m 1) (x 1) (f32Mul (m 0) (x 0)))
  f32Mul (f32Sub o (tabF32 nrm (4 * c))) (tabF32 nrm (12 + 4 * c))

/-- The parts of the job descriptor the tokeniser uses. -/
structure TokCfg where
  fmt : Nat
  sat : Bool
  t : Nat
  p : Nat
  ow : Nat
  oh : Nat
  cropX : Nat
  cropY : Nat
  cropW : Nat
  cropH : Nat

/-- Elements of a row, and the bytes of a row (rounded up to 64). -/
def tokElems (c : TokCfg) : Nat := 3 * c.t * c.p * c.p
def tokRowBytes (c : TokCfg) : Nat := (tokElems c * (fmtBits c.fmt / 8) + 63) / 64 * 64

/-- A frame after crop and resize: rows of (Y, Cb, Cr). -/
def sizedFrame (c : TokCfg) (tabs : List (List Byte)) (f : Frame) : List Plane :=
  let cut (d : Nat) (p : Plane) : Plane := if c.cropW == 0 then p else cropPlane (c.cropX / d) (c.cropY / d) (c.cropW / d) (c.cropH / d) p
  let cf := tabs.getD 3 []
  [resizePlane (tabs.getD 1 []) (tabs.getD 2 []) c.ow c.oh (cut 1 f.y), resizePlane cf cf c.ow c.oh (cut 2 f.cb),
    resizePlane cf cf c.ow c.oh (cut 2 f.cr)]

/-- The token rows of a sample from its taken frames (R333). -/
def tokenRows (c : TokCfg) (tabs : List (List Byte)) (col : List Byte) (depth : Nat) (fs : List Frame) : List Byte :=
  let sized := fs.map (sizedFrame c tabs)
  let px (f r s ch : Nat) : Num :=
    let ps := sized.getD f []
    let at' (k : Nat) : F32 := (((ps.getD k []).getD r []).getD s 0)
    ofF32 (pixelOut col (tabs.getD 5 []) depth [at' 0, at' 1, at' 2] ch)
  let across := c.ow / c.p
  let tokens := fs.length / c.t * (c.oh / c.p) * across
  (List.range tokens).flatMap (fun k =>
    let g := k / ((c.oh / c.p) * across)
    let y := k / across % (c.oh / c.p)
    let x := k % across
    let body := (List.range (tokElems c)).flatMap (fun e =>
      let ch := e % 3
      let s := e / 3 % c.p
      let r := e / (3 * c.p) % c.p
      let t := e / (3 * c.p * c.p)
      bytesOf (convert c.fmt ⟨if c.sat then 1 else 0, 0⟩ (px (g * c.t + t) (y * c.p + r) (x * c.p + s) ch)).code (fmtBits c.fmt / 8))
    body ++ List.replicate (tokRowBytes c - body.length) 0)

end Sys2Proof.Machine
end

