-- ==== Sys2Proof/Machine/Casement.lean ====
section
/-! DEFINITION. Casement (R324 to R343): jobs, the dispatch of shuffled positions, decoded samples and their records, ROUTE
MEMORY and ROUTE SCRATCH, memory faults. -/

namespace Sys2Proof.Machine

open Host (Outcome)

def setCas (s : State) (n : CtxId) (j : CasJob) : State := { s with cas := s.cas.set casDef n.toNat (some j) }

/-- 0 NONE, 1 STOPPED, 2 RUNNING, 3 STOPPING. -/
def casState (s : State) (n : CtxId) : Nat := fld s (aCasState n) 0 2

/-! ## The descriptor (R325) -/

def cd (j : CasJob) (i k : Nat) : Nat := fieldAt j.desc i k
def cdScratch (d : List Byte) : Bool := fieldAt d 2 1 % 2 == 1
def cdT (d : List Byte) : Nat := fieldAt d 3 1
def cdP (d : List Byte) : Nat := fieldAt d 4 1
def cdF (d : List Byte) : Nat := fieldAt d 6 2

/-- The tokeniser's part of a descriptor. -/
def tokCfg (d : List Byte) : TokCfg :=
  ⟨fieldAt d 2 1 / 2 % 16, fieldAt d 2 1 / 32 % 2 == 1, cdT d, cdP d, fieldAt d 8 2, fieldAt d 10 2,
    fieldAt d 12 2, fieldAt d 14 2, fieldAt d 16 2, fieldAt d 18 2⟩

/-- TOKENS of a sample that is not BAD. -/
def tokensOf (d : List Byte) : Nat := cdF d / max 1 (cdT d) * (fieldAt d 10 2 / max 1 (cdP d)) * (fieldAt d 8 2 / max 1 (cdP d))

/-- The bytes of a slot under ROUTE MEMORY. -/
def slotBytes (d : List Byte) : Nat := 64 + tokensOf d * tokRowBytes (tokCfg d)

/-- A 48-bit address with its alignment. -/
def vaField (v align : Nat) : Bool := v % align == 0 && v < 2 ^ 48

/-- The descriptor obeys R325, and R339 for ROUTE SCRATCH. -/
def casDescOk (s : State) (n : CtxId) (d : List Byte) : Bool :=
  let f := fieldAt d
  let fmt := f 2 1 / 2 % 16
  let common := f 0 2 == 1 && (fmt == 0 || fmt == 1 || fmt == 8) && f 2 1 < 64 && 1 ≤ f 3 1 && f 3 1 ≤ 8 && 8 ≤ f 4 1 && f 4 1 ≤ 32 &&
    1 ≤ f 5 1 && f 5 1 ≤ 8 && 1 ≤ f 6 2 && f 6 2 ≤ 256 && f 6 2 % f 3 1 == 0 &&
    16 ≤ f 8 2 && f 8 2 ≤ 4096 && f 8 2 % f 4 1 == 0 && 16 ≤ f 10 2 && f 10 2 ≤ 4096 && f 10 2 % f 4 1 == 0 &&
    f 12 2 % 2 == 0 && f 14 2 % 2 == 0 && f 16 2 % 2 == 0 && f 18 2 % 2 == 0 && vaField (f 24 8) 64 && vaField (f 64 8) 64 &&
    1 ≤ f 72 4 && f 72 4 ≤ 2 ^ 20 && zeroBytes d 76 80 && regionOk s n (f 64 8) (16 * f 72 4)
  if cdScratch d then
    common && f 36 4 == 0 && f 40 8 / 2 ^ 36 % 16 == 0 && f 40 8 / 2 ^ 42 == 0 && 1 ≤ f 52 2 && f 54 2 == 0 && 1 ≤ f 60 4 &&
      fld s aShtOwned (headOf s 0).toNat 1 == 1 && fld s aShtOwner (4 * (headOf s 0).toNat) 4 == n.toNat &&
      (match tileOfUnit s (f 40 4) with | some t => headOf s (ringOf t) == headOf s 0 | none => false)
  else
    common && 1 ≤ f 36 4 && f 36 4 ≤ 65536 && vaField (f 40 8) 64 && vaField (f 48 8) 8 && zeroBytes d 56 64 &&
      regionOk s n (f 40 8) (f 36 4 * slotBytes d)

/-- One table reference: its bytes (empty for COLOUR AUTO), or the status that ends the command (R334, R335). -/
def readTable (s : State) (n : CtxId) (d : List Byte) (k : Nat) : State × Except Byte (List Byte) :=
  let r := fieldAt d (80 + 8 * k) 8
  if k == 4 && r == 0x4000000000000000 then (s, .ok [])
  else if r / 2 ^ 63 == 1 then
    match (if r % 2 ^ 63 < 256 then casTable k (r % 256) else none) with
    | some t => (s, .ok t)
    | none => (s, .error stMalformed)
  else if 2 ^ 48 ≤ r then (s, .error stMalformed)
  else match readCtx s n r (tableSize k) 64 with
    | (s, .error e) => (s, .error e)
    | (s, .ok t) => if casTableOk k t then (s, .ok t) else (s, .error stMalformed)

def readTables (s : State) (n : CtxId) (d : List Byte) : State × Except Byte (List (List Byte)) :=
  (List.range 6).foldl (fun (acc : State × Except Byte (List (List Byte))) k => match acc with
    | (s, .error e) => (s, .error e)
    | (s, .ok ts) => match readTable s n d k with
      | (s, .error e) => (s, .error e)
      | (s, .ok t) => (s, .ok (ts ++ [t]))) (s, .ok [])

/-! ## CAS_CONFIG, CAS_START, CAS_STOP, CAS_SEEK (R324, R328, R341) -/

def casConfig (c : Cmd) (s : State) : State :=
  let n := c.ctx
  match readCtx s n (fieldAt c.entry 8 8) 128 64 with
  | (s, .error e) => finish s c e
  | (s, .ok d) =>
    if !casDescOk s n d then finish s c stMalformed
    else match readTables s n d with
      | (s, .error e) => finish s c e
      | (s, .ok ts) =>
        let s := setReg s (aCasState n) (BitVec.ofNat 64 (1 + (if cdScratch d then 4 else 0)))
        let s := setReg (setReg (setReg (setReg s (aCasShuf n) 0) (aCasSeq n) 0) (aCasCount n) 0) (aCasLog n) 0
        finish (setCas s n ⟨d, ts, reg s (aSeed n), [], [], [], []⟩) c stOk

def execCasConfig (p : Page) (s : State) : Outcome State Fault Refusal := .next (command 0x17 p (viaGang casConfig) s)

/-- The job with the seed latched anew. -/
def latchSeed (s : State) (n : CtxId) : State :=
  match casOf s n with
  | none => s
  | some j => setCas s n { j with seed := reg s (aSeed n) }

def casStart (c : Cmd) (s : State) : State := finish (setFld (latchSeed s c.ctx) (aCasState c.ctx) 0 2 2) c stOk

def execCasStart (p : Page) (s : State) : Outcome State Fault Refusal := .next (command 0x18 p (viaGang casStart) s)

def casStop (c : Cmd) (s : State) : State :=
  match casOf s c.ctx with
  | none => finish s c stOk
  | some j =>
    if casState s c.ctx ≤ 1 then finish s c stOk
    else setFld (setCas s c.ctx { j with stopCmds := j.stopCmds ++ [c.id] }) (aCasState c.ctx) 0 2 3

def execCasStop (p : Page) (s : State) : Outcome State Fault Refusal := .next (command 0x19 p (viaGang casStop) s)

/-- CAS_STOP_COMPLETE: every sample dispatched has its record. -/
def execCasStopComplete (n : CtxId) (s : State) : Outcome State Fault Refusal :=
  .next (match casOf s n with
    | none => s
    | some j =>
      if casState s n != 3 || !j.samples.isEmpty then s
      else
        let s := setFld (setCas s n { j with runs := [], stopCmds := [] }) (aCasState n) 0 2 1
        j.stopCmds.foldl (fun s id => completeId s id stOk (unitModule s)) s)

def casSeek (c : Cmd) (s : State) : State :=
  match casOf s c.ctx with
  | none => finish s c stMalformed
  | some j =>
    if cd j 32 4 < fieldAt c.entry 20 4 then finish s c stMalformed
    else
      let s := setReg s (aCasShuf c.ctx) (BitVec.ofNat 64 (fieldAt c.entry 20 4 + fieldAt c.entry 16 4 * 2 ^ 32))
      finish (latchSeed (setReg s (aCasSeq c.ctx) (BitVec.ofNat 64 (fieldAt c.entry 24 8))) c.ctx) c stOk

def execCasSeek (p : Page) (s : State) : Outcome State Fault Refusal := .next (command 0x1A p (viaGang casSeek) s)

/-! ## Memory (R338, R340) -/

/-- A memory fault of a job in normal service: recorded, the job stops and the context faults, naming the module; so does one that
is LOADED, in which a job may run (R324, R340). -/
def casFault (s : State) (n : CtxId) (code : Nat) : State :=
  let s := ctxFault (casAbort (setFld s (aCasState n) 4 4 code) n 1) n (unitModule s)
  if isNormal s && ctxState s n == 2 then
    setCtxState (errRecord s (.module n) (errWord stFault n (unitModule s) 0)) n 5
  else s

/-- The FAULT code of a mark that a read met: 1 poison, 2 integrity. -/
def casMark (m : Nat) : Nat := if m == 1 then 3 else if m == 2 then 2 else 4

/-- Read for Casement: the bytes, or the FAULT code. -/
def casRead (s : State) (n : CtxId) (va len : Nat) : State × Except Nat (List Byte) :=
  if !vaOk s n va len false then (s, .error 1)
  else match readVa s n va len 1 with
    | (s, bs, m) => if m != 0 then (s, .error (casMark m)) else (s, .ok bs)

/-- The groups of a range that are present carry a tensor ID (R338). -/
def tagTensor (s : State) (n : CtxId) (va len : Nat) (id : BitVec 32) : State :=
  (lineCuts va len).foldl (fun (s : State) (x : Nat × Nat) => match translate s n (va + x.1) true with
    | none => s
    | some pa =>
      let g := groupOf pa
      if (grp s g).valid then setGrp s g { grp s g with tensor := id } else s) s

/-- Write for Casement as a NORMAL access: none where the range is not mapped for writing. -/
def casWrite (s : State) (n : CtxId) (va : Nat) (bs : List Byte) (tensor : Option (BitVec 32)) : Option State :=
  if !vaOk s n va bs.length true then none
  else
    let s := writeVa s n va bs 1
    some (match tensor with | some id => tagTensor s n va bs.length id | none => s)

/-- In normal service a fault stops the job; otherwise the caller goes on with the BAD code MEMORY. -/
def casFails (s : State) (n : CtxId) (code : Nat) : Option State := if isNormal s then some (casFault s n code) else none

/-! ## Records (R338, R339) -/

def putSample (j : CasJob) (x : CasSample) : CasJob := { j with samples := j.samples.map (fun y => if y.q == x.q then x else y) }

/-- The record of a sample. -/
def recordOf (j : CasJob) (x : CasSample) : List Byte :=
  let bad := x.code != 0
  bytesOf x.pos.toNat 4 ++ bytesOf x.epoch.toNat 4 ++ bytesOf x.index 4 ++ [if bad then 1 else 0, x.code, 0, 0] ++
    (x.entry.drop 20).take 4 ++ bytesOf (if bad then 0 else tokensOf j.desc) 4 ++ bytesOf x.pts 8 ++
    bytesOf (if bad then 0 else digest8 x.rows) 8 ++ bytesOf x.q.toNat 8 ++ List.replicate 16 0

/-- The address of the log entry that is written next. -/
def logVa (s : State) (n : CtxId) (j : CasJob) : Nat := cd j 64 8 + fld s (aCasLog n) 0 32 % max 1 (cd j 72 4) * 16

/-- The log entry of a BAD sample, written to the ring. -/
def casLog (s : State) (n : CtxId) (j : CasJob) (x : CasSample) : Option State :=
  let e := bytesOf x.pos.toNat 4 ++ bytesOf x.epoch.toNat 4 ++ bytesOf x.index 4 ++ [x.code, 0] ++ bytesOf x.errFrame 2
  (casWrite s n (logVa s n j) e none).map (fun s => setFld s (aCasLog n) 0 32 (fld s (aCasLog n) 0 32 + 1))

/-- The address of the slot of Q. -/
def slotVa (j : CasJob) (q : Word64) : Nat := cd j 40 8 + q.toNat % max 1 (cd j 36 4) * slotBytes j.desc

/-- There is room for Q: the consumed word is read. -/
def slotRoom (s : State) (n : CtxId) (j : CasJob) (q : Word64) : State × Except Nat Bool :=
  match casRead s n (cd j 48 8) 8 with
  | (s, .error e) => (s, .error e)
  | (s, .ok bs) => (s, .ok (decide ((q - BitVec.ofNat 64 (natOf bs)).toNat < cd j 36 4)))

/-- The sample leaves: counted, and logged where it is BAD. -/
def sampleGone (s : State) (n : CtxId) (j : CasJob) (x : CasSample) : State :=
  let s := if x.code == 0 then satAdd s (aCasCount n) 0 32 1 else satAdd s (aCasCount n) 32 32 1
  let s := setCas s n { j with samples := j.samples.filter (fun y => y.q != x.q) }
  if x.code == 0 then s
  else match casLog s n j x with
    | some s => s
    | none => (casFails s n 1).getD s

/-- The sample as its record shows it. Outside normal service a fault of the record's own write, or of a BAD sample's log entry,
makes it BAD with code MEMORY, which prevails over a decode error (R340). -/
def recorded (s : State) (n : CtxId) (j : CasJob) (x : CasSample) : CasSample :=
  if isNormal s then x
  else
    let lost : CasSample := { x with code := 0x0D, rows := [], pts := 0, errFrame := 0xFFFF }
    let x := if cdScratch j.desc || vaOk s n (slotVa j x.q) 64 true then x else lost
    if x.code == 0 || vaOk s n (logVa s n j) 16 true then x else lost

/-- Write the rows of a decoded sample, if there is room. -/
def rowsTo (s : State) (n : CtxId) (j : CasJob) (x : CasSample) : State × Bool :=
  if x.rowsOut then (s, true)
  else match slotRoom s n j x.q with
    | (s, .error e) => (match casFails s n e with | some s => s | none => s, false)
    | (s, .ok false) => (s, false)
    | (s, .ok true) =>
      let done (s : State) : State := bump (setCas s n (putSample j { x with rowsOut := true })) (engineCode (.token (BitVec.ofNat 4 x.pipe)))
      if x.code != 0 then (done s, true)
      else match casWrite s n (slotVa j x.q + 64) x.rows (some (BitVec.ofNat 32 (cd j 20 4))) with
        | some s => (done s, true)
        | none => match casFails s n 1 with
          | some s => (s, false)
          | none => (setCas s n (putSample j { x with code := 0x0D, rows := [], pts := 0, rowsOut := true }), true)

/-- The open cycle in which beat b of a run is injected (R339). -/
def beatDue (j : CasJob) (r : CasRun) (b : Nat) : Nat := r.start + cd j 56 4 + b * cd j 60 4

/-- The router by which beats from a die-to-die port enter for a tile: the port's attachment in row 0 nearest its column (R228,
R234). -/
def portRouter (k : Nat) (t : TileId) : TileId := tileAt (max (8 * k) (min (colOf t) (8 * k + 7))) 0

/-- The source number of a Casement run's requests. -/
def srcCas (n : CtxId) : Nat := 0x100 + n.toNat

/-- The next beat of the oldest run is not ready 32 open cycles before its injection (R242, R339). -/
def injectLate (s : State) (n : CtxId) : Bool :=
  match casOf s n with
  | none => false
  | some j => cdScratch j.desc && (match j.runs with
      | r :: _ => decide (beatDue j r r.beat ≤ cyclesOf s 0 + 32) && !(j.samples.head?.any (fun x => x.done))
      | [] => false)

/-- A late injection raises memory late: Casement's data come from memory, not over a Nguchat link. Every request that the run has
raised goes when its data are ready (R242). -/
def scratchLate (s : State) (n : CtxId) : State :=
  if injectLate s n then shutRaise s 0 0 (srcCas n)
  else shutDrop s (headOf s 0) (fun x => x.src == srcCas n)

/-- Inject the beats of a sample through the die-to-die port to the tile and queue of the descriptor, as the run has them: its
record, then its rows, each in its open cycle. -/
def injectSample (s : State) (n : CtxId) (j : CasJob) (r : CasRun) (x : CasSample) : State :=
  match tileOfUnit s (cd j 40 4) with
  | none => s
  | some t =>
    let q := cd j 44 1 % 16
    let body := if x.code == 0 then x.rows else List.replicate (slotBytes j.desc - 64) 0
    let bs := recordOf j x ++ body
    let beats := (List.range (bs.length / 64)).map (fun i => (⟨n, portRouter (cd j 45 1 % 4) t, t, none, .data q ((bs.drop (64 * i)).take 64), false, 0, 0, []⟩ : Beat))
    let s := advanceCycles s 0 (beatDue j r (r.beat + beats.length - 1))
    dieBytes { s with beats := s.beats ++ beats } 0 (64 * beats.length)

/-- Records leave in Q order: to memory as far as there is room, or into the runs. -/
def flushSamples : Nat → CtxId → State → State
  | 0, _, s => s
  | f + 1, n, s => match casOf s n with
    | none => s
    | some j => match j.samples with
      | [] => s
      | x :: _ =>
        if !x.done then s
        else if cdScratch j.desc then match j.runs with
          | [] => s
          | r :: rs =>
            let beats := slotBytes j.desc / 64
            if !ringOpen s 0 || !cycleOk s 0 (beatDue j r (r.beat + beats - 1)) then s else
            let rs := if r.left ≤ 1 then rs else { r with left := r.left - 1, beat := r.beat + beats } :: rs
            let x := recorded s n j x
            let s := bump (injectSample s n j r x) (engineCode (.token (BitVec.ofNat 4 x.pipe)))
            flushSamples f n (sampleGone s n { j with runs := rs } x)
        else match rowsTo s n j x with
          | (s, false) => s
          | (s, true) => match casOf s n with
            | none => s
            | some j => match j.samples.find? (fun y => y.q == x.q) with
              | none => s
              | some x =>
                let x := recorded s n j x
                match casWrite s n (slotVa j x.q) (recordOf j x) (some (BitVec.ofNat 32 (cd j 20 4))) with
                | some s => flushSamples f n (sampleGone s n j x)
                | none => match casFails s n 1 with
                  | some s => s
                  | none => flushSamples f n (sampleGone s n j x)

/-- Rows that wait are written as their slots allow, then the records; or a run goes on. -/
def casFlush (s : State) (n : CtxId) : State :=
  match casOf s n with
  | none => s
  | some j =>
    let s := if cdScratch j.desc then s
      else j.samples.foldl (fun s x => match casOf s n with
        | some j => match j.samples.find? (fun y => y.q == x.q) with
          | some x => if x.done then (rowsTo s n j x).1 else s
          | none => s
        | none => s) s
    scratchLate (flushSamples (j.samples.length + 1) n s) n

/-- CONSUMED_RECHECK (R338). -/
def execConsumedRecheck (n : CtxId) (s : State) : Outcome State Fault Refusal := .next (casFlush s n)

/-! ## Dispatch (R327, R342) -/

/-- The shuffle keys of an epoch. -/
def shuffleKeys (seed : Word64) (e : BitVec 32) : List Word64 :=
  let d := sha256 (bytesOf seed.toNat 8 ++ bytesOf e.toNat 4 ++ [0x43, 0x53, 0x48, 0x46])
  (List.range 4).map (fun k => BitVec.ofNat 64 (natOf ((d.drop (8 * k)).take 8)))

/-- Whether a context may be given the free engine, with the state its look at the consumed word leaves. -/
def casMayTake (s : State) (n : CtxId) : State × Bool :=
  match casOf s n with
  | none => (s, false)
  | some j =>
    let held := fld s (aCasState n) 8 6
    let most := fld s (aCasShare n) 0 6
    if casState s n != 2 || (most != 0 && most ≤ held) then (s, false)
    else if cdScratch j.desc then (s, true)
    else match slotRoom s n j (reg s (aCasSeq n)) with
      | (s, .ok b) => (s, b)
      | (s, .error e) => ((casFails s n e).getD s, false)

/-- An engine takes the next position of a context. -/
def casTake (s : State) (n : CtxId) (e : Nat) : State :=
  match casOf s n with
  | none => s
  | some j =>
    let pos := fld s (aCasShuf n) 0 32
    let ep : BitVec 32 := BitVec.ofNat 32 (fld s (aCasShuf n) 32 32)
    let size := cd j 32 4 + 1
    let q := reg s (aCasSeq n)
    let idx := permOf (shuffleKeys j.seed ep) size pos
    let next := if pos + 1 == size then (ep.toNat + 1) % 2 ^ 32 * 2 ^ 32 else pos + 1 + ep.toNat * 2 ^ 32
    let s := bump s (engineCode .shuffle)
    let s := { setReg (setReg s (aCasShuf n) (BitVec.ofNat 64 next)) (aCasSeq n) (q + 1) with casLast := n.toNat }
    let x : CasSample := ⟨some e, e / 3, BitVec.ofNat 32 pos, ep, q, idx, List.replicate 32 0, false, 0, 0xFFFF, 0, [], false⟩
    let s := setCas s n { j with samples := j.samples ++ [x] }
    match casRead s n (cd j 24 8 + 32 * idx) 32 with
    | (s, .ok bs) => setFld (setCas s n (putSample { j with samples := j.samples ++ [x] } { x with entry := bs })) (aCasState n) 8 6
        (fld s (aCasState n) 8 6 + 1)
    | (s, .error m) => match casFails s n m with
      | some s => s
      | none => casFlush (setCas s n { j with samples := j.samples ++ [{ x with eng := none, done := true, code := 0x0D }] }) n

/-- The engine decodes a sample. -/
def engineBusy (s : State) (e : Nat) : Bool :=
  s.cas.any (fun x => match x.2 with | some j => j.samples.any (fun y => y.eng == some e) | none => false)

/-- CAS_DISPATCH: round robin from the context served last. -/
def execCasDispatch (e : BitVec 6) (s : State) : Outcome State Fault Refusal :=
  .next (
    if 48 ≤ e.toNat || engineBusy s e.toNat then s
    else
      ((List.range 16).foldl (fun (acc : State × Bool) k =>
        if acc.2 then acc
        else
          let n : CtxId := BitVec.ofNat 4 (acc.1.casLast + 1 + k)
          match casMayTake acc.1 n with
          | (s, true) => (casTake s n e.toNat, true)
          | (s, false) => (s, false)) (s, false)).1)

/-! ## A decoded sample (R326, R329 to R333, R340) -/

/-- The pool entry obeys R326: LENGTH 188 or more, a CODEC in use, no reserved bit. -/
def entryGood (e : List Byte) : Bool :=
  let b := (e.getD 12 0).toNat
  188 ≤ fieldAt e 8 4 && b / 32 == 0 && b % 4 != 3 && b / 4 % 8 ≤ 3 && zeroBytes e 13 14 && fieldAt e 14 2 < 8192 && fieldAt e 6 2 == 0 && zeroBytes e 24 32

/-- What becomes of a sample's bytes: code, frame of the error, PTS, rows. Of several errors the first in stream order counts: that
of the container cuts the stream, and stands where the pictures before it do not hold the frames needed (R332). -/
def decodeOf (j : CasJob) (e bs : List Byte) : Byte × Nat × Nat × List Byte :=
  let b := (e.getD 12 0).toNat
  let d := j.desc
  let (es, derr) := demux (b % 4) (b / 4 % 8) (fieldAt e 14 2 % 8192) bs
  if derr != 0 && es.isEmpty then (BitVec.ofNat 8 derr, 0xFFFF, 0, [])
  else
    let codec := b / 4 % 8
    let r := Config.decodeSample codec es
    let (good, perr, rest) := scanPics codec none (fromRap codec r.pictures)
    let f0 : PicFormat := (good.head?.map (fun p => p.fmt)).getD default
    let c := tokCfg d
    let inside := c.cropW == 0 || (c.cropH != 0 && c.cropX + c.cropW ≤ f0.width && c.cropY + c.cropH ≤ f0.height)
    let fs := outputFrames (j.tables.getD 0 []) (j.tables.getD 2 []) f0.depth good rest
    let start := fieldAt e 16 4
    let stride := fieldAt d 5 1
    let f := cdF d
    if !good.isEmpty && !inside then (0x0C, 0xFFFF, 0, [])
    else if fs.length < start + (f - 1) * stride + 1 then
      let code := if perr != 0 && !(derr != 0 && perr == 0x0A) then perr else if derr != 0 then derr else 0x09
      (BitVec.ofNat 8 code, if fs.isEmpty then 0xFFFF else fs.length, 0, [])
    else
      let taken := (List.range f).filterMap (fun k => fs[start + k * stride]?)
      let col := j.tables.getD 4 []
      let col := if col.isEmpty then stdColour (autoColour r.matrix f0.height r.range) else col
      let pts := match taken with
        | x :: _ => if b % 4 == 2 then 0 else x.pts % 2 ^ 33
        | [] => 0
      (0, 0xFFFF, pts, tokenRows c j.tables col f0.depth taken)

/-- The luma samples of a sample's pictures, up to the one at which the decode ends. -/
def lumaOf (e bs : List Byte) : Nat :=
  let b := (e.getD 12 0).toNat
  let (es, derr) := demux (b % 4) (b / 4 % 8) (fieldAt e 14 2 % 8192) bs
  if derr != 0 && es.isEmpty then 0
  else ((scanPics (b / 4 % 8) none (fromRap (b / 4 % 8) (Config.decodeSample (b / 4 % 8) es).pictures)).1.map (fun p => p.y.length)).sum

/-- A decode engine is free again: what it decoded is counted at it and at its pipeline (R448). -/
def decodeFree (s : State) (n : CtxId) (e : BitVec 6) (code : Byte) (luma : Nat) : State :=
  let s := setFld (bump s (engineCode (.decode e))) (aCasState n) 8 6 (fld s (aCasState n) 8 6 - 1)
  [e.toNat, 48 + e.toNat / 3].foldl (fun s q =>
    if code == 0 then perfMod (perfMod s (some n) 11 0x10 (some q) 1) (some n) 11 0x12 (some q) luma
    else perfMod (perfMod s (some n) 11 0x11 (some q) 1) (some n) 11 0x12 (some q) luma) s

/-- SAMPLE_DECODE_COMPLETE. -/
def execSampleDecodeComplete (e : BitVec 6) (s : State) : Outcome State Fault Refusal :=
  .next (if 48 ≤ e.toNat then s else match allCtx.find? (fun n => match casOf s n with
      | some j => j.samples.any (fun x => x.eng == some e.toNat)
      | none => false) with
    | none => s
    | some n => match casOf s n with
      | none => s
      | some j => match j.samples.find? (fun x => x.eng == some e.toNat) with
        | none => s
        | some x =>
          let put (s : State) (y : CasSample) (luma : Nat) : State := casFlush (setCas (decodeFree s n e y.code luma) n (putSample j { y with eng := none, done := true })) n
          if !entryGood x.entry then put s { x with code := 0x07 } 0
          else match casRead s n (fieldAt x.entry 0 8) (fieldAt x.entry 8 4) with
            | (s, .error m) => match casFails s n m with
              | some s => s
              | none => put s { x with code := 0x0D } 0
            | (s, .ok bs) =>
              let (code, fr, pts, rows) := decodeOf j x.entry bs
              put s { x with code := code, errFrame := fr, pts := pts, rows := rows } (lumaOf x.entry bs))

/-! ## ROUTE SCRATCH runs (R339) -/

/-- SCRATCH_RUN: a chain of the context with CHAIN_ID, begun by the RUN_CHAIN `cmd`, starts one run. -/
def execScratchRun (n : CtxId) (cmd : Nat) (s : State) : Outcome State Fault Refusal :=
  .next (match casOf s n with
    | none => s
    | some j =>
      let mine := s.chains.filterMap (fun c => match c.2 with
        | some c => if c.ctx == n && fieldAt c.desc 4 4 == cd j 48 4 && (match c.cmd with
            | some id => rootCmd s 4 id == cmd
            | none => false) then some c else none
        | none => none)
      match mine with
      | [] => s
      | c :: _ =>
        if !cdScratch j.desc || casState s n < 2 || j.ran.contains cmd then s
        else
          let ran := j.ran.filter (fun id => s.cmds.any (fun x => x.id == id)) ++ [cmd]
          casFlush (setCas s n { j with ran := ran, runs := j.runs ++ [⟨cmd, c.origin, cd j 52 2, 0⟩] }) n)

end Sys2Proof.Machine
end

