-- ==== Sys2Proof/Machine/Fec.lean ====
section
/-! DEFINITION. The forward error correction of the links (R347, R365): the RS(544,514) code, the places of flit slots in
codewords, and the symbols on the lanes. The code itself is that of IEEE 802.3, which the manual names: its field, generator and
bit order are taken from there (PRESUMED, log entry 140). -/

namespace Sys2Proof.Machine

/-! ## The code -/

/-- Times x in the field of 1,024 elements, where x^10 = x^3 + 1. -/
def gfShift (a : BitVec 10) : BitVec 10 := if a.msb then (a <<< 1) ^^^ 9#10 else a <<< 1

def gfMul (a b : BitVec 10) : BitVec 10 :=
  ((List.range 10).foldl (fun (r : BitVec 10 × BitVec 10) i => (if b.getLsbD i then r.1 ^^^ r.2 else r.1, gfShift r.2)) (0, a)).1

/-- The j-th power of the primitive element x. -/
def gfPower : Nat → BitVec 10
  | 0 => 1
  | j + 1 => gfShift (gfPower j)

/-- A polynomial, lowest coefficient first, times (x + r). -/
def polyStep (p : List (BitVec 10)) (r : BitVec 10) : List (BitVec 10) :=
  List.zipWith (· ^^^ ·) (0 :: p) (p.map (gfMul r) ++ [0])

/-- The generator: the product of (x + x^j) for j from 0 to 29. -/
def rsGenerator : List (BitVec 10) := ((List.range 30).map gfPower).foldl polyStep [1]

/-- One message symbol enters the division by the generator; the remainder's lowest coefficient stands first. -/
def rsStep (rem : List (BitVec 10)) (m : BitVec 10) : List (BitVec 10) :=
  let q := m ^^^ rem.getD 29 0
  List.zipWith (· ^^^ ·) (0 :: rem.take 29) ((rsGenerator.take 30).map (gfMul q))

/-- A codeword: the 514 message symbols, then the 30 check symbols. -/
def rsEncode (msg : List (BitVec 10)) : List (BitVec 10) := msg ++ (msg.foldl rsStep (List.replicate 30 0)).reverse

/-- A codeword decodes with at most 15 symbols received wrong. -/
def rsDecodes (wrong : List Nat) : Bool := wrong.eraseDups.length ≤ 15

/-! ## Superframes -/

def slotBits : Nat := 2048
def messageBits : Nat := 5140
def superCodewords : Nat := 1536
def superSlots : Nat := 3855

/-- The first and the last codeword that hold slot k. Whole superframes hold whole slots and codewords, so both may be counted from
the first slot of an epoch. -/
def firstCodeword (k : Nat) : Nat := slotBits * k / messageBits
def lastCodeword (k : Nat) : Nat := (slotBits * k + slotBits - 1) / messageBits

/-- Codeword c, from the bytes of the slots, bit 0 of a byte first. -/
def codewordAt (slot : Nat → List Byte) (c : Nat) : List (BitVec 10) :=
  let k := messageBits * c / slotBits
  let v := natOf ((List.range 4).flatMap (fun i => slot (k + i))) >>> (messageBits * c - slotBits * k)
  rsEncode ((List.range 514).map (fun i => BitVec.ofNat 10 (v >>> (10 * i))))

/-! ## Lanes -/

/-- The codewords whose symbols are spread over the lanes together. -/
def laneGroup (lanes : Nat) : Nat := if lanes == 8 then 2 else 3

/-- The lane of symbol i of codeword c: round robin over the group's symbols. -/
def laneOf (lanes c i : Nat) : Nat := (544 * (c % laneGroup lanes) + i) % lanes

/-- The symbols of group g on a lane, 136 of them. -/
def laneSymbols (slot : Nat → List Byte) (lanes g lane : Nat) : List (BitVec 10) :=
  let ss := (List.range (laneGroup lanes)).flatMap (fun j => (codewordAt slot (laneGroup lanes * g + j)).zipIdx.map (fun x =>
    (x.1, laneOf lanes (laneGroup lanes * g + j) x.2)))
  (ss.filter (fun x => x.2 == lane)).map (fun x => x.1)

/-! ## Receiving -/

/-- Check 1 of R350: every codeword that holds the flit decodes. -/
def fecGood (w : WireFlit) : Bool := w.errs.all rsDecodes

/-- The lanes of the symbols corrected in the codewords that end in slot k: each codeword is counted once. -/
def corrected (lanes k : Nat) (w : WireFlit) : List Nat :=
  (w.errs.zipIdx).flatMap (fun x =>
    let c := firstCodeword k + x.2
    if rsDecodes x.1 && messageBits * (c + 1) ≤ slotBits * (k + 1) then x.1.eraseDups.map (laneOf lanes c) else [])

end Sys2Proof.Machine
end

