-- ==== Sys2Proof/Machine/Wire.lean ====
section
/-! DEFINITION. Flits as the wire carries them: their layout (R348), their protection by header key, AES-256-GCM and CRC-32
(R349), and the key derivation function (R384). -/

namespace Sys2Proof.Machine

/-! ## The header (R348) -/

/-- The 16 bytes of a header; every reserved bit is 0. -/
def hdrBytes (h : FlitHdr) : List Byte :=
  [(0#1 ++ BitVec.ofBool h.poison ++ BitVec.ofBool h.turned ++ h.vc ++ h.type : BitVec 8),
   (0#2 ++ BitVec.ofBool h.last ++ BitVec.ofBool h.first ++ h.ctx : BitVec 8)] ++
  bytesOf h.seq.toNat 2 ++ bytesOf (h.ack.toNat + h.nakr.toNat * 2 ^ 12) 2 ++ [(h.crCnt ++ h.crVc : BitVec 8), h.len] ++
  bytesOf h.dst.toNat 2 ++ bytesOf h.src.toNat 2 ++ bytesOf h.gang.toNat 2 ++ [h.op, 0]

/-- The header of 16 bytes; `rsvd` where a reserved bit is 1. -/
def hdrOf (b : List Byte) : FlitHdr :=
  let b0 := b.getD 0 0
  let b1 := b.getD 1 0
  let b6 := b.getD 6 0
  { type := b0.extractLsb' 0 2, vc := b0.extractLsb' 2 3, turned := b0.getLsbD 5, poison := b0.getLsbD 6,
    ctx := b1.extractLsb' 0 4, first := b1.getLsbD 4, last := b1.getLsbD 5,
    seq := BitVec.ofNat 12 (fieldAt b 2 2), ack := BitVec.ofNat 12 (fieldAt b 4 2), nakr := BitVec.ofNat 2 (fieldAt b 4 2 / 2 ^ 12),
    crVc := b6.extractLsb' 0 3, crCnt := b6.extractLsb' 3 5, len := b.getD 7 0,
    dst := BitVec.ofNat 16 (fieldAt b 8 2), src := BitVec.ofNat 16 (fieldAt b 10 2), gang := BitVec.ofNat 16 (fieldAt b 12 2),
    op := b.getD 14 0,
    rsvd := b0.getLsbD 7 || b1.getLsbD 6 || b1.getLsbD 7 || decide (2 ^ 12 ≤ fieldAt b 2 2) || decide (2 ^ 14 ≤ fieldAt b 4 2) ||
      b.getD 15 0 != 0 }

/-! ## CRC-32 -/

def crcBits : Nat → BitVec 32 → BitVec 32
  | 0, c => c
  | n + 1, c => crcBits n (if c.getLsbD 0 then (c >>> 1) ^^^ 0xEDB88320#32 else c >>> 1)

/-- The CRC-32 of IEEE 802.3: reflected, from all ones, complemented at the end. -/
def crc32 (bs : List Byte) : BitVec 32 := ~~~ (bs.foldl (fun c b => crcBits 8 (c ^^^ b.setWidth 32)) (BitVec.allOnes 32))

/-! ## AES-256-GCM (NIST SP 800-38D), over the block cipher of the configuration -/

def xorBytes (a b : List Byte) : List Byte := List.zipWith (· ^^^ ·) a b

/-- A block as a number whose first byte is the highest, and its bytes. -/
def blockOf (bs : List Byte) : BitVec 128 := BitVec.ofNat 128 (beNat (bs.take 16 ++ List.replicate (16 - bs.length) 0))
def blockBytes (x : BitVec 128) : List Byte := beBytes 16 x.toNat

/-- The product of two blocks: bit 0 of the standard is the highest here. -/
def ghashMul (x y : BitVec 128) : BitVec 128 :=
  ((List.range 128).foldl (fun (r : BitVec 128 × BitVec 128) i =>
    (if x.getMsbD i then r.1 ^^^ r.2 else r.1,
     if r.2.getLsbD 0 then (r.2 >>> 1) ^^^ (0xE1#128 <<< 120) else r.2 >>> 1)) (0, y)).1

/-- The blocks of a string, the last one filled with zeros. -/
def cipherBlocks (bs : List Byte) : List (BitVec 128) := (List.range ((bs.length + 15) / 16)).map (fun i => blockOf (bs.drop (16 * i)))

/-- Counter block n under an IV of 12 bytes. -/
def counterBlock (iv : List Byte) (n : Nat) : BitVec 128 := BitVec.ofNat 128 (beNat iv * 2 ^ 32 + n)

/-- The key stream for n bytes. -/
def gcmStream (key iv : List Byte) (n : Nat) : List Byte :=
  ((List.range ((n + 15) / 16)).flatMap (fun i => blockBytes (Config.aes256 key (counterBlock iv (2 + i))))).take n

/-- The first 96 bits of the tag of a ciphertext with additional data. -/
def gcmTag (key iv aad ct : List Byte) : List Byte :=
  let h := Config.aes256 key 0
  let lens := BitVec.ofNat 128 (8 * aad.length * 2 ^ 64 + 8 * ct.length)
  let g := (cipherBlocks aad ++ cipherBlocks ct ++ [lens]).foldl (fun y x => ghashMul (y ^^^ x) h) 0
  (blockBytes (Config.aes256 key (counterBlock iv 1) ^^^ g)).take 12

/-! ## Protection (R349) -/

/-- The payload with zeros beyond LEN. -/
def padPayload (p : List Byte) : List Byte := (p ++ List.replicate (224 - p.length) 0).take 224

/-- The mask of a header. -/
def headerMask (key : List Byte) (slot : Word64) : List Byte :=
  blockBytes (Config.aes256 key (blockOf (bytesOf slot.toNat 8 ++ List.replicate 8 0xFF)))

def flitIv (slot : Word64) : List Byte := bytesOf slot.toNat 8 ++ List.replicate 4 0

/-- The 252 bytes with their CRC. -/
def withCrc (b : List Byte) : List Byte := b ++ bytesOf (crc32 b).toNat 4

/-- The keys and slots that protect a flit: the header's key with the port's slot, the payload's key with the slot of its IV; none
while a port keys (R349). -/
structure FlitKeys where
  header : List Byte
  slot : Word64
  flit : List Byte
  ivSlot : Word64
  deriving DecidableEq, Repr

/-- A flit's 256 bytes on the wire. -/
def sealFlit (k : Option FlitKeys) (h : FlitHdr) (payload : List Byte) : List Byte :=
  let hb := hdrBytes h
  let p := padPayload payload
  match k with
  | none => withCrc (hb ++ p ++ List.replicate 12 0)
  | some k =>
    let ct := xorBytes p (gcmStream k.flit (flitIv k.ivSlot) 224)
    withCrc (xorBytes hb (headerMask k.header k.slot) ++ ct ++ gcmTag k.flit (flitIv k.ivSlot) hb ct)

/-- The header bytes that arrive, unmasked under a port's header key where it has one. -/
def unmask (key : Option (List Byte × Word64)) (b : List Byte) : List Byte :=
  match key with
  | none => b.take 16
  | some (k, slot) => xorBytes (b.take 16) (headerMask k slot)

def crcGood (b : List Byte) : Bool := bytesOf (crc32 (b.take 252)).toNat 4 == (b.drop 252).take 4

/-- The flit that 256 bytes are (R350, checks 1 to 3): `keys` are those that its header names. -/
def openBytes (fec : Bool) (mask : Option (List Byte × Word64)) (keys : FlitHdr → Option FlitKeys) (b : List Byte) : Flit :=
  let hb := unmask mask b
  let h := hdrOf hb
  let ct := (b.drop 16).take 224
  match keys h with
  | none => ⟨h, ct.take h.len.toNat, fec, crcGood b, true⟩
  | some k => ⟨h, (xorBytes ct (gcmStream k.flit (flitIv k.ivSlot) 224)).take h.len.toNat, fec, crcGood b,
      gcmTag k.flit (flitIv k.ivSlot) hb ct == (b.drop 240).take 12⟩

/-! ## Key derivation (R384) -/

/-- A label's bytes. -/
def label (t : String) : List Byte := t.toList.map (fun c => BitVec.ofNat 8 c.toNat)

/-- The key derivation function. -/
def kdf (key : List Byte) (lab : String) (ctx : List Byte) : List Byte :=
  hmac key (bytesOf 1 4 ++ label lab ++ [0] ++ ctx ++ bytesOf 256 4)

end Sys2Proof.Machine
end

