-- ==== Sys2Proof/Machine/Links.lean ====
section
/-! DEFINITION. The ports of the fabric and the Cersin link (port 8): sending flits (R348, R351, R354), routing (R355), the
state of a port (R363, R364), and the messages that the module itself puts on the fabric (R357, R358). -/

namespace Sys2Proof.Machine

open Host (Outcome)

/-! ## Ports -/

def portNone : Port := {
  expect := 0, lastSeq := 4095, recovery := false, sendSeq := 0, replay := [], credits := [], waiting := [], linkWait := [],
  authTimes := [], seqTimes := [], reTimes := [], msgs := [], trained := false, downTick := none, epoch := 0, myNonce := 0,
  myReport := [], mySeed := [], peer := none, ct := [], secret := [], linkTh := [], sentConfirm := false, gotConfirm := false,
  retryAt := none, peerRes := 0, peerNode := 0, authLock := false, sent := 0, rxSlot := 0, askedAt := none, saved := none,
  nextSlot := 0, era := 0, epochAt := 0, sentTotal := 0 }

def portDef : Nat → Port := fun _ => portNone
def portOf (s : State) (p : Nat) : Port := s.ports.get portDef p
def setPort (s : State) (p : Nat) (x : Port) : State := { s with ports := s.ports.set portDef p x }

/-- The state, error and violation registers of a port; 8 is Cersin. -/
def aPort (p : Nat) : Nat := if p == 8 then csnA 0 else ngA (0x100 + 0x20 * p)
def aPortErr (p : Nat) : Nat := if p == 8 then csnA 8 else ngA (0x108 + 0x20 * p)
def aPortViol (p : Nat) : Nat := if p == 8 then csnA 0x10 else ngA (0x110 + 0x20 * p)
def aNgTb : Nat := ngA 8

/-- NG.PORTp.STATE: 0 DOWN, 1 TRAINING, 2 KEYING, 3 UP, 4 DISABLED. -/
def portState (s : State) (p : Nat) : Nat := fld s (aPort p) 0 3

/-- A port changes its state; one that leaves UP takes LOCKED with it where it is the parent (R361), and its silence is
counted from then (R435). -/
def setPortState (s : State) (p x : Nat) : State :=
  let was := portState s p
  let s := setFld s (aPort p) 0 3 x
  let s := if was == 3 && x != 3 then setPort s p { portOf s p with downTick := some s.tick }
    else if x == 3 then setPort s p { portOf s p with downTick := none } else s
  if was == 3 && x != 3 && p < 8 && fld s aNgTb 0 4 == p then
    { setFld s aNgTb 4 1 0 with gov := { s.gov with goodOffsets := 0 } }
  else s

def noRoute (s : State) (p : Nat) : State := satAdd s (aPortErr p) 56 8 1

/-! ## Slots and keys (R347, R349, R394, R395) -/

def myId : Nat := Config.fusedId.toNat

/-- The time that a superframe of a port takes, in 1/64 ns (R347, R365). -/
def superLen (p : Nat) : Nat := if p == 8 then 64 * 8160 else 64 * 5440

/-- The first slot of a port's key epoch that begins now or later. -/
def slotNow (s : State) (p : Nat) : Nat :=
  ((64 * nowNs s - (portOf s p).epochAt) * superSlots + superLen p - 1) / superLen p

/-- The slot that a port's next flit takes. The slots between carry IDLE flits with no news (log 142). -/
def txSlot (s : State) (p : Nat) : Nat :=
  let x := portOf s p
  max x.nextSlot (slotNow s p) + Config.idleSlots p x.epoch x.sent

/-- A key epoch begins: its slots count from 0. -/
def newEpoch (s : State) (x : Port) (e : Nat) : Port :=
  { x with epoch := e, sent := 0, rxSlot := 0, askedAt := none, nextSlot := 0, era := s.tx.length, epochAt := 64 * nowNs s }

/-- The first slot of the first superframe that begins at a slot or later. -/
def superStart (slot : Nat) : Nat := (slot + superSlots - 1) / superSlots * superSlots

/-- The superframe boundary before a slot of a port's key epoch, in 1/64 ns of Timebase. -/
def boundaryAt (s : State) (p slot : Nat) : Nat := (portOf s p).epochAt + slot / superSlots * superLen p

/-- The direction of a port's flits under R395: 0 from the lower FUSED_ID to the higher. -/
def linkDir (x : Port) (out : Bool) : Nat :=
  match x.peer with
  | some r => if decide (myId < r.fusedId.toNat) == out then 0 else 1
  | none => 0

/-- The header key of a port's direction. -/
def headerKey (s : State) (p : Nat) (out : Bool) : List Byte :=
  let x := portOf s p
  if p == 8 then s.latch.headerKey else kdf x.secret "NG-HDR" (bytesOf (linkDir x out) 1 ++ bytesOf x.epoch 4)

/-- The session bound to the pair that a flit names: its key protects the flit (R366, R394). -/
def sessionOf (s : State) (h : FlitHdr) : Option Session :=
  if h.type == 1 then s.latch.sessions.find? (fun x => x.pairs.contains (BitVec.ofNat 6 h.gang.toNat)) else none

/-- The epoch of the session that protects a flit has begun in a slot of a direction: before that nothing of its pairs is authentic
(R380, R393, step 8). -/
def sessionBegun (s : State) (out : Bool) (slot : Nat) (h : FlitHdr) : Bool :=
  (sessionOf s h).all (fun x => x.waits == 0 && decide ((if out then x.txBase else x.rxBase).toNat ≤ slot))

/-- The keys of a flit in a slot of a port's direction; none while the port keys. On Cersin what no session protects goes under the
management key (log 141). -/
def flitKeys (s : State) (p : Nat) (out : Bool) (slot : Word64) (h : FlitHdr) : Option FlitKeys :=
  let x := portOf s p
  let hk := headerKey s p out
  if portState s p == 2 then none
  else if p == 8 then
    match sessionOf s h with
    | some c => some ⟨hk, slot, kdf c.ss (if out then "CSN-M2H" else "CSN-H2M") (c.th ++ bytesOf c.epoch 4 ++ s.latch.epochBase),
        slot - (if out then c.txBase else c.rxBase)⟩
    | none => some ⟨hk, slot, s.latch.mgmtKey, slot⟩
  else some ⟨hk, slot, kdf x.secret "NG-FLIT" (bytesOf (linkDir x out) 1 ++ bytesOf x.epoch 4 ++ bytesOf h.gang.toNat 2 ++
    bytesOf h.ctx.toNat 1), slot⟩

/-! ## Sending -/

/-- A flit as the module makes it. -/
def mkFlit (h : FlitHdr) (bs : List Byte) : Flit := ⟨h, bs, true, true, true⟩

def hdrIdle : FlitHdr := {
  type := 0, vc := 0, turned := false, poison := false, ctx := 0, first := false, last := false, seq := 0, ack := 0, nakr := 0,
  crVc := 0, crCnt := 0, len := 0, dst := 0, src := 0, gang := 0, op := 0, rsvd := false }

/-- A port carries flits: it is KEYING or UP. -/
def carries (s : State) (p : Nat) : Bool := portState s p == 2 || portState s p == 3

/-- The slot for a flit: a TIME flit begins with a superframe (R360); on Cersin one of a session waits for its epoch (R394). -/
def slotFor (s : State) (p : Nat) (h : FlitHdr) : Nat :=
  let k := txSlot s p
  if h.type == 2 && h.op == 2 then superStart k
  else if p == 8 then max k (((sessionOf s h).map (fun x => x.txBase.toNat)).getD 0)
  else k

/-- A flit goes on the wire of a port that carries flits, in the next slot that the port fills, protected for that slot (R349). -/
def putTx (s : State) (p : Nat) (f : Flit) : State :=
  if !carries s p then s
  else
    let x := portOf s p
    let n := slotFor s p f.hdr
    let k := BitVec.ofNat 64 n
    { setPort s p { x with sent := x.sent + 1, nextSlot := n + 1 } with
      tx := s.tx ++ [⟨p, x.epoch, k, f, sealFlit (flitKeys s p true k f.hdr) f.hdr f.payload⟩] }

/-- The bytes of a slot of a port's present key epoch; a slot that no flit of the module fills carries an IDLE flit. -/
def wireAt (s : State) (p k : Nat) : List Byte :=
  match (s.tx.drop (portOf s p).era).find? (fun x => x.port == p && x.slot.toNat == k) with
  | some x => x.wire
  | none =>
    let h := { hdrIdle with ack := (portOf s p).lastSeq }
    sealFlit (flitKeys s p true (BitVec.ofNat 64 k) h) h []

/-- The symbols that a lane of a port carries for group g of codewords of its present key epoch (R347, R365). -/
def laneOut (s : State) (p g lane : Nat) : List (BitVec 10) := laneSymbols (wireAt s p) (lanesOf p) g lane

/-- An IDLE flit that carries the acknowledgement, a NAKR request and a returned credit. -/
def sendIdle (s : State) (p : Nat) (nakr : BitVec 2) (crVc : BitVec 3) (crCnt : BitVec 5) : State :=
  putTx s p (mkFlit { hdrIdle with ack := (portOf s p).lastSeq, nakr := nakr, crVc := crVc, crCnt := crCnt } [])

/-- A sequenced flit takes the next SEQ and a place in the replay buffer, and goes on the wire (R351). -/
def sendSeqd (s : State) (p : Nat) (f : Flit) : State :=
  let x := portOf s p
  let f := { f with hdr := { f.hdr with seq := x.sendSeq, ack := x.lastSeq, nakr := 0, crVc := 0, crCnt := 0 } }
  putTx (setPort s p { x with sendSeq := x.sendSeq + 1, sentTotal := x.sentTotal + 1, replay := x.replay ++ [f] }) p f

/-- The replay buffer has room for a flit, and no LINK flit waits for it. -/
def linkRoom (s : State) (p : Nat) : Bool := (portOf s p).linkWait.isEmpty && (portOf s p).replay.length < 2048

/-- A LINK flit, now or once the replay buffer has room. -/
def sendLink (s : State) (p : Nat) (op : Byte) (bs : List Byte) : State :=
  let f := mkFlit { hdrIdle with type := 2, first := true, last := true, op := op, len := BitVec.ofNat 8 bs.length } bs
  let x := portOf s p
  if linkRoom s p then sendSeqd s p f
  else setPort s p { x with linkWait := x.linkWait ++ [f] }

/-- A long value in fragments of 220 B (R358). -/
def sendFrags (s : State) (p : Nat) (op : Byte) (bs : List Byte) : State :=
  let k := (bs.length + 219) / 220
  (List.range k).foldl (fun s i => sendLink s p op (bytesOf i 2 ++ bytesOf k 2 ++ (bs.drop (220 * i)).take 220)) s

/-- LINK flits that waited for room. -/
def sendWaiting : Nat → Nat → State → State
  | 0, _, s => s
  | n + 1, p, s =>
    let x := portOf s p
    match x.linkWait with
    | f :: fs => if x.replay.length < 2048 then sendWaiting n p (sendSeqd (setPort s p { x with linkWait := fs }) p f) else s
    | [] => s

/-! ## Credits and routing (R353 to R355) -/

def crDef : Nat → Nat := fun _ => 0

/-- The class of a DATA opcode (R358): 0 CONTROL, 1 REDUCE, 2 DISPATCH, 3 GATHER. -/
def classOf (op : Nat) : Option Nat :=
  match op with
  | 0x10 | 0x11 | 0x12 | 0x20 | 0x21 | 0x22 | 0x40 | 0x41 => some 0
  | 0x23 | 0x24 | 0x25 => some 1
  | 0x42 | 0x43 => some 2
  | 0x30 => some 3
  | _ => none

/-- Digit d of a node ID, and the size of dimension d. -/
def digit (n : BitVec 16) (d : Nat) : Nat := n.toNat / 16 ^ d % 16
def dimSize (s : State) (d : Nat) : Nat := fld s aNode (16 + 4 * d) 4 + 1

/-- Where a flit goes at this module. -/
inductive Route where
  | here
  | out (p : Nat) (h : FlitHdr)
  | drop
  deriving DecidableEq, Repr

/-- The direction of R355 from x to y on a ring of size n: true for +. -/
def plusWay (x y n : Nat) : Bool := decide (2 * ((y + n - x) % n) ≤ n)

/-- Routing (R355) of a flit that came in on a port, or starts here. -/
def routeOf (s : State) (src : Option Nat) (h : FlitHdr) : Route :=
  let me := nodeId s
  match (List.range 4).find? (fun d => digit me d != digit h.dst d) with
  | none => .here
  | some d =>
    let x := digit me d
    let n := dimSize s d
    let straight := match src with | some p => p / 2 == d && p < 8 | none => false
    let p0 := match src with
      | some p => if straight then p ^^^ 1 else if plusWay x (digit h.dst d) n then 2 * d else 2 * d + 1
      | none => if plusWay x (digit h.dst d) n then 2 * d else 2 * d + 1
    let turned := straight && h.turned
    let dl := straight && h.vc.toNat % 2 == 1
    let go (p : Nat) (turned dl : Bool) : Route :=
      let wrap := if p % 2 == 0 then x + 1 == n else x == 0
      .out p { h with turned := turned, vc := BitVec.ofNat 3 (h.vc.toNat / 2 * 2 + (if dl || wrap then 1 else 0)) }
    if portState s p0 == 3 then go p0 turned dl
    else if turned || portState s (p0 ^^^ 1) != 3 then .drop
    else go (p0 ^^^ 1) true true

/-- A flit leaves its buffer at port `q` (9: the module's own): its credit returns to the partner, with the
acknowledgement of what came in. -/
def freeBuf (s : State) (q : Nat) (vc : BitVec 3) : State := if q < 8 then sendIdle s q 0 vc 1 else s

/-- Transmit a DATA flit on a port whose credit allows it. -/
def sendData (s : State) (p : Nat) (f : Flit) : State :=
  let x := portOf s p
  let v := f.hdr.vc.toNat
  let s := setPort s p { x with credits := x.credits.set crDef v (x.credits.get crDef v - 1) }
  let s := bwAdd (perfMod s (some f.hdr.ctx) 14 0x10 (some p) 1) (24 + p) 1 f.hdr.len.toNat
  sendSeqd s p f

/-- What becomes of the first flit of VC `vc` that waits at port `q`: sent, dropped, or none of these yet. A flit for this
module itself is left to the delivery. -/
def moveFirst (s : State) (q vc : Nat) : Option State :=
  let x := portOf s q
  match x.waiting.find? (fun f => f.hdr.vc.toNat == vc) with
  | none => none
  | some f =>
    let gone := setPort s q { x with waiting := x.waiting.erase f }
    match routeOf s (if q < 8 then some q else none) f.hdr with
    | .here => none
    | .drop => some (freeBuf (noRoute gone (if q < 8 then q else 0)) q f.hdr.vc)
    | .out p h =>
      if (portOf s p).credits.get crDef h.vc.toNat == 0 || 2048 ≤ (portOf s p).replay.length then none
      else some (freeBuf (sendData gone p { f with hdr := h }) q f.hdr.vc)

/-- Send what can be sent of one VC of one buffer. -/
def moveAll : Nat → Nat → Nat → State → State
  | 0, _, _, s => s
  | n + 1, q, vc, s => match moveFirst s q vc with
    | some s => moveAll n q vc s
    | none => s

/-- Send what can be sent, buffer by buffer and VC by VC. -/
def drain (s : State) : State :=
  (List.range 10).foldl (fun s q =>
    let s := if q < 9 && portState s q ≥ 2 then sendWaiting (portOf s q).linkWait.length q s else s
    (List.range 8).foldl (fun s vc => moveAll (portOf s q).waiting.length q vc s) s) s

/-! ## The module's own messages -/

/-- The flits of a message (R357, R358). -/
def msgFlits (s : State) (m : OutMsg) : List Flit :=
  match classOf m.op.toNat with
  | none => []
  | some c =>
    let bs := bytesOf m.mtag.toNat 4 ++ bytesOf m.payload.length 4 ++ m.payload
    let k := (bs.length + 223) / 224
    (List.range k).map (fun i =>
      let b := (bs.drop (224 * i)).take 224
      mkFlit { hdrIdle with
        type := 1, vc := BitVec.ofNat 3 (2 * c), poison := m.poison, ctx := m.ctx, first := i == 0, last := i + 1 == k,
        len := BitVec.ofNat 8 b.length, dst := m.dst, src := nodeId s, gang := m.gang, op := m.op } b)

/-- Put a message for another node into the module's own injection buffer, and send what can be sent. One that names a
node before NG.NODE is valid cannot leave (R359). -/
def injectMsg (m : OutMsg) (s : State) : State :=
  if fld s aNode 32 1 == 0 then noRoute s 0
  else
    let x := portOf s 9
    drain (setPort s 9 { x with waiting := x.waiting ++ msgFlits s m })

/-! ## Retraining and disabling (R362, R363) -/

/-- A retrain begins: the buffers and keys stay; with `rekey` the port keys again afterwards. -/
def retrain (s : State) (p : Nat) (rekey : Bool) : State :=
  let s := setPortState s p 1
  let x := portOf s p
  setPort s p (if rekey then { x with secret := [], peer := none, sentConfirm := false, gotConfirm := false } else x)

/-- A port becomes DISABLED: the flits in its replay buffer, and those kept while it keys again, are discarded and counted, and what
was keyed is gone. -/
def disablePort (s : State) (p : Nat) : State :=
  let x := portOf s p
  let s := satAdd s (aPortErr p) 56 8 (x.replay.length + (x.saved.map (fun l => l.1.replay.length)).getD 0)
  let s := setPortState s p 4
  drain (setPort s p { portOf s p with
    replay := [], linkWait := [], saved := none, secret := [], peer := none, msgs := [], trained := false, sentConfirm := false,
    gotConfirm := false })

/-- A port of a dimension of size 1 stays DOWN (R355). -/
def dimOne (s : State) (p : Nat) : Bool := fld s aNode 32 1 == 1 && dimSize s (p / 2) == 1

/-- NG.NODE is written: the ports of a dimension of size 1 go DOWN. -/
def dropOnes (s : State) : State :=
  (List.range 8).foldl (fun s p => if dimOne s p && portState s p != 4 then setPortState s p 0 else s) s

/-! ## Output to the host (R366, R367, R374) -/

/-- The CTX of the flits of a pair: that of its session, 0 for the owner and management pairs. -/
def pairHdrCtx (s : State) (q : PairId) : CtxId :=
  if fld s (aPair q) 2 1 == 1 || q == 63 then 0 else BitVec.ofNat 4 (fld s (aPair q) 4 4)

/-- The flits of a message to the host: `kind` 0 completion entries, 1 RD_DATA, 2 a management reply. -/
def hostFlits (s : State) (q : PairId) (kind : Nat) (bs : List Byte) : List Flit :=
  let k := max 1 ((bs.length + 223) / 224)
  (List.range k).map (fun i =>
    let b := (bs.drop (224 * i)).take 224
    mkFlit { hdrIdle with
      type := 1, vc := if kind == 1 then 0 else 1, ctx := pairHdrCtx s q, first := i == 0, last := i + 1 == k,
      len := BitVec.ofNat 8 b.length, gang := BitVec.ofNat 16 q.toNat, op := Config.hostOp kind } b)

/-- The flits of an answer: 16 bytes that carry its TAG and status, and its data (DESIGN CHOICE, log entry 166). -/
def replyFlits (s : State) (r : Reply) : List Flit :=
  let kind := if r.q == 63 then 2 else 1
  hostFlits s r.q kind (bytesOf (Config.replyHead kind r.tag r.status).toNat 16 ++ r.data)

/-- The 48 bytes of a completion entry (R374). -/
def cqBytes (e : CqEntry) : List Byte :=
  bytesOf e.unit.toNat 4 ++ bytesOf e.tag.toNat 2 ++
    [e.status, BitVec.ofNat 8 (e.ctx.toNat + (if e.notify then 16 else 0) + (if e.owner then 32 else 0))] ++ bytesOf e.index.toNat 2 ++
    bytesOf 0 6 ++ bytesOf e.w0.toNat 8 ++ bytesOf e.w1.toNat 8 ++ bytesOf e.w2.toNat 8 ++ bytesOf 0 8

/-- A flit of a pair may leave: the link is UP, the pair's CQ has an allowance, the replay buffer room, and the reply that opens the
pair's session has left. -/
def hostMay (s : State) (q : PairId) : Bool :=
  portState s 8 == 3 && s.cqCredit.get (fun _ => 0) q.toNat != 0 && decide ((portOf s 8).replay.length < 2048) &&
    !(s.latch.sessions.any (fun x => x.pairs.contains q && x.waits != 0))

/-- A flit of pair 63 has left: an OPEN whose reply ends with it begins its session's epoch with the next superframe of each
direction (R393, step 8), and a start asked for waits for one flit less (R431). -/
def repliesLeft (s : State) : State :=
  let tx := BitVec.ofNat 64 (superStart (portOf s 8).nextSlot)
  let rx := BitVec.ofNat 64 (superStart (portOf s 8).rxSlot.toNat)
  let ss := s.latch.sessions.map (fun x =>
    if x.waits == 1 then { x with waits := 0, txBase := tx, rxBase := rx } else { x with waits := x.waits - 1 })
  { s with latch := { s.latch with sessions := ss }, sup := { s.sup with startAfter := s.sup.startAfter.map (· - 1) } }

/-- A flit of a pair leaves: it spends one of its CQ's allowance (R367) and takes the next SEQ. -/
def sendHost (s : State) (q : PairId) (f : Flit) : State :=
  let c := s.cqCredit.get (fun _ => 0) q.toNat
  let s := sendSeqd { s with cqCredit := s.cqCredit.set (fun _ => 0) q.toNat (c - 1) } 8 f
  if q == 63 then repliesLeft s else s

def flitPair (f : Flit) : PairId := BitVec.ofNat 6 f.hdr.gang.toNat

/-- The answers that wait become flits. -/
def formReplies (s : State) : State :=
  { s with hostOut := s.hostOut ++ (s.replies.map (replyFlits s)).flatten, replies := [] }

/-- Flits of answers leave, those of one pair in their order. -/
def sendAnswers : Nat → State → State
  | 0, s => s
  | n + 1, s => match s.hostOut.find? (fun f => hostMay s (flitPair f)) with
    | none => s
    | some f => sendAnswers n (sendHost { s with hostOut := s.hostOut.erase f } (flitPair f) f)

/-- Completion entries of a pair leave in order, up to four to a flit (R374). -/
def releaseCq : Nat → PairId → State → State
  | 0, _, s => s
  | n + 1, q, s =>
    let es := (s.cq.filter (fun e => e.q == q)).take 4
    if es.isEmpty || !hostMay s q then s
    else releaseCq n q ((hostFlits s q 0 (es.map cqBytes).flatten).foldl (fun s f => sendHost s q f)
      { s with cq := es.foldl (fun l e => l.erase e) s.cq, cqOut := s.cqOut ++ es })

/-- What waits for the host leaves as far as the allowances reach. -/
def sendHostAll (s : State) : State :=
  let s := formReplies s
  let s := sendAnswers s.hostOut.length s
  (s.cq.map (fun e => e.q)).dedup.foldl (fun s q => releaseCq s.cq.length q s) s

end Sys2Proof.Machine
end

