-- ==== Sys2Proof/Machine/HostReg.lean ====
section
/-! DEFINITION. Reads and writes of the register space by the host (R9 to R13, R34 to R38, R370, R373, R376, R377, R379),
and the rows for writes that do more than set fields. -/

namespace Sys2Proof.Machine

open Host (Outcome)

/-! ## Sessions (R368, R370) -/

def pairOn (s : State) (q : PairId) : Bool := fld s (aPair q) 0 2 == 1
def pairOwner (s : State) (q : PairId) : Bool := fld s (aPair q) 2 1 == 1
def pairCtx (s : State) (q : PairId) : CtxId := BitVec.ofNat 4 (fld s (aPair q) 4 4)

/-- The session of a pair may act for context n as its host session does. -/
def actsFor (s : State) (q : PairId) (n : CtxId) : Bool := !pairOwner s q && pairCtx s q == n

/-- The context of a context page. -/
def ctxOfPage : Page → Option CtxId
  | .module n | .gang n | .ring _ n | .tile _ n => some n
  | .owner => none

/-- A session reaches a UCB page for writing: the owner session the owner page, a host session its context's pages. -/
def reaches (s : State) (q : PairId) (p : Page) : Bool :=
  match ctxOfPage p with
  | none => pairOwner s q
  | some n => actsFor s q n

/-- A register whose fields are all RO. -/
def allRo (b : RBlock) : Bool := b.fields.all (fun f => f.acc == .ro)

/-! ## Addresses (R34, R35, R85) -/

def inTiles (a : Nat) : Bool := 0x10000000 ≤ a && a < 0x18000000
def tileOfAddr (a : Nat) : TileId := BitVec.ofNat 9 ((a - 0x10000000) / 0x40000)

/-- The address is in the window of a fenced tile. -/
def fencedAddr (s : State) (a : Nat) : Bool := inTiles a && isFenced s (tileOfAddr a)

/-- The CTX_STATUS of the owner page stands for the context selected. -/
def aOwnerStatus : Nat := 0x1040

def occupied (a : Nat) : Bool := a < 2 ^ 30 && (a == aOwnerStatus || (blockAt a).isSome)

/-- An unoccupied offset that reads 0 and takes no write without being logged: of a tile window, of a UCB page. -/
def quiet (a : Nat) : Bool := inTiles a || (pageAt a).isSome

/-! ## Reading -/

/-- A register as it reads, whoever reads it. -/
def regView (s : State) (a : Nat) : Word64 :=
  match pageAt a with
  | some (p, off) =>
    if off == 0 then ucbId s p
    else if off == 0x8 then ucbCap s p
    else if off == 0x10 then ucbState s p (pageCtx s p)
    else if off == 0x18 then BitVec.ofNat 64 (pageCtx s p).toNat
    else if off == 0x20 then 0
    else if off == 0x40 then
      match p with
      | .module n => ctxStatus s n
      | .owner => ctxStatus s (pageCtx s .owner)
      | _ => 0
    else reg s a
  | none =>
    if modG 0x600 ≤ a && a < modG 0x800 then
      let r : RingId := BitVec.ofNat 4 ((a - modG 0x600) / 0x20)
      if headOf s r == r && !isOos s r then reg s a else 0
    else if modG 0x2400 ≤ a && a < modG 0x2480 then
      let r : RingId := BitVec.ofNat 4 ((a - modG 0x2400) / 8)
      if headOf s r == r then reg s a else 0
    else if a == aClkStatus then putF (reg s a) 16 12 (vcoreNow s)
    else reg s a

/-- An access of the host to a register of a tile's window crosses the die-to-die link with its 8 bytes (R16, log entry 18). -/
def dieReg (s : State) (a : Nat) (write : Bool) : State :=
  if inTiles a then dieBytes s (if write then 0 else 1) 8 else s

/-- REG_RD of an address by a pair (R9, R34, R35, R370). The alignment is tested before the fenced window and the map, so a
misaligned access to either is logged as SIZE (DESIGN CHOICE, log entry 121). UCB.ID in the window of a fenced tile answers every
session, unlogged, without the test of its reach that other pages get (DESIGN CHOICE, log entry 171). -/
def readReg (s : State) (q : PairId) (a : Nat) : Word64 × State :=
  if a % 8 != 0 then (0, violation s q 1 a)
  else if a < 2 ^ 30 && fencedAddr s a then
    (match pageAt a with | some (p, 0) => ucbId s p | _ => 0, dieReg s a false)
  else if !occupied a then (0, if a < 2 ^ 30 && quiet a then s else violation s q 2 a)
  else match pageAt a with
    | some (p, _) =>
      let ro := (blockAt a).all allRo
      if reaches s q p || (pairOwner s q && ro) then (regView s a, dieReg s a false) else (0, violation s q 5 a)
    | none => (regView s a, dieReg s a false)

/-! ## Queues -/

/-- Every entry from HEAD to TAIL completes with ABORTED on the CQ of the doorbell that covered it; HEAD becomes TAIL. -/
def abortUntaken : Nat → Page → State → State
  | 0, _, s => s
  | k + 1, p, s =>
    if qHead s p == qTail s p then s
    else match headCover s p with
      | none => setFld s (pageA p + 0x30) 0 16 (qTail s p)
      | some cov =>
        let index := BitVec.ofNat 16 (qHead s p)
        let (s, r) := readEntry s p
        let e := match r with | .ok e => e | .error _ => List.replicate 64 0
        let s := advanceHead s p
        let c : Cmd := ⟨s.nextId, p, cov.ctx, .host cov.q, e, true, [], stOk, none, index, s.tick⟩
        abortUntaken k p (complete s c stAborted (pageUnit s p))

def abortQueue (s : State) (p : Page) : State := abortUntaken 4096 p s

/-- A DOORBELL violation (R373): logged; the 17th against one queue within 1 ms disables the queue (R377). -/
def doorbellViolation (s : State) (q : PairId) (p : Page) (a : Nat) : State :=
  let s := violation s q 6 a
  let key := 64 + pageA p
  let l := recentTimes s (s.violTimes.get (fun _ => []) key)
  let s := { s with violTimes := s.violTimes.set (fun _ => []) key l }
  if l.length ≤ 16 then s
  else abortQueue (setFld (setFld s (pageA p + 0x30) 39 1 1) (pageA p + 0x28) 63 1 0) p

/-- A write of UCB.DOORBELL (R373). -/
def writeDoorbell (s : State) (q : PairId) (p : Page) (v : Word64) : State :=
  let tail := getF v 0 16
  let n := qSize s p
  let a := pageA p + 0x20
  if !qEnabled s p || n ≤ tail || (tail + n - qHead s p) % n < (qTail s p + n - qHead s p) % n then doorbellViolation s q p a
  else if tail == qTail s p then s
  else
    let s := setFld s (pageA p + 0x30) 16 16 tail
    { s with covers := s.covers ++ [⟨p, BitVec.ofNat 16 tail, q, pageCtx s p⟩] }

/-- A write of UCB.CQ (R37). -/
def writeCq (s : State) (p : Page) (b : RBlock) (v : Word64) : State :=
  if qHead s p != qTail s p || fld s (pageA p + 0x30) 39 1 == 1 then s
  else
    let s := setReg s (pageA p + 0x28) (writeFields b (reg s (pageA p + 0x28)) v)
    if fld s (pageA p + 0x28) 63 1 == 1 then
      { setFld (setFld s (pageA p + 0x30) 0 16 0) (pageA p + 0x30) 16 16 0 with
        covers := s.covers.filter (fun c => c.page != p) }
    else s

/-- A write of 1 to a W1C flag with an overrun count; `setNow` where its source sets it in the same cycle, and then, if the
flag read 0, `recs` are the registers of the record that setting leaves. -/
def clearRecFlag (s : State) (a flag ovr : Nat) (setNow : Bool) (recs : List (Nat × Nat × Nat)) : State :=
  let was := fld s a flag 1
  let s := flagClear s a flag ovr setNow
  if setNow && was == 0 then
    recs.foldl (fun (s : State) (r : Nat × Nat × Nat) =>
      let (v, s) := takeFree s
      setFld s r.1 r.2.1 r.2.2 v.toNat) s
  else s

/-- A write of UCB.STATUS (R376, R451): ERR_VALID, then FLUSH or RESUME. -/
def writeStatus (s : State) (p : Page) (v : Word64) (setNow : Bool) : State :=
  let a := pageA p + 0x30
  let s := if getF v 48 1 == 1 then clearRecFlag s a 48 40 setNow [(pageA p + 0x38, 0, 12), (pageA p + 0x38, 16, 48)] else s
  if getF v 38 1 == 1 then setFld (abortQueue s p) a 32 1 0
  else if getF v 37 1 == 1 then setFld s a 32 1 0
  else s

/-! ## Writes outside the UCB pages -/

/-- Events of an engine in the table of R448, from 0x10. -/
def perfEvents (e : Nat) : Nat := [3, 5, 6, 5, 2, 2, 4, 2, 6, 3, 6, 3, 3, 3, 4, 3].getD e 0

/-- A selection names an engine and an event that its kind lists. -/
def selListed (tile : Bool) (v : Word64) : Bool :=
  let e := getF v 8 4
  let x := getF v 0 8
  (if tile then e < 8 else 8 ≤ e) && (x < 0xA || (0x10 ≤ x && x < 0x10 + perfEvents e))

/-- PERF.SELk and PERF.MSELk (R445). -/
def writeSel (s : State) (q : PairId) (tile : Bool) (k a : Nat) (b : RBlock) (v : Word64) : State :=
  let s := setReg s a (writeFields b (reg s a) v)
  let s := if tile then resetRegs s (fun x => inTiles x && (x - 0x10000000) % 0x40000 == 0x2F80 + 8 * k)
    else setReg s (modG (0x4180 + 8 * k)) 0
  if selListed tile v then s else violation s q 3 a

/-- RED.LEDGERn.RD (R312). -/
def writeLedgerRd (s : State) (q : PairId) (n : CtxId) (a : Nat) (v : Word64) : State :=
  let rd := getF v 32 32
  let old := fld s (aLedger n) 32 32
  if ledgerUsed s n < (rd + 2 ^ 32 - old) % 2 ^ 32 then violation s q 3 a
  else
    let s := setFld s (aLedger n) 32 32 rd
    match redOf s n with
    | none => s
    | some j =>
      let s := replayEnd (flushRecs j.heldRecs.length n s) n
      match redOf s n with
      | some j => ledgerFlag s n j
      | none => s

/-- SHT.HOLDn (R260). -/
def writeHold (s : State) (r : RingId) (v : Word64) : State :=
  let x := getF v 0 1
  let s := setFld s (aShtHold r.toNat) 0 1 x
  if x == 1 then (if isOos s r then s else shutRaise s r 5 (srcHold r)) else shutWithdraw s r 5 (srcHold r)

/-- NG.PORTp.DISABLE (R364): a port held becomes DISABLED; one let go is DOWN until it trains, unless its partner must be
attested first (R362). -/
def writeDisable (s : State) (p : Nat) (v : Word64) : State :=
  let x := getF v 3 1
  let s := setFld s (aPort p) 3 1 x
  if x == 1 then (if portState s p == 4 then s else disablePort s p)
  else if portState s p == 4 && !(portOf s p).authLock then setPortState s p 0
  else s

/-- PERF.BWCTL.WINDOW (R450): counting begins again at the next multiple of the window. -/
def writeWindow (s : State) (q : PairId) (a : Nat) (v : Word64) : State :=
  let w := getF v 0 32
  if w < 1000 || 1000000000 < w then violation s q 3 a
  else { setFld s a 0 32 w with bw := [], bwWait := true }

/-- A write that R410 and R416 forbid, or one of a value not allowed, is ignored and logged. -/
def ownerWrite (s : State) (q : PairId) (a : Nat) (b : RBlock) (v : Word64) : State :=
  let apply := setReg s a (writeFields b (reg s a) v)
  if a == aClkCtl then
    if getF v 4 3 < getF v 0 3 || fld s (aClkStep (getF v 0 3)) 0 1 == 0 || fld s (aClkStep (getF v 4 3)) 0 1 == 0 then violation s q 3 a
    else apply
  else if a == modG 0x2308 then
    if 1600 < getF v 0 12 || getF v 0 12 < getF v 16 12 + 150 then violation s q 3 a else apply
  else if a == aNode then
    if s.locks.get (fun _ => false) a then s
    else
      let s := setReg s a (writeFields b (reg s a) v)
      dropOnes { s with locks := s.locks.set (fun _ => false) a true }
  else if ngA 0x100 ≤ a && a < ngA 0x200 then writeDisable s ((a - ngA 0x100) / 0x20) v
  else if csnA 0x100 ≤ a && a < csnA 0x300 then
    let x := (a - csnA 0x100) / 8
    if getF v 8 1 == 1 && fld s a 0 2 == 2 then
      setFld { s with violTimes := s.violTimes.set (fun _ => []) x [] } a 0 2 1
    else s
  else if modG 0x4100 ≤ a && a < modG 0x4140 then writeSel s q true ((a - modG 0x4100) / 8) a b v
  else if modG 0x4140 ≤ a && a < modG 0x4180 then writeSel s q false ((a - modG 0x4140) / 8) a b v
  else if a == modG 0x4200 then writeWindow s q a v
  else apply

/-- Who writes a register outside the UCB pages, beside the owner session: a context's host session, where a rule gives it
the register. -/
def alsoCtx (s : State) (a : Nat) : Option CtxId :=
  if modG 0x3100 ≤ a && a < modG 0x3180 then some (BitVec.ofNat 4 ((a - modG 0x3100) / 8))
  else if modG 0x1000 ≤ a && a < modG 0x1400 then some (BitVec.ofNat 4 ((a - modG 0x1000) / 0x40))
  else if modG 0x600 ≤ a && a < modG 0x800 then
    let h := headOf s (BitVec.ofNat 4 ((a - modG 0x600) / 0x20))
    if fld s aShtOwned h.toNat 1 == 1 then some (BitVec.ofNat 4 (fld s aShtOwner (4 * h.toNat) 4)) else none
  else none

/-- A register outside the UCB pages that some session may write; none of the tiles' is (R85). -/
def writeModule (s : State) (q : PairId) (a : Nat) (b : RBlock) (v : Word64) (setNow : Bool) : State :=
  if allRo b || inTiles a then violation s q 3 a
  else if !pairOwner s q && alsoCtx s a != some (pairCtx s q) then violation s q 4 a
  else if a == aVlog1 then
    if getF v 24 1 == 1 then clearRecFlag s a 24 16 setNow [(aVlog0, 0, 64), (aVlog1, 0, 14)] else s
  else if modG 0x600 ≤ a && a < modG 0x800 then writeHold s (BitVec.ofNat 4 ((a - modG 0x600) / 0x20)) v
  else if modG 0x1000 ≤ a && a < modG 0x1400 then writeLedgerRd s q (BitVec.ofNat 4 ((a - modG 0x1000) / 0x40)) a v
  else ownerWrite s q a b v

/-- A register of a UCB page (R36 to R38, R370). -/
def writePage (s : State) (q : PairId) (p : Page) (off a : Nat) (b : RBlock) (v : Word64) (setNow : Bool) : State :=
  if !reaches s q p then violation s q (if p == .owner then 4 else 5) a
  else if allRo b then violation s q 3 a
  else if off == 0x20 then writeDoorbell s q p v
  else if off == 0x28 then writeCq s p b v
  else if off == 0x30 then writeStatus s p v setNow
  else setReg s a (writeFields b (reg s a) v)

/-- A write of a register by a pair's session; the alignment is tested first, as in `readReg` (log entry 121). -/
def writeReg (s : State) (q : PairId) (a : Nat) (v : Word64) (setNow : Bool) : State :=
  if a % 8 != 0 then violation s q 1 a
  else if a < 2 ^ 30 && fencedAddr s a then s
  else if !occupied a then (if a < 2 ^ 30 && quiet a then s else violation s q 2 a)
  else match blockAt a with
    | none => violation s q (if pairOwner s q then 3 else 4) a
    | some b => match pageAt a with
      | some (p, off) => writePage (dieReg s a true) q p off a b v setNow
      | none => writeModule s q a b v setNow

/-- The pair's context is being reset (R439). -/
def resettingPair (s : State) (q : PairId) : Bool := !pairOwner s q && ctxState s (pairCtx s q) == 6

/-- An error entry (R369, R374): no command, index 0, the VA or register address in W0. -/
def errEntry (s : State) (q : PairId) (tag : BitVec 16) (status : Byte) (addr : Nat) : State :=
  postCq s ⟨q, unitModule s, tag, status, pairCtx s q, false, false, 0, BitVec.ofNat 64 addr, 0, 0⟩

/-- The REFUSE of R369 to a request on a pair not in service: it waits to leave though the pair's CQ may be OFF. -/
def errRefuse (s : State) (q : PairId) (tag : BitVec 16) (addr : Nat) : State :=
  if fld s (aPair q) 0 2 == 0 then
    { s with cq := s.cq ++ [⟨q, unitModule s, tag, stRefuse, pairCtx s q, false, false, 0, BitVec.ofNat 64 addr, 0, 0⟩] }
  else errEntry s q tag stRefuse addr

/-- A pair answers every request with REFUSE: it is not in service, or its context is being reset (R369, R377, R439). -/
def pairRefuses (s : State) (q : PairId) : Bool := !pairOn s q || resettingPair s q

/-- The REFUSE, counted in CSN.VIOL where the pair is OFF or DISABLED. -/
def refuseReq (s : State) (q : PairId) (tag : BitVec 16) (addr : Nat) : State :=
  if !pairOn s q then errRefuse (satAdd s (csnA 0x10) 48 16 1) q tag addr else errEntry s q tag stRefuse addr

/-- The host is served: the input is on and the module is not in quarantine (R428). -/
def served (s t : State) : State := powered s (if fld s aRstStatus 9 1 == 1 then s else t)

/-- A write that a pair carries takes effect only on a pair in service; elsewhere its request is refused. The rows of the table that
come to this give no TAG, so that of the REFUSE is a free value (log entry 172). -/
def hostWrite (s : State) (q : PairId) (a : Nat) (v : Word64) (setNow : Bool := false) : State :=
  served s (
    if q == 63 then violation s q 7 a
    else if pairRefuses s q then
      let (r, s) := takeFree s
      refuseReq s q (r.setWidth 16) a
    else writeReg s q a v setNow)

/-! ## The rows -/

/-- DOORBELL (R373). -/
def execDoorbell (q : PairId) (p : Page) (v : Word64) (s : State) : Outcome State Fault Refusal :=
  .next (hostWrite s q (pageA p + 0x20) v)

/-- UCB_CQ_WRITE (R37). -/
def execUcbCqWrite (q : PairId) (p : Page) (v : Word64) (s : State) : Outcome State Fault Refusal :=
  .next (hostWrite s q (pageA p + 0x28) v)

/-- RESUME (R376). -/
def execResume (q : PairId) (p : Page) (s : State) : Outcome State Fault Refusal :=
  .next (hostWrite s q (pageA p + 0x30) (BitVec.ofNat 64 (2 ^ 37)))

/-- FLUSH (R376). -/
def execFlush (q : PairId) (p : Page) (s : State) : Outcome State Fault Refusal :=
  .next (hostWrite s q (pageA p + 0x30) (BitVec.ofNat 64 (2 ^ 38)))

/-- ERR_VALID_CLEAR (R451): the flags that a host clears are UCB.STATUS.ERR_VALID and CSN.VLOG1.VALID. -/
def execErrValidClear (q : PairId) (addr : BitVec 30) (setNow : Bool) (s : State) : Outcome State Fault Refusal :=
  .next (
    let a := addr.toNat
    if a == aVlog1 then hostWrite s q a (BitVec.ofNat 64 (2 ^ 24)) setNow
    else match pageAt a with
      | some (_, 0x30) => hostWrite s q a (BitVec.ofNat 64 (2 ^ 48)) setNow
      | _ => s)

/-- HOLD (R260). -/
def execHold (q : PairId) (r : RingId) (v : Word64) (s : State) : Outcome State Fault Refusal :=
  .next (hostWrite s q (aShtHold r.toNat) v)

/-- DISABLE (R364). -/
def execDisable (q : PairId) (port : BitVec 3) (v : Word64) (s : State) : Outcome State Fault Refusal :=
  .next (hostWrite s q (aPort port.toNat) v)

/-- REENABLE (R377). -/
def execReenable (q pair : PairId) (s : State) : Outcome State Fault Refusal :=
  .next (hostWrite s q (aPair pair) (BitVec.ofNat 64 (2 ^ 8)))

/-- LEDGER_RD_WRITE (R312). -/
def execLedgerRdWrite (q : PairId) (n : CtxId) (v : Word64) (s : State) : Outcome State Fault Refusal :=
  .next (hostWrite s q (aLedger n) v)

/-- PERF_SEL_WRITE (R445). -/
def execPerfSelWrite (q : PairId) (k : BitVec 3) (v : Word64) (s : State) : Outcome State Fault Refusal :=
  .next (hostWrite s q (modG (0x4100 + 8 * k.toNat)) v)

/-- PERF_MSEL_WRITE (R445). -/
def execPerfMselWrite (q : PairId) (k : BitVec 3) (v : Word64) (s : State) : Outcome State Fault Refusal :=
  .next (hostWrite s q (modG (0x4140 + 8 * k.toNat)) v)

/-- WINDOW_WRITE (R450). -/
def execWindowWrite (q : PairId) (v : Word64) (s : State) : Outcome State Fault Refusal :=
  .next (hostWrite s q (modG 0x4200) v)

/-- REGISTER_WRITE (R10, R13). -/
def execRegisterWrite (q : PairId) (addr : BitVec 30) (v : Word64) (s : State) : Outcome State Fault Refusal :=
  .next (hostWrite s q addr.toNat v)

end Sys2Proof.Machine
end

