-- ==== Sys2Proof/Machine/HostReq.lean ====
section
/-! DEFINITION. Requests on the submission queues (R369 to R372). -/

namespace Sys2Proof.Machine

open Host (Outcome)

/-- RD_DATA, or the reply of a management operation: it waits to leave on the link. -/
def sendReply (s : State) (q : PairId) (tag : BitVec 16) (status : Byte) (addr : Nat) (data : List Byte) : State :=
  let s := { s with replies := s.replies ++ [⟨q, tag, status, BitVec.ofNat 64 addr, data⟩] }
  bwAdd s 32 1 data.length

/-- A request whose OP or LENGTH is out of range is discarded and logged as FORMAT (R369); a register access of a LENGTH other than 8
is one of these, and SIZE of R9 is an access of 8 bytes at an address not aligned (DEDUCED, log entry 125). -/
def badRequest (s : State) (q : PairId) (addr : Nat) : State := violation s q 7 addr

/-- A request arrives: it is counted, and answered REFUSE on a pair not in service or of a context in reset. -/
def request (q : PairId) (tag : BitVec 16) (addr bytes : Nat) (ok : Bool) (body : State → State) (s : State) : State :=
  served s (
  let s := bwAdd (perfMod s (some (pairCtx s q)) 15 0x10 (some q.toNat) 1) 32 0 bytes
  if q == 63 then badRequest s q addr
  else if pairRefuses s q then refuseReq s q tag addr
  else if !ok then badRequest s q addr
  else body s)

/-- REG_WR. -/
def execRegWr (q : PairId) (tag : BitVec 16) (addr : BitVec 64) (len : BitVec 32) (v : Word64) (s : State) :
    Outcome State Fault Refusal :=
  .next (request q tag addr.toNat 24 (len == 8) (fun s => writeReg s q addr.toNat v false) s)

/-- REG_RD. -/
def execRegRd (q : PairId) (tag : BitVec 16) (addr : BitVec 64) (len : BitVec 32) (s : State) :
    Outcome State Fault Refusal :=
  .next (request q tag addr.toNat 16 (len == 8) (fun s =>
    let (v, s) := readReg s q addr.toNat
    sendReply s q tag stOk addr.toNat (bytesOf v.toNat 8)) s)

/-- The LENGTH of a memory request is 1 to 4,096 and its bytes cross no 4 KiB boundary. -/
def memLenOk (va len : Nat) : Bool := 1 ≤ len && len ≤ 4096 && va % 4096 + len ≤ 4096

/-- Where a memory request of a pair goes: the owner area, or the pair's context. -/
def memOk (s : State) (q : PairId) (va len : Nat) (write : Bool) : Bool :=
  if pairOwner s q then va + len ≤ 0x40000 else vaOk s (pairCtx s q) va len write

/-- MEM_WR (R371). -/
def execMemWr (q : PairId) (tag : BitVec 16) (va : BitVec 64) (len : BitVec 32) (data : List Byte) (s : State) :
    Outcome State Fault Refusal :=
  let a := va.toNat
  .next (request q tag a (16 + data.length) (memLenOk a len.toNat && data.length == len.toNat) (fun s =>
    if !memOk s q a len.toNat true then errEntry s q tag stHostXlate a
    else if pairOwner s q then writePhys s 0xF (ownerBase + a) data 0 false
    else writeVa s (pairCtx s q) a data 0) s)

/-- MEM_RD (R371). -/
def execMemRd (q : PairId) (tag : BitVec 16) (va : BitVec 64) (len : BitVec 32) (s : State) :
    Outcome State Fault Refusal :=
  let a := va.toNat
  .next (request q tag a 16 (memLenOk a len.toNat) (fun s =>
    if !memOk s q a len.toNat false then errEntry s q tag stHostXlate a
    else
      let (s, bs, m) :=
        if pairOwner s q then readPhys s 0xF (ownerBase + a) len.toNat 0 else readVa s (pairCtx s q) a len.toNat 0
      if m != 0 then errEntry s q tag stHostMemerr a
      else sendReply s q tag stOk a bs) s)

end Sys2Proof.Machine
end

