-- ==== Sys2Proof/Machine/Keys.lean ====
section
/-! DEFINITION. Latch: key derivation (R384), measurements (R385), signing (R388 to R390), attestation reports (R391), sessions
(R392 to R394), the keying of fabric ports (R395 to R397) and the entropy source (R383). -/

namespace Sys2Proof.Machine

open Host (Outcome)

def aLatch : Nat := latchA 0
def aSign : Nat := latchA 8
def aSvn : Nat := latchA 0x10
def aMeas (m w : Nat) : Nat := latchA (0x100 + m * 0x20 + w * 8)

def extend (m d : List Byte) : List Byte := sha256 (m ++ d)

/-! ## Measurements and the configuration image (R232, R385) -/

def measOf (s : State) (m : Nat) : List Byte := ((List.range 4).map (fun w => bytesOf (reg s (aMeas m w)).toNat 8)).flatten

def setMeas (s : State) (m : Nat) (v : List Byte) : State :=
  (List.range 4).foldl (fun s w => setReg s (aMeas m w) (BitVec.ofNat 64 (fieldAt v (8 * w) 8))) s

/-- 64 bytes in which bit t of the whole says whether tile t is in the set. -/
def tileBits (p : TileId → Bool) : List Byte :=
  (List.range 64).map (fun k => BitVec.ofNat 8 ((List.range 8).foldl (fun a i => if p (BitVec.ofNat 9 (8 * k + i)) then a + 2 ^ i else a) 0))

/-- Bytes 0 to 247 of the configuration image. -/
def imageBody (s : State) : List Byte :=
  bytesOf 1 2 ++ [Config.stepping, Config.grade] ++ bytesOf 0 4 ++ tileBits (isFenced s) ++
    tileBits (fun t => s.flash.fences.contains t) ++ bytesOf (fld s aShtOwned 16 16) 2 ++ bytesOf 0 6 ++
    (List.range 32).map (fun i => BitVec.ofNat 8 (Config.mpl (i / 2) (i % 2))) ++
    (List.range 4).map (fun k => BitVec.ofNat 8 (Config.dpl k)) ++ bytesOf 0 68

/-- Write the configuration image and its fingerprint anew (R232, R233). -/
def makeImage (s : State) : State :=
  let b := imageBody s
  let b := b ++ bytesOf (digest8 b) 8
  let s := (List.range 32).foldl (fun s i => setReg s (modG (0x400 + 8 * i)) (BitVec.ofNat 64 (fieldAt b (8 * i) 8))) s
  setReg s aFingerprint (BitVec.ofNat 64 (fieldAt b 248 8))

/-- The configuration image as it stands. -/
def imageBytes (s : State) : List Byte :=
  ((List.range 32).map (fun i => bytesOf (reg s (modG (0x400 + 8 * i))).toNat 8)).flatten

/-! ## Owner keys (R382) -/

/-- OWNER_HASHk is programmed and not revoked. -/
def slotLive (s : State) (k : Nat) : Bool := decide (k < s.otp.owner.length) && !s.otp.revoke.getLsbD k

/-- The hash is an unrevoked owner key's. -/
def ownerKey (s : State) (h : List Byte) : Bool :=
  (List.range 3).any (fun k => slotLive s k && s.otp.owner.getD k [] == h)

/-- The unrevoked owner key hash with the lowest index, or zeros. -/
def ownerHash (s : State) : List Byte :=
  match (List.range 3).find? (slotLive s) with
  | some k => s.otp.owner.getD k []
  | none => List.replicate 32 0

/-- LATCH.STATUS.OWNER_SLOTS. -/
def showSlots (s : State) : State :=
  setFld s aLatch 5 3 ((List.range 3).foldl (fun a k => if slotLive s k then a + 2 ^ k else a) 0)

/-! ## Signing (R388 to R390) -/

def signOk (s : State) : Bool := fld s aLatch 3 1 == 1

/-- The bottom tree of the next leaf is built. -/
def treeReady (s : State) : Bool := s.latch.nextLeaf / 2 ^ 20 < s.latch.treesBuilt

/-- The next reservation is taken, where the counter's increment and read authenticate: where they do not, and at 2^34, signing
ends (R390). -/
def reserve (s : State) (ok : Bool) : State :=
  if !ok then setFld s aLatch 3 1 0
  else
    let v := s.flash.counter + 1
    let s := { s with flash := { s.flash with counter := v } }
    let s := setFld s aSign 0 40 v
    if 2 ^ 34 ≤ v then setFld s aLatch 3 1 0 else s

/-- Whether the counter authenticates at this use of it: nothing in the module settles that (log entry 167). -/
def counterOk (s : State) : Bool × State :=
  let (r, s) := takeFree s
  (r.getLsbD 0, s)

/-- A fresh signing reservation, or none (R389, R390). -/
def stepReserve (s : State) (ok : Bool) : State :=
  let s := { s with latch := { s.latch with resDue := false } }
  if !ok then setFld s aLatch 3 1 0
  else
    let s := reserve (setFld s aLatch 3 1 1) true
    let v := s.flash.counter
    let s := setFld s aSign 40 7 64
    { s with latch := { s.latch with nextLeaf := 64 * (v - 1), startRes := v, treesBuilt := 64 * (v - 1) / 2 ^ 20 + 1 } }

/-- The reservation that the recovery personality takes before the first signature of a start (R389, R430). -/
def takeDue (s : State) : State :=
  if s.latch.resDue then
    let (ok, s) := counterOk s
    stepReserve s ok
  else s

/-- The leaf to sign with, and the state after: leaves go in rising order, and with 16 left the next block is reserved. -/
def takeLeaf (s : State) : Nat × State :=
  let g := s.latch.nextLeaf
  let left := if fld s aSign 40 7 == 0 then 63 else fld s aSign 40 7 - 1
  let s := setFld { s with latch := { s.latch with nextLeaf := g + 1 } } aSign 40 7 left
  (g, if left == 16 then
      let (ok, s) := counterOk s
      reserve s ok
    else s)

/-! ## The identity (R382, R384, R388) -/

/-- A key derived from the device unique secret. -/
def udsKey (lab : String) (ctx : List Byte) : List Byte := kdf Config.rootSecret lab ctx

/-- The counter authentication key. -/
def counterKey : List Byte := udsKey "FLASH-CTR" []

/-- A value of n bytes. -/
def fixBytes (n : Nat) (b : List Byte) : List Byte := (b ++ List.replicate (n - b.length) 0).take n

def topI : List Byte := (udsKey "HSS-I" []).take 16
def bottomSeed (j : Nat) : List Byte := udsKey "HSS-BOT" (bytesOf j 4)
def bottomI (j : Nat) : List Byte := (udsKey "HSS-BI" (bytesOf j 4)).take 16

/-- The public keys of the top tree and of bottom tree j. -/
def topPublic : List Byte := fixBytes 56 (Config.lmsPublicOf (udsKey "HSS-TOP" []) topI)
def bottomPublic (j : Nat) : List Byte := fixBytes 56 (Config.lmsPublicOf (bottomSeed j) (bottomI j))

/-- An HSS signature by global leaf g, 5,716 B: top-tree leaf j signs the public key of bottom tree j, and leaf g mod 2^20 of that
tree the message. The level count is the number of signed public keys, 1, with its high byte first (PRESUMED, log entry 168). -/
def hssSign (g : Nat) (m : List Byte) : List Byte :=
  let j := g / 2 ^ 20
  [0, 0, 0, 1] ++ fixBytes 2828 (Config.lmsSignBy (udsKey "HSS-TOP" []) topI j (some (udsKey "HSS-C" (bytesOf j 4))) (bottomPublic j)) ++
    bottomPublic j ++ fixBytes 2828 (Config.lmsSignBy (bottomSeed j) (bottomI j) (g % 2 ^ 20) none m)

/-- IDENT_CERT_HASH of the fuses. -/
def identCertHash : List Byte := sha256 Config.certificate

/-! ## Reports (R391) -/

/-- The size of a bank (R469). -/
def bankSize : Nat := 0x1800000

/-- The images of a bank as it stands. -/
def imagesOf (s : State) (b : Nat) : BankSet :=
  Config.bank b (s.flash.bytes.filterMap (fun e => if e.1 / bankSize == b then e.2.map (fun v => (e.1 % bankSize, v)) else none))

/-- The VERSION and the SVN of each image of a set. -/
def versionsOf (b : BankSet) : List (BitVec 32) := (List.range 3).map (fun k => (b.image k).version)
def svnsOf (b : BankSet) : List Nat := (List.range 3).map (fun k => (b.image k).svn.toNat)

/-- The images that run. -/
def bankSet (s : State) : BankSet := imagesOf s (fld s aRstStatus 10 1)

/-- Bytes 0 to 2,175 of a report on a context, or on the module. -/
def reportBody (s : State) (ctx : Option CtxId) (nonce : BitVec 256) (ek : List Byte) : List Byte :=
  let recovery := modeOf s == 3
  let flags := (if ctx.isSome then 1 else 0) + 2 * fld s aLatch 4 1 + 4 * fld s (modG 0x2000) 3 1 + (if recovery then 8 else 0)
  let pad (n : Nat) (b : List Byte) : List Byte := b.take n ++ List.replicate (n - b.length) 0
  let versions := if recovery then [] else versionsOf (bankSet s)
  bytesOf 1 2 ++ bytesOf flags 2 ++ bytesOf 7892 4 ++ bytesOf Config.fusedId.toNat 16 ++ [Config.stepping, Config.grade] ++
    [match ctx with | some n => BitVec.ofNat 8 n.toNat | none => 0xFF] ++
    [match ctx with | some n => BitVec.ofNat 8 (ctxState s n) | none => 0] ++ bytesOf 0 4 ++ bytesOf s.latch.startRes 8 ++
    bytesOf (nowNs s) 8 ++ bytesOf nonce.toNat 32 ++ ownerHash s ++
    pad 32 (match ctx with | some n => (infoOf s n).tenant | none => []) ++
    pad 32 (match ctx with | some n => (infoOf s n).digest | none => []) ++
    ((List.range 5).map (measOf s)).flatten ++ pad 12 ((versions.map (fun v => bytesOf v.toNat 4)).flatten) ++
    bytesOf s.otp.svnAster 1 ++ bytesOf s.otp.svnYarrow 1 ++ bytesOf s.otp.svnTansy 1 ++ [0] ++ imageBytes s ++ pad 1568 ek

/-- A fresh ML-KEM seed, and the signed report with its encapsulation key. -/
def makeReport (s : State) (ctx : Option CtxId) (nonce : BitVec 256) : List Byte × List Byte × State :=
  let (seed, s) := takeRandom s 64
  let body := reportBody s ctx nonce (Config.kemPublic seed)
  let (leaf, s) := takeLeaf s
  (seed, body ++ hssSign leaf body, s)

/-! ## The management pair (R378, R393, R399) -/

/-- The reply of a management operation. -/
def mgmtReply (s : State) (tag : BitVec 16) (ok : Bool) (data : List Byte) : State :=
  sendReply s 63 tag (if ok then stOk else stMalformed) 0 data

/-- A management operation arrives on pair 63. -/
def mgmtCount (s : State) (bytes : Nat) : State := bwAdd (perfMod s none 15 0x10 (some 63) 1) 32 0 (16 + bytes)

/-- HEALTH: the manual gives the contents and no layout. -/
def execHealth (tag : BitVec 16) (s : State) : Outcome State Fault Refusal :=
  .next (served s (
    let s := mgmtCount s 0
    let d := bytesOf (ucbId s .owner).toNat 8 ++ bytesOf (reg s aFingerprint).toNat 8 ++ bytesOf (reg s aNgTb).toNat 8 ++
      (List.range 9).map (fun p => BitVec.ofNat 8 (portState s p)) ++ bytesOf (fld s (modG 0x2300) 0 12) 2 ++
      bytesOf (reg s aRstStatus).toNat 8
    mgmtReply s tag true d))

/-- TB_PARENT: Lintel adopts the parent at its next tick. The recovery personality does not offer it (R430). -/
def execTbParent (tag : BitVec 16) (port : Byte) (s : State) : Outcome State Fault Refusal :=
  .next (served s (
    let s := mgmtCount s 1
    if 8 < port.toNat || modeOf s == 3 then mgmtReply s tag false []
    else mgmtReply { s with gov := { s.gov with parentNext := some port } } tag true []))

/-- Latch is READY or serves the recovery personality. -/
def latchServes (s : State) : Bool := fld s aLatch 0 2 == 1 || fld s aLatch 0 2 == 2

/-- A context report is given: a session of the owner, or one of the context's tenant, is open (R391). The management pair that
carries the request tells nobody apart, so that such a session is open is what the model asks (DESIGN CHOICE, log entry 165). -/
def mayReport (s : State) (ctx : Byte) : Bool :=
  ctx == 0xFF || s.latch.sessions.any (fun x => x.owner || (infoOf s x.ctx).tenant == (infoOf s (BitVec.ofNat 4 ctx.toNat)).tenant)

/-- The context of an ATTEST operand; none for the module. -/
def attestCtx (ctx : Byte) : Option CtxId := if ctx == 0xFF then none else some (BitVec.ofNat 4 ctx.toNat)

/-- Answer an ATTEST with a report; the decapsulation key is held, four at most. -/
def attestNow (s : State) (tag : BitVec 16) (nonce : BitVec 256) (ctx : Byte) : State :=
  let (seed, rep, s) := makeReport s (attestCtx ctx) nonce
  let ks := s.latch.decaps ++ [⟨seed, rep, nowNs s⟩]
  mgmtReply { s with latch := { s.latch with decaps := ks.drop (ks.length - 4) } } tag true rep

/-- ATTEST (R393, R383, R390): it waits where the bottom tree is not built yet; a reservation still due is taken first. -/
def execAttest (tag : BitVec 16) (nonce : BitVec 256) (ctx : Byte) (s : State) : Outcome State Fault Refusal :=
  .next (served s (
    let s := mgmtCount s 33
    if !(decide (ctx.toNat < 16) || ctx == 0xFF) || !latchServes s || !entropyOk s || !signOk s || !mayReport s ctx then
      mgmtReply s tag false []
    else
    let s := takeDue s
    if !signOk s then mgmtReply s tag false []
    else if !treeReady s then { s with latch := { s.latch with attestWait := s.latch.attestWait ++ [(tag, nonce, ctx)] } }
    else attestNow s tag nonce ctx))

/-- The transcript hash of an OPEN. -/
def openTh (report ct : List Byte) (role ctx : Byte) (pairs : BitVec 64) (pub : List Byte) : List Byte :=
  sha256 (report ++ ct ++ [role, ctx] ++ bytesOf pairs.toNat 8 ++ pub)

/-- The first 16 bytes of the confirmation of a shared secret and transcript hash (R393, step 7). -/
def confirmOf (ss th : List Byte) : List Byte := (hmac (kdf ss "CONFIRM" th) th).take 16

/-- The pairs of a bitmap. -/
def pairsOf (pairs : BitVec 64) : List PairId := ((List.range 64).filter (fun i => pairs.getLsbD i)).map (BitVec.ofNat 6)

/-- The role's key, the pairs and the context allow the OPEN (R393, step 6, R394). -/
def openOk (s : State) (role ctx : Byte) (pairs : BitVec 64) (pub : List Byte) : Bool :=
  let h := sha256 pub
  let n : CtxId := BitVec.ofNat 4 ctx.toNat
  let tenant := (infoOf s n).tenant
  fld s aLatch 0 2 == 1 && !pairs.getLsbD 63 && (pairsOf pairs).all (fun q => fld s (aPair q) 0 2 == 0) &&
    (if role == 0 then ownerKey s h
     else role == 1 && decide (ctx.toNat < 16) && ctxState s n != 0 && ctxState s n != 7 &&
      (tenant == h || (tenant.all (· == 0) && ownerKey s h)))

/-- The flits of pair 63 that are to leave up to the end of a reply. -/
def repliesDue (s : State) (r : Reply) : Nat :=
  ((formReplies { s with replies := s.replies ++ [r] }).hostOut.filter (fun f => flitPair f == 63)).length

/-- OPEN (R393): it uses the decapsulation key under whose transcript the signature verifies; where none does, the oldest is
spent. -/
def execOpenSession (tag : BitVec 16) (ct : List Byte) (role ctx : Byte) (pairs : BitVec 64) (pub sig : List Byte) (s : State) :
    Outcome State Fault Refusal :=
  .next (served s (
    let s := mgmtCount s (1578 + pub.length + sig.length)
    let th (k : DecapKey) : List Byte := openTh k.report ct role ctx pairs pub
    let good (k : DecapKey) : Bool := Config.lmsVerify pub (th k) sig
    let refuse (s : State) : State :=
      let (r, s) := takeFree s
      let d0 := ((pairsOf pairs).head?.map (fun q => q.toNat)).getD 0
      mgmtReply (recordEv s 9 0xFF (unitModule s) (BitVec.ofNat 64 d0) r) tag false []
    match s.latch.decaps.find? good with
    | none => refuse { s with latch := { s.latch with decaps := s.latch.decaps.drop 1 } }
    | some k =>
      let s := { s with latch := { s.latch with decaps := s.latch.decaps.erase k } }
      if !entropyOk s || ct.length != 1568 || pub.length != 56 || !openOk s role ctx pairs pub then refuse s
      else
        let ss := Config.kemDecaps k.seed ct
        let n : CtxId := BitVec.ofNat 4 ctx.toNat
        let confirm := confirmOf ss (th k)
        let x : Session := ⟨role == 0, n, ss, th k, 0, pairsOf pairs, 0, 0, repliesDue s ⟨63, tag, stOk, 0, confirm⟩⟩
        let s := (pairsOf pairs).foldl (fun s q =>
          setFld s (aPair q) 0 8 (if role == 0 then 5 else 1 + n.toNat * 16)) s
        let s := { s with latch := { s.latch with sessions := s.latch.sessions ++ [x] } }
        let s := setFld s aLatch 8 8 s.latch.sessions.length
        mgmtReply s tag true confirm))

/-- NONCE (R399). -/
def execNonce (tag : BitVec 16) (s : State) : Outcome State Fault Refusal :=
  .next (served s (
    let s := mgmtCount s 0
    if !entropyOk s then mgmtReply s tag false []
    else
      let (b, s) := takeRandom s 32
      mgmtReply { s with latch := { s.latch with nonces := s.latch.nonces ++ [BitVec.ofNat 256 (natOf b)] } } tag true b))

/-- DECAPS_KEY_EXPIRE: 10 s after it was made, the oldest key is discarded. -/
def execDecapsKeyExpire (s : State) : Outcome State Fault Refusal :=
  .next (match s.latch.decaps with
    | [] => s
    | k :: ks => advanceTo { s with latch := { s.latch with decaps := ks } } (k.at' + 10000000000))

/-! ## The entropy source (R383) -/

def entropyFail (s : State) : State :=
  let s := satAdd (setFld s aLatch 2 1 0) aLatch 16 16 1
  { s with latch := { s.latch with entropyAt := nowNs s } }

/-- ENTROPY_TEST_FAIL. -/
def execEntropyTestFail (s : State) : Outcome State Fault Refusal :=
  .next (powered s (if entropyOk s then entropyFail { s with latch := { s.latch with entropyRepeats := 0 } } else s))

/-- ENTROPY_RETEST: once a second after a failure, three times at most. -/
def execEntropyRetest (ok : Bool) (s : State) : Outcome State Fault Refusal :=
  .next (powered s (
    if entropyOk s || 3 ≤ s.latch.entropyRepeats || (s.sup.running && fld s aRstStatus 3 4 ≤ 2) then s
    else
      let s := advanceTo s (s.latch.entropyAt + 1000000000)
      if ok then setFld { s with latch := { s.latch with entropyRepeats := 0 } } aLatch 2 1 1
      else entropyFail { s with latch := { s.latch with entropyRepeats := s.latch.entropyRepeats + 1 } }))

/-! ## Keying of fabric ports (R395 to R397) -/

/-- The sequence of a link that keys again: the keying has numbers of its own, and what stands now goes on once the port is UP
(R363; DESIGN CHOICE, log 143). -/
def saveLink (x : Port) : Port :=
  let l : LinkSeq := ⟨x.expect, x.lastSeq, x.sendSeq, x.replay, x.sentTotal⟩
  { x with saved := x.saved.or (some (l, x.peerRes)), expect := 0, lastSeq := 4095, sendSeq := 0, sentTotal := 0, replay := [],
           linkWait := [], recovery := false }

/-- The port is UP: the sequence kept goes on and replay resumes from the last ACK, where the partner has not started anew. -/
def restoreLink (s : State) (p : Nat) : State :=
  let x := portOf s p
  match x.saved with
  | none => s
  | some (l, res) =>
    if res != x.peerRes then setPort s p { x with saved := none }
    else
      l.replay.foldl (fun s f => putTx s p f) (setPort s p { x with
        saved := none, expect := l.expect, lastSeq := l.lastSeq, sendSeq := l.sendSeq, sentTotal := l.sentTotal, replay := l.replay,
        recovery := false })

/-- A port begins to key: it sends a fresh nonce; the fragments of an earlier exchange are void. Without random values or signatures
it stays in KEYING, and tries again a second later (R383, R396). -/
def startKeying (s : State) (p : Nat) : State :=
  let s := setPortState s p 2
  let x := newEpoch s (portOf s p) 0
  let s := setPort s p { x with
    myReport := [], mySeed := [], peer := none, ct := [], secret := [], linkTh := [], sentConfirm := false, gotConfirm := false,
    retryAt := if entropyOk s then none else some (nowNs s + 1000000000), msgs := x.msgs.filter (fun m => m.hdr.type == 1) }
  if !entropyOk s then s
  else
    let (b, s) := takeRandom s 32
    sendLink (setPort s p { portOf s p with myNonce := BitVec.ofNat 256 (natOf b) }) p 3 b

/-- A rejected or failed keying: logged, and tried again a second later. -/
def rejectPeer (s : State) (p : Nat) : State :=
  let (r, s) := takeFree s
  let s := recordEv s 9 0xFF (unitModule s) (BitVec.ofNat 64 p) r
  setPort s p { portOf s p with peer := none, retryAt := some (nowNs s + 1000000000) }

/-- Derive LS from the shared secret, with TH, and send the confirmation (R395, step 4). The partner of port p is port
p xor 1 of the neighbour. -/
def deriveLink (s : State) (p : Nat) (ss ct : List Byte) : State :=
  let x := portOf s p
  match x.peer with
  | none => s
  | some r =>
    let lower := myId < r.fusedId.toNat
    let lo := if lower then x.myReport else r.raw
    let hi := if lower then r.raw else x.myReport
    let pl := if lower then p else p ^^^ 1
    let th := sha256 (lo ++ hi ++ ct ++ bytesOf pl 1 ++ bytesOf (pl ^^^ 1) 1)
    let s := setPort s p { x with ct := ct, secret := kdf ss "NG-LINK" th, linkTh := confirmOf ss th, sentConfirm := true }
    sendLink s p 6 (confirmOf ss th)

/-- The side with the lower FUSED_ID encapsulates once both reports are there. -/
def tryEncaps (s : State) (p : Nat) : State :=
  let x := portOf s p
  match x.peer with
  | none => s
  | some r =>
    if x.myReport.isEmpty || x.sentConfirm || r.fusedId.toNat ≤ myId || !entropyOk s then s
    else
      let (rnd, s) := takeRandom s 32
      let (ct, ss) := Config.kemEncaps ((r.raw.drop 608).take 1568) rnd
      deriveLink (sendFrags s p 5 ct) p ss ct

/-- Answer a partner's nonce with a module report. -/
def answerAttest (s : State) (p : Nat) (nonce : BitVec 256) : State :=
  let (seed, rep, s) := makeReport s none nonce
  tryEncaps (sendFrags (setPort s p { portOf s p with myReport := rep, mySeed := seed }) p 4 rep) p

/-- KEY_ATTEST: it waits where the bottom tree is not built yet. -/
def execKeyAttest (port : BitVec 3) (nonce : BitVec 256) (s : State) : Outcome State Fault Refusal :=
  .next (
    let p := port.toNat
    if portState s p != 2 || !entropyOk s || !signOk s then s
    else if !treeReady s then { s with latch := { s.latch with keyWait := s.latch.keyWait ++ [(port, nonce)] } }
    else answerAttest s p nonce)

/-- A peer's report is accepted (R396). -/
def peerOk (s : State) (p : Nat) (r : PeerReport) : Bool :=
  r.nonce == (portOf s p).myNonce && Config.reportOk r.raw && r.ownerHash.toNat == natOf (ownerHash s) && !r.debugUnlocked &&
    !r.recovery &&
    (if s.latch.peers.isEmpty then r.meas == measOf s 0 ++ measOf s 1 ++ measOf s 2 else s.latch.peers.contains (sha256 r.meas))

/-- KEY_REPORT: while a port keys, the partner's report is checked; on a port that is UP, a signed report with another START_RES than
the one of the last keying says that the partner has started anew, and the port keys again (R397). -/
def execKeyReport (port : BitVec 3) (rep : PeerReport) (s : State) : Outcome State Fault Refusal :=
  .next (
    let p := port.toNat
    if portState s p == 3 && Config.reportOk rep.raw && rep.startRes != (portOf s p).peerRes then
      startKeying (setPort s p (saveLink (portOf s p))) p
    else if portState s p != 2 then s
    else if !peerOk s p rep then rejectPeer s p
    else tryEncaps (setPort s p { portOf s p with peer := some rep, peerRes := rep.startRes, peerNode := rep.node }) p)

/-- KEY_ENCAPS: the side with the higher FUSED_ID derives LS. -/
def execKeyEncaps (port : BitVec 3) (ct : List Byte) (s : State) : Outcome State Fault Refusal :=
  .next (
    let p := port.toNat
    let x := portOf s p
    match x.peer with
    | none => s
    | some r =>
      if portState s p != 2 || x.mySeed.isEmpty || myId ≤ r.fusedId.toNat || ct.length != 1568 then s
      else deriveLink s p (Config.kemDecaps x.mySeed ct) ct)

/-- The free flits of every VC are announced (R354). -/
def announce (s : State) (p : Nat) : State :=
  let x := portOf s p
  sendLink s p 1 ((List.range 8).map (fun v => BitVec.ofNat 8 (192 - (x.waiting.filter (fun f => f.hdr.vc.toNat == v)).length)))

/-- KEY_CONFIRM: with both confirmations in agreement the port is UP in key epoch 0. -/
def execKeyConfirm (port : BitVec 3) (v : BitVec 128) (s : State) : Outcome State Fault Refusal :=
  .next (
    let p := port.toNat
    let x := portOf s p
    if portState s p != 2 || x.secret.isEmpty then s
    else if natOf x.linkTh != v.toNat then rejectPeer s p
    else
      let s := setPortState (setPort s p { newEpoch s x 0 with gotConfirm := true, retryAt := none, credits := [] }) p 3
      drain (announce (restoreLink s p) p))

/-- KEYING_RETRY. -/
def execKeyingRetry (port : BitVec 3) (s : State) : Outcome State Fault Refusal :=
  .next (match (portOf s port.toNat).retryAt with
    | none => s
    | some t => if portState s port.toNat != 2 then s else startKeying (advanceTo s t) port.toNat)

/-- BOTTOM_TREE_BUILD (R388): the next tree is built once the present one has passed half its leaves; what waited to sign goes
on. -/
def execBottomTreeBuild (s : State) : Outcome State Fault Refusal :=
  .next (powered s (
    let j := s.latch.nextLeaf / 2 ^ 20
    if s.latch.treesBuilt != j && !(s.latch.treesBuilt == j + 1 && 2 ^ 19 < s.latch.nextLeaf % 2 ^ 20) then s
    else
      let l := s.latch
      let s := { s with latch := { l with treesBuilt := l.treesBuilt + 1, attestWait := [], keyWait := [] } }
      let s := l.attestWait.foldl (fun (s : State) (w : BitVec 16 × BitVec 256 × Byte) =>
        if !entropyOk s || !signOk s then mgmtReply s w.1 false [] else attestNow s w.1 w.2.1 w.2.2) s
      l.keyWait.foldl (fun (s : State) (w : BitVec 3 × BitVec 256) =>
        if portState s w.1.toNat != 2 || !entropyOk s || !signOk s then s else answerAttest s w.1.toNat w.2) s))

/-- PEER_RESET (R378, R397): the ports keyed with a node key again. The recovery personality does not offer it (R430). -/
def execPeerReset (tag : BitVec 16) (node : BitVec 16) (s : State) : Outcome State Fault Refusal :=
  .next (served s (
    let s := mgmtCount s 2
    if modeOf s == 3 then mgmtReply s tag false [] else
    let s := (List.range 8).foldl (fun s p =>
      let x := portOf s p
      if x.peerNode == node && !x.secret.isEmpty && portState s p == 3 then startKeying (setPort s p (saveLink x)) p
      else if x.peerNode == node && portState s p == 2 then startKeying s p
      else if x.peerNode == node && !x.secret.isEmpty then setPort s p { x with secret := [] }
      else s) s
    mgmtReply s tag true []))

/-! ## The Cersin link (R365 to R367, R392, R394) -/

/-- The credits of every SQ are announced (R367). -/
def announceHost (s : State) : State := sendLink s 8 1 (List.replicate 64 128)

/-- The management exchange ends: the keys of this training; the link's sequence goes on where a retrain has kept it (R351, R363). -/
def hostKeys (s : State) (ss : List Byte) : State :=
  let l := { s.latch with mgmtKey := kdf ss "MGMT" [], headerKey := kdf ss "CSN-HDR" [], epochBase := (kdf ss "CSN-EP" []).take 16,
                          kexSeed := [] }
  announceHost (restoreLink (setPortState { s with latch := l } 8 3) 8)

/-- KEY_EK: the adapter's ciphertext. -/
def execKeyEk (ct : List Byte) (s : State) : Outcome State Fault Refusal :=
  .next (if portState s 8 != 2 || s.latch.kexSeed.isEmpty || ct.length != 1568 then s
    else hostKeys s (Config.kemDecaps s.latch.kexSeed ct))

end Sys2Proof.Machine
end

