-- ==== Sys2Proof/Machine/Fabric.lean ====
section
/-! DEFINITION. Credits (R354, R367), gang commands on the fabric (R46, R48, R357), Timebase alignment (R360, R361) and link
training (R344, R346, R363, R426). -/

namespace Sys2Proof.Machine

open Host (Outcome)

/-! ## Credits (R354, R367) -/

/-- CREDIT: on a fabric port the free flits announced become the credits; on Cersin the allowances add up, to 128
at most (R354, R367), and what waited leaves. -/
def takeCredit (s : State) (p : Nat) (counts : List Nat) : State :=
  if portState s p != 3 then s
  else if p < 8 then
    let tooMany := (counts.take 8).any (fun c => 192 < c)
    let s := if tooMany then satAdd s (aPortViol p) 32 16 1 else s
    let x := portOf s p
    let cr := (List.range 8).foldl (fun m v => SMap.set crDef m v (min 192 (counts.getD v 0))) x.credits
    drain (setPort s p { x with credits := cr })
  else
    sendHostAll ((List.range 64).foldl (fun s q =>
      let c := s.cqCredit.get crDef q + counts.getD q 0
      let s := if 128 < c then satAdd s (aPortViol 8) 32 16 1 else s
      { s with cqCredit := s.cqCredit.set crDef q (min 128 c) }) s)

def execCredit (port : BitVec 4) (counts : List Nat) (s : State) : Outcome State Fault Refusal :=
  .next (powered s (if 8 < port.toNat then s else takeCredit s port.toNat counts))

/-! ## Gang commands (R46, R48, R357) -/

/-- The port on which a node's messages come in, as far as routing tells. -/
def portTo (s : State) (node : BitVec 16) : Nat :=
  match routeOf s none { hdrIdle with dst := node } with
  | .out p _ => p
  | _ => 0

/-- Answer a message with REFUSE, counted at the port it arrived on, where it came in on one. -/
def refuseMsg (s : State) (port : Nat) (dst gang : BitVec 16) (ctx : CtxId) (mtag : BitVec 32) (op reason : Nat) : State :=
  let s := if port < 8 then satAdd s (aPortViol port) 48 16 1 else s
  { s with out := s.out ++ [⟨dst, gang, ctx, 0x12, bytesOf mtag.toNat 4 ++ bytesOf op 1 ++ bytesOf reason 1, 0, false⟩] }

/-- The page that takes a gang command here: the gang page of a sub-gang that this module heads, or the module page of a
context bound to the gang; else the reason of the refusal. -/
def gangPage (s : State) (gang : BitVec 16) (n : CtxId) : Except Nat Page :=
  if (gangEntry s gang).isSome then (if gangOf s n == 0 then .error 2 else .ok (.gang n))
  else if gangOf s n == gang && gang != 0 then .ok (.module n)
  else if allCtx.any (fun m => gangOf s m == gang && gang != 0) then .error 2
  else .error 1

/-- A gang command arrives: inserted at its page, refused, or discarded for a context in reset (R439). -/
def takeGangCmd (s : State) (port : Nat) (m : GangCmdMsg) : State :=
  match gangPage s m.gang m.ctx with
  | .error r => refuseMsg s port m.src m.gang m.ctx m.mtag 0x10 r
  | .ok p =>
    let e := m.entry.take 64
    let refuse (s : State) : State := refuseMsg s port m.src m.gang m.ctx m.mtag 0x10 3
    let g := if pageKind p == 3 then m.gang else 0
    let note (s : State) : State := noteGang s m.src g m.ctx e
    if s.dupSeen.contains (m.src, m.mtag) then refuse s
    else if secondCopy s m.src g m.ctx e then refuse (note s)
    else if ctxState s m.ctx == 6 then s
    else { note s with
      dupSeen := s.dupSeen ++ [(m.src, m.mtag)],
      cmds := s.cmds ++ [⟨s.nextId, p, m.ctx, .remote m.src m.mtag m.gang, e, false, [], stOk, none, 0, 0⟩],
      nextId := s.nextId + 1 }

def execGangCmd (m : GangCmdMsg) (s : State) : Outcome State Fault Refusal := .next (powered s (takeGangCmd s (portTo s m.src) m))

/-- A member of a gang command has completed. -/
def memberDone (s : State) (mtag : BitVec 32) (status : Byte) (err : Word64) : State :=
  { s with cmds := s.cmds.map (fun g =>
      if g.members.contains mtag.toNat && pageKind g.page == 3 then
        { g with members := g.members.erase mtag.toNat, status := statusJoin g.status status,
                 err := if g.err == none && status != stOk then some err else g.err } else g) }

def execGangCpl (_src : BitVec 16) (mtag : BitVec 32) (status : Byte) (err : BitVec 64) (s : State) :
    Outcome State Fault Refusal :=
  .next (powered s (memberDone s mtag status err))

/-- The engine whose message a REFUSE answers: 0 the reduction's, 1 the dispatch's (R357). -/
def refusedEngine (op : Nat) : Option Nat :=
  if 0x20 ≤ op ∧ op ≤ 0x30 then some 0 else if 0x40 ≤ op ∧ op ≤ 0x43 then some 1 else none

/-- REFUSE: a gang command refused counts as that member's REFUSE; the reduction and dispatch engines count their refused messages,
and the member is then one that stays silent (R435; log entry 169). -/
def execRefuse (src : BitVec 16) (mtag : BitVec 32) (op _reason : Byte) (s : State) : Outcome State Fault Refusal :=
  .next (powered s (
    if op.toNat != 0x10 then
      match refusedEngine op.toNat with
      | some e => { s with refusals := s.refusals.set (fun _ => 0) e (s.refusals.get (fun _ => 0) e + 1) }
      | none => s
    else match s.cmds.find? (fun g => g.members.contains mtag.toNat && pageKind g.page == 3) with
      | none => s
      | some g => memberDone s mtag stRefuse (errWord stRefuse g.ctx (unitAddr 2 0 src) (entryTag g.entry))))

/-! ## Timebase alignment (R360, R361) -/

/-- NG.TB.UNTRUSTED: the module's own Timebase, or its parent's. -/
def showUntrusted (s : State) : State :=
  let u := fld s (modG 0x2000) 3 1 == 1 || (fld s aNgTb 0 4 < 8 && s.gov.parentUntrusted)
  let s := setFld s aNgTb 5 1 (if u then 1 else 0)
  if fld s aNgTb 0 4 == 8 then setFld s aNgTb 4 1 (if u then 0 else 1) else s

/-- The flags and hops a TIME flit carries, with its kind, number and times. -/
def timeBytes (s : State) (kind : Nat) (number t2 t3 : Nat) : List Byte :=
  let f := fld s aNgTb 4 1 + 2 * fld s aNgTb 5 1 + (if fld s aNgTb 0 4 == 8 then 4 else 0)
  bytesOf kind 1 ++ bytesOf f 1 ++ bytesOf (fld s aNgTb 8 8) 1 ++ bytesOf 0 5 ++ bytesOf number 8 ++ bytesOf t2 8 ++ bytesOf t3 8

/-- A TIME flit begins at the superframe boundary that it is stamped with; without room for it there is none in this exchange
(log entry 170). The boundary is what `mk` makes the payload from. -/
def sendTime (s : State) (p : Nat) (mk : Nat → List Byte) : State :=
  sendLink s p 2 (mk (boundaryAt s p (slotFor s p { hdrIdle with type := 2, op := 2 })))

/-- TIME_EXCHANGE: at the next multiple of 125 µs the child asks its parent; the exchange number is that multiple, and t1 the boundary
at which its request begins. -/
def execTimeExchange (s : State) : Outcome State Fault Refusal :=
  .next (powered s (
    let s := advanceTo s ((nowNs s / 125000 + 1) * 125000)
    let p := fld s aNgTb 0 4
    if 8 ≤ p || portState s p != 3 || !linkRoom s p then s
    else
      let k := nowNs s / 125000
      let t1 := boundaryAt s p (slotFor s p { hdrIdle with type := 2, op := 2 })
      sendTime { s with gov := { s.gov with exchange := some (BitVec.ofNat 64 k), exchangeAt := t1 } } p (fun _ => timeBytes s 0 k 0 0)))

/-- The offset of an exchange that began at t1, parent minus child, in 1/64 ns. -/
def offsetOf (t1 : Nat) (m : TimeMsg) : Int := (((m.t2.toNat : Int) - t1) - ((m.stamp.toNat : Int) - m.t3.toNat)) / 2

/-- The correction of the Timebase (R360), in whole ns: a step forward at first lock; half rate while it is ahead by more than 1 µs;
slewing after that. -/
def correctTime (s : State) (off : Int) (first : Bool) : State :=
  if first && 0 < off then setReg s aTbNow (BitVec.ofNat 64 (nowNs s + (off / 64).toNat))
  else
    let ahead := ((-off) / 64).toNat
    if 1000 < ahead then { s with gov := { s.gov with half := ahead - 1000, slew := -1000 } }
    else { s with gov := { s.gov with half := 0, slew := off.tdiv 64 } }

/-- A reply from the parent. -/
def takeReply (s : State) (m : TimeMsg) : State :=
  let off := offsetOf s.gov.exchangeAt m
  let clamped := max (-32768) (min 32767 off)
  let s := setFld s aNgTb 16 16 (clamped % 65536).toNat
  let s := setFld s aNgTb 8 8 (if m.root then 1 else min 255 (m.hops.toNat + 1))
  let s := correctTime s off (!s.gov.stepped)
  let goods := if -32 ≤ off ∧ off ≤ 32 then s.gov.goodOffsets + 1 else 0
  let s := { s with gov := { s.gov with exchange := none, stepped := true, parentUntrusted := m.untrusted, goodOffsets := goods } }
  let s := if off < -128 || 128 < off || m.untrusted then setFld s aNgTb 4 1 0
    else if 3 ≤ goods && m.locked then
      let s := setFld s aNgTb 4 1 1
      if fld s (modG 0x2000) 2 1 == 0 then setFld s (modG 0x2000) 3 1 0 else s
    else s
  showUntrusted s

/-- TIME: a request is answered with the times of its arrival and of the reply; a reply of the parent to the exchange in
progress corrects the Timebase. -/
def takeTime (s : State) (p : Nat) (m : TimeMsg) : State :=
  if portState s p != 3 then s
  else if !m.reply then
    if linkRoom s p then sendTime s p (fun t3 => timeBytes s 1 m.number.toNat m.stamp.toNat t3) else s
  else if fld s aNgTb 0 4 == p && s.gov.exchange == some m.number then takeReply s m
  else s

def execTime (port : BitVec 3) (m : TimeMsg) (s : State) : Outcome State Fault Refusal := .next (powered s (takeTime s port.toNat m))

/-! ## Training (R344, R346, R363, R397, R426) -/

/-- Ports train only after READY, and not in the recovery personality or in quarantine. -/
def fabricOn (s : State) : Bool := fld s aLatch 0 2 == 1

/-- What training settled is recorded; NG.EQp_l.SYM_ERR counts on (R364). -/
def recordTraining (s : State) (p : Nat) (rep : TrainReport) : State :=
  let s := setFld s (aPort p) 16 12 rep.rtt.toNat
  let s := if p == 8 then setFld (setFld s (aPort 8) 28 8 rep.polarity.toNat) (aPort 8) 36 1 (if rep.reversed then 1 else 0)
    else setFld (setFld s (aPort p) 28 12 rep.polarity.toNat) (aPort p) 40 1 (if rep.reversed then 1 else 0)
  let s := if p == 8 then s
    else (rep.eq.zipIdx.take 12).foldl (fun (s : State) (e : BitVec 64 × Nat) => match blockAt (ngA (0x1000 + 0x80 * p + 8 * e.2)) with
      | some b =>
        let a := ngA (0x1000 + 0x80 * p + 8 * e.2)
        setReg s a (b.fields.foldl (fun v f => if f.lo < 32 then putF v f.lo f.width (getF e.1 f.lo f.width) else v) (reg s a))
      | none => s) s
  if rep.retrain then satAdd s (aPort p) 8 8 1 else s

/-- A link begins anew: sequence numbers, credits, messages in part, and the flits not acknowledged. Flits that it received and the
module still holds stay (log 55). -/
def freshLink (s : State) (p : Nat) : State :=
  let x := portOf s p
  setPort s p { x with
    expect := 0, lastSeq := 4095, recovery := false, sendSeq := 0, sentTotal := 0, replay := [], credits := [], linkWait := [],
    authTimes := [], seqTimes := [], msgs := [], authLock := false, trained := true, saved := none }

/-- What the first training of a port after a start is (R426): full after a cold start; after a warm one the report's: none where the
PHY stayed locked through the chip reset, a fast retrain from the settings of NG.EQp_l, or full training where that failed. No
first training counts as a retrain. -/
def firstTraining (s : State) (p : Nat) (rep : TrainReport) : State :=
  if rep.locked && !s.sup.cold then s else recordTraining s p { rep with retrain := false }

/-- PORT_TRAINING: a retrain of a keyed port begins a new key epoch, announces credits and replays; a retrain that keys again keeps
the link's sequence; any other training leads to KEYING of a link that begins anew. Lintel's own training of a port disabled under R362 attests its partner again. -/
def execPortTraining (port : BitVec 3) (rep : TrainReport) (s : State) : Outcome State Fault Refusal :=
  .next (powered s (
    let p := port.toNat
    if !fabricOn s || fld s (aPort p) 3 1 == 1 then s
    else if dimOne s p || !rep.lanesOk then setPortState s p 0
    else
      let first := !(portOf s p).trained
      let s := if first then firstTraining s p rep else recordTraining s p rep
      let x := portOf s p
      if !first && rep.retrain && !x.secret.isEmpty && !x.authLock then
        let s := setPortState (setPort s p { newEpoch s x (x.epoch + 1) with recovery := false, credits := [] }) p 3
        let s := x.replay.foldl (fun s f => putTx s p f) s
        drain (announce s p)
      else if !first && rep.retrain && !x.authLock then startKeying (setPort s p (saveLink x)) p
      else startKeying (freshLink s p) p))

/-- The host's link trains: in step 8 of a start, and while Latch serves (R424, R430). -/
def hostTrains (s : State) : Bool :=
  s.sup.inputOn && fld s aRstStatus 9 1 == 0 && (latchServes s || (s.sup.running && fld s aRstStatus 3 4 == 8))

/-- A Cersin training begins a link anew, or keeps the sequence of one that retrains (R351, R363); the first after a start is full
or, after a warm one, a fast retrain, and counts as no retrain (R424). -/
def hostLink (s : State) (rep : TrainReport) : State :=
  if rep.retrain && (portOf s 8).trained then
    let s := recordTraining s 8 rep
    setPort s 8 (saveLink (portOf s 8))
  else freshLink (recordTraining s 8 { rep with retrain := false }) 8

/-- CERSIN_TRAINING (R392, R394): the module sends a fresh encapsulation key; sessions begin their next epoch; the CQ allowances are
announced anew. -/
def execCersinTraining (rep : TrainReport) (s : State) : Outcome State Fault Refusal :=
  .next (
    if !hostTrains s then s
    else if !rep.lanesOk then setPortState s 8 0
    else
      let s := setPortState (hostLink s rep) 8 2
      let s := setPort s 8 (newEpoch s (portOf s 8) ((portOf s 8).epoch + 1))
      let ss := s.latch.sessions.map (fun x => if x.waits == 0 then { x with epoch := x.epoch + 1, txBase := 0, rxBase := 0 } else x)
      let s := { s with cqCredit := [], latch := { s.latch with sessions := ss, mgmtKey := [], headerKey := [], epochBase := [] } }
      if !entropyOk s then s
      else
        let (seed, s) := takeRandom s 64
        sendFrags { s with latch := { s.latch with kexSeed := seed } } 8 7 (Config.kemPublic seed))

/-- NO_CODEWORD_TIMEOUT (R362): the port is DOWN until it trains. -/
def execNoCodewordTimeout (port : BitVec 4) (s : State) : Outcome State Fault Refusal :=
  .next (powered s (
    let p := port.toNat
    if 8 < p || portState s p == 0 || portState s p == 4 then s else drain (setPortState s p 0)))

end Sys2Proof.Machine
end

