-- ==== Sys2Proof/Machine/Clocks.lean ====
section
/-! DEFINITION. Frequency steps (R411 to R414), reference loss (R405, R406), the hardware power limits (R421) and the bandwidth
windows (R450). -/

namespace Sys2Proof.Machine

open Host (Outcome)

def aTelem : Nat := modG 0x2300
def aCeil : Nat := modG 0x2308
def aDom (n : Nat) : Nat := modG (0x2400 + 8 * n)
def aPwrCtx (n : CtxId) : Nat := modG (0x2480 + 8 * n.toNat)

def inHoldover (s : State) : Bool := fld s aClkStatus 2 1 == 1
def switchPending (s : State) : Bool := fld s aClkStatus 4 1 == 1

def setChange (s : State) (c : Option ClkChange) : State := { s with gov := { s.gov with change := c } }

/-- The change in flight ends without effect, or with it. -/
def endChange (s : State) : State :=
  setFld (setFld { setChange s none with preSwitch := false } aClkStatus 4 1 0) aClkStatus 12 3 (presentStep s)

def completeChange (s : State) : State :=
  let s := endChange s
  { s with gov := { s.gov with lastDone := some (nowNs s / 500000) } }

/-- Tick k of R411: the idle PLL is retuned, and VCORE ramps up for a faster step at 1 mV per µs. -/
def beginChange (s : State) (target : Nat) (thermal : Bool) : State :=
  let ready := if target < presentStep s then nowNs s + (stepMv s target - fld s aClkStatus 16 12) * 1000 else nowNs s
  setFld (setChange s (some ⟨target, s.tick, 0, ready, thermal⟩)) aClkStatus 12 3 target

/-- CLK.STATUS.VCORE_MV shows the present VCORE. -/
def showVcore (s : State) : State := setFld s aClkStatus 16 12 (vcoreNow s)

/-- Ticks k + 1 and k + 2 of R411. -/
def tickChange (s : State) (locked : Bool) : State :=
  match s.gov.change with
  | none => s
  | some c =>
    let s := showVcore s
    if c.phase == 0 then
      if inHoldover s then endChange s
      else if s.tick ≤ c.tick || nowNs s < c.at' || !locked then s
      else
        setFld (setChange s (some { c with phase := 1, at' := nowNs s + 20000 })) aClkStatus 4 1 1
    else if c.phase == 2 && c.tick + 2 ≤ s.tick then
      if inHoldover s then endChange s else
      setChange s (some { c with phase := 3, at' := nowNs s + (fld s aClkStatus 16 12 - stepMv s c.target) * 1000 })
    else s

/-- The skew that a switch leaves at a crossing: at most one cycle, how much and at which side the spec leaves open (R412). -/
def switchSkew (s : State) : State :=
  (List.range 15).foldl (fun (s : State) r =>
    let (f, s) := takeFree s
    let k := 2 * r + f.toNat % 2
    { s with skew := s.skew.set (fun _ => 0) k (s.skew.get (fun _ => 0) k + f.toNat / 2 % 9) }) s

/-- PLL_SWITCH: at Timebase T. -/
def execPllSwitch (s : State) : Outcome State Fault Refusal :=
  .next (match s.gov.change with
    | none => s
    | some c =>
      if c.phase != 1 then s
      else
        let s := advanceTo s c.at'
        if inHoldover s then endChange s
        else
          let faster := c.target < presentStep s
          let s := { setFld (setFld s aClkStatus 8 3 c.target) aClkStatus 0 1 (1 - fld s aClkStatus 0 1) with preSwitch := false }
          let s := switchSkew (setFld s aClkStatus 4 1 0)
          if faster then completeChange s else setChange s (some { c with phase := 2 }))

/-- VCORE_SETTLED: the ramp down after tick k + 2 ends. -/
def execVcoreSettled (s : State) : Outcome State Fault Refusal :=
  .next (match s.gov.change with
    | none => s
    | some c =>
      if c.phase != 3 then s
      else
        let s := advanceTo s c.at'
        completeChange (setFld s aClkStatus 16 12 (stepMv s c.target)))

/-- PLL_LOCK_TIMEOUT: not locked by tick k + 4. -/
def execPllLockTimeout (s : State) : Outcome State Fault Refusal :=
  .next (match s.gov.change with
    | none => s
    | some c =>
      if c.phase != 0 || s.tick < c.tick + 4 then s
      else
        let s := setFld (endChange s) aClkStatus 1 1 1
        recordEv s 3 0xFF (unitModule s) (reg s aClkStatus) 0)

/-- A ring region may take another divider: it forms a domain alone or has no slot owner (R413). -/
def regionFree (s : State) (r : RingId) : Bool :=
  domainRings s (headOf s r) == [r] || fld s aShtOwned r.toNat 1 == 0

/-- The clock of a ring's region stops for n cycles of its old divider, and the ring holds (R413): its domain's cycles are charged to
power hold. -/
def regionStop (s : State) (r : RingId) (n div : Nat) : State :=
  let k := r.toNat
  let until' := nowNs s + (n * 10 * regionDiv s k + rootFreq s - 1) / rootFreq s
  let s := { s with
    debt := s.debt.set (fun _ => 0) k (debtOf s k + n * 8 * regionDiv s k / divOfCode div),
    gov := { s.gov with stopped := s.gov.stopped.filter (fun e => e.1 != r) ++ [(r, until')] } }
  charge (headOf s r) s (2, n)

/-- A region-level change is made, with a stop of 48 cycles or less, which the spec leaves open. -/
def regionChange (s : State) (r : RingId) (div : Nat) : State :=
  let (f, s) := takeFree s
  skewClear (setFld (regionStop s r (f.toNat % 49) div) (aRegion r.toNat) 0 2 div) [r]

/-- A region-level change may be made now: on a tick, with no other change in flight (R413, R414). -/
def onTick (s : State) : Bool := nowNs s == s.tick * 500000 && s.gov.change.isNone && s.gov.stopped.all (fun e => decide (e.2 ≤ nowNs s))

/-- REGION_CHANGE (R413, R414): for a ring that may not take it, it is logged; it is made on a tick, or waits for the next one. -/
def execRegionChange (r : RingId) (div : BitVec 2) (s : State) : Outcome State Fault Refusal :=
  .next (powered s (
    if !regionFree s r then
      recordEv s 0xE 0xFF (unitAddr 1 r.toNat (nodeId s)) (BitVec.ofNat 64 r.toNat) (BitVec.ofNat 64 (divOfCode div.toNat))
    else if onTick s then regionChange s r div.toNat
    else { s with gov := { s.gov with regionNext := s.gov.regionNext.filter (fun e => e.1 != r) ++ [(r, div)] } }))

/-- PRE_SWITCH_SKEW_HOLD (R412). -/
def execPreSwitchSkewHold (s : State) : Outcome State Fault Refusal :=
  .next (match s.gov.change with
    | none => s
    | some c => if c.phase != 1 then s else preSwitchAll (advanceTo s (c.at' - 50)))

/-! ## Reference loss and holdover -/

/-- Set bits of the alert cause byte (R468). -/
def alertSet (s : State) (bit : Nat) : State := { s with sup := { s.sup with alert := s.sup.alert ||| BitVec.ofNat 8 (2 ^ bit) } }

/-- REF_LOSS (R405). -/
def execRefLoss (s : State) : Outcome State Fault Refusal :=
  .next (powered s (
    let s := satAdd (setFld (setFld s aClkStatus 2 1 1) aClkStatus 3 1 1) aClkStatus 32 16 1
    let s := showUntrusted { s with gov := { s.gov with refValidAt := none, goodOffsets := 0 } }
    alertSet (recordEv s 2 0xFF (unitModule s) (reg s aClkStatus) 0) 5))

/-- REF_RESTORE (R406): REFCLK is within its specification from now on; the first tick a millisecond later switches back. -/
def execRefRestore (s : State) : Outcome State Fault Refusal :=
  .next (powered s (if inHoldover s && s.gov.refValidAt.isNone then { s with gov := { s.gov with refValidAt := some (nowNs s) } } else s))

/-- The tick's part of the restoration. -/
def tickRestore (s : State) : State :=
  match s.gov.refValidAt with
  | none => s
  | some t =>
    if nowNs s < t + 1000000 then s
    else
      let s := setFld { s with gov := { s.gov with refValidAt := none } } aClkStatus 2 1 0
      showUntrusted (if fld s aNgTb 0 4 == 8 then setFld s aClkStatus 3 1 0 else s)

/-! ## Hardware limits (R421) -/

def heads (s : State) : List RingId := allRings.filter (fun r => headOf s r == r && !isOos s r)

def holdAll (s : State) (src : Nat) : State := (heads s).foldl (fun s r => shutRaise s r 2 src) s
def dropAll (s : State) (src : Nat) : State := allRings.foldl (fun s r => shutDrop s r (fun x => x.cause == 2 && x.src == src)) s

/-- FAST_TRIP. -/
def execFastTrip (inputW : Nat) (s : State) : Outcome State Fault Refusal :=
  .next (powered s (
    if 4 * inputW ≤ 5 * fld s aCeil 0 12 then s
    else
      let s := setFld (holdAll s srcTrip) aTelem 36 1 1
      alertSet (recordEv s 0xF 0xFF (unitModule s) (reg s aTelem) 0) 3))

/-- CRIT. -/
def execCrit (tempC : Nat) (s : State) : Outcome State Fault Refusal :=
  .next (powered s (if tempC < 110 then s else alertSet (setFld (holdAll s srcCrit) aTelem 38 1 1) 2))

/-! ## Bandwidth windows (R450) -/

/-- BANDWIDTH_WINDOW_END: the first boundary after a write of WINDOW only starts the counting. -/
def execBandwidthWindowEnd (s : State) : Outcome State Fault Refusal :=
  .next (powered s (
    let w := max 1 (fld s (modG 0x4200) 0 32)
    let s := advanceTo s ((nowNs s / w + 1) * w)
    if s.bwWait then { s with bw := [], bwWait := false }
    else
      let q := (fld s (modG 0x4200) 32 32 + 1) % 2 ^ 32
      let latch (s : State) (p : Nat) : State :=
        let v (dir : Nat) : Word64 := BitVec.ofNat 64 (s.bw.get (fun _ => 0) (p * 2 + dir) % 2 ^ 48 + q % 2 ^ 16 * 2 ^ 48)
        setReg (setReg s (modG (0x4800 + p * 0x10)) (v 0)) (modG (0x4808 + p * 0x10)) (v 1)
      { (List.range 34).foldl latch (setFld s (modG 0x4200) 32 32 q) with bw := [] }))

end Sys2Proof.Machine
end

