-- ==== Sys2Proof/Machine/Repair.lean ====
section
/-! DEFINITION. Rows mapped out and tiles fenced in the field (R66 to R68, R255 to R257). -/

namespace Sys2Proof.Machine

open Host (Outcome)

/-- A row as a number: tile × 16,384 + bank × 1,024 + row. -/
def rowKey (t : TileId) (bank row : Nat) : Nat := t.toNat * 16384 + bank * 1024 + row

/-- The spare has failed, by BIST or since. -/
def spareFailed (s : State) (t : TileId) (bank e : Nat) : Bool :=
  s.flash.rows.any (fun r => r.1 == t && r.2.1 == bank && r.2.2.1 == 1024 + e)

/-- The lowest spare of a bank that maps nothing and has not failed. -/
def freeSpare (s : State) (t : TileId) (bank : Nat) : Option Nat :=
  (List.range 16).find? (fun e => fld s (aRmap t bank e) 0 1 == 0 && !spareFailed s t bank e)

def setRmap (s : State) (t : TileId) (bank e source row : Nat) : State :=
  setReg s (aRmap t bank e) (BitVec.ofNat 64 (1 + source * 2 + row * 16))

/-- The key of byte i of a physical row of a bank. -/
def physKey (t : TileId) (bank row i : Nat) : Nat := t.toNat * 2 ^ 22 + row * 2048 + bank * 128 + i

/-- A spare takes a row's contents: a granule that could not be corrected is poisoned there (R67). -/
def moveRow (s : State) (t : TileId) (bank src dst : Nat) : State :=
  let sp := (List.range 128).foldl (fun m i =>
    SMap.set spDef (SMap.set spDef m (physKey t bank dst i) (SMap.get spDef m (physKey t bank src i))) (physKey t bank src i) 0) s.sp
  let marks := (List.range 4).foldl (fun m g =>
    let k := SMap.get markDef m (physKey t bank src (32 * g) / 32)
    SMap.set markDef (SMap.set markDef m (physKey t bank dst (32 * g) / 32) (if k == 2 then 1 else if k == 1 then 1 else 0))
      (physKey t bank src (32 * g) / 32) 0) s.spMark
  { s with sp := sp, spMark := marks }

/-- A tile to be fenced at the next partition reset of its ring or the next start (R68, R255); the flash holds it, so that a
start of either kind finds it (DESIGN CHOICE, log entry 128). -/
def askFence (s : State) (t : TileId) : State :=
  if s.flash.asked.contains t then s else { s with flash := { s.flash with asked := s.flash.asked ++ [t] } }

/-- The spare in use for a row. -/
def spareOf (s : State) (t : TileId) (bank row : Nat) : Option Nat :=
  (List.range 16).find? (fun e => fld s (aRmap t bank e) 0 1 == 1 && fld s (aRmap t bank e) 4 10 == row)

/-- The flash's record of a field map-out: the row, and the spare that has failed with it. -/
def recordMapOut (s : State) (t : TileId) (bank row : Nat) : State :=
  let fails : List (TileId × Nat × Nat × Nat) := match spareOf s t bank row with
    | some o => [(t, bank, 1024 + o, 2)]
    | none => []
  let new := (fails ++ [(t, bank, row, 2)]).filter (fun r => !s.flash.rows.contains r)
  { s with flash := { s.flash with rows := s.flash.rows ++ new } }

/-- Map a row out (R67): the flash first, then the row map; without a free spare the tile is reported for fencing. -/
def mapOut (s : State) (t : TileId) (bank row : Nat) : State :=
  let old := spareOf s t bank row
  match freeSpare s t bank with
  | none => askFence s t
  | some e =>
    let src := match old with | some o => 1024 + o | none => row
    let s := moveRow (recordMapOut s t bank row) t bank src (1024 + e)
    let s := match old with | some o => setReg s (aRmap t bank o) 0 | none => s
    recordEv (setRmap s t bank e 2 row) 0xA 0xFF (unitTile s t) (BitVec.ofNat 64 (bank + row * 65536)) 2

/-- The task slot whose region holds a row, if any. -/
def rowTask (s : State) (t : TileId) (row : Nat) : Option Nat :=
  (List.range 8).find? (fun k => taskValid s t k && fld s (aBase t k) 11 10 ≤ row && row < fld s (aBound t k) 11 11)

def keyTile (k : Nat) : TileId := BitVec.ofNat 9 (k / 16384)
def mapKey (s : State) (k : Nat) : State := mapOut s (keyTile k) (k / 1024 % 16) (k % 1024)

/-- Map out a row at once where it lies outside every task region, or later: the flash's record of it is written at once, so
that the next start of either kind maps it (R67; DESIGN CHOICE, log entry 128). -/
def mapOrDefer (s : State) (k : Nat) (ue : Bool) : State :=
  if (rowTask s (keyTile k) (k % 1024)).isNone then mapKey s k
  else
    let d := s.gov.deferred.filter (fun e => e.1 != k) ++ [(k, ue || s.gov.deferred.any (fun e => e.1 == k && e.2))]
    recordMapOut { s with gov := { s.gov with deferred := d } } (keyTile k) (k / 1024 % 16) (k % 1024)

/-- At a tick: rows with 8 corrected errors in 1,000 ticks, and rows with an uncorrectable one (R67). -/
def tickRows (s : State) : State :=
  let ce := s.gov.eccTimes.map (fun e => (e.1, e.2.filter (fun t => s.tick < t + 1000)))
  let due := (ce.filter (fun e => 8 ≤ e.2.length)).map (fun e => e.1)
  let ues := s.gov.ueRows
  let keep := ce.filter (fun e => 0 < e.2.length && e.2.length < 8)
  let s := { s with gov := { s.gov with eccTimes := keep, ueRows := [] } }
  let s := due.foldl (fun s k => mapOrDefer s k false) s
  ues.foldl (fun s k => mapOrDefer s k true) s

/-- Take the deferred map-outs that `p` selects. -/
def takeDeferred (s : State) (p : Nat × Bool → Bool) : State :=
  let now := s.gov.deferred.filter p
  now.foldl (fun s e => mapKey s e.1) { s with gov := { s.gov with deferred := s.gov.deferred.filter (fun e => !p e) } }

/-- ROW_MAP_OUT_DEFERRED (R67): the uncorrectable rows in the regions of a context that is not RUNNING; of one that is not
RUNNING already, when the error comes, at once (DESIGN CHOICE, log entry 129). -/
def execRowMapOutDeferred (n : CtxId) (s : State) : Outcome State Fault Refusal :=
  .next (
    if ctxState s n == 3 then s
    else takeDeferred s (fun e => e.2 && (match rowTask s (keyTile e.1) (e.1 % 1024) with
      | some k => taskCtx s (keyTile e.1) k == n
      | none => true)))

/-! ## Fences and rings out of service -/

def enabledIn (s : State) (r : RingId) : Nat := ((ringTiles r).filter (fun t => !isFenced s t)).length

/-- ARR.RING.USES of the tiles of a ring. -/
def showUses (s : State) (r : RingId) : State :=
  (ringTiles r).foldl (fun s t => setFld s (aArrRing t) 24 6 (enabledIn s r)) s

def fenceBit (s : State) (t : TileId) : State := setFld s (aFence (t.toNat / 64)) (t.toNat % 64) 1 1

/-- Fence one tile in the field, or put its ring out of service where too few would be left (R255, R256). -/
def fenceTile (s : State) (t : TileId) : State :=
  let r := ringOf t
  if isFenced s t then s
  else if enabledIn s r ≤ 30 then
    if s.flash.oos.contains r then s else { s with flash := { s.flash with oos := s.flash.oos ++ [r] } }
  else
    let s := fenceBit { s with flash := { s.flash with fences := s.flash.fences ++ [t] } } t
    let s := showUses (makeImage s) r
    recordEv s 0xB 0xFF (unitTile s t) (BitVec.ofNat 64 t.toNat) (reg s aFingerprint)

/-- Fence the tiles asked for that `p` selects. -/
def fenceAsked (s : State) (p : TileId → Bool) : State :=
  (s.flash.asked.filter p).foldl fenceTile { s with flash := { s.flash with asked := s.flash.asked.filter (fun t => !p t) } }

/-- Put a ring that the flash records out of service (R257). -/
def oosRing (s : State) (r : RingId) : State :=
  if !s.flash.oos.contains r || isOos s r then s
  else
    let s := makeImage (setFld s aShtOwned (16 + r.toNat) 1 1)
    recordEv s 0xC 0xFF (unitAddr 1 r.toNat (nodeId s)) (BitVec.ofNat 64 r.toNat) (reg s aFingerprint)

/-- What waited for the partition reset of a ring: map-outs, fences, and its going out of service. -/
def applyWaiting (s : State) (r : RingId) : State :=
  let s := takeDeferred s (fun e => ringOf (keyTile e.1) == r)
  oosRing (fenceAsked s (fun t => ringOf t == r)) r

end Sys2Proof.Machine
end

