-- ==== Sys2Proof/Machine/Starts.lean ====
section
/-! DEFINITION. Starts (R424 to R431, R463): their steps, failures, quarantine, the recovery personality, and the image
operations of the management pair. -/

namespace Sys2Proof.Machine

open Host (Outcome)

def aRstLast : Nat := modG 0x3008
def startStep (s : State) : Nat := fld s aRstStatus 3 4
def quarantined (s : State) : Bool := fld s aRstStatus 9 1 == 1

/-- Before a chip reset: one attempt to send the aborts of every bucket and to write PHASE 3 to every completion word. -/
def informPeers (s : State) : State :=
  let s := allCtx.foldl (fun s n => abortBatch (abortBuckets s n 2) n) s
  s.out.foldl (fun s m => if m.dst == nodeId s then s else injectMsg m s) { s with out := [] }

/-- What a warm start keeps of the ports: the settings that their PHYs trained to, without the counts (R364, R426). -/
def keepPhy (r s : State) : State :=
  (List.range 8).foldl (fun (r : State) p =>
    let r := setFld r (aPort p) 16 25 (fld s (aPort p) 16 25)
    (List.range 12).foldl (fun r l => setFld r (ngA (0x1000 + 0x80 * p + 8 * l)) 0 32 (fld s (ngA (0x1000 + 0x80 * p + 8 * l)) 0 32)) r) r

/-- A start begins at step 1: registers, queues and units return to their reset values; the flash, the fuses, what the start
supervisor holds and, on a warm start, the Timebase and the memories until step 6, stay. -/
def beginStart (s : State) (cold : Bool) : State :=
  let s := if cold then s else takeDeferred s (fun _ => true)
  let tb : Word64 := if cold then 0 else reg s aTbNow
  let st := fld s aRstStatus 7 2 * 2 ^ 7 + fld s aRstStatus 9 1 * 2 ^ 9
  let r := State.reset
  let r := if cold then r else { keepPhy r s with
    sp := s.sp, spMark := s.spMark, acc := s.acc, stat := s.stat, statMeta := s.statMeta, imem := s.imem, tslots := s.tslots,
    entryPc := s.entryPc, tokens := s.tokens, curves := s.curves, curveOwned := s.curveOwned, tables := s.tables, dram := s.dram,
    tagDiff := s.tagDiff, groups := s.groups, ptes := s.ptes, ctxInfo := s.ctxInfo, gangs := s.gangs, tick := s.tick }
  let r := { r with
    pending := s.pending, freeCtr := s.freeCtr, nextId := s.nextId, cqOut := s.cqOut, tx := s.tx,
    evs := s.evs, otp := s.otp, flash := s.flash,
    sup := { s.sup with running := true, cold := cold, stepAt := tb.toNat, retryAt := none, normalTicks := 0, cdcErr := [],
                        startAfter := none } }
  setReg (setReg r aTbNow tb) aRstStatus
    (BitVec.ofNat 64 ((if cold then 0 else 4) + 1 * 2 ^ 3 + st + s.flash.knownGood * 2 ^ 11))

/-- A warm start is requested (R428): ignored in quarantine; one asked for during a start begins that start again. Either is a level 4
that RST.LAST records (R437). -/
def warmStart (s : State) (cause : Nat) : State :=
  if !s.sup.inputOn || quarantined s then s
  else
    let cold := s.sup.running && s.sup.cold
    let s := resetRec (if s.sup.running then s else informPeers s) 4 0 cause none
    setReg (beginStart s cold) aRstLast (reg s aRstLast)

/-- CHIP_RESET. -/
def execChipReset (s : State) : Outcome State Fault Refusal := .next (powered s (warmStart s 0))

/-- Every SerDes lane is off: no port carries anything. -/
def lanesOff (s : State) : State := (List.range 9).foldl (fun s p => setPortState s p 0) s

/-- A start fails (R428). The third failure is the quarantine. -/
def failStart (s : State) : State :=
  let fails := min 3 (fld s aRstStatus 7 2 + 1)
  let s := setFld s aRstStatus 7 2 fails
  let s := setFld s aLatch 0 2 3
  let s := alertSet (recordEv s 6 0xFF (unitModule s) (reg s aRstStatus) (BitVec.ofNat 64 (startStep s))) 4
  let s := { s with sup := { s.sup with running := false, retryAt := if fails == 3 then none else some (nowNs s + 100000000) } }
  if fails == 3 then lanesOff (alertSet (setFld s aRstStatus 9 1 1) 0) else s

/-! ## The steps (R385, R424, R425) -/

/-- Step 2: the fuses, all of which pass their check, are read; the entropy start-up test. -/
def stepLatch (s : State) (rep : StartReport) : State :=
  let s := showSlots s
  let s := setReg s aSvn (BitVec.ofNat 64 (s.otp.svnAster + s.otp.svnYarrow * 2 ^ 8 + s.otp.svnTansy * 2 ^ 16))
  if rep.entropyOk then setFld s aLatch 2 1 1 else entropyFail s

def zeros32 : List Byte := List.replicate 32 0

/-! ## Images (R386, R387, R429) -/

/-- The types that an image's signature may have, by their numbers in SP 800-208: LMS_SHA256_M32_H5 to _H25 are 5 to 9, and
LMOTS_SHA256_N32_W1 to _W8 are 1 to 4 (PRESUMED, log entry 144). It has 1 to 3 levels and a key of 56 B. -/
def sigTypesOk (g : ImageSig) : Bool :=
  decide (1 ≤ g.lms.length ∧ g.lms.length ≤ 3) && g.ots.length == g.lms.length && g.lms.all (fun t => decide (5 ≤ t ∧ t ≤ 9)) &&
    g.ots.all (fun t => decide (1 ≤ t ∧ t ≤ 4)) && g.pub.length == 56

/-- The hash is an unrevoked vendor key's. -/
def vendorKey (s : State) (h : List Byte) : Bool :=
  (List.range 4).any (fun k => !s.otp.vendorRevoke.getLsbD k && Config.vendorHash k == h)

/-- A signature over a digest holds under a key whose hash is accepted. -/
def sigOk (keyOk : List Byte → Bool) (digest : List Byte) (g : ImageSig) : Bool :=
  sigTypesOk g && keyOk (sha256 g.pub) && Config.hssVerify g digest

/-- An image is accepted (R386): the vendor's signature holds, and the owner's too where an owner key is programmed and not
revoked. -/
def imageOk (s : State) (im : Image) : Bool :=
  sigOk (vendorKey s) im.body im.vendor && (!(List.range 3).any (slotLive s) || im.owner.any (sigOk (ownerKey s) im.body))

/-- The OTP counter of image k. -/
def svnOf (s : State) (k : Nat) : Nat := [s.otp.svnAster, s.otp.svnYarrow, s.otp.svnTansy].getD k 0

/-- An image's SVN lies in its range and is not below its counter (R387). -/
def svnOk (s : State) (k : Nat) (im : Image) : Bool := im.svn.toNat ≤ 64 && svnOf s k ≤ im.svn.toNat

/-- An image admits a value of a KIND: an entry of its list has that KIND in byte 0, and the value lies within MIN in bytes 4 to 7 and
MAX in bytes 8 to 11 (R429). -/
def admits (im : Image) (kind v : Nat) : Bool :=
  im.compat.any (fun e => e.length == 12 && fieldAt e 0 1 == kind && fieldAt e 4 4 ≤ v && v ≤ fieldAt e 8 4)

/-- The three images of a set are compatible: KIND 0 is the stepping, 1 to 3 the images. -/
def compatible (b : BankSet) : Bool :=
  (List.range 3).all (fun k => decide (1 ≤ (b.image k).compat.length ∧ (b.image k).compat.length ≤ 16) &&
    admits (b.image k) 0 Config.stepping.toNat &&
    (List.range 3).all (fun i => i == k || admits (b.image k) (i + 1) (b.image i).version.toNat))

/-- Why image k of a set fails, as event 0x07 numbers it: 1 verification, 2 SVN. -/
def imageFails (s : State) (b : BankSet) (k : Nat) : Option Nat :=
  if !imageOk s (b.image k) then some 1 else if !svnOk s k (b.image k) then some 2 else none

/-- Why a set whose Aster runs fails: its Yarrow, its Tansy, or 3 compatibility. -/
def setFails (s : State) (b : BankSet) : Option Nat :=
  (imageFails s b 1).or ((imageFails s b 2).or (if compatible b then none else some 3))

/-- Aster runs: it revokes the vendor keys that it names, and takes a fresh signing reservation (R382, R385 step 5). -/
def runAster (s : State) (b : BankSet) (resOk : Bool) : State :=
  stepReserve { s with otp := { s.otp with vendorRevoke := s.otp.vendorRevoke ||| (b.image 0).revokes } } resOk

/-- Try the set of a bank (R385 steps 3 to 7): the reason why it fails, or none. -/
def trySet (s : State) (bank : Nat) (resOk : Bool) : State × Option Nat :=
  let b := imagesOf s bank
  match imageFails s b 0 with
  | some r => (s, some r)
  | none =>
    let s := runAster s b resOk
    (s, setFails s b)

/-- The firmware of a bank runs: its measurements, and what Yarrow loads. -/
def runBank (s : State) (b : Nat) : State :=
  let im := imagesOf s b
  let s := setFld s aRstStatus 10 1 b
  let s := (List.range 3).foldl (fun s m => setMeas s m (extend zeros32 (im.image m).digest)) s
  let s := (List.range 8).foldl (fun s k => setReg s (aClkStep k) (Config.clkStep k)) s
  let last := ((List.range 8).filter (fun k => fld s (aClkStep k) 0 1 == 1)).foldl (fun _ k => k) 0
  let s := setFld (setFld s aClkCtl 4 3 last) aClkStatus 16 12 (stepMv s 0)
  let s := (List.range 8).foldl (fun s k => setReg s (aMemPrio k) (BitVec.ofNat 64 ((if k == 0 then 1 else 2 ^ (k - 1)) + 8192 * 2 ^ 8))) s
  setReg s (casA 0x1000) (BitVec.ofNat 64 (im.image 2).version.toNat)

/-- A firmware set is refused. -/
def refuseSet (s : State) (b why : Nat) : State :=
  recordEv s 7 0xFF (unitModule s) (BitVec.ofNat 64 b) (BitVec.ofNat 64 why)

/-- The management pair serves: CSN.QP63 reads ENABLED and MGMT (R379). The host's link comes up by its own training and exchange
(R392). -/
def hostUp (s : State) : State := setFld s (aPair 63) 0 4 9

/-- The recovery personality (R430): it counts as a start that has served. Latch ROM signs once it has taken a reservation before
the first signature; where the counter cannot be read and confirmed it signs nothing. -/
def toRecoveryMode (s : State) (resOk : Bool) : State :=
  let s := setFld { s with latch := { s.latch with resDue := resOk } } aLatch 3 1 (if resOk then 1 else 0)
  let s := setFld (setFld (setFld s aLatch 0 2 2) aRstStatus 0 2 3) aRstStatus 7 2 0
  hostUp { s with sup := { s.sup with running := false } }

/-- Step 3: the set is chosen: the active bank's, else the known-good bank's, else the recovery personality (R429). -/
def stepFirmware (s : State) (rep : StartReport) : State × Bool :=
  let a := s.flash.active
  let k := s.flash.knownGood
  match trySet s a rep.reservationOk with
  | (s, none) => (runBank s a, true)
  | (s, some r) =>
    let s := refuseSet s a r
    if k == a then (toRecoveryMode s rep.reservationOk, false)
    else match trySet s k rep.reservationOk with
      | (s, none) => (runBank s k, true)
      | (s, some r) => (toRecoveryMode (refuseSet s k r) rep.reservationOk, false)

/-- A row of a bank takes the lowest free spare, unless one maps it already; without one its tile is to be fenced. -/
def mapRowAt (s : State) (t : TileId) (b row source : Nat) : State :=
  if 1024 ≤ row || (spareOf s t b row).isSome then s
  else match freeSpare s t b with
    | some e => setRmap s t b e source row
    | none => askFence s t

/-- The rows of wafer test of one tile whose spare has failed, or has not. -/
def waferRows (s : State) (t : TileId) (failed : Bool) : List (Nat × Nat × Nat) :=
  (List.range 256).filterMap (fun i => match Config.waferRow t.toNat (i / 16) (i % 16) with
    | some row => if spareFailed s t (i / 16) (i % 16) == failed then some (i / 16, i % 16, row) else none
    | none => none)

/-- The row map of wafer test and of the flash's record. A spare that has failed is never used: its row takes another (R66). -/
def loadRows (s : State) : State :=
  let s := allTiles.foldl (fun s t => (waferRows s t false).foldl (fun s w => setRmap s t w.1 w.2.1 0 w.2.2) s) s
  let s := allTiles.foldl (fun s t => (waferRows s t true).foldl (fun s w => mapRowAt s t w.1 w.2.2 0) s) s
  s.flash.rows.foldl (fun (s : State) (r : TileId × Nat × Nat × Nat) => mapRowAt s r.1 r.2.1 r.2.2.1 r.2.2.2) s

/-- Step 4: BIST and the row map (R66); a warm start with a valid record skips BIST. -/
def stepRows (s : State) (rep : StartReport) : State :=
  if !s.sup.cold && s.flash.rowMapValid then loadRows s
  else
    let found : List (TileId × Nat × Nat × Nat) := rep.bistRows.map (fun r => (r.1, r.2.1.toNat, r.2.2.toNat, 1))
    let fieldRows := s.flash.rows.filter (fun r => r.2.2.2 == 2)
    loadRows { s with flash := { s.flash with rows := fieldRows ++ found, rowMapValid := true } }

/-- Step 6: zeroisation (R425) and the module key. -/
def zeroiseAll (s : State) : State :=
  let s := { s with
    sp := [], spMark := [], acc := [], stat := [], statMeta := [], imem := [], tslots := [], entryPc := [], tokens := [], curves := [],
    curveOwned := [], tables := [], groups := [], ptes := [], gangs := [], ctxInfo := [], dupSeen := [], gangSeen := [],
    dram := SMap.clear (fun a => a / frameSize < 512) s.dram,
    tagDiff := s.tagDiff.clear (fun g => g * 512 / frameSize < 512) }
  let s := allTiles.foldl (fun s t => (List.range 8).foldl (fun s k => setReg s (aCurve t k) 3) s) s
  let (key, s) := takeRandom s 96
  setFld { s with latch := { s.latch with moduleKey := key } } aMemFree 0 19 289792

/-- Step 7: the configuration image and the last measurements (R232, R385). -/
def stepImage (s : State) : State :=
  let s := allTiles.foldl (fun s t => if Config.testFence t.toNat || s.flash.fences.contains t then fenceBit s t else s) s
  let s := allRings.foldl (fun s r => setFld s aShtMap (4 * r.toNat) 4 r.toNat) s
  let s := s.flash.oos.foldl (fun s r => setFld s aShtOwned (16 + r.toNat) 1 1) s
  let s := allRings.foldl oosRing (fenceAsked (makeImage s) (fun _ => true))
  let s := allRings.foldl showUses s
  let s := (List.range 4).foldl (fun s i => setFld s (aRegion (19 + i)) 0 2 2) s
  let hashes := ((List.range 3).map (fun k => s.otp.owner.getD k zeros32)).flatten
  let d4 := hashes ++ bytesOf s.otp.revoke.toNat 1 ++ bytesOf s.otp.svnAster 1 ++ bytesOf s.otp.svnYarrow 1 ++
    bytesOf s.otp.svnTansy 1 ++ [0]
  setMeas (setMeas s 3 (extend zeros32 (sha256 (imageBytes s)))) 4 (extend zeros32 (sha256 d4))

/-- Step 9: READY. -/
def stepReady (s : State) : State :=
  let s := setFld (setFld (setFld s aLatch 0 2 1) aRstStatus 0 2 1) aRstStatus 7 2 0
  { s with sup := { s.sup with running := false, normalTicks := 0 } }

/-- Step 1 of a warm start: it is known which memory controllers missed their self-refresh; the training values of their stacks, and
of those that an earlier start left untrained, are invalid, and RST.LAST says whether there are any (R427). -/
def stepMemory (s : State) (rep : StartReport) : State :=
  let bad := (s.sup.badStacks ++ rep.slowMem).dedup
  setFld { s with sup := { s.sup with badStacks := bad } } aRstLast 16 1 (if bad.isEmpty then 0 else 1)

/-- Step 5: every stack is trained, in full where a cold start or its own values ask for it (R427). -/
def stepTrain (s : State) : State := { s with sup := { s.sup with badStacks := [] } }

/-- The limit of a step, ns; step 5 has the cold limit where a memory stack trains in full (R427). -/
def stepLimit (k : Nat) (cold slowMem : Bool) : Nat :=
  match k with
  | 1 => 10000000
  | 2 => 200000000
  | 3 => 500000000
  | 4 => 2000000000
  | 5 => if cold || slowMem then 5000000000 else 50000000
  | 6 => 500000000
  | 7 => 10000000
  | _ => if cold then 2000000000 else 200000000

/-- When the limit of the present step runs out; step 9 has none. -/
def stepDue (s : State) : Nat := s.sup.stepAt + stepLimit (startStep s) s.sup.cold (!s.sup.badStacks.isEmpty)

/-- START_STEP_COMPLETE: the step's effect, and the next step begins. A step that ends after its limit, or in a failed test, or step 2
with a field of the fuses that fails its check (R382), fails the start. Step 8 ends once the host's link is UP (R392). -/
def execStartStepComplete (rep : StartReport) (s : State) : Outcome State Fault Refusal :=
  .next (
    if !s.sup.running then s
    else if startStep s < 9 && stepDue s < nowNs s then failStart s
    else if !rep.ok || (startStep s == 2 && rep.fuses != BitVec.allOnes 8) then failStart s
    else
      let k := startStep s
      let go (s : State) : State :=
        setFld { s with sup := { s.sup with stepAt := nowNs s } } aRstStatus 3 4 (k + 1)
      match k with
      | 1 => go (if s.sup.cold then s else stepMemory s rep)
      | 2 => go (stepLatch s rep)
      | 3 => match stepFirmware s rep with | (s, true) => go s | (s, false) => s
      | 4 => go (stepRows s rep)
      | 5 => go (stepTrain s)
      | 6 => if entropyOk s then go (zeroiseAll s) else failStart s
      | 7 => go (stepImage s)
      | 8 => if portState s 8 == 3 then go (hostUp s) else s
      | _ => stepReady s)

/-- START_STEP_TIMEOUT: step 9 has no limit. -/
def execStartStepTimeout (s : State) : Outcome State Fault Refusal :=
  .next (if !s.sup.running || 9 ≤ startStep s then s
    else failStart (advanceTo s (stepDue s)))

/-- START_RETRY: 100 ms after a failed start, a start of the same kind. -/
def execStartRetry (s : State) : Outcome State Fault Refusal :=
  .next (match s.sup.retryAt with
    | none => s
    | some t => if !s.sup.inputOn then s else beginStart (advanceTo s t) s.sup.cold)

/-- KNOWN_GOOD (R429). -/
def execKnownGood (s : State) : Outcome State Fault Refusal :=
  .next (if modeOf s != 1 || s.sup.normalTicks < 2000 then s
    else
      let b := fld s aRstStatus 10 1
      setFld { s with flash := { s.flash with knownGood := b } } aRstStatus 11 1 b)

/-! ## The input (R28, R463) -/

/-- INPUT_ON. -/
def execInputOn (s : State) : Outcome State Fault Refusal :=
  .next (
    if s.sup.inputOn then s
    else
      let s := { s with sup := { s.sup with inputOn := true } }
      if quarantined s then s else beginStart s true)

/-- Every part but the start supervisor stops: what is held in SRAM, LPDDR5X and registers is lost. The supervisor holds FAILS
and QUARANTINE and nothing else (R28), so every other alert cause is lost too, POWER_CYCLE among them (R468 says otherwise of
it: DESIGN CHOICE, log entry 126). -/
def stopAll (s : State) : State :=
  let st := fld s aRstStatus 7 2 * 2 ^ 7 + fld s aRstStatus 9 1 * 2 ^ 9
  setReg { State.reset with
    pending := s.pending, freeCtr := s.freeCtr, nextId := s.nextId, cqOut := s.cqOut, tx := s.tx,
    otp := s.otp, flash := s.flash, sup := { supReset with alert := if quarantined s then 1 else 0, bus := s.sup.bus } } aRstStatus (BitVec.ofNat 64 st)

/-- INPUT_STOP. -/
def execInputStop (s : State) : Outcome State Fault Refusal := .next (if s.sup.inputOn then stopAll s else s)

/-- INPUT_LOSS: the start supervisor stops too. -/
def execInputLoss (s : State) : Outcome State Fault Refusal :=
  .next (
    let s := if s.sup.inputOn then stopAll s else s
    setReg { s with sup := { s.sup with alert := 0 } } aRstStatus 0)

/-- POWER_CYCLE (R437): level 5, where R428 has quarantined the module. -/
def execPowerCycle (s : State) : Outcome State Fault Refusal :=
  .next (powered s (if quarantined s then alertSet (resetRec s 5 0 7 none) 1 else s))

/-! ## Images (R431) -/

/-- IMG_WRITE. -/
def execImgWrite (tag : BitVec 16) (bank : Byte) (offset len : BitVec 32) (data : List Byte) (s : State) :
    Outcome State Fault Refusal :=
  .next (served s (
    let s := mgmtCount s (12 + data.length)
    let running := modeOf s != 3 && fld s aRstStatus 10 1 == bank.toNat
    if 1 < bank.toNat || offset.toNat % 4096 != 0 || data.length != len.toNat || bankSize < offset.toNat + len.toNat || running then
      mgmtReply s tag false []
    else
      let m := data.zipIdx.foldl (fun (m : SMap (Option Byte)) (e : Byte × Nat) =>
        m.set (fun _ => none) (bank.toNat * bankSize + offset.toNat + e.2) (some e.1)) s.flash.bytes
      mgmtReply { s with flash := { s.flash with bytes := m } } tag true []))

/-- IMG_SELECT: with START set, a warm start once the reply has been sent. -/
def execImgSelect (tag : BitVec 16) (bank flags : Byte) (s : State) : Outcome State Fault Refusal :=
  .next (served s (
    let s := mgmtCount s 2
    if 1 < bank.toNat || 1 < flags.toNat then mgmtReply s tag false []
    else
      let s := mgmtReply { s with flash := { s.flash with active := bank.toNat } } tag true []
      if flags == 1 then { s with sup := { s.sup with startAfter := some (((formReplies s).hostOut.filter (fun f => flitPair f == 63)).length) } }
      else s))

end Sys2Proof.Machine
end

