-- ==== Sys2Proof/Machine/Receive.lean ====
section
/-! DEFINITION. The receiving side of the fabric and of the Cersin link (R350, R351, R357, R358, R362, R366, R369): the checks of
a flit, and what a whole message does. -/

namespace Sys2Proof.Machine

open Host (Outcome)

/-- The state that a meaning answers. -/
def nextOr (s : State) : Outcome State Fault Refusal → State
  | .next t => t
  | _ => s

/-! ## Receiving (R350, R351, R362) -/

/-- Ask for a replay. -/
def askReplay (s : State) (p : Nat) : State :=
  let x := portOf s p
  sendIdle (satAdd (setPort s p { x with askedAt := some x.rxSlot }) (aPortErr p) 24 16 1) p 1 0 0

/-- 256 slots have passed since the last REPLAY (R351). -/
def askDue (x : Port) : Bool := x.askedAt.all (fun a => decide (a.toNat + 256 ≤ x.rxSlot.toNat))

/-- A flit is discarded in recovery: a REPLAY goes out once per 256 slots at most. -/
def askAgain (s : State) (p : Nat) : State := if askDue (portOf s p) then askReplay s p else s

/-- A flit that fails check 1, 2 or 3 leaves the receiver in recovery. -/
def toRecovery (s : State) (p : Nat) : State :=
  let x := portOf s p
  if x.recovery then askAgain s p else askReplay (setPort s p { x with recovery := true }) p

/-- The times of the last `w` ns among a list, with the present one. -/
def timesWithin (s : State) (w : Nat) (l : List Nat) : List Nat := (l.filter (fun t => nowNs s < t + w)) ++ [nowNs s]

/-- A tag failure: more than 16 in 1 ms retrain and re-key the port, and the third such retrain in 1 s disables it. -/
def authFail (s : State) (p : Nat) : State :=
  let s := toRecovery (satAdd s (aPortErr p) 40 16 1) p
  let x := portOf s p
  let l := timesWithin s 1000000 x.authTimes
  if l.length ≤ 16 then setPort s p { x with authTimes := l }
  else
    let r := timesWithin s 1000000000 x.reTimes
    let s := setPort s p { x with authTimes := [], reTimes := r }
    if 3 ≤ r.length then
      let s := disablePort s p
      setPort s p { portOf s p with authLock := true }
    else retrain s p true

/-- A count in SEQ: more than 64 in 1 ms retrain the port. -/
def countSeq (s : State) (p : Nat) : State :=
  let s := satAdd s (aPortViol p) 0 16 1
  let x := portOf s p
  let l := timesWithin s 1000000 x.seqTimes
  if l.length ≤ 64 then setPort s p { x with seqTimes := l }
  else retrain (setPort s p { x with seqTimes := [] }) p false

/-- A fragment of a value of n bytes (R358). -/
def fragOk (b : List Byte) (n : Nat) : Bool :=
  let i := fieldAt b 0 2
  fieldAt b 2 2 == (n + 219) / 220 && decide (220 * i < n) && b.length == 4 + min 220 (n - 220 * i)

/-- A fragment comes in order: the first, or the next one of a value of which fragments have arrived (R358). -/
def fragNext (x : Port) (f : Flit) : Bool :=
  let i := fieldAt f.payload 0 2
  i == 0 || x.msgs.any (fun m => m.hdr.type == 2 && m.hdr.op == f.hdr.op && m.bytes.length == 220 * i)

/-- The payload of a LINK flit matches its opcode, on a fabric port or on Cersin (R358). -/
def linkOk (p op : Nat) (b : List Byte) : Bool :=
  match op with
  | 1 => b.length == (if p == 8 then 64 else 8)
  | 2 => p != 8 && b.length == 32 && (b.headD 0).toNat ≤ 1
  | 3 => p != 8 && b.length == 32
  | 4 => p != 8 && fragOk b 7892
  | 5 => fragOk b 1568
  | 6 => p != 8 && b.length == 16
  | _ => false

/-- The format of a flit (R350 check 4, R362): what is listed there, an opcode not listed for its TYPE and class, and a LINK payload
that does not match its opcode. What a request of Cersin holds is judged by R369 when it is whole. -/
def formatOk (s : State) (p : Nat) (f : Flit) : Bool :=
  let h := f.hdr
  let t := h.type.toNat
  let op := h.op.toNat
  t != 3 && !h.rsvd && h.len.toNat ≤ 224 && f.payload.length == h.len.toNat && !(h.gang == 0 && h.ctx != 0 && p != 8) &&
    (if t == 0 then h.len == 0 && h.vc == 0
     else if t == 2 then h.vc == 0 && h.gang == 0 && h.ctx == 0 && linkOk p op f.payload &&
      (!(op == 4 || op == 5) || fragNext (portOf s p) f)
     else if p == 8 then h.vc == 0 && h.gang.toNat < 64 && h.ctx == pairHdrCtx s (BitVec.ofNat 6 h.gang.toNat)
     else classOf op == some (h.vc.toNat / 2)) &&
    (if p == 8 then h.dst == 0 && h.src == 0 && h.crVc == 0 && h.crCnt == 0
     else fld s aNode 32 1 == 0 || (List.range 4).all (fun d => digit h.dst d < dimSize s d))

/-- Act on the acknowledgement, the NAKR request and the returned credits of a flit. -/
def actOn (s : State) (p : Nat) (h : FlitHdr) : State :=
  let x := portOf s p
  let back := (x.sendSeq - 1 - h.ack).toNat
  let s := if min 2048 x.sentTotal < back then countSeq s p
    else setPort s p { x with replay := x.replay.filter (fun f => (f.hdr.seq - 1 - h.ack).toNat < 2048) }
  let s := if h.nakr == 1 then
      (portOf s p).replay.foldl (fun s f =>
        let s := if f.hdr.type == 1 then perfMod s (some f.hdr.ctx) 14 0x12 (some p) 1 else s
        putTx s p { f with hdr := { f.hdr with ack := (portOf s p).lastSeq } }) s
    else s
  let s := if p == 8 || h.crCnt == 0 then s
    else
      let x := portOf s p
      let c := x.credits.get crDef h.crVc.toNat + h.crCnt.toNat
      let s := if 192 < c then satAdd s (aPortViol p) 32 16 1 else s
      setPort s p { portOf s p with credits := x.credits.set crDef h.crVc.toNat (min 192 c) }
  drain s

/-- A sequenced flit is received in order. -/
def inOrder (s : State) (p : Nat) (seq : BitVec 12) : State :=
  setPort s p { portOf s p with expect := seq + 1, lastSeq := seq, recovery := false }

/-! ## Delivery -/

/-- Two headers belong to one message. -/
def sameMsg (a b : FlitHdr) : Bool :=
  a.type == b.type && a.vc.toNat / 2 == b.vc.toNat / 2 && a.src == b.src && a.gang == b.gang && a.ctx == b.ctx && a.op == b.op

/-- A flit of the message, this one or one before it, carries poisoned data (R348). -/
def tainted (ms : List PartialMsg) (h : FlitHdr) (first : Bool) : Bool :=
  h.poison || (!first && (ms.find? (fun m => sameMsg m.hdr h)).any (fun m => m.hdr.poison))

/-- The bytes of a message or value whose last part this is, and the parts that remain. -/
def gather (ms : List PartialMsg) (h : FlitHdr) (first last : Bool) (bs : List Byte) : Option (List Byte) × List PartialMsg :=
  let rest := ms.filter (fun m => !sameMsg m.hdr h)
  let got := if first then some bs else (ms.find? (fun m => sameMsg m.hdr h)).map (fun m => m.bytes ++ bs)
  match got with
  | none => (none, rest)
  | some b => if last then (some b, rest) else (none, rest ++ [⟨{ h with poison := tainted ms h first }, b⟩])

/-- FP32 values of a part. -/
def partOf (p : List Byte) : PartMsg :=
  { chan := fieldAt p 0 1, bucket := fieldAt p 4 4, step := BitVec.ofNat 32 (fieldAt p 8 4), lo := fieldAt p 12 4,
    span := fieldAt p 16 4, chunk := fieldAt p 20 4, count := fieldAt p 24 4, absent := fieldAt p 28 1 % 2 == 1,
    data := f32List ((p.length - 32) / 4) (p.drop 32), poison := false }

/-- The bytes that a payload holds, or those before its data where they run to its end (0x30, 0x42, 0x43). -/
def msgLen (op : Nat) (p : List Byte) : Nat :=
  match op with
  | 0x10 => 67
  | 0x11 => 16
  | 0x12 => 6
  | 0x20 => 25
  | 0x21 => 32 + 2 * bmBytes (fieldAt p 24 4)
  | 0x22 => 17
  | 0x23 | 0x24 | 0x25 => 32 + (if fieldAt p 28 1 % 2 == 1 then 0 else 256 * fieldAt p 24 4)
  | 0x30 => 32
  | 0x40 => 16 + 16 * fieldAt p 8 4
  | 0x41 => 8 + 8 * fieldAt p 4 4
  | 0x42 => 16
  | 0x43 => 8
  | _ => 0

/-- A payload matches its opcode (R358). -/
def payloadOk (op : Nat) (p : List Byte) : Bool :=
  if op == 0x30 || op == 0x42 || op == 0x43 then msgLen op p ≤ p.length else p.length == msgLen op p

/-- A whole message for this module acts (R358). -/
def actMsg (s : State) (port : Nat) (h : FlitHdr) (mtag : BitVec 32) (p : List Byte) : State :=
  let n := h.ctx
  let w (i k : Nat) : Nat := fieldAt p i k
  let step (i : Nat) : BitVec 32 := BitVec.ofNat 32 (w i 4)
  nextOr s (match h.op.toNat with
    | 0x10 => .next (takeGangCmd s port ⟨mtag, h.src, h.gang, n, p.take 64⟩)
    | 0x11 => execGangCpl h.src (BitVec.ofNat 32 (w 0 4)) (BitVec.ofNat 8 (w 4 1)) (BitVec.ofNat 64 (w 8 8)) s
    | 0x12 => execRefuse h.src (BitVec.ofNat 32 (w 0 4)) (BitVec.ofNat 8 (w 4 1)) (BitVec.ofNat 8 (w 5 1)) s
    | 0x20 => execRedNotice n { chan := w 0 1, bucket := w 4 4, step := step 8, rank := w 12 4, sealTb := BitVec.ofNat 64 (w 16 8),
                                quar := w 24 1 % 2 == 1, carryIn := w 24 1 / 2 % 2 == 1 } s
    | 0x21 =>
      let b := bmBytes (w 24 4)
      execRedDecide n { chan := w 0 1, bucket := w 4 4, step := step 8, atDeadline := w 12 1 % 2 == 1,
                        decideTb := BitVec.ofNat 64 (w 16 8), ranks := w 24 4, noticed := w 32 b, quarantined := w (32 + b) b } s
    | 0x22 => execRedAbort n (w 0 1) (w 4 4) (step 8) (w 12 4) (BitVec.ofNat 8 (w 16 1)) s
    | 0x23 => execRedPart n { partOf p with poison := h.poison } s
    | 0x24 => execRedShard n { partOf p with poison := h.poison } s
    | 0x25 => execRedOrdered n { partOf p with poison := h.poison } s
    | 0x30 => execRedGather n { chan := w 0 1, bucket := w 4 4, step := step 8, rank := w 12 4, offset := w 16 8,
                                data := p.drop 32, poison := h.poison } s
    | 0x40 => execDspRoutes n (step 0) (w 4 4) ((List.range (w 8 4)).map (fun i => (BitVec.ofNat 64 (w (16 + 16 * i) 8), w (24 + 16 * i) 4))) s
    | 0x41 => execDspAdmit n (step 0) ((List.range (w 4 4)).map (fun i =>
        let v := BitVec.ofNat 64 (w (8 + 8 * i) 8)
        { index := getF v 0 20, stat := BitVec.ofNat 2 (getF v 20 2), slot := getF v 22 8, position := getF v 30 16 })) s
    | 0x42 => execDspRows n { step := step 0, src := w 4 4, index := w 8 4, expert := w 12 2, spilled := w 14 1 % 2 == 1,
                              data := p.drop 16, poison := h.poison } s
    | 0x43 => execDspRet n (step 0) (w 4 4) ⟨p.drop 8, h.poison⟩ s
    | _ => .next s)

/-- A whole message arrives (R357): refused for an unknown gang or context, discarded for a context in reset (R439), malformed
where its payload does not match its opcode. A REFUSE that names one is discarded and not refused in turn (DESIGN CHOICE, log entry
173). -/
def takeMsg (s : State) (port : Nat) (h : FlitHdr) (bs : List Byte) : State :=
  let mtag : BitVec 32 := BitVec.ofNat 32 (fieldAt bs 0 4)
  let p := bs.drop 8
  let op := h.op.toNat
  if bs.length < 8 || fieldAt bs 4 4 != p.length || !payloadOk op p then
    if port < 8 then sendIdle (satAdd s (aPortViol port) 16 16 1) port 2 0 0 else s
  else if op == 0x10 then actMsg s port h mtag p
  else if op == 0x11 || op == 0x12 then
    match gangPage s h.gang h.ctx with
    | .ok _ => actMsg s port h mtag p
    | .error r => if op == 0x11 then refuseMsg s port h.src h.gang h.ctx mtag op r else s
  else if h.gang == 0 || gangOf s h.ctx != h.gang then
    refuseMsg s port h.src h.gang h.ctx mtag op (if h.gang != 0 && ((gangEntry s h.gang).isSome || allCtx.any (fun m => gangOf s m == h.gang)) then 2 else 1)
  else if ctxState s h.ctx == 6 then s
  else actMsg s port h mtag p

/-- A DATA flit for this module. -/
def deliverData (s : State) (p : Nat) (f : Flit) : State :=
  let x := portOf s p
  let (got, ms) := gather x.msgs f.hdr f.hdr.first f.hdr.last f.payload
  let s := setPort s p { x with msgs := ms }
  match got with
  | none => s
  | some bs => takeMsg s p { f.hdr with poison := tainted x.msgs f.hdr f.hdr.first } bs

/-- A request arrives whole on a submission queue (R369, R378). -/
def takeRequest (s : State) (q : PairId) (op : Nat) (bs : List Byte) : State :=
  let addr := BitVec.ofNat 64 (fieldAt bs 0 8)
  let len := BitVec.ofNat 32 (fieldAt bs 8 4)
  let tag := BitVec.ofNat 16 (fieldAt bs 12 2)
  let d := bs.drop 16
  if (q == 63) != (op == 5) || op == 0 || 5 < op || bs.length < 16 || !zeroBytes bs 14 16 then request q tag addr.toNat bs.length false id s
  else nextOr s (match op with
    | 1 => execRegWr q tag addr len (BitVec.ofNat 64 (fieldAt d 0 8)) s
    | 2 => execRegRd q tag addr len s
    | 3 => execMemWr q tag addr len d s
    | 4 => execMemRd q tag addr len s
    | _ => match fieldAt bs 0 1 with
      | 0x01 => execHealth tag s
      | 0x02 => execTbParent tag (BitVec.ofNat 8 (fieldAt d 0 1)) s
      | 0x03 => execPeerReset tag (BitVec.ofNat 16 (fieldAt d 0 2)) s
      | 0x10 => execAttest tag (BitVec.ofNat 256 (fieldAt d 0 32)) (BitVec.ofNat 8 (fieldAt d 32 1)) s
      | 0x11 => execOpenSession tag (d.take 1568) (BitVec.ofNat 8 (fieldAt d 1568 1)) (BitVec.ofNat 8 (fieldAt d 1569 1))
          (BitVec.ofNat 64 (fieldAt d 1570 8)) ((d.drop 1578).take 56) (d.drop 1634) s
      | 0x12 => execNonce tag s
      | 0x20 => execImgWrite tag (BitVec.ofNat 8 (fieldAt d 0 1)) (BitVec.ofNat 32 (fieldAt d 4 4)) (BitVec.ofNat 32 (fieldAt d 8 4)) (d.drop 12) s
      | 0x21 => execImgSelect tag (BitVec.ofNat 8 (fieldAt d 0 1)) (BitVec.ofNat 8 (fieldAt d 1 1)) s
      | _ => .next (mgmtReply (violation s 63 7 addr.toNat) tag false []))

/-- A LINK flit of a value in fragments: the value once its last fragment is there. -/
def takeFrag (s : State) (p : Nat) (f : Flit) : Option (List Byte) × State :=
  let i := fieldAt f.payload 0 2
  let k := fieldAt f.payload 2 2
  let x := portOf s p
  let (got, ms) := gather x.msgs f.hdr (i == 0) (i + 1 == k) (f.payload.drop 4)
  (got, setPort s p { x with msgs := ms })

/-- The node at the other end of a port. -/
def neighbour (s : State) (p : Nat) : BitVec 16 :=
  let d := p / 2
  let me := nodeId s
  let x := digit me d
  let n := dimSize s d
  let y := if p % 2 == 0 then (x + 1) % n else (x + n - 1) % n
  BitVec.ofNat 16 (me.toNat - x * 16 ^ d + y * 16 ^ d)

/-- A report as R391 lays it out. -/
def reportOf (node : BitVec 16) (r : List Byte) : PeerReport :=
  { fusedId := BitVec.ofNat 128 (fieldAt r 8 16), nonce := BitVec.ofNat 256 (fieldAt r 48 32),
    ownerHash := BitVec.ofNat 256 (fieldAt r 80 32), debugUnlocked := fieldAt r 2 1 / 2 % 2 == 1, recovery := fieldAt r 2 1 / 8 % 2 == 1,
    meas := (r.drop 176).take 96, startRes := BitVec.ofNat 64 (fieldAt r 32 8), node := node, raw := r }

/-- A LINK flit acts (R358). A TIME flit bears the stamp of the superframe boundary at which it began (R360). -/
def takeLink (s : State) (p : Nat) (f : Flit) (stamp : Nat) : State :=
  let b := f.payload
  let port : BitVec 3 := BitVec.ofNat 3 p
  match f.hdr.op.toNat with
  | 1 => takeCredit s p (b.map (fun x => x.toNat))
  | 2 =>
    let fl := fieldAt b 1 1
    takeTime s p { reply := fieldAt b 0 1 == 1, locked := fl % 2 == 1, untrusted := fl / 2 % 2 == 1, root := fl / 4 % 2 == 1,
                   hops := BitVec.ofNat 8 (fieldAt b 2 1), number := BitVec.ofNat 64 (fieldAt b 8 8), t2 := BitVec.ofNat 64 (fieldAt b 16 8),
                   t3 := BitVec.ofNat 64 (fieldAt b 24 8), stamp := BitVec.ofNat 64 stamp }
  | 3 => nextOr s (execKeyAttest port (BitVec.ofNat 256 (fieldAt b 0 32)) s)
  | 4 => match takeFrag s p f with
    | (some r, s) => nextOr s (execKeyReport port (reportOf (neighbour s p) r) s)
    | (none, s) => s
  | 5 => match takeFrag s p f with
    | (some ct, s) => if p == 8 then nextOr s (execKeyEk ct s) else nextOr s (execKeyEncaps port ct s)
    | (none, s) => s
  | 6 => nextOr s (execKeyConfirm port (BitVec.ofNat 128 (fieldAt b 0 16)) s)
  | _ => s

/-- A DATA flit accepted on a fabric port: delivered here, or buffered for the port it leaves by (R355, R359). -/
def takeData (s : State) (p : Nat) (f : Flit) : State :=
  let s := bwAdd (perfMod s (some f.hdr.ctx) 14 0x11 (some p) 1) (24 + p) 0 f.hdr.len.toNat
  if f.hdr.dst == nodeId s then freeBuf (deliverData s p f) p f.hdr.vc
  else if fld s aNode 32 1 == 0 then freeBuf (noRoute s p) p f.hdr.vc
  else
    let x := portOf s p
    drain (setPort s p { x with waiting := x.waiting ++ [f] })

/-- A DATA flit accepted on Cersin: a request once whole; its buffer's credit returns in a CREDIT flit (R366, R367). -/
def takeHost (s : State) (f : Flit) : State :=
  let q : PairId := BitVec.ofNat 6 f.hdr.gang.toNat
  let x := portOf s 8
  let (got, ms) := gather x.msgs f.hdr f.hdr.first f.hdr.last f.payload
  let s := setPort s 8 { x with msgs := ms }
  let s := sendLink s 8 1 ((List.range 64).map (fun i => if i == q.toNat then 1 else 0))
  match got with
  | none => s
  | some bs => takeRequest s q f.hdr.op.toNat bs

/-- The credits of an SQ that the module has not yet returned: those of CREDIT flits that wait for room (R367). -/
def unreturned (x : Port) (q : Nat) : Nat :=
  (x.linkWait.filter (fun f => f.hdr.op == 1)).foldl (fun n f => n + (f.payload.getD q 0).toNat) 0

/-- A DATA flit has no credit: its VC's or its SQ's buffer is full (R354, R367). -/
def noCredit (x : Port) (p : Nat) (h : FlitHdr) : Bool :=
  h.type == 1 && (if p < 8 then 192 ≤ (x.waiting.filter (fun g => g.hdr.vc == h.vc)).length else 128 ≤ unreturned x h.gang.toNat)

/-- A flit that passed the format check (R350, checks 5 to 7). -/
def takeSeqd (s : State) (p : Nat) (f : Flit) (stamp : Nat) : State :=
  let x := portOf s p
  if f.hdr.seq != x.expect then (if x.recovery then askAgain s p else askReplay (countSeq s p) p)
  else if noCredit x p f.hdr then askReplay (countSeq (satAdd s (aPortViol p) 32 16 1) p) p
  else
    let s := sendIdle (inOrder s p f.hdr.seq) p 0 0 0
    if f.hdr.type == 2 then takeLink s p f stamp
    else if p == 8 then takeHost s f
    else takeData s p f

/-- The flit that a slot brings a port (R349): its header unmasked and its payload decrypted under the keys of the slot. A flit of a
session whose epoch has not begun is not authentic (R380, R394). -/
def openFlit (s : State) (p : Nat) (w : WireFlit) : Flit :=
  let k := (portOf s p).rxSlot + BitVec.ofNat 64 w.skip
  let f := openBytes (fecGood w) (if portState s p == 2 then none else some (headerKey s p false, k)) (flitKeys s p false k) w.bytes
  { f with tagOk := f.tagOk && (p != 8 || sessionBegun s false k.toNat f.hdr) }

/-- The slot has passed, and the symbols corrected are counted on their lanes (R347, R364). -/
def tookSlot (s : State) (p : Nat) (w : WireFlit) : State :=
  let k := (portOf s p).rxSlot + BitVec.ofNat 64 w.skip
  let s := setPort s p { portOf s p with rxSlot := k + 1 }
  if p == 8 then s else (corrected 12 k.toNat w).foldl (fun s l => satAdd s (ngA (0x1000 + 0x80 * p + 8 * l)) 32 32 1) s

/-- The stamp of a flit: the time, in 1/64 ns of Timebase, of the superframe boundary before its slot (R360). -/
def stampOf (s : State) (p : Nat) (w : WireFlit) : Nat :=
  64 * nowNs s + w.phase.toNat - ((portOf s p).rxSlot.toNat + w.skip) % superSlots * superLen p / superSlots

/-- A flit arrives on a port that listens. A port that keys takes IDLE flits beside the keying exchange: they carry its
acknowledgements and requests for replay (log 141). -/
def receive (s : State) (p : Nat) (f : Flit) (stamp : Nat) : State :=
  let keying := portState s p == 2
  let op := f.hdr.op.toNat
  if !f.fecOk || !f.crcOk then toRecovery (satAdd s (aPortErr p) 0 24 1) p
  else if !keying && !f.tagOk then authFail s p
  else if keying && !(f.hdr.type == 0 || (f.hdr.type == 2 && (if p == 8 then op == 5 else decide (3 ≤ op ∧ op ≤ 6)))) then s
  else if !formatOk s p f then
    let s := satAdd s (aPortViol p) 16 16 1
    let s := if f.hdr.type != 0 && f.hdr.seq == (portOf s p).expect then inOrder s p f.hdr.seq else s
    sendIdle s p 2 0 0
  else
    let s := actOn s p f.hdr
    if f.hdr.type == 0 || !carries s p then s else takeSeqd s p f stamp

/-- FLIT_RECEIVE (R350). -/
def execFlitReceive (port : BitVec 4) (w : WireFlit) (s : State) : Outcome State Fault Refusal :=
  .next (
    let p := port.toNat
    if 8 < p || !carries s p then s else receive (tookSlot s p w) p (openFlit s p w) (stampOf s p w))

/-! ## What the block does with no command waiting -/

/-- The oldest message given to the fabric leaves the module, or is delivered here. -/
def sendOut (s : State) : State :=
  match s.out with
  | [] => s
  | m :: ms =>
    let s := { s with out := ms }
    if m.dst == nodeId s then
      takeMsg s 9 { hdrIdle with type := 1, src := m.dst, dst := m.dst, gang := m.gang, ctx := m.ctx, op := m.op }
        (bytesOf m.mtag.toNat 4 ++ bytesOf m.payload.length 4 ++ m.payload)
    else injectMsg m s

/-- What waits for the host leaves; a start asked for on the management pair begins once its reply has left (R431). -/
def hostIdle (s : State) : State :=
  let s := sendHostAll s
  if s.sup.startAfter == some 0 then warmStart { s with sup := { s.sup with startAfter := none } } 0 else s

end Sys2Proof.Machine
end

