-- ==== Sys2Proof/Machine/Resets.lean ====
section
/-! DEFINITION. Hang detection (R432 to R435), the engine and partition resets with their escalation (R436 to R438), crossings
after a reset (R440), books that do not balance (R458) and router faults (R257). -/

namespace Sys2Proof.Machine

open Host (Outcome)

/-! ## Runs of resets -/

/-- The partition of an engine (R436). -/
def enginePart (e : Engine) : BitVec 5 :=
  match e with
  | .array t | .vector t | .louvre t | .stream t | .gather t => BitVec.ofNat 5 (ringOf t).toNat
  | .decode _ | .token _ | .shuffle => 17
  | .reduction | .dispatch => 18

/-- The run of an object, if one is in progress. -/
def runOf (s : State) (o : ResetObj) : Option ResetRun := s.resets.find? (fun r => r.obj == o && !r.done)

/-- A reset of the object completed within the last 20 ticks. -/
def recent (s : State) (o : ResetObj) : Bool := s.resets.any (fun r => r.obj == o && r.done && s.tick ≤ r.tick + 20)

/-- A run of the object waits for its effect. -/
def waiting (s : State) (o : ResetObj) : Bool := s.resets.any (fun r => r.obj == o && !r.done && !r.acted)

def setActed (s : State) (o : ResetObj) : State :=
  { s with resets := s.resets.map (fun r => if r.obj == o && !r.done then { r with acted := true } else r) }

/-- An engine reset begins; one that runs, or a partition reset over it, takes it in. -/
def beginEngine (s : State) (e : Engine) (cause : Nat) : State :=
  if resetting s (.engine e) || partBusy s (enginePart e) then s
  else addRun (resetRec s 2 (enginePart e).toNat cause none) (.engine e) false

/-- A partition reset begins and takes in the engine resets of its partition. -/
def beginPart (s : State) (p : BitVec 5) (cause : Nat) : State :=
  if 20 ≤ p.toNat || partBusy s p then s
  else
    let s := addRun (resetRec s 3 p.toNat cause none) (.part p) false
    { s with resets := s.resets.filter (fun r => match r.obj with | .engine e => r.done || enginePart e != p | _ => true) }

/-- The engines of a tile that hold an item of a context. -/
def tileHolds (s : State) (n : CtxId) (e : Engine) : Bool :=
  let op (t : TileId) (k : Nat) : Bool := match engOf s t k with
    | ⟨a, b⟩ => a.any (fun o => o.ctx == n) || b.any (fun o => o.ctx == n)
  match e with
  | .array t => op t 0 || s.drains.any (fun d => d.t == t && d.op.ctx == n)
  | .louvre t => op t 1 || (lvOf s t).any (fun x => x.op.ctx == n)
  | .vector t => op t 2
  | .stream t => s.strms.any (fun x => x.1 / 64 == t.toNat && x.2.any (fun y => y.ctx == n))
  | .gather t => s.gaths.any (fun g => g.t == t && g.ctx == n)
  | _ => false

/-- An engine holds work of a context (R432). -/
def holds (s : State) (n : CtxId) (e : Engine) : Bool :=
  let sample (p : CasSample → Bool) : Bool := (casOf s n).any (fun j => j.samples.any p)
  match e with
  | .decode k => sample (fun x => x.eng == some k.toNat)
  | .token k => sample (fun x => x.pipe == k.toNat && x.done && !x.rowsOut)
  | .shuffle => casState s n == 2
  | .reduction => (redOf s n).any (fun j => j.buckets.any (fun b => 2 ≤ b.st))
  | .dispatch => (dspOf s n).any (fun j => j.routesOut)
  | e => tileHolds s n e

/-- The contexts with work on an engine. -/
def holders (s : State) (e : Engine) : List CtxId := allCtx.filter (fun n => holds s n e)

def allEngines : List Engine :=
  allTiles.flatMap (fun t => [.array t, .vector t, .louvre t, .stream t, .gather t]) ++
    (List.range 48).map (fun k => .decode (BitVec.ofNat 6 k)) ++ (List.range 16).map (fun k => .token (BitVec.ofNat 4 k)) ++
    [.shuffle, .reduction, .dispatch]

/-- The next level after an object's reset (R437). -/
def escalate (s : State) (o : ResetObj) (cause : Nat) : State :=
  match o with
  | .context n => (allEngines.filter (holds s n)).foldl (fun s e => beginEngine s e cause) s
  | .engine e => beginPart { s with resets := s.resets.filter (fun r => r.obj != o) } (enginePart e) cause
  | .part _ => warmStart s cause

/-- A detector has found an object hung: the reset of its level, or the next one where that has just completed. -/
def detect (s : State) (o : ResetObj) (cause : Nat) : State :=
  if recent s o then escalate s o 7
  else match o with
    | .context n => beginReset s n false cause
    | .engine e => beginEngine s e cause
    | .part p => beginPart s p cause

/-! ## Detectors -/

def aWdg : Nat := modG 0x3018

/-- The engine can be watched: the watchdog is on, and a tile engine's domain is open. -/
def watched (s : State) (e : Engine) : Bool :=
  fld s aWdg 0 16 != 0 && (match e with
    | .array t | .vector t | .louvre t | .stream t | .gather t => tileRuns s t
    | _ => true)

/-- ENGINE_HANG (R432). -/
def execEngineHang (e : Engine) (s : State) : Outcome State Fault Refusal :=
  .next (powered s (if !e.wf || !watched s e || s.watchIdle.get (fun _ => 0) (engineCode e) < fld s aWdg 0 16 then s
    else match holders s e with
      | [] => s
      | [n] => detect s (.context n) 1
      | _ => detect s (.engine e) 1))

/-- The commands of a context, accepted at the module, that have used its ticks up (R433). -/
def lateCmds (s : State) (n : CtxId) : List Nat :=
  let ticks := fld s (modG (0x3100 + 8 * n.toNat)) 0 32
  (s.cmds.filter (fun c => ticks != 0 && c.ctx == n && c.taken && (c.page == .module n || c.page == .owner) &&
    decide (c.since + ticks ≤ s.tick))).map (fun c => c.id)

def pastDeadline (s : State) (n : CtxId) : Bool := !(lateCmds s n).isEmpty

/-- CONTEXT_DEADLINE (R433): the context is reset, and the commands that are late, whichever they are, complete with ABORTED. -/
def execContextDeadline (n : CtxId) (s : State) : Outcome State Fault Refusal :=
  .next (if pastDeadline s n then (lateCmds s n).foldl abortCmd (detect s (.context n) 2) else s)

/-- The domain is closed with a counted request (R434): memory late, skew hold, link retry or multicast wait. -/
def shutCounted (s : State) (h : RingId) : Bool :=
  decide (2 ≤ shutState s h) && (shutOf s h).reqs.any (fun r => r.cause ≤ 1 || r.cause == 3 || r.cause == 4)

/-- The key of a domain's count of closed ticks. -/
def shutKey (h : RingId) : Nat := 8192 + h.toNat

/-- The domain has been so for SHUTTER ticks in a row. -/
def shutHung (s : State) (h : RingId) : Bool :=
  fld s aWdg 16 16 != 0 && shutCounted s h && decide (fld s aWdg 16 16 ≤ s.watchIdle.get (fun _ => 0) (shutKey h))

/-- SHUTTER_HANG (R434): first a context reset of the slot owner, then partition resets. -/
def execShutterHang (r : RingId) (s : State) : Outcome State Fault Refusal :=
  .next (
    let h := headOf s r
    if !shutHung s h then s
    else
      let parts (s : State) : State := (domainRings s h).foldl (fun s r => detect s (.part (BitVec.ofNat 5 r.toNat)) 3) s
      let n : CtxId := BitVec.ofNat 4 (fld s aShtOwner (4 * h.toNat) 4)
      let spent := recent s (.context n) || (runOf s (.context n)).any (fun x => x.tick + 20 ≤ s.tick)
      if fld s aShtOwned h.toNat 1 == 0 || spent then parts s else beginReset s n false 3)

/-- PEER_SILENT (R435). -/
def execPeerSilent (x : Silent) (s : State) : Outcome State Fault Refusal :=
  .next (powered s (
    if fld s aWdg 32 16 == 0 then s
    else match x with
      | .port p =>
        if (portOf s p.toNat).downTick.all (fun k => s.tick < k + fld s aWdg 32 16) || portState s p.toNat == 3 then s
        else
          let s := recordEv s 8 0xFF (unitModule s) (BitVec.ofNat 64 p.toNat) 0
          setPort s p.toNat { portOf s p.toNat with downTick := none }
      | .bucket n chan bucket node =>
        match (redOf s n).bind (fun j => bucketOf j chan bucket) with
        | none => s
        | some b =>
          if b.st < 2 || b.aborted || s.tick < b.waitTick + fld s aWdg 32 16 || !waitsOn s n b node then s
          else recordEv (replayEnd (abortBucket (sendAbort s n b 5) n b) n) 8 (BitVec.ofNat 8 n.toNat) (unitModule s)
            (BitVec.ofNat 64 (0x100 + node.toNat)) 0
      | .batch n node =>
        match dspOf s n with
        | none => s
        | some j =>
          if !j.routesOut || s.tick < j.waitTick + fld s aWdg 32 16 || !(batchWaits s n j).any (fun k => rankNode s n k == node) then s
          else recordEv (abortBatch (sendBatchAbort s n j.step) n) 8 (BitVec.ofNat 8 n.toNat) (unitModule s)
            (BitVec.ofNat 64 (0x100 + node.toNat)) 0))

/-- LINTEL_WATCHDOG (R437). -/
def execLintelWatchdog (s : State) : Outcome State Fault Refusal := .next (powered s (warmStart s 6))

/-- The limit of a level, in ticks. -/
def resetLimit (o : ResetObj) : Nat := match o with | .engine _ => 2 | _ => 20

/-- RESET_LIMIT_EXCEEDED (R437): a run that has used its limit up, or a detector firing again within 20 ticks. -/
def execResetLimitExceeded (x : ResetObj) (s : State) : Outcome State Fault Refusal :=
  .next (
    if (runOf s x).any (fun r => r.tick + resetLimit x ≤ s.tick) || recent s x then escalate s x 7 else s)

/-- A free value of w bits where the manual gives no code. -/
def takeCode (s : State) (w : Nat) : Nat × State := let (v, s) := takeFree s; (v.toNat % 2 ^ w, s)

/-- BOOKS_OUT_OF_BALANCE (R458). -/
def execBooksOutOfBalance (b : Book) (s : State) : Outcome State Fault Refusal :=
  .next (powered s (
    let go (p : BitVec 5) (s : State) : State :=
      let (d0, s) := takeFree s
      let (d1, s) := takeFree s
      let (cause, s) := takeCode s 4
      beginPart (recordEv s 0x10 0xFF (unitModule s) d0 d1) p cause
    match b with
    | .stream _ => if allCtx.any (fun n => fld s (aCtx n) 4 1 == 1) then s else go 16 s
    | .fabric p _ => if portState s p.toNat != 3 then s else go 18 s))

/-! ## Engine resets -/

/-- A context faults by a reset, whatever the mode: CREATED, LOADED, RUNNING or PAUSED, it becomes FAULTED. -/
def forceFault (s : State) (unit : BitVec 32) (n : CtxId) : State :=
  if 1 ≤ ctxState s n && ctxState s n ≤ 4 then
    let ids := chainCmds s n
    let s := casAbort (abortTasks s n) n 1
    let s := ids.foldl (fun s id => completeId s id stFault unit) s
    setCtxState (errRecord s (.module n) (errWord stFault n unit 0)) n 5
  else s

def clearStat (s : State) (t : TileId) : State :=
  setReg { s with stat := s.stat.clear (fun i => i / 64 == t.toNat), statMeta := s.statMeta.set (fun _ => 0) t.toNat 0 } (aArrStatus t) 0

/-- The streams of a tile end and their requests and return places are given back; TASK and DEFERRED of their contexts stay. -/
def clearStreams (s : State) (t : TileId) : State :=
  let mine := s.strms.filter (fun x => x.1 / 64 == t.toNat)
  let s := discardWhere s (fun q => match q.kind with | .read u _ _ => u == t | _ => false)
  let caps := mine.flatMap (fun x => match x.2 with | some y => y.caps.map (fun c => c.port) | none => [])
  let s := (caps.filter (fun p => p < 16)).foldl portFree s
  let s := mine.foldl (fun s x => setFld (setFld s (aSte t (x.1 % 64)) 0 3 0) (aSte t (x.1 % 64)) 8 8 0) s
  { s with strms := s.strms.filter (fun x => x.1 / 64 != t.toNat), walks := s.walks.filter (fun w => w.t != t) }

/-- The gathers of a tile end, and their requests. -/
def clearGaths (s : State) (t : TileId) : State :=
  let s := discardWhere s (fun q => match q.kind with | .gather u _ => u == t | _ => false)
  { s with gaths := s.gaths.filter (fun g => g.t != t) }

/-- What an engine reset clears, beside the work that its contexts lose by faulting. The array's blocks are cleared as the
table of R438 says, though R84 names every event that clears them and not this one; a debug unlock (R400) clears them too
(DESIGN CHOICE, log entry 132). -/
def clearEngine (s : State) (e : Engine) : State :=
  match e with
  | .array t => clearStat (accZero { setEng s t 0 ⟨none, none⟩ with drains := s.drains.filter (fun d => d.t != t) } t 0 32) t
  | .louvre t => setReg { setEng s t 1 ⟨none, none⟩ with lvTiles := s.lvTiles.set lvDef t.toNat [], lvrNext := s.lvrNext.set (fun _ => 0) t.toNat 0 } (aLvr t) 0
  | .vector t => { setEng s t 2 ⟨none, none⟩ with vloads := s.vloads.filter (fun v => v.t != t) }
  | .stream t => clearStreams s t
  | .gather t => clearGaths s t
  | .decode _ | .token _ | .shuffle | .reduction | .dispatch => s

/-- Abort a context's buckets and its batch. -/
def abortRed (s : State) (n : CtxId) : State := abortBatch (abortBuckets s n 2) n

/-- ENGINE_RESET (R437, R438): the effect of an engine reset that has begun. -/
def execEngineReset (e : Engine) (s : State) : Outcome State Fault Refusal :=
  .next (
    if !e.wf || !waiting s (.engine e) then s
    else
      let hs := holders s e
      let s := setActed s (.engine e)
      let unit := match e with
        | .array t | .vector t | .louvre t | .stream t | .gather t => unitTile s t
        | _ => unitModule s
      let s := clearEngine (hs.foldl (fun s n => forceFault s unit n) s) e
      match e with
      | .decode _ | .token _ | .shuffle => hs.foldl (fun s n => casAbort s n 1) s
      | .reduction => hs.foldl (fun s n => abortBuckets s n 2) s
      | .dispatch => hs.foldl abortBatch s
      | _ => s)

/-- ENGINE_RESET_COMPLETE. -/
def execEngineResetComplete (e : Engine) (s : State) : Outcome State Fault Refusal :=
  .next (if e.wf && (runOf s (.engine e)).any (fun r => r.acted) then resetDone s (.engine e) else s)

/-! ## Partition resets -/

/-- The registers of a tile that a partition reset returns to their reset values. -/
def resetTileRegs (s : State) (t : TileId) : State :=
  let s := (List.range 32).foldl (fun s h => setReg s (aThread t (BitVec.ofNat 5 h)) 0) s
  let s := (List.range 16).foldl (fun s q => setFld s (aTq t q) 32 10 0) s
  let s := (List.range 8).foldl (fun s k => setReg s (aCurve t (8 + k)) 0) s
  let s := (List.range 16).foldl (fun s n => setReg s (aTbl t (BitVec.ofNat 4 n)) 0) s
  let s := setFld s (aArrRing t) 0 21 0
  let s := (List.range 64).foldl (fun s n => setReg s (aSte t n) (BitVec.ofNat 64 (fld s (aSte t n) 4 3 * 16))) s
  resetRegs s (fun a => a == aArrCount t || a == aArrNonfin t || a == aConv t || a == aLvr t || a == aLvrCount t ||
    a == aPoison t || a == aEcc t || a == aRtr t || (aChain t 0 ≤ a && a ≤ aChain t 3) ||
    (tileA t.toNat 0x2F80 ≤ a && a < tileA t.toNat 0x2FC0))

/-- A ring's tile, as a partition reset leaves it: its slots with their stream contexts, regions, queues' configuration, instructions,
row map and fences stay. -/
def resetTile (s : State) (t : TileId) : State :=
  let s := clearGaths (clearStreams s t) t
  let s := (List.range 3).foldl (fun s k => setEng s t k ⟨none, none⟩) s
  let s := resetTileRegs (clearStat (accZero s t 0 32) t) t
  { s with
    sp := SMap.clear (fun i => i / 2 ^ 22 == t.toNat) s.sp,
    spMark := SMap.clear (fun i => i / 2 ^ 17 == t.toNat) s.spMark,
    tokens := s.tokens.clear (fun i => i / 256 == t.toNat),
    qhead := s.qhead.clear (fun i => i / 16 == t.toNat),
    curveOwned := s.curveOwned.clear (fun i => i / 16 == t.toNat),
    pcOut := s.pcOut.clear (fun i => i / 32 == t.toNat),
    wake := s.wake.clear (fun i => i / 32 == t.toNat),
    lvrNext := s.lvrNext.clear (fun i => i == t.toNat),
    lvTiles := s.lvTiles.clear (fun i => i == t.toNat),
    ringIn := s.ringIn.clear (fun i => i == t.toNat),
    barriers := s.barriers.clear (fun i => i / 32 == t.toNat),
    loads := s.loads.filter (fun l => l.t != t),
    drains := s.drains.filter (fun d => d.t != t),
    stamps := s.stamps.filter (fun x => x.t != t),
    vloads := s.vloads.filter (fun v => v.t != t),
    chains := s.chains.filter (fun c => c.1 / 4 != t.toNat),
    chainWaits := s.chainWaits.filter (fun w => w.t != t),
    sends := s.sends.filter (fun x => x.t != t),
    codeDone := s.codeDone.filter (fun d => d.t != t),
    tlb := s.tlb.filter (fun x => x.t != t) }

/-- A shutter controller as after reset: open, with no request. -/
def openRing (s : State) (r : RingId) : State :=
  setShutState (setShut (setReg s (aShtHold r.toNat) 0) r (shutDef 0)) r 0

/-- The effect on a ring. The contexts with a task in it fault (R438); so does its slot owner, but one with no task there, in a
domain of several rings, only if RUNNING, as R248 says (R438 does not: DESIGN CHOICE, log entry 130). -/
def resetRing (s : State) (r : RingId) : State :=
  let owner := allCtx.filter (fun n => (ownedRings s n).contains r)
  let inRing (n : CtxId) : Bool := (ringTiles r).any (fun t => (List.range 8).any (taskOfCtx s t n))
  let alone := domainRings s (headOf s r) == [r]
  let hit := allCtx.filter (fun n => inRing n || (owner.contains n && (alone || ctxState s n == 3)))
  let s := hit.foldl (fun s n => forceFault s (unitAddr 1 r.toNat (nodeId s)) n) s
  let s := owner.foldl abortRed s
  let s := (ringTiles r).foldl resetTile s
  let s := { s with
    ringBeats := s.ringBeats.filter (fun b => b.ring != r),
    beats := s.beats.filter (fun b => !crossesRing b r),
    tsigs := s.tsigs - (s.beats.filter (fun b => isToken b && crossesRing b r)).length }
  skewClear s [r]

/-- The effect on the memory partition: the Transom is invalidated without writing back. -/
def resetMemory (s : State) : State :=
  let s := allCtx.foldl (fun s n => forceFault s (unitModule s) n) s
  let s := allCtx.foldl (fun s n => if (casOf s n).isNone then s else
    let s := casAbort s n 1
    let (code, s) := takeCode s 4
    setFld s (aCasState n) 4 4 code) s
  let s := allCtx.foldl abortRed s
  let s := discardWhere s (fun _ => true)
  let s := s.groups.foldl (fun s g => dropGroup s g.1) s
  { s with groups := [], fills := [], merges := [], reqs := [], walks := [], tlb := [], curLvl := [] }

/-- The effect on the fabric partition: the ports key again. NG.NODE keeps its value and its lock: the manual does not say
whether this reset covers the register (R10; DESIGN CHOICE, log entry 131). -/
def resetFabric (s : State) : State :=
  let s := allCtx.foldl abortRed s
  (List.range 8).foldl (fun s p =>
    let s := setPort s p { portOf s p with waiting := [], msgs := [] }
    if portState s p == 2 || portState s p == 3 then retrain s p true else s) s

/-- The effect on the host partition: requests in flight and held completion entries are discarded; the pairs stay bound. -/
def resetHost (s : State) : State :=
  let s := s.cq.foldl (fun s e => satAdd s (aPair e.q) 32 16 1) s
  let ss := s.latch.sessions.map (fun x => { x with waits := 0 })
  let s := { s with latch := { s.latch with sessions := ss }, sup := { s.sup with startAfter := s.sup.startAfter.map (fun _ => 0) } }
  let s := setPort { s with cq := [], cqCredit := [], replies := [], hostOut := [] } 8 { portOf s 8 with waiting := [], msgs := [] }
  if portState s 8 == 3 || portState s 8 == 2 then retrain s 8 true else s

/-- PARTITION_RESET (R436, R438): the effect of a partition reset that has begun. -/
def execPartitionReset (p : BitVec 5) (s : State) : Outcome State Fault Refusal :=
  .next (
    if !waiting s (.part p) then s
    else
      let s := setActed s (.part p)
      if p.toNat < 16 then resetRing s (BitVec.ofNat 4 p.toNat)
      else if p == 16 then resetMemory s
      else if p == 17 then allCtx.foldl (fun s n => casAbort s n 1) s
      else if p == 18 then resetFabric s
      else resetHost s)

/-- CLK.REGION.SPANNED of the rings of a domain. -/
def showSpan (s : State) (h : RingId) : State :=
  let rs := domainRings s h
  rs.foldl (fun s r => setFld s (aRegion r.toNat) 2 1 (if rs.length == 1 then 0 else 1)) s

/-- A ring leaves its domain and forms one of its own, open. A domain is contiguous (R237): the rings below it keep their head,
those above it go on under the lowest of them, with the controller that the domain had (DESIGN CHOICE, log entry 98). -/
def ownDomain (s : State) (r : RingId) : State :=
  let h := headOf s r
  let c := shutOf s h
  let st := shutState s h
  let above := (domainRings s h).filter (fun x => decide (r < x))
  let s := match above with
    | [] => s
    | low :: _ =>
      let s := above.foldl (fun s x => setFld s aShtMap (4 * x.toNat) 4 low.toNat) s
      showSpan (setShutState (setShut s low c) low st) low
  let s := openRing (setFld s aShtMap (4 * r.toNat) 4 r.toNat) r
  let s := showSpan s r
  if h == r then s else showSpan s h

/-- PARTITION_RESET_COMPLETE: fences, map-outs and a ring's going out of service take effect, and PART_RESET completes. -/
def execPartitionResetComplete (p : BitVec 5) (s : State) : Outcome State Fault Refusal :=
  .next (
    if !(runOf s (.part p)).any (fun r => r.acted) then s
    else
      let r : RingId := BitVec.ofNat 4 p.toNat
      let s := resetDone s (.part p)
      let s := if p.toNat < 16 then ownDomain (applyWaiting s r) r else s
      let cs := s.cmds.filter (fun c => c.taken && c.page == .owner && (entryOp c.entry).toNat == 0x20 && fieldAt c.entry 8 1 == p.toNat)
      cs.foldl (fun s c => finish s c stOk) s)

/-- PART_RESET (R441): it completes after the reset it asks for, or joins. -/
def execPartReset (p : Page) (s : State) : Outcome State Fault Refusal :=
  .next (command 0x20 p (fun c s => beginPart s (BitVec.ofNat 5 (fieldAt c.entry 8 1)) 0) s)

/-- MOD_RESET (R441). -/
def execModReset (p : Page) (s : State) : Outcome State Fault Refusal :=
  .next (command 0x1F p (fun c s => warmStart (finish s c stOk) 0) s)

/-! ## Crossings (R440) and router faults (R257) -/

def aCdc : Nat := modG 0x3010

/-- The partition that holds a region; none for Lintel's and Latch's. -/
def regionPart (r : Nat) : Option (BitVec 5) :=
  if r < 16 then some (BitVec.ofNat 5 r)
  else if r == 16 || r == 17 then some 16
  else if r == 19 then some 18
  else if r == 20 then some 19
  else if r == 21 then some 17
  else none

/-- CDC_STALL: region A runs, region B is stopped. -/
def execCdcStall (crossing : BitVec 16) (regionA regionB : BitVec 5) (s : State) : Outcome State Fault Refusal :=
  .next (powered s (
    if s.sup.cdcErr.contains crossing || 23 ≤ regionA.toNat || 23 ≤ regionB.toNat then s
    else
      let s := { s with sup := { s.sup with cdcErr := s.sup.cdcErr ++ [crossing] } }
      let s := satAdd (setFld (setFld (setFld s aCdc 0 16 crossing.toNat) aCdc 16 5 regionA.toNat) aCdc 24 5 regionB.toNat) aCdc 32 16 1
      let s := recordEv s 4 0xFF (unitModule s) (reg s aCdc) 0
      match regionPart regionB.toNat with
      | some p => detect s (.part p) 5
      | none => warmStart s 5))

/-- RESYNC: the handshake after the reset, at which a crossing leaves its error state. -/
def execResync (crossing : BitVec 16) (s : State) : Outcome State Fault Refusal :=
  .next (powered s (
    let busy := s.resets.any (fun r => !r.done && match r.obj with | .part _ => true | _ => false)
    if busy then s else { s with sup := { s.sup with cdcErr := s.sup.cdcErr.filter (fun c => c != crossing) } }))

/-- A router fault takes its ring out of service: the ring is recorded in the flash and partition-reset; it leaves service as
the reset ends (R257). -/
def routerFault (s : State) (r : RingId) : State :=
  if isOos s r || s.flash.oos.contains r then s
  else
    let s := { s with flash := { s.flash with oos := s.flash.oos ++ [r] } }
    let (cause, s) := takeCode s 4
    beginPart s (BitVec.ofNat 5 r.toNat) cause

/-- At a tick: the rings of the routers that have counted 16 or more parity errors within 1,000 ticks (R257). -/
def tickRouters (s : State) : State :=
  let ts := s.gov.parityTimes.map (fun e => (e.1, e.2.filter (fun t => s.tick < t + 1000)))
  let bad := ts.filter (fun e => 16 ≤ e.2.length)
  let s := { s with gov := { s.gov with parityTimes := ts.filter (fun e => 0 < e.2.length && e.2.length < 16) } }
  bad.foldl (fun s e => routerFault s (ringOf (BitVec.ofNat 9 e.1))) s

/-- ROUTER_FAULT: the control-state check of a router of the ring fails. -/
def execRouterFault (r : RingId) (s : State) : Outcome State Fault Refusal :=
  .next (powered s (routerFault s r))

end Sys2Proof.Machine
end

