-- ==== Sys2Proof/Machine/Tick.lean ====
section
/-! DEFINITION. Lintel's tick (R410, R417 to R421, R452, R63): telemetry, the governor, power holds, the event log. -/

namespace Sys2Proof.Machine

open Host (Outcome)

def aEvWr : Nat := modG 0x4300

/-- A record of the event log (R452). -/
def evBytes (e : EvRec) : List Byte :=
  bytesOf e.time.toNat 8 ++ bytesOf e.code.toNat 2 ++ [e.ctx, 0] ++ bytesOf e.unit.toNat 4 ++ bytesOf e.d0.toNat 8 ++ bytesOf e.d1.toNat 8

/-- Write one record at EVLOG.WR mod 4,096. -/
def writeEv (s : State) (e : EvRec) : State :=
  let w := fld s aEvWr 0 32
  setFld (writePhys s 0xF (ownerBase + 0x20000 + w % 4096 * 32) (evBytes e) 0 false) aEvWr 0 32 (w + 1)

/-- Every event since the last tick is written, in order. -/
def tickEvents (s : State) : State := s.evs.foldl writeEv { s with evs := [] }

/-- An error of a row comes in the cycle in which Lintel clears the record (R12): its flag, CE or UE, wins; the count reads 1
where the flag read 1 (the setting is lost to the record) and 0 where it read 0 (an ordinary setting, which is recorded). -/
def eccTogether (s : State) (x : TileId × Bool × Nat × Nat) : State :=
  let a := aEcc x.1
  let flag := if x.2.1 then 17 else 16
  let was := fld s a flag 1
  let s := if x.2.1 then s else satAdd s a 0 16 1
  let s := setFld (setFld (setFld s a 16 2 0) a flag 1 1) a 32 8 was
  if was == 1 then s else setFld (setFld s a 18 4 x.2.2.1) a 22 10 x.2.2.2

/-- Lintel reads and clears the ECC records of every tile (R63); `now` lists the errors of the same cycle. -/
def tickEcc (s : State) (now : List (TileId × Bool × Nat × Nat)) : State :=
  allTiles.foldl (fun s t => match now.find? (fun x => x.1 == t) with
    | some x => eccTogether s x
    | none => if fld s (aEcc t) 16 2 == 0 then s else setFld (setFld s (aEcc t) 16 2 0) (aEcc t) 32 8 0) s

/-- What is left of the hardware limits of R421: the trip's hold ends at this tick, the critical one below 105 °C. -/
def tickLimits (s : State) (tempC : Nat) : State :=
  let tripped := allRings.any (fun r => (shutOf s r).reqs.any (fun x => x.cause == 2 && x.src == srcTrip))
  let s := if tripped then dropAll s srcTrip else setFld s aTelem 36 1 0
  if fld s aTelem 38 1 == 1 && tempC < 105 then setFld (dropAll s srcCrit) aTelem 38 1 0 else s

/-- The measurements of the tick just ended (R417). -/
def tickTelem (s : State) (m : Telemetry) : State :=
  let s := setFld (setFld (setFld s aTelem 0 12 m.inputW.toNat) aTelem 12 16 m.inputMv.toNat) aTelem 28 8 m.tempC.toNat
  let s := setFld s aTelem 37 1 (if 100 ≤ m.tempC.toNat then 1 else 0)
  let watts (s : State) (h : RingId) : Nat := (domainRings s h).foldl (fun a r => a + m.ringW.getD r.toNat 0) 0
  let s := allRings.foldl (fun s r =>
    if headOf s r == r then setFld s (aDom r.toNat) 8 12 (min (watts s r) 4095) else setReg s (aDom r.toNat) 0) s
  allCtx.foldl (fun s n =>
    let e := min ((ownedHeads s n).foldl (fun a h => a + fld s (aDom h.toNat) 8 12) 0) 4095
    let s := setFld s (aPwrCtx n) 0 12 e
    if budgetOf s n < e then satAdd s (aPwrCtx n) 16 32 1 else s) s

/-- The duty h of a domain. -/
def dutyOf (s : State) (h : RingId) : Nat := fld s (aDom h.toNat) 0 5
def setDuty (s : State) (h : RingId) (x : Nat) : State := setFld s (aDom h.toNat) 0 5 (min 16 x)

/-- ceil(16 × (a − b) / a). -/
def dutyStep (a b : Nat) : Nat := (16 * (a - b) + a - 1) / max 1 a

/-- The slot owner of a head's domain that may be held: none without an owner, or with one RESETTING or DESTROYING. -/
def holdOwner (s : State) (h : RingId) : Option CtxId :=
  let n : CtxId := BitVec.ofNat 4 (fld s aShtOwner (4 * h.toNat) 4)
  if fld s aShtOwned h.toNat 1 == 0 || 6 ≤ ctxState s n then none else some n

/-- R419: one domain's duty from its owner's estimate and BUDGET. -/
def dutyOwn (s : State) (h : RingId) : State :=
  match holdOwner s h with
  | none => setDuty s h 0
  | some n =>
    let e := fld s (aPwrCtx n) 0 12
    let b := budgetOf s n
    if b < e then setDuty s h (dutyOf s h + dutyStep e b)
    else if 10 * e < 9 * b then setDuty s h (dutyOf s h - 1) else s

def prioOf (s : State) (n : CtxId) : Nat := fld s (aCtx n) 8 3

/-- R419: above CEIL, the lowest priority level with a domain below 16. -/
def dutyCeil (s : State) : State :=
  let w := fld s aTelem 0 12
  let c := fld s aCeil 0 12
  if w ≤ c then s
  else
    let hs := (heads s).filterMap (fun h => (holdOwner s h).map (fun n => (h, prioOf s n)))
    let low (k : Nat) : Bool := hs.any (fun (x : RingId × Nat) => x.2 == k && dutyOf s x.1 < 16)
    match (List.range 8).find? low with
    | none => s
    | some k => (hs.filter (fun (x : RingId × Nat) => x.2 == k)).foldl (fun s x => setDuty s x.1 (dutyOf s x.1 + dutyStep w c)) s

def stepMin (s : State) : Nat := fld s aClkCtl 0 3
def stepMax (s : State) : Nat := fld s aClkCtl 4 3
def hotNow (s : State) : Bool := 100 ≤ fld s aTelem 28 8

/-- R420: with the step locked, heat adds to every duty instead. -/
def dutyHot (s : State) : State :=
  if stepMin s != stepMax s || !hotNow s then s
  else (heads s).foldl (fun s h => if (holdOwner s h).isNone then s else setDuty s h (dutyOf s h + 2)) s

/-- One more tick of a condition, or none. -/
def streak (m : SMap Nat) (k : Nat) (on : Bool) : SMap Nat := m.set (fun _ => 0) k (if on then m.get (fun _ => 0) k + 1 else 0)

/-- The consecutive ticks of the conditions of R420 and of CLK.CTL.REGION_EN. -/
def tickCounts (s : State) : State :=
  let w := fld s aTelem 0 12
  let c := fld s aCeil 0 12
  let calm := 100 * w ≤ 85 * c && (heads s).all (fun h => dutyOf s h == 0) && fld s aTelem 28 8 ≤ 90
  let each (m : SMap Nat) (p : RingId → Bool) : SMap Nat := allRings.foldl (fun m r => streak m r.toNat (p r)) m
  let head (r : RingId) : Bool := headOf s r == r
  { s with gov := { s.gov with
      dutyHi := each s.gov.dutyHi (fun r => head r && 8 ≤ dutyOf s r),
      dutyMid := each s.gov.dutyMid (fun r => domainRings s r == [r] && 4 ≤ dutyOf s r),
      divs := each s.gov.divs (fun r => domainRings s r == [r] && calm),
      ceilHi := if c < w then s.gov.ceilHi + 1 else 0,
      calm := if calm then s.gov.calm + 1 else 0 } }

/-- A module-level change may begin now. -/
def mayStep (s : State) : Bool :=
  s.gov.change.isNone && !inHoldover s && fld s aClkStatus 1 1 == 0 &&
    (match s.gov.lastDone with
     | none => true
     | some t => t + (if hotNow s then 4 else 20) ≤ s.tick)

/-- R420: the module's next step, if it is to move: its target, which CLK.CTL bounds; a locked step does not move (R410). -/
def stepWanted (s : State) : Option Nat :=
  let k := presentStep s
  let slow := hotNow s || s.gov.dutyHi.any (fun e => 20 ≤ e.2) || 20 ≤ s.gov.ceilHi
  let may (b : Nat) : Option Nat := if stepMin s ≤ b && b ≤ stepMax s && fld s (aClkStep b) 0 1 == 1 then some b else none
  if stepMin s == stepMax s then none
  else if slow then (if k < stepMax s then may (k + 1) else none)
  else if 200 ≤ s.gov.calm && stepMin s < k then may (k - 1) else none

/-- The lowest single-ring domain whose divider is to change, with its new code. -/
def divWanted (s : State) : Option (RingId × Nat) :=
  if fld s aClkCtl 7 1 == 0 then none
  else
    let want (r : RingId) : Option (RingId × Nat) :=
      let d := fld s (aRegion r.toNat) 0 2
      if domainRings s r != [r] || isOos s r then none
      else if 20 ≤ s.gov.dutyMid.get (fun _ => 0) r.toNat && d < 3 then some (r, d + 1)
      else if 200 ≤ s.gov.divs.get (fun _ => 0) r.toNat && 0 < d then some (r, d - 1) else none
    allRings.findSome? want

/-- The oldest region-level change that has been asked for and may be made (R413, R414). -/
def regionAsked (s : State) : Option (RingId × Nat) :=
  (s.gov.regionNext.find? (fun e => regionFree s e.1)).map (fun e => (e.1, e.2.toNat))

/-- The regions latch their periods and their copies of the Timebase, and Lintel computes from the latches of the last tick what a
period took on the mean: the ns that passed and the periods (R408). -/
def tickLatch (s : State) : State :=
  let now := (List.range 23).map (fun r => (periodOf s r, nowNs s))
  let means := (now.zip s.gov.latches).map (fun e => (e.1.2 - e.2.2, e.1.1 - e.2.1))
  { s with gov := { s.gov with latches := now, means := means } }

/-- A CTX_LOAD that waited for its rings' dividers goes on (R414). -/
def tickLoads (s : State) : State := (s.cmds.filter loadWaits).foldl (fun s c => ctxLoad c s) s

/-- The frequency decision of a tick: one change, the module's first. -/
def tickFreq (s : State) : State :=
  match (if mayStep s then stepWanted s else none) with
  | some k => let s := beginChange s k (hotNow s); { s with gov := { s.gov with calm := 0 } }
  | none =>
    match (if s.gov.change.isNone then regionAsked s else none).or (if s.gov.change.isNone then divWanted s else none) with
    | none => s
    | some (r, d) =>
      let s := { s with gov := { s.gov with regionNext := s.gov.regionNext.filter (fun e => e.1 != r) } }
      let slower := decide (fld s (aRegion r.toNat) 0 2 < d)
      let s := regionChange s r d
      let s := { s with gov := { s.gov with dutyMid := s.gov.dutyMid.set (fun _ => 0) r.toNat 0, divs := s.gov.divs.set (fun _ => 0) r.toNat 0 } }
      if slower then setDuty s r 0 else s

/-- R418: raise and withdraw the power holds of tick i. -/
def tickHolds (s : State) : State :=
  (heads s).foldl (fun s h =>
    if (s.tick + 16 - h.toNat) % 16 < dutyOf s h then satAdd (shutRaise s h 2 srcPower) (aDom h.toNat) 32 32 1
    else shutDrop s h (fun x => x.cause == 2 && x.src == srcPower)) s

/-- The Timebase parent that the fabric manager advised (R360, R361, R381). -/
def tickParent (s : State) : State :=
  match s.gov.parentNext with
  | none => s
  | some p =>
    let s := { s with gov := { s.gov with parentNext := none } }
    if fld s aNgTb 0 4 == p.toNat % 16 then s
    else
      let s := setFld (setFld s aNgTb 0 4 p.toNat) aNgTb 4 1 0
      let s := { s with gov := { s.gov with goodOffsets := 0, parentUntrusted := false, exchange := none } }
      let s := showUntrusted s
      if p == 8 then setFld (setFld s aNgTb 8 8 0) aNgTb 4 1 (1 - fld s aNgTb 5 1) else s

/-- The engines that may hold work: those of the tiles with an operation, a stream or a gather, and the X-die's. -/
def engagedEngines (s : State) : List Engine :=
  let tiles : List Nat := (s.engines.map (fun (e : Nat × EngineQ) => e.1 / 4) ++
    (s.strms.map (fun (e : Nat × Option Strm) => e.1 / 64) ++ (s.gaths.map (fun (g : Gath) => g.t.toNat) ++ s.lvTiles.map (fun (e : Nat × List LvTile) => e.1)))).eraseDups
  let onTile (k : Nat) : List Engine :=
    let t : TileId := BitVec.ofNat 9 k
    [.array t, .vector t, .louvre t, .stream t, .gather t]
  tiles.flatMap onTile ++
    (if s.cas.isEmpty then [] else (List.range 48).map (fun k => .decode (BitVec.ofNat 6 k)) ++
      (List.range 16).map (fun k => .token (BitVec.ofNat 4 k)) ++ [.shuffle]) ++
    [.reduction, .dispatch]

/-- The ring of a tile's engine had an open cycle since the last tick; an X-die engine has no domain. -/
def openedSince (s : State) (e : Engine) : Bool :=
  match e with
  | .array t | .vector t | .louvre t | .stream t | .gather t =>
    s.cycles.get (fun _ => 0) (ringOf t).toNat != s.openSeen.get (fun _ => 0) (ringOf t).toNat
  | _ => true

/-- R432: one more tick without advance, or the count starts again. What was seen is kept as one more than the count. -/
def watchEngine (seen idle : SMap Nat) (s : State) (e : Engine) : State :=
  let k := engineCode e
  let p := s.progress.get (fun _ => 0) k + 1
  if (holders s e).isEmpty then s
  else
    let n := if p == seen.get (fun _ => 0) k && openedSince s e then idle.get (fun _ => 0) k + 1 else 0
    { s with watchSeen := s.watchSeen.set (fun _ => 0) k p, watchIdle := s.watchIdle.set (fun _ => 0) k n }

/-- The counts of the engine progress watchdog and of the shutter watchdog (R432, R434). -/
def tickWatch (s : State) : State :=
  let closed := allRings.foldl (fun (m : SMap Nat) h =>
    if shutCounted s h then m.set (fun _ => 0) (shutKey h) (s.watchIdle.get (fun _ => 0) (shutKey h) + 1) else m) []
  let s' := (engagedEngines s).foldl (watchEngine s.watchSeen s.watchIdle) { s with watchSeen := [], watchIdle := closed }
  { s' with openSeen := s.cycles }

/-- MANAGEMENT_TICK: the next multiple of 500,000 ns of Timebase; Lintel acts once the module is READY. -/
def execManagementTick (m : Telemetry) (s : State) : Outcome State Fault Refusal :=
  .next (powered s (
    let s := advanceTo s ((nowNs s / 500000 + 1) * 500000)
    let s := tickLatch { s with tick := nowNs s / 500000 }
    if fld s aLatch 0 2 != 1 then s
    else
      let s := tickLimits (tickTelem (tickEcc (tickEvents s) m.eccNow) m) m.tempC.toNat
      let s := tickChange (tickRestore s) m.idlePllLocked
      let s := dutyHot (dutyCeil ((heads s).foldl dutyOwn s))
      let s := tickLoads (tickHolds (tickFreq (tickCounts s)))
      let s := tickWatch (tickRouters (tickRows (tickParent s)))
      if isNormal s then { s with sup := { s.sup with normalTicks := s.sup.normalTicks + 1 } } else s))

end Sys2Proof.Machine
end

