-- ==== Sys2Proof/Machine/OwnerCmds.lean ====
section
/-! DEFINITION. The owner commands on trust (R399, R400). -/

namespace Sys2Proof.Machine

open Host (Outcome)

/-- COMMIT: each SVN counter rises to the SVN of the running image. -/
def commitSvn (c : Cmd) (s : State) : State :=
  let v := svnsOf (bankSet s)
  let o := s.otp
  let s := { s with otp := { o with
    svnAster := max o.svnAster (v.getD 0 0), svnYarrow := max o.svnYarrow (v.getD 1 0), svnTansy := max o.svnTansy (v.getD 2 0) } }
  let s := setReg s aSvn (BitVec.ofNat 64 (s.otp.svnAster + s.otp.svnYarrow * 2 ^ 8 + s.otp.svnTansy * 2 ^ 16))
  finish s c stOk

def execCommit (p : Page) (s : State) : Outcome State Fault Refusal := .next (command 0x1B p commitSvn s)

/-- The token that a command's operand names. -/
def readToken (s : State) (c : Cmd) : State × Except Byte OwnerToken :=
  let op := (entryOp c.entry).toNat
  match readOwner s (fieldAt c.entry 8 8) (Config.tokenSize op) 1 with
  | (s, .error st) => (s, .error st)
  | (s, .ok bs) => (s, .ok (Config.token op bs))

/-- The token is signed by an unrevoked owner key, for this part, and over a nonce issued and not used. -/
def tokenOk (s : State) (k : OwnerToken) : Bool :=
  ownerKey s (sha256 k.pub) && Config.lmsVerify k.pub k.signed k.sig && k.fusedId == Config.fusedId && s.latch.nonces.contains k.nonce

/-- The nonce has served its command. -/
def useNonce (s : State) (k : OwnerToken) : State := { s with latch := { s.latch with nonces := s.latch.nonces.erase k.nonce } }

/-- A signed command: its effect, where the token is well formed and verifies; the effect uses the nonce. -/
def withToken (s : State) (c : Cmd) (good : OwnerToken → Bool) (body : OwnerToken → State → State) : State :=
  match readToken s c with
  | (s, .error st) => finish s c st
  | (s, .ok k) =>
    if !k.formatOk || !good k then finish s c stMalformed
    else if !tokenOk s k then finish s c stAuthFail
    else body k s

/-- Program the lowest slot free, and revoke the older ones asked for. -/
def programOwner (c : Cmd) (k : OwnerToken) (s : State) : State :=
  let n := s.otp.owner.length
  let older : BitVec 3 := k.revoke &&& BitVec.ofNat 3 (2 ^ n - 1)
  let s := { s with otp := { s.otp with owner := s.otp.owner ++ [k.hash], revoke := s.otp.revoke ||| older } }
  finish (showSlots s) c stOk

/-- OWNER_SET: without a slot programmed it needs no signature; with all three it is malformed. -/
def ownerSet (c : Cmd) (s : State) : State :=
  if 3 ≤ s.otp.owner.length then finish s c stMalformed
  else if s.otp.owner.isEmpty then
    match readToken s c with
    | (s, .error st) => finish s c st
    | (s, .ok k) => if k.formatOk then programOwner c k s else finish s c stMalformed
  else withToken s c (fun _ => true) (fun k s => programOwner c k (useNonce s k))

def execOwnerSet (p : Page) (s : State) : Outcome State Fault Refusal := .next (command 0x1C p ownerSet s)

/-- PEER_POLICY: the list of R396, kept until the next start. -/
def peerPolicy (c : Cmd) (s : State) : State :=
  withToken s c (fun k => k.digests.length ≤ 16) (fun k s =>
    let s := useNonce s k
    finish { s with latch := { s.latch with peers := k.digests } } c stOk)

def execPeerPolicy (p : Page) (s : State) : Outcome State Fault Refusal := .next (command 0x1D p peerPolicy s)

/-- The UCB pages of a context. -/
def pagesOf (n : CtxId) : List Page :=
  [.module n, .gang n] ++ allRings.map (fun r => .ring r n) ++ allTiles.map (fun t => .tile t n)

/-- Every command of a context ends with ABORTED, those that its queues still hold among them; CTX_RESET and CTX_DESTROY in flight
are no exception here, because the context itself is gone (R400). -/
def abortEvery (s : State) (n : CtxId) : State :=
  let s := (pagesOf n).foldl (fun s p => if qHead s p == qTail s p then s else abortQueue s p) s
  (s.cmds.filter (fun c => c.ctx == n)).foldl (fun s c => complete s c stAborted (pageUnit s c.page)) s

/-- Every context is destroyed, its work and its state. -/
def destroyAll (s : State) : State :=
  let s := allCtx.foldl (fun s n => if ctxState s n == 0 then s else abortEvery s n) s
  let s := allCtx.foldl (fun s n => if ctxState s n == 0 then s else zeroise (beginDestroy s n) n) s
  let s := s.strms.foldl (fun s e => setReg s (aSte (BitVec.ofNat 9 (e.1 / 64)) (e.1 % 64)) 0) s
  { s with strms := [], portUse := [], beats := [], walks := [], sends := [], gaths := [] }

/-- The steps of R400. -/
def unlock (c : Cmd) (k : OwnerToken) (s : State) : State :=
  let s := { s with cmds := s.cmds.filter (fun x => x.id != c.id) }
  let s := closeSessions (destroyAll s) (fun _ => true)
  let s := { s with sp := [], spMark := [], acc := [] }
  let (key, s) := takeRandom s 96
  let s := setMeas { s with latch := { s.latch with moduleKey := key }, dbgScope := k.scope % 4 } 4 (extend (measOf s 4) (sha256 k.whole))
  finish (setFld s aLatch 4 1 1) c stOk

/-- DBG_UNLOCK. -/
def dbgUnlock (c : Cmd) (s : State) : State :=
  withToken s c (fun _ => true) (fun k s => if entropyOk s then unlock c k (useNonce s k) else finish s c stNoEntropy)

def execDbgUnlock (p : Page) (s : State) : Outcome State Fault Refusal := .next (command 0x1E p dbgUnlock s)

end Sys2Proof.Machine
end

