-- ==== Sys2Proof/Machine/Bus.lean ====
section
/-! DEFINITION. The management bus (R467, R468), the TAP (R401, R471) and Lintel's debug port (R400). -/

namespace Sys2Proof.Machine

open Host (Outcome)

/-- The bus answers: power is on and the packet error check holds. -/
def busAnswers (s : State) (pecOk : Bool) : Bool := pecOk && s.sup.inputOn

def busReply (s : State) (bs : List Byte) : State := { s with sup := { s.sup with bus := s.sup.bus ++ [bs] } }

/-- STATUS: RST.STATUS, then PWR.TELEM. -/
def execStatus (pecOk : Bool) (s : State) : Outcome State Fault Refusal :=
  .next (if busAnswers s pecOk then busReply s (bytesOf (reg s aRstStatus).toNat 8 ++ bytesOf (reg s aTelem).toNat 8) else s)

/-- ID: FUSED_ID, then UCB.ID bytes 4 to 7. -/
def execBusId (pecOk : Bool) (s : State) : Outcome State Fault Refusal :=
  .next (if busAnswers s pecOk then
      busReply s (bytesOf Config.fusedId.toNat 16 ++ (bytesOf (ucbId s (.module 0)).toNat 8).drop 4) else s)

/-- ALERT read: the cause byte. -/
def execAlertRead (pecOk : Bool) (s : State) : Outcome State Fault Refusal :=
  .next (if busAnswers s pecOk then busReply s [s.sup.alert] else s)

/-- ALERT write: the bits that are 1 are cleared, but for QUARANTINE and POWER_CYCLE. -/
def execAlertWrite (pecOk : Bool) (v : Byte) (s : State) : Outcome State Fault Refusal :=
  .next (if busAnswers s pecOk then { s with sup := { s.sup with alert := s.sup.alert &&& ~~~(v &&& 0x3C) } } else s)

/-- WARM_RESET: ignored in quarantine and while POWER_CYCLE is set. -/
def execWarmReset (pecOk : Bool) (s : State) : Outcome State Fault Refusal :=
  .next (if busAnswers s pecOk && !s.sup.alert.getLsbD 1 then warmStart s 0 else s)

/-- TEST holds no longer. -/
def endTest (s : State) : State := if modeOf s == 2 then setFld s aRstStatus 0 2 1 else s

def setTap (s : State) (i : Tap) : State := { s with sup := { s.sup with tap := i } }

/-- The data register under IDCODE (R471): the low four bits of the stepping, 0x9512, bits 11 to 1, which the manual does not give,
and 1 (log entry 103). -/
def tapIdcode : BitVec 32 :=
  BitVec.ofNat 32 (Config.stepping.toNat % 16 * 2 ^ 28 + 0x9512 * 2 ^ 12 + Config.jtagMaker.toNat * 2 + 1)

/-- The instruction is offered in the present lock state (R401). -/
def tapOffered (s : State) (i : Tap) : Bool :=
  match i with
  | .bypass | .idcode | .samplePreload => true
  | .extest | .privateTest | .privateEnd => s.dbgScope % 2 == 1

/-- JTAG_INSTRUCTION: a private test instruction holds the module in TEST; any other ends that. -/
def execJtagInstruction (i : Tap) (s : State) : Outcome State Fault Refusal :=
  .next (powered s (
    if !tapOffered s i then s
    else
      let s := setTap s i
      match i with
      | .privateTest => if isNormal s then setFld s aRstStatus 0 2 2 else s
      | .bypass | .idcode | .samplePreload | .extest | .privateEnd => endTest s))

/-- TRST_N_LOW: Test-Logic-Reset, which selects IDCODE. -/
def execTrstNLow (s : State) : Outcome State Fault Refusal := .next (powered s (endTest (setTap s .idcode)))

/-- DEBUG_HOLD: through Lintel's debug port, opened by SCOPE bit 1. -/
def execDebugHold (r : RingId) (raise : Bool) (s : State) : Outcome State Fault Refusal :=
  .next (powered s (
    if s.dbgScope / 2 % 2 == 0 || isOos s r then s
    else if raise then shutRaise s r 6 (srcDebug + 1)
    else shutWithdraw s r 6 (srcDebug + 1)))

end Sys2Proof.Machine
end

