-- ==== Sys2Proof/Machine/Requests.lean ====
section
/-! DEFINITION. The requests of the shutters from outside their units (R242, R244): what may be raised, and withdrawn. -/

namespace Sys2Proof.Machine

open Host (Outcome)

/-- The tile and the stream context that a request's source number names; the crossing; the context of a Casement run. -/
def srcTile (src : Nat) : TileId := BitVec.ofNat 9 ((src - srcStream 0 0) / 64)
def isStream (src : Nat) : Bool := decide (srcStream 0 0 ≤ src ∧ src < srcHold 0)
def isHold (r : RingId) (src : Nat) : Bool := src == srcHold r
def isSkew (src : Nat) : Bool := decide (srcSkew 0 0 ≤ src ∧ src < srcSkew 15 0)
def isCas (src : Nat) : Bool := decide (srcCas 0 ≤ src ∧ src < srcCas 0 + 16)

/-- A fabric port replays (R352). -/
def replaying (s : State) : Bool := (List.range 8).any (fun p => (portOf s p).recovery)

/-- The unit that `src` names finds what R242 says of the cause, at the domain of ring r: a stream engine its data late; a crossing its
skew at the limit; the governor the present tick held (R418); an X-die injection its data absent, for link retry while a fabric port
replays; SHT.HOLD at 1; the debugger, in debug mode. -/
def mayRaise (s : State) (r : RingId) (cause src : Nat) : Bool :=
  let h := headOf s r
  if isOos s r then false
  else match cause with
    | 0 | 4 => (isStream src && headOf s (ringOf (srcTile src)) == h && tileRuns s (srcTile src) &&
          lateCause s (srcTile src) (src % 64) == some cause) ||
        (cause == 0 && h == headOf s 0 && isCas src && injectLate s (BitVec.ofNat 4 (src - srcCas 0)))
    | 1 => isSkew src && skewed s ((src - srcSkew 0 0) / 32) &&
        (headOf s (BitVec.ofNat 4 ((src - srcSkew 0 0) / 32)) == h || headOf s (BitVec.ofNat 4 ((src - srcSkew 0 0) / 32 + 1)) == h)
    | 2 => src == srcPower && decide ((s.tick + 16 - h.toNat) % 16 < fld s (modG (0x2400 + 8 * h.toNat)) 0 5)
    | 3 => h == headOf s 0 && isCas src && injectLate s (BitVec.ofNat 4 (src - srcCas 0)) && replaying s
    | 5 => (isHold h src && fld s (aShtHold h.toNat) 0 1 == 1) ||
        (h == headOf s 0 && isCas src && injectLate s (BitVec.ofNat 4 (src - srcCas 0)))
    | 6 => s.dbgScope / 2 % 2 == 1
    | _ => false

/-- SHUTTER_REQUEST (R242). -/
def execShutterRequest (r : RingId) (cause : BitVec 3) (src : Nat) (s : State) : Outcome State Fault Refusal :=
  .next (powered s (if mayRaise s r cause.toNat src then shutRaise s r cause.toNat src else s))

/-- A withdrawal comes when R242 says: for a stream or an X-die injection once the data it was late with are there, or it is gone; for
skew hold after 8 cycles; for SHT.HOLD at 0; for debug hold as the debugger wishes. The governor's holds end at a tick. -/
def mayWithdraw (s : State) (r : RingId) (cause src : Nat) : Bool :=
  let h := headOf s r
  if cause == 1 then (shutOf s h).reqs.any (fun x => x.cause == 1 && x.src == src && decide (x.time + 8 ≤ periodOf s h.toNat))
  else if cause == 2 then false
  else if cause == 6 then true
  else if isHold h src then fld s (aShtHold h.toNat) 0 1 == 0
  else if isStream src then (lateCause s (srcTile src) (src % 64)).isNone
  else if isCas src then !injectLate s (BitVec.ofNat 4 (src - srcCas 0))
  else true

/-- SHUTTER_WITHDRAW (R242, R244). -/
def execShutterWithdraw (r : RingId) (cause : BitVec 3) (src : Nat) (s : State) : Outcome State Fault Refusal :=
  .next (if mayWithdraw s r cause.toNat src then shutWithdraw s r cause.toNat src else s)

end Sys2Proof.Machine
end

