-- ==== Sys2Proof/Machine/Scalar.lean ====
section
/-! DEFINITION. The scalar, predicate, branch, thread-control and system-register instructions (R171 to R177, R184 to
R187), and the end of a thread's wait (R164, R476). -/

namespace Sys2Proof.Machine

open Host (Outcome)

/-! ## Integer operations (R171) -/

/-- Leading zeros of a 64-bit value, 0 to 64. -/
def clz64 (a : Word64) : Nat := 64 - bitLen a.toNat

/-- Trailing zeros, counted from bit i upward with f bits left. -/
def ctzFrom (a : Nat) : Nat → Nat → Nat
  | 0, i => i
  | f + 1, i => if (a >>> i) % 2 == 1 then i else ctzFrom a f (i + 1)

def ctz64 (a : Word64) : Nat := ctzFrom a.toNat 64 0

/-- Set bits. -/
def popc64 (a : Word64) : Nat := (List.range 64).foldl (fun n i => n + (a.toNat >>> i) % 2) 0

/-- The result of an ALU minor (R171). -/
def aluOp (minor : Nat) (a b : Word64) : Word64 :=
  let sh := b.toNat % 64
  match minor with
  | 0x00 => a + b
  | 0x01 => a - b
  | 0x02 => a &&& b
  | 0x03 => a ||| b
  | 0x04 => a ^^^ b
  | 0x05 => a &&& ~~~b
  | 0x06 => a <<< sh
  | 0x07 => a >>> sh
  | 0x08 => a.sshiftRight sh
  | 0x09 => a.rotateLeft sh
  | 0x0A => a * b
  | 0x0B => BitVec.ofNat 64 (a.toNat * b.toNat / 2 ^ 64)
  | 0x0C => BitVec.ofInt 64 (a.toInt * b.toInt / 2 ^ 64)
  | 0x0D => if a.slt b then a else b
  | 0x0E => if a.slt b then b else a
  | 0x0F => if a.ult b then a else b
  | 0x10 => if a.ult b then b else a
  | 0x11 => BitVec.ofNat 64 (clz64 a)
  | 0x12 => BitVec.ofNat 64 (ctz64 a)
  | _ => BitVec.ofNat 64 (popc64 a)

/-- The result of an ALUI minor (R171). -/
def aluiOp (minor : Nat) (a imm : Word64) : Word64 :=
  let sh := imm.toNat % 64
  match minor with
  | 0 => a + imm
  | 1 => a &&& imm
  | 2 => a ||| imm
  | 3 => a ^^^ imm
  | 4 => a <<< sh
  | 5 => a >>> sh
  | 6 => a.sshiftRight sh
  | _ => a * imm

/-- The condition of a PCMP (R174). -/
def pcmpOp (cmp : Nat) (a b : Word64) : Bool :=
  match cmp with
  | 0 => a == b
  | 1 => a != b
  | 2 => a.ult b
  | 3 => !(a.ult b)
  | 4 => a.slt b
  | 5 => !(a.slt b)
  | _ => a &&& b != 0

/-- ALU (R171). -/
def execAlu (t : TileId) (h : ThreadId) (s : State) : Outcome State Fault Refusal :=
  .next (issue s t h (isMajor 0x01) fun x s =>
    x.next (setGreg s t h (iRd x.w) (aluOp (wf x.w 0 8) (x.g s (iRa x.w)) (x.g s (iRb x.w)))))

/-- ALUI (R171). -/
def execAlui (t : TileId) (h : ThreadId) (s : State) : Outcome State Fault Refusal :=
  .next (issue s t h (isMajor 0x02) fun x s =>
    x.next (setGreg s t h (iRd x.w) (aluiOp (iMinor x.w) (x.g s (iRa x.w)) (sext32 (iImm x.w)))))

/-- LI (R172). -/
def execLi (t : TileId) (h : ThreadId) (s : State) : Outcome State Fault Refusal :=
  .next (issue s t h (isMajor 0x03) fun x s =>
    let v := if wf x.w 48 1 == 0 then BitVec.ofNat 64 (wf x.w 0 48)
      else putF (x.g s (iRd x.w)) 48 16 (wf x.w 0 16)
    x.next (setGreg s t h (iRd x.w) v))

/-- PCMP (R174). -/
def execPcmp (t : TileId) (h : ThreadId) (s : State) : Outcome State Fault Refusal :=
  .next (issue s t h (isMajor 0x04) fun x s =>
    let b := if wf x.w 38 1 == 0 then x.g s (iRb x.w) else sext32 (iImm x.w)
    let r := pcmpOp (iMinor x.w) (x.g s (iRa x.w)) b
    let pd := wf x.w 51 3
    let o := predOf s t h pd
    x.next (setPred s t h pd (match wf x.w 49 2 with | 0 => r | 1 => o && r | _ => o || r)))

/-- PLOG (R175). -/
def execPlog (t : TileId) (h : ThreadId) (s : State) : Outcome State Fault Refusal :=
  .next (issue s t h (isMajor 0x05) fun x s =>
    let i := (if predOf s t h (wf x.w 48 3) then 2 else 0) + (if predOf s t h (wf x.w 45 3) then 1 else 0)
    x.next (setPred s t h (wf x.w 51 3) ((wf x.w 32 4 >>> i) % 2 == 1)))

/-- The target of a branch by displacement. -/
def dispTarget (x : Iss) : Int := (x.pc : Int) + (BitVec.ofNat 16 (wf x.w 0 16)).toInt

/-- BR (R176). -/
def execBr (t : TileId) (h : ThreadId) (s : State) : Outcome State Fault Refusal :=
  .next (issue s t h (isMinor 0x08 0) fun x s =>
    x.goto (setGreg s t h (iRd x.w) (BitVec.ofNat 64 (x.pc + 1))) (dispTarget x))

/-- JR: with RD = RA it jumps to the old value (R176). -/
def execJr (t : TileId) (h : ThreadId) (s : State) : Outcome State Fault Refusal :=
  .next (issue s t h (isMinor 0x08 1) fun x s =>
    let target := x.g s (iRa x.w)
    x.goto (setGreg s t h (iRd x.w) (BitVec.ofNat 64 (x.pc + 1))) target.toNat)

/-- LOOP (R176). -/
def execLoop (t : TileId) (h : ThreadId) (s : State) : Outcome State Fault Refusal :=
  .next (issue s t h (isMinor 0x08 2) fun x s =>
    let v := x.g s (iRa x.w) - 1
    let s := setGreg s t h (iRa x.w) v
    x.goto s (if x.g s (iRa x.w) == 0 then (x.pc : Int) + 1 else dispTarget x))

/-! ## Thread control (R184, R185) -/

/-- SPAWN: the slot must be assigned to the task and be FREE or HALTED. -/
def execSpawn (t : TileId) (h : ThreadId) (s : State) : Outcome State Fault Refusal :=
  .next (issue s t h (isMinor 0x10 0) fun x s =>
    let a := x.g s (iRa x.w)
    let target : ThreadId := BitVec.ofNat 5 a.toNat
    let st := threadState s t target
    x.check s (firstFail [need (decide (a.toNat < 32)) cThreadParam,
      need ((tslotsOf s t x.k).getLsbD target.toNat) cThreadParam,
      need (st == 0 || st == 3) cThreadParam]) fun s =>
      let pc := wf x.w 0 13
      let s' := startThread s t target x.k pc (x.g s (iRb x.w))
      x.next s')

/-- HALT: every earlier store has been granted at its issue, so the thread moves to HALTED. The PC stays at the HALT. -/
def execHalt (t : TileId) (h : ThreadId) (s : State) : Outcome State Fault Refusal :=
  .next (issue s t h (isMinor 0x10 1) fun x s => setThreadState s x.t x.h 3)

/-- Cycles with the shutter open of a tile's region (R186). -/
def regionCycle (s : State) (t : TileId) : Nat := s.cycles.get (fun _ => 0) (rowOf t)

/-- WAITC: the thread next issues at or after issue cycle + IMM32; it waits where that is not 0. -/
def execWaitc (t : TileId) (h : ThreadId) (s : State) : Outcome State Fault Refusal :=
  .next (issue s t h (isMinor 0x10 2) fun x s =>
    let s := x.next s
    if iImm x.w == 0 then s
    else setThreadState { s with wake := s.wake.set (fun _ => 0) (keyThread t h) (regionCycle s t + iImm x.w) } t h 2)

/-- FENCE: every earlier store, AMO and system-register write took effect at its issue, so it ends at once. -/
def execFence (t : TileId) (h : ThreadId) (s : State) : Outcome State Fault Refusal :=
  .next (issue s t h (isMinor 0x10 3) fun x s => x.next s)

/-! ## System registers (R186, R187, R444) -/

/-- The access level that PERF.GRANT gives a context: 0 none, 1 own, 2 all; 3 acts as 0 (R443). -/
def grantOf (s : State) (n : CtxId) : Nat := fld s (modG (0x4000 + 8 * n.toNat)) 0 2 % 3

/-- A selected counter may be read at OWN when its selection is filtered to the context, else at ALL (R444). -/
def selReadable (s : State) (n : CtxId) (sel : Nat) : Bool :=
  grantOf s n == 2 || (grantOf s n == 1 && fld s sel 16 1 == 1 && fld s sel 12 4 == n.toNat)

/-- The value of a system register, none where the read faults with SYSREG. -/
def sysRead (x : Iss) (s : State) (sr : Nat) : Option Word64 :=
  let all (a : Nat) : Option Word64 := if grantOf s x.n == 2 then some (reg s a) else none
  if sr == 0 then some (BitVec.ofNat 64 x.h.toNat)
  else if sr == 1 then some (BitVec.ofNat 64 x.k)
  else if sr == 2 then some (BitVec.ofNat 64 x.n.toNat)
  else if sr == 3 then some (BitVec.ofNat 64 (unitTile s x.t).toNat)
  else if sr == 4 then some (BitVec.ofNat 64 (tslotsOf s x.t x.k).toNat)
  else if sr == 5 then
    some (BitVec.ofNat 64 ((s.preds.get (fun _ => 0) (keyThread x.t x.h)).toNat / 2 * 2 + 1))
  else if sr == 8 then some (BitVec.ofNat 64 (regionCycle s x.t))
  else if sr == 9 then some (reg s aTbNow)
  else if sr == 0x10 then some (reg s (aSeed x.n))
  else if sr == 0x11 then some (BitVec.ofNat 64 (fld s (aStep x.n) 0 32))
  else if 0x100 ≤ sr && sr < 0x108 then
    if selReadable s x.n (modG (0x4100 + 8 * (sr - 0x100))) then some (reg s (tileA x.t.toNat (0x2F80 + 8 * (sr - 0x100)))) else none
  else if 0x108 ≤ sr && sr < 0x110 then
    if selReadable s x.n (modG (0x4140 + 8 * (sr - 0x108))) then some (reg s (modG (0x4180 + 8 * (sr - 0x108)))) else none
  else if sr == 0x110 then all (aPoison x.t)
  else if sr == 0x111 then all (aArrCount x.t)
  else if sr == 0x112 then all (aArrNonfin x.t)
  else if sr == 0x113 then all (aConv x.t)
  else if sr == 0x114 then all (aLvrCount x.t)
  else none

/-- RDSR. -/
def execRdsr (t : TileId) (h : ThreadId) (s : State) : Outcome State Fault Refusal :=
  .next (issue s t h (isMinor 0x11 0) fun x s =>
    match sysRead x s (wf x.w 0 12) with
    | some v => x.next (setGreg s t h (iRd x.w) v)
    | none => x.fault s cSysreg)

/-- WRSR: PREDS, SEED and STEP are writable. -/
def execWrsr (t : TileId) (h : ThreadId) (s : State) : Outcome State Fault Refusal :=
  .next (issue s t h (isMinor 0x11 1) fun x s =>
    let v := x.g s (iRa x.w)
    match wf x.w 0 12 with
    | 5 => x.next { s with preds := s.preds.set (fun _ => 0) (keyThread t h) (BitVec.ofNat 8 (v.toNat % 256 / 2 * 2)) }
    | 0x10 => x.next (setReg s (aSeed x.n) v)
    | 0x11 => x.next (setReg s (aStep x.n) (BitVec.ofNat 64 (v.toNat % 2 ^ 32)))
    | _ => x.fault s cSysreg)

/-- An ENGINE_FAULT event reaches the thread that issued the faulting operation (R189): the thread is READY, WAIT or
HALTED and its context is live. A second fault of the cycle, and one that meets a context reset, leave their cause (R59). -/
def execEngineFault (t : TileId) (h : ThreadId) (cause : Byte) (s : State) : Outcome State Fault Refusal :=
  .next (
    let st := threadState s t h
    let n := taskCtx s t (threadTask s t h)
    if !tileOn s t || cause == 0 then s
    else if (st == 1 || st == 2 || st == 3) && ctxLive s n then threadFault s t h cause.toNat
    else if taskValid s t (threadTask s t h) && (st == 1 || st == 2 || st == 3 || (st == 0 && ctxState s n == 6)) then
      lateFault s t h n cause.toNat
    else s)

end Sys2Proof.Machine
end

