-- ==== Sys2Proof/Machine/ThreadMem.lean ====
section
/-! DEFINITION. The scratchpad instructions of a thread: loads, stores and atomics, and the delivery of loaded data
(R57, R178 to R183, R189). -/

namespace Sys2Proof.Machine

open Host (Outcome)

/-- The task-relative address of a scratchpad access, in 64 bits (R178). -/
def memAddr (x : Iss) (s : State) : Word64 := x.g s (iRa x.w) + sext32 (iImm x.w)

/-- The checks of R178 in their order. -/
def memCheck (x : Iss) (s : State) (size : Nat) : Option Nat :=
  let a := memAddr x s
  firstFail [need (decide (a.toNat < 2 ^ 21)) cSpBound,
    need (a.toNat % size == 0) cAlign,
    need (spPhys s x.t x.k a.toNat size).isSome cSpBound]

/-- The physical address of an access that passed its checks. -/
def memPhys (x : Iss) (s : State) (size : Nat) : Nat := (spPhys s x.t x.k (memAddr x s).toNat size).getD 0

/-- Extend a loaded value of `size` bytes (R179). -/
def extendLoad (v size : Nat) (sx : Bool) : Word64 :=
  if sx then (BitVec.ofNat (8 * size) v).signExtend 64 else BitVec.ofNat 64 v

/-- Capture a load: its data and its granules' mark, delivered later (R57). -/
def captureLoad (x : Iss) (s : State) (pa size : Nat) (sx : Bool) : State :=
  let v := extendLoad (natOf (spRead s x.t pa size)) size sx
  let l : Load := ⟨x.t, x.h, BitVec.ofNat 5 (iRd x.w), v, BitVec.ofNat 2 (spMark s x.t pa size), x.pc⟩
  { eccRead s x.t pa size with loads := s.loads ++ [l] }

/-- LD (R179). -/
def execLd (t : TileId) (h : ThreadId) (s : State) : Outcome State Fault Refusal :=
  .next (issue s t h (isMajor 0x0C) fun x s =>
    let size := 2 ^ iSize x.w
    x.check s (memCheck x s size) fun s => x.next (captureLoad x s (memPhys x s size) size (iSx x.w == 1)))

/-- ST (R179, R180). -/
def execSt (t : TileId) (h : ThreadId) (s : State) : Outcome State Fault Refusal :=
  .next (issue s t h (isMajor 0x0D) fun x s =>
    let size := 2 ^ iSize x.w
    x.check s (memCheck x s size) fun s =>
      x.next (spStamp (spWrite s t (memPhys x s size) (bytesOf (x.g s (iRd x.w)).toNat size)) t (memPhys x s size) size))

/-- The word an AMO writes (R183). -/
def amoNew (minor : Nat) (old b d : Word64) : Word64 :=
  match minor with
  | 0 => old + b
  | 1 => b
  | _ => if old == b then d else old

/-- An AMO: an indivisible read-modify-write of an 8 B word, whose one read the capture records; in normal service a poisoned or uncorrectable granule
leaves the word unwritten and faults at the delivery (R183, R189). -/
def amo (t : TileId) (h : ThreadId) (minor : Nat) (s : State) : State :=
  issue s t h (isMinor 0x0E minor) fun x s =>
    x.check s (memCheck x s 8) fun s =>
      let pa := memPhys x s 8
      let old : Word64 := BitVec.ofNat 64 (natOf (spRead s t pa 8))
      let new := amoNew minor old (x.g s (iRb x.w)) (x.g s (iRd x.w))
      let bad := isNormal s && spMark s t pa 8 != 0
      let s := captureLoad x s pa 8 false
      x.next (if bad then s else spStamp (spMerge s t pa (bytesOf new.toNat 8) false false) t pa 8)

/-- AMOADD (R183). -/
def execAmoadd (t : TileId) (h : ThreadId) (s : State) : Outcome State Fault Refusal := .next (amo t h 0 s)

/-- AMOSWAP (R183). -/
def execAmoswap (t : TileId) (h : ThreadId) (s : State) : Outcome State Fault Refusal := .next (amo t h 1 s)

/-- AMOCAS (R183). -/
def execAmocas (t : TileId) (h : ThreadId) (s : State) : Outcome State Fault Refusal := .next (amo t h 2 s)

/-- Remove the first load of a thread. -/
def dropLoad (t : TileId) (h : ThreadId) : List Load → List Load
  | [] => []
  | l :: r => if l.t == t && l.h == h then r else l :: dropLoad t h r

/-- The oldest load of a thread is delivered, or faults on its granule in normal service (R57, R182, R189). -/
def execLoadDelivery (t : TileId) (h : ThreadId) (s : State) : Outcome State Fault Refusal :=
  .next (if !tileRuns s t then s else
    match s.loads.find? (fun l => l.t == t && l.h == h) with
    | none => s
    | some l =>
      let s := { s with loads := dropLoad t h s.loads }
      if isNormal s && l.mark != 0 then
        threadFault (setFld s (aThread t h) 8 13 l.pc) t h (if l.mark == 1 then cPoison else cSpUe)
      else
        let s := setGreg s t h l.rd.toNat l.value
        if l.mark == 0 then s
        else perfTile (satAdd s (aPoison t) 0 16 1) t (some (taskCtx s t (threadTask s t h))) 0 0x12 none 1)

end Sys2Proof.Machine
end

