-- ==== Sys2Proof/Machine/Threads.lean ====
section
/-! DEFINITION. The end of a thread's wait (R164, R476): the waiting instruction is presented again and takes effect if its
condition holds. -/

namespace Sys2Proof.Machine

open Host (Outcome)

/-- The state an outcome answers; the meanings of Guver instructions always answer one. -/
def stateOf (s : State) (o : Outcome State Fault Refusal) : State :=
  match o with
  | .next s' => s'
  | _ => s

/-- The meaning of a word by its major opcode and minor; a word of no row faults as ILLEGAL_ENC in any of them. -/
def present (t : TileId) (h : ThreadId) (s : State) : State :=
  let w := (issOf s t h).w
  stateOf s (match iMajor w with
    | 0x01 => execAlu t h s
    | 0x02 => execAlui t h s
    | 0x03 => execLi t h s
    | 0x04 => execPcmp t h s
    | 0x05 => execPlog t h s
    | 0x08 => if iMinor w == 0 then execBr t h s else if iMinor w == 1 then execJr t h s else execLoop t h s
    | 0x0C => execLd t h s
    | 0x0D => execSt t h s
    | 0x0E => if iMinor w == 0 then execAmoadd t h s else if iMinor w == 1 then execAmoswap t h s else execAmocas t h s
    | 0x10 => match iMinor w with
      | 0 => execSpawn t h s
      | 1 => execHalt t h s
      | 2 => execWaitc t h s
      | _ => execFence t h s
    | 0x11 => if iMinor w == 0 then execRdsr t h s else execWrsr t h s
    | 0x20 => match eMinor w with
      | 0 => execStrmStart t h s
      | 1 => execStrmStop t h s
      | 2 => execStrmWait t h s
      | 3 => execBarrier t h s
      | _ => execStrmStat t h s
    | 0x22 => execGath t h s
    | 0x24 => execArr t h s
    | 0x26 => execLvr t h s
    | 0x28 => .next (vec t h (eMinor w) s)
    | 0x2A => if eMinor w == 0 then execCurveLoad t h s else execTableLoad t h s
    | 0x30 => if eMinor w == 0 then execSend t h s else execMsend t h s
    | 0x34 => execChain t h s
    | 0x38 => match eMinor w with
      | 0 => execTinc t h s
      | 1 => execTwait t h s
      | 2 => execTtake t h s
      | 3 => execTread t h s
      | _ => execTsig t h s
    | 0x3C => execUcmd t h s
    | _ => execAlu t h s)

/-- A thread's chain waits to begin. -/
def waitsChain (s : State) (t : TileId) (h : ThreadId) : Bool :=
  s.chainWaits.any (fun w => w.t == t && w.thread == some h)

/-- THREAD_WAIT_END: WAITC ends at its cycle; another waiting instruction takes effect, or its thread keeps waiting. A CHAIN takes effect
when its chain comes to wait for its engines (R217). -/
def execThreadWaitEnd (t : TileId) (h : ThreadId) (s : State) : Outcome State Fault Refusal :=
  .next (
    let due := s.wake.get (fun _ => 0) (keyThread t h)
    if threadState s t h != 2 || !tileRuns s t || !ctxLive s (taskCtx s t (threadTask s t h)) || waitsChain s t h ||
        !cycleOk s (rowOf t) due then s
    else if due != 0 then
      let s := advanceCycles s (rowOf t) due
      setThreadState { s with wake := s.wake.set (fun _ => 0) (keyThread t h) 0 } t h 1
    else
      let s' := present t h (setThreadState s t h 1)
      if threadState s' t h == 2 && s'.chainWaits.length == s.chainWaits.length then s else s')

end Sys2Proof.Machine
end

