-- ==== Sys2Proof/Machine/Dispatch.lean ====
section
/-! DEFINITION. The dispatch of a command to its meaning: one arm per constructor. -/

namespace Sys2Proof.Machine

def exec (i : Instr) (s : State) : Host.Outcome State Fault Refusal :=
  match i with
  | .nop p => Sys2Proof.Machine.execNop p s
  | .ctxCreate p => Sys2Proof.Machine.execCtxCreate p s
  | .ctxLoad p => Sys2Proof.Machine.execCtxLoad p s
  | .ctxStart p => Sys2Proof.Machine.execCtxStart p s
  | .ctxPause p => Sys2Proof.Machine.execCtxPause p s
  | .ctxPauseComplete n => Sys2Proof.Machine.execCtxPauseComplete n s
  | .ctxResume p => Sys2Proof.Machine.execCtxResume p s
  | .ctxReset p => Sys2Proof.Machine.execCtxReset p s
  | .reclaimSweepEnd n => Sys2Proof.Machine.execReclaimSweepEnd n s
  | .ctxDestroy p => Sys2Proof.Machine.execCtxDestroy p s
  | .zeroisationEnd n => Sys2Proof.Machine.execZeroisationEnd n s
  | .gangDefine p answers => Sys2Proof.Machine.execGangDefine p answers s
  | .gangBind p => Sys2Proof.Machine.execGangBind p s
  | .runChain p => Sys2Proof.Machine.execRunChain p s
  | .query p => Sys2Proof.Machine.execQuery p s
  | .memMap p => Sys2Proof.Machine.execMemMap p s
  | .memUnmap p => Sys2Proof.Machine.execMemUnmap p s
  | .redConfig p => Sys2Proof.Machine.execRedConfig p s
  | .redReplay p => Sys2Proof.Machine.execRedReplay p s
  | .dspConfig p => Sys2Proof.Machine.execDspConfig p s
  | .casConfig p => Sys2Proof.Machine.execCasConfig p s
  | .casStart p => Sys2Proof.Machine.execCasStart p s
  | .casStop p => Sys2Proof.Machine.execCasStop p s
  | .casStopComplete n => Sys2Proof.Machine.execCasStopComplete n s
  | .casSeek p => Sys2Proof.Machine.execCasSeek p s
  | .commit p => Sys2Proof.Machine.execCommit p s
  | .ownerSet p => Sys2Proof.Machine.execOwnerSet p s
  | .peerPolicy p => Sys2Proof.Machine.execPeerPolicy p s
  | .dbgUnlock p => Sys2Proof.Machine.execDbgUnlock p s
  | .modReset p => Sys2Proof.Machine.execModReset p s
  | .partReset p => Sys2Proof.Machine.execPartReset p s
  | .dbgMode p => Sys2Proof.Machine.execDbgMode p s
  | .groupCommandComplete id => Sys2Proof.Machine.execGroupCommandComplete id s
  | .doorbell q p v => Sys2Proof.Machine.execDoorbell q p v s
  | .ucbCqWrite q p v => Sys2Proof.Machine.execUcbCqWrite q p v s
  | .resume q p => Sys2Proof.Machine.execResume q p s
  | .flush q p => Sys2Proof.Machine.execFlush q p s
  | .errValidClear q addr setNow => Sys2Proof.Machine.execErrValidClear q addr setNow s
  | .hold q r v => Sys2Proof.Machine.execHold q r v s
  | .disable q port v => Sys2Proof.Machine.execDisable q port v s
  | .reenable q pair => Sys2Proof.Machine.execReenable q pair s
  | .ledgerRdWrite q n v => Sys2Proof.Machine.execLedgerRdWrite q n v s
  | .perfSelWrite q k v => Sys2Proof.Machine.execPerfSelWrite q k v s
  | .perfMselWrite q k v => Sys2Proof.Machine.execPerfMselWrite q k v s
  | .windowWrite q v => Sys2Proof.Machine.execWindowWrite q v s
  | .registerWrite q addr v => Sys2Proof.Machine.execRegisterWrite q addr v s
  | .regWr q tag addr len v => Sys2Proof.Machine.execRegWr q tag addr len v s
  | .regRd q tag addr len => Sys2Proof.Machine.execRegRd q tag addr len s
  | .memWr q tag va len data => Sys2Proof.Machine.execMemWr q tag va len data s
  | .memRd q tag va len => Sys2Proof.Machine.execMemRd q tag va len s
  | .health tag => Sys2Proof.Machine.execHealth tag s
  | .tbParent tag port => Sys2Proof.Machine.execTbParent tag port s
  | .peerReset tag node => Sys2Proof.Machine.execPeerReset tag node s
  | .attest tag nonce ctx => Sys2Proof.Machine.execAttest tag nonce ctx s
  | .openSession tag ct role ctx pairs pub sig => Sys2Proof.Machine.execOpenSession tag ct role ctx pairs pub sig s
  | .nonce tag => Sys2Proof.Machine.execNonce tag s
  | .imgWrite tag bank offset len data => Sys2Proof.Machine.execImgWrite tag bank offset len data s
  | .imgSelect tag bank flags => Sys2Proof.Machine.execImgSelect tag bank flags s
  | .alu t h => Sys2Proof.Machine.execAlu t h s
  | .alui t h => Sys2Proof.Machine.execAlui t h s
  | .li t h => Sys2Proof.Machine.execLi t h s
  | .pcmp t h => Sys2Proof.Machine.execPcmp t h s
  | .plog t h => Sys2Proof.Machine.execPlog t h s
  | .br t h => Sys2Proof.Machine.execBr t h s
  | .jr t h => Sys2Proof.Machine.execJr t h s
  | .loop t h => Sys2Proof.Machine.execLoop t h s
  | .ld t h => Sys2Proof.Machine.execLd t h s
  | .loadDelivery t h => Sys2Proof.Machine.execLoadDelivery t h s
  | .st t h => Sys2Proof.Machine.execSt t h s
  | .amoadd t h => Sys2Proof.Machine.execAmoadd t h s
  | .amoswap t h => Sys2Proof.Machine.execAmoswap t h s
  | .amocas t h => Sys2Proof.Machine.execAmocas t h s
  | .spawn t h => Sys2Proof.Machine.execSpawn t h s
  | .halt t h => Sys2Proof.Machine.execHalt t h s
  | .waitc t h => Sys2Proof.Machine.execWaitc t h s
  | .fence t h => Sys2Proof.Machine.execFence t h s
  | .threadWaitEnd t h => Sys2Proof.Machine.execThreadWaitEnd t h s
  | .rdsr t h => Sys2Proof.Machine.execRdsr t h s
  | .wrsr t h => Sys2Proof.Machine.execWrsr t h s
  | .engineFault t h cause => Sys2Proof.Machine.execEngineFault t h cause s
  | .strmStart t h => Sys2Proof.Machine.execStrmStart t h s
  | .strmStop t h => Sys2Proof.Machine.execStrmStop t h s
  | .streamDrained t n => Sys2Proof.Machine.execStreamDrained t n s
  | .strmWait t h => Sys2Proof.Machine.execStrmWait t h s
  | .barrier t h => Sys2Proof.Machine.execBarrier t h s
  | .strmStat t h => Sys2Proof.Machine.execStrmStat t h s
  | .streamDone t n => Sys2Proof.Machine.execStreamDone t n s
  | .gath t h => Sys2Proof.Machine.execGath t h s
  | .gatherComplete t => Sys2Proof.Machine.execGatherComplete t s
  | .arr t h => Sys2Proof.Machine.execArr t h s
  | .arrayPassBegin t => Sys2Proof.Machine.execArrayPassBegin t s
  | .arrayPassComplete t => Sys2Proof.Machine.execArrayPassComplete t s
  | .lvr t h => Sys2Proof.Machine.execLvr t h s
  | .louvreTransferComplete t => Sys2Proof.Machine.execLouvreTransferComplete t s
  | .fma t h => Sys2Proof.Machine.execFma t h s
  | .add t h => Sys2Proof.Machine.execAdd t h s
  | .mul t h => Sys2Proof.Machine.execMul t h s
  | .min t h => Sys2Proof.Machine.execMin t h s
  | .max t h => Sys2Proof.Machine.execMax t h s
  | .cvt t h => Sys2Proof.Machine.execCvt t h s
  | .curve t h => Sys2Proof.Machine.execCurve t h s
  | .dcurve t h => Sys2Proof.Machine.execDcurve t h s
  | .rsum t h => Sys2Proof.Machine.execRsum t h s
  | .rmax t h => Sys2Proof.Machine.execRmax t h s
  | .sign t h => Sys2Proof.Machine.execSign t h s
  | .mask t h => Sys2Proof.Machine.execMask t h s
  | .rcp t h => Sys2Proof.Machine.execRcp t h s
  | .rsqrt t h => Sys2Proof.Machine.execRsqrt t h s
  | .dropmask t h => Sys2Proof.Machine.execDropmask t h s
  | .vectorOpComplete t => Sys2Proof.Machine.execVectorOpComplete t s
  | .curveLoad t h => Sys2Proof.Machine.execCurveLoad t h s
  | .curveLoadComplete t slot => Sys2Proof.Machine.execCurveLoadComplete t slot s
  | .tableLoad t h => Sys2Proof.Machine.execTableLoad t h s
  | .tableLoadComplete t n slot => Sys2Proof.Machine.execTableLoadComplete t n slot s
  | .send t h => Sys2Proof.Machine.execSend t h s
  | .msend t h => Sys2Proof.Machine.execMsend t h s
  | .latSendComplete t => Sys2Proof.Machine.execLatSendComplete t s
  | .beatArrival ix parity meets => Sys2Proof.Machine.execBeatArrival ix parity meets s
  | .boundaryCrossing ix => Sys2Proof.Machine.execBoundaryCrossing ix s
  | .tinc t h => Sys2Proof.Machine.execTinc t h s
  | .twait t h => Sys2Proof.Machine.execTwait t h s
  | .ttake t h => Sys2Proof.Machine.execTtake t h s
  | .tread t h => Sys2Proof.Machine.execTread t h s
  | .tsig t h => Sys2Proof.Machine.execTsig t h s
  | .tsigArrival ix => Sys2Proof.Machine.execTsigArrival ix s
  | .chain t h => Sys2Proof.Machine.execChain t h s
  | .chainBegin t cmd => Sys2Proof.Machine.execChainBegin t cmd s
  | .chainIterationStart t slot stage => Sys2Proof.Machine.execChainIterationStart t slot stage s
  | .chainEnd t slot => Sys2Proof.Machine.execChainEnd t slot s
  | .ucmd t h => Sys2Proof.Machine.execUcmd t h s
  | .ucmdComplete t => Sys2Proof.Machine.execUcmdComplete t s
  | .lookaheadCheck t n => Sys2Proof.Machine.execLookaheadCheck t n s
  | .shutterRequest r cause src => Sys2Proof.Machine.execShutterRequest r cause src s
  | .shutterFreeze r => Sys2Proof.Machine.execShutterFreeze r s
  | .shutterWithdraw r cause src => Sys2Proof.Machine.execShutterWithdraw r cause src s
  | .shutterOpen r => Sys2Proof.Machine.execShutterOpen r s
  | .skewHold r c => Sys2Proof.Machine.execSkewHold r c s
  | .skewHoldExpire r c => Sys2Proof.Machine.execSkewHoldExpire r c s
  | .adaptiveStretch region eighths => Sys2Proof.Machine.execAdaptiveStretch region eighths s
  | .crossingUnderrun ix router => Sys2Proof.Machine.execCrossingUnderrun ix router s
  | .cdcStall crossing regionA regionB => Sys2Proof.Machine.execCdcStall crossing regionA regionB s
  | .resync crossing => Sys2Proof.Machine.execResync crossing s
  | .sliceRequest slice => Sys2Proof.Machine.execSliceRequest slice s
  | .groupFill slice rep => Sys2Proof.Machine.execGroupFill slice rep s
  | .tableWalk t => Sys2Proof.Machine.execTableWalk t s
  | .mergeDelivery slice ix => Sys2Proof.Machine.execMergeDelivery slice ix s
  | .mergeSplit slice ix => Sys2Proof.Machine.execMergeSplit slice ix s
  | .rowDelivery t n => Sys2Proof.Machine.execRowDelivery t n s
  | .refresh stack => Sys2Proof.Machine.execRefresh stack s
  | .rowMapOutDeferred n => Sys2Proof.Machine.execRowMapOutDeferred n s
  | .routerFault r => Sys2Proof.Machine.execRouterFault r s
  | .bucketSeal n chan bucket => Sys2Proof.Machine.execBucketSeal n chan bucket s
  | .redNotice n m => Sys2Proof.Machine.execRedNotice n m s
  | .redDeadline n chan bucket => Sys2Proof.Machine.execRedDeadline n chan bucket s
  | .redDecide n m => Sys2Proof.Machine.execRedDecide n m s
  | .bucketReduceStart n => Sys2Proof.Machine.execBucketReduceStart n s
  | .redPart n m => Sys2Proof.Machine.execRedPart n m s
  | .redShard n m => Sys2Proof.Machine.execRedShard n m s
  | .redOrdered n m => Sys2Proof.Machine.execRedOrdered n m s
  | .gatherFill n chan bucket => Sys2Proof.Machine.execGatherFill n chan bucket s
  | .redGather n m => Sys2Proof.Machine.execRedGather n m s
  | .lateFillComplete n chan bucket => Sys2Proof.Machine.execLateFillComplete n chan bucket s
  | .redAbort n chan bucket step rank cause => Sys2Proof.Machine.execRedAbort n chan bucket step rank cause s
  | .dspRoutes n step src entries => Sys2Proof.Machine.execDspRoutes n step src entries s
  | .routeListFill n => Sys2Proof.Machine.execRouteListFill n s
  | .dspAdmission n => Sys2Proof.Machine.execDspAdmission n s
  | .dspAdmit n step entries => Sys2Proof.Machine.execDspAdmit n step entries s
  | .dspRows n m => Sys2Proof.Machine.execDspRows n m s
  | .dspOutFill n => Sys2Proof.Machine.execDspOutFill n s
  | .dspRet n step index data => Sys2Proof.Machine.execDspRet n step index data s
  | .casDispatch e => Sys2Proof.Machine.execCasDispatch e s
  | .sampleDecodeComplete e => Sys2Proof.Machine.execSampleDecodeComplete e s
  | .consumedRecheck n => Sys2Proof.Machine.execConsumedRecheck n s
  | .scratchRun n cmd => Sys2Proof.Machine.execScratchRun n cmd s
  | .flitReceive port w => Sys2Proof.Machine.execFlitReceive port w s
  | .credit port counts => Sys2Proof.Machine.execCredit port counts s
  | .time port m => Sys2Proof.Machine.execTime port m s
  | .timeExchange => Sys2Proof.Machine.execTimeExchange s
  | .gangCmd m => Sys2Proof.Machine.execGangCmd m s
  | .gangCpl src mtag status err => Sys2Proof.Machine.execGangCpl src mtag status err s
  | .refuse src mtag op reason => Sys2Proof.Machine.execRefuse src mtag op reason s
  | .portTraining port rep => Sys2Proof.Machine.execPortTraining port rep s
  | .keyAttest port nonce => Sys2Proof.Machine.execKeyAttest port nonce s
  | .keyReport port rep => Sys2Proof.Machine.execKeyReport port rep s
  | .keyEncaps port ct => Sys2Proof.Machine.execKeyEncaps port ct s
  | .keyConfirm port v => Sys2Proof.Machine.execKeyConfirm port v s
  | .keyEk ct => Sys2Proof.Machine.execKeyEk ct s
  | .keyingRetry port => Sys2Proof.Machine.execKeyingRetry port s
  | .noCodewordTimeout port => Sys2Proof.Machine.execNoCodewordTimeout port s
  | .cersinTraining rep => Sys2Proof.Machine.execCersinTraining rep s
  | .decapsKeyExpire => Sys2Proof.Machine.execDecapsKeyExpire s
  | .entropyRetest ok => Sys2Proof.Machine.execEntropyRetest ok s
  | .bottomTreeBuild => Sys2Proof.Machine.execBottomTreeBuild s
  | .managementTick m => Sys2Proof.Machine.execManagementTick m s
  | .pllSwitch => Sys2Proof.Machine.execPllSwitch s
  | .vcoreSettled => Sys2Proof.Machine.execVcoreSettled s
  | .pllLockTimeout => Sys2Proof.Machine.execPllLockTimeout s
  | .regionChange r div => Sys2Proof.Machine.execRegionChange r div s
  | .fastTrip inputW => Sys2Proof.Machine.execFastTrip inputW s
  | .crit tempC => Sys2Proof.Machine.execCrit tempC s
  | .refLoss => Sys2Proof.Machine.execRefLoss s
  | .refRestore => Sys2Proof.Machine.execRefRestore s
  | .bandwidthWindowEnd => Sys2Proof.Machine.execBandwidthWindowEnd s
  | .engineHang e => Sys2Proof.Machine.execEngineHang e s
  | .contextDeadline n => Sys2Proof.Machine.execContextDeadline n s
  | .shutterHang r => Sys2Proof.Machine.execShutterHang r s
  | .peerSilent x => Sys2Proof.Machine.execPeerSilent x s
  | .lintelWatchdog => Sys2Proof.Machine.execLintelWatchdog s
  | .resetLimitExceeded x => Sys2Proof.Machine.execResetLimitExceeded x s
  | .booksOutOfBalance b => Sys2Proof.Machine.execBooksOutOfBalance b s
  | .engineReset e => Sys2Proof.Machine.execEngineReset e s
  | .partitionReset p => Sys2Proof.Machine.execPartitionReset p s
  | .partitionResetComplete p => Sys2Proof.Machine.execPartitionResetComplete p s
  | .chipReset => Sys2Proof.Machine.execChipReset s
  | .powerCycle => Sys2Proof.Machine.execPowerCycle s
  | .inputOn => Sys2Proof.Machine.execInputOn s
  | .inputStop => Sys2Proof.Machine.execInputStop s
  | .inputLoss => Sys2Proof.Machine.execInputLoss s
  | .startStepComplete rep => Sys2Proof.Machine.execStartStepComplete rep s
  | .startStepTimeout => Sys2Proof.Machine.execStartStepTimeout s
  | .startRetry => Sys2Proof.Machine.execStartRetry s
  | .knownGood => Sys2Proof.Machine.execKnownGood s
  | .status pecOk => Sys2Proof.Machine.execStatus pecOk s
  | .busId pecOk => Sys2Proof.Machine.execBusId pecOk s
  | .alertRead pecOk => Sys2Proof.Machine.execAlertRead pecOk s
  | .alertWrite pecOk v => Sys2Proof.Machine.execAlertWrite pecOk v s
  | .warmReset pecOk => Sys2Proof.Machine.execWarmReset pecOk s
  | .jtagInstruction ix => Sys2Proof.Machine.execJtagInstruction ix s
  | .entropyTestFail => Sys2Proof.Machine.execEntropyTestFail s
  | .engineResetComplete e => Sys2Proof.Machine.execEngineResetComplete e s
  | .debugHold r raise => Sys2Proof.Machine.execDebugHold r raise s
  | .trstNLow => Sys2Proof.Machine.execTrstNLow s
  | .stackHot stack hot => Sys2Proof.Machine.execStackHot stack hot s
  | .preSwitchSkewHold => Sys2Proof.Machine.execPreSwitchSkewHold s

end Sys2Proof.Machine
end

