-- ==== Sys2Proof/Machine/Step.lean ====
section
/-! DEFINITION. The step of the block: the command at the front of the queue, or the passing of time. -/

namespace Sys2Proof.Machine

/-- With no command waiting, a nanosecond passes while power is on, one message that waits to leave is sent, and what waits for the
host leaves as far as its allowances reach. -/
def idle (s : State) : State := if s.sup.inputOn then hostIdle (sendOut (advance s 1)) else s

/-- One step: the command at the front of the queue acts on the rest; an empty queue lets time pass. -/
def step (s : State) : Host.Outcome State Fault Refusal :=
  match s.pending with
  | [] => .next (idle s)
  | c :: cs => exec c { s with pending := cs }

/-- s with the command that a word spells put at the front of its queue; s where it spells none. -/
def State.withFetchWord (s : State) (nbits w : Nat) : State :=
  match decodeTableWord nbits w with
  | some c => { s with pending := c :: s.pending }
  | none => s

end Sys2Proof.Machine
end

