-- ==== Sys2Proof/Safety.lean ====
section
/-! DEFINITION. What a sound state of the block is, and what the statements say of a command's effect: the conditions
under which a thread's instruction takes effect, and the frames. -/

namespace Sys2Proof.Machine

/-! ## Canonical form -/

/-- The canonical form of a byte memory whose unlisted bytes read as `d`. -/
abbrev Memory.wf (d : Nat → Byte) (m : List Host.Cell) : Bool := SMap.wf d m

/-- The three large maps of the module, LPDDR5X, the scratchpads and the register file, are in canonical form: keys rise
strictly and nothing equal to what an unlisted key reads as is listed. -/
def State.canonical (s : State) : Prop :=
  Memory.wf dramDef s.dram = true ∧ Memory.wf spDef s.sp = true ∧ SMap.wf regReset s.regs = true

/-- A command answers a next state. -/
def completes (c : Instr) (s : State) : Prop := ∃ t, exec c s = .next t

/-- A command answers a next state, of which `p` holds. -/
def Gives (c : Instr) (s : State) (p : State → Prop) : Prop := ∃ u, exec c s = .next u ∧ p u

/-! ## The issue of an instruction (R57, R58, R167, R168, R170) -/

/-- A thread presents the word `w` and nothing keeps it from its own effect: its slot is READY on a tile that runs for a
live context, the fetch lies inside its task, the word is a defined encoding, its guard holds, and no load that has not
delivered names one of its registers. -/
structure Issues (s : State) (t : TileId) (h : ThreadId) (w : Word64) : Prop where
  can : canIssue s t h = true
  fetch : fetchOut s t h = false
  word : (issOf s t h).w = w
  enc : encOk w = true
  guard : guardOk s t h w = true
  loads : loadBlocks s t h w = false

/-- The address is one of a tile's selected performance counters, which count the issue itself. -/
def isPmc (t : TileId) (a : Nat) : Bool := decide (tileA t.toNat 0x2F80 ≤ a) && decide (a < tileA t.toNat 0x2FC0)

/-- The thread goes on to its next instruction: PC + 1, and out of its task at its last instruction (R58). -/
def Advances (s u : State) (t : TileId) (h : ThreadId) : Prop :=
  threadPc u t h = (threadPc s t h + 1) % 8192 ∧
  fetchOut u t h = !decide (threadPc s t h + 1 < taskIlimit s t (threadTask s t h) - taskIbase s t (threadTask s t h))

/-- The thread goes to a target: one inside the task's instructions is its PC; one outside leaves the PC, and the next fetch
is outside (R58, R177). -/
def Jumps (s u : State) (t : TileId) (h : ThreadId) (target : Int) : Prop :=
  let lim : Int := taskIlimit s t (threadTask s t h) - taskIbase s t (threadTask s t h)
  (0 ≤ target ∧ target < lim → threadPc u t h = target.toNat % 8192 ∧ fetchOut u t h = false) ∧
  (¬(0 ≤ target ∧ target < lim) → threadPc u t h = threadPc s t h ∧ fetchOut u t h = true)

/-- What an instruction of a thread may change beside what it is said to write: the thread's own register, and the tile's
selected counters. Every other register, the other fields of the thread's register, and every other field of the state stay,
the g registers and predicates apart, of which the statements say more. -/
structure ThreadFrame (s u : State) (t : TileId) (h : ThreadId) : Prop where
  rest : u = { s with regs := u.regs, gregs := u.gregs, preds := u.preds, pcOut := u.pcOut }
  regs : ∀ a, a ≠ aThread t h → isPmc t a = false → reg u a = reg s a
  thread : ∀ lo n, lo + n ≤ 8 ∨ 21 ≤ lo → fld u (aThread t h) lo n = fld s (aThread t h) lo n

/-- The only g register that changes is `r` of the thread, to `v`; g0 takes no value (R161). -/
def WritesG (s u : State) (t : TileId) (h : ThreadId) (r : Nat) (v : Word64) : Prop :=
  ∀ t' h' r', r' < 32 → greg u t' h' r' = if t' = t ∧ h' = h ∧ r' = r ∧ r ≠ 0 then v else greg s t' h' r'

/-- No g register changes. -/
def KeepsG (s u : State) : Prop := u.gregs = s.gregs

/-- The only predicate that changes is `p` of the thread, to `b`; p0 takes no value (R161). -/
def WritesP (s u : State) (t : TileId) (h : ThreadId) (p : Nat) (b : Bool) : Prop :=
  ∀ t' h' p', p' < 8 → predOf u t' h' p' = if t' = t ∧ h' = h ∧ p' = p ∧ p ≠ 0 then b else predOf s t' h' p'

/-- An instruction whose whole effect is one g register and the advance of its thread. -/
structure ScalarDone (s u : State) (t : TileId) (h : ThreadId) (r : Nat) (v : Word64) : Prop where
  frame : ThreadFrame s u t h
  next : Advances s u t h
  writes : WritesG s u t h r v
  preds : u.preds = s.preds

/-- The thread and the words of a thread instruction's row of the opcode table; none for every other command. -/
def threadRow : Instr → Option (TileId × ThreadId × (Word64 → Bool))
  | .alu t h => some (t, h, isMajor 0x01)
  | .alui t h => some (t, h, isMajor 0x02)
  | .li t h => some (t, h, isMajor 0x03)
  | .pcmp t h => some (t, h, isMajor 0x04)
  | .plog t h => some (t, h, isMajor 0x05)
  | .br t h => some (t, h, isMinor 0x08 0)
  | .jr t h => some (t, h, isMinor 0x08 1)
  | .loop t h => some (t, h, isMinor 0x08 2)
  | .ld t h => some (t, h, isMajor 0x0C)
  | .st t h => some (t, h, isMajor 0x0D)
  | .amoadd t h => some (t, h, isMinor 0x0E 0)
  | .amoswap t h => some (t, h, isMinor 0x0E 1)
  | .amocas t h => some (t, h, isMinor 0x0E 2)
  | .spawn t h => some (t, h, isMinor 0x10 0)
  | .halt t h => some (t, h, isMinor 0x10 1)
  | .waitc t h => some (t, h, isMinor 0x10 2)
  | .fence t h => some (t, h, isMinor 0x10 3)
  | .rdsr t h => some (t, h, isMinor 0x11 0)
  | .wrsr t h => some (t, h, isMinor 0x11 1)
  | .strmStart t h => some (t, h, isEng 0x20 0)
  | .strmStop t h => some (t, h, isEng 0x20 1)
  | .strmWait t h => some (t, h, isEng 0x20 2)
  | .barrier t h => some (t, h, isEng 0x20 3)
  | .strmStat t h => some (t, h, isEng 0x20 4)
  | .gath t h => some (t, h, isEng 0x22 0)
  | .arr t h => some (t, h, isMajor 0x24)
  | .lvr t h => some (t, h, isMajor 0x26)
  | .fma t h => some (t, h, isEng 0x28 0)
  | .add t h => some (t, h, isEng 0x28 1)
  | .mul t h => some (t, h, isEng 0x28 2)
  | .min t h => some (t, h, isEng 0x28 3)
  | .max t h => some (t, h, isEng 0x28 4)
  | .cvt t h => some (t, h, isEng 0x28 5)
  | .curve t h => some (t, h, isEng 0x28 6)
  | .dcurve t h => some (t, h, isEng 0x28 7)
  | .rsum t h => some (t, h, isEng 0x28 8)
  | .rmax t h => some (t, h, isEng 0x28 9)
  | .sign t h => some (t, h, isEng 0x28 10)
  | .mask t h => some (t, h, isEng 0x28 11)
  | .rcp t h => some (t, h, isEng 0x28 12)
  | .rsqrt t h => some (t, h, isEng 0x28 13)
  | .dropmask t h => some (t, h, isEng 0x28 14)
  | .curveLoad t h => some (t, h, isEng 0x2A 0)
  | .tableLoad t h => some (t, h, isEng 0x2A 1)
  | .send t h => some (t, h, isEng 0x30 0)
  | .msend t h => some (t, h, isEng 0x30 1)
  | .chain t h => some (t, h, isEng 0x34 0)
  | .tinc t h => some (t, h, isEng 0x38 0)
  | .twait t h => some (t, h, isEng 0x38 1)
  | .ttake t h => some (t, h, isEng 0x38 2)
  | .tread t h => some (t, h, isEng 0x38 3)
  | .tsig t h => some (t, h, isEng 0x38 4)
  | .ucmd t h => some (t, h, isEng 0x3C 0)
  | _ => none

/-- The state in which the effect of an issued instruction begins: its issue is counted (R446). -/
def counted (s : State) (t : TileId) (h : ThreadId) : State :=
  perfTile s t (some (taskCtx s t (threadTask s t h))) 0 0x10 none 1

/-! ## Registers that a statement leaves alone -/

/-- Every register outside a list keeps its value. -/
def RegsBut (s u : State) (l : List Nat) : Prop := ∀ a, a ∉ l → reg u a = reg s a

/-! ## The commands of a UCB queue (R40, R41, R47, R375) -/

/-- A partition reset of the page's ring runs. -/
def pageReset (s : State) (p : Page) : Bool := match pageRing p with | some r => ringBusy s r | none => false

/-- The page gives its next entry, one of opcode `op`: the command taken, and the state in which its checks begin. A copy or a
code-queue entry that waits goes before the host queue, but not before a command at its HEAD that is taken at once (R474). -/
inductive Takes (s : State) (p : Page) (op : Nat) : Cmd → State → Prop
  | held (c : Cmd) (later : headAtOnce op s p = false) (first : nextHeld s p op = some c) (ready : pageReset s p = false) (is : (entryOp c.entry).toNat = op)
      (order : orderOk s p c.entry = true) :
      Takes s p op { c with taken := true, since := s.tick } { s with
        cmds := s.cmds.map (fun x => if x.id == c.id then { c with taken := true, since := s.tick } else x) }
  | host (v : Cover) (s' : State) (e : List Byte) (none' : headAtOnce op s p = true ∨ nextHeld s p op = none)
      (ready : pageReset s p = false)
      (cover : hostReady s p = some v) (read : readEntry s p = (s', .ok e)) (is : (entryOp e).toNat = op)
      (order : orderOk s p e = true) :
      Takes s p op ⟨s'.nextId, p, v.ctx, .host v.q, e, true, [], stOk, none, BitVec.ofNat 16 (qHead s p), s.tick⟩
        (advanceHead { s' with
          cmds := s'.cmds ++ [⟨s'.nextId, p, v.ctx, .host v.q, e, true, [], stOk, none, BitVec.ofNat 16 (qHead s p), s.tick⟩],
          nextId := s'.nextId + 1 } p)

/-- The entry taken passes every check of R41, so that its own effect begins. -/
structure Accepts (s : State) (p : Page) (op : Nat) (c : Cmd) (v : State) : Prop where
  takes : Takes s p op c v
  wellFormed : entryOk v c.page (isCode c) c.entry = true
  inRange : seekBeyond v c = false
  inService : pageFenced v c.page = false ∨ op = 0x00 ∨ op = 0x11
  legal : legalIn op (ctxState v c.ctx) = true
  also : legalElse v c.ctx op = true

/-- The page and the opcode of a UCB command's row; none for every other command. -/
def ucbRow : Instr → Option (Page × Nat)
  | .nop p => some (p, 0x00)
  | .ctxCreate p => some (p, 0x01)
  | .ctxLoad p => some (p, 0x02)
  | .ctxStart p => some (p, 0x03)
  | .ctxPause p => some (p, 0x04)
  | .ctxResume p => some (p, 0x05)
  | .ctxReset p => some (p, 0x06)
  | .ctxDestroy p => some (p, 0x07)
  | .gangDefine p _ => some (p, 0x08)
  | .gangBind p => some (p, 0x09)
  | .runChain p => some (p, 0x10)
  | .query p => some (p, 0x11)
  | .memMap p => some (p, 0x12)
  | .memUnmap p => some (p, 0x13)
  | .redConfig p => some (p, 0x14)
  | .redReplay p => some (p, 0x15)
  | .dspConfig p => some (p, 0x16)
  | .casConfig p => some (p, 0x17)
  | .casStart p => some (p, 0x18)
  | .casStop p => some (p, 0x19)
  | .casSeek p => some (p, 0x1A)
  | .commit p => some (p, 0x1B)
  | .ownerSet p => some (p, 0x1C)
  | .peerPolicy p => some (p, 0x1D)
  | .dbgUnlock p => some (p, 0x1E)
  | .modReset p => some (p, 0x1F)
  | .partReset p => some (p, 0x20)
  | .dbgMode p => some (p, 0x21)
  | _ => none

/-- What the end of a command may change: the list of commands, the entries that wait for their queue, the error record of its page, the
count of its pair, the module's selected counters and the bandwidth counts. -/
structure EndsOnly (s u : State) (c : Cmd) : Prop where
  rest : u = { s with
    regs := u.regs, cmds := u.cmds, cq := u.cq, codeDone := u.codeDone, out := u.out, bw := u.bw }
  regs : ∀ a, a ≠ pageA c.page + 0x30 → a ≠ pageA c.page + 0x38 → ¬(modG 0x4180 ≤ a ∧ a < modG 0x41C0) →
    (∀ q, c.src = .host q → a ≠ aPair q) → reg u a = reg s a

/-! ## The outcomes of an issued instruction beside its effect (R58, R189, R476) -/

/-- The thread faults with a cause, its issue counted. -/
def Faults (i : Instr) (s : State) (t : TileId) (h : ThreadId) (cause : Nat) : Prop :=
  exec i s = .next (threadFault (counted s t h) t h cause)

/-- The thread waits, and nothing else changes. -/
def Waits (i : Instr) (s : State) (t : TileId) (h : ThreadId) : Prop := exec i s = .next (setThreadState s t h 2)

/-- The thread goes on, with its g registers and predicates as they were. -/
structure GoesOn (s u : State) (t : TileId) (h : ThreadId) : Prop where
  next : Advances s u t h
  gregs : u.gregs = s.gregs
  preds : u.preds = s.preds
  dram : u.dram = s.dram

/-- The thread and the minor of a vector instruction's row; none for every other command. -/
def vecRow : Instr → Option (TileId × ThreadId × Nat)
  | .fma t h => some (t, h, 0)
  | .add t h => some (t, h, 1)
  | .mul t h => some (t, h, 2)
  | .min t h => some (t, h, 3)
  | .max t h => some (t, h, 4)
  | .cvt t h => some (t, h, 5)
  | .curve t h => some (t, h, 6)
  | .dcurve t h => some (t, h, 7)
  | .rsum t h => some (t, h, 8)
  | .rmax t h => some (t, h, 9)
  | .sign t h => some (t, h, 10)
  | .mask t h => some (t, h, 11)
  | .rcp t h => some (t, h, 12)
  | .rsqrt t h => some (t, h, 13)
  | .dropmask t h => some (t, h, 14)
  | _ => none

/-- The only token counter that changes is c of task k, to v. -/
def TokenOnly (s u : State) (t : TileId) (k c v : Nat) : Prop :=
  ∀ t' k' c', k' < 8 → c' < 32 → tokGet u t' k' c' = if t' = t ∧ k' = k ∧ c' = c then v else tokGet s t' k' c'

/-! ## Register writes of the host (R10, R370) -/

/-- The pair, the address and the value of a row that is one register write; none for every other command. -/
def hostRow : Instr → Option (PairId × Nat × Word64)
  | .doorbell q p v => some (q, pageA p + 0x20, v)
  | .ucbCqWrite q p v => some (q, pageA p + 0x28, v)
  | .resume q p => some (q, pageA p + 0x30, BitVec.ofNat 64 (2 ^ 37))
  | .flush q p => some (q, pageA p + 0x30, BitVec.ofNat 64 (2 ^ 38))
  | .hold q r v => some (q, aShtHold r.toNat, v)
  | .disable q port v => some (q, aPort port.toNat, v)
  | .reenable q pair => some (q, aPair pair, BitVec.ofNat 64 (2 ^ 8))
  | .ledgerRdWrite q n v => some (q, aLedger n, v)
  | .perfSelWrite q k v => some (q, modG (0x4100 + 8 * k.toNat), v)
  | .perfMselWrite q k v => some (q, modG (0x4140 + 8 * k.toNat), v)
  | .windowWrite q v => some (q, modG 0x4200, v)
  | .registerWrite q addr v => some (q, addr.toNat, v)
  | _ => none

/-- The host is served: the input is on, and the module is not in quarantine. -/
def hostServed (s : State) : Bool := s.sup.inputOn && fld s aRstStatus 9 1 != 1

/-- A pair in service, whose context is not in reset, of a module that serves the host. -/
def serves (s : State) (q : PairId) : Bool := hostServed s && pairOn s q && !resettingPair s q && q != 63

/-- An answer for the completion queue of a pair: one entry more that is to leave, with the status, and nothing else but counts. -/
def Answers (s u : State) (q : PairId) (tag : BitVec 16) (status : Byte) (a : Nat) : Prop :=
  u = { s with regs := u.regs, bw := u.bw, cq := u.cq } ∧
  ∃ e : CqEntry, u.cq = s.cq ++ [e] ∧ e.q = q ∧ e.tag = tag ∧ e.status = status ∧ e.w0 = BitVec.ofNat 64 a

end Sys2Proof.Machine
end

