-- ==== Sys2Proof/Certificates/Slice0/Obligations.lean ====
section
/-! DEFINITION. The statements for the provers. -/

open Sys2Proof Sys2Proof.Machine

/-- A step runs the command at the front of the queue. (00_scope.md) -/
def Obligations.StepRunsFront : Prop :=
  ∀ (c : Instr) (cs : List Instr) (s : State), step { s with pending := c :: cs } = exec c { s with pending := cs }

/-- Every step keeps the canonical form. (00_scope.md) -/
def Obligations.StepKeepsCanonical : Prop :=
  ∀ s t : State, s.canonical → step s = .next t → t.canonical

/-- ALU, ALUI and LI write one g register. (07_guver_machine_model.md) -/
def Obligations.ScalarResults : Prop :=
  ∀ (s : State) (t : TileId) (h : ThreadId) (w : Word64), Issues s t h w →
    (iMajor w = 0x01 → Gives (.alu t h) s fun u =>
      ScalarDone s u t h (iRd w) (aluOp (wf w 0 8) (greg s t h (iRa w)) (greg s t h (iRb w)))) ∧
    (iMajor w = 0x02 → Gives (.alui t h) s fun u =>
      ScalarDone s u t h (iRd w) (aluiOp (iMinor w) (greg s t h (iRa w)) (sext32 (iImm w)))) ∧
    (iMajor w = 0x03 → Gives (.li t h) s fun u =>
      ScalarDone s u t h (iRd w) (if wf w 48 1 = 0 then BitVec.ofNat 64 (wf w 0 48)
        else putF (greg s t h (iRd w)) 48 16 (wf w 0 16)))

/-- The operations of ALU and ALUI. (R171) -/
def Obligations.AluTable : Prop :=
  ∀ a b : Word64,
    aluOp 0x00 a b = a + b ∧ aluOp 0x01 a b = a - b ∧ aluOp 0x02 a b = a &&& b ∧ aluOp 0x03 a b = a ||| b ∧
    aluOp 0x04 a b = a ^^^ b ∧ aluOp 0x05 a b = a &&& ~~~b ∧
    (aluOp 0x06 a b).toNat = a.toNat * 2 ^ (b.toNat % 64) % 2 ^ 64 ∧
    (aluOp 0x07 a b).toNat = a.toNat / 2 ^ (b.toNat % 64) ∧
    (aluOp 0x08 a b).toInt = a.toInt / 2 ^ (b.toNat % 64) ∧
    (∀ i, i < 64 → (aluOp 0x09 a b).getLsbD ((i + b.toNat % 64) % 64) = a.getLsbD i) ∧
    (aluOp 0x0A a b).toNat = a.toNat * b.toNat % 2 ^ 64 ∧
    (aluOp 0x0B a b).toNat = a.toNat * b.toNat / 2 ^ 64 ∧
    (aluOp 0x0C a b).toInt = a.toInt * b.toInt / 2 ^ 64 ∧
    (aluOp 0x0D a b).toInt = min a.toInt b.toInt ∧ (aluOp 0x0E a b).toInt = max a.toInt b.toInt ∧
    (aluOp 0x0F a b).toNat = min a.toNat b.toNat ∧ (aluOp 0x10 a b).toNat = max a.toNat b.toNat ∧
    (a = 0 → aluOp 0x11 a b = 64 ∧ aluOp 0x12 a b = 64) ∧
    (a ≠ 0 → (aluOp 0x11 a b).toNat < 64 ∧ a.getLsbD (63 - (aluOp 0x11 a b).toNat) = true ∧
      (∀ i, 63 - (aluOp 0x11 a b).toNat < i → a.getLsbD i = false)) ∧
    (a ≠ 0 → (aluOp 0x12 a b).toNat < 64 ∧ a.getLsbD (aluOp 0x12 a b).toNat = true ∧
      (∀ i, i < (aluOp 0x12 a b).toNat → a.getLsbD i = false)) ∧
    (aluOp 0x13 a b).toNat = ((List.range 64).filter (fun i => a.getLsbD i)).length ∧
    aluiOp 0 a b = a + b ∧ aluiOp 1 a b = a &&& b ∧ aluiOp 2 a b = a ||| b ∧ aluiOp 3 a b = a ^^^ b ∧
    (aluiOp 4 a b).toNat = a.toNat * 2 ^ (b.toNat % 64) % 2 ^ 64 ∧
    (aluiOp 5 a b).toNat = a.toNat / 2 ^ (b.toNat % 64) ∧
    (aluiOp 6 a b).toInt = a.toInt / 2 ^ (b.toNat % 64) ∧
    (aluiOp 7 a b).toNat = a.toNat * b.toNat % 2 ^ 64

/-- PCMP and PLOG write one predicate. (07_guver_machine_model.md) -/
def Obligations.PredicateResults : Prop :=
  ∀ (s : State) (t : TileId) (h : ThreadId) (w : Word64), Issues s t h w →
    (iMajor w = 0x04 → Gives (.pcmp t h) s fun u =>
      ThreadFrame s u t h ∧ Advances s u t h ∧ KeepsG s u ∧
      WritesP s u t h (wf w 51 3)
        (let r := pcmpOp (iMinor w) (greg s t h (iRa w)) (if wf w 38 1 = 0 then greg s t h (iRb w) else sext32 (iImm w))
         if wf w 49 2 = 0 then r else if wf w 49 2 = 1 then predOf s t h (wf w 51 3) && r
         else predOf s t h (wf w 51 3) || r)) ∧
    (iMajor w = 0x05 → Gives (.plog t h) s fun u =>
      ThreadFrame s u t h ∧ Advances s u t h ∧ KeepsG s u ∧
      WritesP s u t h (wf w 51 3)
        ((wf w 32 4).testBit ((if predOf s t h (wf w 48 3) then 2 else 0) + (if predOf s t h (wf w 45 3) then 1 else 0))))

/-- BR, JR and LOOP. (07_guver_machine_model.md) -/
def Obligations.BranchResults : Prop :=
  ∀ (s : State) (t : TileId) (h : ThreadId) (w : Word64), Issues s t h w →
    (isMinor 0x08 0 w = true → Gives (.br t h) s fun u =>
      ThreadFrame s u t h ∧ u.preds = s.preds ∧ WritesG s u t h (iRd w) (BitVec.ofNat 64 (threadPc s t h + 1)) ∧
      Jumps s u t h (threadPc s t h + (BitVec.ofNat 16 (wf w 0 16)).toInt)) ∧
    (isMinor 0x08 1 w = true → Gives (.jr t h) s fun u =>
      ThreadFrame s u t h ∧ u.preds = s.preds ∧ WritesG s u t h (iRd w) (BitVec.ofNat 64 (threadPc s t h + 1)) ∧
      Jumps s u t h (greg s t h (iRa w)).toNat) ∧
    (isMinor 0x08 2 w = true → Gives (.loop t h) s fun u =>
      ThreadFrame s u t h ∧ u.preds = s.preds ∧ WritesG s u t h (iRa w) (greg s t h (iRa w) - 1) ∧
      (if iRa w = 0 ∨ greg s t h (iRa w) = 1 then Advances s u t h
       else Jumps s u t h (threadPc s t h + (BitVec.ofNat 16 (wf w 0 16)).toInt)))

/-- LD captures, ST stores. (07_guver_machine_model.md, 03_tile.md) -/
def Obligations.LoadsAndStores : Prop :=
  ∀ (s : State) (t : TileId) (h : ThreadId) (w : Word64) (pa : Nat), Issues s t h w →
    let a := greg s t h (iRa w) + sext32 (iImm w)
    let size := 2 ^ iSize w
    a.toNat % size = 0 → a.toNat < 2 ^ 21 → spPhys s t (threadTask s t h) a.toNat size = some pa →
    (iMajor w = 0x0C → Gives (.ld t h) s fun u =>
      Advances s u t h ∧ KeepsG s u ∧ u.preds = s.preds ∧ u.sp = s.sp ∧ u.spMark = s.spMark ∧ u.dram = s.dram ∧
      u.loads = s.loads ++ [⟨t, h, BitVec.ofNat 5 (iRd w), extendLoad (natOf (spRead s t pa size)) size (iSx w == 1),
        BitVec.ofNat 2 (spMark s t pa size), threadPc s t h⟩]) ∧
    (iMajor w = 0x0D → Gives (.st t h) s fun u =>
      Advances s u t h ∧ KeepsG s u ∧ u.preds = s.preds ∧ u.loads = s.loads ∧ u.dram = s.dram ∧
      ∀ (t' : TileId) (a' : Nat), a' < 2 ^ 21 → spByte u t' a' =
        if t' = t ∧ pa ≤ a' ∧ a' < pa + size then (bytesOf (greg s t h (iRd w)).toNat size).getD (a' - pa) 0
        else spByte s t' a')

/-- A load is delivered. (03_tile.md, 07_guver_machine_model.md) -/
def Obligations.LoadDelivered : Prop :=
  ∀ (s : State) (t : TileId) (h : ThreadId),
    (∀ l, tileRuns s t = true → s.loads.find? (fun l => l.t == t && l.h == h) = some l →
      (l.mark = 0 → Gives (.loadDelivery t h) s fun u =>
        WritesG s u t h l.rd.toNat l.value ∧ u.loads = s.loads.erase l ∧
        u = { s with gregs := u.gregs, loads := u.loads }) ∧
      (l.mark ≠ 0 → isNormal s = true → exec (.loadDelivery t h) s = .next
        (threadFault (setFld { s with loads := s.loads.erase l } (aThread t h) 8 13 l.pc) t h
          (if l.mark = 1 then cPoison else cSpUe)))) ∧
    (tileRuns s t = false ∨ s.loads.find? (fun l => l.t == t && l.h == h) = none →
      exec (.loadDelivery t h) s = .next s)

/-- AMOADD, AMOSWAP and AMOCAS. (07_guver_machine_model.md) -/
def Obligations.Atomics : Prop :=
  ∀ (s : State) (t : TileId) (h : ThreadId) (w : Word64) (pa : Nat), Issues s t h w →
    let a := greg s t h (iRa w) + sext32 (iImm w)
    let old : Word64 := BitVec.ofNat 64 (natOf (spRead s t pa 8))
    let b := greg s t h (iRb w)
    let done (new : Word64) (u : State) : Prop :=
      Advances s u t h ∧ KeepsG s u ∧ u.preds = s.preds ∧ u.dram = s.dram ∧
      u.loads = s.loads ++ [⟨t, h, BitVec.ofNat 5 (iRd w), old, 0, threadPc s t h⟩] ∧
      ∀ (t' : TileId) (a' : Nat), a' < 2 ^ 21 → spByte u t' a' =
        if t' = t ∧ pa ≤ a' ∧ a' < pa + 8 then (bytesOf new.toNat 8).getD (a' - pa) 0 else spByte s t' a'
    a.toNat % 8 = 0 → a.toNat < 2 ^ 21 → spPhys s t (threadTask s t h) a.toNat 8 = some pa → spMark s t pa 8 = 0 →
    (isMinor 0x0E 0 w = true → Gives (.amoadd t h) s (done (old + b))) ∧
    (isMinor 0x0E 1 w = true → Gives (.amoswap t h) s (done b)) ∧
    (isMinor 0x0E 2 w = true → Gives (.amocas t h) s (done (if old = b then greg s t h (iRd w) else old)))

/-- SPAWN, HALT, WAITC and FENCE. (07_guver_machine_model.md) -/
def Obligations.ThreadControl : Prop :=
  ∀ (s : State) (t : TileId) (h : ThreadId) (w : Word64), Issues s t h w →
    (isMinor 0x10 0 w = true → ∀ g : ThreadId, greg s t h (iRa w) = BitVec.ofNat 64 g.toNat →
      (tslotsOf s t (threadTask s t h)).getLsbD g.toNat = true → (threadState s t g = 0 ∨ threadState s t g = 3) →
      Gives (.spawn t h) s fun u =>
        threadState u t g = 1 ∧ threadTask u t g = threadTask s t h ∧ threadPc u t g = wf w 0 13 ∧
        (∀ r, r < 32 → greg u t g r = if r = 1 then greg s t h (iRb w) else 0) ∧
        (∀ p, 0 < p → p < 8 → predOf u t g p = false) ∧
        (∀ t' h' r, r < 32 → ¬(t' = t ∧ h' = g) → greg u t' h' r = greg s t' h' r) ∧ Advances s u t h) ∧
    (isMinor 0x10 1 w = true → Gives (.halt t h) s fun u =>
      threadState u t h = 3 ∧ threadPc u t h = threadPc s t h ∧ KeepsG s u ∧ u = { s with regs := u.regs }) ∧
    (isMinor 0x10 2 w = true → iImm w = 0 → Gives (.waitc t h) s fun u =>
      ThreadFrame s u t h ∧ Advances s u t h ∧ KeepsG s u ∧ u.preds = s.preds) ∧
    (isMinor 0x10 2 w = true → iImm w ≠ 0 → Gives (.waitc t h) s fun u =>
      threadState u t h = 2 ∧ threadPc u t h = (threadPc s t h + 1) % 8192 ∧
      u.wake.get (fun _ => 0) (keyThread t h) = regionCycle s t + iImm w ∧
      u = { s with regs := u.regs, pcOut := u.pcOut, wake := u.wake }) ∧
    (isMinor 0x10 3 w = true → Gives (.fence t h) s fun u =>
      ThreadFrame s u t h ∧ Advances s u t h ∧ KeepsG s u ∧ u.preds = s.preds)

/-- The end of a wait. (07_guver_machine_model.md) -/
def Obligations.WaitEnds : Prop :=
  ∀ (s : State) (t : TileId) (h : ThreadId), threadState s t h = 2 → tileRuns s t = true →
    ctxLive s (taskCtx s t (threadTask s t h)) = true → waitsChain s t h = false →
    let due := s.wake.get (fun _ => 0) (keyThread t h)
    let p := present t h (setThreadState s t h 1)
    (due ≠ 0 → cycleOk s (rowOf t) due = true → Gives (.threadWaitEnd t h) s fun u =>
      threadState u t h = 1 ∧ u.wake.get (fun _ => 0) (keyThread t h) = 0 ∧ KeepsG s u ∧ u.preds = s.preds) ∧
    (cycleOk s (rowOf t) due = false → exec (.threadWaitEnd t h) s = .next s) ∧
    (due = 0 → threadState p t h ≠ 2 ∨ p.chainWaits.length ≠ s.chainWaits.length → exec (.threadWaitEnd t h) s = .next p) ∧
    (due = 0 → threadState p t h = 2 → p.chainWaits.length = s.chainWaits.length → exec (.threadWaitEnd t h) s = .next s)

/-- RDSR and WRSR. (07_guver_machine_model.md, 18_counters_and_debug.md) -/
def Obligations.SystemRegisters : Prop :=
  ∀ (s : State) (t : TileId) (h : ThreadId) (w : Word64), Issues s t h w →
    let k := threadTask s t h
    let n := taskCtx s t k
    let sr := wf w 0 12
    (∀ v : Word64, isMinor 0x11 0 w = true →
      (sr = 0 ∧ v = BitVec.ofNat 64 h.toNat ∨ sr = 1 ∧ v = BitVec.ofNat 64 k ∨ sr = 2 ∧ v = BitVec.ofNat 64 n.toNat ∨
        sr = 3 ∧ v = BitVec.ofNat 64 (unitTile s t).toNat ∨ sr = 4 ∧ v = BitVec.ofNat 64 (tslotsOf s t k).toNat ∨
        sr = 5 ∧ v = BitVec.ofNat 64 ((s.preds.get (fun _ => 0) (keyThread t h)).toNat / 2 * 2 + 1) ∨
        sr = 8 ∧ v = BitVec.ofNat 64 (regionCycle s t) ∨ sr = 9 ∧ v = reg s aTbNow ∨ sr = 0x10 ∧ v = reg s (aSeed n) ∨
        sr = 0x11 ∧ v = BitVec.ofNat 64 (fld s (aStep n) 0 32) ∨ sr = 0x110 ∧ grantOf s n = 2 ∧ v = reg s (aPoison t)) →
      ∃ u, exec (.rdsr t h) s = .next u ∧ ScalarDone s u t h (iRd w) v) ∧
    (isMinor 0x11 1 w = true → sr = 5 ∨ sr = 0x10 ∨ sr = 0x11 →
      ∃ u, exec (.wrsr t h) s = .next u ∧ Advances s u t h ∧ KeepsG s u ∧
        (sr = 5 → ThreadFrame s u t h ∧ ∀ p, 0 < p → p < 8 → predOf u t h p = (greg s t h (iRa w)).getLsbD p) ∧
        (sr = 0x10 → reg u (aSeed n) = greg s t h (iRa w) ∧ u.preds = s.preds) ∧
        (sr = 0x11 → (reg u (aStep n)).toNat = (greg s t h (iRa w)).toNat % 2 ^ 32 ∧ u.preds = s.preds)) ∧
    (isMinor 0x11 0 w = true → 5 < sr ∧ sr < 8 ∨ sr = 0x110 ∧ grantOf s n ≠ 2 →
      exec (.rdsr t h) s = .next (threadFault (counted s t h) t h cSysreg)) ∧
    (isMinor 0x11 1 w = true → sr ≠ 5 → sr ≠ 0x10 → sr ≠ 0x11 →
      exec (.wrsr t h) s = .next (threadFault (counted s t h) t h cSysreg))

/-- When an instruction does not take its effect. (07_guver_machine_model.md, 03_tile.md) -/
def Obligations.IssueRules : Prop :=
  ∀ (s : State) (t : TileId) (h : ThreadId) (c : Instr) (mine : Word64 → Bool), threadRow c = some (t, h, mine) →
    (canIssue s t h = false → canFault s t h = false → exec c s = .next s) ∧
    (canFault s t h = true → fetchOut s t h = true → exec c s = .next (threadRecord s t h cPcBound)) ∧
    (canFault s t h = true → fetchOut s t h = false → encOk (issOf s t h).w = false →
      exec c s = .next (threadRecord s t h cIllegalEnc)) ∧
    (canIssue s t h = true → fetchOut s t h = true → exec c s = .next (threadFault s t h cPcBound)) ∧
    (canIssue s t h = true → fetchOut s t h = false → encOk (issOf s t h).w = false →
      exec c s = .next (threadFault s t h cIllegalEnc)) ∧
    (canIssue s t h = true → fetchOut s t h = false → encOk (issOf s t h).w = true → mine (issOf s t h).w = true →
      guardOk s t h (issOf s t h).w = false → Gives c s fun u =>
        ThreadFrame s u t h ∧ Advances s u t h ∧ KeepsG s u ∧ u.preds = s.preds) ∧
    (canIssue s t h = true → fetchOut s t h = false → encOk (issOf s t h).w = true → mine (issOf s t h).w = true →
      guardOk s t h (issOf s t h).w = true → loadBlocks s t h (issOf s t h).w = true →
      exec c s = .next (setThreadState s t h 2))

/-- The end of a command. (02_units_and_contexts.md, 14_cersin_host_link.md) -/
def Obligations.CommandEnds : Prop :=
  ∀ (s : State) (c : Cmd) (st : Byte) (unit : BitVec 32),
    let u := complete s c st unit
    let w := errWord st c.ctx unit (entryTag c.entry)
    let w0 : Word64 := if st = stOk then 0 else w
    EndsOnly s u c ∧ (∀ x ∈ u.cmds, x.id ≠ c.id) ∧
    (∀ q, c.src = .host q →
      let e : CqEntry := ⟨q, pageUnit s c.page, entryTag c.entry, st, c.ctx, entryNotify c.entry, decide (c.page = .owner), c.index, w0, 0, 0⟩
      u.cmds = s.cmds.filter (fun x => x.id != c.id) ∧
      (fld s (aPair q) 0 2 = 0 → u.cq = s.cq ∧ fld u (aPair q) 32 16 = min (fld s (aPair q) 32 16 + 1) 65535) ∧
      (fld s (aPair q) 0 2 ≠ 0 → u.cq = s.cq ++ [e])) ∧
    (∀ t h k va done, c.src = .code t h k va done →
      u.codeDone = s.codeDone ++ [⟨t, h, k, va, done, st, entryTag c.entry⟩]) ∧
    (∀ parent g, c.src = .copy parent → g ∈ s.cmds → g.id = parent → parent ≠ c.id → ∃ g' ∈ u.cmds,
      g'.id = parent ∧ g'.members = g.members.filter (· != c.id) ∧ g'.status = statusJoin g.status st) ∧
    (∀ src mtag gang, c.src = .remote src mtag gang → ∃ m, u.out = s.out ++ [m] ∧ m.dst = src ∧ m.op = 0x11 ∧
      m.payload.take 5 = bytesOf mtag.toNat 4 ++ [st]) ∧
    (st ≠ stOk → fld s (pageA c.page + 0x30) 48 1 = 0 →
      reg u (pageA c.page + 0x38) = w ∧ fld u (pageA c.page + 0x30) 48 1 = 1) ∧
    (st ≠ stOk → fld s (pageA c.page + 0x30) 48 1 = 1 → reg u (pageA c.page + 0x38) = reg s (pageA c.page + 0x38) ∧
      fld u (pageA c.page + 0x30) 40 8 = min (fld s (pageA c.page + 0x30) 40 8 + 1) 255)

/-- The status of a group. (02_units_and_contexts.md) -/
def Obligations.StatusRank : Prop :=
  (∀ a : Byte, a ∈ statusOrder → statusJoin stOk a = a ∧ statusJoin a stOk = a ∧ statusJoin stFault a = stFault ∧
    statusJoin a stFault = stFault ∧ statusJoin a a = a) ∧
  ∀ a b c : Byte, a ∈ statusOrder → b ∈ statusOrder → c ∈ statusOrder → statusJoin a b = statusJoin b a ∧
    statusJoin (statusJoin a b) c = statusJoin a (statusJoin b c)

/-- Taking a command. (02_units_and_contexts.md, 14_cersin_host_link.md) -/
def Obligations.CommandChecks : Prop :=
  ∀ (s : State) (i : Instr) (p : Page) (op : Nat), ucbRow i = some (p, op) →
    (pageReset s p = true → exec i s = .next s) ∧
    (nextHeld s p op = none → hostReady s p = none → exec i s = .next s) ∧
    (∀ c, headAtOnce op s p = false → nextHeld s p op = some c →
      ((entryOp c.entry).toNat ≠ op ∧ levelsOf (entryOp c.entry).toNat ≠ []) ∨ orderOk s p c.entry = false → exec i s = .next s) ∧
    (∀ v s' e, nextHeld s p op = none → hostReady s p = some v → readEntry s p = (s', .ok e) → orderOk s p e = false →
      exec i s = .next s) ∧
    (∀ c v, Takes s p op c v → entryOk v c.page (isCode c) c.entry = false ∨ seekBeyond v c = true →
      exec i s = .next (complete v c stMalformed (pageUnit v c.page))) ∧
    (∀ c v, Takes s p op c v → entryOk v c.page (isCode c) c.entry = true → seekBeyond v c = false →
      ((pageFenced v c.page = true ∧ op ≠ 0x00 ∧ op ≠ 0x11) ∨ legalIn op (ctxState v c.ctx) = false ∨ legalElse v c.ctx op = false) →
      Gives i s fun u =>
        (isCode c = true → u = complete v c stBadState (pageUnit v c.page)) ∧
        (isCode c = false → (∀ x ∈ u.cmds, x.id ≠ c.id) ∧ fld u (pageA c.page + 0x30) 32 1 = 1 ∧
          fld u (pageA c.page + 0x30) 33 4 = ctxState v c.ctx))

/-- An entry that cannot be read. (02_units_and_contexts.md, 14_cersin_host_link.md) -/
def Obligations.UnreadableEntry : Prop :=
  ∀ (s s' : State) (i : Instr) (p : Page) (op : Nat) (v : Cover) (st : Byte) (va : Nat), ucbRow i = some (p, op) →
    pageReset s p = false → nextHeld s p op = none → (∀ c ∈ inFlight s p, isCtxOp (entryOp c.entry).toNat = false) → hostReady s p = some v → readEntry s p = (s', .error (st, va)) →
    (st = stHostXlate ∨ st = stHostMemerr) ∧
    Gives i s fun u =>
      (fld s' (aPair v.q) 0 2 ≠ 0 → ∃ e : CqEntry, u.cq = s'.cq ++ [e] ∧
        e.q = v.q ∧ e.status = st ∧ e.tag = 0 ∧ e.ctx = v.ctx ∧ e.index = BitVec.ofNat 16 (qHead s p) ∧ e.w0 = BitVec.ofNat 64 va) ∧
      u.cmds = s'.cmds ∧ fld u (pageA p + 0x30) 48 1 = 1

/-- NOP, QUERY, and the context commands that change its state at once. (02_units_and_contexts.md, 95_what_each_step_holds.md) -/
def Obligations.SimpleCommands : Prop :=
  ∀ (s v : State) (p : Page) (c : Cmd),
    (Accepts s p 0x00 c v → exec (.nop p) s = .next (finish v c stOk)) ∧
    (Accepts s p 0x11 c v → Gives (.query p) s fun u =>
      EndsOnly v u c ∧ (∀ x ∈ u.cmds, x.id ≠ c.id) ∧
      ∀ q, c.src = .host q → fld v (aPair q) 0 2 ≠ 0 →
        let w := { v with cmds := v.cmds.filter (fun x => x.id != c.id) }
        ∃ e : CqEntry, u.cq = v.cq ++ [e] ∧ e.q = q ∧ e.status = stOk ∧ e.w0 = ucbState w p c.ctx ∧
          e.w2 = ucbCap w p ∧ (∀ n, p = .module n → e.w1 = ctxStatus w n) ∧ (p = .owner → e.w1 = ctxStatus w c.ctx)) ∧
    (Accepts s p 0x04 c v → pageKind c.page ≠ 3 → Gives (.ctxPause p) s fun u =>
      ctxState u c.ctx = 4 ∧ u = { v with regs := u.regs } ∧ RegsBut v u [aCtx c.ctx]) ∧
    (Accepts s p 0x05 c v → pageKind c.page ≠ 3 → Gives (.ctxResume p) s fun u =>
      ctxState u c.ctx = 3 ∧ EndsOnly (setCtxState v c.ctx 3) u c ∧ (∀ x ∈ u.cmds, x.id ≠ c.id))

/-- The end of CTX_PAUSE. (02_units_and_contexts.md) -/
def Obligations.PauseCompletes : Prop :=
  ∀ (s : State) (n : CtxId),
    let runs := s.chains.any (fun e => match e.2 with | some c => c.ctx == n | none => false)
    (runs = true → exec (.ctxPauseComplete n) s = .next s) ∧
    (runs = false → Gives (.ctxPauseComplete n) s fun u =>
      flying u n 0x04 = [] ∧ ctxState u n = ctxState s n ∧ u.chains = s.chains ∧ u.dram = s.dram ∧ u.sp = s.sp ∧
      ((s.cmds.map (fun c => c.id)).Nodup → ∀ c ∈ s.cmds, (∀ d ∈ s.cmds, d.src ≠ .copy c.id) → c ∉ flying s n 0x04 → c ∈ u.cmds))

/-- CTX_CREATE. (02_units_and_contexts.md) -/
def Obligations.ContextCreated : Prop :=
  ∀ (s v : State) (p : Page) (c : Cmd), Accepts s p 0x01 c v →
    let n := c.ctx
    let sum := (allCtx.filter (fun m => ctxState v m != 0)).foldl (fun a m => a + budgetOf v m) 0
    let b := fieldAt c.entry 12 4
    (fld v (modG 0x2308) 16 12 < sum + b → exec (.ctxCreate p) s = .next (finish v c stBudget)) ∧
    (sum + b ≤ fld v (modG 0x2308) 16 12 → entropyOk v = false → exec (.ctxCreate p) s = .next (finish v c stNoEntropy)) ∧
    (sum + b ≤ fld v (modG 0x2308) 16 12 → entropyOk v = true → Gives (.ctxCreate p) s fun u =>
      ctxState u n = 1 ∧ fld u (aCtx n) 8 3 = fieldAt c.entry 8 1 % 8 ∧ budgetOf u n = b % 4096 ∧
      (infoOf u n).tenant = (c.entry.drop 32).take 32 ∧ (infoOf u n).loaded = false ∧ (infoOf u n).keys.length = 96 ∧
      (∀ m, m ≠ n → reg u (aCtx m) = reg v (aCtx m) ∧ infoOf u m = infoOf v m) ∧
      (∀ x ∈ u.cmds, x.id ≠ c.id) ∧ u.dram = v.dram ∧ u.sp = v.sp ∧ u.gregs = v.gregs)

/-- CTX_LOAD. (02_units_and_contexts.md) -/
def Obligations.ContextLoaded : Prop :=
  ∀ (s v w : State) (p : Page) (c : Cmd) (r : Except Byte (List Byte)), Accepts s p 0x02 c v → pageKind c.page ≠ 3 →
    readCtx v c.ctx (fieldAt c.entry 8 8) (fieldAt c.entry 16 4) 64 = (w, r) →
    let n := c.ctx
    let ends (st : Byte) : Prop := exec (.ctxLoad p) s = .next (finish w c st)
    (∀ st, r = .error st → ends st) ∧
    (∀ o, r = .ok o →
      (objectOk w o = false → ends stMalformed) ∧
      (objectOk w o = true →
        (fieldAt o 8 8 ≠ (reg w aFingerprint).toNat → ends stFingerprint) ∧
        (fieldAt o 8 8 = (reg w aFingerprint).toNat →
          (budgetOf w n < fieldAt o 16 4 → ends stBudget) ∧
          (fieldAt o 16 4 ≤ budgetOf w n →
            (domainsOk w n o = false ∨ placeAll w o = none → ends stMalformed) ∧
            (∀ ps, domainsOk w n o = true → placeAll w o = some ps →
              let fits := (List.range (obRelocs o)).all (fun i => relocFits w ps (obReloc o i)) && segsFree w n o
              let total := (segList o).foldl (fun a x => a + x.2.1) 0
              (fits = false → ends stMalformed) ∧
              (fits = true → fld w aMemFree 0 19 < total → ends stNoMemory) ∧
              (fits = true → total ≤ fld w aMemFree 0 19 → slowRings w o ≠ [] →
                exec (.ctxLoad p) s = .next (askDividers w (slowRings w o))) ∧
              (fits = true → total ≤ fld w aMemFree 0 19 → slowRings w o = [] → Gives (.ctxLoad p) s fun u =>
                ctxState u n = 2 ∧ reg u (aSeed n) = BitVec.ofNat 64 (fieldAt o 40 8) ∧
                reg u (aStep n) = BitVec.ofNat 64 (fieldAt o 48 4) ∧ (infoOf u n).digest = sha256 o ∧
                (infoOf u n).fp = reg u aFingerprint ∧ (infoOf u n).loaded = true ∧ (∀ x ∈ u.cmds, x.id ≠ c.id)))))))

/-- CTX_START. (02_units_and_contexts.md, 07_guver_machine_model.md) -/
def Obligations.ContextStarted : Prop :=
  ∀ (s v : State) (p : Page) (c : Cmd), Accepts s p 0x03 c v → pageKind c.page ≠ 3 →
    ((infoOf v c.ctx).fp ≠ reg v aFingerprint → exec (.ctxStart p) s = .next (finish v c stFingerprint)) ∧
    ((infoOf v c.ctx).fp = reg v aFingerprint → Gives (.ctxStart p) s fun u =>
      ctxState u c.ctx = 3 ∧ (∀ x ∈ u.cmds, x.id ≠ c.id) ∧ u.dram = v.dram ∧ u.sp = v.sp ∧ u.acc = v.acc ∧
      ∀ (t : TileId) (k : Nat) (h : ThreadId), k < 8 → taskOfCtx v t c.ctx k = true →
        (tslotsOf v t k).getLsbD h.toNat = true → (∀ i, i < h.toNat → (tslotsOf v t k).getLsbD i = false) →
        (∀ k', k' < 8 → k' ≠ k → taskOfCtx v t c.ctx k' = true → (tslotsOf v t k').getLsbD h.toNat = false) →
        threadState u t h = 1 ∧ threadTask u t h = k ∧ threadPc u t h = v.entryPc.get (fun _ => 0) (keyTask t k) % 8192 ∧
          (∀ r, r < 32 → greg u t h r = 0) ∧ (∀ q, 0 < q → q < 8 → predOf u t h q = false))

/-- CTX_RESET and the reclaim sweep. (02_units_and_contexts.md, 17_start_reset_recovery.md) -/
def Obligations.ContextReset : Prop :=
  ∀ (s : State) (n : CtxId),
    (∀ (v : State) (p : Page) (c : Cmd), Accepts s p 0x06 c v → pageKind c.page ≠ 3 → c.ctx = n → Gives (.ctxReset p) s fun u =>
      ctxState u n = 6 ∧ (infoOf u n).unload = (fieldAt c.entry 8 1 == 1 || (ctxState v n == 6 && (infoOf v n).unload)) ∧
      (ctxState v n = 6 → u = { v with ctxInfo := u.ctxInfo }) ∧
      (ctxState v n ≠ 6 → fld u (aCtx n) 4 1 = 1 ∧
        (∀ x ∈ u.cmds, x.ctx = n → (entryOp x.entry).toNat ∈ [0x06, 0x07, 0x20]) ∧
        u.chainWaits = v.chainWaits.filter (fun w => w.ctx != n) ∧ u.gaths = v.gaths.filter (fun g => g.ctx != n))) ∧
    (ctxState s n ≠ 6 ∨ sweepOver s n = false → exec (.reclaimSweepEnd n) s = .next s) ∧
    (ctxState s n = 6 → sweepOver s n = true → Gives (.reclaimSweepEnd n) s fun u =>
      ctxState u n = (if (infoOf s n).loaded = true ∧ (infoOf s n).unload = false then 2 else 1) ∧ fld u (aCtx n) 4 1 = 0 ∧
      flying u n 0x06 = [] ∧ ((infoOf s n).unload = true → (infoOf u n).loaded = false ∧ (infoOf u n).unload = false))

/-- CTX_DESTROY and the end of the zeroisation. (02_units_and_contexts.md, 15_latch_trust.md) -/
def Obligations.ContextDestroyed : Prop :=
  ∀ (s : State) (n : CtxId),
    (∀ (v : State) (p : Page) (c : Cmd), Accepts s p 0x07 c v → c.ctx = n → Gives (.ctxDestroy p) s fun u =>
      ctxState u n = 7 ∧ redOf u n = none ∧ dspOf u n = none ∧
      (∀ x ∈ u.latch.sessions, x.owner = true ∨ x.ctx ≠ n)) ∧
    (ctxState s n ≠ 7 ∨ sweepOver s n = false → exec (.zeroisationEnd n) s = .next s) ∧
    (ctxState s n = 7 → sweepOver s n = true → Gives (.zeroisationEnd n) s fun u =>
      ctxState u n = 0 ∧ infoOf u n = infoDef n.toNat ∧ reg u (aSeed n) = regReset (aSeed n) ∧ reg u (aStep n) = regReset (aStep n) ∧
      flying u n 0x07 = [])

/-- MEM_MAP and MEM_UNMAP. (10_memory_and_streams.md) -/
def Obligations.MemoryMapping : Prop :=
  ∀ (s v : State) (p : Page) (c : Cmd),
    let n := c.ctx
    let vpn := fieldAt c.entry 8 8 / frameSize
    let pages := fieldAt c.entry 16 4
    let f := fieldAt c.entry 20 1
    let used := (List.range pages).any (fun i => mappedPage v n (vpn + i))
    let whole := decide (pages ≤ 289792) && (List.range pages).all (fun i => mappedPage v n (vpn + i))
    (Accepts s p 0x12 c v →
      (fld v aMemFree 0 19 < pages → exec (.memMap p) s = .next (finish v c stNoMemory)) ∧
      (pages ≤ fld v aMemFree 0 19 → used = true → exec (.memMap p) s = .next (finish v c stMalformed)) ∧
      (pages ≤ fld v aMemFree 0 19 → used = false →
        exec (.memMap p) s = .next (finish (mapPages v n vpn pages (f % 2 == 1) (f / 2 == 1)) c stOk))) ∧
    (Accepts s p 0x13 c v →
      (whole = false → exec (.memUnmap p) s = .next (finish v c stMalformed)) ∧
      (whole = true → Gives (.memUnmap p) s fun u =>
        EndsOnly { unmapPages v n vpn pages with loadPages := u.loadPages } u c ∧ (∀ x ∈ u.cmds, x.id ≠ c.id) ∧
        (∀ x ∈ u.loadPages, x.1 = n.toNat → x.2.1 + x.2.2 ≤ vpn ∨ vpn + pages ≤ x.2.1) ∧
        (∀ x, x.1 ≠ n.toNat → (x ∈ u.loadPages ↔ x ∈ v.loadPages))))

/-- Gangs: definition, binding, and passing a command on. (02_units_and_contexts.md) -/
def Obligations.Gangs : Prop :=
  ∀ (s v : State) (p : Page) (c : Cmd),
    (∀ (as : List SubAnswer) (w : State) (r : Except Byte (List Byte)), Accepts s p 0x08 c v →
      readOwner v (fieldAt c.entry 8 8) 144 64 = (w, r) →
      let ends (st : Byte) : Prop := exec (.gangDefine p as) s = .next (finish w c st)
      (∀ st, r = .error st → ends st) ∧
      (∀ o, r = .ok o →
        let g : BitVec 16 := BitVec.ofNat 16 (fieldAt o 0 2)
        let bound := allCtx.any (fun n => gangOf w n == g)
        let known := (gangEntry w g).isSome
        let answers := memberAnswers w g (recMembers o) as
        (recOk w o = false → ends stMalformed) ∧
        (recOk w o = true → recMembers o = [] →
          (known = false → ends stMalformed) ∧
          (known = true → bound = true → exec (.gangDefine p as) s = .next (badState w c)) ∧
          (known = true → bound = false → Gives (.gangDefine p as) s fun u =>
            gangEntry u g = none ∧ EndsOnly { w with gangs := u.gangs } u c ∧ ∀ g', g' ≠ g → gangEntry u g' = gangEntry w g')) ∧
        (recOk w o = true → recMembers o ≠ [] →
          (answersOk answers = false → ends stMalformed) ∧
          (answersOk answers = true → known = true → bound = true → exec (.gangDefine p as) s = .next (badState w c)) ∧
          (answersOk answers = true → known = false → 64 ≤ w.gangs.length → ends stTableFull) ∧
          (answersOk answers = true → ¬(known = true ∧ bound = true) → ¬(known = false ∧ 64 ≤ w.gangs.length) →
            Gives (.gangDefine p as) s fun u =>
              gangEntry u g = some ⟨g, recMembers o, answers.map (fun a => a.modules)⟩ ∧
              EndsOnly { w with gangs := u.gangs } u c ∧ ∀ g', g' ≠ g → gangEntry u g' = gangEntry w g')))) ∧
    (Accepts s p 0x09 c v → pageKind c.page ≠ 3 → Gives (.gangBind p) s fun u =>
      gangOf u c.ctx = BitVec.ofNat 16 (fieldAt c.entry 8 2) ∧ ctxState u c.ctx = ctxState v c.ctx ∧ (∀ x ∈ u.cmds, x.id ≠ c.id) ∧
      (ctxState v c.ctx = 2 → fieldAt c.entry 8 2 ≠ (gangOf v c.ctx).toNat → redOf u c.ctx = none ∧ dspOf u c.ctx = none)) ∧
    (∀ (i : Instr) (op : Nat) (n : CtxId), ucbRow i = some (p, op) → Accepts s p op c v → c.page = .gang n → op ≠ 0x00 → op ≠ 0x11 →
      (op = 0x10 → (infoOf v c.ctx).fp = reg v aFingerprint) →
      let g := match c.src with | .remote _ _ g => g | _ => gangOf v c.ctx
      (gangEntry v g = none → exec i s = .next (finish v c stRefuse)) ∧
      (∀ e, gangEntry v g = some e → Gives i s fun u =>
        (u.out.drop v.out.length).map (fun m => (m.dst, m.op)) =
          ((gangTargets v 64 e).filter (fun m => !(m.1 == nodeId v && m.2 == 0#16))).map (fun m => (m.1, (0x10 : Byte))) ∧
        u.regs = v.regs ∧ u.dram = v.dram))

/-- RUN_CHAIN and the end of a group. (02_units_and_contexts.md, 08_guver_engine_operations.md) -/
def Obligations.RunChain : Prop :=
  ∀ (s : State),
    (∀ (v : State) (p : Page) (c : Cmd), Accepts s p 0x10 c v →
      ((infoOf v c.ctx).fp ≠ reg v aFingerprint → exec (.runChain p) s = .next (finish v c stFingerprint)) ∧
      ((infoOf v c.ctx).fp = reg v aFingerprint →
        (∀ n, c.page = .module n → Gives (.runChain p) s fun u =>
          u = { v with cmds := u.cmds, nextId := u.nextId } ∧
          (u.cmds.drop v.cmds.length).map (fun x => (x.page, x.src, x.entry, x.taken)) =
            (allRings.filter (fun r => !isOos v r)).map (fun r => (Page.ring r n, Source.copy c.id, c.entry, false))) ∧
        (∀ r n, c.page = .ring r n → Gives (.runChain p) s fun u =>
          u = { v with cmds := u.cmds, nextId := u.nextId } ∧
          (u.cmds.drop v.cmds.length).map (fun x => (x.page, x.src, x.entry, x.taken)) =
            ((ringTiles r).filter (fun t => !isFenced v t)).map (fun t => (Page.tile t n, Source.copy c.id, c.entry, false))) ∧
        (∀ t n, c.page = .tile t n → lowTask v t c.ctx = none → exec (.runChain p) s = .next (finish v c stOk)) ∧
        (∀ t n k hd d (v1 v2 : State), c.page = .tile t n → lowTask v t c.ctx = some k →
          let va := fieldAt c.entry 8 8
          let ns := chStages hd
          va % 64 = 0 → vaOk v c.ctx va 64 false = true → readLines v c.ctx va 64 1 = (v1, hd, 0) → ns ≤ 8 →
          vaOk v1 c.ctx va (64 + 64 * ns) false = true → readLines v1 c.ctx va (64 + 64 * ns) 1 = (v2, d, 0) →
          chainOk v2 t k c.ctx d (!isCopy c) = true →
          exec (.runChain p) s = .next { v2 with chainWaits := v2.chainWaits ++ [⟨t, c.ctx, k, none, some c.id, d⟩] }))) ∧
    (∀ id, s.cmds.find? (fun c => c.id == id && c.taken && isGroup c && c.members.isEmpty) = none →
      exec (.groupCommandComplete id) s = .next s) ∧
    (∀ id c, s.cmds.find? (fun c => c.id == id && c.taken && isGroup c && c.members.isEmpty) = some c →
      Gives (.groupCommandComplete id) s fun u => EndsOnly s u c ∧ (∀ x ∈ u.cmds, x.id ≠ c.id) ∧
        u = complete s c c.status ((c.err.map (fun w => BitVec.ofNat 32 (getF w 16 32))).getD (pageUnit s c.page)))

/-- ENGINE_FAULT. (03_tile.md, 02_units_and_contexts.md) -/
def Obligations.EngineFault : Prop :=
  ∀ (s : State) (t : TileId) (h : ThreadId) (cause : Byte),
    let n := taskCtx s t (threadTask s t h)
    let hit := decide (threadState s t h = 1 ∨ threadState s t h = 2 ∨ threadState s t h = 3) && ctxLive s n && tileOn s t && cause != 0
    let late := !hit && tileOn s t && cause != 0 && taskValid s t (threadTask s t h) &&
      decide (threadState s t h = 1 ∨ threadState s t h = 2 ∨ threadState s t h = 3 ∨ (threadState s t h = 0 ∧ ctxState s n = 6))
    (hit = false → late = false → exec (.engineFault t h cause) s = .next s) ∧
    (late = true → Gives (.engineFault t h cause) s fun u =>
      u = { s with regs := u.regs } ∧ RegsBut s u [aThread t h] ∧
      (faultedNow s t n = true → threadState u t h = 4 ∧ fld u (aThread t h) 32 8 = cause.toNat) ∧
      (ctxState s n = 6 → threadState u t h = threadState s t h ∧ fld u (aThread t h) 32 8 = cause.toNat) ∧
      (faultedNow s t n = false → ctxState s n ≠ 6 → u = s)) ∧
    (hit = true → Gives (.engineFault t h cause) s fun u =>
      threadState u t h = 4 ∧ fld u (aThread t h) 32 8 = cause.toNat ∧ u.dram = s.dram ∧ u.sp = s.sp ∧ u.gregs = s.gregs ∧
      u.preds = s.preds ∧
      (isNormal s = false → u = { s with regs := u.regs } ∧ RegsBut s u [aThread t h]) ∧
      (isNormal s = true → ctxState u n = 5 ∧ fld u (pageA (.module n) + 0x30) 48 1 = 1 ∧
        (∀ x ∈ u.sends, x.ctx ≠ n) ∧ (∀ x ∈ u.gaths, x.ctx ≠ n) ∧ (∀ x ∈ u.chainWaits, x.ctx ≠ n) ∧
        (chainCmds s n = [] → casOf s n = none → fld s (pageA (.module n) + 0x30) 48 1 = 0 →
          reg u (pageA (.module n) + 0x38) = errWord stFault n (unitTile s t) 0)))

/-- TINC, TWAIT, TTAKE and TREAD. (08_guver_engine_operations.md) -/
def Obligations.Tokens : Prop :=
  ∀ (s : State) (t : TileId) (h : ThreadId) (w : Word64), Issues s t h w →
    let k := threadTask s t h
    let c := wf w 0 5
    let n := wf w 5 16
    let v := tokGet s t k c
    (isEng 0x38 0 w = true →
      (n = 0 → Faults (.tinc t h) s t h cToken) ∧
      (n ≠ 0 → v + n ≤ 65535 → Gives (.tinc t h) s fun u => GoesOn s u t h ∧ TokenOnly s u t k c (v + n)) ∧
      (n ≠ 0 → 65535 < v + n → Gives (.tinc t h) s fun u =>
        tokGet u t k c = 65535 ∧ threadState u t h = 4 ∧ fld u (aThread t h) 32 8 = cToken ∧ (isNormal s = true → ctxState u (taskCtx s t k) = 5))) ∧
    (isEng 0x38 1 w = true →
      (n = 0 → Faults (.twait t h) s t h cToken) ∧
      (n ≠ 0 → n ≤ v → Gives (.twait t h) s fun u => GoesOn s u t h ∧ TokenOnly s u t k c (v - n)) ∧
      (n ≠ 0 → v < n → Waits (.twait t h) s t h)) ∧
    (isEng 0x38 2 w = true →
      (n = 0 ∨ v < n → Faults (.ttake t h) s t h cToken) ∧
      (n ≠ 0 → n ≤ v → Gives (.ttake t h) s fun u => GoesOn s u t h ∧ TokenOnly s u t k c (v - n))) ∧
    (isEng 0x38 3 w = true → Gives (.tread t h) s fun u => ScalarDone s u t h (eRd w) (BitVec.ofNat 64 v))

/-- TSIG and its arrival. (08_guver_engine_operations.md, 09_lattice_schedule.md) -/
def Obligations.TokenSignals : Prop :=
  (∀ (s : State) (t : TileId) (h : ThreadId) (w : Word64), Issues s t h w → isEng 0x38 4 w = true →
    let k := threadTask s t h
    let n := taskCtx s t k
    let a := (greg s t h (eRa w)).toNat
    let j := a / 2 ^ 32 % 8
    let amount := wf w 5 16
    (amount = 0 → Faults (.tsig t h) s t h cToken) ∧
    (tileOfUnit s (a % 2 ^ 32) = none → Faults (.tsig t h) s t h cToken) ∧
    (∀ d, tileOfUnit s (a % 2 ^ 32) = some d → taskOfCtx s d n j = false → Faults (.tsig t h) s t h cToken) ∧
    (∀ d, amount ≠ 0 → tileOfUnit s (a % 2 ^ 32) = some d → taskOfCtx s d n j = true → Gives (.tsig t h) s fun u =>
      GoesOn s u t h ∧ u.tokens = s.tokens ∧ u.beats = s.beats ++ [⟨n, t, d, some h, .token j (wf w 0 5) amount, false, 0, 0, []⟩])) ∧
  (∀ (s : State) (i : Nat) (parity : List TileId) (meets : Option Meeting) (b : Beat) (k c amount : Nat),
    s.beats[i]? = some b → b.cargo = .token k c amount →
    let kept := tileOn s b.dst && taskOfCtx s b.dst b.ctx k && ctxState s b.ctx != 6 && ctxState s b.ctx != 7
    let gone := { s with beats := s.beats.eraseIdx i, tsigs := s.tsigs - 1 }
    let clean := (parity.filter (onRoute b)).isEmpty && meets.isNone && !b.poison
    (routeIdle s b = true → exec (.tsigArrival ⟨i, parity, meets⟩) s = .next gone) ∧
    (routeIdle s b = false → canArrive s i b = false → exec (.tsigArrival ⟨i, parity, meets⟩) s = .next s) ∧
    let here := loseBeat (passed s b b.dst) i
    (∀ a, (∀ t, isPmc t a = false) → reg here a = reg s a) ∧
    (routeIdle s b = false → canArrive s i b = true → clean = true → kept = false →
      exec (.tsigArrival ⟨i, parity, meets⟩) s = .next here) ∧
    (routeIdle s b = false → canArrive s i b = true → clean = true → kept = true → k < 8 → c < 32 →
      tokGet s b.dst k c + amount ≤ 65535 → Gives (.tsigArrival ⟨i, parity, meets⟩) s fun u =>
        u = { here with tokens := u.tokens } ∧ TokenOnly s u b.dst k c (tokGet s b.dst k c + amount))) ∧
  (∀ (s : State) (i : Nat) (parity : List TileId) (meets : Option Meeting),
    (∀ b, s.beats[i]? = some b → ∃ q bytes, b.cargo = .data q bytes) → exec (.tsigArrival ⟨i, parity, meets⟩) s = .next s)

/-- STRM_START, STRM_STOP, STRM_WAIT, BARRIER and STRM_STAT. (08_guver_engine_operations.md, 10_memory_and_streams.md, 03_tile.md) -/
def Obligations.StreamControl : Prop :=
  ∀ (s : State) (t : TileId) (h : ThreadId) (w : Word64), Issues s t h w →
    let k := threadTask s t h
    let v := counted s t h
    (handleOf s t k (wf w 5 6) = none →
      (isEng 0x20 0 w = true → Faults (.strmStart t h) s t h cStreamRange) ∧
      (isEng 0x20 1 w = true → Faults (.strmStop t h) s t h cStreamRange) ∧
      (isEng 0x20 2 w = true → Faults (.strmWait t h) s t h cStreamRange) ∧
      (isEng 0x20 4 w = true → Faults (.strmStat t h) s t h cStreamRange)) ∧
    (∀ n, handleOf s t k (wf w 5 6) = some n → n < 64 →
      let st := fld s (aSte t n) 0 3
      let start := strmStart v ⟨t, k, taskCtx s t k, some h, none, wf w 0 5⟩ (greg s t h (eRa w)) n
      (isEng 0x20 0 w = true →
        (st ≠ 0 → st ≠ 3 → Waits (.strmStart t h) s t h) ∧
        (∀ v' f, st = 0 ∨ st = 3 → start = (v', some f) → exec (.strmStart t h) s = .next (threadFault v' t h f)) ∧
        (∀ v', st = 0 ∨ st = 3 → start = (v', none) → Gives (.strmStart t h) s fun u =>
          fld u (aSte t n) 0 3 = 1 ∧ fld u (aSte t n) 4 3 = k ∧ threadPc u t h = (threadPc s t h + 1) % 8192 ∧
          u.gregs = s.gregs ∧ u.preds = s.preds ∧
          ∃ x, strmOf u t n = some x ∧ x.ctx = taskCtx s t k ∧ x.task = k ∧ x.done = wf w 0 5 ∧
            x.gen = s.gens.get (fun _ => 0) (taskCtx s t k).toNat + 1)) ∧
      (isEng 0x20 1 w = true → Gives (.strmStop t h) s fun u =>
        GoesOn s u t h ∧ fld u (aSte t n) 0 3 = (if st = 1 ∨ st = 3 then 2 else st) ∧ u.strms = s.strms) ∧
      (isEng 0x20 2 w = true →
        (st = 0 ∨ st = 3 → Gives (.strmWait t h) s fun u => ThreadFrame s u t h ∧ GoesOn s u t h) ∧
        (st ≠ 0 → st ≠ 3 → Waits (.strmWait t h) s t h)) ∧
      (isEng 0x20 4 w = true → Gives (.strmStat t h) s fun u => ScalarDone s u t h (eRd w) (reg s (aSte t n)))) ∧
    (isEng 0x20 3 w = true →
      let g := barrierGen s t h (taskCtx s t k)
      (writesDone s t k g = true → Gives (.barrier t h) s fun u =>
        GoesOn s u t h ∧ u.strms = s.strms ∧ u.barriers.get (fun _ => 0) (keyThread t h) = 0) ∧
      (writesDone s t k g = false → exec (.barrier t h) s =
        .next { setThreadState s t h 2 with barriers := s.barriers.set (fun _ => 0) (keyThread t h) (g.toNat + 1) }))

/-- The end of a stream. (10_memory_and_streams.md, 08_guver_engine_operations.md) -/
def Obligations.StreamEnds : Prop :=
  ∀ (s : State) (t : TileId) (n : BitVec 6),
    let i := n.toNat
    let st := fld s (aSte t i) 0 3
    (st ≠ 2 ∨ tileRuns s t = false → exec (.streamDrained t n) s = .next s) ∧
    (∀ x, strmOf s t i = some x → x.outst ≠ [] → exec (.streamDrained t n) s = .next s) ∧
    (st = 2 → tileRuns s t = true → strmOf s t i = none → Gives (.streamDrained t n) s fun u =>
      fld u (aSte t i) 0 3 = 0 ∧ fld u (aSte t i) 8 8 = 0 ∧ u = { s with regs := u.regs } ∧ RegsBut s u [aSte t i]) ∧
    (∀ x, st = 2 → tileRuns s t = true → strmOf s t i = some x → x.outst = [] → Gives (.streamDrained t n) s fun u =>
      fld u (aSte t i) 0 3 = (if x.failing = true ∧ ctxState s x.ctx ≠ 6 ∧ ctxState s x.ctx ≠ 7 then 4 else 0) ∧ fld u (aSte t i) 8 8 = 0 ∧ strmOf u t i = none ∧
      fld u (aSte t i) 32 16 = min (fld s (aSte t i) 32 16 + deferredRows x) 65535 ∧
      (∀ t' j, t' ≠ t → j < 64 → strmOf u t' j = strmOf s t' j) ∧ u.dram = s.dram ∧ u.sp = s.sp) ∧
    (strmOf s t i = none → (∀ r : WriteReport, r.stream = n → exec (.streamDone t r) s = .next s)) ∧
    (∀ x, strmOf s t i = some x → st ≠ 1 ∨ tileRuns s t = false ∨ ctxLive s x.ctx = false →
      ∀ r : WriteReport, r.stream = n → exec (.streamDone t r) s = .next s) ∧
    (∀ x, strmOf s t i = some x → x.write = false → x.moved < strmRows x →
      ∀ r : WriteReport, r.stream = n → exec (.streamDone t r) s = .next s) ∧
    (∀ x, strmOf s t i = some x → x.write = false → st = 1 → tileRuns s t = true → ctxLive s x.ctx = true → strmRows x ≤ x.moved →
      x.chain = none → x.task < 8 → x.done < 32 → tokGet s t x.task x.done < 65535 → ∀ r : WriteReport, r.stream = n → Gives (.streamDone t r) s fun u =>
        fld u (aSte t i) 0 3 = 3 ∧ strmOf u t i = none ∧ u.dram = s.dram ∧ u.sp = s.sp ∧
        (x.done = 0 → u.tokens = s.tokens) ∧ (x.done ≠ 0 → TokenOnly s u t x.task x.done (tokGet s t x.task x.done + 1)))

/-- ROW_DELIVERY and LOOKAHEAD_CHECK. (10_memory_and_streams.md, 09_lattice_schedule.md) -/
def Obligations.StreamRows : Prop :=
  ∀ (s : State) (t : TileId) (n : BitVec 6),
    let i := n.toNat
    (strmOf s t i = none → (∀ parity meets, exec (.rowDelivery t ⟨n, parity, meets⟩) s = .next s) ∧ exec (.lookaheadCheck t n) s = .next s) ∧
    (∀ x, strmOf s t i = some x →
      let runs := !x.write && fld s (aSte t i) 0 3 == 1 && decide (x.moved < strmRows x) && tileRuns s t
      let q := locAddr x.endpoint
      (runs = false ∨ ctxLive s x.ctx = false → ∀ parity meets, exec (.rowDelivery t ⟨n, parity, meets⟩) s = .next s) ∧
      (tileRuns s t = false ∨ x.write = true ∨ fld s (aSte t i) 0 3 ≠ 1 → exec (.lookaheadCheck t n) s = .next s) ∧
      (runs = true → x.td.space = false →
        (rowPresent x x.moved = false ∨ rowLost s t x = true → ctxLive s x.ctx = true →
          ∀ parity meets, exec (.rowDelivery t ⟨n, parity, meets⟩) s = .next (pumpTile t none s)) ∧
        (rowPresent x x.moved = true → rowLost s t x = false → ctxLive s x.ctx = true → isNormal s = true → ∀ parity : List TileId,
          let us := parity.filter (fun u => (rowWays t x).any (fun w => w.path.contains u))
          (us = [] → rowMark x x.moved ≠ 0 →
            exec (.rowDelivery t ⟨n, parity, none⟩) s = .next (strmFault s t i x (memCause (rowMark x x.moved)))) ∧
          (us ≠ [] → exec (.rowDelivery t ⟨n, parity, none⟩) s =
            .next (strmFault (us.foldl (parityAt x.ctx) s) t i x (memCause (max 1 (rowMark x x.moved)))))) ∧
        (rowPresent x x.moved = true → rowLost s t x = false → ctxLive s x.ctx = true → rowMark x x.moved = 0 →
          locKind x.endpoint = 2 → q < 16 →
          (tqHasSlot s t q = false → exec (.rowDelivery t ⟨n, [], none⟩) s = .next s) ∧
          (tqHasSlot s t q = true → Gives (.rowDelivery t ⟨n, [], none⟩) s fun u =>
            tqFill u t q = tqFill s t q + 1 ∧ u.dram = s.dram ∧ u.gregs = s.gregs ∧
            ∃ x', strmOf u t i = some x' ∧ x'.moved = x.moved + 1 ∧ x'.td = x.td ∧ x'.ctx = x.ctx))) ∧
      (lateRow s t x = none → exec (.lookaheadCheck t n) s = .next s) ∧
      (tileRuns s t = true → x.write = false → fld s (aSte t i) 0 3 = 1 → lateRow s t x ≠ none → s.merges = [] →
        exec (.lookaheadCheck t n) s = .next (shutRaise s (ringOf t) 0 (srcStream t i))))

/-- GATH and its completion. (08_guver_engine_operations.md, 10_memory_and_streams.md) -/
def Obligations.Gathers : Prop :=
  (∀ (s : State) (t : TileId) (h : ThreadId) (w : Word64), Issues s t h w → isEng 0x22 0 w = true →
    let k := threadTask s t h
    let n := taskCtx s t k
    let size := 2 ^ wf w 5 2
    let va := (greg s t h (eRa w)).toNat
    let d := greg s t h (eRd w)
    let good := locKind d == 0 && locBitsOk d
    let aligned := locAddr d % size == 0 && va % size == 0
    let inside := (spPhys s t k (locAddr d) size).isSome
    let full := decide (2 ≤ (s.gaths.filter (fun g => g.t == t)).length ∨ 256 ≤ tileHeld s t)
    (good = false → Faults (.gath t h) s t h cEngineParam) ∧
    (good = true → aligned = false → Faults (.gath t h) s t h cAlign) ∧
    (good = true → aligned = true → inside = false → Faults (.gath t h) s t h cSpBound) ∧
    (good = true → aligned = true → inside = true → full = true → Waits (.gath t h) s t h) ∧
    (good = true → aligned = true → inside = true → full = false →
      let g (walking : Bool) : Gath := ⟨t, n, k, some h, wf w 0 5, va, locAddr d, size, walking, none, s.serial⟩
      (xlateOf s t n va false none = .fault → isNormal s = true → Faults (.gath t h) s t h cXlate) ∧
      (xlateOf s t n va false none = .miss → Gives (.gath t h) s fun u =>
        GoesOn s u t h ∧ u.gaths = s.gaths ++ [g true] ∧ u.reqs = s.reqs ∧
        ∃ x ∈ u.walks, x.t = t ∧ x.ctx = n ∧ x.vpn = vpnOf va) ∧
      (∀ f, xlateOf s t n va false none = .frame f → Gives (.gath t h) s fun u =>
        GoesOn s u t h ∧ u.gaths = s.gaths ++ [g false] ∧
        ∃ q, u.reqs = s.reqs ++ [q] ∧ q.pa = (f + va % frameSize) / 128 * 128 ∧ q.ctx = n ∧ q.kind = .gather t (va / 128 * 128)))) ∧
  (∀ (s : State) (t : TileId),
    (s.gaths.find? (fun g => g.t == t) = none → exec (.gatherComplete t) s = .next s) ∧
    (∀ g, s.gaths.find? (fun g => g.t == t) = some g →
      (g.cap = none ∨ tileRuns s t = false ∨ ctxLive s g.ctx = false → exec (.gatherComplete t) s = .next s) ∧
      (∀ c pa, g.cap = some c → tileRuns s t = true → ctxLive s g.ctx = true → c.mark = 0 → spPhys s t g.task g.dest g.size = some pa →
        pa + g.size ≤ 2 ^ 21 → g.va % 128 + g.size ≤ c.data.length → g.task < 8 → g.done < 32 → tokGet s t g.task g.done < 65535 →
        Gives (.gatherComplete t) s fun u =>
          u.gaths = s.gaths.erase g ∧ u.dram = s.dram ∧
          (∀ t' a, a < 2 ^ 21 → spByte u t' a =
            if t' = t ∧ pa ≤ a ∧ a < pa + g.size ∧ writtenLater s t g.ser a = false then c.data.getD (g.va % 128 + (a - pa)) 0 else spByte s t' a) ∧
          (g.done ≠ 0 → TokenOnly s u t g.task g.done (tokGet s t g.task g.done + 1)))))

/-- ARR, LVR and the fifteen vector instructions. (08_guver_engine_operations.md, 04_array_and_ring.md, 06_layout_and_louvre.md) -/
def Obligations.EngineAccepts : Prop :=
  ∀ (s : State) (t : TileId) (h : ThreadId) (w : Word64), Issues s t h w →
    let v := counted s t h
    let x := issOf s t h
    let accepts (i : Instr) (e : Nat) (o : EOp) (check : Option Nat) : Prop :=
      (∀ f, check = some f → Faults i s t h f) ∧
      (check = none → placeFree s t e = false → Waits i s t h) ∧
      (check = none → placeFree s t e = true → Gives i s fun u =>
        GoesOn s u t h ∧ u.sp = s.sp ∧ u.acc = s.acc ∧
        engOf u t e = (if e ≠ 0 ∧ (engOf s t e).running = none then ⟨some o, none⟩ else ⟨(engOf s t e).running, some o⟩) ∧
        ∀ t' e', e' < 4 → ¬(t' = t ∧ e' = e) → engOf u t' e' = engOf s t' e')
    (iMajor w = 0x24 →
      let o := opOf x v 0 (eRd w) 0 (greg s t h (eRa w)) (greg s t h (eRb w)) (greg s t h (eRc w))
      accepts (.arr t h) 0 o (passCheck v t o)) ∧
    (iMajor w = 0x26 →
      let o := opOf x v 0 (wf w 0 5) (greg s t h (eRd w)) (greg s t h (eRa w)) 0 0
      accepts (.lvr t h) 1 o (lvCheck v t o)) ∧
    (∀ i minor, vecRow i = some (t, h, minor) → isEng 0x28 minor w = true → accepts i 2 (vecOp x v) (vecCheck v t (vecOp x v)))

/-- The running operations of a tile's engines. (08_guver_engine_operations.md, 04_array_and_ring.md) -/
def Obligations.EngineRuns : Prop :=
  ∀ (s : State) (t : TileId),
    let q := engOf s t 0
    (q.pend = none → ∀ missed, exec (.arrayPassBegin ⟨t, missed⟩) s = .next s) ∧
    (∀ o missed, q.pend = some o →
      let held := usesLouvre o.fields o.b && ((engOf s t 1).running.isSome || (o.chain.isNone && engineHeld s t 1))
      let busy := q.running.any (fun r => decide (r.row < r.rows))
      let owns := statValid s t && statTask s t == o.task
      let free := tileRuns s t && ctxLive s o.ctx && !held && !busy
      (free = false → exec (.arrayPassBegin ⟨t, missed⟩) s = .next s) ∧
      (free = true → o.load = 2 → owns = false →
        exec (.arrayPassBegin ⟨t, missed⟩) s = .next (opFault (setEng (drainPass s t) t 0 ⟨none, none⟩) t o cArrayParam)) ∧
      (free = true → o.load ≠ 2 ∨ owns = true → o.row < o.rows →
        Gives (.arrayPassBegin ⟨t, missed⟩) s fun u =>
          (engOf u t 0).pend = none ∧
          (engOf u t 0).running = some { o with
            tabM := if o.load = 1 then o.tabM else tableOf s t o.ctx o.fmtM o.slotM,
            tabS := if o.load = 1 then o.tabS else tableOf s t o.ctx o.fmtS o.slotS,
            loaded := if o.load = 2 then 64 else 0 } ∧
          u.drains = s.drains ++ q.running.toList.map (fun r => ⟨t, r, (List.range 64).map (statImage s t), statTransposed s t⟩) ∧
          fld u (aArrStatus t) 0 2 = (if o.load = 2 then 2 else 1) ∧ fld u (aArrStatus t) 8 4 = o.fmtM ∧
          (o.load ≠ 2 → statValid u t = false ∧ statTask u t = o.task % 8) ∧
          u = { s with regs := u.regs, engines := u.engines, ringBeats := u.ringBeats, ringIn := u.ringIn, drains := u.drains,
                       progress := u.progress } ∧
          ∀ a, a ≠ aArrStatus t → (∀ t', a ≠ aArrRing t') → reg u a = reg s a)) ∧
    (tileRuns s t = false → ∀ r : PassReport, r.tile = t → exec (.arrayPassComplete r) s = .next s) ∧
    ((∀ o, (engOf s t 0).running = some o → ctxLive s o.ctx = false) → (∀ d ∈ s.drains, d.t = t → ctxLive s d.op.ctx = false) →
      ∀ parity again, exec (.arrayPassComplete ⟨t, parity, again, [], none⟩) s = .next s) ∧
    (∀ d parity again, (engOf s t 0).running = none → s.drains.find? (fun d => d.t == t) = some d → tileRuns s t = true →
      ctxLive s d.op.ctx = true → d.op.chain = none → d.op.done = 0 → Gives (.arrayPassComplete ⟨t, parity, again, [], none⟩) s fun u =>
        u.drains = s.drains.erase d ∧ u.engines = s.engines ∧ fld u (aArrStatus t) 0 2 = 0 ∧ u.sp = s.sp ∧ u.stat = s.stat ∧
        u.acc = (outRowOf (d.images.map (decodeRow d.op.fmtS d.op.blk16 d.op.dbl d.op.tabS)) d.turned s t
          { d.op with row := d.op.rows - 1 } (d.op.buf.headD [])).acc ∧
        fld u (aArrCount t) 0 32 = min (fld s (aArrCount t) 0 32 + 1) (2 ^ 32 - 1)) ∧
    (tileRuns s t = false → exec (.louvreTransferComplete t) s = .next s) ∧
    (lvFront s t false = none → (∀ o, (engOf s t 1).running = some o → arrayHolds s t = true ∨ ctxLive s o.ctx = false) →
      exec (.louvreTransferComplete t) s = .next s) ∧
    ((∀ o, (engOf s t 2).running = some o → tileRuns s t = false ∨ ctxLive s o.ctx = false) → exec (.vectorOpComplete t) s = .next s) ∧
    (∀ o, (engOf s t 2).running = some o → tileRuns s t = true → ctxLive s o.ctx = true →
      (o.row < o.vRows → vFetch s t o = none → Gives (.vectorOpComplete t) s fun u =>
        u = { s with engines := u.engines } ∧ ∀ t' e, e < 4 → engOf u t' e = engOf s t' e) ∧
      (o.vRows ≤ o.row → o.chain = none → o.task < 8 → o.done < 32 → tokGet s t o.task o.done < 65535 →
        Gives (.vectorOpComplete t) s fun u =>
          engOf u t 2 = ⟨(engOf s t 2).pend, none⟩ ∧ u.sp = s.sp ∧ u.acc = s.acc ∧ u.dram = s.dram ∧
          (o.done = 0 → u.tokens = s.tokens) ∧ (o.done ≠ 0 → TokenOnly s u t o.task o.done (tokGet s t o.task o.done + 1)))) ∧
    (∀ x, (engOf s t 1).running = none → tileRuns s t = true → lvOf s t = [x] → lvFront s t false = some x → ctxLive s x.op.ctx = true →
      x.final = true → x.op.chain = none → x.op.done = 0 → (lvEmit 64 s t x).2.out = 64 → Gives (.louvreTransferComplete t) s fun u =>
        lvOf u t = [] ∧ fld u (aLvrCount t) 0 32 = min (fld s (aLvrCount t) 0 32 + 1) (2 ^ 32 - 1) ∧
        u.sp = (lvEmit 64 s t x).1.sp ∧ u.tokens = s.tokens ∧ u.acc = s.acc) ∧
    (∀ o parity again, (engOf s t 0).running = some o → (∀ d ∈ s.drains, d.t ≠ t) → tileRuns s t = true → ctxLive s o.ctx = true →
      o.rows ≤ o.row → o.chain = none → o.done = 0 → Gives (.arrayPassComplete ⟨t, parity, again, [], none⟩) s fun u =>
        engOf u t 0 = ⟨none, (engOf s t 0).pend⟩ ∧ fld u (aArrStatus t) 0 2 = 0 ∧ u.sp = s.sp ∧
        u.acc = (outRow (ringExpire s (ringOf t)) t { o with row := o.rows - 1 } (o.buf.headD [])).acc ∧
        fld u (aArrCount t) 0 32 = min (fld s (aArrCount t) 0 32 + 1) (2 ^ 32 - 1))

/-- CURVE_LOAD, TABLE_LOAD and their completions. (08_guver_engine_operations.md, 03_tile.md, 05_number_formats.md) -/
def Obligations.SlotLoads : Prop :=
  (∀ (s : State) (t : TileId) (h : ThreadId) (w : Word64), Issues s t h w →
    let k := threadTask s t h
    let n := taskCtx s t k
    let slot := wf w 0 4
    let loc := greg s t h (eRa w)
    let six := decide (wf w 4 1 = 1)
    let len := if six then 256 else 64
    (isEng 0x2A 0 w = true →
      (slot < 8 → Faults (.curveLoad t h) s t h cEngineParam) ∧
      (∀ f, 8 ≤ slot → locCheck s t k [0] false 1056 0 loc = some f → Faults (.curveLoad t h) s t h f) ∧
      (8 ≤ slot → locCheck s t k [0] false 1056 0 loc = none → curveOwned s t slot = true → curveCtx s t slot ≠ n →
        Faults (.curveLoad t h) s t h cCurveOwner) ∧
      (∀ pa, 8 ≤ slot → locCheck s t k [0] false 1056 0 loc = none → (curveOwned s t slot = false ∨ curveCtx s t slot = n) →
        spPhys s t k (locAddr loc) 1056 = some pa → spMark s t pa 1056 = 0 → curveBad (wordsAt (spRead s t pa 1056) 264) = false →
        absentIn s t k (locAddr loc) 1056 none = false → ∃ u, exec (.curveLoad t h) s = .next u ∧
          GoesOn s u t h ∧ curveOwned u t slot = true ∧ curveCtx u t slot = n ∧ u.curves = s.curves ∧ u.sp = s.sp ∧
          u.vloads = s.vloads ++ [⟨t, n, slot, false, false, wordsAt (spRead s t pa 1056) 264⟩]) ∧
      (8 ≤ slot → locCheck s t k [0] false 1056 0 loc = none → (curveOwned s t slot = false ∨ curveCtx s t slot = n) →
        absentIn s t k (locAddr loc) 1056 none = true → Waits (.curveLoad t h) s t h)) ∧
    (isEng 0x2A 1 w = true →
      (slot < 8 → Faults (.tableLoad t h) s t h cFmtParam) ∧
      (∀ pa, 8 ≤ slot → locKind loc = 0 → locBitsOk loc = true → locAddr loc % 64 = 0 → locCheck s t k [0] false len 0 loc = none →
        spPhys s t k (locAddr loc) len = some pa → spMark s t pa len = 0 → absentIn s t k (locAddr loc) len none = false →
        ∃ u, exec (.tableLoad t h) s = .next u ∧
          GoesOn s u t h ∧ u.tables = s.tables ∧ u.sp = s.sp ∧
          u.vloads = s.vloads ++ [⟨t, n, slot, true, six, wordsAt (spRead s t pa len) (len / 4)⟩]) ∧
      (8 ≤ slot → locKind loc = 0 → locBitsOk loc = true → locAddr loc % 64 = 0 → locCheck s t k [0] false len 0 loc = none →
        absentIn s t k (locAddr loc) len none = true → Waits (.tableLoad t h) s t h))) ∧
  (∀ (s : State) (t : TileId) (n : CtxId) (slot : BitVec 4) (l : VLoad),
    (tileRuns s t = false → exec (.curveLoadComplete t slot) s = .next s ∧ exec (.tableLoadComplete t n slot) s = .next s) ∧
    (s.vloads.find? (fun l => l.t == t && !l.table && l.slot == slot.toNat) = some l → tileRuns s t = true → l.words.length ≤ 264 →
      ∃ u, exec (.curveLoadComplete t slot) s = .next u ∧
        fld u (aCurve t l.slot) 0 1 = 1 ∧ RegsBut s u [aCurve t l.slot] ∧ u.vloads.length + 1 = s.vloads.length ∧
        u = { s with regs := u.regs, vloads := u.vloads, curves := u.curves } ∧
        ∀ i, i < l.words.length → u.curves.get (fun _ => 0) (curveKey t l.slot i) = l.words.getD i 0) ∧
    (s.vloads.find? (fun l => l.t == t && l.table && l.ctx == n && l.slot == slot.toNat) = some l → tileRuns s t = true →
      l.words.length ≤ 64 → 8 ≤ l.slot → ∃ u, exec (.tableLoadComplete t n slot) s = .next u ∧
        tblLoaded u t n l.slot = true ∧ tblKind u t n l.slot = l.kind ∧ RegsBut s u [aTbl t n] ∧
        u = { s with regs := u.regs, vloads := u.vloads, tables := u.tables } ∧
        ∀ i, i < l.words.length → u.tables.get (fun _ => 0) (tblKey t n l.slot i) = l.words.getD i 0))

/-- SEND, MSEND and LAT_SEND_COMPLETE. (08_guver_engine_operations.md, 09_lattice_schedule.md) -/
def Obligations.Sends : Prop :=
  (∀ (s : State) (t : TileId) (h : ThreadId) (w : Word64), Issues s t h w →
    let k := threadTask s t h
    let n := taskCtx s t k
    let loc := greg s t h (eRa w)
    let b := (greg s t h (eRb w)).toNat
    let beats := wf w 12 16 + 1
    let bad := locCheck s t k [0, 2] false (64 * beats) 0 loc
    let out (u : State) (ds : List TileId) : Prop := GoesOn s u t h ∧ u.beats = s.beats ∧ u.sp = s.sp ∧
      u.sends = s.sends ++ [⟨t, n, k, some h, wf w 0 5, loc, ds, b / 2 ^ 32 % 16, beats, 0⟩]
    (isEng 0x30 0 w = true →
      (∀ f, bad = some f → Faults (.send t h) s t h f) ∧
      (bad = none → tileOfUnit s (b % 2 ^ 32) = none → Faults (.send t h) s t h cEngineParam) ∧
      (∀ d, bad = none → tileOfUnit s (b % 2 ^ 32) = some d → Gives (.send t h) s fun u => out u [d])) ∧
    (isEng 0x30 1 w = true →
      (∀ f, bad = some f → Faults (.msend t h) s t h f) ∧
      (bad = none → rectOf s t b = none → Faults (.msend t h) s t h cEngineParam) ∧
      (∀ ds, bad = none → rectOf s t b = some ds → Gives (.msend t h) s fun u => out u ds))) ∧
  (∀ (s : State) (t : TileId),
    ((∀ x ∈ s.sends, x.t ≠ t) ∨ tileRuns s t = false → exec (.latSendComplete t) s = .next s) ∧
    (∀ before x after, s.sends = before ++ x :: after → x.t = t → (∀ y ∈ before ++ after, y.t ≠ t) →
      let row := takeRow s t x.task x.src x.sent 64
      (ctxLive s x.ctx = false → exec (.latSendComplete t) s = .next s) ∧
      (tileRuns s t = true → ctxLive s x.ctx = true → x.sent < x.beats → row = none → exec (.latSendComplete t) s = .next s) ∧
      (∀ s' p, tileRuns s t = true → ctxLive s x.ctx = true → x.sent < x.beats → row = some (s', p) →
        (isNormal s = true → p.mark ≠ 0 → exec (.latSendComplete t) s =
          .next (engineFaultOp { s' with sends := before ++ after } t x.thread x.ctx (markCause p.mark))) ∧
        (isNormal s = false ∨ p.mark = 0 → x.beats = x.sent + 1 → x.task < 8 → x.done < 32 → tokGet s t x.task x.done < 65535 →
          Gives (.latSendComplete t) s fun u =>
            u.sends = before ++ after ∧ u.sp = s.sp ∧ u.dram = s.dram ∧
            u.beats = s.beats ++ x.dests.map (fun d => ⟨x.ctx, t, d, x.thread, .data x.queue p.bytes, p.mark != 0, 0,
              if x.dests.length ≤ 1 then 0 else s.serial + 1, []⟩) ∧
            (x.done = 0 → u.tokens = s.tokens) ∧ (x.done ≠ 0 → TokenOnly s u t x.task x.done (tokGet s t x.task x.done + 1))))))

/-- BEAT_ARRIVAL, BOUNDARY_CROSSING and CROSSING_UNDERRUN. (08_guver_engine_operations.md, 09_lattice_schedule.md) -/
def Obligations.Beats : Prop :=
  ∀ (s : State) (i : Nat) (b : Beat), s.beats[i]? = some b →
    let d := b.dst
    let gone := s.beats.eraseIdx i
    let leaves (u : State) : Prop := u.beats.length + 1 = s.beats.length ∧ (b.tree = 0 → u.beats = gone)
    (∀ parity meets, (∃ k c a, b.cargo = .token k c a) ∨ (routeIdle s b = false ∧ canArrive s i b = false) →
      exec (.beatArrival i parity meets) s = .next s) ∧
    (∀ q bytes parity meets, b.cargo = .data q bytes → routeIdle s b = true →
      exec (.beatArrival i parity meets) s = .next { s with beats := gone }) ∧
    (∀ q bytes parity, b.cargo = .data q bytes → routeIdle s b = false → canArrive s i b = true → tileOn s d = true →
      let mine := tqValid s d q && decide (taskCtx s d (tqTask s d q) = b.ctx)
      let slot := tqSlot s d q (tqFill s d q)
      (mine = true → tqHasSlot s d q = true → q < 16 → bytes.length ≤ 128 → slot + 128 ≤ 2 ^ 21 →
        Gives (.beatArrival i parity none) s fun u =>
          leaves u ∧ tqFill u d q = tqFill s d q + 1 ∧ u.dram = s.dram ∧ u.tokens = s.tokens ∧ u.gregs = s.gregs ∧
          spMark u d slot 128 = (if b.poison || parity.any (onRoute b) then 1 else 0) ∧
          ∀ t' a, a < 2 ^ 21 → spByte u t' a =
            if t' = d ∧ slot ≤ a ∧ a < slot + 128 then bytes.getD (a - slot) 0 else spByte s t' a) ∧
      (mine = false ∨ tqHasSlot s d q = false → Gives (.beatArrival i parity none) s fun u =>
        leaves u ∧ u.sp = s.sp ∧ u.spMark = s.spMark ∧ fld u (aRtr d) 16 16 = min (fld s (aRtr d) 16 16 + 1) 65535)) ∧
    (∀ q bytes parity, b.cargo = .data q bytes → routeIdle s b = false → canArrive s i b = true → tileOn s d = false →
      Gives (.beatArrival i parity none) s fun u => leaves u ∧ u.sp = s.sp) ∧
    (∀ q bytes m c rank rank' out, b.cargo = .data q bytes → routeIdle s b = false → canArrive s i b = true → m.other ≠ .beat i →
      metSides s (.beat i) m.router = some (b.ctx, rank, out) → metSides s m.other m.router = some (c, rank', out) → rank' < rank →
      Gives (.beatArrival i [] (some m)) s fun u =>
        u.beats.length < s.beats.length ∧ (b.tree = 0 → u.beats = gone) ∧ u.sp = s.sp ∧ fld u (aRtr m.router) 0 16 = min (fld s (aRtr m.router) 0 16 + 1) 65535) ∧
    (crossingOf s b = none → exec (.boundaryCrossing i) s = .next s) ∧
    (∀ x, crossingOf s b = some x →
      let r := tileAt (colOf b.dst) x.2
      let near := ringOpen s (BitVec.ofNat 4 x.1)
      let far := ringOpen s (ringOf r)
      let room := sameOwner s x && decide (bufferFill s r (decide (rowOf b.src < rowOf r)) < 32)
      let on := { s with beats := s.beats.set i { b with phase := b.phase + 1 } }
      (b.phase % 2 = 0 → near = false → exec (.boundaryCrossing i) s = .next s) ∧
      (b.phase % 2 = 0 → near = true → room = true → exec (.boundaryCrossing i) s = .next on) ∧
      (b.phase % 2 = 0 → near = true → room = false → Gives (.boundaryCrossing i) s fun u =>
        u.beats = gone ∧ u.sp = s.sp ∧ (isNormal s = true → ctxLive s b.ctx = true → ctxState u b.ctx = 5)) ∧
      (b.phase % 2 = 1 → far = true → exec (.boundaryCrossing i) s = .next on) ∧
      (b.phase % 2 = 1 → far = false → exec (.boundaryCrossing i) s = .next s)) ∧
    (∀ r, ringOpen s (ringOf r) = false ∨ b.way.crosses r = false → exec (.crossingUnderrun (.beat i) r) s = .next s) ∧
    (∀ j r, exec (.crossingUnderrun (.ring j) r) s = .next s) ∧
    (∀ r, ringOpen s (ringOf r) = true → b.way.crosses r = true → Gives (.crossingUnderrun (.beat i) r) s fun u =>
      u = { poisonBeat s b i r with regs := u.regs, evs := u.evs } ∧ (∃ b', u.beats[i]? = some b' ∧ b'.poison = true) ∧
      RegsBut s u [aRtr r] ∧ fld u (aRtr r) 48 8 = min (fld s (aRtr r) 48 8 + 1) 255 ∧
      ∃ e, u.evs = s.evs ++ [e] ∧ e.code = 0xD ∧ e.ctx = 0xFF ∧ e.unit = unitTile s r)

/-- Chains, and commands from code. (08_guver_engine_operations.md) -/
def Obligations.Chains : Prop :=
  (∀ (s : State) (t : TileId) (h : ThreadId) (w : Word64), Issues s t h w →
    let k := threadTask s t h
    let n := taskCtx s t k
    let loc := greg s t h (eRa w)
    (isEng 0x34 0 w = true →
      let read := readChain (counted s t h) t k loc
      (ctxState s n ≠ 3 → Waits (.chain t h) s t h) ∧
      (∀ v f, ctxState s n = 3 → read = (v, .error f) → exec (.chain t h) s = .next (threadFault v t h f)) ∧
      (∀ v d, ctxState s n = 3 → read = (v, .ok d) →
        (chainOk v t k n d true = false → exec (.chain t h) s = .next (threadFault v t h cChainParam)) ∧
        (chainOk v t k n d true = true → exec (.chain t h) s =
          .next { setThreadState s t h 2 with chainWaits := s.chainWaits ++ [⟨t, n, k, some h, none, d⟩] }))) ∧
    (isEng 0x3C 0 w = true →
      let bad := locCheck s t k [0] false 128 0 loc
      let page := codePage s n ((greg s t h (eRb w)).toNat % 2 ^ 32)
      (∀ f, bad = some f → Faults (.ucmd t h) s t h f) ∧
      (bad = none → page = none → Faults (.ucmd t h) s t h cEngineParam) ∧
      (∀ p, bad = none → page = some p →
        (ctxState s n ≠ 3 ∨ 16 ≤ codeWaiting s p → Waits (.ucmd t h) s t h) ∧
        (∀ pa, ctxState s n = 3 → codeWaiting s p < 16 → spPhys s t k (locAddr loc) 64 = some pa →
          (isNormal s = true → spMark s t pa 64 ≠ 0 → exec (.ucmd t h) s =
            .next (threadFault (readPiece (counted s t h) t pa 64).1 t h (markCause (spMark s t pa 64)))) ∧
          (isNormal s = false ∨ spMark s t pa 64 = 0 → Gives (.ucmd t h) s fun u =>
            GoesOn s u t h ∧ u.nextId = s.nextId + 1 ∧ u.cmds = s.cmds ++
              [⟨s.nextId, p, n, .code t h k (locAddr loc) (wf w 0 5), spRead s t pa 64, false, [], stOk, none, 0, 0⟩]))))) ∧
  (∀ (s : State) (t : TileId),
    (let able := s.chainWaits.filter (fun w => w.t == t && w.cmd.isNone && canBegin s w && !reserved s t w.desc)
    (able = [] → exec (.chainBegin t none) s = .next s) ∧
    (able ≠ [] → Gives (.chainBegin t none) s fun u => ∃ w ∈ able, ∃ slot c,
      (∀ b ∈ able, (w.thread.getD 0).toNat ≤ (b.thread.getD 0).toNat) ∧ (freeSlots s t).head? = some slot ∧
      u.chainWaits = s.chainWaits.erase w ∧ chainOf u t slot = some c ∧ c.ctx = w.ctx ∧ c.task = w.task ∧ c.desc = w.desc ∧
      c.thread = w.thread ∧ c.origin = s.cycles.get (fun _ => 0) (rowOf t) ∧ (∀ x ∈ c.started, x = 0) ∧ (∀ x ∈ c.finished, x = 0) ∧
      fld u (aChain t slot) 0 1 = 1 ∧ fld u (aChain t slot) 4 4 = w.ctx.toNat ∧
      (∀ h, w.thread = some h → threadState u t h = 1 ∧ threadPc u t h = (threadPc s t h + 1) % 8192))) ∧
    (∀ root,
      let hd := headOf s (ringOf t)
      let ws := s.chainWaits.filter (fun w => headOf s (ringOf w.t) == hd && (match w.cmd with
        | some id => rootCmd s 4 id == root
        | none => false))
      (ws = [] ∨ copiesComing s root hd = true ∨ (∃ w ∈ ws, canBegin s w = false) → exec (.chainBegin t (some root)) s = .next s) ∧
      (∀ w, ws = [w] → copiesComing s root hd = false → canBegin s w = true → Gives (.chainBegin t (some root)) s fun u =>
        ∃ slot c, (freeSlots s w.t).head? = some slot ∧ chainOf u w.t slot = some c ∧ c.desc = w.desc ∧ c.cmd = w.cmd ∧
          u.chainWaits = s.chainWaits.erase w)) ∧
    (∀ slot stage,
      let st := BitVec.toNat stage
      (chainOf s t (BitVec.toNat slot) = none →
        exec (.chainIterationStart t slot stage) s = .next s ∧ exec (.chainEnd t slot) s = .next s) ∧
      (∀ c, chainOf s t (BitVec.toNat slot) = some c →
        let i := c.started.getD st 0
        let token := match chWaitTok c.desc st with
          | some n => tokGet s t c.task n != 0
          | none => true
        let able := decide (st < chStages c.desc) && chRunsOn c.desc t st && decide (i < chIters c.desc st) && tileRuns s t &&
          ctxLive s c.ctx && token && !behindStage t c st && cycleOk s (rowOf t) (stageDue t c st i)
        let v := advanceCycles s (rowOf t) (stageDue t c st i)
        let e := chEngine c.desc st
        let o := stageOp v t c (BitVec.toNat slot) st i
        let check := stageCheck v t e (chMinor c.desc st) o
        let q := engOf s t (stageEngine e)
        let b := fieldAt c.desc 1 1
        (able = false → exec (.chainIterationStart t slot stage) s = .next s) ∧
        (able = true → e = 0 ∨ e = 4 →
          exec (.chainIterationStart t slot stage) s = .next (startStream v t (BitVec.toNat slot) st c)) ∧
        (∀ f, able = true → e ≠ 0 → e ≠ 4 → check = some f →
          exec (.chainIterationStart t slot stage) s = .next (engineFaultOp v t c.thread c.ctx f)) ∧
        (able = true → e ≠ 0 → e ≠ 4 → check = none → q.pend ≠ none ∨ queuesReady v t e (BitVec.toNat slot) st o = false →
          exec (.chainIterationStart t slot stage) s = .next v) ∧
        (able = true → e ≠ 0 → e ≠ 4 → check = none → q.pend = none →
          queuesReady v t e (BitVec.toNat slot) st o = true → st < c.started.length →
          Gives (.chainIterationStart t slot stage) s fun u =>
            chainOf u t (BitVec.toNat slot) = some { c with started := c.started.set st (i + 1) } ∧
            engOf u t (stageEngine e) = (if e ≠ 2 ∧ q.running = none then ⟨some o, none⟩ else ⟨q.running, some o⟩) ∧
            (∀ n, chWaitTok c.desc st = some n → tokGet u t c.task n = tokGet s t c.task n - 1) ∧
            (chWaitTok c.desc st = none → u.tokens = s.tokens)) ∧
        (chainOver t c = false ∨ tileRuns s t = false → exec (.chainEnd t slot) s = .next s) ∧
        (chainOver t c = true → tileRuns s t = true → c.task < 8 → b / 32 % 2 = 0 ∨ tokGet s t c.task (b % 32) < 65535 → Gives (.chainEnd t slot) s fun u =>
          chainOf u t (BitVec.toNat slot) = none ∧ reg u (aChain t (BitVec.toNat slot)) = 0 ∧
          (b / 32 % 2 = 0 → u.tokens = s.tokens) ∧
          (b / 32 % 2 = 1 → TokenOnly s u t c.task (b % 32) (tokGet s t c.task (b % 32) + 1)) ∧
          (∀ id, c.cmd = some id → ∀ x ∈ u.cmds, x.id ≠ id)))) ∧
    (s.codeDone.find? (fun d => d.t == t) = none ∨ tileRuns s t = false → exec (.ucmdComplete t) s = .next s) ∧
    (∀ d, s.codeDone.find? (fun d => d.t == t) = some d → tileRuns s t = true → spPhys s t d.task (d.va + 64) 8 = none →
      exec (.ucmdComplete t) s = .next { s with codeDone := s.codeDone.erase d }) ∧
    (∀ d pa, s.codeDone.find? (fun d => d.t == t) = some d → tileRuns s t = true → spPhys s t d.task (d.va + 64) 8 = some pa →
      pa + 8 ≤ 2 ^ 21 → d.task < 8 → d.done < 32 → d.done = 0 ∨ tokGet s t d.task d.done < 65535 → Gives (.ucmdComplete t) s fun u =>
        u.codeDone = s.codeDone.erase d ∧ u.dram = s.dram ∧
        (∀ t' a, a < 2 ^ 21 → spByte u t' a = if t' = t ∧ pa ≤ a ∧ a < pa + 8
          then (bytesOf (d.status.toNat + d.tag.toNat * 2 ^ 16) 8).getD (a - pa) 0 else spByte s t' a) ∧
        (d.done = 0 → u.tokens = s.tokens) ∧ (d.done ≠ 0 → TokenOnly s u t d.task d.done (tokGet s t d.task d.done + 1))))

/-- Requests on a shutter, its freeze, withdrawals and its opening. (09_lattice_schedule.md, 18_counters_and_debug.md) -/
def Obligations.Shutters : Prop :=
  ∀ (s : State) (r : RingId),
    let h := headOf s r
    let c := shutOf s h
    let st := shutState s h
    let here (u v : State) : Prop :=
      u = { v with regs := u.regs, shuts := u.shuts } ∧ ∀ h', h' ≠ h → shutOf u h' = shutOf s h'
    (∀ (cause : BitVec 3) (src : Nat),
      let k := cause.toNat
      let refused := !s.sup.inputOn || !mayRaise s r k src
      let active := c.reqs.any (fun x => x.cause == k && x.src == src)
      let q : ShutReq := ⟨k, src, periodOf s h.toNat⟩
      let left := c.reqs.filter (fun x => !(x.cause == k && x.src == src))
      (refused = true ∨ active = true → exec (.shutterRequest r cause src) s = .next s) ∧
      (refused = false → active = false → Gives (.shutterRequest r cause src) s fun u =>
        here u s ∧ RegsBut s u [aShtState h.toNat] ∧
        (st = 0 → shutState u h = 1 ∧ shutOf u h = ⟨[q], k, 2 ^ k, q.time, q.time, [], (domainRings s h).map (fun x => (x.toNat, cyclesOf s x.toNat + 24))⟩ ∧ fld u (aShtState h.toNat) 4 7 = 2 ^ k) ∧
        (st ≠ 0 → shutState u h = (if st = 3 then 2 else st) ∧ (shutOf u h).reqs = c.reqs ++ [q] ∧ (shutOf u h).since = c.since)) ∧
      (active = false ∨ mayWithdraw s r k src = false → exec (.shutterWithdraw r cause src) s = .next s) ∧
      (active = true → mayWithdraw s r k src = true → Gives (.shutterWithdraw r cause src) s fun u =>
        here u s ∧ RegsBut s u [aShtState h.toNat] ∧ (shutOf u h).reqs = left ∧ periodOf s h.toNat ≤ (shutOf u h).last ∧
        fld u (aShtState h.toNat) 4 7 = causeBits left ∧ shutState u h = (if left = [] ∧ st = 2 then 3 else st))) ∧
    (st ≠ 1 → exec (.shutterFreeze r) s = .next s) ∧
    (st = 1 → Gives (.shutterFreeze r) s fun u =>
      let v := freezeRings (advancePeriod s h.toNat (c.since + 24)) h
      (∀ e ∈ c.stop, e.2 ≤ cyclesOf u e.1) ∧
      shutState u h = (if c.reqs = [] then 3 else 2) ∧ here u v ∧ u.shuts = s.shuts ∧ RegsBut v u [aShtState h.toNat] ∧
      fld u (aShtState h.toNat) 16 32 = min (fld s (aShtState h.toNat) 16 32 + 1) (2 ^ 32 - 1)) ∧
    (st ≠ 3 ∨ c.reqs ≠ [] → exec (.shutterOpen r) s = .next s) ∧
    (st = 3 → c.reqs = [] → Gives (.shutterOpen r) s fun u =>
      let v := advancePeriod s h.toNat (c.last + 24)
      shutState u h = 0 ∧ here u { v with skew := u.skew, charged := u.charged } ∧ shutOf u h = shutDef 0 ∧
      (∀ a, a ≠ aShtState h.toNat → a ≠ aShtLast h.toNat → (∀ t, isPmc t a = false) → (∀ k, k < 8 → a ≠ modG (0x4180 + 8 * k)) →
        reg u a = reg v a) ∧
      reg u (aShtLast h.toNat) = BitVec.ofNat 64 (c.first + c.causes * 16 + min (c.last - c.since) (2 ^ 32 - 1) * 2 ^ 16) ∧
      (∀ k, u.charged.get (fun _ => 0) k = s.charged.get (fun _ => 0) k +
        (((chargesOf c).filter (fun x => h.toNat * 8 + x.1 == k)).map (fun x => x.2)).sum) ∧
      (∀ x ∈ domainRings s h, skewOf u x.toNat = 0))

/-- Crossing skew, its holds, adaptive stretch, and the debug hold. (09_lattice_schedule.md, 16_clocks_time_power.md, 18_counters_and_debug.md) -/
def Obligations.SkewHolds : Prop :=
  ∀ (s : State) (r : RingId) (c : BitVec 5),
    let dn : RingId := BitVec.ofNat 4 (r.toNat + 1)
    let h := headOf s r
    let h' := headOf s dn
    let due := decide (r.toNat < 15) && decide (8 * skewLimit s ≤ skewOf s r.toNat) && !isOos s r && !isOos s dn && s.sup.inputOn
    let mine (x : ShutReq) : Bool := x.cause == 1 && x.src == srcSkew r.toNat c.toNat
    let left := (shutOf s h).reqs.filter (fun x => !mine x)
    (due = false → exec (.skewHold r c) s = .next s) ∧
    (due = true → Gives (.skewHold r c) s fun u =>
      u = { s with regs := u.regs, shuts := u.shuts } ∧ RegsBut s u [aShtState h.toNat, aShtState h'.toNat] ∧
      ∀ g ∈ [h, h'], (shutOf u g).reqs.any mine = true ∧
        (shutState s g = 0 → (shutOf s g).reqs.any mine = false → shutState u g = 1)) ∧
    ((shutOf s h).reqs.find? mine = none → (shutOf s h').reqs.find? mine = none → exec (.skewHoldExpire r c) s = .next s) ∧
    (Gives (.skewHoldExpire r c) s fun u =>
      ∀ g ∈ [h, h'], (shutOf u g).reqs = (shutOf s g).reqs.filter (fun x => !mine x)) ∧
    (∀ x, h' = h → (shutOf s h).reqs.find? mine = some x → Gives (.skewHoldExpire r c) s fun u =>
      let v := advancePeriod s h.toNat (x.time + 8)
      u = { v with regs := u.regs, shuts := u.shuts } ∧ RegsBut v u [aShtState h.toNat] ∧ (shutOf u h).reqs = left ∧
      x.time + 8 ≤ (shutOf u h).last ∧ shutState u h = (if left = [] ∧ shutState s h = 2 then 3 else shutState s h)) ∧
    (∀ (region : BitVec 5) (eighths : BitVec 3),
      let g := region.toNat
      let e := eighths.toNat
      let at' := s.stretchAt.get (fun _ => 0) g
      let refused := !s.sup.inputOn || decide (23 ≤ g) || e == 0 || decide (4 < e) || (at' != 0 && decide (periodOf s g + 1 < at' + 16))
      (refused = true → exec (.adaptiveStretch region eighths) s = .next s) ∧
      (refused = false → Gives (.adaptiveStretch region eighths) s fun u =>
        u = { s with regs := u.regs, stretchAt := u.stretchAt, skew := u.skew, debt := u.debt } ∧ debtOf u g = debtOf s g + e ∧ RegsBut s u [aRegion g] ∧
        fld u (aRegion g) 8 32 = min (fld s (aRegion g) 8 32 + 1) (2 ^ 32 - 1) ∧
        u.stretchAt.get (fun _ => 0) g = periodOf s g + 1 ∧
        ∀ k, u.skew.get (fun _ => 0) k = s.skew.get (fun _ => 0) k +
          (if g < 16 ∧ ((k = 2 * g ∧ g < 15) ∨ (k + 1 = 2 * g ∧ 0 < g)) then e else 0))) ∧
    ((∀ x, s.gov.change = some x → x.phase ≠ 1) → exec .preSwitchSkewHold s = .next s) ∧
    (∀ x, s.gov.change = some x → x.phase = 1 → Gives .preSwitchSkewHold s fun u =>
      let v := advanceTo s (x.at' - 50)
      u = { v with regs := u.regs, shuts := u.shuts, preSwitch := true } ∧
      RegsBut v u ((List.range 16).map aShtState) ∧
      ((∀ i, i < 15 → skewOf s i < 8) → u = { v with preSwitch := true })) ∧
    (∀ raise, s.sup.inputOn = false ∨ s.dbgScope / 2 % 2 = 0 ∨ isOos s r = true → exec (.debugHold r raise) s = .next s) ∧
    (∀ raise, s.sup.inputOn = true → s.dbgScope / 2 % 2 = 1 → isOos s r = false → Gives (.debugHold r raise) s fun u =>
      u = { s with regs := u.regs, shuts := u.shuts } ∧ RegsBut s u [aShtState h.toNat] ∧
      (shutOf u h).reqs.any (fun x => x.cause == 6 && x.src == srcDebug + 1) = raise)

/-- SLICE_REQUEST, GROUP_FILL, MERGE_DELIVERY and MERGE_SPLIT. (10_memory_and_streams.md) -/
def Obligations.SliceService : Prop :=
  ∀ (s : State) (slice : BitVec 6),
    let i := slice.toNat
    let all := s.reqs.filter (fun q => sliceOf q.pa == i)
    let ws := all.filter (fun q => !behind q all)
    let aged (q : Req) : Bool := decide (q.since + prioAge s q.level ≤ uncCycle s)
    let credit (l : Nat) : Int := (creditsAdd s (8 * i) (fun l => ws.any (fun q => q.level == l))).get (fun _ => 0) (8 * i + l)
    let ms := s.merges.filter (fun m => sliceOf m.pa == i)
    (ws = [] → exec (.sliceRequest slice) s = .next s) ∧
    (∀ q m, choose s i = some (q, m) →
      let v := { s with reqs := s.reqs.erase q, curLvl := m }
      let g := groupOf q.pa
      let k := q.pa / 128 % 4
      let port := sliceOf q.pa / 4
      let hit := lineHit (grp s g) k
      q ∈ ws ∧ (∀ o, ws.find? aged = some o → q = o) ∧
      (ws.find? aged = none → ws.find? (fun o => o.level == q.level) = some q ∧
        ∀ o ∈ ws, o.level < 8 → credit o.level ≤ credit q.level) ∧
      (∀ l, l < 8 → (ws.erase q).all (fun o => o.level != l) = true → m.get (fun _ => 0) (8 * i + l) = 0) ∧
      (serve v q = none → exec (.sliceRequest slice) s = .next s) ∧
      (∀ t va, q.kind = .gather t va → q.mgroup = 0 → hit = true → Gives (.sliceRequest slice) s fun u =>
        u.reqs = s.reqs.erase q ∧ u.dram = s.dram ∧ u.sp = s.sp ∧
        u.gaths = captureGath t q.ctx ⟨va, lineBytes s g k, lineMark (grp s g) k, port⟩ s.gaths) ∧
      (∀ t n va x, q.kind = .read t n va → q.mgroup = 0 → hit = true → strmOf s t n = some x → n < 64 → x.gen = q.gen →
        (va, port) ∈ x.outst → fld s (aSte t n) 0 3 = 1 → Gives (.sliceRequest slice) s fun u =>
          u.reqs = s.reqs.erase q ∧ u.dram = s.dram ∧ u.sp = s.sp ∧ ∃ x', strmOf u t n = some x' ∧
          x'.caps = (if needsLine x va then x.caps ++ [⟨va, lineBytes s g k, lineMark (grp s g) k, port⟩] else x.caps) ∧ x'.outst = x.outst.erase (va, port)) ∧
      (isWrite q = false → q.mgroup = 0 → hit = false → serve v q ≠ none →
        Gives (.sliceRequest slice) s fun u => u.reqs = s.reqs.erase q ∧ ∃ f ∈ u.fills, f.group = g ∧ q ∈ f.waiters) ∧
      (∀ t j bytes pads bad va, q.kind = .write t j bytes pads bad va →
        (s.fills.find? (fun f => f.group == g)).bind (fun f => f.waiters.find? (readsLine q.pa)) = none → serve v q ≠ none →
        Gives (.sliceRequest slice) s fun u => u.reqs = s.reqs.erase q ∧
          (∀ o b, bytes.reverse.find? (fun x => x.1 % 512 == o) = some b → grpByte u g o = b.2) ∧
          ((grp s g).valid = true → ctxDebug s q.ctx = false → u.dram = s.dram ∧
            ∀ o, bytes.find? (fun x => x.1 % 512 == o) = none → grpByte u g o = grpByte s g o))) ∧
    (∀ rep,
      (s.fills.find? (fun f => sliceOf (f.group * 512) == i) = none → exec (.groupFill slice rep) s = .next s) ∧
      (∀ f m, chooseFill s (i / 8) = some (f, m) → sliceOf (f.group * 512) ≠ i → exec (.groupFill slice rep) s = .next s) ∧
      (∀ f m, chooseFill s (i / 8) = some (f, m) → sliceOf (f.group * 512) = i →
        let v := linkCounts { s with curLvl := m, fills := s.fills.filter (fun x => x.group != f.group) } f.group rep
        let n := checkedRead rep
        Gives (.groupFill slice rep) s (fun u => u.fills = s.fills.filter (fun x => x.group != f.group)) ∧
        (f.waiters = [] → linkFails rep = false → Gives (.groupFill slice rep) s fun u =>
          u.dram = s.dram ∧ (grp u f.group).filled = true ∧
          ((grp u f.group).failed = true ↔ f.group ∈ s.badGroups ∨ (readDiff s f.group rep n = none ∧
            (failMask (readFails rep (n + 1)) ≠ 0 ∨ readDiff s f.group rep (n + 1) = none)))) ∧
        (∀ q t va, f.waiters = [q] → q.kind = .gather t va → q.mgroup = 0 → Gives (.groupFill slice rep) s fun u =>
          let k := q.pa / 128 % 4
          u.dram = s.dram ∧ u.gaths = captureGath t q.ctx ⟨va, lineBytes s (groupOf q.pa) k,
            if linkFails rep then ueMark (failMask rep.second) k else lineMark (grp (fillCheck v f.group rep) (groupOf q.pa)) k,
            sliceOf q.pa / 4⟩ s.gaths))) ∧
    (∀ j, ms[j]? = none → exec (.mergeDelivery slice j) s = .next s ∧ exec (.mergeSplit slice j) s = .next s) ∧
    (∀ j m, ms[j]? = some m →
      (m.present = none ∨ m.closed = true → exec (.mergeDelivery slice j) s = .next s ∧ exec (.mergeSplit slice j) s = .next s) ∧
      (∀ bs mark, m.present = some (bs, mark) → m.closed = false →
        (m.joined.length < m.mcount → exec (.mergeDelivery slice j) s = .next s) ∧
        (m.mcount ≤ m.joined.length → exec (.mergeSplit slice j) s = .next s) ∧
        (m.mcount ≤ m.joined.length → Gives (.mergeDelivery slice j) s fun u =>
          u.merges = s.merges.erase m ∧ u.dram = s.dram ∧ u.groups = s.groups ∧ u.sp = s.sp ∧
          (∀ q c t va, m.joined = [(q, c)] → q.kind = .gather t va →
            u.gaths = captureGath t q.ctx ⟨va, (c.getD (bs, mark)).1, (c.getD (bs, mark)).2, sliceOf q.pa / 4⟩ s.gaths)) ∧
        (m.joined.length < m.mcount → Gives (.mergeSplit slice j) s fun u =>
          u.merges = s.merges.map (fun x => if x == m then { x with closed := true } else x) ∧ u.dram = s.dram ∧
          u.groups = s.groups ∧ u.sp = s.sp ∧
          u = deliverMerge { advanceUnc s (m.since + 4096) with merges := u.merges } m (bs, mark))))

/-- TABLE_WALK, REFRESH, STACK_HOT, deferred map-outs, router faults and stalled crossings. (10_memory_and_streams.md, 09_lattice_schedule.md, 17_start_reset_recovery.md, 03_tile.md) -/
def Obligations.MemoryUpkeep : Prop :=
  ∀ (s : State),
    (∀ t, s.walks.find? (fun w => w.t == t) = none → exec (.tableWalk t) s = .next s) ∧
    (∀ t w, s.walks.find? (fun w => w.t == t) = some w →
      let e := walk s w.ctx w.vpn
      let mine := s.tlb.filter (fun x => x.t == t)
      (getF e 0 1 = 0 → Gives (.tableWalk t) s fun u => u.tlb = s.tlb ∧ u.ptes = s.ptes) ∧
      (getF e 0 1 = 1 → Gives (.tableWalk t) s fun u =>
        u.ptes = s.ptes ∧
        (mine.length < 64 → u.tlb = s.tlb ++ [⟨t, w.ctx, w.vpn, e⟩]) ∧
        (∀ o, 64 ≤ mine.length → mine.head? = some o → u.tlb = s.tlb.erase o ++ [⟨t, w.ctx, w.vpn, e⟩]))) ∧
    (s.sup.inputOn = false → (∀ stack hot, exec (.refresh stack) s = .next s ∧ exec (.stackHot stack hot) s = .next s) ∧
      (∀ r, exec (.routerFault r) s = .next s) ∧ ∀ x a b, exec (.cdcStall x a b) s = .next s ∧ exec (.resync x) s = .next s) ∧
    (∀ stack, s.sup.inputOn = true → Gives (.refresh stack) s fun u =>
      u = { s with regs := u.regs } ∧ ∀ a, ¬(modG 0x4180 ≤ a ∧ a < modG 0x41C0) → reg u a = reg s a) ∧
    (∀ stack hot, s.sup.inputOn = true → Gives (.stackHot stack hot) s fun u =>
      u = { s with regs := u.regs } ∧ RegsBut s u [aStack (BitVec.toNat stack)] ∧
      fld u (aStack (BitVec.toNat stack)) 48 1 = (if hot then 1 else 0) ∧
      (∀ lo n, lo + n ≤ 48 ∨ 49 ≤ lo → fld u (aStack (BitVec.toNat stack)) lo n = fld s (aStack (BitVec.toNat stack)) lo n)) ∧
    (∀ n, ctxState s n = 3 → exec (.rowMapOutDeferred n) s = .next s) ∧
    (∀ n, ctxState s n ≠ 3 →
      let due (e : Nat × Bool) : Bool := e.2 && (match rowTask s (keyTile e.1) (e.1 % 1024) with
        | some k => taskCtx s (keyTile e.1) k == n
        | none => true)
      Gives (.rowMapOutDeferred n) s (fun u => u.gov.deferred = s.gov.deferred.filter (fun e => !due e) ∧ u.dram = s.dram) ∧
      (∀ k e, s.gov.deferred = [(k, true)] → due (k, true) = true → freeSpare s (keyTile k) (k / 1024 % 16) = some e →
        (∀ x, x < 16 → ¬(fld s (aRmap (keyTile k) (k / 1024 % 16) x) 0 1 = 1 ∧
          fld s (aRmap (keyTile k) (k / 1024 % 16) x) 4 10 = k % 1024)) →
        Gives (.rowMapOutDeferred n) s fun u =>
          u.gov.deferred = [] ∧ fld u (aRmap (keyTile k) (k / 1024 % 16) e) 0 1 = 1 ∧
          fld u (aRmap (keyTile k) (k / 1024 % 16) e) 4 10 = k % 1024 ∧
          mapRow u (keyTile k) (k / 1024 % 16) (k % 1024) = 1024 + e ∧
          ∀ t a, a < 2 ^ 21 → spByte u t a = spByte s t a)) ∧
    (∀ r, (isOos s r = true ∨ r ∈ s.flash.oos → exec (.routerFault r) s = .next s) ∧
      (s.sup.inputOn = true → isOos s r = false → r ∉ s.flash.oos → Gives (.routerFault r) s fun u =>
        u.flash.oos = s.flash.oos ++ [r] ∧ ringBusy u r = true ∧ isOos u r = false)) ∧
    (∀ x a b, s.sup.inputOn = true →
      let stalled (v : State) : Prop :=
        v.sup.cdcErr = s.sup.cdcErr ++ [x] ∧ fld v aCdc 0 16 = BitVec.toNat x ∧ fld v aCdc 16 5 = BitVec.toNat a ∧
        fld v aCdc 24 5 = BitVec.toNat b ∧ fld v aCdc 32 16 = min (fld s aCdc 32 16 + 1) 65535
      (x ∈ s.sup.cdcErr ∨ 23 ≤ a.toNat ∨ 23 ≤ b.toNat → exec (.cdcStall x a b) s = .next s) ∧
      (∀ p, x ∉ s.sup.cdcErr → a.toNat < 23 → b.toNat < 23 → regionPart b.toNat = some p → recent s (.part p) = true →
        ∃ v, exec (.cdcStall x a b) s = .next (escalate v (.part p) 7) ∧ stalled v ∧ RegsBut s v [aCdc]) ∧
      (∀ p, x ∉ s.sup.cdcErr → a.toNat < 23 → b.toNat < 23 → regionPart b.toNat = some p → recent s (.part p) = false →
        Gives (.cdcStall x a b) s fun u => stalled u ∧ partBusy u p = true) ∧
      (x ∉ s.sup.cdcErr → a.toNat < 23 → b.toNat < 23 → regionPart b.toNat = none →
        ∃ v, exec (.cdcStall x a b) s = .next (warmStart v 5) ∧ stalled v ∧ RegsBut s v [aCdc] ∧
          v = { s with regs := v.regs, sup := { s.sup with cdcErr := s.sup.cdcErr ++ [x] }, evs := v.evs })) ∧
    (∀ x, s.sup.inputOn = true → ((∃ p, partBusy s p = true) → exec (.resync x) s = .next s) ∧
      ((∀ p, partBusy s p = false) → exec (.resync x) s =
        .next { s with sup := { s.sup with cdcErr := s.sup.cdcErr.filter (fun c => c != x) } }))

/-- The owner page's commands on trust and resets, and DBG_MODE. (15_latch_trust.md, 17_start_reset_recovery.md, 18_counters_and_debug.md) -/
def Obligations.OwnerCommands : Prop :=
  ∀ (s v : State) (p : Page) (c : Cmd),
    let done (u : State) : Prop := ∀ x ∈ u.cmds, x.id ≠ c.id
    let n := c.ctx
    (Accepts s p 0x1B c v → Gives (.commit p) s fun u =>
      let x (i : Nat) : Nat := (svnsOf (bankSet v)).getD i 0
      done u ∧ u.dram = v.dram ∧ u.otp = { v.otp with
        svnAster := max v.otp.svnAster (x 0), svnYarrow := max v.otp.svnYarrow (x 1), svnTansy := max v.otp.svnTansy (x 2) } ∧
      reg u aSvn = BitVec.ofNat 64 (u.otp.svnAster + u.otp.svnYarrow * 2 ^ 8 + u.otp.svnTansy * 2 ^ 16)) ∧
    (Accepts s p 0x1C c v →
      (3 ≤ v.otp.owner.length → exec (.ownerSet p) s = .next (finish v c stMalformed)) ∧
      (∀ w e, v.otp.owner.length < 3 → readToken v c = (w, .error e) → exec (.ownerSet p) s = .next (finish w c e)) ∧
      (∀ w k, v.otp.owner.length < 3 → readToken v c = (w, .ok k) →
        (k.formatOk = false → exec (.ownerSet p) s = .next (finish w c stMalformed)) ∧
        (k.formatOk = true → v.otp.owner ≠ [] → tokenOk w k = false → exec (.ownerSet p) s = .next (finish w c stAuthFail)) ∧
        (k.formatOk = true → v.otp.owner = [] ∨ tokenOk w k = true → Gives (.ownerSet p) s fun u =>
          done u ∧ u.otp.owner = w.otp.owner ++ [k.hash] ∧
          u.otp.revoke = w.otp.revoke ||| (k.revoke &&& BitVec.ofNat 3 (2 ^ w.otp.owner.length - 1)) ∧
          u.latch = { w.latch with nonces := if v.otp.owner = [] then w.latch.nonces else w.latch.nonces.erase k.nonce }))) ∧
    (∀ (i : Instr), (i = .peerPolicy p ∧ Accepts s p 0x1D c v) ∨ (i = .dbgUnlock p ∧ Accepts s p 0x1E c v) →
      (∀ w e, readToken v c = (w, .error e) → exec i s = .next (finish w c e)) ∧
      (∀ w k, readToken v c = (w, .ok k) →
        (k.formatOk = false → exec i s = .next (finish w c stMalformed)) ∧
        (k.formatOk = true → k.digests.length ≤ 16 → tokenOk w k = false → exec i s = .next (finish w c stAuthFail)))) ∧
    (∀ w k, Accepts s p 0x1D c v → readToken v c = (w, .ok k) → k.formatOk = true →
      (16 < k.digests.length → exec (.peerPolicy p) s = .next (finish w c stMalformed)) ∧
      (k.digests.length ≤ 16 → tokenOk w k = true → Gives (.peerPolicy p) s fun u =>
        done u ∧ u.latch = { w.latch with peers := k.digests, nonces := w.latch.nonces.erase k.nonce })) ∧
    (∀ w k, Accepts s p 0x1E c v → readToken v c = (w, .ok k) → k.formatOk = true → tokenOk w k = true →
      (entropyOk w = false → Gives (.dbgUnlock p) s fun u =>
        done u ∧ u.sp = w.sp ∧ u.latch = w.latch) ∧
      (entropyOk w = true → Gives (.dbgUnlock p) s fun u =>
        done u ∧ (∀ m, ctxState u m = 0) ∧ u.latch.sessions = [] ∧ u.sp = [] ∧ u.spMark = [] ∧ u.acc = [] ∧ u.strms = [] ∧
        u.dbgScope = k.scope % 4 ∧ fld u aLatch 4 1 = 1 ∧ u.latch.nonces = w.latch.nonces.erase k.nonce)) ∧
    (Accepts s p 0x1F c v → exec (.modReset p) s = .next (warmStart (finish v c stOk) 0)) ∧
    (Accepts s p 0x20 c v → Gives (.partReset p) s fun u =>
      partBusy u (BitVec.ofNat 5 (fieldAt c.entry 8 1)) = true ∧ u.cmds = v.cmds ∧ u.dram = v.dram ∧
      (partBusy v (BitVec.ofNat 5 (fieldAt c.entry 8 1)) = true → u = v)) ∧
    (Accepts s p 0x21 c v → pageKind c.page ≠ 3 →
      let f := fieldAt c.entry 16 1
      let va := fieldAt c.entry 24 8
      let slots := fieldAt c.entry 32 4
      let good := decide (va % 64 = 0) && decide (1 ≤ slots) && decide (slots ≤ 65536) && vaOk v n va (32 * slots) true
      (f % 2 = 0 → Gives (.dbgMode p) s fun u => done u ∧ ctxDebug u n = false ∧ reg u (aHz n) = 0) ∧
      (f % 2 = 1 → good = false → exec (.dbgMode p) s = .next (finish v c stMalformed)) ∧
      (f % 2 = 1 → good = true → Gives (.dbgMode p) s fun u =>
        done u ∧ ctxDebug u n = true ∧ fld u (aHz n) 32 1 = 1 ∧ fld u (aHz n) 33 1 = f / 2 % 2 ∧
        u.hzRing.get (fun _ => 0) n.toNat = va ∧ u.hzSlots.get (fun _ => 0) n.toNat = slots))

/-- Register writes by a pair. (14_cersin_host_link.md, 00_scope.md, 02_units_and_contexts.md, 18_counters_and_debug.md) -/
def Obligations.HostWrites : Prop :=
  ∀ (s : State) (q : PairId),
    let owner := pairOwner s q
    let mine (a : Nat) : Bool := owner || alsoCtx s a == some (pairCtx s q)
    (∀ (i : Instr) (a : Nat) (v : Word64), hostRow i = some (q, a, v) →
      (hostServed s = false → exec i s = .next s) ∧
      (hostServed s = true → q = 63 → exec i s = .next (violation s q 7 a)) ∧
      (hostServed s = true → q ≠ 63 → pairOn s q = false ∨ resettingPair s q = true → Gives i s fun u =>
        u = { s with regs := u.regs, bw := u.bw, cq := u.cq, freeCtr := s.freeCtr + 1 } ∧
        (∃ e : CqEntry, u.cq = s.cq ++ [e] ∧ e.q = q ∧ e.status = stRefuse ∧ e.w0 = BitVec.ofNat 64 a) ∧
        (pairOn s q = false → fld u (csnA 0x10) 48 16 = min (fld s (csnA 0x10) 48 16 + 1) 65535)) ∧
      (serves s q = true →
        (a % 8 ≠ 0 → exec i s = .next (violation s q 1 a)) ∧
        (a % 8 = 0 → fencedAddr s a = true → exec i s = .next s) ∧
        (a % 8 = 0 → fencedAddr s a = false →
          (occupied a = false → exec i s = .next (if a < 2 ^ 30 ∧ quiet a = true then s else violation s q 2 a)) ∧
          (a = aOwnerStatus → exec i s = .next (violation s q (if owner then 3 else 4) a)) ∧
          (∀ b, blockAt a = some b →
            (∀ p off, pageAt a = some (p, off) → reaches s q p = false →
              exec i s = .next (violation (dieReg s a true) q (if p = .owner then 4 else 5) a)) ∧
            (∀ p off, pageAt a = some (p, off) → reaches s q p = true → allRo b = true →
              exec i s = .next (violation (dieReg s a true) q 3 a)) ∧
            (pageAt a = none → allRo b = true ∨ inTiles a = true → exec i s = .next (violation s q 3 a)) ∧
            (pageAt a = none → allRo b = false → inTiles a = false → mine a = false → exec i s = .next (violation s q 4 a)))))) ∧
    (serves s q = true →
      (∀ p, reaches s q p = true →
        let a := pageA p + 0x20
        let b := pageA p + 0x28
        let st := pageA p + 0x30
        let d := dieReg s a true
        (fencedAddr s a = false → ∀ v,
          let tail := getF v 0 16
          let n := qSize s p
          let ok := qEnabled s p && decide (tail < n) &&
            decide ((qTail s p + n - qHead s p) % n ≤ (tail + n - qHead s p) % n)
          (ok = false → exec (.doorbell q p v) s = .next (doorbellViolation d q p a)) ∧
          (ok = true → tail = qTail s p → exec (.doorbell q p v) s = .next d) ∧
          (ok = true → tail ≠ qTail s p → Gives (.doorbell q p v) s fun u =>
            u = { d with regs := u.regs, covers := s.covers ++ [⟨p, BitVec.ofNat 16 tail, q, pageCtx s p⟩] } ∧
            RegsBut s u [st] ∧ qTail u p = tail ∧ qHead u p = qHead s p)) ∧
        (fencedAddr s b = false → ∀ v,
          let busy := decide (qHead s p ≠ qTail s p) || fld s st 39 1 == 1
          (busy = true → exec (.ucbCqWrite q p v) s = .next d) ∧
          (busy = false → Gives (.ucbCqWrite q p v) s fun u =>
            u = { d with regs := u.regs, covers := u.covers } ∧ RegsBut s u [b, st] ∧ fld u b 0 4 = getF v 0 4 ∧
            fld u b 12 36 = getF v 12 36 ∧ fld u b 63 1 = getF v 63 1 ∧
            (getF v 63 1 = 1 → qHead u p = 0 ∧ qTail u p = 0 ∧ u.covers = s.covers.filter (fun c => c.page != p)) ∧
            (getF v 63 1 = 0 → u.covers = s.covers ∧ reg u st = reg s st))) ∧
        (fencedAddr s st = false →
          (Gives (.resume q p) s fun u => u = { d with regs := u.regs } ∧ RegsBut s u [st] ∧ qStopped u p = false ∧
            qHead u p = qHead s p ∧ qTail u p = qTail s p) ∧
          (Gives (.flush q p) s fun u => u = setFld (abortQueue d p) st 32 1 0 ∧ qStopped u p = false ∧
            (qHead s p = qTail s p → RegsBut s u [st] ∧ u = { d with regs := u.regs })) ∧
          (∀ x setNow, BitVec.toNat x = st → Gives (.errValidClear q x setNow) s fun u =>
            u = { d with regs := u.regs, freeCtr := u.freeCtr } ∧ RegsBut s u [st, pageA p + 0x38] ∧
            fld u st 48 1 = (if setNow then 1 else 0) ∧ fld u st 40 8 = (if setNow then fld s st 48 1 else 0) ∧
            (setNow = false ∨ fld s st 48 1 = 1 → RegsBut s u [st])))) ∧
      (∀ x v, owner = true → BitVec.toNat x = 0x1018 → Gives (.registerWrite q x v) s fun u =>
        u = { s with regs := u.regs } ∧ RegsBut s u [0x1018] ∧ pageCtx u .owner = BitVec.ofNat 4 (getF v 0 4)) ∧
      (∀ x setNow, BitVec.toNat x = aVlog1 → owner = true → Gives (.errValidClear q x setNow) s fun u =>
        u = { s with regs := u.regs, freeCtr := u.freeCtr } ∧ RegsBut s u [aVlog0, aVlog1] ∧
        fld u aVlog1 24 1 = (if setNow then 1 else 0) ∧ fld u aVlog1 16 8 = (if setNow then fld s aVlog1 24 1 else 0)) ∧
      (∀ r v, mine (aShtHold r.toNat) = true →
        let h := headOf s r
        let held (u : State) : Bool := (shutOf u h).reqs.any (fun x => x.cause == 5 && x.src == srcHold r)
        Gives (.hold q r v) s fun u => u = { s with regs := u.regs, shuts := u.shuts } ∧
          RegsBut s u [aShtHold r.toNat, aShtState h.toNat] ∧ fld u (aShtHold r.toNat) 0 1 = getF v 0 1 ∧
          (getF v 0 1 = 1 → isOos s r = false → held u = true) ∧ (getF v 0 1 = 0 → held u = false)) ∧
      (∀ port v, owner = true → Gives (.disable q port v) s fun u =>
        fld u (aPort port.toNat) 3 1 = getF v 3 1 ∧ u.dram = s.dram ∧
        (getF v 3 1 = 1 → portState u port.toNat = 4) ∧
        (getF v 3 1 = 0 → portState u port.toNat =
          (if portState s port.toNat = 4 ∧ (portOf s port.toNat).authLock = false then 0 else portState s port.toNat))) ∧
      (∀ pair, owner = true →
        (fld s (aPair pair) 0 2 ≠ 2 → exec (.reenable q pair) s = .next s) ∧
        (fld s (aPair pair) 0 2 = 2 → Gives (.reenable q pair) s fun u =>
          u = { s with regs := u.regs, violTimes := u.violTimes } ∧ RegsBut s u [aPair pair] ∧ pairOn u pair = true ∧
          u.violTimes.get (fun _ => []) pair.toNat = [])) ∧
      (∀ n v, mine (aLedger n) = true →
        let rd := getF v 32 32
        (ledgerUsed s n < (rd + 2 ^ 32 - fld s (aLedger n) 32 32) % 2 ^ 32 →
          exec (.ledgerRdWrite q n v) s = .next (violation s q 3 (aLedger n))) ∧
        ((rd + 2 ^ 32 - fld s (aLedger n) 32 32) % 2 ^ 32 ≤ ledgerUsed s n → Gives (.ledgerRdWrite q n v) s fun u =>
          fld u (aLedger n) 32 32 = rd ∧ (redOf s n = none → u = { s with regs := u.regs } ∧ RegsBut s u [aLedger n]))) ∧
      (∀ (k : BitVec 3) v, owner = true →
        let a := modG (0x4100 + 8 * k.toNat)
        let b := modG (0x4140 + 8 * k.toNat)
        (Gives (.perfSelWrite q k v) s fun u => fld u a 0 16 = getF v 0 16 ∧ fld u a 48 1 = getF v 48 1 ∧ u.dram = s.dram ∧
          (∀ t : TileId, reg u (tileA t.toNat (0x2F80 + 8 * k.toNat)) = 0) ∧
          (selListed true v = true → u = { s with regs := u.regs })) ∧
        (Gives (.perfMselWrite q k v) s fun u => fld u b 0 16 = getF v 0 16 ∧ fld u b 48 1 = getF v 48 1 ∧ u.dram = s.dram ∧
          reg u (modG (0x4180 + 8 * k.toNat)) = 0 ∧
          (selListed false v = true → u = { s with regs := u.regs } ∧ RegsBut s u [b, modG (0x4180 + 8 * k.toNat)]))) ∧
      (∀ v, owner = true →
        let w := getF v 0 32
        (w < 1000 ∨ 1000000000 < w → exec (.windowWrite q v) s = .next (violation s q 3 (modG 0x4200))) ∧
        (1000 ≤ w → w ≤ 1000000000 → Gives (.windowWrite q v) s fun u =>
          u = { s with regs := u.regs, bw := [], bwWait := true } ∧ RegsBut s u [modG 0x4200] ∧ fld u (modG 0x4200) 0 32 = w)) ∧
      (∀ (k : BitVec 4) x v, owner = true → BitVec.toNat x = modG (0x4000 + 8 * k.toNat) → Gives (.registerWrite q x v) s fun u =>
        u = { s with regs := u.regs } ∧ RegsBut s u [x.toNat] ∧ fld u x.toNat 0 2 = getF v 0 2 ∧
        fld u x.toNat 2 62 = fld s x.toNat 2 62))

/-- REG_WR, REG_RD, MEM_WR and MEM_RD. (14_cersin_host_link.md) -/
def Obligations.HostRequests : Prop :=
  ∀ (s : State) (q : PairId) (tag : BitVec 16) (addr : BitVec 64) (len : BitVec 32) (x : Word64) (data : List Byte),
    let a := addr.toNat
    let n := len.toNat
    let v (bytes : Nat) : State := bwAdd (perfMod s (some (pairCtx s q)) 15 0x10 (some q.toNat) 1) 32 0 bytes
    let rows : List (Instr × Nat × Bool) := [(.regWr q tag addr len x, 24, len == 8), (.regRd q tag addr len, 16, len == 8),
      (.memWr q tag addr len data, 16 + data.length, memLenOk a n && data.length == n), (.memRd q tag addr len, 16, memLenOk a n)]
    (hostServed s = false → ∀ r ∈ rows, exec r.1 s = .next s) ∧
    (hostServed s = true → ∀ r ∈ rows,
      (q = 63 → exec r.1 s = .next (violation (v r.2.1) q 7 a)) ∧
      (q ≠ 63 → pairOn s q = false → Gives r.1 s fun u => Answers s u q tag stRefuse a ∧
        fld u (csnA 0x10) 48 16 = min (fld s (csnA 0x10) 48 16 + 1) 65535) ∧
      (q ≠ 63 → pairOn s q = true → resettingPair s q = true → Gives r.1 s fun u => Answers s u q tag stRefuse a) ∧
      (serves s q = true → r.2.2 = false → exec r.1 s = .next (violation (v r.2.1) q 7 a))) ∧
    (serves s q = true →
      (len = 8 → exec (.regWr q tag addr len x) s = .next (writeReg (v 24) q a x false)) ∧
      (len = 8 → Gives (.regRd q tag addr len) s fun u =>
        u.replies = s.replies ++ [⟨q, tag, stOk, addr, bytesOf (readReg (v 16) q a).1.toNat 8⟩] ∧ u.dram = s.dram ∧
        (a % 8 = 0 → a < 2 ^ 30 → occupied a = true → fencedAddr s a = false → pageAt a = none →
          (readReg (v 16) q a).1 = regView (v 16) a ∧ u = { s with regs := u.regs, bw := u.bw, replies := u.replies })) ∧
      (memLenOk a n = true → data.length = n →
        (memOk s q a n true = false → Gives (.memWr q tag addr len data) s fun u => Answers s u q tag stHostXlate a) ∧
        (memOk s q a n true = true → pairOwner s q = true → exec (.memWr q tag addr len data) s =
          .next (writePhys (v (16 + data.length)) 0xF (ownerBase + a) data 0 false)) ∧
        (memOk s q a n true = true → pairOwner s q = false → exec (.memWr q tag addr len data) s =
          .next (writeVa (v (16 + data.length)) (pairCtx s q) a data 0))) ∧
      (memLenOk a n = true →
        (memOk s q a n false = false → Gives (.memRd q tag addr len) s fun u => Answers s u q tag stHostXlate a) ∧
        (∀ w bs m, memOk s q a n false = true →
          (if pairOwner s q then readPhys (v 16) 0xF (ownerBase + a) n 0 else readVa (v 16) (pairCtx s q) a n 0) = (w, bs, m) →
          (m ≠ 0 → exec (.memRd q tag addr len) s = .next (errEntry w q tag stHostMemerr a)) ∧
          (m = 0 → Gives (.memRd q tag addr len) s fun u =>
            u.replies = w.replies ++ [⟨q, tag, stOk, addr, bs⟩] ∧ u = { w with bw := u.bw, replies := u.replies }))))

/-- The management pair, and Latch's own events. (15_latch_trust.md, 14_cersin_host_link.md, 17_start_reset_recovery.md) -/
def Obligations.Management : Prop :=
  (∀ (s : State) (tag : BitVec 16), hostServed s = false → (∀ port nonce ctx node bank flags offset len data,
    exec (.health tag) s = .next s ∧ exec (.tbParent tag port) s = .next s ∧ exec (.attest tag nonce ctx) s = .next s ∧
    exec (.peerReset tag node) s = .next s ∧ exec (.nonce tag) s = .next s ∧ exec (.imgWrite tag bank offset len data) s = .next s ∧
    exec (.imgSelect tag bank flags) s = .next s) ∧ ∀ ct role ctx pairs pub sig,
    exec (.openSession tag ct role ctx pairs pub sig) s = .next s) ∧
  ∀ (s : State) (tag : BitVec 16), hostServed s = true →
    let reply (u : State) (ok : Bool) (d : List Byte) : Prop :=
      u.replies = s.replies ++ [⟨63, tag, if ok then stOk else stMalformed, 0, d⟩]
    (Gives (.health tag) s fun u => u = { s with regs := u.regs, bw := u.bw, replies := u.replies } ∧
      ∃ d, reply u true d ∧ d.length = 43 ∧ d.take 8 = bytesOf (ucbId s .owner).toNat 8 ∧
        (d.drop 8).take 8 = bytesOf (reg s aFingerprint).toNat 8) ∧
    (∀ port : Byte,
      let ok := decide (port.toNat ≤ 8) && modeOf s != 3
      Gives (.tbParent tag port) s fun u => reply u ok [] ∧ u.gov = (if ok then { s.gov with parentNext := some port } else s.gov)) ∧
    (∀ node, modeOf s = 3 → Gives (.peerReset tag node) s fun u => reply u false [] ∧ u.ports = s.ports) ∧
    (∀ node, modeOf s ≠ 3 → Gives (.peerReset tag node) s fun u => reply u true [] ∧ ∀ p, p < 8 →
      ((portOf s p).peerNode = node → (portOf u p).secret = [] ∧
        (portState s p = 3 → (portOf s p).secret ≠ [] → portState u p = 2) ∧
        (portState s p ≠ 3 → portState u p = portState s p) ∧
        (portState s p = 2 → entropyOk s = false → (portOf u p).retryAt = some (nowNs s + 1000000000))) ∧
      ((portOf s p).peerNode ≠ node → portOf u p = portOf s p ∧ portState u p = portState s p)) ∧
    (∀ nonce ctx,
      let able := (decide (BitVec.toNat ctx < 16) || ctx == 0xFF) && latchServes s && entropyOk s && signOk s && mayReport s ctx
      (able = false → Gives (.attest tag nonce ctx) s fun u => reply u false [] ∧ u.latch = s.latch) ∧
      let w := takeDue s
      (able = true → signOk w = false → Gives (.attest tag nonce ctx) s fun u => reply u false [] ∧ u.latch = w.latch) ∧
      (able = true → signOk w = true → treeReady w = false → Gives (.attest tag nonce ctx) s fun u =>
        u.replies = s.replies ∧ u.latch = { w.latch with attestWait := w.latch.attestWait ++ [(tag, nonce, ctx)] }) ∧
      (able = true → signOk w = true → treeReady w = true → Gives (.attest tag nonce ctx) s fun u =>
        ∃ rep k, reply u true rep ∧ k ∈ u.latch.decaps ∧ k.report = rep ∧ k.at' = nowNs s ∧ u.latch.decaps.length ≤ 4 ∧
          u.latch.nextLeaf = w.latch.nextLeaf + 1)) ∧
    (∀ ct role ctx pairs pub sig,
      let th (k : DecapKey) : List Byte := openTh k.report ct role ctx pairs pub
      let able := entropyOk s && ct.length == 1568 && pub.length == 56 && openOk s role ctx pairs pub
      let found := s.latch.decaps.find? (fun k => Config.lmsVerify pub (th k) sig)
      (found = none → Gives (.openSession tag ct role ctx pairs pub sig) s fun u =>
        reply u false [] ∧ u.latch = { s.latch with decaps := s.latch.decaps.drop 1 }) ∧
      (∀ k, found = some k → able = false → Gives (.openSession tag ct role ctx pairs pub sig) s fun u =>
        reply u false [] ∧ u.latch = { s.latch with decaps := s.latch.decaps.erase k }) ∧
      (∀ k, found = some k → able = true → Gives (.openSession tag ct role ctx pairs pub sig) s fun u =>
        reply u true (confirmOf (Config.kemDecaps k.seed ct) (th k)) ∧ u.latch.decaps = s.latch.decaps.erase k ∧
        (∃ x, u.latch.sessions = s.latch.sessions ++ [x] ∧ x.owner = (role == 0) ∧ x.pairs = pairsOf pairs ∧
          x.ctx = BitVec.ofNat 4 (BitVec.toNat ctx)) ∧
        (∀ q ∈ pairsOf pairs, pairOn u q = true ∧ pairOwner u q = (role == 0) ∧
          (role ≠ 0 → pairCtx u q = BitVec.ofNat 4 (BitVec.toNat ctx))) ∧
        (∀ q, q ∉ pairsOf pairs → reg u (aPair q) = reg s (aPair q)))) ∧
    (entropyOk s = false → Gives (.nonce tag) s fun u => reply u false [] ∧ u.latch = s.latch) ∧
    (entropyOk s = true → Gives (.nonce tag) s fun u => ∃ b, reply u true b ∧ b.length = 32 ∧
      u.latch = { s.latch with nonces := s.latch.nonces ++ [BitVec.ofNat 256 (natOf b)] }) ∧
    (∀ bank offset len data,
      let lo := BitVec.toNat bank * bankSize + BitVec.toNat offset
      let ok := decide (bank.toNat ≤ 1) && decide (offset.toNat % 4096 = 0) && decide (data.length = BitVec.toNat len) &&
        decide (offset.toNat + len.toNat ≤ bankSize) && (modeOf s == 3 || fld s aRstStatus 10 1 != bank.toNat)
      (ok = false → Gives (.imgWrite tag bank offset len data) s fun u => reply u false [] ∧ u.flash = s.flash) ∧
      (ok = true → Gives (.imgWrite tag bank offset len data) s fun u => reply u true [] ∧
        u.flash = { s.flash with bytes := u.flash.bytes } ∧ ∀ a, u.flash.bytes.get (fun _ => none) a =
          if lo ≤ a ∧ a < lo + data.length then some (data.getD (a - lo) 0) else s.flash.bytes.get (fun _ => none) a)) ∧
    (∀ bank flags,
      let ok := decide (BitVec.toNat bank ≤ 1) && decide (BitVec.toNat flags ≤ 1)
      (ok = false → Gives (.imgSelect tag bank flags) s fun u => reply u false [] ∧ u.flash = s.flash) ∧
      (ok = true → Gives (.imgSelect tag bank flags) s fun u => reply u true [] ∧ u.sup.running = s.sup.running ∧
        u = { s with regs := u.regs, bw := u.bw, replies := u.replies, flash := { s.flash with active := bank.toNat },
                     sup := { s.sup with startAfter := u.sup.startAfter } } ∧
        (flags = 1 → u.sup.startAfter.isSome = true) ∧ (flags = 0 → u.sup = s.sup))) ∧
    (s.latch.decaps = [] → exec .decapsKeyExpire s = .next s) ∧
    (∀ k ks, s.latch.decaps = k :: ks →
      exec .decapsKeyExpire s = .next (advanceTo { s with latch := { s.latch with decaps := ks } } (k.at' + 10000000000))) ∧
    (entropyOk s = false → exec .entropyTestFail s = .next s) ∧
    (entropyOk s = true → Gives .entropyTestFail s fun u => u = { s with regs := u.regs, latch := u.latch } ∧ RegsBut s u [aLatch] ∧
      entropyOk u = false ∧ u.latch.entropyRepeats = 0 ∧ fld u aLatch 16 16 = min (fld s aLatch 16 16 + 1) 65535) ∧
    (∀ ok,
      let due := !entropyOk s && decide (s.latch.entropyRepeats < 3) && !(s.sup.running && decide (fld s aRstStatus 3 4 ≤ 2))
      let v := advanceTo s (s.latch.entropyAt + 1000000000)
      (due = false → exec (.entropyRetest ok) s = .next s) ∧
      (due = true → Gives (.entropyRetest ok) s fun u => u = { v with regs := u.regs, latch := u.latch } ∧ RegsBut v u [aLatch] ∧
        entropyOk u = ok ∧ u.latch.entropyRepeats = (if ok then 0 else s.latch.entropyRepeats + 1))) ∧
    (let j := s.latch.nextLeaf / 2 ^ 20
    let due := decide (s.latch.treesBuilt = j ∨ (s.latch.treesBuilt = j + 1 ∧ 2 ^ 19 < s.latch.nextLeaf % 2 ^ 20))
    (due = false → exec .bottomTreeBuild s = .next s) ∧
    (due = true → Gives .bottomTreeBuild s fun u =>
      u.latch.treesBuilt = s.latch.treesBuilt + 1 ∧ u.latch.attestWait = [] ∧ u.latch.keyWait = [] ∧
      u.replies.length = s.replies.length + s.latch.attestWait.length))

/-- RED_CONFIG, RED_REPLAY, seals, notices, deadlines and decisions. (11_training_collectives.md) -/
def Obligations.ReductionJobs : Prop :=
  (∀ (s v : State) (p : Page) (c : Cmd),
    let n := c.ctx
    let va := fieldAt c.entry 8 8
    let done (u : State) : Prop := ∀ x ∈ u.cmds, x.id ≠ c.id
    (Accepts s p 0x14 c v → pageKind c.page ≠ 3 →
      let ends (w : State) (e : Byte) : Prop := exec (.redConfig p) s = .next (finish w c e)
      (∀ w e, readCtx v n va 64 64 = (w, .error e) → ends w e) ∧
      (∀ w hd, readCtx v n va 64 64 = (w, .ok hd) →
        let read := readCtx w n va (64 + 16 * min 16 (fieldAt hd 5 1)) 64
        (∀ w e, read = (w, .error e) → ends w e) ∧
        (∀ w d, read = (w, .ok d) →
          (jobOk d = false → ends w stMalformed) ∧
          (∀ w2 e, jobOk d = true → readBuckets w n d = (w2, .error e) → ends w2 e) ∧
          (∀ w2 bs N r, jobOk d = true → readBuckets w n d = (w2, .ok bs) → ranks w2 n = (N, r) →
            let good := bs.all (fun x => bucketOk w2 n d x.1 x.2.1 x.2.2 N r) &&
              regionOk w2 n (fieldAt d 16 8) (fieldAt d 12 4 * recSize N)
            (good = false → ends w2 stMalformed) ∧
            (good = true → Gives (.redConfig p) s fun u =>
              done u ∧ reg u (aRank n) = BitVec.ofNat 64 (r + N * 65536) ∧ reg u (aRedCount n) = 0 ∧ reg u (aLedger n) = 0 ∧
              redOf u n = some ⟨fieldAt d 12 4, fieldAt d 16 8, bs.map (fun x => x.2.1), 0, [], [], 0, false, none, false⟩))))) ∧
    (Accepts s p 0x15 c v → pageKind c.page ≠ 3 →
      let N := ranksOf v n
      (redOf v n = none → exec (.redReplay p) s = .next (finish v c stMalformed)) ∧
      (∀ j, redOf v n = some j →
        let k := j.buckets.length
        let read := readCtx v n va (64 + k * recSize N) 1
        (∀ w e, read = (w, .error e) → exec (.redReplay p) s = .next (finish w c e)) ∧
        (∀ w bs, read = (w, .ok bs) →
          let isLocal := fieldAt bs 16 1 % 2 == 1
          let rs := replayRecs bs (recSize N) k
          let good := replayOk j N (fieldAt bs 0 4) rs && !(isLocal && isCopy c)
          (good = false → exec (.redReplay p) s = .next (finish w c stMalformed)) ∧
          (good = true → Gives (.redReplay p) s fun u =>
            reg u (aStep n) = BitVec.ofNat 64 (fieldAt bs 0 4) ∧ reg u (aSeed n) = BitVec.ofNat 64 (fieldAt bs 8 8) ∧
            inReplay u n = true ∧ ∃ j', redOf u n = some j' ∧ j'.replay = rs ∧ j'.replayCmd = some c.id ∧
              j'.isLocal = isLocal))))) ∧
  (∀ (s : State) (n : CtxId) (chan bucket : Nat),
    let bkt (u : State) : Option Bucket := (redOf u n).bind (fun j => bucketOf j chan bucket)
    let noticed (l : List Notice) : Nat := l.foldl (fun a x => a + 2 ^ x.rank) 0
    let v := takeAheadAll s n
    ((∀ j, redOf s n = some j → ∀ b ∈ j.buckets, b.ahead = []) → v = s) ∧
    (bkt s = none → exec (.redDeadline n chan bucket) s = .next s) ∧
    (bkt v = none → exec (.bucketSeal n chan bucket) s = .next v) ∧
    (∀ j b, redOf v n = some j → bucketOf j chan bucket = some b →
      let size := b.elems * elemSize b.cfmt
      let due := decide (b.st = 1) && !b.late && decide (size ≤ b.count)
      let carry := b.carryBase != 0 && b.held.get (fun _ => 0) (myRank v n) != 0
      (due = false → exec (.bucketSeal n chan bucket) s = .next v) ∧
      (due = true → size < b.count → exec (.bucketSeal n chan bucket) s = .next (redFault v n 1)) ∧
      (∀ w, due = true → b.count = size → engineRead v n b.base size = (w, none) →
        exec (.bucketSeal n chan bucket) s = .next w) ∧
      (∀ w bs p w2 cs pc, due = true → b.count = size → engineRead v n b.base size = (w, some (bs, p)) →
        (if carry then engineRead w n b.carryBase (4 * b.elems) else (w, some ([], false))) = (w2, some (cs, pc)) →
        (inReplay v n && j.isLocal) = false →
        let c0 := contribOf b.cfmt b.elems bs
        let c := if carry then List.zipWith f32Add c0 (f32List b.elems cs) else c0
        let bad := (c.filter (badElem v n)).length
        let quar := nanPol v n == 0 && bad != 0
        Gives (.bucketSeal n chan bucket) s fun u =>
          (∃ b', bkt u = some b' ∧ b'.st = 2 ∧ b'.step = BitVec.ofNat 32 (fld v (aStep n) 0 32) ∧ b'.quar = quar ∧
            b'.carryIn = carry ∧ b'.raw = c ∧
            b'.contrib = (if nanPol v n = 2 then c.map (fun x => if badElem v n x then 0 else x) else c)) ∧
          fld u (aRedCount n) 0 16 = (if quar then min (fld v (aRedCount n) 0 16 + 1) 65535 else fld v (aRedCount n) 0 16) ∧
          (headIsHere v n = false → ∃ m, u.out = v.out ++ [m] ∧ m.op = 0x20 ∧ m.ctx = n))) ∧
    (∀ j b, redOf s n = some j → bucketOf j chan bucket = some b →
      let open2 (step : BitVec 32) : Bool := decide (b.st = 2) && !b.aborted && b.decision.isNone && b.step == step &&
        b.ended.all (fun e => decide (e.toNat < step.toNat))
      (b.headOpen = none ∨ b.notices = [] → exec (.redDeadline n chan bucket) s = .next s) ∧
      (headIsHere s n = false ∨ tolerant s n = false ∨ b.ordered = true ∨ inReplay s n = true →
        exec (.redDeadline n chan bucket) s = .next s) ∧
      (∀ step x xs, b.headOpen = some step → b.notices = x :: xs → headIsHere s n = true → tolerant s n = true → b.ordered = false →
        inReplay s n = false → open2 step = true → (noticed b.notices).testBit (myRank s n) = true →
        Gives (.redDeadline n chan bucket) s fun u => ∃ b' d, d.noticed = noticed b.notices ∧
          bkt u = some b' ∧ b'.decision = some d ∧ d.atDeadline = true ∧ b'.st = 2 ∧ b'.headOpen = none ∧
            b'.headLast = some step ∧ b'.notices = [] ∧
            d.decideTb = BitVec.ofNat 64 (nowNs (advanceTo s (x.at' + fld s (aPolicy n) 32 32)))) ∧
      (∀ m : NoticeMsg, m.chan = chan → m.bucket = bucket →
        let bad := match b.headOpen with
          | some o => o != m.step
          | none => match b.headLast with
            | some l => decide (m.step.toNat < l.toNat)
            | none => false
        let ns := b.notices.filter (fun y => y.rank != m.rank) ++ [(⟨m.rank, m.quar, nowNs s⟩ : Notice)]
        let known := ns.filter (fun y => awaited s n b y.rank)
        let all := (List.range (ranksOf s n)).all (fun r => !awaited s n b r || ns.any (fun y => y.rank == r))
        let stale := b.headLast == some m.step && b.headOpen != some m.step
        (headIsHere s n = false ∨ ranksOf s n ≤ m.rank ∨ stale = true → exec (.redNotice n m) s = .next s) ∧
        (headIsHere s n = true → m.rank < ranksOf s n → stale = false →
          (bad = true → exec (.redNotice n m) s = .next (if m.rank = myRank s n then redFault s n 3
            else sendRank s n m.rank 0x22 (abortBytes b.chan b.idx m.step m.rank 4))) ∧
          (bad = false → all = false → Gives (.redNotice n m) s fun u =>
            bkt u = some { b with headOpen := some m.step, notices := ns } ∧ u.out = s.out) ∧
          (bad = false → all = true → open2 m.step = true → (noticed known).testBit (myRank s n) = true →
            Gives (.redNotice n m) s fun u => ∃ b' d, d.noticed = noticed known ∧
              bkt u = some b' ∧ b'.decision = some d ∧ d.atDeadline = false ∧ b'.st = 2 ∧ b'.headLast = some m.step ∧
              b'.headOpen = none ∧ b'.notices = [] ∧ d.decideTb = BitVec.ofNat 64 (nowNs s)))) ∧
      (∀ m : DecideMsg, m.chan = chan → m.bucket = bucket →
        let d : Decision := ⟨m.atDeadline, m.decideTb, m.noticed, m.quarantined⟩
        let f := fates s n j b d (ranksOf s n)
        let taken : Bucket := { b with decision := some d, fate := f.1, held := f.2, step := m.step }
        let late := !m.noticed.testBit (myRank s n)
        let busy := busyWith b m.step
        let void := b.ended.any (fun e => decide (m.step.toNat ≤ e.toNat)) || (busy && b.step == m.step && !rebuilding b)
        let keeps (b' : Bucket) : Prop := Gives (.redDecide n m) s fun u =>
          u = { s with regs := u.regs, red := u.red, progress := u.progress } ∧ RegsBut s u [aRedStatus n] ∧ bkt u = some b'
        (m.ranks ≠ ranksOf s n ∨ void = true → exec (.redDecide n m) s = .next s) ∧
        (m.ranks = ranksOf s n → void = false →
          (busy = true → keeps { b with ahead := b.ahead ++ [(m.step, d)] }) ∧
          (busy = false →
            (b.st ≤ 1 → late = false → exec (.redDecide n m) s = .next s) ∧
            (b.st ≤ 1 → late = true → slotFree j = true →
              exec (.redDecide n m) s = .next (contribute s n { taken with late := true, st := 3 })) ∧
            (b.st ≤ 1 → late = true → slotFree j = false → keeps { taken with late := true }) ∧
            (b.st = 2 → late = false → keeps taken) ∧
            (b.st = 3 → late = false → exec (.redDecide n m) s = .next (contribute s n taken)) ∧
            (2 ≤ b.st → late = true → ∀ w, lateEnd s n { taken with late := true, sealTb := 0 } b.raw = (w, none) →
              exec (.redDecide n m) s = .next w) ∧
            (b.st = 3 → late = true → ∀ w b', lateEnd s n { taken with late := true, sealTb := 0 } b.raw = (w, some b') →
              exec (.redDecide n m) s = .next (contribute w n b')))))))

/-- Buckets that reduce, gather, fill late or abort. (11_training_collectives.md, 17_start_reset_recovery.md) -/
def Obligations.ReductionSteps : Prop :=
  ∀ (s : State) (n : CtxId),
    let N := ranksOf s n
    let r := myRank s n
    let bkt (u : State) (chan bucket : Nat) : Option Bucket := (redOf u n).bind (fun j => bucketOf j chan bucket)
    let v := takeAheadAll s n
    (redOf v n = none → exec (.bucketReduceStart n) s = .next v) ∧
    (∀ j, redOf v n = some j →
      let slot := decide ((j.buckets.filter (fun x => x.st == 3)).length < 8)
      (slot = false → exec (.bucketReduceStart n) s = .next v) ∧
      (∀ b, slot = true → j.buckets.find? lateWaits = some b →
        (b ∈ j.buckets ∧ b.st < 2 ∧ b.late = true ∧ b.decision ≠ none ∧ b.aborted = false) ∧
        exec (.bucketReduceStart n) s = .next (contribute v n { b with st := 3 })) ∧
      (j.buckets.find? lateWaits = none → nextSealed j = none → exec (.bucketReduceStart n) s = .next v) ∧
      (∀ b, nextSealed j = some b →
        let room := decide (ledgerUsed v n < j.slots)
        (b ∈ j.buckets ∧ b.st = 2 ∧ b.aborted = false ∧
          ∀ x ∈ j.buckets, x.st = 2 → x.aborted = false → b.order ≤ x.order) ∧
        (slot = true → j.buckets.find? lateWaits = none →
          (room = false → exec (.bucketReduceStart n) s = .next v) ∧
          (room = true → b.decision ≠ none → exec (.bucketReduceStart n) s = .next (contribute v n { b with st := 3 })) ∧
          (room = true → b.decision = none → Gives (.bucketReduceStart n) s fun u =>
            u = { v with regs := u.regs, red := u.red, progress := u.progress } ∧ RegsBut v u [aRedStatus n] ∧
            bkt u b.chan b.idx = some { b with st := 3 })))) ∧
    (∀ m, (partBucket s n m false = none → exec (.redPart n m) s = .next s ∧ exec (.redShard n m) s = .next s) ∧
      (partBucket s n m true = none → exec (.redOrdered n m) s = .next s)) ∧
    (∀ m b, partBucket s n m false = some b →
      let b1 := addPart b { m with lo := 0, span := 2 ^ log2up N }
      let v0 := if reducing b m then shardValue b N r else none
      let v1 := if reducing b m then shardValue b1 N r else none
      (Gives (.redPart n m) s fun u =>
        u = { s with regs := u.regs, red := u.red, progress := u.progress } ∧
        bkt u m.chan m.bucket = some (addPart b m)) ∧
      (∀ v, v0 = some v → exec (.redShard n m) s = .next (shardDone s n b v)) ∧
      (∀ v, v0 = none → v1 = some v → exec (.redShard n m) s = .next (shardDone s n b1 v)) ∧
      (v0 = none → v1 = none → Gives (.redShard n m) s fun u =>
        u = { s with regs := u.regs, red := u.red, progress := u.progress } ∧ bkt u m.chan m.bucket = some b1)) ∧
    (∀ m b, partBucket s n m true = some b →
      let data := if m.absent then none else some (m.data.take b.elems)
      let whole := decide (m.lo + m.span = N ∧ r + 1 ≠ N)
      let next := decide (m.lo + m.span = r ∧ r ≠ 0)
      let kept : Prop := Gives (.redOrdered n m) s fun u =>
        u = { s with regs := u.regs, red := u.red, progress := u.progress } ∧ bkt u m.chan m.bucket = some (addPart b m)
      (reducing b m = false → kept) ∧
      (reducing b m = true → b.parts = [] →
        (whole = true → exec (.redOrdered n m) s = .next (shardDone s n (addPart b m) (data.getD (List.replicate b.elems 0)))) ∧
        (whole = false → next = true → exec (.redOrdered n m) s =
          .next (orderedPass s n { b with parts := [], tainted := b.tainted || m.poison } (orderedNext b r data))) ∧
        (whole = false → next = false → kept))) ∧
    (∀ chan bucket, bkt s chan bucket = none → exec (.gatherFill n chan bucket) s = .next s ∧
      exec (.lateFillComplete n chan bucket) s = .next s ∧
      (∀ step rank cause, (chan == batchChan && bucket == batchBucket) = false →
        exec (.redAbort n chan bucket step rank cause) s = .next s) ∧
      (∀ m : GatherMsg, m.chan = chan → m.bucket = bucket → exec (.redGather n m) s = .next s)) ∧
    (∀ chan bucket b, bkt s chan bucket = some b →
      let g := elemSize b.gfmt
      let mine := shardLen b.elems N r * g
      let due := decide (b.st = 4) && !b.aborted && hasGather b && decide (mine ≤ b.gcount)
      (due = false → exec (.gatherFill n chan bucket) s = .next s) ∧
      (due = true → mine < b.gcount → exec (.gatherFill n chan bucket) s = .next (redFault s n 1)) ∧
      (∀ w, due = true → b.gcount = mine → sendGather s n b = (w, none) → exec (.gatherFill n chan bucket) s = .next w) ∧
      (∀ w b', due = true → b.gcount = mine → sendGather s n b = (w, some b') →
        (b'.st = 5 ∧ b'.step = b.step ∧ b'.gathered.get (fun _ => 0) r = mine) ∧
        (gatherOver b' N = true → exec (.gatherFill n chan bucket) s = .next (gatherEnd w n b')) ∧
        (gatherOver b' N = false → Gives (.gatherFill n chan bucket) s fun u =>
          bkt u chan bucket = some b' ∧ u.dram = w.dram ∧ u.out = w.out)) ∧
      (∀ m : GatherMsg, m.chan = chan → m.bucket = bucket →
        let lo := shardLo b.elems N m.rank * g
        let here := (if rebuilding b then b.step - 1 else b.step) == m.step && decide (2 ≤ b.st)
        let stale := b.endedAbort && b.ended == some m.step && !here
        let refused := !hasGather b || decide (N ≤ m.rank) || m.rank == r || decide (m.offset < lo) ||
          decide (lo + shardLen b.elems N m.rank * g < m.offset + m.data.length) || stale || (here && b.aborted)
        let now := here && (b.st == 5 || (decide (3 ≤ b.st) && b.decision.isSome))
        let got := b.gathered.get (fun _ => 0) m.rank + m.data.length
        (refused = true → exec (.redGather n m) s = .next s) ∧
        (refused = false → now = true → exec (.redGather n m) s =
          .next (gatherEnd (engineWrite s n (b.gatherBase + m.offset) m.data m.poison) n
            { b with gathered := b.gathered.set (fun _ => 0) m.rank got })) ∧
        (refused = false → now = false → Gives (.redGather n m) s fun u =>
          u = { s with regs := u.regs, red := u.red, progress := u.progress } ∧
          bkt u chan bucket = some { b with early := b.early ++ [m] })) ∧
      (let size := b.elems * elemSize b.cfmt
      let fate := b.fate.get (fun _ => 0) r % 8
      let late := b.late && !b.lateDone && !b.aborted && decide (size ≤ b.count)
      (late = false → exec (.lateFillComplete n chan bucket) s = .next s) ∧
      (late = true → size < b.count → exec (.lateFillComplete n chan bucket) s = .next (redFault s n 1)) ∧
      (∀ w, late = true → b.count = size → engineRead s n b.base size = (w, none) →
        exec (.lateFillComplete n chan bucket) s = .next w) ∧
      (∀ w bs p w2, late = true → b.count = size → engineRead s n b.base size = (w, some (bs, p)) →
        lateEnd w n { b with tainted := p } (contribOf b.cfmt b.elems bs) = (w2, none) →
        exec (.lateFillComplete n chan bucket) s = .next w2) ∧
      (∀ w bs p w2 b', late = true → b.count = size → engineRead s n b.base size = (w, some (bs, p)) →
        lateEnd w n { b with tainted := p } (contribOf b.cfmt b.elems bs) = (w2, some b') → stepOver b' N = false →
        b' = { b with tainted := p, lateDone := true } ∧ Gives (.lateFillComplete n chan bucket) s fun u =>
          bkt u chan bucket = some b' ∧ u.dram = w2.dram ∧
          fld u (aRedCount n) 16 16 = (if fate = 3 then min (fld s (aRedCount n) 16 16 + 1) 65535 else fld s (aRedCount n) 16 16) ∧
          fld u (aRedCount n) 32 16 = (if fate = 3 then fld s (aRedCount n) 32 16
            else min (fld s (aRedCount n) 32 16 + 1) 65535))) ∧
      (∀ step rank (cause : BitVec 8), (chan == batchChan && bucket == batchBucket) = false →
        let passed := if headIsHere s n && decide (rank ≠ r) then
          sendAll s n 0x22 (abortBytes chan bucket step rank cause.toNat) else s
        let own := decide (2 ≤ b.st) && ctxState s n == 5 && (cause == 1 || cause == 4)
        let told := decide (2 ≤ b.st) && cause == 4 && !headIsHere s n
        (abortNow b step = false → exec (.redAbort n chan bucket step rank cause) s = .next passed) ∧
        (abortNow b step = true → rank = r → own = false → told = false →
          exec (.redAbort n chan bucket step rank cause) s = .next s) ∧
        (abortNow b step = true → b.aborted = false → rank ≠ r ∨ own = true ∨ told = true →
          Gives (.redAbort n chan bucket step rank cause) s fun u =>
            fld u (aRedCount n) 48 16 = min (fld s (aRedCount n) 48 16 + 1) 65535 ∧
            (s.fills = [] → fld u (aRedStatus n) 0 4 =
              (if rank ≠ r then 4 else if own then fld s (aRedStatus n) 0 4 else 3))))) ∧
    (∀ step rank (cause : BitVec 8),
      let abort := exec (.redAbort n batchChan batchBucket step rank cause) s
      let passed := if headIsHere s n && decide (rank ≠ r) then
        sendAll s n 0x22 (abortBytes batchChan batchBucket step rank cause.toNat) else s
      let open' := (dspOf s n).any (fun j => j.routesOut && j.step == step)
      (rank = r ∨ open' = false → abort = .next passed) ∧
      (rank ≠ r → open' = true → Gives (.redAbort n batchChan batchBucket step rank cause) s fun u =>
        ∃ j, dspOf u n = some j ∧ j.routesOut = false ∧ j.admits = [] ∧ j.inbox = []))

/-- DSP_CONFIG, route lists, admission, statuses, rows and outputs. (11_training_collectives.md) -/
def Obligations.ExpertDispatch : Prop :=
  (∀ (s v : State) (p : Page) (c : Cmd), Accepts s p 0x16 c v → pageKind c.page ≠ 3 →
    let n := c.ctx
    let ends (w : State) (e : Byte) : Prop := exec (.dspConfig p) s = .next (finish w c e)
    (∀ w e, readCtx v n (fieldAt c.entry 8 8) 128 64 = (w, .error e) → ends w e) ∧
    (∀ w d, readCtx v n (fieldAt c.entry 8 8) 128 64 = (w, .ok d) →
      let k := fieldAt d 4 2
      let read := readCtx w n (fieldAt d 16 8) (4 * k) 1
      (k = 0 ∨ 4095 < k → ends w stMalformed) ∧
      (0 < k → k ≤ 4095 →
        (∀ x e, read = (x, .error e) → ends x e) ∧
        (∀ x bs N r, read = (x, .ok bs) → (if (redOf x n).isSome then (ranksOf x n, myRank x n) else ranks x n) = (N, r) →
          let os := (List.range k).filterMap (fun i => ownerOf (fieldAt bs (4 * i) 4))
          let good := decide (os.length = k) && dspOk x n d os N r
          (good = false → ends x stMalformed) ∧
          (good = true → Gives (.dspConfig p) s fun u =>
            (∀ z ∈ u.cmds, z.id ≠ c.id) ∧ reg u (aRank n) = BitVec.ofNat 64 (r + N * 65536) ∧
            dspOf u n = some ⟨d, os, 0, 0, false, [], [], false, [], [], 0, 0, false, [], 0⟩))))) ∧
  (∀ (s : State) (n : CtxId), dspOf s n = none →
    exec (.routeListFill n) s = .next s ∧ exec (.dspAdmission n) s = .next s ∧ exec (.dspOutFill n) s = .next s ∧
    (∀ step src es, exec (.dspRoutes n step src es) s = .next s) ∧ (∀ step es, exec (.dspAdmit n step es) s = .next s) ∧
    (∀ m, exec (.dspRows n m) s = .next s) ∧ (∀ step i data bad, exec (.dspRet n step i ⟨data, bad⟩) s = .next s)) ∧
  (∀ (s : State) (n : CtxId) (j : DspJob), dspOf s n = some j →
    let r := myRank s n
    (∀ step src es,
      let old := j.inbox.any (fun x => x.step == step && x.src == src)
      (old = true → exec (.dspRoutes n step src es) s = .next s) ∧
      (old = false → Gives (.dspRoutes n step src es) s fun u =>
        u = { s with dsp := u.dsp, progress := u.progress } ∧ (∀ m, m ≠ n → dspOf u m = dspOf s m) ∧
        dspOf u n = some { j with
          inbox := j.inbox ++ [⟨step, src, es.map (fun e => ⟨src, e.2, e.1⟩)⟩] })) ∧
    (let size := 8 * dspRoutes j
      let due := !j.routesOut && decide (size ≤ j.rcount)
      (due = false → exec (.routeListFill n) s = .next s) ∧
      (due = true → size < j.rcount → exec (.routeListFill n) s = .next (redFault s n 1)) ∧
      (∀ w, due = true → j.rcount = size → engineRead s n (dsp j 32 8) size = (w, none) →
        exec (.routeListFill n) s = .next w) ∧
      (∀ w bs tainted, due = true → j.rcount = size → j.phase = 0 → j.stats = [] → s.fills = [] →
        engineRead s n (dsp j 32 8) size = (w, some (bs, tainted)) →
        let mine := (List.range (dspRoutes j)).map (fun i => BitVec.ofNat 64 (fieldAt bs (8 * i) 8))
        let known (e : Word64) : Bool := (expertAt j (rtExpert e)).isSome
        Gives (.routeListFill n) s fun u =>
          (∃ ms, u.out = w.out ++ ms ∧ ms.length = ((ownerRanks j).filter (fun k => k != r)).length ∧
            ∀ m ∈ ms, m.op = 0x40 ∧ m.ctx = n) ∧
          (mine.any known = true → ∃ j', dspOf u n = some j' ∧ j'.routesOut = true ∧ j'.mine = mine ∧
            j'.step = BitVec.ofNat 32 (fld w (aStep n) 0 32) ∧ j'.phase = 0 ∧
            ∀ i e, mine[i]? = some e → statAt j' i = if known e then 4 else 3))) ∧
    (let ms := j.inbox.filter (fun m => m.step == j.step)
      let due := j.routesOut && !j.admitted && (ownerRanks j).contains r &&
        (List.range (ranksOf s n)).all (fun k => ms.any (fun m => m.src == k))
      (due = false → exec (.dspAdmission n) s = .next s) ∧
      (∀ a1 left other w a2 out2, due = true → roundOne j r (ms.map (fun m => m.routes)).flatten = (a1, left) →
        (if dspSpill j then leftElsewhere s j r (ms.map (fun m => m.routes)).flatten else ([], s)) = (other, w) →
        roundTwo j r a1 (left.filter (fun x => dspSpill j && (expertAt j (rtAlt x.entry)).isSome && ownedBy j r (rtAlt x.entry)) ++
          other) = (a2, out2) →
        (∀ a ∈ a1 ++ a2, a.position < dspCap j) ∧
        (∀ e, ((a1 ++ a2).filter (fun a => a.expert == e)).length ≤ dspCap j) ∧
        (∀ a ∈ a1, a.spilled = false) ∧ (∀ a ∈ a2, a.spilled = true) ∧
        Gives (.dspAdmission n) s fun u =>
          fld u (aDspCount n) 0 21 = min (fld s (aDspCount n) 0 21 + (a1 ++ a2).length) (2 ^ 21 - 1) ∧
          fld u (aDspCount n) 21 21 = min (fld s (aDspCount n) 21 21 + a2.length) (2 ^ 21 - 1))) ∧
    (∀ step es,
      let open' := j.routesOut && j.step == step
      let told (e : AdmitEntry) : Bool := decide (j.mine.length ≤ e.index) || statAt j e.index != 4
      (open' = false → exec (.dspAdmit n step es) s = .next s) ∧
      (open' = true → es.all told = true → exec (.dspAdmit n step es) s = .next (batchProgress s n)) ∧
      (∀ e, open' = true → es = [e] → told e = false →
        let x := putStat s n e.index e.stat.toNat
        (2 ≤ e.stat.toNat → exec (.dspAdmit n step es) s = .next (batchProgress x n)) ∧
        (e.stat.toNat ≤ 1 → exec (.dspAdmit n step es) s = .next (batchProgress (sendRow x n e.index e.stat.toNat) n)) ∧
        (e.stat = 2 → s.fills = [] → Gives (.dspAdmit n step es) s fun u =>
          fld u (aDspCount n) 42 21 = min (fld s (aDspCount n) 42 21 + 1) (2 ^ 21 - 1) ∧ u.out = s.out))) ∧
    (∀ m : RowMsg,
      let mine (a : AdmitRec) : Bool := a.src == m.src && a.index == m.index
      (j.admits.find? mine = none → exec (.dspRows n m) s = .next s) ∧
      (∀ a, j.admits.find? mine = some a → j.step ≠ m.step ∨ a.rowIn = true ∨ m.data.length ≠ dspRow j →
        exec (.dspRows n m) s = .next s) ∧
      (∀ a, j.admits.find? mine = some a → j.step = m.step → a.rowIn = false → m.data.length = dspRow j → j.phase = 0 →
        let as := j.admits.map (fun x => if x == a then { x with rowIn := true } else x)
        let w := engineWrite s n (dsp j 48 8 + (a.slot * dspCap j + a.position) * dspRow j) m.data m.poison
        as.any (fun x => !x.rowIn) = true → Gives (.dspRows n m) s fun u =>
          u.dram = w.dram ∧ u.out = w.out ∧ dspOf u n = some { j with admits := as })) ∧
    (let size := j.admits.length * dspRow j
      let due := j.admitted && !j.outSent && size != 0 && decide (size ≤ j.ocount)
      (due = false → exec (.dspOutFill n) s = .next s) ∧
      (due = true → size < j.ocount → exec (.dspOutFill n) s = .next (redFault s n 1)) ∧
      (∀ a w row tainted, due = true → j.ocount = size → j.admits = [a] → a.src ≠ r → s.fills = [] →
        engineRead (setDsp s n (some { j with outSent := true })) n
          (dsp j 56 8 + (a.slot * dspCap j + a.position) * dspRow j) (dspRow j) = (w, some (row, tainted)) →
        Gives (.dspOutFill n) s fun u => ∃ m, u.out = w.out ++ [m] ∧ m.op = 0x43 ∧ m.ctx = n ∧
          m.poison = tainted ∧ m.payload = bytesOf j.step.toNat 4 ++ bytesOf a.index 4 ++ row)) ∧
    (∀ step i data tainted,
      let bad := j.step != step || decide (j.mine.length ≤ i) || decide (2 ≤ statAt j i) || data.length != dspRow j
      (bad = true → exec (.dspRet n step i ⟨data, tainted⟩) s = .next s) ∧
      (let w := setDsp (perfMod (engineWrite s n (dsp j 72 8 + i * dspRow j) data tainted) (some n) 13 0x12 none 1) n
          (some { j with returned := j.returned.set (fun _ => false) i true })
      (bad = false → j.phase ≠ 1 → exec (.dspRet n step i ⟨data, tainted⟩) s = .next (batchProgress w n)) ∧
      (bad = false → j.phase = 1 → (∀ k, k < j.mine.length → k ≠ i → 2 ≤ statAt j k ∨ j.returned.get (fun _ => false) k = true) →
        j.outSent = true ∨ j.admits = [] → Gives (.dspRet n step i ⟨data, tainted⟩) s fun u =>
          u.dram = (writeDone w n (dsp j 88 8) j.step 2).dram ∧
          ∃ j', dspOf u n = some j' ∧ j'.routesOut = false ∧ j'.admits = [] ∧ j'.phase = 0))))

/-- Casement jobs: configuration, start, stop, seek, dispatch, decoded samples, records and runs. (12_casement_media_ingest.md) -/
def Obligations.Casement : Prop :=
  (∀ (s v : State) (p : Page) (c : Cmd), pageKind c.page ≠ 3 →
    let n := c.ctx
    let done (u : State) : Prop := ∀ x ∈ u.cmds, x.id ≠ c.id
    (Accepts s p 0x17 c v →
      let ends (w : State) (e : Byte) : Prop := exec (.casConfig p) s = .next (finish w c e)
      (∀ w e, readCtx v n (fieldAt c.entry 8 8) 128 64 = (w, .error e) → ends w e) ∧
      (∀ w d, readCtx v n (fieldAt c.entry 8 8) 128 64 = (w, .ok d) →
        (casDescOk w n d = false → ends w stMalformed) ∧
        (∀ x e, casDescOk w n d = true → readTables w n d = (x, .error e) → ends x e) ∧
        (∀ x ts, casDescOk w n d = true → readTables w n d = (x, .ok ts) → Gives (.casConfig p) s fun u =>
          done u ∧ casOf u n = some ⟨d, ts, reg x (aSeed n), [], [], [], []⟩ ∧ casState u n = 1 ∧
          reg u (aCasShuf n) = 0 ∧ reg u (aCasSeq n) = 0 ∧ reg u (aCasCount n) = 0 ∧ reg u (aCasLog n) = 0))) ∧
    (Accepts s p 0x18 c v → Gives (.casStart p) s fun u =>
      done u ∧ casState u n = 2 ∧ (∀ j, casOf v n = some j → casOf u n = some { j with seed := reg v (aSeed n) }) ∧
      (∀ m, m ≠ n → casState u m = casState v m ∧ casOf u m = casOf v m)) ∧
    (Accepts s p 0x19 c v →
      (casOf v n = none ∨ casState v n ≤ 1 → exec (.casStop p) s = .next (finish v c stOk)) ∧
      (∀ j, casOf v n = some j → 2 ≤ casState v n → Gives (.casStop p) s fun u =>
        casState u n = 3 ∧ casOf u n = some { j with stopCmds := j.stopCmds ++ [c.id] } ∧ u.cmds = v.cmds)) ∧
    (Accepts s p 0x1A c v →
      (casOf v n = none → exec (.casSeek p) s = .next (finish v c stMalformed)) ∧
      (∀ j, casOf v n = some j → fieldAt c.entry 20 4 ≤ cd j 32 4 ∧ Gives (.casSeek p) s fun u =>
        done u ∧ reg u (aCasShuf n) = BitVec.ofNat 64 (fieldAt c.entry 20 4 + fieldAt c.entry 16 4 * 2 ^ 32) ∧
        reg u (aCasSeq n) = BitVec.ofNat 64 (fieldAt c.entry 24 8) ∧
        casOf u n = some { j with seed := reg v (aSeed n) } ∧ casState u n = casState v n))) ∧
  (∀ (s v : State) (p : Page) (c : Cmd) (j : CasJob), Takes s p 0x1A c v → casOf v c.ctx = some j →
    cd j 32 4 < fieldAt c.entry 20 4 → exec (.casSeek p) s = .next (finish v c stMalformed)) ∧
  (∀ (s : State) (n : CtxId), casOf s n = none →
    exec (.casStopComplete n) s = .next s ∧ exec (.consumedRecheck n) s = .next s ∧ ∀ cmd, exec (.scratchRun n cmd) s = .next s) ∧
  (∀ (s : State) (n : CtxId) (j : CasJob), casOf s n = some j →
    (casState s n ≠ 3 ∨ j.samples ≠ [] → exec (.casStopComplete n) s = .next s) ∧
    (casState s n = 3 → j.samples = [] → Gives (.casStopComplete n) s fun u =>
      casState u n = 1 ∧ casOf u n = some { j with runs := [], stopCmds := [] } ∧ ∀ x ∈ u.cmds, x.id ∉ j.stopCmds) ∧
    (j.samples = [] ∨ (cdScratch j.desc = true ∧ j.runs = []) → exec (.consumedRecheck n) s = .next (scratchLate s n)) ∧
    (∀ x, (isNormal s = true → recorded s n j x = x) ∧
      (isNormal s = false → cdScratch j.desc = false → vaOk s n (slotVa j x.q) 64 true = false → (recorded s n j x).code = 0x0D) ∧
      (isNormal s = false → x.code ≠ 0 → vaOk s n (logVa s n j) 16 true = false → (recorded s n j x).code = 0x0D)) ∧
    (∀ x w, j.samples = [x] → cdScratch j.desc = false → x.done = true → x.rowsOut = true → x.code = 0 → recorded s n j x = x →
      s.fills = [] →
      casWrite s n (slotVa j x.q) (recordOf j x) (some (BitVec.ofNat 32 (cd j 20 4))) = some w →
      Gives (.consumedRecheck n) s fun u => casOf u n = some { j with samples := [] } ∧ u.dram = w.dram ∧
        fld u (aCasCount n) 0 32 = min (fld s (aCasCount n) 0 32 + 1) (2 ^ 32 - 1) ∧
        fld u (aCasCount n) 32 32 = fld s (aCasCount n) 32 32) ∧
    (∀ cmd,
      let own (c : Chain) : Bool := c.ctx == n && fieldAt c.desc 4 4 == cd j 48 4 && (match c.cmd with
        | some id => rootCmd s 4 id == cmd
        | none => false)
      let some' := s.chains.any (fun e => e.2.any own)
      (some' = false ∨ cdScratch j.desc = false ∨ casState s n < 2 ∨ cmd ∈ j.ran → exec (.scratchRun n cmd) s = .next s) ∧
      (some' = true → cdScratch j.desc = true → 2 ≤ casState s n → cmd ∉ j.ran → j.samples = [] →
        Gives (.scratchRun n cmd) s fun u => u.dram = s.dram ∧ u.beats = s.beats ∧ u.out = s.out ∧
          ∃ e ∈ s.chains, ∃ c, e.2 = some c ∧ own c = true ∧ casOf u n = some { j with
            ran := j.ran.filter (fun id => s.cmds.any (fun x => x.id == id)) ++ [cmd],
            runs := j.runs ++ [⟨cmd, c.origin, cd j 52 2, 0⟩] }))) ∧
  (∀ (s : State) (e : BitVec 6),
    let turn (k : Nat) : CtxId := BitVec.ofNat 4 (s.casLast + 1 + k)
    (48 ≤ e.toNat → exec (.casDispatch e) s = .next s ∧ exec (.sampleDecodeComplete e) s = .next s) ∧
    (engineBusy s e.toNat = true → exec (.casDispatch e) s = .next s) ∧
    ((∀ n, casOf s n = none ∨ casState s n ≠ 2) → exec (.casDispatch e) s = .next s) ∧
    (∀ k w, e.toNat < 48 → engineBusy s e.toNat = false → k < 16 → (∀ i, i < k → casOf s (turn i) = none ∨ casState s (turn i) ≠ 2) →
      casMayTake s (turn k) = (w, true) → exec (.casDispatch e) s = .next (casTake w (turn k) e.toNat) ∧
      ∀ j w' bs, casOf w (turn k) = some j → w.fills = [] →
        let n := turn k
        let pos := fld w (aCasShuf n) 0 32
        let ep := fld w (aCasShuf n) 32 32
        let q := reg w (aCasSeq n)
        let last := decide (pos + 1 = cd j 32 4 + 1)
        let idx := permOf (shuffleKeys j.seed (BitVec.ofNat 32 ep)) (cd j 32 4 + 1) pos
        let w1 := setReg (setReg (bump w (engineCode .shuffle)) (aCasShuf n)
          (BitVec.ofNat 64 (if last then (ep + 1) % 2 ^ 32 * 2 ^ 32 else pos + 1 + ep * 2 ^ 32))) (aCasSeq n) (q + 1)
        let x : CasSample := ⟨some e.toNat, e.toNat / 3, BitVec.ofNat 32 pos, BitVec.ofNat 32 ep, q, idx, List.replicate 32 0,
          false, 0, 0xFFFF, 0, [], false⟩
        let j1 := { j with samples := j.samples ++ [x] }
        casRead (setCas { w1 with casLast := n.toNat } n j1) n (cd j 24 8 + 32 * idx) 32 = (w', .ok bs) →
        Gives (.casDispatch e) s fun u => u.casLast = n.toNat ∧ reg u (aCasSeq n) = q + 1 ∧
          reg u (aCasShuf n) = BitVec.ofNat 64 (if last then (ep + 1) % 2 ^ 32 * 2 ^ 32 else pos + 1 + ep * 2 ^ 32) ∧
          casOf u n = some (putSample j1 { x with entry := bs })) ∧
    (let busy (n : CtxId) : Bool := (casOf s n).any (fun j => j.samples.any (fun x => x.eng == some e.toNat))
     (allCtx.find? busy = none → exec (.sampleDecodeComplete e) s = .next s) ∧
      (∀ n j x, e.toNat < 48 → allCtx.find? busy = some n → casOf s n = some j →
        j.samples.find? (fun x => x.eng == some e.toNat) = some x →
        let put (w : State) (y : CasSample) (luma : Nat) : Prop := exec (.sampleDecodeComplete e) s =
          .next (casFlush (setCas (decodeFree w n e y.code luma) n (putSample j { y with eng := none, done := true })) n)
        (entryGood x.entry = false → put s { x with code := 0x07 } 0) ∧
        (∀ w m, entryGood x.entry = true → casRead s n (fieldAt x.entry 0 8) (fieldAt x.entry 8 4) = (w, .error m) →
          (isNormal w = true → exec (.sampleDecodeComplete e) s = .next (casFault w n m)) ∧
          (isNormal w = false → put w { x with code := 0x0D } 0)) ∧
        (∀ w bs code fr pts rows, entryGood x.entry = true →
          casRead s n (fieldAt x.entry 0 8) (fieldAt x.entry 8 4) = (w, .ok bs) → decodeOf j x.entry bs = (code, fr, pts, rows) →
          put w { x with code := code, errFrame := fr, pts := pts, rows := rows } (lumaOf x.entry bs)))))

/-- FLIT_RECEIVE, credits, Timebase exchanges, gang messages and training. (13_nguchat_fabric.md, 14_cersin_host_link.md, 16_clocks_time_power.md) -/
def Obligations.FabricPorts : Prop :=
  (∀ (s : State) (port : BitVec 4) (slot : WireFlit),
    let p := port.toNat
    let t := tookSlot s p slot
    let f := openFlit s p slot
    let x := portOf s p
    let on := decide (p ≤ 8) && (portState s p == 2 || portState s p == 3)
    let keyFlit := f.hdr.type == 0 ||
      (f.hdr.type == 2 && (if p == 8 then f.hdr.op.toNat == 5 else decide (3 ≤ f.hdr.op.toNat ∧ f.hdr.op.toNat ≤ 6)))
    let good := f.fecOk && f.crcOk && (portState s p == 2 || f.tagOk)
    (on = false → exec (.flitReceive port slot) s = .next s) ∧
    (on = true → f.fecOk = false ∨ f.crcOk = false → Gives (.flitReceive port slot) s fun u =>
      let asks := !x.recovery || askDue (portOf t p)
      fld u (aPortErr p) 0 24 = min (fld s (aPortErr p) 0 24 + 1) (2 ^ 24 - 1) ∧ (portOf u p).recovery = true ∧
      (portOf u p).expect = x.expect ∧ u.out = s.out ∧ (asks = false → u.tx = s.tx) ∧
      (asks = true → ∃ y, u.tx = s.tx ++ [y] ∧ y.port = p ∧ y.flit.hdr.type = 0 ∧ y.flit.hdr.nakr = 1)) ∧
    (on = true → f.fecOk = true → f.crcOk = true → portState s p = 3 → f.tagOk = false →
      (timesWithin s 1000000 x.authTimes).length ≤ 16 → Gives (.flitReceive port slot) s fun u =>
        fld u (aPortErr p) 40 16 = min (fld s (aPortErr p) 40 16 + 1) (2 ^ 16 - 1) ∧ (portOf u p).recovery = true ∧
        (portOf u p).authTimes = timesWithin s 1000000 x.authTimes ∧ portState u p = 3 ∧ u.out = s.out) ∧
    (on = true → good = true → portState s p = 2 → keyFlit = false → exec (.flitReceive port slot) s = .next t) ∧
    (on = true → good = true → (portState s p = 2 → keyFlit = true) →
      (formatOk t p f = false → Gives (.flitReceive port slot) s fun u =>
        fld u (aPortViol p) 16 16 = min (fld s (aPortViol p) 16 16 + 1) (2 ^ 16 - 1) ∧ u.out = s.out ∧
        (portOf u p).expect = (if f.hdr.type ≠ 0 ∧ f.hdr.seq = x.expect then f.hdr.seq + 1 else x.expect) ∧
        ∃ y, u.tx = s.tx ++ [y] ∧ y.port = p ∧ y.flit.hdr.type = 0 ∧ y.flit.hdr.nakr = 2) ∧
      (formatOk t p f = true →
        let w := actOn t p f.hdr
        let y := portOf w p
        let full := f.hdr.type == 1 && (if p < 8 then decide (192 ≤ (y.waiting.filter (fun g => g.hdr.vc == f.hdr.vc)).length)
          else decide (128 ≤ unreturned y f.hdr.gang.toNat))
        let z := sendIdle (inOrder w p f.hdr.seq) p 0 0 0
        (f.hdr.type = 0 ∨ (portState w p ≠ 2 ∧ portState w p ≠ 3) → exec (.flitReceive port slot) s = .next w) ∧
        (f.hdr.type ≠ 0 → portState w p = 2 ∨ portState w p = 3 →
          (f.hdr.seq ≠ y.expect → y.recovery = true → exec (.flitReceive port slot) s = .next (askAgain w p)) ∧
          (f.hdr.seq ≠ y.expect → y.recovery = false →
            exec (.flitReceive port slot) s = .next (askReplay (countSeq w p) p)) ∧
          (f.hdr.seq = y.expect → full = true →
            exec (.flitReceive port slot) s = .next (askReplay (countSeq (satAdd w (aPortViol p) 32 16 1) p) p)) ∧
          (f.hdr.seq = y.expect → full = false →
            ((portOf z p).expect = f.hdr.seq + 1 ∧ (portOf z p).lastSeq = f.hdr.seq ∧ (portOf z p).recovery = false) ∧
            exec (.flitReceive port slot) s =
              .next (if f.hdr.type = 2 then takeLink z p f (stampOf s p slot) else if p = 8 then takeHost z f else takeData z p f)))))) ∧
  (∀ (s : State) (port : BitVec 4) (counts : List Nat),
    let p := port.toNat
    (8 < p ∨ portState s p ≠ 3 → exec (.credit port counts) s = .next s) ∧
    (p < 8 → portState s p = 3 → s.sup.inputOn = true → (∀ q, q < 10 → (portOf s q).waiting = [] ∧ (portOf s q).linkWait = []) →
      Gives (.credit port counts) s fun u => u.tx = s.tx ∧
        (∀ v, v < 8 → (portOf u p).credits.get crDef v = min 192 (counts.getD v 0)) ∧
        fld u (aPortViol p) 32 16 = (if (counts.take 8).any (fun c => decide (192 < c))
          then min (fld s (aPortViol p) 32 16 + 1) (2 ^ 16 - 1) else fld s (aPortViol p) 32 16)) ∧
    (let sum (q : Nat) : Nat := s.cqCredit.get crDef q + counts.getD q 0
      let on := decide (p = 8) && decide (portState s 8 = 3) && s.sup.inputOn && s.hostOut.isEmpty && s.replies.isEmpty
      (on = true → s.cq = [] → Gives (.credit port counts) s fun u =>
        u = { s with cqCredit := u.cqCredit, regs := u.regs } ∧ RegsBut s u [aPortViol 8] ∧
        fld u (aPortViol 8) 32 16 = min (fld s (aPortViol 8) 32 16 + ((List.range 64).filter (fun q => decide (128 < sum q))).length) 65535 ∧
        ∀ q, q < 64 → u.cqCredit.get crDef q = min 128 (sum q)) ∧
      (∀ e, on = true → s.cq = [e] → 0 < counts.getD e.q.toNat 0 → (portOf s 8).replay.length < 2048 →
        (∀ x ∈ s.latch.sessions, e.q ∈ x.pairs → x.waits = 0) → Gives (.credit port counts) s fun u =>
          u.cq = [] ∧ u.cqOut = s.cqOut ++ [e] ∧ u.cqCredit.get crDef e.q.toNat = min 128 (sum e.q.toNat) - 1 ∧
          ∃ y, u.tx = s.tx ++ [y] ∧ y.port = 8 ∧ y.flit.hdr.type = 1 ∧ y.flit.hdr.vc = 1 ∧ y.flit.payload = cqBytes e))) ∧
  (∀ (s : State) (port : BitVec 3) (m : TimeMsg),
    let p := port.toNat
    let room (w : State) (q : Nat) : Prop := (portOf w q).linkWait = [] ∧ (portOf w q).replay.length < 2048
    let sent (w u : State) (q : Nat) (bs : Nat → List Byte → Prop) : Prop := ∃ y k, u.tx = w.tx ++ [y] ∧ y.port = q ∧
      y.flit.hdr.type = 2 ∧ y.flit.hdr.op = 2 ∧ k % superSlots = 0 ∧ y.slot = BitVec.ofNat 64 k ∧ bs (boundaryAt w q k) y.flit.payload
    let mine := decide (fld s aNgTb 0 4 = p) && s.gov.exchange == some m.number
    (portState s p ≠ 3 ∨ (m.reply = true ∧ mine = false) → exec (.time port m) s = .next s) ∧
    (portState s p = 3 → s.sup.inputOn = true → m.reply = false → room s p → Gives (.time port m) s fun u =>
      sent s u p (fun t3 bs => bs = timeBytes s 1 m.number.toNat m.stamp.toNat t3)) ∧
    (m.reply = false → ¬ room s p → exec (.time port m) s = .next s) ∧
    (portState s p = 3 → s.sup.inputOn = true → m.reply = true → mine = true → Gives (.time port m) s fun u =>
      let off := (((m.t2.toNat : Int) - s.gov.exchangeAt) - ((m.stamp.toNat : Int) - m.t3.toNat)) / 2
      let near := decide (-32 ≤ off ∧ off ≤ 32)
      let step := decide (s.gov.stepped = false ∧ 0 < off)
      let ahead := ((-off) / 64).toNat
      let goods := if near then s.gov.goodOffsets + 1 else 0
      u.gov.exchange = none ∧ u.gov.stepped = true ∧ u.gov.parentUntrusted = m.untrusted ∧ u.gov.goodOffsets = goods ∧
      fld u aNgTb 8 8 = (if m.root then 1 else min 255 (m.hops.toNat + 1)) ∧
      fld u aNgTb 16 16 = (max (-32768) (min 32767 off) % 65536).toNat ∧
      fld u aNgTb 4 1 = (if off < -128 ∨ 128 < off ∨ m.untrusted = true then 0 else if 3 ≤ goods ∧ m.locked = true then 1
        else fld s aNgTb 4 1) ∧
      (step = true → reg u aTbNow = BitVec.ofNat 64 (nowNs s + (off / 64).toNat)) ∧
      (step = false → reg u aTbNow = reg s aTbNow ∧
        (1000 < ahead → u.gov.half = ahead - 1000 ∧ u.gov.slew = -1000) ∧
        (ahead ≤ 1000 → u.gov.half = 0 ∧ u.gov.slew = off.tdiv 64))) ∧
    (let w := advanceTo s ((nowNs s / 125000 + 1) * 125000)
      let q := fld w aNgTb 0 4
      let k := nowNs w / 125000
      (s.sup.inputOn = true → 8 ≤ q ∨ portState w q ≠ 3 ∨ ¬ room w q → exec .timeExchange s = .next w) ∧
      (s.sup.inputOn = true → q < 8 → portState w q = 3 → room w q → Gives .timeExchange s fun u =>
        u.gov.exchange = some (BitVec.ofNat 64 k) ∧ sent w u q (fun t1 bs => bs = timeBytes w 0 k 0 0 ∧ u.gov.exchangeAt = t1)))) ∧
  (∀ (s : State) (m : GangCmdMsg), s.sup.inputOn = true →
    let e := m.entry.take 64
    let refused (reason : Nat) : Prop := Gives (.gangCmd m) s fun u =>
      let a := aPortViol (portTo s m.src)
      u = { s with regs := u.regs, out := u.out, gangSeen := u.gangSeen } ∧ RegsBut s u [a] ∧ fld u a 48 16 = min (fld s a 48 16 + 1) (2 ^ 16 - 1) ∧
      u.out = s.out ++ [⟨m.src, m.gang, m.ctx, 0x12, bytesOf m.mtag.toNat 4 ++ bytesOf 0x10 1 ++ bytesOf reason 1, 0, false⟩]
    (∀ r, gangPage s m.gang m.ctx = .error r → refused r) ∧
    (∀ pg, gangPage s m.gang m.ctx = .ok pg →
      let again := s.dupSeen.contains (m.src, m.mtag) || secondCopy s m.src (if pageKind pg == 3 then m.gang else 0) m.ctx e
      (again = true → refused 3) ∧
      (again = false →
        (ctxState s m.ctx = 6 → exec (.gangCmd m) s = .next s) ∧
        (ctxState s m.ctx ≠ 6 → Gives (.gangCmd m) s fun u =>
          u = { s with gangSeen := u.gangSeen, dupSeen := s.dupSeen ++ [(m.src, m.mtag)], cmds := u.cmds, nextId := s.nextId + 1 } ∧
          u.cmds = s.cmds ++
            [⟨s.nextId, pg, m.ctx, .remote m.src m.mtag m.gang, e, false, [], stOk, none, 0, 0⟩])))) ∧
  (∀ (s : State) (src : BitVec 16) (mtag : BitVec 32) (status op reason : Byte) (err : BitVec 64),
    let awaits (g : Cmd) : Bool := g.members.contains mtag.toNat && pageKind g.page == 3
    (s.sup.inputOn = true → Gives (.gangCpl src mtag status err) s fun u => u = { s with cmds := u.cmds } ∧ u.cmds.length = s.cmds.length ∧
      ∀ (i : Nat) (g : Cmd), s.cmds[i]? = some g → u.cmds[i]? = some (if awaits g then { g with
        members := g.members.erase mtag.toNat, status := statusJoin g.status status,
        err := if g.err = none ∧ status ≠ stOk then some err else g.err } else g)) ∧
    (op = 0x10 → s.cmds.any awaits = false → exec (.refuse src mtag op reason) s = .next s) ∧
    (op ≠ 0x10 → refusedEngine op.toNat = none → exec (.refuse src mtag op reason) s = .next s) ∧
    (∀ e, op ≠ 0x10 → refusedEngine op.toNat = some e → s.sup.inputOn = true → Gives (.refuse src mtag op reason) s fun u =>
      u = { s with refusals := u.refusals } ∧
      ∀ i, u.refusals.get (fun _ => 0) i = s.refusals.get (fun _ => 0) i + (if i = e then 1 else 0)) ∧
    (∀ g, op = 0x10 → s.cmds.find? awaits = some g → exec (.refuse src mtag op reason) s =
      exec (.gangCpl src mtag stRefuse (errWord stRefuse g.ctx (unitAddr 2 0 src) (entryTag g.entry))) s)) ∧
  (∀ (s : State) (port : BitVec 3) (rep : TrainReport),
    let p := port.toNat
    let x := portOf s p
    let off := !fabricOn s || fld s (aPort p) 3 1 == 1
    let down := dimOne s p || !rep.lanesOk
    let first := !x.trained
    let skipped := first && rep.locked && !s.sup.cold
    let keyed := !first && rep.retrain && !x.secret.isEmpty && !x.authLock
    let again := rep.retrain && !first
    (off = true → exec (.portTraining port rep) s = .next s) ∧
    (off = false → s.sup.inputOn = true → down = true → Gives (.portTraining port rep) s fun u => portState u p = 0) ∧
    (off = false → s.sup.inputOn = true → down = false → Gives (.portTraining port rep) s fun u =>
      (skipped = false → fld u (aPort p) 16 12 = rep.rtt.toNat ∧ fld u (aPort p) 28 12 = rep.polarity.toNat) ∧
      (skipped = true → fld u (aPort p) 16 12 = fld s (aPort p) 16 12 ∧ fld u (aPort p) 28 12 = fld s (aPort p) 28 12) ∧
      (∀ l, l < 12 → fld u (ngA (0x1000 + 0x80 * p + 8 * l)) 32 32 = fld s (ngA (0x1000 + 0x80 * p + 8 * l)) 32 32) ∧
      fld u (aPort p) 8 8 = (if again then min (fld s (aPort p) 8 8 + 1) 255 else fld s (aPort p) 8 8) ∧
      (keyed = true → portState u p = 3 ∧ (portOf u p).epoch = x.epoch + 1 ∧ (portOf u p).secret = x.secret ∧
        (portOf u p).recovery = false) ∧
      (keyed = false → portState u p = 2 ∧ (portOf u p).secret = [] ∧ (portOf u p).myReport = [] ∧ (portOf u p).expect = 0 ∧
        (portOf u p).waiting = x.waiting ∧ (entropyOk s = false → u.tx = s.tx) ∧
        (entropyOk s = true → ∃ y, u.tx = s.tx ++ [y] ∧ y.port = p ∧ y.flit.hdr.type = 2 ∧ y.flit.hdr.op = 3))) ∧
    (let stopped := !s.sup.inputOn || fld s aRstStatus 9 1 == 1 ||
        !(fld s aLatch 0 2 == 1 || fld s aLatch 0 2 == 2 || (s.sup.running && fld s aRstStatus 3 4 == 8))
     (stopped = true → exec (.cersinTraining rep) s = .next s) ∧
      (stopped = false → rep.lanesOk = false → Gives (.cersinTraining rep) s fun u => portState u 8 = 0) ∧
      (stopped = false → rep.lanesOk = true → Gives (.cersinTraining rep) s fun u =>
        portState u 8 = 2 ∧ u.cqCredit = [] ∧ u.latch.sessions = s.latch.sessions.map (fun y =>
          if y.waits = 0 then { y with epoch := y.epoch + 1, txBase := 0, rxBase := 0 } else y) ∧
        u.latch.mgmtKey = [] ∧ u.latch.headerKey = [] ∧ (entropyOk s = false → u.tx = s.tx) ∧
        (entropyOk s = true → u.latch.kexSeed = (takeRandom s 64).1)))) ∧
  (∀ (s : State) (port : BitVec 4),
    let p := port.toNat
    let idle' := decide (8 < p) || portState s p == 0 || portState s p == 4
    (idle' = true → exec (.noCodewordTimeout port) s = .next s) ∧
    (idle' = false → s.sup.inputOn = true → Gives (.noCodewordTimeout port) s fun u => portState u p = 0))

/-- The keying of ports and of the host link. (15_latch_trust.md, 13_nguchat_fabric.md) -/
def Obligations.Keying : Prop :=
  ∀ (s : State) (port : BitVec 3),
    let p := port.toNat
    let x := portOf s p
    let rejected (c : Instr) : Prop := Gives c s fun u =>
      (∃ e, u.evs = s.evs ++ [e] ∧ e.code = 9 ∧ e.d0 = BitVec.ofNat 64 p) ∧ (portOf u p).peer = none ∧
      (portOf u p).retryAt = some (nowNs s + 1000000000) ∧ portState u p = portState s p ∧ u.tx = s.tx
    (∀ nonce : BitVec 256,
      let refused := portState s p != 2 || !entropyOk s || !signOk s
      (refused = true → exec (.keyAttest port nonce) s = .next s) ∧
      (refused = false → treeReady s = false → exec (.keyAttest port nonce) s = .next
        { s with latch := { s.latch with keyWait := s.latch.keyWait ++ [(port, nonce)] } }) ∧
      (∀ seed rep w, refused = false → treeReady s = true → makeReport s none nonce = (seed, rep, w) →
        Gives (.keyAttest port nonce) s fun u => u.latch.nextLeaf = s.latch.nextLeaf + 1 ∧ (portOf u p).myReport = rep ∧
          (portOf u p).mySeed = seed ∧ portState u p = 2 ∧ u.evs = s.evs)) ∧
    (∀ rep : PeerReport,
      let w := setPort s p { x with peer := some rep, peerRes := rep.startRes, peerNode := rep.node }
      let first := !x.myReport.isEmpty && !x.sentConfirm && decide (myId < rep.fusedId.toNat) && entropyOk s
      let anew := portState s p == 3 && Config.reportOk rep.raw && rep.startRes != x.peerRes
      (portState s p ≠ 2 → anew = false → exec (.keyReport port rep) s = .next s) ∧
      (anew = true → Gives (.keyReport port rep) s fun u => portState u p = 2 ∧ (portOf u p).secret = [] ∧ (portOf u p).peer = none ∧
        (portOf u p).saved = x.saved.or (some (⟨x.expect, x.lastSeq, x.sendSeq, x.replay, x.sentTotal⟩, x.peerRes))) ∧
      (portState s p = 2 → peerOk s p rep = false → rejected (.keyReport port rep)) ∧
      (portState s p = 2 → peerOk s p rep = true → first = false → exec (.keyReport port rep) s = .next w) ∧
      (∀ ct ss, portState s p = 2 → peerOk s p rep = true → first = true →
        Config.kemEncaps ((rep.raw.drop 608).take 1568) (takeRandom s 32).1 = (ct, ss) →
        Gives (.keyReport port rep) s fun u => (portOf u p).peer = some rep ∧ (portOf u p).sentConfirm = true ∧
          (portOf u p).ct = ct ∧ (portOf u p).secret = kdf ss "NG-LINK"
            (sha256 (x.myReport ++ rep.raw ++ ct ++ bytesOf p 1 ++ bytesOf (p ^^^ 1) 1)))) ∧
    (∀ ct : List Byte,
      (x.peer = none → exec (.keyEncaps port ct) s = .next s) ∧
      (∀ r, x.peer = some r →
        let refused := portState s p != 2 || x.mySeed.isEmpty || decide (myId ≤ r.fusedId.toNat) || decide (ct.length ≠ 1568)
        (refused = true → exec (.keyEncaps port ct) s = .next s) ∧
        (refused = false → Gives (.keyEncaps port ct) s fun u =>
          (portOf u p).sentConfirm = true ∧ (portOf u p).ct = ct ∧ portState u p = 2 ∧
          (portOf u p).secret = kdf (Config.kemDecaps x.mySeed ct) "NG-LINK"
            (sha256 (r.raw ++ x.myReport ++ ct ++ bytesOf (p ^^^ 1) 1 ++ bytesOf p 1))))) ∧
    (∀ v : BitVec 128,
      (portState s p ≠ 2 ∨ x.secret = [] → exec (.keyConfirm port v) s = .next s) ∧
      (portState s p = 2 → x.secret ≠ [] → natOf x.linkTh ≠ v.toNat → rejected (.keyConfirm port v)) ∧
      (portState s p = 2 → x.secret ≠ [] → natOf x.linkTh = v.toNat → Gives (.keyConfirm port v) s fun u =>
        portState u p = 3 ∧ (portOf u p).gotConfirm = true ∧ (portOf u p).epoch = 0 ∧ (portOf u p).retryAt = none ∧
        (portOf u p).secret = x.secret)) ∧
    (∀ ct : List Byte,
      let refused := portState s 8 != 2 || s.latch.kexSeed.isEmpty || decide (ct.length ≠ 1568)
      let ss := Config.kemDecaps s.latch.kexSeed ct
      (refused = true → exec (.keyEk ct) s = .next s) ∧
      (refused = false → Gives (.keyEk ct) s fun u =>
        portState u 8 = 3 ∧ u.latch = { s.latch with
          mgmtKey := kdf ss "MGMT" [], headerKey := kdf ss "CSN-HDR" [], epochBase := (kdf ss "CSN-EP" []).take 16, kexSeed := [] })) ∧
    (x.retryAt = none ∨ portState s p ≠ 2 → exec (.keyingRetry port) s = .next s) ∧
    (∀ t, x.retryAt = some t → portState s p = 2 → Gives (.keyingRetry port) s fun u =>
      let w := advanceTo s t
      portState u p = 2 ∧ (portOf u p).secret = [] ∧ (portOf u p).peer = none ∧
      (portOf u p).retryAt = (if entropyOk w then none else some (nowNs w + 1000000000)) ∧
      (entropyOk w = true → (portOf u p).myNonce = BitVec.ofNat 256 (natOf (takeRandom w 32).1)))

/-- Management ticks, frequency steps, dividers, limits, the reference and bandwidth windows. (16_clocks_time_power.md, 18_counters_and_debug.md) -/
def Obligations.ClocksAndPower : Prop :=
  (∀ (s : State) (m : Telemetry),
    let w := advanceTo s ((nowNs s / 500000 + 1) * 500000)
    s.sup.inputOn = true →
    (fld w aLatch 0 2 ≠ 1 → exec (.managementTick m) s = .next (tickLatch { w with tick := nowNs w / 500000 })) ∧
    (fld w aLatch 0 2 = 1 → Gives (.managementTick m) s fun u =>
      let power (x : ShutReq) : Bool := x.cause == 2 && x.src == srcPower
      let now := (List.range 23).map (fun r => (periodOf w r, nowNs w))
      u.gov.latches = now ∧ u.gov.means = (now.zip w.gov.latches).map (fun e => (e.1.2 - e.2.2, e.1.1 - e.2.1)) ∧
      u.tick = nowNs w / 500000 ∧ reg u aTbNow = reg w aTbNow ∧
      fld u aTelem 0 12 = m.inputW.toNat ∧ fld u aTelem 12 16 = m.inputMv.toNat ∧ fld u aTelem 28 8 = m.tempC.toNat ∧
      fld u aTelem 37 1 = (if 100 ≤ m.tempC.toNat then 1 else 0) ∧
      fld u aEvWr 0 32 = (fld w aEvWr 0 32 + w.evs.length) % 2 ^ 32 ∧
      (s.gov.parityTimes = [] → (∀ c ∈ s.cmds, (entryOp c.entry).toNat ≠ 2) → ∀ h ∈ heads u, (shutOf u h).reqs.any power = decide ((u.tick + 16 - h.toNat) % 16 < dutyOf u h)) ∧
      u.sup.normalTicks = w.sup.normalTicks + (if isNormal u then 1 else 0))) ∧
  (∀ s : State,
    (s.gov.change = none → exec .pllSwitch s = .next s ∧ exec .vcoreSettled s = .next s ∧ exec .pllLockTimeout s = .next s) ∧
    (∀ c, s.gov.change = some c →
      let w := advanceTo s c.at'
      (c.phase ≠ 1 → exec .pllSwitch s = .next s) ∧
      (c.phase = 1 → inHoldover w = true → exec .pllSwitch s = .next (endChange w)) ∧
      (c.phase = 1 → inHoldover w = false → Gives .pllSwitch s fun u =>
        presentStep u = c.target % 8 ∧ fld u aClkStatus 0 1 = 1 - fld w aClkStatus 0 1 ∧ fld u aClkStatus 4 1 = 0 ∧
        u.preSwitch = false ∧ fld u aClkStatus 16 12 = fld w aClkStatus 16 12 ∧
        (∀ r, r < 15 → skewOf u r ≤ skewOf w r + 8) ∧
        (c.target < presentStep w → u.gov.change = none ∧ u.gov.lastDone = some (nowNs w / 500000)) ∧
        (presentStep w ≤ c.target → u.gov.change = some { c with phase := 2 } ∧ u.gov.lastDone = w.gov.lastDone)) ∧
      (c.phase ≠ 3 → exec .vcoreSettled s = .next s) ∧
      (c.phase = 3 → Gives .vcoreSettled s fun u => fld u aClkStatus 16 12 = stepMv w c.target ∧ u.gov.change = none ∧
        u.gov.lastDone = some (nowNs w / 500000) ∧ presentStep u = presentStep w) ∧
      (c.phase ≠ 0 ∨ s.tick < c.tick + 4 → exec .pllLockTimeout s = .next s) ∧
      (c.phase = 0 → c.tick + 4 ≤ s.tick → Gives .pllLockTimeout s fun u => fld u aClkStatus 1 1 = 1 ∧ u.gov.change = none ∧
        presentStep u = presentStep s ∧ ∃ e, u.evs = s.evs ++ [e] ∧ e.code = 3))) ∧
  (∀ (s : State) (r : RingId) (div : BitVec 2), s.sup.inputOn = true →
    (regionFree s r = false → Gives (.regionChange r div) s fun u =>
      u = { s with evs := u.evs } ∧ ∃ e, u.evs = s.evs ++ [e] ∧ e.code = 0xE ∧ e.d0 = BitVec.ofNat 64 r.toNat) ∧
    (let soon := decide (nowNs s = s.tick * 500000) && s.gov.change.isNone &&
        s.gov.stopped.all (fun e => decide (e.2 ≤ nowNs s))
    (regionFree s r = true → soon = false → exec (.regionChange r div) s = .next
      { s with gov := { s.gov with regionNext := s.gov.regionNext.filter (fun e => e.1 != r) ++ [(r, div)] } }) ∧
    (regionFree s r = true → soon = true → Gives (.regionChange r div) s fun u =>
      fld u (aRegion r.toNat) 0 2 = div.toNat ∧ u.evs = s.evs ∧ u.shuts = s.shuts ∧ skewOf u r.toNat = 0 ∧
      (∃ k, k ≤ 48 ∧ debtOf u r.toNat = debtOf s r.toNat + k * 8 * regionDiv s r.toNat / divOfCode div.toNat ∧
        u.gov.stopped = s.gov.stopped.filter (fun e => e.1 != r) ++
          [(r, nowNs s + (k * 10 * regionDiv s r.toNat + rootFreq s - 1) / rootFreq s)] ∧
        u.charged.get (fun _ => 0) ((headOf s r).toNat * 8 + 2) = s.charged.get (fun _ => 0) ((headOf s r).toNat * 8 + 2) + k) ∧
      ∀ g, g ≠ r → fld u (aRegion g.toNat) 0 2 = fld s (aRegion g.toNat) 0 2))) ∧
  (∀ (s : State) (inputW tempC : Nat), s.sup.inputOn = true →
    let holds' (u : State) (src : Nat) : Prop := ∀ h ∈ heads s,
      let mine (w : State) : Bool := (shutOf w h).reqs.any (fun x => x.cause == 2 && x.src == src)
      mine u = true ∧ (mine s = false → shutState s h = 0 → shutState u h = 1)
    (4 * inputW ≤ 5 * fld s aCeil 0 12 → exec (.fastTrip inputW) s = .next s) ∧
    (5 * fld s aCeil 0 12 < 4 * inputW → Gives (.fastTrip inputW) s fun u =>
      fld u aTelem 36 1 = 1 ∧ u.sup.alert = s.sup.alert ||| 8 ∧ holds' u srcTrip ∧ ∃ e, u.evs = s.evs ++ [e] ∧ e.code = 0xF) ∧
    (tempC < 110 → exec (.crit tempC) s = .next s) ∧
    (110 ≤ tempC → Gives (.crit tempC) s fun u =>
      fld u aTelem 38 1 = 1 ∧ u.sup.alert = s.sup.alert ||| 4 ∧ holds' u srcCrit ∧ u.evs = s.evs)) ∧
  (∀ s : State,
    (s.sup.inputOn = true → Gives .refLoss s fun u => fld u aClkStatus 2 1 = 1 ∧ fld u aClkStatus 3 1 = 1 ∧
      fld u aClkStatus 32 16 = min (fld s aClkStatus 32 16 + 1) (2 ^ 16 - 1) ∧ fld u aNgTb 5 1 = 1 ∧
      u.gov.refValidAt = none ∧ u.gov.goodOffsets = 0 ∧ u.sup.alert = s.sup.alert ||| 0x20 ∧
      ∃ e, u.evs = s.evs ++ [e] ∧ e.code = 2) ∧
    (inHoldover s = false ∨ s.gov.refValidAt ≠ none → exec .refRestore s = .next s) ∧
    (s.sup.inputOn = true → inHoldover s = true → s.gov.refValidAt = none → exec .refRestore s = .next
      { s with gov := { s.gov with refValidAt := some (nowNs s) } }) ∧
    (let span := max 1 (fld s (modG 0x4200) 0 32)
      let w := advanceTo s ((nowNs s / span + 1) * span)
      let q := (fld w (modG 0x4200) 32 32 + 1) % 2 ^ 32
      (s.sup.inputOn = true → w.bwWait = true → exec .bandwidthWindowEnd s = .next { w with bw := [], bwWait := false }) ∧
      (s.sup.inputOn = true → w.bwWait = false → Gives .bandwidthWindowEnd s fun u => u = { w with regs := u.regs, bw := [] } ∧
        fld u (modG 0x4200) 32 32 = q ∧ fld u (modG 0x4200) 0 32 = fld w (modG 0x4200) 0 32 ∧
        ∀ p dir, p < 34 → dir < 2 → reg u (modG (0x4800 + p * 0x10 + 8 * dir)) =
          BitVec.ofNat 64 (w.bw.get (fun _ => 0) (p * 2 + dir) % 2 ^ 48 + q % 2 ^ 16 * 2 ^ 48))) ∧
    (let w := advance s 1
     let later (u : State) : Prop := reg u aTbNow = BitVec.ofNat 64 (nowNs s + 1)
     let quiet := s.hostOut.isEmpty && s.replies.isEmpty && s.cq.isEmpty
     (s.pending = [] → s.sup.inputOn = false → step s = .next s) ∧
     (s.pending = [] → s.sup.inputOn = true → w.out = [] → step s = .next (hostIdle w) ∧ later w ∧
       (quiet = true → s.sup.startAfter ≠ some 0 → hostIdle w = w) ∧
       (quiet = true → s.sup.startAfter = some 0 → hostIdle w = warmStart { w with sup := { w.sup with startAfter := none } } 0)) ∧
     (∀ m ms, s.pending = [] → s.sup.inputOn = true → quiet = true → s.sup.startAfter ≠ some 0 → w.out = m :: ms → m.dst ≠ nodeId w →
       ∃ u, step s = .next u ∧ later u ∧ u.out = ms)))

/-- Watchdogs, engine resets and partition resets. (17_start_reset_recovery.md, 18_counters_and_debug.md) -/
def Obligations.HangsAndResets : Prop :=
  ∀ s : State, s.sup.inputOn = true →
    let faulted (u : State) (ns : List CtxId) : Prop :=
      ∀ n, (n ∈ ns → 1 ≤ ctxState s n → ctxState s n ≤ 4 → ctxState u n = 5) ∧ (n ∉ ns → ctxState u n = ctxState s n)
    let wiped (u : State) (n : CtxId) (cause : Nat) : Prop := ctxState u n = 6 ∧
      (ctxState s n ≠ 6 → fld u aRstLast 0 3 = 1 ∧ fld u aRstLast 8 4 = cause ∧ fld u aRstLast 12 4 = n.toNat ∧
        resetting u (.context n) = true)
    (∀ e,
      let due := e.wf && watched s e && decide (fld s aWdg 0 16 ≤ s.watchIdle.get (fun _ => 0) (engineCode e))
      (due = false ∨ holders s e = [] → exec (.engineHang e) s = .next s) ∧
      (∀ n, due = true → holders s e = [n] → recent s (.context n) = false →
        Gives (.engineHang e) s fun u => wiped u n 1) ∧
      (∀ n, due = true → holders s e = [n] → recent s (.context n) = true → Gives (.engineHang e) s fun u =>
        ∀ x ∈ allEngines, holds s n x = true → resetting u (.engine x) = true ∨ partBusy u (enginePart x) = true) ∧
      (due = true → 2 ≤ (holders s e).length → recent s (.engine e) = false → Gives (.engineHang e) s fun u =>
        resetting u (.engine e) = true ∨ partBusy u (enginePart e) = true) ∧
      (due = true → 2 ≤ (holders s e).length → recent s (.engine e) = true → Gives (.engineHang e) s fun u =>
        partBusy u (enginePart e) = true ∧ resetting u (.engine e) = false)) ∧
    (∀ n, (pastDeadline s n = false → exec (.contextDeadline n) s = .next s) ∧
      (pastDeadline s n = true → Gives (.contextDeadline n) s fun u => (recent s (.context n) = false → wiped u n 2) ∧
        ∀ id ∈ lateCmds s n, ∀ c ∈ u.cmds, c.id ≠ id)) ∧
    (∀ r,
      let h := headOf s r
      let n : CtxId := BitVec.ofNat 4 (fld s aShtOwner (4 * h.toNat) 4)
      let spent := recent s (.context n) || (runOf s (.context n)).any (fun x => decide (x.tick + 20 ≤ s.tick))
      (shutHung s h = false → exec (.shutterHang r) s = .next s) ∧
      (shutHung s h = true → fld s aShtOwned h.toNat 1 = 1 → spent = false → Gives (.shutterHang r) s fun u => wiped u n 3) ∧
      (shutHung s h = true → fld s aShtOwned h.toNat 1 = 0 ∨ spent = true →
        (∀ x ∈ domainRings s h, recent s (.part (BitVec.ofNat 5 x.toNat)) = false) → Gives (.shutterHang r) s fun u =>
          ∀ x ∈ domainRings s h, partBusy u (BitVec.ofNat 5 x.toNat) = true)) ∧
    (let peer := fld s aWdg 32 16
      let logged (u : State) (n : Byte) (d : Nat) : Prop :=
        ∃ l e, u.evs = l ++ [e] ∧ e.code = 8 ∧ e.ctx = n ∧ e.d0 = BitVec.ofNat 64 d
      (∀ x, peer = 0 → exec (.peerSilent x) s = .next s) ∧
      (∀ p : BitVec 3, portState s p.toNat = 3 ∨ (portOf s p.toNat).downTick = none → exec (.peerSilent (.port p)) s = .next s) ∧
      (∀ (p : BitVec 3) k, peer ≠ 0 → portState s p.toNat ≠ 3 → (portOf s p.toNat).downTick = some k →
        (s.tick < k + peer → exec (.peerSilent (.port p)) s = .next s) ∧
        (k + peer ≤ s.tick → Gives (.peerSilent (.port p)) s fun u =>
          u = { s with evs := u.evs, ports := u.ports } ∧ logged u 0xFF p.toNat ∧ (portOf u p.toNat).downTick = none)) ∧
      (∀ n chan bucket node, (redOf s n).bind (fun j => bucketOf j chan bucket) = none →
        exec (.peerSilent (.bucket n chan bucket node)) s = .next s) ∧
      (∀ n chan bucket node b, peer ≠ 0 → (redOf s n).bind (fun j => bucketOf j chan bucket) = some b →
        let late := decide (2 ≤ b.st) && !b.aborted && decide (b.waitTick + peer ≤ s.tick) && waitsOn s n b node
        (late = false → exec (.peerSilent (.bucket n chan bucket node)) s = .next s) ∧
        (late = true → Gives (.peerSilent (.bucket n chan bucket node)) s fun u =>
          logged u (BitVec.ofNat 8 n.toNat) (0x100 + node.toNat) ∧
          fld u (aRedCount n) 48 16 = min (fld s (aRedCount n) 48 16 + 1) 65535)) ∧
      (∀ n node, peer ≠ 0 →
        let late := (dspOf s n).any (fun j => j.routesOut && decide (j.waitTick + peer ≤ s.tick) &&
          (batchWaits s n j).any (fun k => rankNode s n k == node))
        (late = false → exec (.peerSilent (.batch n node)) s = .next s) ∧
        (late = true → Gives (.peerSilent (.batch n node)) s fun u =>
          logged u (BitVec.ofNat 8 n.toNat) (0x100 + node.toNat) ∧
          ∃ j', dspOf u n = some j' ∧ j'.routesOut = false ∧ j'.inbox = []))) ∧
    (∀ x,
      let due := (runOf s x).any (fun r => decide (r.tick + resetLimit x ≤ s.tick)) || recent s x
      (due = false → exec (.resetLimitExceeded x) s = .next s) ∧
      (∀ e, due = true → x = .engine e → Gives (.resetLimitExceeded x) s fun u =>
        partBusy u (enginePart e) = true ∧ resetting u (.engine e) = false) ∧
      (∀ n, due = true → x = .context n → Gives (.resetLimitExceeded x) s fun u =>
        ∀ e ∈ allEngines, holds s n e = true → resetting u (.engine e) = true ∨ partBusy u (enginePart e) = true) ∧
      (∀ p, due = true → x = .part p → exec (.resetLimitExceeded x) s = .next (warmStart s 7))) ∧
    (let sweeping := allCtx.any (fun n => fld s (aCtx n) 4 1 == 1)
      let found (u : State) (p : BitVec 5) : Prop := partBusy u p = true ∧ ∃ e l, u.evs = s.evs ++ e :: l ∧ e.code = 0x10
      (∀ port, sweeping = true → exec (.booksOutOfBalance (.stream port)) s = .next s) ∧
      (∀ port, sweeping = false → Gives (.booksOutOfBalance (.stream port)) s fun u => found u 16) ∧
      (∀ port vc, portState s port.toNat ≠ 3 → exec (.booksOutOfBalance (.fabric port vc)) s = .next s) ∧
      (∀ port vc, portState s port.toNat = 3 → Gives (.booksOutOfBalance (.fabric port vc)) s fun u => found u 18)) ∧
    (∀ e, (e.wf = false ∨ waiting s (.engine e) = false → exec (.engineReset e) s = .next s) ∧
      (e.wf = true → waiting s (.engine e) = true → Gives (.engineReset e) s fun u =>
        waiting u (.engine e) = false ∧ (runOf u (.engine e)).any (fun r => r.acted) = true ∧ (s.fills = [] → faulted u (holders s e)) ∧
        (∀ t, e = .array t → engOf u t 0 = ⟨none, none⟩) ∧ (∀ t, e = .louvre t → engOf u t 1 = ⟨none, none⟩) ∧
        (∀ t, e = .vector t → engOf u t 2 = ⟨none, none⟩) ∧ (∀ t, e = .gather t → ∀ g ∈ u.gaths, g.t ≠ t)) ∧
      (let acted := e.wf && (runOf s (.engine e)).any (fun r => r.acted)
       (acted = false → exec (.engineResetComplete e) s = .next s) ∧
       (acted = true → Gives (.engineResetComplete e) s fun u =>
         u = { s with resets := u.resets } ∧ runOf u (.engine e) = none ∧ recent u (.engine e) = true))) ∧
    (∀ p : BitVec 5, (waiting s (.part p) = false → exec (.partitionReset p) s = .next s) ∧
      (waiting s (.part p) = true → Gives (.partitionReset p) s fun u =>
        waiting u (.part p) = false ∧
        (p.toNat < 16 →
          let r : RingId := BitVec.ofNat 4 p.toNat
          (∀ t ∈ ringTiles r, (∀ h, threadState u t h = 0) ∧ ∀ k, k < 3 → engOf u t k = ⟨none, none⟩) ∧
          (∀ b ∈ u.ringBeats, b.ring ≠ r) ∧ (∀ b ∈ u.beats, crossesRing b r = false)) ∧
        (p = 16 → u.groups = [] ∧ u.fills = [] ∧ u.merges = [] ∧ u.reqs = [] ∧ u.tlb = [] ∧ u.walks = [] ∧ faulted u allCtx) ∧
        (p = 17 → ∀ n j, casOf u n = some j → j.samples = [] ∧ j.runs = []) ∧
        (p = 18 → ∀ q, q < 8 → (portOf u q).waiting = [] ∧
          (portState s q = 2 ∨ portState s q = 3 → portState u q = 1 ∧ (portOf u q).secret = [])) ∧
        (p = 19 → u.cq = [] ∧ u.cqCredit = [] ∧ u.replies = [] ∧ u.hostOut = [] ∧ (portState s 8 = 2 ∨ portState s 8 = 3 → portState u 8 = 1))) ∧
      (let acted := (runOf s (.part p)).any (fun r => r.acted)
       (acted = false → exec (.partitionResetComplete p) s = .next s) ∧
       (acted = true → Gives (.partitionResetComplete p) s fun u =>
         partBusy u p = false ∧ (p.toNat < 16 →
           let r : RingId := BitVec.ofNat 4 p.toNat
           headOf u r = r ∧ shutState u r = 0 ∧ (shutOf u r).reqs = []) ∧
         ∀ c ∈ u.cmds, ¬(c.taken = true ∧ c.page = .owner ∧ (entryOp c.entry).toNat = 0x20 ∧ fieldAt c.entry 8 1 = p.toNat))))

/-- Starts, their steps, failures and quarantine, and the input. (17_start_reset_recovery.md, 15_latch_trust.md, 19_module_interfaces.md, 01_haldam_module.md) -/
def Obligations.Starts : Prop :=
  ∀ s : State,
    let begun (u : State) (cold : Bool) : Prop :=
      modeOf u = 0 ∧ startStep u = 1 ∧ fld u aRstStatus 2 1 = (if cold then 0 else 1) ∧
      fld u aRstStatus 7 2 = fld s aRstStatus 7 2 ∧ u.cmds = [] ∧ u.sup.running = true ∧ u.sup.cold = cold ∧
      u.sup.retryAt = none ∧ u.sup.stepAt = nowNs u ∧ u.otp = s.otp
    let failed (w u : State) : Prop :=
      let f := min 3 (fld w aRstStatus 7 2 + 1)
      fld u aRstStatus 7 2 = f ∧ fld u aLatch 0 2 = 3 ∧ u.sup.running = false ∧
      u.sup.retryAt = (if f = 3 then none else some (nowNs w + 100000000)) ∧
      quarantined u = (decide (f = 3) || quarantined w) ∧
      u.sup.alert = (if f = 3 then w.sup.alert ||| 16 ||| 1 else w.sup.alert ||| 16) ∧
      (f = 3 → ∀ p, p < 9 → portState u p = 0) ∧
      ∃ e, u.evs = w.evs ++ [e] ∧ e.code = 6
    let phys : List Nat := (List.range 8).flatMap (fun p => aPort p :: (List.range 12).map (fun l => ngA (0x1000 + 0x80 * p + 8 * l)))
    let took (c : Instr) (cause : Nat) : Prop :=
      (s.sup.inputOn = false ∨ quarantined s = true → exec c s = .next s) ∧
      (s.sup.inputOn = true → quarantined s = false →
        (s.sup.running = true → Gives c s fun u => begun u s.sup.cold ∧ fld u aRstLast 0 3 = 4 ∧ fld u aRstLast 8 4 = cause) ∧
        (s.sup.running = false → Gives c s fun u => begun u false ∧ reg u aTbNow = reg s aTbNow ∧ u.tick = s.tick ∧
          fld u aRstLast 0 3 = 4 ∧ fld u aRstLast 8 4 = cause ∧
          (∀ a, a ∉ [aRstStatus, aTbNow, aRstLast] ++ phys → reg u a = regReset a) ∧
          ∀ p, p < 8 → portState u p = 0 ∧ fld u (aPort p) 16 25 = fld s (aPort p) 16 25))
    took .chipReset 0 ∧ took .lintelWatchdog 6 ∧
    (s.sup.inputOn = false ∨ quarantined s = false → exec .powerCycle s = .next s) ∧
    (s.sup.inputOn = true → quarantined s = true → Gives .powerCycle s fun u =>
      u = { s with regs := u.regs, evs := u.evs, sup := u.sup } ∧ RegsBut s u [aRstLast] ∧ fld u aRstLast 0 3 = 5 ∧
      u.sup = { s.sup with alert := s.sup.alert ||| 2 } ∧ ∃ e, u.evs = s.evs ++ [e] ∧ e.code = 5) ∧
    (s.sup.inputOn = true → exec .inputOn s = .next s) ∧
    (s.sup.inputOn = false → quarantined s = true → exec .inputOn s = .next { s with sup := { s.sup with inputOn := true } }) ∧
    (s.sup.inputOn = false → quarantined s = false → Gives .inputOn s fun u => begun u true ∧ u.sup.inputOn = true ∧
      reg u aTbNow = 0 ∧ u.dram = [] ∧ u.sp = [] ∧ u.ctxInfo = [] ∧ u.flash = s.flash ∧
      ∀ a, a ∉ [aRstStatus, aTbNow] → reg u a = regReset a) ∧
    (s.sup.inputOn = false → exec .inputStop s = .next s) ∧
    (s.sup.inputOn = true → Gives .inputStop s fun u => u.sup.inputOn = false ∧ u.sup.running = false ∧
      u.sup.alert = (if quarantined s = true then 1 else 0) ∧ fld u aRstStatus 7 2 = fld s aRstStatus 7 2 ∧ quarantined u = quarantined s ∧
      u.dram = [] ∧ u.sp = [] ∧ u.cmds = [] ∧ u.otp = s.otp ∧ u.flash = s.flash ∧ ∀ a, a ≠ aRstStatus → reg u a = regReset a) ∧
    (Gives .inputLoss s fun u => u.sup.inputOn = false ∧ u.sup.alert = 0 ∧ reg u aRstStatus = 0 ∧ u.otp = s.otp ∧
      u.flash = s.flash ∧ (s.sup.inputOn = true → u.dram = [] ∧ ∀ a, a ≠ aRstStatus → reg u a = regReset a)) ∧
    (∀ rep,
      let k := startStep s
      let late := decide (k < 9) && decide (stepDue s < nowNs s)
      let bad := late || !rep.ok || (k == 2 && rep.fuses != BitVec.allOnes 8)
      let run := s.sup.running && !bad
      let onTo (u : State) : Prop := startStep u = k + 1 ∧ u.sup.running = true ∧ u.sup.stepAt = nowNs u
      let recovered (u : State) : Prop := modeOf u = 3 ∧ fld u aLatch 0 2 = 2 ∧ fld u aRstStatus 7 2 = 0 ∧ u.sup.running = false
      (s.sup.running = false → exec (.startStepComplete rep) s = .next s) ∧
      (s.sup.running = true → bad = true → Gives (.startStepComplete rep) s fun u => failed s u) ∧
      (run = true → k = 1 ∨ k = 5 → Gives (.startStepComplete rep) s fun u =>
        onTo u ∧ u = { s with regs := u.regs, sup := u.sup } ∧ RegsBut s u [aRstStatus, aRstLast] ∧
        u.sup.badStacks = (if k = 5 then [] else if s.sup.cold then s.sup.badStacks else (s.sup.badStacks ++ rep.slowMem).dedup) ∧
        fld u aRstLast 16 1 = (if k = 5 ∨ s.sup.cold = true then fld s aRstLast 16 1
          else if s.sup.badStacks = [] ∧ rep.slowMem = [] then 0 else 1)) ∧
      (run = true → k = 2 → Gives (.startStepComplete rep) s fun u => onTo u ∧ fld u aLatch 2 1 = (if rep.entropyOk then 1 else 0) ∧
        reg u aSvn = BitVec.ofNat 64 (s.otp.svnAster + s.otp.svnYarrow * 2 ^ 8 + s.otp.svnTansy * 2 ^ 16)) ∧
      (run = true → k = 3 →
        let a := s.flash.active
        let good := s.flash.knownGood
        let booted (b : Nat) (w u : State) : Prop := onTo u ∧ fld u aRstStatus 10 1 = b % 2 ∧ u.flash = w.flash ∧ u.otp = w.otp
        (∀ w, trySet s a rep.reservationOk = (w, none) → Gives (.startStepComplete rep) s (booted a w)) ∧
        (∀ w r, trySet s a rep.reservationOk = (w, some r) →
          (good = a → Gives (.startStepComplete rep) s recovered) ∧
          (∀ w2, good ≠ a → trySet (refuseSet w a r) good rep.reservationOk = (w2, none) →
            Gives (.startStepComplete rep) s (booted good w2)) ∧
          (∀ w2 r2, good ≠ a → trySet (refuseSet w a r) good rep.reservationOk = (w2, some r2) →
            Gives (.startStepComplete rep) s recovered))) ∧
      (run = true → k = 4 → Gives (.startStepComplete rep) s fun u => onTo u ∧ u.flash.rowMapValid = true) ∧
      (run = true → k = 6 → entropyOk s = false → Gives (.startStepComplete rep) s fun u => failed s u) ∧
      (run = true → k = 6 → entropyOk s = true → Gives (.startStepComplete rep) s fun u => onTo u ∧
        u.sp = [] ∧ u.acc = [] ∧ u.imem = [] ∧ u.ptes = [] ∧ u.gangs = [] ∧ u.ctxInfo = [] ∧ u.groups = [] ∧
        fld u aMemFree 0 19 = 289792 ∧ u.latch.moduleKey = (takeRandom s 96).1) ∧
      (run = true → k = 7 → Gives (.startStepComplete rep) s fun u => onTo u ∧
        (∀ t : TileId, Config.testFence t.toNat = true ∨ t ∈ s.flash.fences → isFenced u t = true) ∧
        (∀ r ∈ s.flash.oos, isOos u r = true) ∧ (∀ r, headOf u r = r)) ∧
      (run = true → k = 8 → portState s 8 ≠ 3 → exec (.startStepComplete rep) s = .next s) ∧
      (run = true → k = 8 → portState s 8 = 3 → Gives (.startStepComplete rep) s fun u =>
        onTo u ∧ fld u (aPair 63) 0 4 = 9 ∧ portState u 8 = 3) ∧
      (run = true → 9 ≤ k → Gives (.startStepComplete rep) s fun u => modeOf u = 1 ∧ fld u aLatch 0 2 = 1 ∧
        fld u aRstStatus 7 2 = 0 ∧ u.sup.running = false ∧ u.sup.normalTicks = 0 ∧ RegsBut s u [aRstStatus, aLatch])) ∧
    (s.sup.running = false ∨ 9 ≤ startStep s → exec .startStepTimeout s = .next s) ∧
    (s.sup.running = true → startStep s < 9 → Gives .startStepTimeout s fun u =>
      failed (advanceTo s (s.sup.stepAt + stepLimit (startStep s) s.sup.cold (!s.sup.badStacks.isEmpty))) u) ∧
    (s.sup.retryAt = none ∨ s.sup.inputOn = false → exec .startRetry s = .next s) ∧
    (s.sup.retryAt ≠ none → s.sup.inputOn = true → Gives .startRetry s fun u => begun u s.sup.cold) ∧
    (modeOf s ≠ 1 ∨ s.sup.normalTicks < 2000 → exec .knownGood s = .next s) ∧
    (modeOf s = 1 → 2000 ≤ s.sup.normalTicks → Gives .knownGood s fun u => u = { s with regs := u.regs, flash := u.flash } ∧
      u.flash = { s.flash with knownGood := fld s aRstStatus 10 1 } ∧ fld u aRstStatus 11 1 = fld s aRstStatus 10 1 ∧
      fld u aRstStatus 10 1 = fld s aRstStatus 10 1)

/-- The management bus and the TAP. (19_module_interfaces.md, 15_latch_trust.md, 17_start_reset_recovery.md) -/
def Obligations.BusAndTap : Prop :=
  ∀ (s : State) (pec : Bool),
    let on := pec && s.sup.inputOn
    let replied (c : Instr) (p : List Byte → Prop) : Prop :=
      (on = false → exec c s = .next s) ∧
      (on = true → Gives c s fun u => ∃ bs, u = { s with sup := { s.sup with bus := s.sup.bus ++ [bs] } } ∧ p bs)
    let bits (a b : State) : Prop := fld b aRstStatus 0 2 = (if fld a aRstStatus 0 2 = 2 then 1 else fld a aRstStatus 0 2)
    replied (.status pec) (fun bs => bs.length = 16 ∧ fieldAt bs 0 8 = (reg s aRstStatus).toNat ∧ fieldAt bs 8 8 = (reg s aTelem).toNat) ∧
    replied (.busId pec) (fun bs => bs.length = 20 ∧ fieldAt bs 0 16 = Config.fusedId.toNat ∧
      fieldAt bs 16 4 = (ucbId s (.module 0)).toNat / 2 ^ 32) ∧
    replied (.alertRead pec) (fun bs => bs = [s.sup.alert]) ∧
    (∀ v : Byte, (on = false → exec (.alertWrite pec v) s = .next s) ∧
      (on = true → Gives (.alertWrite pec v) s fun u =>
        u = { s with sup := { s.sup with alert := u.sup.alert } } ∧
        ∀ i, i < 8 → u.sup.alert.getLsbD i = (s.sup.alert.getLsbD i && !(v.getLsbD i && decide (2 ≤ i ∧ i ≤ 5))))) ∧
    (tapIdcode.toNat % 2 = 1 ∧ tapIdcode.toNat / 2 ^ 12 % 2 ^ 16 = 0x9512 ∧ tapIdcode.toNat / 2 ^ 28 = Config.stepping.toNat % 16) ∧
    (on = false ∨ s.sup.alert.getLsbD 1 = true → exec (.warmReset pec) s = .next s) ∧
    (on = true → s.sup.alert.getLsbD 1 = false → exec (.warmReset pec) s = exec .chipReset s ∧
      (quarantined s = false → Gives (.warmReset pec) s fun u => startStep u = 1 ∧ modeOf u = 0 ∧ u.sup.running = true)) ∧
    (∀ i, (tapOffered s i = false → exec (.jtagInstruction i) s = .next s) ∧
      (s.sup.inputOn = true → tapOffered s i = true → Gives (.jtagInstruction i) s fun u =>
        u = { s with regs := u.regs, sup := { s.sup with tap := i } } ∧ RegsBut s u [aRstStatus] ∧
        fld u aRstStatus 2 62 = fld s aRstStatus 2 62 ∧
        (i = .privateTest → modeOf u = (if modeOf s = 1 then 2 else modeOf s)) ∧ (i ≠ .privateTest → bits s u))) ∧
    (s.sup.inputOn = true → Gives .trstNLow s fun u => u = { s with regs := u.regs, sup := { s.sup with tap := .idcode } } ∧
      RegsBut s u [aRstStatus] ∧ bits s u ∧ fld u aRstStatus 2 62 = fld s aRstStatus 2 62)

/-- Owner-page commands act on the context selected at their doorbell. (R50) -/
def Obligations.OwnerPageContext : Prop :=
  ∀ (s : State) (q : PairId),
    let sel := pageA .owner + 0x18
    (∀ v, serves s q = true → pairOwner s q = true → qEnabled s .owner = true → getF v 0 16 < qSize s .owner →
      (qTail s .owner + qSize s .owner - qHead s .owner) % qSize s .owner ≤
        (getF v 0 16 + qSize s .owner - qHead s .owner) % qSize s .owner → getF v 0 16 ≠ qTail s .owner →
      Gives (.doorbell q .owner v) s fun u => ∃ c, u.covers = s.covers ++ [c] ∧ c.page = .owner ∧ c.q = q ∧
        c.tail.toNat = getF v 0 16 ∧ c.ctx = BitVec.ofNat 4 (fld s sel 0 4)) ∧
    (∀ v, Gives (.registerWrite q (BitVec.ofNat 30 sel) v) s fun u => u.covers = s.covers ∧ u.cmds = s.cmds ∧
      headCover u .owner = headCover s .owner ∧
      (serves s q = true → pairOwner s q = true → fld u sel 0 4 = getF v 0 4)) ∧
    (∀ op c w k, Takes s .owner op c w → headAtOnce op s .owner = true ∨ nextHeld s .owner op = none → headCover s .owner = some k → c.ctx = k.ctx) ∧
    (∀ c w, Accepts s .owner 0x01 c w → Gives (.ctxCreate .owner) s fun u =>
      ∀ n, n ≠ c.ctx → ctxState u n = ctxState w n) ∧
    (∀ c w, Accepts s .owner 0x06 c w → Gives (.ctxReset .owner) s fun u =>
      ctxState u c.ctx = 6 ∧ (w.fills = [] → ∀ n, n ≠ c.ctx → ctxState u n = ctxState w n)) ∧
    (∀ c w, Accepts s .owner 0x07 c w → Gives (.ctxDestroy .owner) s fun u =>
      ctxState u c.ctx = 7 ∧ (w.fills = [] → ∀ n, n ≠ c.ctx → ctxState u n = ctxState w n))

/-- The block right after reset. (17_start_reset_recovery.md, 02_units_and_contexts.md, 03_tile.md, 98_reader.md) -/
def Obligations.ResetState : Prop :=
  State.reset.canonical ∧ State.reset.pending = [] ∧ State.reset.dram = [] ∧ State.reset.cmds = [] ∧
  (∀ a, reg State.reset a = regReset a) ∧ modeOf State.reset = 0 ∧ State.reset.sup.inputOn = false ∧ step State.reset = .next State.reset ∧
  (∀ n, ctxState State.reset n = 0 ∧ redOf State.reset n = none ∧ dspOf State.reset n = none ∧ casOf State.reset n = none) ∧
  (∀ t h, threadState State.reset t h = 0 ∧ (∀ r, greg State.reset t h r = 0) ∧ predOf State.reset t h 0 = true)
end

