-- ==== Sys2Proof/Laws/SMap.lean ====
section
/-! SUPPORT. The laws of sparse maps: read after write, and that every operation keeps the canonical form. -/

namespace Sys2Proof.Machine.SMap

variable {α : Type}

theorem get_lt_of_head (d : Nat → α) {k0 j : Nat} {v0 : α} (m : SMap α) (h : j < k0) :
    get d ((k0, v0) :: m) j = d j := by simp [get, h]

theorem get_dropWhile (d : Nat → α) (k : Nat) (m : SMap α) {j : Nat} (h : k < j) :
    get d (m.dropWhile (fun e => decide (e.1 ≤ k))) j = get d m j := by
  induction m with
  | nil => rfl
  | cons e m ih =>
    obtain ⟨k0, v0⟩ := e
    by_cases hk : k0 ≤ k
    · rw [List.dropWhile_cons_of_pos (by simpa using hk), ih]
      rw [get, if_neg (by omega), if_neg (by omega)]
    · rw [List.dropWhile_cons_of_neg (by simpa using hk)]

theorem get_dropWhile_le (d : Nat → α) (k : Nat) (m : SMap α) {j : Nat} (h : j ≤ k) :
    get d (m.dropWhile (fun e => decide (e.1 ≤ k))) j = d j := by
  induction m with
  | nil => rfl
  | cons e m ih =>
    obtain ⟨k0, v0⟩ := e
    by_cases hk : k0 ≤ k
    · rw [List.dropWhile_cons_of_pos (by simpa using hk), ih]
    · rw [List.dropWhile_cons_of_neg (by simpa using hk)]
      exact get_lt_of_head d m (by omega)

@[simp] theorem get_nil (d : Nat → α) (k : Nat) : get d [] k = d k := rfl

variable [DecidableEq α]

/-- Reading the key just written gives the value written. -/
@[simp] theorem get_set_same (d : Nat → α) (m : SMap α) (k : Nat) (v : α) : get d (set d m k v) k = v := by
  induction m with
  | nil =>
    simp only [set, put]
    split
    · simp [get, *]
    · simp [get]
  | cons e m ih =>
    obtain ⟨k0, v0⟩ := e
    simp only [set]
    split
    · simp only [put]
      split
      · rename_i h hv; simp [get, h, hv]
      · simp [get]
    · split
      · subst_vars
        simp only [put]
        split
        · rename_i hv; rw [get_dropWhile_le _ _ _ (Nat.le_refl _), hv]
        · simp [get]
      · simp only [get]
        rw [if_neg ‹_›, if_neg ‹_›, ih]

/-- Reading another key gives what it gave before. -/
theorem get_set_ne (d : Nat → α) (m : SMap α) {k j : Nat} (v : α) (h : j ≠ k) :
    get d (set d m k v) j = get d m j := by
  induction m with
  | nil =>
    simp only [set, put]
    split
    · rfl
    · simp [get, h]
  | cons e m ih =>
    obtain ⟨k0, v0⟩ := e
    by_cases h1 : k < k0
    · simp only [set, if_pos h1, put]
      split
      · rfl
      · by_cases h2 : j < k
        · simp [get, h2, show j < k0 by omega]
        · rw [get, if_neg h2, if_neg h]
    · by_cases h3 : k = k0
      · subst h3
        simp only [set, if_neg h1, put, if_true]
        by_cases hj : j < k
        · rw [get_lt_of_head d m hj]
          split
          · exact get_dropWhile_le _ _ _ (by omega)
          · exact get_lt_of_head _ _ hj
        · have e1 : get d ((k, v0) :: m) j = get d m j := by simp [get, hj, h]
          rw [e1]
          split
          · exact get_dropWhile _ _ _ (by omega)
          · rw [get, if_neg hj, if_neg h, get_dropWhile _ _ _ (by omega)]
      · simp only [set, if_neg h1, if_neg h3, get, ih]

theorem wfFrom_mono (d : Nat → α) {b c : Nat} (m : SMap α) (h : b ≤ c) (w : wfFrom d c m = true) :
    wfFrom d b m = true := by
  cases m with
  | nil => rfl
  | cons e m =>
    obtain ⟨k, v⟩ := e
    simp only [wfFrom, Bool.and_eq_true, decide_eq_true_eq] at *
    exact ⟨⟨by omega, w.1.2⟩, w.2⟩

theorem wfFrom_dropWhile (d : Nat → α) {b : Nat} (k : Nat) (m : SMap α) (w : wfFrom d b m = true) :
    wfFrom d (k + 1) (m.dropWhile (fun e => decide (e.1 ≤ k))) = true := by
  induction m generalizing b with
  | nil => rfl
  | cons e m ih =>
    obtain ⟨k0, v0⟩ := e
    simp only [wfFrom, Bool.and_eq_true, decide_eq_true_eq] at w
    by_cases hk : k0 ≤ k
    · rw [List.dropWhile_cons_of_pos (by simpa using hk)]
      exact ih w.2
    · rw [List.dropWhile_cons_of_neg (by simpa using hk)]
      simp only [wfFrom, Bool.and_eq_true, decide_eq_true_eq]
      exact ⟨⟨by omega, w.1.2⟩, w.2⟩

theorem wfFrom_put (d : Nat → α) {b k : Nat} (v : α) (m : SMap α) (hb : b ≤ k)
    (w : wfFrom d (k + 1) m = true) : wfFrom d b (put d k v m) = true := by
  simp only [put]
  split
  · exact wfFrom_mono d m (by omega) w
  · simp only [wfFrom, Bool.and_eq_true, decide_eq_true_eq]
    exact ⟨⟨hb, ‹_›⟩, w⟩

theorem wfFrom_set (d : Nat → α) {b : Nat} (m : SMap α) (k : Nat) (v : α) (hb : b ≤ k)
    (w : wfFrom d b m = true) : wfFrom d b (set d m k v) = true := by
  induction m generalizing b with
  | nil => exact wfFrom_put d v [] hb rfl
  | cons e m ih =>
    obtain ⟨k0, v0⟩ := e
    simp only [wfFrom, Bool.and_eq_true, decide_eq_true_eq] at w
    simp only [set]
    split
    · apply wfFrom_put d v _ hb
      simp only [wfFrom, Bool.and_eq_true, decide_eq_true_eq]
      exact ⟨⟨by omega, w.1.2⟩, w.2⟩
    · split
      · exact wfFrom_put d v _ hb (wfFrom_dropWhile d k m w.2)
      · simp only [wfFrom, Bool.and_eq_true, decide_eq_true_eq]
        exact ⟨⟨w.1.1, w.1.2⟩, ih (by omega) w.2⟩

/-- A write keeps the canonical form. -/
theorem wf_set (d : Nat → α) (m : SMap α) (k : Nat) (v : α) (w : wf d m = true) : wf d (set d m k v) = true :=
  wfFrom_set d m k v (Nat.zero_le _) w

/-- Clearing an area keeps the canonical form. -/
theorem wfFrom_clear (d : Nat → α) (p : Nat → Bool) {b : Nat} (m : SMap α) (w : wfFrom d b m = true) :
    wfFrom d b (clear p m) = true := by
  induction m generalizing b with
  | nil => rfl
  | cons e m ih =>
    obtain ⟨k0, v0⟩ := e
    simp only [wfFrom, Bool.and_eq_true, decide_eq_true_eq] at w
    have h := ih w.2
    simp only [clear, List.filter_cons] at *
    split
    · simp only [wfFrom, Bool.and_eq_true, decide_eq_true_eq]; exact ⟨w.1, h⟩
    · exact wfFrom_mono d _ (by omega) h

theorem wf_clear (d : Nat → α) (p : Nat → Bool) (m : SMap α) (w : wf d m = true) : wf d (clear p m) = true :=
  wfFrom_clear d p m w

end Sys2Proof.Machine.SMap
end

