-- ==== Sys2Proof/Laws/CanonBase.lean ====
section
/-! SUPPORT. The canonical form of the state: how a proof that an operation keeps it goes through updates, branches,
folds and the outcomes. -/

namespace Sys2Proof.Machine

/-- An outcome whose next state is canonical. -/
def OutKeeps (o : Host.Outcome State Fault Refusal) : Prop := ∀ t, o = .next t → t.canonical

/-- An optional state that is canonical where there is one. -/
def OptKeeps (o : Option State) : Prop := ∀ t, o = some t → t.canonical

/-- The same for an optional state with a value beside it. -/
def OptKeeps1 {α : Type} (o : Option (State × α)) : Prop := ∀ t, o = some t → t.1.canonical

/-- The form depends on the three maps only. -/
theorem canonical_congr {s t : State} (h : s.canonical) (hr : t.regs = s.regs) (hd : t.dram = s.dram)
    (hp : t.sp = s.sp) : t.canonical := by
  unfold State.canonical at *
  rw [hr, hd, hp]
  exact h

theorem SMap.wf_foldl {α β : Type} [DecidableEq α] {d : Nat → α} {f : SMap α → β → SMap α} {l : List β} {m : SMap α}
    (hf : ∀ m b, SMap.wf d m = true → SMap.wf d (f m b) = true) (h : SMap.wf d m = true) :
    SMap.wf d (l.foldl f m) = true := by
  induction l generalizing m with
  | nil => exact h
  | cons a l ih => exact ih (hf m a h)

theorem canonical_fold {s : State} (h : s.canonical) :
    Memory.wf dramDef s.dram = true ∧ Memory.wf spDef s.sp = true ∧ SMap.wf regReset s.regs = true := h

/-- The form of a state given field by field. -/
theorem canonical_mk {
    x0 x1 r x3 x4 x5 x6 x7 x8 x9 x10 x11 x12 x13 x14 x15 x16 x17 x18 x19 x20 x21 x22 x23 x24 x25 p x27 x28 x29
    x30 x31 x32 x33 x34 x35 x36 x37 x38 x39 x40 x41 x42 x43 x44 x45 x46 x47 x48 x49 x50 x51 x52 x53 x54 x55 x56
    x57 x58 d x60 x61 x62 x63 x64 x65 x66 x67 x68 x69 x70 x71 x72 x73 x74 x75 x76 x77 x78 x79 x80 x81 x82 x83
    x84 x85 x86 x87 x88 x89 x90 x91 x92 x93 x94 x95 x96 x97 x98 x99 x100 x101 x102 x103 x104 x105 x106}
    (h : Memory.wf dramDef d = true ∧ Memory.wf spDef p = true ∧ SMap.wf regReset r = true) :
    State.canonical (State.mk
      x0 x1 r x3 x4 x5 x6 x7 x8 x9 x10 x11 x12 x13 x14 x15 x16 x17 x18 x19 x20 x21 x22 x23 x24 x25 p x27 x28
      x29 x30 x31 x32 x33 x34 x35 x36 x37 x38 x39 x40 x41 x42 x43 x44 x45 x46 x47 x48 x49 x50 x51 x52 x53 x54
      x55 x56 x57 x58 d x60 x61 x62 x63 x64 x65 x66 x67 x68 x69 x70 x71 x72 x73 x74 x75 x76 x77 x78 x79 x80 x81
      x82 x83 x84 x85 x86 x87 x88 x89 x90 x91 x92 x93 x94 x95 x96 x97 x98 x99 x100 x101 x102 x103 x104 x105
      x106) := h

/-- The state after reset is canonical: it lists nothing. -/
theorem reset_canonical : State.reset.canonical := ⟨rfl, rfl, rfl⟩

theorem canonical_noSp {s : State} (h : s.canonical) :
    Memory.wf dramDef s.dram = true ∧ Memory.wf spDef [] = true ∧ SMap.wf regReset s.regs = true := ⟨h.1, rfl, h.2.2⟩

theorem canonical_clearSp {p : Nat → Bool} {s : State} (h : s.canonical) :
    Memory.wf dramDef s.dram = true ∧ Memory.wf spDef (SMap.clear p s.sp) = true ∧ SMap.wf regReset s.regs = true :=
  ⟨h.1, SMap.wf_clear _ _ _ h.2.1, h.2.2⟩

theorem canonical_clearDram {p : Nat → Bool} {s : State} (h : s.canonical) :
    Memory.wf dramDef (SMap.clear p s.dram) = true ∧ Memory.wf spDef [] = true ∧ SMap.wf regReset s.regs = true :=
  ⟨SMap.wf_clear _ _ _ h.1, rfl, h.2.2⟩

theorem canonical_mix {s r : State} (h : s.canonical) (hr : r.canonical) :
    Memory.wf dramDef s.dram = true ∧ Memory.wf spDef s.sp = true ∧ SMap.wf regReset r.regs = true :=
  ⟨h.1, h.2.1, hr.2.2⟩

theorem canonical_ite {c : Prop} [Decidable c] {s t : State} (hs : s.canonical) (ht : t.canonical) :
    (if c then s else t).canonical := by
  split <;> assumption

theorem canonical_id {s : State} (h : s.canonical) : (id s).canonical := h

theorem canonical_cut (s : State) {p : Prop} (h : s.canonical) (k : s.canonical → p) : p := k h

theorem canonical_foldl {α : Type} {f : State → α → State} {l : List α} {s : State}
    (hf : ∀ s a, s.canonical → (f s a).canonical) (hs : s.canonical) : (l.foldl f s).canonical := by
  induction l generalizing s with
  | nil => exact hs
  | cons a l ih => exact ih (hf s a hs)

theorem canonical_foldl_fst {α β : Type} {f : State × β → α → State × β} {l : List α} {s : State × β}
    (hf : ∀ s a, s.1.canonical → (f s a).1.canonical) (hs : s.1.canonical) : (l.foldl f s).1.canonical := by
  induction l generalizing s with
  | nil => exact hs
  | cons a l ih => exact ih (hf s a hs)

theorem canonical_foldl_snd {α β : Type} {f : β × State → α → β × State} {l : List α} {s : β × State}
    (hf : ∀ s a, s.2.canonical → (f s a).2.canonical) (hs : s.2.canonical) : (l.foldl f s).2.canonical := by
  induction l generalizing s with
  | nil => exact hs
  | cons a l ih => exact ih (hf s a hs)

theorem canonical_ite_fst {β : Type} {c : Prop} [Decidable c] {p q : State × β} (hp : p.1.canonical)
    (hq : q.1.canonical) : (if c then p else q).1.canonical := by
  split <;> assumption

theorem canonical_ite_snd {β : Type} {c : Prop} [Decidable c] {p q : β × State} (hp : p.2.canonical)
    (hq : q.2.canonical) : (if c then p else q).2.canonical := by
  split <;> assumption

theorem pair1_canonical {β : Type} {p : State × β} {s : State} {b : β} (e : p = (s, b)) (h : p.1.canonical) :
    s.canonical := by
  rw [e] at h
  exact h

theorem pair2_canonical {β : Type} {p : β × State} {s : State} {b : β} (e : p = (b, s)) (h : p.2.canonical) :
    s.canonical := by
  rw [e] at h
  exact h

theorem opt_canonical {o : Option State} {s : State} (e : o = some s) (h : OptKeeps o) : s.canonical := h s e

theorem opt1_canonical {β : Type} {o : Option (State × β)} {s : State} {b : β} (e : o = some (s, b)) (h : OptKeeps1 o) :
    s.canonical := h (s, b) e

theorem canonical_getD {o : Option State} {s : State} (ho : OptKeeps o) (hs : s.canonical) : (o.getD s).canonical := by
  cases o with
  | none => exact hs
  | some t => exact ho t rfl

/-- A state whose LPDDR5X map alone is another canonical one. -/
theorem canonical_dram {s t : State} (h : s.canonical) (hd : Memory.wf dramDef t.dram = true) (hr : t.regs = s.regs)
    (hp : t.sp = s.sp) : t.canonical := by
  unfold State.canonical at *
  rw [hr, hp]
  exact ⟨hd, h.2⟩

/-- A state whose scratchpad map alone is another canonical one. -/
theorem canonical_sp {s t : State} (h : s.canonical) (hp : Memory.wf spDef t.sp = true) (hr : t.regs = s.regs)
    (hd : t.dram = s.dram) : t.canonical := by
  unfold State.canonical at *
  rw [hr, hd]
  exact ⟨h.1, hp, h.2.2⟩

theorem outKeeps_next {s : State} (h : s.canonical) : OutKeeps (.next s) := by
  intro t e
  cases e
  exact h

theorem outKeeps_ite {c : Prop} [Decidable c] {s t : Host.Outcome State Fault Refusal} (hs : OutKeeps s)
    (ht : OutKeeps t) : OutKeeps (if c then s else t) := by
  split <;> assumption

theorem optKeeps_none : OptKeeps none := by
  intro t e
  cases e

theorem optKeeps_some {s : State} (h : s.canonical) : OptKeeps (some s) := by
  intro t e
  cases e
  exact h

theorem optKeeps_ite {c : Prop} [Decidable c] {s t : Option State} (hs : OptKeeps s) (ht : OptKeeps t) :
    OptKeeps (if c then s else t) := by
  split <;> assumption

theorem optKeeps_map {o : Option State} {f : State → State} (hf : ∀ s, s.canonical → (f s).canonical) (h : OptKeeps o) :
    OptKeeps (o.map f) := by
  cases o with
  | none => exact optKeeps_none
  | some s => exact optKeeps_some (hf s (h s rfl))

theorem optKeeps_bind {o : Option State} {f : State → Option State} (hf : ∀ s, s.canonical → OptKeeps (f s))
    (h : OptKeeps o) : OptKeeps (o.bind f) := by
  cases o with
  | none => exact optKeeps_none
  | some s => exact hf s (h s rfl)

theorem optKeeps1_none {β : Type} : OptKeeps1 (none : Option (State × β)) := by
  intro t e
  cases e

theorem optKeeps1_some {β : Type} {p : State × β} (h : p.1.canonical) : OptKeeps1 (some p) := by
  intro t e
  cases e
  exact h

theorem optKeeps1_map {β γ : Type} {o : Option (State × β)} {f : State × β → State × γ}
    (hf : ∀ r, r.1.canonical → (f r).1.canonical) (h : OptKeeps1 o) : OptKeeps1 (o.map f) := by
  cases o with
  | none => exact optKeeps1_none
  | some r => exact optKeeps1_some (hf r (h r rfl))

theorem optKeeps1_ite {β : Type} {c : Prop} [Decidable c] {s t : Option (State × β)} (hs : OptKeeps1 s)
    (ht : OptKeeps1 t) : OptKeeps1 (if c then s else t) := by
  split <;> assumption

end Sys2Proof.Machine
end

