-- ==== Sys2Proof/Laws/CanonMemory.lean ====
section
/-! SUPPORT. The canonical form is kept by the functions and meanings of registers, time, shutters and the memory system: one lemma each. -/

namespace Sys2Proof.Machine

/-! ## Machine/Regs.lean -/

theorem setReg_canonical {s a v} (hs : s.canonical) :
    (@setReg s a v).canonical := by
  exact ⟨hs.1, hs.2.1, SMap.wf_set _ _ _ _ hs.2.2⟩

theorem resetRegs_canonical {s p} (hs : s.canonical) :
    (@resetRegs s p).canonical := by
  exact ⟨hs.1, hs.2.1, SMap.wf_clear _ _ _ hs.2.2⟩

theorem setFld_canonical {s a lo w x} (hs : s.canonical) :
    (@setFld s a lo w x).canonical := by
  unfold setFld
  repeat' first
     | with_reducible assumption | with_reducible apply setReg_canonical

theorem satAdd_canonical {s a lo w n} (hs : s.canonical) :
    (@satAdd s a lo w n).canonical := by
  unfold satAdd
  repeat' first
     | with_reducible assumption | with_reducible apply setFld_canonical

/-! ## Machine/Flags.lean -/

theorem flagClear_canonical {s a flag ovr setNow} (hs : s.canonical) :
    (@flagClear s a flag ovr setNow).canonical := by
  unfold flagClear
  repeat' first
     | with_reducible assumption | (extract_lets +onlyGivenNames y; subst y) | with_reducible apply setFld_canonical
     | with_reducible apply canonical_ite

theorem flagSet_canonical {s a flag ovr} (hs : s.canonical) :
    (@flagSet s a flag ovr).canonical := by
  unfold flagSet
  repeat' first
     | with_reducible assumption | with_reducible apply satAdd_canonical | with_reducible apply setFld_canonical
     | with_reducible apply canonical_ite

theorem errRecord_canonical {s p w} (hs : s.canonical) :
    (@errRecord s p w).canonical := by
  unfold errRecord
  repeat' first
     | with_reducible assumption | (extract_lets +onlyGivenNames y; subst y) | with_reducible apply satAdd_canonical
     | with_reducible apply setReg_canonical | with_reducible apply setFld_canonical
     | with_reducible apply canonical_ite

theorem recordEv_canonical {s code ctx unit d0 d1} (hs : s.canonical) :
    (@recordEv s code ctx unit d0 d1).canonical := by
  unfold recordEv
  repeat' first
     | with_reducible assumption | fail_if_no_progress with_reducible refine canonical_mk (canonical_fold ?_)

theorem violation_canonical {s q code addr} (hs : s.canonical) :
    (@violation s q code addr).canonical := by
  unfold violation
  repeat' first
     | with_reducible assumption
     | (extract_lets +onlyGivenNames y; refine canonical_cut y ?_ ?_; (on_goal 2 => intro _; clear_value y); subst y)
     | (extract_lets +onlyGivenNames y; subst y) | with_reducible apply satAdd_canonical
     | with_reducible apply setReg_canonical | with_reducible apply recordEv_canonical
     | with_reducible apply setFld_canonical | with_reducible apply canonical_ite
     | fail_if_no_progress with_reducible refine canonical_mk (canonical_fold ?_)

theorem powered_canonical {s t} (hs : s.canonical) (ht : t.canonical) :
    (@powered s t).canonical := by
  unfold powered
  repeat' first
     | with_reducible assumption | with_reducible apply canonical_ite

theorem takeFree_canonical {s} (hs : s.canonical) :
    (@takeFree s).2.canonical := by
  unfold takeFree
  repeat' first
     | with_reducible assumption | fail_if_no_progress with_reducible refine canonical_mk (canonical_fold ?_)

/-! ## Machine/Ops.lean -/

theorem perfTile_canonical {s t ctx engine event qual n} (hs : s.canonical) :
    (@perfTile s t ctx engine event qual n).canonical := by
  unfold perfTile
  repeat' first
     | with_reducible assumption | with_reducible intro _ | with_reducible apply satAdd_canonical
     | with_reducible apply canonical_ite | with_reducible apply canonical_foldl

theorem eccRecord_canonical {s t pa ue} (hs : s.canonical) :
    (@eccRecord s t pa ue).canonical := by
  unfold eccRecord
  repeat' first
     | with_reducible assumption
     | (extract_lets +onlyGivenNames y; refine canonical_cut y ?_ ?_; (on_goal 2 => intro _; clear_value y); subst y)
     | (extract_lets +onlyGivenNames y; subst y) | with_reducible apply satAdd_canonical
     | with_reducible apply setFld_canonical | with_reducible apply canonical_ite | split
     | fail_if_no_progress with_reducible refine canonical_mk (canonical_fold ?_)

theorem eccRead_canonical {s t pa len} (hs : s.canonical) :
    (@eccRead s t pa len).canonical := by
  unfold eccRead
  repeat' first
     | with_reducible assumption | with_reducible intro _ | (extract_lets +onlyGivenNames y; subst y)
     | with_reducible apply eccRecord_canonical | with_reducible apply canonical_ite
     | with_reducible apply canonical_foldl

theorem bwAdd_canonical {s p dir n} (hs : s.canonical) :
    (@bwAdd s p dir n).canonical := by
  unfold bwAdd
  repeat' first
     | with_reducible assumption | fail_if_no_progress with_reducible refine canonical_mk (canonical_fold ?_)

theorem perfMod_canonical {s ctx engine event qual n} (hs : s.canonical) :
    (@perfMod s ctx engine event qual n).canonical := by
  unfold perfMod
  repeat' first
     | with_reducible assumption | with_reducible intro _ | with_reducible apply satAdd_canonical
     | with_reducible apply canonical_ite | with_reducible apply canonical_foldl

theorem postCq_canonical {s e} (hs : s.canonical) :
    (@postCq s e).canonical := by
  unfold postCq
  repeat' first
     | with_reducible assumption
     | (extract_lets +onlyGivenNames y; refine canonical_cut y ?_ ?_; (on_goal 2 => intro _; clear_value y); subst y)
     | with_reducible apply satAdd_canonical | with_reducible apply bwAdd_canonical
     | with_reducible apply perfMod_canonical | with_reducible apply canonical_ite
     | fail_if_no_progress with_reducible refine canonical_mk (canonical_fold ?_)

theorem deliver_canonical {s c status w0 w1 w2} (hs : s.canonical) :
    (@deliver s c status w0 w1 w2).canonical := by
  unfold deliver
  repeat' first
     | with_reducible assumption | (extract_lets +onlyGivenNames y; subst y) | with_reducible apply postCq_canonical
     | split | fail_if_no_progress with_reducible refine canonical_mk (canonical_fold ?_)

theorem complete_canonical {s c status unit} (hs : s.canonical) :
    (@complete s c status unit).canonical := by
  unfold complete
  repeat' first
     | with_reducible assumption
     | (extract_lets +onlyGivenNames y; refine canonical_cut y ?_ ?_; (on_goal 2 => intro _; clear_value y); subst y)
     | (extract_lets +onlyGivenNames y; subst y) | with_reducible apply deliver_canonical
     | with_reducible apply errRecord_canonical | with_reducible apply canonical_ite
     | fail_if_no_progress with_reducible refine canonical_mk (canonical_fold ?_)

theorem completeId_canonical {s id status unit} (hs : s.canonical) :
    (@completeId s id status unit).canonical := by
  unfold completeId
  repeat' first
     | with_reducible assumption | with_reducible apply complete_canonical | split

theorem casAbort_canonical {s n final} (hs : s.canonical) :
    (@casAbort s n final).canonical := by
  unfold casAbort
  repeat' first
     | with_reducible assumption | with_reducible intro _
     | (extract_lets +onlyGivenNames y; refine canonical_cut y ?_ ?_; (on_goal 2 => intro _; clear_value y); subst y)
     | (extract_lets +onlyGivenNames y; subst y) | with_reducible apply setReg_canonical
     | with_reducible apply setFld_canonical | with_reducible apply completeId_canonical
     | with_reducible apply canonical_foldl | split
     | fail_if_no_progress with_reducible refine canonical_mk (canonical_fold ?_)

theorem showBuffer_canonical {t l s i} (hs : s.canonical) :
    (@showBuffer t l s i).canonical := by
  unfold showBuffer
  repeat' first
     | with_reducible assumption | (extract_lets +onlyGivenNames y; subst y) | with_reducible apply setFld_canonical
     | split

theorem setLv_canonical {s t l} (hs : s.canonical) :
    (@setLv s t l).canonical := by
  unfold setLv
  repeat' first
     | with_reducible assumption | with_reducible intro _ | with_reducible apply showBuffer_canonical
     | with_reducible apply canonical_foldl | fail_if_no_progress with_reducible refine canonical_mk (canonical_fold ?_)

theorem dropTiles_canonical {s n} (hs : s.canonical) :
    (@dropTiles s n).canonical := by
  unfold dropTiles
  repeat' first
     | with_reducible assumption | with_reducible intro _ | with_reducible apply setLv_canonical
     | with_reducible apply canonical_ite | with_reducible apply canonical_foldl

theorem idleStreams_canonical {st s n} (hs : s.canonical) :
    (@idleStreams st s n).canonical := by
  unfold idleStreams
  repeat' first
     | with_reducible assumption | with_reducible intro _ | (extract_lets +onlyGivenNames y; subst y)
     | with_reducible apply setFld_canonical | with_reducible apply canonical_ite | with_reducible apply canonical_foldl

theorem idleEngines_canonical {s n} (hs : s.canonical) :
    (@idleEngines s n).canonical := by
  unfold idleEngines
  repeat' first
     | with_reducible assumption | with_reducible intro _
     | (extract_lets +onlyGivenNames y; refine canonical_cut y ?_ ?_; (on_goal 2 => intro _; clear_value y); subst y)
     | (extract_lets +onlyGivenNames y; subst y) | with_reducible apply setFld_canonical
     | with_reducible apply canonical_ite | with_reducible apply canonical_foldl | split

theorem clearChainRegs_canonical {s n} (hs : s.canonical) :
    (@clearChainRegs s n).canonical := by
  unfold clearChainRegs
  repeat' first
     | with_reducible assumption | with_reducible intro _ | with_reducible apply setReg_canonical
     | with_reducible apply canonical_ite | with_reducible apply canonical_foldl | split

theorem abortTasks_canonical {s n} (hs : s.canonical) :
    (@abortTasks s n).canonical := by
  unfold abortTasks
  repeat' first
     | with_reducible assumption | with_reducible intro _
     | (extract_lets +onlyGivenNames y; refine canonical_cut y ?_ ?_; (on_goal 2 => intro _; clear_value y); subst y)
     | with_reducible apply dropTiles_canonical | with_reducible apply idleStreams_canonical
     | with_reducible apply idleEngines_canonical | with_reducible apply clearChainRegs_canonical
     | with_reducible apply setFld_canonical | with_reducible apply canonical_ite | with_reducible apply canonical_foldl
     | split | fail_if_no_progress with_reducible refine canonical_mk (canonical_fold ?_)

theorem setCtxState_canonical {s n x} (hs : s.canonical) :
    (@setCtxState s n x).canonical := by
  unfold setCtxState
  repeat' first
     | with_reducible assumption | with_reducible apply setFld_canonical

theorem ctxFault_canonical {s n unit} (hs : s.canonical) :
    (@ctxFault s n unit).canonical := by
  unfold ctxFault
  repeat' first
     | with_reducible assumption | with_reducible intro _
     | (extract_lets +onlyGivenNames y; refine canonical_cut y ?_ ?_; (on_goal 2 => intro _; clear_value y); subst y)
     | (extract_lets +onlyGivenNames y; subst y) | with_reducible apply casAbort_canonical
     | with_reducible apply abortTasks_canonical | with_reducible apply completeId_canonical
     | with_reducible apply setCtxState_canonical | with_reducible apply errRecord_canonical
     | with_reducible apply canonical_ite | with_reducible apply canonical_foldl

theorem tokSet_canonical {s t k n v} (hs : s.canonical) :
    (@tokSet s t k n v).canonical := by
  unfold tokSet
  repeat' first
     | with_reducible assumption | fail_if_no_progress with_reducible refine canonical_mk (canonical_fold ?_)

theorem setThreadState_canonical {s t h x} (hs : s.canonical) :
    (@setThreadState s t h x).canonical := by
  unfold setThreadState
  repeat' first
     | with_reducible assumption | with_reducible apply setFld_canonical

theorem threadRecord_canonical {s t h cause} (hs : s.canonical) :
    (@threadRecord s t h cause).canonical := by
  unfold threadRecord
  repeat' first
     | with_reducible assumption | with_reducible apply setFld_canonical | with_reducible apply setThreadState_canonical

theorem tokAdd_canonical {s t k n amount who} (hs : s.canonical) :
    (@tokAdd s t k n amount who).canonical := by
  unfold tokAdd
  repeat' first
     | with_reducible assumption
     | (extract_lets +onlyGivenNames y; refine canonical_cut y ?_ ?_; (on_goal 2 => intro _; clear_value y); subst y)
     | (extract_lets +onlyGivenNames y; subst y) | with_reducible apply tokSet_canonical
     | with_reducible apply threadRecord_canonical | with_reducible apply ctxFault_canonical
     | with_reducible apply canonical_ite | split

theorem tokDone_canonical {s t k n h} (hs : s.canonical) :
    (@tokDone s t k n h).canonical := by
  unfold tokDone
  repeat' first
     | with_reducible assumption | with_reducible apply tokAdd_canonical | with_reducible apply canonical_ite

theorem accSet_canonical {s t row col v} (hs : s.canonical) :
    (@accSet s t row col v).canonical := by
  unfold accSet
  repeat' first
     | with_reducible assumption | fail_if_no_progress with_reducible refine canonical_mk (canonical_fold ?_)

theorem accSetRow_canonical {s t row vs} (hs : s.canonical) :
    (@accSetRow s t row vs).canonical := by
  unfold accSetRow
  repeat' first
     | with_reducible assumption | with_reducible intro _ | with_reducible apply accSet_canonical
     | with_reducible apply canonical_foldl

theorem bump_canonical {s k} (hs : s.canonical) :
    (@bump s k).canonical := by
  unfold bump
  repeat' first
     | with_reducible assumption | fail_if_no_progress with_reducible refine canonical_mk (canonical_fold ?_)

theorem setMark_canonical {s t g m} (hs : s.canonical) :
    (@setMark s t g m).canonical := by
  unfold setMark
  repeat' first
     | with_reducible assumption | fail_if_no_progress with_reducible refine canonical_mk (canonical_fold ?_)

theorem setPred_canonical {s t h p v} (hs : s.canonical) :
    (@setPred s t h p v).canonical := by
  unfold setPred
  repeat' first
     | with_reducible assumption | (extract_lets +onlyGivenNames y; subst y) | with_reducible apply canonical_ite
     | split | fail_if_no_progress with_reducible refine canonical_mk (canonical_fold ?_)

theorem tqPop_canonical {s t q} (hs : s.canonical) :
    (@tqPop s t q).canonical := by
  unfold tqPop
  repeat' first
     | with_reducible assumption
     | (extract_lets +onlyGivenNames y; refine canonical_cut y ?_ ?_; (on_goal 2 => intro _; clear_value y); subst y)
     | with_reducible apply setFld_canonical
     | fail_if_no_progress with_reducible refine canonical_mk (canonical_fold ?_)

theorem threadFault_canonical {s t h cause} (hs : s.canonical) :
    (@threadFault s t h cause).canonical := by
  unfold threadFault
  repeat' first
     | with_reducible assumption
     | (extract_lets +onlyGivenNames y; refine canonical_cut y ?_ ?_; (on_goal 2 => intro _; clear_value y); subst y)
     | (extract_lets +onlyGivenNames y; subst y) | with_reducible apply ctxFault_canonical
     | with_reducible apply threadRecord_canonical | with_reducible apply canonical_ite
     | fail_if_no_progress with_reducible refine canonical_mk (canonical_fold ?_)

theorem lateFault_canonical {s t h n cause} (hs : s.canonical) :
    (@lateFault s t h n cause).canonical := by
  unfold lateFault
  repeat' first
     | with_reducible assumption | with_reducible apply threadRecord_canonical | with_reducible apply setFld_canonical
     | with_reducible apply canonical_ite

theorem engineFaultOp_canonical {s t h n cause} (hs : s.canonical) :
    (@engineFaultOp s t h n cause).canonical := by
  unfold engineFaultOp
  repeat' first
     | with_reducible assumption | with_reducible apply threadFault_canonical | with_reducible apply lateFault_canonical
     | with_reducible apply ctxFault_canonical | with_reducible apply canonical_ite | split

theorem accZero_canonical {s t lo hi} (hs : s.canonical) :
    (@accZero s t lo hi).canonical := by
  unfold accZero
  repeat' first
     | with_reducible assumption | fail_if_no_progress with_reducible refine canonical_mk (canonical_fold ?_)

theorem spMerge_canonical {s t pa bs poison count} (hs : s.canonical) :
    (@spMerge s t pa bs poison count).canonical := by
  unfold spMerge
  extract_lets len y
  have hy : y.canonical := by
    subst y
    repeat' first
     | with_reducible assumption | with_reducible intro _
     | (extract_lets +onlyGivenNames y; refine canonical_cut y ?_ ?_; (on_goal 2 => intro _; clear_value y); subst y)
     | (extract_lets +onlyGivenNames y; subst y) | with_reducible apply eccRecord_canonical
     | with_reducible apply setMark_canonical | with_reducible apply canonical_ite
     | with_reducible apply canonical_foldl
  exact ⟨hy.1, SMap.wf_foldl (fun m e h => SMap.wf_set _ _ _ _ h) hy.2.1, hy.2.2⟩

theorem spWrite_canonical {s t pa bs poison} (hs : s.canonical) :
    (@spWrite s t pa bs poison).canonical := by
  unfold spWrite
  repeat' first
     | with_reducible assumption | with_reducible apply spMerge_canonical

theorem tqPush_canonical {s t q bs poison} (hs : s.canonical) :
    (@tqPush s t q bs poison).canonical := by
  unfold tqPush
  repeat' first
     | with_reducible assumption
     | (extract_lets +onlyGivenNames y; refine canonical_cut y ?_ ?_; (on_goal 2 => intro _; clear_value y); subst y)
     | with_reducible apply spWrite_canonical | with_reducible apply setFld_canonical

theorem setGreg_canonical {s t h r v} (hs : s.canonical) :
    (@setGreg s t h r v).canonical := by
  unfold setGreg
  repeat' first
     | with_reducible assumption | with_reducible apply canonical_ite
     | fail_if_no_progress with_reducible refine canonical_mk (canonical_fold ?_)

theorem startThread_canonical {s t h k pc g1} (hs : s.canonical) :
    (@startThread s t h k pc g1).canonical := by
  unfold startThread
  repeat' first
     | with_reducible assumption
     | (extract_lets +onlyGivenNames y; refine canonical_cut y ?_ ?_; (on_goal 2 => intro _; clear_value y); subst y)
     | (extract_lets +onlyGivenNames y; subst y) | with_reducible apply setGreg_canonical
     | with_reducible apply setReg_canonical
     | fail_if_no_progress with_reducible refine canonical_mk (canonical_fold ?_)

theorem spZero_canonical {s t lo hi} (hs : s.canonical) :
    (@spZero s t lo hi).canonical := by
  unfold spZero
  repeat' first
     | with_reducible assumption | with_reducible apply spWrite_canonical

theorem spStamp_canonical {s t pa len} (hs : s.canonical) : (@spStamp s t pa len).canonical :=
  canonical_mk (canonical_fold hs)

theorem spOrdered_canonical {s t pa bs poison ser} (hs : s.canonical) :
    (@spOrdered s t pa bs poison ser).canonical := by
  unfold spOrdered
  repeat' first
     | with_reducible assumption | with_reducible intro _
     | (extract_lets +onlyGivenNames y; refine canonical_cut y ?_ ?_; (on_goal 2 => intro _; clear_value y); subst y)
     | (extract_lets +onlyGivenNames y; subst y) | with_reducible apply spWrite_canonical
     | with_reducible apply canonical_foldl | split
     | fail_if_no_progress with_reducible refine canonical_mk (canonical_fold ?_)

theorem ownStrms_canonical {s t base n k} (hs : s.canonical) :
    (@ownStrms s t base n k).canonical := by
  unfold ownStrms
  repeat' first
     | with_reducible assumption | with_reducible intro _ | with_reducible apply setFld_canonical
     | with_reducible apply canonical_foldl

/-! ## Machine/Routes.lean -/

theorem loseBeat_canonical {s i} (hs : s.canonical) :
    (@loseBeat s i).canonical := by
  unfold loseBeat
  repeat' first
     | with_reducible assumption | split | fail_if_no_progress with_reducible refine canonical_mk (canonical_fold ?_)

theorem loseAt_canonical {s b i u} (hs : s.canonical) :
    (@loseAt s b i u).canonical := by
  unfold loseAt
  repeat' first
     | with_reducible assumption
     | (extract_lets +onlyGivenNames y; refine canonical_cut y ?_ ?_; (on_goal 2 => intro _; clear_value y); subst y)
     | with_reducible apply loseBeat_canonical
     | fail_if_no_progress with_reducible refine canonical_mk (canonical_fold ?_)

theorem poisonBeat_canonical {s b i u} (hs : s.canonical) :
    (@poisonBeat s b i u).canonical := by
  unfold poisonBeat
  repeat' first
     | with_reducible assumption | fail_if_no_progress with_reducible refine canonical_mk (canonical_fold ?_)

/-! ## Machine/Time.lean -/

theorem correct_canonical {s d} (hs : s.canonical) :
    (@correct s d).canonical := by
  unfold correct
  repeat' first
     | with_reducible assumption | (extract_lets +onlyGivenNames y; subst y) | split
     | fail_if_no_progress with_reducible refine canonical_mk (canonical_fold ?_)

theorem advanceRegion_canonical {d s r} (hs : s.canonical) :
    (@advanceRegion d s r).canonical := by
  unfold advanceRegion
  repeat' first
     | with_reducible assumption
     | (extract_lets +onlyGivenNames y; refine canonical_cut y ?_ ?_; (on_goal 2 => intro _; clear_value y); subst y)
     | (extract_lets +onlyGivenNames y; subst y) | with_reducible apply setReg_canonical
     | with_reducible apply canonical_ite | split
     | fail_if_no_progress with_reducible refine canonical_mk (canonical_fold ?_)

theorem advance_canonical {s d} (hs : s.canonical) :
    (@advance s d).canonical := by
  unfold advance
  repeat' first
     | with_reducible assumption | with_reducible intro _
     | (extract_lets +onlyGivenNames y; refine canonical_cut y ?_ ?_; (on_goal 2 => intro _; clear_value y); subst y)
     | with_reducible apply advanceRegion_canonical | with_reducible apply setReg_canonical
     | with_reducible apply correct_canonical | with_reducible apply canonical_ite
     | with_reducible apply canonical_foldl

theorem advancePeriod_canonical {s r target} (hs : s.canonical) :
    (@advancePeriod s r target).canonical := by
  unfold advancePeriod
  repeat' first
     | with_reducible assumption | (extract_lets +onlyGivenNames y; subst y) | with_reducible apply advance_canonical
     | with_reducible apply canonical_ite

theorem advanceUnc_canonical {s target} (hs : s.canonical) :
    (@advanceUnc s target).canonical := by
  unfold advanceUnc
  repeat' first
     | with_reducible assumption | with_reducible apply advancePeriod_canonical

theorem advanceTo_canonical {s ns} (hs : s.canonical) :
    (@advanceTo s ns).canonical := by
  unfold advanceTo
  repeat' first
     | with_reducible assumption | with_reducible apply advance_canonical

/-! ## Machine/Shutter.lean -/

theorem execAdaptiveStretch_canonical {region eighths s} (hs : s.canonical) :
    OutKeeps (@execAdaptiveStretch region eighths s) := by
  unfold execAdaptiveStretch
  repeat' first
     | with_reducible assumption
     | (extract_lets +onlyGivenNames y; refine canonical_cut y ?_ ?_; (on_goal 2 => intro _; clear_value y); subst y)
     | (extract_lets +onlyGivenNames y; subst y) | with_reducible apply powered_canonical
     | with_reducible apply satAdd_canonical | with_reducible apply canonical_ite | with_reducible apply outKeeps_next
     | fail_if_no_progress with_reducible refine canonical_mk (canonical_fold ?_)

theorem setShutState_canonical {s h x} (hs : s.canonical) :
    (@setShutState s h x).canonical := by
  unfold setShutState
  repeat' first
     | with_reducible assumption | with_reducible apply setFld_canonical

theorem setShut_canonical {s h c} (hs : s.canonical) :
    (@setShut s h c).canonical := by
  unfold setShut
  repeat' first
     | with_reducible assumption | with_reducible apply setFld_canonical
     | fail_if_no_progress with_reducible refine canonical_mk (canonical_fold ?_)

theorem shutRaise_canonical {s r cause src} (hs : s.canonical) :
    (@shutRaise s r cause src).canonical := by
  unfold shutRaise
  repeat' first
     | with_reducible assumption
     | (extract_lets +onlyGivenNames y; refine canonical_cut y ?_ ?_; (on_goal 2 => intro _; clear_value y); subst y)
     | (extract_lets +onlyGivenNames y; subst y) | with_reducible apply setShutState_canonical
     | with_reducible apply setShut_canonical | with_reducible apply canonical_ite

theorem skewCheck_canonical {s r c} (hs : s.canonical) :
    (@skewCheck s r c).canonical := by
  unfold skewCheck
  repeat' first
     | with_reducible assumption | with_reducible apply shutRaise_canonical | with_reducible apply canonical_ite

theorem charge_canonical {h s x} (hs : s.canonical) :
    (@charge h s x).canonical := by
  unfold charge
  repeat' first
     | with_reducible assumption | with_reducible intro _
     | (extract_lets +onlyGivenNames y; refine canonical_cut y ?_ ?_; (on_goal 2 => intro _; clear_value y); subst y)
     | (extract_lets +onlyGivenNames y; subst y) | with_reducible apply satAdd_canonical
     | with_reducible apply canonical_ite | with_reducible apply canonical_foldl
     | fail_if_no_progress with_reducible refine canonical_mk (canonical_fold ?_)

theorem skewClear_canonical {s rs} (hs : s.canonical) :
    (@skewClear s rs).canonical := by
  unfold skewClear
  repeat' first
     | with_reducible assumption | fail_if_no_progress with_reducible refine canonical_mk (canonical_fold ?_)

theorem execShutterOpen_canonical {r s} (hs : s.canonical) :
    OutKeeps (@execShutterOpen r s) := by
  unfold execShutterOpen
  repeat' first
     | with_reducible assumption | with_reducible intro _
     | (extract_lets +onlyGivenNames y; refine canonical_cut y ?_ ?_; (on_goal 2 => intro _; clear_value y); subst y)
     | (extract_lets +onlyGivenNames y; subst y) | with_reducible apply advancePeriod_canonical
     | with_reducible apply setReg_canonical | with_reducible apply charge_canonical
     | with_reducible apply setShutState_canonical | with_reducible apply setShut_canonical
     | with_reducible apply skewClear_canonical | with_reducible apply canonical_ite
     | with_reducible apply canonical_foldl | with_reducible apply outKeeps_next

theorem shutDropAt_canonical {s h p at'} (hs : s.canonical) :
    (@shutDropAt s h p at').canonical := by
  unfold shutDropAt
  repeat' first
     | with_reducible assumption
     | (extract_lets +onlyGivenNames y; refine canonical_cut y ?_ ?_; (on_goal 2 => intro _; clear_value y); subst y)
     | (extract_lets +onlyGivenNames y; subst y) | with_reducible apply setShut_canonical
     | with_reducible apply setShutState_canonical | with_reducible apply canonical_ite

theorem expireAt_canonical {r c s h} (hs : s.canonical) :
    (@expireAt r c s h).canonical := by
  unfold expireAt
  repeat' first
     | with_reducible assumption | with_reducible apply shutDropAt_canonical
     | with_reducible apply advancePeriod_canonical | split

theorem execSkewHoldExpire_canonical {r c s} (hs : s.canonical) :
    OutKeeps (@execSkewHoldExpire r c s) := by
  unfold execSkewHoldExpire
  repeat' first
     | with_reducible assumption | with_reducible intro _ | with_reducible apply expireAt_canonical
     | with_reducible apply canonical_foldl | with_reducible apply outKeeps_next

theorem preSwitchAll_canonical {s} (hs : s.canonical) :
    (@preSwitchAll s).canonical := by
  unfold preSwitchAll
  repeat' first
     | with_reducible assumption | with_reducible intro _ | with_reducible apply skewCheck_canonical
     | with_reducible apply canonical_foldl | fail_if_no_progress with_reducible refine canonical_mk (canonical_fold ?_)

theorem freezeRings_canonical {s h} (hs : s.canonical) :
    (@freezeRings s h).canonical := by
  unfold freezeRings
  repeat' first
     | with_reducible assumption | with_reducible intro _ | with_reducible apply canonical_foldl
     | fail_if_no_progress with_reducible refine canonical_mk (canonical_fold ?_)

theorem shutDrop_canonical {s h p} (hs : s.canonical) :
    (@shutDrop s h p).canonical := by
  unfold shutDrop
  repeat' first
     | with_reducible assumption | with_reducible apply shutDropAt_canonical

theorem shutWithdraw_canonical {s r cause src} (hs : s.canonical) :
    (@shutWithdraw s r cause src).canonical := by
  unfold shutWithdraw
  repeat' first
     | with_reducible assumption | with_reducible apply shutDrop_canonical

theorem execShutterFreeze_canonical {r s} (hs : s.canonical) :
    OutKeeps (@execShutterFreeze r s) := by
  unfold execShutterFreeze
  repeat' first
     | with_reducible assumption
     | (extract_lets +onlyGivenNames y; refine canonical_cut y ?_ ?_; (on_goal 2 => intro _; clear_value y); subst y)
     | (extract_lets +onlyGivenNames y; subst y) | with_reducible apply freezeRings_canonical
     | with_reducible apply advancePeriod_canonical | with_reducible apply satAdd_canonical
     | with_reducible apply setShutState_canonical | with_reducible apply canonical_ite
     | with_reducible apply outKeeps_next

theorem execSkewHold_canonical {r c s} (hs : s.canonical) :
    OutKeeps (@execSkewHold r c s) := by
  unfold execSkewHold
  repeat' first
     | with_reducible assumption | with_reducible apply powered_canonical | with_reducible apply skewCheck_canonical
     | with_reducible apply outKeeps_next

/-! ## Machine/MemSys.lean -/

theorem countNow_canonical {s g k} (hs : s.canonical) :
    (@countNow s g k).canonical := by
  unfold countNow
  repeat' first
     | with_reducible assumption | with_reducible apply satAdd_canonical

theorem pinAdjust_canonical {s g old new n} (hs : s.canonical) :
    (@pinAdjust s g old new n).canonical := by
  unfold pinAdjust
  repeat' first
     | with_reducible assumption
     | (extract_lets +onlyGivenNames y; refine canonical_cut y ?_ ?_; (on_goal 2 => intro _; clear_value y); subst y)
     | (extract_lets +onlyGivenNames y; subst y) | with_reducible apply setFld_canonical
     | with_reducible apply canonical_ite

theorem setGrp_canonical {s g x} (hs : s.canonical) :
    (@setGrp s g x).canonical := by
  unfold setGrp
  repeat' first
     | with_reducible assumption
     | (extract_lets +onlyGivenNames y; refine canonical_cut y ?_ ?_; (on_goal 2 => intro _; clear_value y); subst y)
     | (extract_lets +onlyGivenNames y; subst y) | with_reducible apply pinAdjust_canonical
     | with_reducible apply canonical_ite | fail_if_no_progress with_reducible refine canonical_mk (canonical_fold ?_)

theorem raiseClass_canonical {s g n cls keepN gen} (hs : s.canonical) :
    (@raiseClass s g n cls keepN gen).canonical := by
  unfold raiseClass
  repeat' first
     | with_reducible assumption
     | (extract_lets +onlyGivenNames y; refine canonical_cut y ?_ ?_; (on_goal 2 => intro _; clear_value y); subst y)
     | (extract_lets +onlyGivenNames y; subst y) | with_reducible apply satAdd_canonical
     | with_reducible apply setGrp_canonical | with_reducible apply canonical_ite
     | fail_if_no_progress with_reducible refine canonical_mk (canonical_fold ?_)

theorem dropGroup_canonical {s g} (hs : s.canonical) :
    (@dropGroup s g).canonical := by
  unfold dropGroup
  repeat' first
     | with_reducible assumption | with_reducible apply setGrp_canonical

theorem tagBurst_canonical {s g dir} (hs : s.canonical) :
    (@tagBurst s g dir).canonical := by
  unfold tagBurst
  repeat' first
     | with_reducible assumption | (extract_lets +onlyGivenNames y; subst y) | with_reducible apply perfMod_canonical
     | with_reducible apply bwAdd_canonical

theorem touchTag_canonical {s g write} (hs : s.canonical) :
    (@touchTag s g write).canonical := by
  unfold touchTag
  repeat' first
     | with_reducible assumption
     | (extract_lets +onlyGivenNames y; refine canonical_cut y ?_ ?_; (on_goal 2 => intro _; clear_value y); subst y)
     | (extract_lets +onlyGivenNames y; subst y) | with_reducible apply tagBurst_canonical
     | with_reducible apply perfMod_canonical | with_reducible apply canonical_ite
     | fail_if_no_progress with_reducible refine canonical_mk (canonical_fold ?_)

theorem storeGroup_canonical {s g x fresh} (hs : s.canonical) :
    (@storeGroup s g x fresh).canonical := by
  unfold storeGroup
  extract_lets dram y
  have hy : y.canonical := by
    refine canonical_dram hs ?_ rfl rfl
    refine SMap.wf_foldl (fun m e h => ?_) hs.1
    split
    · exact SMap.wf_set _ _ _ _ h
    · exact h
  clear_value y
  repeat' first
     | with_reducible assumption | with_reducible apply bwAdd_canonical | with_reducible apply perfMod_canonical
     | with_reducible apply touchTag_canonical | with_reducible apply canonical_ite
     | fail_if_no_progress with_reducible refine canonical_mk (canonical_fold ?_)

theorem linkCounts_canonical {s g rep} (hs : s.canonical) :
    (@linkCounts s g rep).canonical := by
  unfold linkCounts
  repeat' first
     | with_reducible assumption
     | (extract_lets +onlyGivenNames y; refine canonical_cut y ?_ ?_; (on_goal 2 => intro _; clear_value y); subst y)
     | (extract_lets +onlyGivenNames y; subst y) | with_reducible apply touchTag_canonical
     | with_reducible apply satAdd_canonical | with_reducible apply bwAdd_canonical
     | with_reducible apply perfMod_canonical

theorem failCheck_canonical {s g} (hs : s.canonical) :
    (@failCheck s g).canonical := by
  unfold failCheck
  repeat' first
     | with_reducible assumption
     | (extract_lets +onlyGivenNames y; refine canonical_cut y ?_ ?_; (on_goal 2 => intro _; clear_value y); subst y)
     | (extract_lets +onlyGivenNames y; subst y) | with_reducible apply setGrp_canonical
     | with_reducible apply satAdd_canonical | with_reducible apply canonical_ite
     | fail_if_no_progress with_reducible refine canonical_mk (canonical_fold ?_)

theorem fillCheck_canonical {s g rep} (hs : s.canonical) :
    (@fillCheck s g rep).canonical := by
  unfold fillCheck
  repeat' first
     | with_reducible assumption | (extract_lets +onlyGivenNames y; subst y) | with_reducible apply satAdd_canonical
     | with_reducible apply setGrp_canonical | with_reducible apply failCheck_canonical
     | with_reducible apply canonical_ite | split

theorem fetchGroup_canonical {s g} (hs : s.canonical) :
    (@fetchGroup s g).1.canonical := by
  unfold fetchGroup
  repeat' first
     | with_reducible assumption
     | (extract_lets +onlyGivenNames y; refine canonical_cut y ?_ ?_; (on_goal 2 => intro _; clear_value y); subst y)
     | (extract_lets +onlyGivenNames y; subst y) | with_reducible apply linkCounts_canonical
     | with_reducible apply fillCheck_canonical | with_reducible apply canonical_ite_fst
     | fail_if_no_progress with_reducible refine canonical_mk (canonical_fold ?_)

theorem writeBack_canonical {s g} (hs : s.canonical) :
    (@writeBack s g).canonical := by
  unfold writeBack
  repeat' first
     | with_reducible assumption | (extract_lets +onlyGivenNames y; subst y) | with_reducible apply storeGroup_canonical
     | with_reducible apply fetchGroup_canonical | with_reducible apply canonical_ite
     | with_reducible refine pair1_canonical (by assumption) ?_ | split

theorem allocate_canonical {s g n tensor} (hs : s.canonical) :
    OptKeeps (@allocate s g n tensor) := by
  unfold allocate
  repeat' first
     | with_reducible assumption | (extract_lets +onlyGivenNames y; subst y) | with_reducible apply setGrp_canonical
     | with_reducible apply dropGroup_canonical | with_reducible apply writeBack_canonical
     | with_reducible apply optKeeps_some | with_reducible apply optKeeps_none | with_reducible apply optKeeps_ite
     | split

theorem takeWay_canonical {s g n} (hs : s.canonical) :
    (@takeWay s g n).canonical := by
  unfold takeWay
  repeat' first
     | with_reducible assumption | (extract_lets +onlyGivenNames y; subst y) | with_reducible apply allocate_canonical
     | with_reducible apply setGrp_canonical | with_reducible refine opt_canonical (by assumption) ?_ | split

theorem endWay_canonical {s g} (hs : s.canonical) :
    (@endWay s g).canonical := by
  unfold endWay
  repeat' first
     | with_reducible assumption | with_reducible apply dropGroup_canonical | with_reducible apply writeBack_canonical
     | with_reducible apply canonical_ite

theorem storePart_canonical {s n pa bs cls poison} (hs : s.canonical) :
    (@storePart s n pa bs cls poison).canonical := by
  unfold storePart
  repeat' first
     | with_reducible assumption
     | (extract_lets +onlyGivenNames y; refine canonical_cut y ?_ ?_; (on_goal 2 => intro _; clear_value y); subst y)
     | (extract_lets +onlyGivenNames y; subst y) | with_reducible apply raiseClass_canonical
     | with_reducible apply takeWay_canonical | with_reducible apply countNow_canonical
     | with_reducible apply endWay_canonical | with_reducible apply setGrp_canonical

theorem storeVa_canonical {s n va bs cls} (hs : s.canonical) :
    (@storeVa s n va bs cls).canonical := by
  unfold storeVa
  repeat' first
     | with_reducible assumption | with_reducible intro _ | with_reducible apply storePart_canonical
     | with_reducible apply canonical_foldl

theorem hazard_canonical {s n code unit d0 d1} (hs : s.canonical) :
    (@hazard s n code unit d0 d1).canonical := by
  unfold hazard
  repeat' first
     | with_reducible assumption | with_reducible intro _
     | (extract_lets +onlyGivenNames y; refine canonical_cut y ?_ ?_; (on_goal 2 => intro _; clear_value y); subst y)
     | (extract_lets +onlyGivenNames y; subst y) | with_reducible apply storeVa_canonical
     | with_reducible apply setFld_canonical | with_reducible apply shutRaise_canonical
     | with_reducible apply canonical_ite | with_reducible apply canonical_foldl

theorem pendingHazard_canonical {s n gen pa w} (hs : s.canonical) :
    (@pendingHazard s n gen pa w).canonical := by
  unfold pendingHazard
  repeat' first
     | with_reducible assumption | with_reducible apply hazard_canonical | with_reducible apply canonical_ite

theorem portBeats_canonical {s pa n} (hs : s.canonical) :
    (@portBeats s pa n).canonical := by
  unfold portBeats
  repeat' first
     | with_reducible assumption | (extract_lets +onlyGivenNames y; subst y) | with_reducible apply perfMod_canonical
     | with_reducible apply bwAdd_canonical

theorem setStrm_canonical {s t n x} (hs : s.canonical) :
    (@setStrm s t n x).canonical := by
  unfold setStrm
  repeat' first
     | with_reducible assumption
     | (extract_lets +onlyGivenNames y; refine canonical_cut y ?_ ?_; (on_goal 2 => intro _; clear_value y); subst y)
     | with_reducible apply bump_canonical | with_reducible apply canonical_ite
     | fail_if_no_progress with_reducible refine canonical_mk (canonical_fold ?_)

theorem putStrm_canonical {s t n x} (hs : s.canonical) :
    (@putStrm s t n x).canonical := by
  unfold putStrm
  repeat' first
     | with_reducible assumption | with_reducible apply setFld_canonical | with_reducible apply setStrm_canonical

theorem portFree_canonical {s p} (hs : s.canonical) :
    (@portFree s p).canonical := by
  unfold portFree
  repeat' first
     | with_reducible assumption | fail_if_no_progress with_reducible refine canonical_mk (canonical_fold ?_)

theorem captureRead_canonical {s t n va p gen bs mark} (hs : s.canonical) :
    (@captureRead s t n va p gen bs mark).canonical := by
  unfold captureRead
  repeat' first
     | with_reducible assumption | (extract_lets +onlyGivenNames y; subst y) | with_reducible apply putStrm_canonical
     | with_reducible apply portFree_canonical | with_reducible apply canonical_ite | split

theorem handLine_canonical {s q bs mark} (hs : s.canonical) :
    (@handLine s q bs mark).canonical := by
  unfold handLine
  repeat' first
     | with_reducible assumption | (extract_lets +onlyGivenNames y; subst y)
     | with_reducible apply captureRead_canonical | split
     | fail_if_no_progress with_reducible refine canonical_mk (canonical_fold ?_)

theorem deliverMerge_canonical {s m held} (hs : s.canonical) :
    (@deliverMerge s m held).canonical := by
  unfold deliverMerge
  repeat' first
     | with_reducible assumption | with_reducible intro _
     | (extract_lets +onlyGivenNames y; refine canonical_cut y ?_ ?_; (on_goal 2 => intro _; clear_value y); subst y)
     | (extract_lets +onlyGivenNames y; subst y) | with_reducible apply portBeats_canonical
     | with_reducible apply handLine_canonical | with_reducible apply canonical_foldl

theorem execMergeSplit_canonical {slice i s} (hs : s.canonical) :
    OutKeeps (@execMergeSplit slice i s) := by
  unfold execMergeSplit
  repeat' first
     | with_reducible assumption
     | (extract_lets +onlyGivenNames y; refine canonical_cut y ?_ ?_; (on_goal 2 => intro _; clear_value y); subst y)
     | with_reducible apply advanceUnc_canonical | with_reducible apply deliverMerge_canonical
     | with_reducible apply canonical_ite | with_reducible apply outKeeps_next | split
     | fail_if_no_progress with_reducible refine canonical_mk (canonical_fold ?_)

theorem execRefresh_canonical {stack s} (hs : s.canonical) :
    OutKeeps (@execRefresh stack s) := by
  unfold execRefresh
  repeat' first
     | with_reducible assumption | with_reducible apply powered_canonical | with_reducible apply perfMod_canonical
     | with_reducible apply outKeeps_next

theorem addWaiter_canonical {s g q} (hs : s.canonical) :
    (@addWaiter s g q).canonical := by
  unfold addWaiter
  repeat' first
     | with_reducible assumption | with_reducible apply canonical_ite
     | fail_if_no_progress with_reducible refine canonical_mk (canonical_fold ?_)

theorem countPass_canonical {s g q} (hs : s.canonical) :
    (@countPass s g q).canonical := by
  unfold countPass
  repeat' first
     | with_reducible assumption | (extract_lets +onlyGivenNames y; subst y) | with_reducible apply setGrp_canonical
     | with_reducible apply canonical_ite

theorem access_canonical {s g q} (hs : s.canonical) :
    (@access s g q).canonical := by
  unfold access
  repeat' first
     | with_reducible assumption
     | (extract_lets +onlyGivenNames y; refine canonical_cut y ?_ ?_; (on_goal 2 => intro _; clear_value y); subst y)
     | (extract_lets +onlyGivenNames y; subst y) | with_reducible apply raiseClass_canonical
     | with_reducible apply countPass_canonical | with_reducible apply setGrp_canonical
     | with_reducible apply canonical_ite

theorem countHit_canonical {s q hit} (hs : s.canonical) :
    (@countHit s q hit).canonical := by
  unfold countHit
  repeat' first
     | with_reducible assumption | (extract_lets +onlyGivenNames y; subst y) | with_reducible apply perfMod_canonical
     | with_reducible apply satAdd_canonical

theorem keepDsp_canonical {s n j} (hs : s.canonical) :
    (@keepDsp s n j).canonical := by
  unfold keepDsp
  repeat' first
     | with_reducible assumption | fail_if_no_progress with_reducible refine canonical_mk (canonical_fold ?_)

theorem redFault_canonical {s n code} (hs : s.canonical) :
    (@redFault s n code).canonical := by
  unfold redFault
  repeat' first
     | with_reducible assumption | with_reducible apply ctxFault_canonical | with_reducible apply setFld_canonical

theorem keepRed_canonical {s n j} (hs : s.canonical) :
    (@keepRed s n j).canonical := by
  unfold keepRed
  repeat' first
     | with_reducible assumption | (extract_lets +onlyGivenNames y; subst y) | with_reducible apply setFld_canonical
     | fail_if_no_progress with_reducible refine canonical_mk (canonical_fold ?_)

theorem countFill_canonical {s n tensor vas} (hs : s.canonical) :
    (@countFill s n tensor vas).canonical := by
  unfold countFill
  repeat' first
     | with_reducible assumption
     | (extract_lets +onlyGivenNames y; refine canonical_cut y ?_ ?_; (on_goal 2 => intro _; clear_value y); subst y)
     | (extract_lets +onlyGivenNames y; subst y) | with_reducible apply keepDsp_canonical
     | with_reducible apply redFault_canonical | with_reducible apply keepRed_canonical
     | with_reducible apply canonical_ite | split

theorem landBytes_canonical {s q t bytes pads bad va} (hs : s.canonical) :
    (@landBytes s q t bytes pads bad va).canonical := by
  unfold landBytes
  repeat' first
     | with_reducible assumption | with_reducible intro _
     | (extract_lets +onlyGivenNames y; refine canonical_cut y ?_ ?_; (on_goal 2 => intro _; clear_value y); subst y)
     | (extract_lets +onlyGivenNames y; subst y) | with_reducible apply countFill_canonical
     | with_reducible apply hazard_canonical | with_reducible apply setGrp_canonical
     | with_reducible apply canonical_foldl | fail_if_no_progress with_reducible refine canonical_mk (canonical_fold ?_)

theorem serveWrite_canonical {s q t bytes pads bad va} (hs : s.canonical) :
    OptKeeps (@serveWrite s q t bytes pads bad va) := by
  unfold serveWrite
  repeat' first
     | with_reducible assumption
     | (extract_lets +onlyGivenNames y; refine canonical_cut y ?_ ?_; (on_goal 2 => intro _; clear_value y); subst y)
     | (extract_lets +onlyGivenNames y; subst y) | with_reducible apply addWaiter_canonical
     | with_reducible apply pendingHazard_canonical | with_reducible apply allocate_canonical
     | with_reducible apply access_canonical | with_reducible apply countHit_canonical
     | with_reducible apply landBytes_canonical | with_reducible apply optKeeps_some
     | with_reducible apply optKeeps_none | with_reducible refine opt_canonical (by assumption) ?_ | split

theorem deliverLine_canonical {s q bs mark} (hs : s.canonical) :
    (@deliverLine s q bs mark).canonical := by
  unfold deliverLine
  repeat' first
     | with_reducible assumption | with_reducible apply handLine_canonical | with_reducible apply portBeats_canonical

theorem capture_canonical {s q bs mark} (hs : s.canonical) :
    (@capture s q bs mark).canonical := by
  unfold capture
  repeat' first
     | with_reducible assumption | with_reducible apply deliverLine_canonical | with_reducible apply canonical_ite
     | fail_if_no_progress with_reducible refine canonical_mk (canonical_fold ?_)

theorem serveRead_canonical {s q} (hs : s.canonical) :
    OptKeeps (@serveRead s q) := by
  unfold serveRead
  repeat' first
     | with_reducible assumption
     | (extract_lets +onlyGivenNames y; refine canonical_cut y ?_ ?_; (on_goal 2 => intro _; clear_value y); subst y)
     | (extract_lets +onlyGivenNames y; subst y) | with_reducible apply access_canonical
     | with_reducible apply countHit_canonical | with_reducible apply capture_canonical
     | with_reducible apply allocate_canonical | with_reducible apply addWaiter_canonical
     | with_reducible apply optKeeps_some | with_reducible apply optKeeps_none | with_reducible apply optKeeps_ite
     | with_reducible refine opt_canonical (by assumption) ?_ | split

theorem serveMerge_canonical {s q} (hs : s.canonical) :
    OptKeeps (@serveMerge s q) := by
  unfold serveMerge
  repeat' first
     | with_reducible assumption
     | (extract_lets +onlyGivenNames y; refine canonical_cut y ?_ ?_; (on_goal 2 => intro _; clear_value y); subst y)
     | (extract_lets +onlyGivenNames y; subst y) | with_reducible apply satAdd_canonical
     | with_reducible apply serveRead_canonical | with_reducible apply perfMod_canonical
     | with_reducible apply access_canonical | with_reducible apply canonical_ite | with_reducible apply optKeeps_some
     | with_reducible apply optKeeps_ite | split
     | fail_if_no_progress with_reducible refine canonical_mk (canonical_fold ?_)

theorem serve_canonical {s q} (hs : s.canonical) :
    OptKeeps (@serve s q) := by
  unfold serve
  repeat' first
     | with_reducible assumption | (extract_lets +onlyGivenNames y; subst y) | with_reducible apply serveWrite_canonical
     | with_reducible apply perfMod_canonical | with_reducible apply bwAdd_canonical
     | with_reducible apply serveRead_canonical | with_reducible apply serveMerge_canonical
     | with_reducible apply optKeeps_ite | split

theorem execMergeDelivery_canonical {slice i s} (hs : s.canonical) :
    OutKeeps (@execMergeDelivery slice i s) := by
  unfold execMergeDelivery
  repeat' first
     | with_reducible assumption | with_reducible apply deliverMerge_canonical | with_reducible apply canonical_ite
     | with_reducible apply outKeeps_next | split
     | fail_if_no_progress with_reducible refine canonical_mk (canonical_fold ?_)

theorem newTable_canonical {s} (hs : s.canonical) :
    (@newTable s).2.canonical := by
  unfold newTable
  repeat' first
     | with_reducible assumption | fail_if_no_progress with_reducible refine canonical_mk (canonical_fold ?_)

theorem serveAhead_canonical {q a1 a2} (ha2 : a2.canonical) :
    (@serveAhead q a1 a2).canonical := by
  induction a1 generalizing a2 with
  | zero =>
    unfold serveAhead
    repeat' first
       | with_reducible assumption
  | succ f ih =>
    unfold serveAhead
    repeat' first
       | with_reducible assumption | (extract_lets +onlyGivenNames y; subst y) | with_reducible apply serve_canonical
       | with_reducible apply ih | with_reducible apply canonical_ite
       | with_reducible refine opt_canonical (by assumption) ?_ | split
       | fail_if_no_progress with_reducible refine canonical_mk (canonical_fold ?_)

theorem serveWaiter_canonical {ue s q} (hs : s.canonical) :
    (@serveWaiter ue s q).canonical := by
  unfold serveWaiter
  repeat' first
     | with_reducible assumption
     | (extract_lets +onlyGivenNames y; refine canonical_cut y ?_ ?_; (on_goal 2 => intro _; clear_value y); subst y)
     | (extract_lets +onlyGivenNames y; subst y) | with_reducible apply access_canonical
     | with_reducible apply countHit_canonical | with_reducible apply landBytes_canonical
     | with_reducible apply capture_canonical | split

theorem acceptWrites_canonical {s f} (hs : s.canonical) :
    (@acceptWrites s f).canonical := by
  unfold acceptWrites
  repeat' first
     | with_reducible assumption | with_reducible intro _
     | (extract_lets +onlyGivenNames y; refine canonical_cut y ?_ ?_; (on_goal 2 => intro _; clear_value y); subst y)
     | with_reducible apply serve_canonical | with_reducible apply serveWaiter_canonical
     | with_reducible apply canonical_foldl | with_reducible apply canonical_getD
     | fail_if_no_progress with_reducible refine canonical_mk (canonical_fold ?_)

theorem discardReq_canonical {s q} (hs : s.canonical) :
    (@discardReq s q).canonical := by
  unfold discardReq
  repeat' first
     | with_reducible assumption | (extract_lets +onlyGivenNames y; subst y) | with_reducible apply putStrm_canonical
     | with_reducible apply portFree_canonical | with_reducible apply canonical_ite | split

theorem discardWhere_canonical {s p} (hs : s.canonical) :
    (@discardWhere s p).canonical := by
  unfold discardWhere
  repeat' first
     | with_reducible assumption | with_reducible intro _
     | (extract_lets +onlyGivenNames y; refine canonical_cut y ?_ ?_; (on_goal 2 => intro _; clear_value y); subst y)
     | with_reducible apply discardReq_canonical | with_reducible apply canonical_foldl
     | fail_if_no_progress with_reducible refine canonical_mk (canonical_fold ?_)

theorem freeFrame_canonical {s f} (hs : s.canonical) :
    (@freeFrame s f).canonical := by
  unfold freeFrame
  repeat' first
     | with_reducible assumption | with_reducible intro _
     | (extract_lets +onlyGivenNames y; refine canonical_cut y ?_ ?_; (on_goal 2 => intro _; clear_value y); subst y)
     | with_reducible apply acceptWrites_canonical | with_reducible apply dropGroup_canonical
     | with_reducible apply discardWhere_canonical | with_reducible apply setFld_canonical
     | with_reducible apply canonical_foldl | fail_if_no_progress with_reducible refine canonical_mk (canonical_fold ?_)

theorem unmapPage_canonical {s n vpn} (hs : s.canonical) :
    (@unmapPage s n vpn).canonical := by
  unfold unmapPage
  repeat' first
     | with_reducible assumption
     | (extract_lets +onlyGivenNames y; refine canonical_cut y ?_ ?_; (on_goal 2 => intro _; clear_value y); subst y)
     | (extract_lets +onlyGivenNames y; subst y) | with_reducible apply freeFrame_canonical
     | with_reducible apply canonical_ite | split
     | fail_if_no_progress with_reducible refine canonical_mk (canonical_fold ?_)

theorem unmapPages_canonical {s n vpn pages} (hs : s.canonical) :
    (@unmapPages s n vpn pages).canonical := by
  unfold unmapPages
  repeat' first
     | with_reducible assumption | with_reducible intro _ | with_reducible apply unmapPage_canonical
     | with_reducible apply canonical_foldl

theorem completeFill_canonical {s f rep} (hs : s.canonical) :
    (@completeFill s f rep).canonical := by
  unfold completeFill
  repeat' first
     | with_reducible assumption | with_reducible intro _
     | (extract_lets +onlyGivenNames y; refine canonical_cut y ?_ ?_; (on_goal 2 => intro _; clear_value y); subst y)
     | (extract_lets +onlyGivenNames y; subst y) | with_reducible apply linkCounts_canonical
     | with_reducible apply serveWaiter_canonical | with_reducible apply fillCheck_canonical
     | with_reducible apply dropGroup_canonical | with_reducible apply canonical_ite
     | with_reducible apply canonical_foldl | fail_if_no_progress with_reducible refine canonical_mk (canonical_fold ?_)

theorem fillNow_canonical {s g} (hs : s.canonical) :
    (@fillNow s g).canonical := by
  unfold fillNow
  repeat' first
     | with_reducible assumption | with_reducible apply completeFill_canonical | split
     | fail_if_no_progress with_reducible refine canonical_mk (canonical_fold ?_)

theorem fetchNow_canonical {s g n k cls} (hs : s.canonical) :
    (@fetchNow s g n k cls).1.canonical := by
  unfold fetchNow
  repeat' first
     | with_reducible assumption
     | (extract_lets +onlyGivenNames y; refine canonical_cut y ?_ ?_; (on_goal 2 => intro _; clear_value y); subst y)
     | with_reducible apply raiseClass_canonical | with_reducible apply takeWay_canonical
     | with_reducible apply fillNow_canonical | with_reducible apply countNow_canonical
     | with_reducible apply fetchGroup_canonical | with_reducible apply canonical_ite_fst

theorem readPart_canonical {s n pa len cls} (hs : s.canonical) :
    (@readPart s n pa len cls).1.canonical := by
  unfold readPart
  repeat' first
     | with_reducible assumption | (extract_lets +onlyGivenNames y; subst y) | with_reducible apply fetchNow_canonical
     | with_reducible apply serveAhead_canonical | with_reducible apply endWay_canonical
     | with_reducible apply dropGroup_canonical | with_reducible apply canonical_ite
     | with_reducible refine pair1_canonical (by assumption) ?_ | split

theorem dieBytes_canonical {s dir n} (hs : s.canonical) :
    (@dieBytes s dir n).canonical := by
  unfold dieBytes
  repeat' first
     | with_reducible assumption | with_reducible apply bwAdd_canonical

theorem readPhys_canonical {s n pa len cls} (hs : s.canonical) :
    (@readPhys s n pa len cls).1.canonical := by
  unfold readPhys
  repeat' first
     | with_reducible assumption | with_reducible intro _ | with_reducible apply readPart_canonical
     | with_reducible apply dieBytes_canonical | with_reducible apply canonical_foldl_fst

theorem tableBelow_canonical {s a} (hs : s.canonical) :
    (@tableBelow s a).2.canonical := by
  unfold tableBelow
  repeat' first
     | with_reducible assumption | (extract_lets +onlyGivenNames y; subst y) | with_reducible apply newTable_canonical
     | with_reducible apply canonical_ite_snd | with_reducible refine pair2_canonical (by assumption) ?_ | split
     | fail_if_no_progress with_reducible refine canonical_mk (canonical_fold ?_)

theorem takeFrame_canonical {s n} (hs : s.canonical) :
    (@takeFrame s n).2.canonical := by
  unfold takeFrame
  cases s.freeFrames with
  | nil =>
    refine setFld_canonical (canonical_dram hs ?_ rfl rfl)
    dsimp only
    exact SMap.wf_clear _ _ _ hs.1
  | cons f r =>
    refine setFld_canonical (canonical_dram hs ?_ rfl rfl)
    dsimp only
    exact SMap.wf_clear _ _ _ hs.1

theorem mapPage_canonical {s n vpn read write} (hs : s.canonical) :
    (@mapPage s n vpn read write).canonical := by
  unfold mapPage
  repeat' first
     | with_reducible assumption
     | (extract_lets +onlyGivenNames y; refine canonical_cut y ?_ ?_; (on_goal 2 => intro _; clear_value y); subst y)
     | (extract_lets +onlyGivenNames y; subst y) | with_reducible apply setReg_canonical
     | with_reducible apply tableBelow_canonical | with_reducible apply takeFrame_canonical
     | with_reducible apply canonical_ite | with_reducible refine pair2_canonical (by assumption) ?_ | split
     | fail_if_no_progress with_reducible refine canonical_mk (canonical_fold ?_)

theorem mapPages_canonical {s n vpn pages read write} (hs : s.canonical) :
    (@mapPages s n vpn pages read write).canonical := by
  unfold mapPages
  repeat' first
     | with_reducible assumption | with_reducible intro _ | with_reducible apply mapPage_canonical
     | with_reducible apply canonical_foldl

theorem setRed_canonical {s n j} (hs : s.canonical) :
    (@setRed s n j).canonical := by
  unfold setRed
  repeat' first
     | with_reducible assumption | with_reducible apply keepRed_canonical | with_reducible apply bump_canonical

theorem execGroupFill_canonical {slice rep s} (hs : s.canonical) :
    OutKeeps (@execGroupFill slice rep s) := by
  unfold execGroupFill
  repeat' first
     | with_reducible assumption | with_reducible apply completeFill_canonical | with_reducible apply canonical_ite
     | with_reducible apply outKeeps_next | split
     | fail_if_no_progress with_reducible refine canonical_mk (canonical_fold ?_)

theorem unmapAll_canonical {s n} (hs : s.canonical) :
    (@unmapAll s n).canonical := by
  unfold unmapAll
  repeat' first
     | with_reducible assumption | with_reducible intro _
     | (extract_lets +onlyGivenNames y; refine canonical_cut y ?_ ?_; (on_goal 2 => intro _; clear_value y); subst y)
     | (extract_lets +onlyGivenNames y; subst y) | with_reducible apply freeFrame_canonical
     | with_reducible apply canonical_foldl | fail_if_no_progress with_reducible refine canonical_mk (canonical_fold ?_)

theorem execSliceRequest_canonical {slice s} (hs : s.canonical) :
    OutKeeps (@execSliceRequest slice s) := by
  unfold execSliceRequest
  repeat' first
     | with_reducible assumption | with_reducible apply serve_canonical | with_reducible apply outKeeps_next
     | with_reducible apply canonical_getD | split
     | fail_if_no_progress with_reducible refine canonical_mk (canonical_fold ?_)

theorem readLines_canonical {s n va len cls} (hs : s.canonical) :
    (@readLines s n va len cls).1.canonical := by
  unfold readLines
  repeat' first
     | with_reducible assumption | with_reducible intro _ | with_reducible apply readPart_canonical
     | with_reducible apply canonical_foldl_fst

theorem portTake_canonical {s p} (hs : s.canonical) :
    (@portTake s p).canonical := by
  unfold portTake
  repeat' first
     | with_reducible assumption | fail_if_no_progress with_reducible refine canonical_mk (canonical_fold ?_)

theorem setDsp_canonical {s n j} (hs : s.canonical) :
    (@setDsp s n j).canonical := by
  unfold setDsp
  repeat' first
     | with_reducible assumption | with_reducible apply keepDsp_canonical | with_reducible apply bump_canonical

theorem readVa_canonical {s n va len cls} (hs : s.canonical) :
    (@readVa s n va len cls).1.canonical := by
  unfold readVa
  repeat' first
     | with_reducible assumption | with_reducible apply readLines_canonical | with_reducible apply dieBytes_canonical

theorem writePart_canonical {s n pa bs cls poison} (hs : s.canonical) :
    (@writePart s n pa bs cls poison).canonical := by
  unfold writePart
  repeat' first
     | with_reducible assumption
     | (extract_lets +onlyGivenNames y; refine canonical_cut y ?_ ?_; (on_goal 2 => intro _; clear_value y); subst y)
     | (extract_lets +onlyGivenNames y; subst y) | with_reducible apply serveAhead_canonical
     | with_reducible apply fillNow_canonical | with_reducible apply pendingHazard_canonical
     | with_reducible apply storePart_canonical | split
     | fail_if_no_progress with_reducible refine canonical_mk (canonical_fold ?_)

theorem writeVa_canonical {s n va bs cls poison} (hs : s.canonical) :
    (@writeVa s n va bs cls poison).canonical := by
  unfold writeVa
  repeat' first
     | with_reducible assumption | with_reducible intro _ | with_reducible apply writePart_canonical
     | with_reducible apply dieBytes_canonical | with_reducible apply canonical_foldl

theorem execStackHot_canonical {stack hot s} (hs : s.canonical) :
    OutKeeps (@execStackHot stack hot s) := by
  unfold execStackHot
  repeat' first
     | with_reducible assumption | with_reducible apply powered_canonical | with_reducible apply setFld_canonical
     | with_reducible apply outKeeps_next

theorem writePhys_canonical {s n pa bs cls poison} (hs : s.canonical) :
    (@writePhys s n pa bs cls poison).canonical := by
  unfold writePhys
  repeat' first
     | with_reducible assumption | with_reducible intro _ | with_reducible apply writePart_canonical
     | with_reducible apply dieBytes_canonical | with_reducible apply canonical_foldl

end Sys2Proof.Machine
end

