-- ==== Sys2Proof/Laws/CanonTile.lean ====
section
/-! SUPPORT. The canonical form is kept by the functions and meanings of the tile: issue, the engines, streams, the Lattice, the array, the Louvre and the vector unit: one lemma each. -/

namespace Sys2Proof.Machine

/-! ## Machine/Issue.lean -/

theorem issOf_canonical {s : State} {t : TileId} {h : ThreadId} (hs : s.canonical) : (issOf s t h).base.canonical := hs

theorem Iss.fault_canonical {x s cause} (hs : s.canonical) :
    (@Iss.fault x s cause).canonical := by
  unfold Iss.fault
  repeat' first
     | with_reducible assumption | with_reducible apply threadFault_canonical

theorem Iss.next_canonical {x s} (hs : s.canonical) :
    (@Iss.next x s).canonical := by
  unfold Iss.next
  repeat' first
     | with_reducible assumption
     | (extract_lets +onlyGivenNames y; refine canonical_cut y ?_ ?_; (on_goal 2 => intro _; clear_value y); subst y)
     | (extract_lets +onlyGivenNames y; subst y) | with_reducible apply setFld_canonical
     | with_reducible apply canonical_ite | fail_if_no_progress with_reducible refine canonical_mk (canonical_fold ?_)

theorem Iss.wait_canonical {x} (hx : x.base.canonical) :
    (@Iss.wait x).canonical := by
  unfold Iss.wait
  repeat' first
     | with_reducible assumption | with_reducible apply setThreadState_canonical

theorem attempt_canonical {s t h mine body} (hs : s.canonical) (hbody : ∀ v0 v1, v0.base.canonical → v1.canonical → (body v0 v1).canonical) :
    (@attempt s t h mine body).canonical := by
  unfold attempt
  repeat' first
     | with_reducible assumption
     | (extract_lets +onlyGivenNames y; refine canonical_cut y ?_ ?_; (on_goal 2 => intro _; clear_value y); subst y)
     | (extract_lets +onlyGivenNames y; subst y) | with_reducible apply Iss.fault_canonical
     | with_reducible apply perfTile_canonical | with_reducible apply Iss.next_canonical
     | with_reducible apply Iss.wait_canonical | with_reducible apply hbody | with_reducible refine issOf_canonical ?_
     | with_reducible apply canonical_ite

theorem issue_canonical {s t h mine body} (hs : s.canonical) (hbody : ∀ v0 v1, v0.base.canonical → v1.canonical → (body v0 v1).canonical) :
    (@issue s t h mine body).canonical := by
  unfold issue
  repeat' first
     | with_reducible assumption
     | (extract_lets +onlyGivenNames y; refine canonical_cut y ?_ ?_; (on_goal 2 => intro _; clear_value y); subst y)
     | with_reducible apply attempt_canonical | with_reducible apply threadRecord_canonical
     | with_reducible apply canonical_ite

theorem Iss.goto_canonical {x s target} (hs : s.canonical) :
    (@Iss.goto x s target).canonical := by
  unfold Iss.goto
  repeat' first
     | with_reducible assumption | (extract_lets +onlyGivenNames y; subst y) | with_reducible apply setFld_canonical
     | with_reducible apply canonical_ite | fail_if_no_progress with_reducible refine canonical_mk (canonical_fold ?_)

theorem Iss.check_canonical {x s c ok} (hs : s.canonical) (hok : ∀ v0, v0.canonical → (ok v0).canonical) :
    (@Iss.check x s c ok).canonical := by
  unfold Iss.check
  repeat' first
     | with_reducible assumption | with_reducible apply Iss.fault_canonical | with_reducible apply hok | split

/-! ## Machine/Engine.lean -/

theorem opFault_canonical {s t op cause} (hs : s.canonical) :
    (@opFault s t op cause).canonical := by
  unfold opFault
  repeat' first
     | with_reducible assumption | with_reducible apply engineFaultOp_canonical

theorem putRow_canonical {s t k loc i size bs poison ser} (hs : s.canonical) :
    OptKeeps (@putRow s t k loc i size bs poison ser) := by
  unfold putRow
  repeat' first
     | with_reducible assumption | with_reducible apply spOrdered_canonical | with_reducible apply perfTile_canonical
     | with_reducible apply tqPush_canonical | with_reducible apply optKeeps_some | with_reducible apply optKeeps_none
     | with_reducible apply optKeeps_ite | split

theorem parityAt_canonical {ctx s u} (hs : s.canonical) :
    (@parityAt ctx s u).canonical := by
  unfold parityAt
  repeat' first
     | with_reducible assumption
     | (extract_lets +onlyGivenNames y; refine canonical_cut y ?_ ?_; (on_goal 2 => intro _; clear_value y); subst y)
     | (extract_lets +onlyGivenNames y; subst y) | with_reducible apply perfTile_canonical
     | with_reducible apply satAdd_canonical
     | fail_if_no_progress with_reducible refine canonical_mk (canonical_fold ?_)

theorem readPiece_canonical {s t pa len} (hs : s.canonical) :
    (@readPiece s t pa len).1.canonical := by
  unfold readPiece
  repeat' first
     | with_reducible assumption | with_reducible apply eccRead_canonical

theorem takeRow_canonical {s t k loc i size} (hs : s.canonical) :
    OptKeeps1 (@takeRow s t k loc i size) := by
  unfold takeRow
  repeat' first
     | with_reducible assumption | (extract_lets +onlyGivenNames y; subst y) | with_reducible apply readPiece_canonical
     | with_reducible apply tqPop_canonical | with_reducible apply optKeeps1_some | with_reducible apply optKeeps1_none
     | with_reducible apply optKeeps1_ite | split

theorem setEng_canonical {s t e q} (hs : s.canonical) :
    (@setEng s t e q).canonical := by
  unfold setEng
  repeat' first
     | with_reducible assumption
     | (extract_lets +onlyGivenNames y; refine canonical_cut y ?_ ?_; (on_goal 2 => intro _; clear_value y); subst y)
     | (extract_lets +onlyGivenNames y; subst y) | with_reducible apply bump_canonical
     | with_reducible apply canonical_ite | fail_if_no_progress with_reducible refine canonical_mk (canonical_fold ?_)

theorem acceptOp_canonical {s t e op} (hs : s.canonical) :
    (@acceptOp s t e op).canonical := by
  unfold acceptOp
  repeat' first
     | with_reducible assumption
     | (extract_lets +onlyGivenNames y; refine canonical_cut y ?_ ?_; (on_goal 2 => intro _; clear_value y); subst y)
     | (extract_lets +onlyGivenNames y; subst y) | with_reducible apply setEng_canonical
     | with_reducible apply canonical_ite | fail_if_no_progress with_reducible refine canonical_mk (canonical_fold ?_)

theorem progress_canonical {s t e op} (hs : s.canonical) :
    (@progress s t e op).canonical := by
  unfold progress
  repeat' first
     | with_reducible assumption | with_reducible apply setEng_canonical

theorem stageDone_canonical {s t slot st} (hs : s.canonical) :
    (@stageDone s t slot st).canonical := by
  unfold stageDone
  repeat' first
     | with_reducible assumption
     | (extract_lets +onlyGivenNames y; refine canonical_cut y ?_ ?_; (on_goal 2 => intro _; clear_value y); subst y)
     | (extract_lets +onlyGivenNames y; subst y) | with_reducible apply setFld_canonical
     | with_reducible apply tokAdd_canonical | with_reducible apply canonical_ite | split
     | fail_if_no_progress with_reducible refine canonical_mk (canonical_fold ?_)

theorem opComplete_canonical {s t op} (hs : s.canonical) :
    (@opComplete s t op).canonical := by
  unfold opComplete
  repeat' first
     | with_reducible assumption | with_reducible apply stageDone_canonical | with_reducible apply tokDone_canonical
     | split

theorem retire_canonical {s t e} (hs : s.canonical) :
    (@retire s t e).canonical := by
  unfold retire
  repeat' first
     | with_reducible assumption | (extract_lets +onlyGivenNames y; subst y) | with_reducible apply setEng_canonical
     | with_reducible apply canonical_ite

/-! ## Machine/Stream.lean -/

theorem addWalk_canonical {s t n vpn} (hs : s.canonical) :
    (@addWalk s t n vpn).canonical := by
  unfold addWalk
  repeat' first
     | with_reducible assumption | with_reducible apply canonical_ite
     | fail_if_no_progress with_reducible refine canonical_mk (canonical_fold ?_)

theorem strmFault_canonical {s t n x cause} (hs : s.canonical) :
    (@strmFault s t n x cause).canonical := by
  unfold strmFault
  repeat' first
     | with_reducible assumption
     | (extract_lets +onlyGivenNames y; refine canonical_cut y ?_ ?_; (on_goal 2 => intro _; clear_value y); subst y)
     | with_reducible apply setStrm_canonical | with_reducible apply setFld_canonical
     | with_reducible apply engineFaultOp_canonical

theorem spStore_canonical {s t k ser stores poison} (hs : s.canonical) :
    OptKeeps (@spStore s t k ser stores poison) := by
  unfold spStore
  repeat' first
     | with_reducible assumption | with_reducible intro _ | with_reducible apply spOrdered_canonical
     | with_reducible apply canonical_foldl | with_reducible apply optKeeps_some | with_reducible apply optKeeps_none
     | with_reducible apply optKeeps_ite

theorem loseRow_canonical {s t n} (hs : s.canonical) :
    (@loseRow s t n).canonical := by
  unfold loseRow
  repeat' first
     | with_reducible assumption | with_reducible apply setStrm_canonical | split

theorem loseMet_canonical {s m u ctx rank} (hs : s.canonical) :
    (@loseMet s m u ctx rank).canonical := by
  unfold loseMet
  repeat' first
     | with_reducible assumption
     | (extract_lets +onlyGivenNames y; refine canonical_cut y ?_ ?_; (on_goal 2 => intro _; clear_value y); subst y)
     | with_reducible apply loseAt_canonical | with_reducible apply loseRow_canonical
     | with_reducible apply perfTile_canonical | with_reducible apply satAdd_canonical
     | with_reducible apply hazard_canonical | split
     | fail_if_no_progress with_reducible refine canonical_mk (canonical_fold ?_)

theorem meet_canonical {s m x} (hs : s.canonical) :
    (@meet s m x).1.canonical := by
  unfold meet
  repeat' first
     | with_reducible assumption | with_reducible apply loseMet_canonical | with_reducible apply canonical_ite_fst
     | split

theorem underrunAt_canonical {s u} (hs : s.canonical) :
    (@underrunAt s u).canonical := by
  unfold underrunAt
  repeat' first
     | with_reducible assumption | with_reducible apply recordEv_canonical | with_reducible apply satAdd_canonical

theorem sendLine_canonical {t x stores pads poison s l} (hs : s.canonical) :
    (@sendLine t x stores pads poison s l).canonical := by
  unfold sendLine
  repeat' first
     | with_reducible assumption | (extract_lets +onlyGivenNames y; subst y) | with_reducible apply perfTile_canonical
     | split | fail_if_no_progress with_reducible refine canonical_mk (canonical_fold ?_)

theorem rowOut_canonical {t x stores pads poison y s l} (hs : s.canonical) :
    (@rowOut t x stores pads poison y s l).canonical := by
  unfold rowOut
  repeat' first
     | with_reducible assumption | with_reducible intro _
     | (extract_lets +onlyGivenNames y; refine canonical_cut y ?_ ?_; (on_goal 2 => intro _; clear_value y); subst y)
     | (extract_lets +onlyGivenNames y; subst y) | with_reducible apply underrunAt_canonical
     | with_reducible apply parityAt_canonical | with_reducible apply sendLine_canonical
     | with_reducible apply canonical_ite | with_reducible apply canonical_foldl | split

theorem emitRows_canonical {t n bad way a4 a5} (ha5 : a5.canonical) :
    (@emitRows t n bad way a4 a5).canonical := by
  induction a4 generalizing a5 with
  | zero =>
    unfold emitRows
    repeat' first
       | with_reducible assumption
  | succ f ih =>
    unfold emitRows
    repeat' first
       | with_reducible assumption | with_reducible intro _ | (extract_lets +onlyGivenNames y; subst y)
       | with_reducible apply addWalk_canonical | with_reducible apply takeRow_canonical
       | with_reducible apply strmFault_canonical | with_reducible apply perfTile_canonical
       | with_reducible apply setStrm_canonical | with_reducible apply spStore_canonical
       | with_reducible apply meet_canonical | with_reducible apply rowOut_canonical | with_reducible apply ih
       | with_reducible apply canonical_ite | with_reducible apply canonical_foldl
       | with_reducible refine opt_canonical (by assumption) ?_ | with_reducible refine opt1_canonical (by assumption) ?_
       | split

theorem withHandle_canonical {x s body} (hs : s.canonical) (hbody : ∀ v0, (body v0).canonical) :
    (@withHandle x s body).canonical := by
  unfold withHandle
  repeat' first
     | with_reducible assumption | with_reducible apply Iss.fault_canonical | with_reducible apply hbody | split

theorem execGath_canonical {t h s} (hs : s.canonical) :
    OutKeeps (@execGath t h s) := by
  unfold execGath
  repeat' first
     | with_reducible assumption | with_reducible intro _
     | (extract_lets +onlyGivenNames y; refine canonical_cut y ?_ ?_; (on_goal 2 => intro _; clear_value y); subst y)
     | (extract_lets +onlyGivenNames y; subst y) | with_reducible apply issue_canonical
     | with_reducible apply Iss.check_canonical | with_reducible apply Iss.wait_canonical
     | with_reducible apply Iss.next_canonical | with_reducible apply addWalk_canonical
     | with_reducible apply Iss.fault_canonical | with_reducible apply canonical_ite
     | with_reducible apply outKeeps_next | split
     | fail_if_no_progress with_reducible refine canonical_mk (canonical_fold ?_)

theorem dropLines_canonical {s t n r} (hs : s.canonical) :
    (@dropLines s t n r).canonical := by
  unfold dropLines
  repeat' first
     | with_reducible assumption | with_reducible intro _
     | (extract_lets +onlyGivenNames y; refine canonical_cut y ?_ ?_; (on_goal 2 => intro _; clear_value y); subst y)
     | (extract_lets +onlyGivenNames y; subst y) | with_reducible apply portFree_canonical
     | with_reducible apply putStrm_canonical | with_reducible apply canonical_ite
     | with_reducible apply canonical_foldl | split

theorem issueLine_canonical {t n bad s x va} (hs : s.canonical) :
    OptKeeps (@issueLine t n bad s x va) := by
  unfold issueLine
  repeat' first
     | with_reducible assumption
     | (extract_lets +onlyGivenNames y; refine canonical_cut y ?_ ?_; (on_goal 2 => intro _; clear_value y); subst y)
     | (extract_lets +onlyGivenNames y; subst y) | with_reducible apply portTake_canonical
     | with_reducible apply perfTile_canonical | with_reducible apply putStrm_canonical
     | with_reducible apply setStrm_canonical | with_reducible apply optKeeps_some | with_reducible apply optKeeps_none
     | with_reducible apply optKeeps_ite | split
     | fail_if_no_progress with_reducible refine canonical_mk (canonical_fold ?_)

theorem pump_canonical {t n bad a3 a4} (ha4 : a4.canonical) :
    (@pump t n bad a3 a4).canonical := by
  induction a3 generalizing a4 with
  | zero =>
    unfold pump
    repeat' first
       | with_reducible assumption
  | succ f ih =>
    unfold pump
    repeat' first
       | with_reducible assumption | (extract_lets +onlyGivenNames y; subst y) | with_reducible apply setStrm_canonical
       | with_reducible apply addWalk_canonical | with_reducible apply issueLine_canonical | with_reducible apply ih
       | with_reducible apply canonical_ite | with_reducible refine opt_canonical (by assumption) ?_ | split

theorem pumpTile_canonical {t bad s} (hs : s.canonical) :
    (@pumpTile t bad s).canonical := by
  unfold pumpTile
  repeat' first
     | with_reducible assumption | with_reducible intro _ | with_reducible apply pump_canonical
     | with_reducible apply canonical_foldl

theorem gathGo_canonical {bad s g} (hs : s.canonical) :
    (@gathGo bad s g).canonical := by
  unfold gathGo
  repeat' first
     | with_reducible assumption | with_reducible apply engineFaultOp_canonical | with_reducible apply canonical_ite
     | split | fail_if_no_progress with_reducible refine canonical_mk (canonical_fold ?_)

theorem execTableWalk_canonical {t s} (hs : s.canonical) :
    OutKeeps (@execTableWalk t s) := by
  unfold execTableWalk
  repeat' first
     | with_reducible assumption | with_reducible intro _
     | (extract_lets +onlyGivenNames y; refine canonical_cut y ?_ ?_; (on_goal 2 => intro _; clear_value y); subst y)
     | (extract_lets +onlyGivenNames y; subst y) | with_reducible apply readPart_canonical
     | with_reducible apply pumpTile_canonical | with_reducible apply emitRows_canonical
     | with_reducible apply gathGo_canonical | with_reducible apply canonical_ite | with_reducible apply canonical_foldl
     | with_reducible apply outKeeps_next | split
     | fail_if_no_progress with_reducible refine canonical_mk (canonical_fold ?_)

theorem execBarrier_canonical {t h s} (hs : s.canonical) :
    OutKeeps (@execBarrier t h s) := by
  unfold execBarrier
  repeat' first
     | with_reducible assumption | with_reducible intro _ | (extract_lets +onlyGivenNames y; subst y)
     | with_reducible apply issue_canonical | with_reducible apply Iss.next_canonical
     | with_reducible apply Iss.wait_canonical | with_reducible apply canonical_ite | with_reducible apply outKeeps_next
     | fail_if_no_progress with_reducible refine canonical_mk (canonical_fold ?_)

theorem spRow_canonical {s t x r} (hs : s.canonical) :
    (@spRow s t x r).1.canonical := by
  unfold spRow
  repeat' first
     | with_reducible assumption | (extract_lets +onlyGivenNames y; subst y) | with_reducible apply readPiece_canonical
     | with_reducible refine pair1_canonical (by assumption) ?_ | split | (beta_reduce; split)

theorem execGatherComplete_canonical {t s} (hs : s.canonical) :
    OutKeeps (@execGatherComplete t s) := by
  unfold execGatherComplete
  repeat' first
     | with_reducible assumption
     | (extract_lets +onlyGivenNames y; refine canonical_cut y ?_ ?_; (on_goal 2 => intro _; clear_value y); subst y)
     | (extract_lets +onlyGivenNames y; subst y) | with_reducible apply bump_canonical
     | with_reducible apply engineFaultOp_canonical | with_reducible apply spOrdered_canonical
     | with_reducible apply tokDone_canonical | with_reducible apply perfTile_canonical
     | with_reducible apply canonical_ite | with_reducible apply outKeeps_next | split
     | fail_if_no_progress with_reducible refine canonical_mk (canonical_fold ?_)

theorem strmPut_canonical {s t n x img poison} (hs : s.canonical) :
    OptKeeps (@strmPut s t n x img poison) := by
  unfold strmPut
  repeat' first
     | with_reducible assumption
     | (extract_lets +onlyGivenNames y; refine canonical_cut y ?_ ?_; (on_goal 2 => intro _; clear_value y); subst y)
     | with_reducible apply putRow_canonical | with_reducible apply perfTile_canonical
     | with_reducible apply satAdd_canonical | with_reducible apply setStrm_canonical
     | with_reducible apply canonical_ite | with_reducible apply optKeeps_some | with_reducible apply optKeeps_none
     | with_reducible refine opt_canonical (by assumption) ?_ | split

theorem execRowDelivery_canonical {t a1 a2} (ha2 : a2.canonical) :
    OutKeeps (@execRowDelivery t a1 a2) := by
  unfold execRowDelivery
  repeat' first
     | with_reducible assumption | with_reducible intro _
     | (extract_lets +onlyGivenNames y; refine canonical_cut y ?_ ?_; (on_goal 2 => intro _; clear_value y); subst y)
     | (extract_lets +onlyGivenNames y; subst y) | with_reducible apply spRow_canonical
     | with_reducible apply strmFault_canonical | with_reducible apply strmPut_canonical
     | with_reducible apply pumpTile_canonical | with_reducible apply parityAt_canonical
     | with_reducible apply meet_canonical | with_reducible apply dropLines_canonical
     | with_reducible apply canonical_ite | with_reducible apply canonical_foldl | with_reducible apply outKeeps_next
     | with_reducible refine pair1_canonical (by assumption) ?_ | with_reducible refine opt_canonical (by assumption) ?_
     | split

theorem readTDesc_canonical {s c b} (hs : s.canonical) :
    (@readTDesc s c b).1.canonical := by
  unfold readTDesc
  repeat' first
     | with_reducible assumption | (extract_lets +onlyGivenNames y; subst y) | with_reducible apply readPiece_canonical
     | with_reducible apply readLines_canonical | with_reducible apply canonical_ite_fst | split

theorem execStrmStop_canonical {t h s} (hs : s.canonical) :
    OutKeeps (@execStrmStop t h s) := by
  unfold execStrmStop
  repeat' first
     | with_reducible assumption | with_reducible intro _ | (extract_lets +onlyGivenNames y; subst y)
     | with_reducible apply issue_canonical | with_reducible apply withHandle_canonical
     | with_reducible apply Iss.next_canonical | with_reducible apply setFld_canonical
     | with_reducible apply canonical_ite | with_reducible apply outKeeps_next

theorem execStrmWait_canonical {t h s} (hs : s.canonical) :
    OutKeeps (@execStrmWait t h s) := by
  unfold execStrmWait
  repeat' first
     | with_reducible assumption | with_reducible intro _ | (extract_lets +onlyGivenNames y; subst y)
     | with_reducible apply issue_canonical | with_reducible apply withHandle_canonical
     | with_reducible apply Iss.next_canonical | with_reducible apply Iss.wait_canonical
     | with_reducible apply canonical_ite | with_reducible apply outKeeps_next

theorem execStrmStat_canonical {t h s} (hs : s.canonical) :
    OutKeeps (@execStrmStat t h s) := by
  unfold execStrmStat
  repeat' first
     | with_reducible assumption | with_reducible intro _ | with_reducible apply issue_canonical
     | with_reducible apply withHandle_canonical | with_reducible apply Iss.next_canonical
     | with_reducible apply setGreg_canonical | with_reducible apply outKeeps_next

theorem execStreamDrained_canonical {t n s} (hs : s.canonical) :
    OutKeeps (@execStreamDrained t n s) := by
  unfold execStreamDrained
  repeat' first
     | with_reducible assumption | with_reducible intro _
     | (extract_lets +onlyGivenNames y; refine canonical_cut y ?_ ?_; (on_goal 2 => intro _; clear_value y); subst y)
     | (extract_lets +onlyGivenNames y; subst y) | with_reducible apply setFld_canonical
     | with_reducible apply portFree_canonical | with_reducible apply perfTile_canonical
     | with_reducible apply satAdd_canonical | with_reducible apply pumpTile_canonical
     | with_reducible apply setStrm_canonical | with_reducible apply canonical_ite
     | with_reducible apply canonical_foldl | with_reducible apply outKeeps_next | split

theorem strmStart_canonical {s c loc n} (hs : s.canonical) :
    (@strmStart s c loc n).1.canonical := by
  unfold strmStart
  repeat' first
     | with_reducible assumption
     | (extract_lets +onlyGivenNames y; refine canonical_cut y ?_ ?_; (on_goal 2 => intro _; clear_value y); subst y)
     | (extract_lets +onlyGivenNames y; subst y) | with_reducible apply readPiece_canonical
     | with_reducible apply readTDesc_canonical | with_reducible apply setFld_canonical
     | with_reducible apply putStrm_canonical | with_reducible apply canonical_ite_fst
     | with_reducible refine pair1_canonical (by assumption) ?_ | split
     | fail_if_no_progress with_reducible refine canonical_mk (canonical_fold ?_)

theorem execStrmStart_canonical {t h s} (hs : s.canonical) :
    OutKeeps (@execStrmStart t h s) := by
  unfold execStrmStart
  repeat' first
     | with_reducible assumption | with_reducible intro _ | (extract_lets +onlyGivenNames y; subst y)
     | with_reducible apply issue_canonical | with_reducible apply withHandle_canonical
     | with_reducible apply Iss.wait_canonical | with_reducible apply strmStart_canonical
     | with_reducible apply Iss.fault_canonical | with_reducible apply pumpTile_canonical
     | with_reducible apply Iss.next_canonical | with_reducible apply canonical_ite | with_reducible apply outKeeps_next
     | with_reducible refine pair1_canonical (by assumption) ?_ | split

theorem execStreamDone_canonical {t w s} (hs : s.canonical) :
    OutKeeps (@execStreamDone t w s) := by
  unfold execStreamDone
  repeat' first
     | with_reducible assumption
     | (extract_lets +onlyGivenNames y; refine canonical_cut y ?_ ?_; (on_goal 2 => intro _; clear_value y); subst y)
     | (extract_lets +onlyGivenNames y; subst y) | with_reducible apply emitRows_canonical
     | with_reducible apply setStrm_canonical | with_reducible apply setFld_canonical
     | with_reducible apply stageDone_canonical | with_reducible apply tokDone_canonical
     | with_reducible apply canonical_ite | with_reducible apply outKeeps_next | split

/-! ## Machine/Lattice.lean -/

theorem acceptSend_canonical {x s dests queue} (hs : s.canonical) :
    (@acceptSend x s dests queue).canonical := by
  unfold acceptSend
  repeat' first
     | with_reducible assumption | with_reducible apply Iss.next_canonical
     | fail_if_no_progress with_reducible refine canonical_mk (canonical_fold ?_)

theorem execMsend_canonical {t h s} (hs : s.canonical) :
    OutKeeps (@execMsend t h s) := by
  unfold execMsend
  repeat' first
     | with_reducible assumption | with_reducible intro _ | (extract_lets +onlyGivenNames y; subst y)
     | with_reducible apply issue_canonical | with_reducible apply Iss.check_canonical
     | with_reducible apply Iss.fault_canonical | with_reducible apply acceptSend_canonical
     | with_reducible apply outKeeps_next | split

theorem sendRun_canonical {a0 a1 a2} (ha1 : a1.canonical) :
    (@sendRun a0 a1 a2).1.canonical := by
  induction a0 generalizing a1 a2 with
  | zero =>
    unfold sendRun
    repeat' first
       | with_reducible assumption
  | succ f ih =>
    unfold sendRun
    repeat' first
       | with_reducible assumption
       | (extract_lets +onlyGivenNames y; refine canonical_cut y ?_ ?_; (on_goal 2 => intro _; clear_value y); subst y)
       | (extract_lets +onlyGivenNames y; subst y) | with_reducible apply takeRow_canonical
       | with_reducible apply perfTile_canonical | with_reducible apply ih | with_reducible apply canonical_ite_fst
       | with_reducible refine opt1_canonical (by assumption) ?_ | split
       | fail_if_no_progress with_reducible refine canonical_mk (canonical_fold ?_)

theorem sendsGo_canonical {t a1 a2 a3} (ha3 : a3.canonical) :
    (@sendsGo t a1 a2 a3).canonical := by
  induction a1 generalizing a2 a3 with
  | zero =>
    unfold sendsGo
    repeat' first
       | with_reducible assumption
  | succ f ih =>
    unfold sendsGo
    repeat' first
       | with_reducible assumption | with_reducible apply sendRun_canonical | with_reducible apply engineFaultOp_canonical
       | with_reducible apply tokDone_canonical | with_reducible apply ih | with_reducible apply canonical_ite | split
       | fail_if_no_progress with_reducible refine canonical_mk (canonical_fold ?_)

theorem execLatSendComplete_canonical {t s} (hs : s.canonical) :
    OutKeeps (@execLatSendComplete t s) := by
  unfold execLatSendComplete
  repeat' first
     | with_reducible assumption | with_reducible apply sendsGo_canonical | with_reducible apply canonical_ite
     | with_reducible apply outKeeps_next

theorem deliverBeat_canonical {s b queue bytes} (hs : s.canonical) :
    (@deliverBeat s b queue bytes).canonical := by
  unfold deliverBeat
  repeat' first
     | with_reducible assumption | (extract_lets +onlyGivenNames y; subst y) | with_reducible apply perfTile_canonical
     | with_reducible apply satAdd_canonical | with_reducible apply hazard_canonical
     | with_reducible apply tqPush_canonical | with_reducible apply canonical_ite

theorem execTsig_canonical {t h s} (hs : s.canonical) :
    OutKeeps (@execTsig t h s) := by
  unfold execTsig
  repeat' first
     | with_reducible assumption | with_reducible intro _ | (extract_lets +onlyGivenNames y; subst y)
     | with_reducible apply issue_canonical | with_reducible apply Iss.check_canonical
     | with_reducible apply Iss.fault_canonical | with_reducible apply Iss.next_canonical
     | with_reducible apply canonical_ite | with_reducible apply outKeeps_next | split
     | fail_if_no_progress with_reducible refine canonical_mk (canonical_fold ?_)

theorem execTinc_canonical {t h s} (hs : s.canonical) :
    OutKeeps (@execTinc t h s) := by
  unfold execTinc
  repeat' first
     | with_reducible assumption | with_reducible intro _ | with_reducible apply issue_canonical
     | with_reducible apply Iss.check_canonical | with_reducible apply tokAdd_canonical
     | with_reducible apply Iss.next_canonical | with_reducible apply outKeeps_next

theorem faultSender_canonical {s b u} (hs : s.canonical) :
    (@faultSender s b u).canonical := by
  unfold faultSender
  repeat' first
     | with_reducible assumption
     | (extract_lets +onlyGivenNames y; refine canonical_cut y ?_ ?_; (on_goal 2 => intro _; clear_value y); subst y)
     | with_reducible apply threadRecord_canonical | with_reducible apply ctxFault_canonical
     | with_reducible apply canonical_ite | split

theorem execBoundaryCrossing_canonical {i s} (hs : s.canonical) :
    OutKeeps (@execBoundaryCrossing i s) := by
  unfold execBoundaryCrossing
  repeat' first
     | with_reducible assumption | (extract_lets +onlyGivenNames y; subst y)
     | with_reducible apply faultSender_canonical | with_reducible apply loseBeat_canonical
     | with_reducible apply canonical_ite | with_reducible apply outKeeps_next | split
     | fail_if_no_progress with_reducible refine canonical_mk (canonical_fold ?_)

theorem execTwait_canonical {t h s} (hs : s.canonical) :
    OutKeeps (@execTwait t h s) := by
  unfold execTwait
  repeat' first
     | with_reducible assumption | with_reducible intro _ | (extract_lets +onlyGivenNames y; subst y)
     | with_reducible apply issue_canonical | with_reducible apply Iss.check_canonical
     | with_reducible apply Iss.next_canonical | with_reducible apply tokSet_canonical
     | with_reducible apply Iss.wait_canonical | with_reducible apply canonical_ite | with_reducible apply outKeeps_next

theorem passed_canonical {s b u} (hs : s.canonical) :
    (@passed s b u).canonical := by
  unfold passed
  repeat' first
     | with_reducible assumption | with_reducible intro _
     | (extract_lets +onlyGivenNames y; refine canonical_cut y ?_ ?_; (on_goal 2 => intro _; clear_value y); subst y)
     | (extract_lets +onlyGivenNames y; subst y) | with_reducible apply perfTile_canonical
     | with_reducible apply canonical_ite | with_reducible apply canonical_foldl
     | fail_if_no_progress with_reducible refine canonical_mk (canonical_fold ?_)

theorem execCrossingUnderrun_canonical {m router s} (hs : s.canonical) :
    OutKeeps (@execCrossingUnderrun m router s) := by
  unfold execCrossingUnderrun
  repeat' first
     | with_reducible assumption | (extract_lets +onlyGivenNames y; subst y) | with_reducible apply underrunAt_canonical
     | with_reducible apply poisonBeat_canonical | with_reducible apply setStrm_canonical
     | with_reducible apply canonical_ite | with_reducible apply outKeeps_next | split

theorem deliverToken_canonical {s b k n amount} (hs : s.canonical) :
    (@deliverToken s b k n amount).canonical := by
  unfold deliverToken
  repeat' first
     | with_reducible assumption
     | (extract_lets +onlyGivenNames y; refine canonical_cut y ?_ ?_; (on_goal 2 => intro _; clear_value y); subst y)
     | with_reducible apply ctxFault_canonical | with_reducible apply satAdd_canonical
     | with_reducible apply tokAdd_canonical | with_reducible apply canonical_ite

theorem land_canonical {s i} (hs : s.canonical) :
    (@land s i).canonical := by
  unfold land
  repeat' first
     | with_reducible assumption
     | (extract_lets +onlyGivenNames y; refine canonical_cut y ?_ ?_; (on_goal 2 => intro _; clear_value y); subst y)
     | with_reducible apply passed_canonical | with_reducible apply deliverBeat_canonical
     | with_reducible apply deliverToken_canonical | with_reducible apply loseBeat_canonical | split

theorem parityOn_canonical {s i us} (hs : s.canonical) :
    (@parityOn s i us).canonical := by
  unfold parityOn
  repeat' first
     | with_reducible assumption | with_reducible intro _ | with_reducible apply poisonBeat_canonical
     | with_reducible apply parityAt_canonical | with_reducible apply canonical_ite
     | with_reducible apply canonical_foldl | split

theorem arrive_canonical {token i parity meets s} (hs : s.canonical) :
    (@arrive token i parity meets s).canonical := by
  unfold arrive
  repeat' first
     | with_reducible assumption
     | (extract_lets +onlyGivenNames y; refine canonical_cut y ?_ ?_; (on_goal 2 => intro _; clear_value y); subst y)
     | with_reducible apply loseBeat_canonical | with_reducible apply parityOn_canonical
     | with_reducible apply land_canonical | with_reducible apply meet_canonical | with_reducible apply passed_canonical
     | with_reducible apply canonical_ite | with_reducible refine pair1_canonical (by assumption) ?_ | split

theorem execTsigArrival_canonical {p s} (hs : s.canonical) :
    OutKeeps (@execTsigArrival p s) := by
  unfold execTsigArrival
  repeat' first
     | with_reducible assumption | with_reducible apply arrive_canonical | with_reducible apply outKeeps_next

theorem execSend_canonical {t h s} (hs : s.canonical) :
    OutKeeps (@execSend t h s) := by
  unfold execSend
  repeat' first
     | with_reducible assumption | with_reducible intro _ | (extract_lets +onlyGivenNames y; subst y)
     | with_reducible apply issue_canonical | with_reducible apply Iss.check_canonical
     | with_reducible apply Iss.fault_canonical | with_reducible apply acceptSend_canonical
     | with_reducible apply outKeeps_next | split

theorem execTtake_canonical {t h s} (hs : s.canonical) :
    OutKeeps (@execTtake t h s) := by
  unfold execTtake
  repeat' first
     | with_reducible assumption | with_reducible intro _ | (extract_lets +onlyGivenNames y; subst y)
     | with_reducible apply issue_canonical | with_reducible apply Iss.check_canonical
     | with_reducible apply Iss.next_canonical | with_reducible apply tokSet_canonical
     | with_reducible apply outKeeps_next

theorem execBeatArrival_canonical {i parity meets s} (hs : s.canonical) :
    OutKeeps (@execBeatArrival i parity meets s) := by
  unfold execBeatArrival
  repeat' first
     | with_reducible assumption | with_reducible apply arrive_canonical | with_reducible apply outKeeps_next

theorem execTread_canonical {t h s} (hs : s.canonical) :
    OutKeeps (@execTread t h s) := by
  unfold execTread
  repeat' first
     | with_reducible assumption | with_reducible intro _ | with_reducible apply issue_canonical
     | with_reducible apply Iss.next_canonical | with_reducible apply setGreg_canonical
     | with_reducible apply outKeeps_next

/-! ## Machine/Array.lean -/

theorem lvEnter_canonical {s t o v} (hs : s.canonical) :
    OptKeeps (@lvEnter s t o v) := by
  unfold lvEnter
  repeat' first
     | with_reducible assumption | (extract_lets +onlyGivenNames y; subst y) | with_reducible apply setLv_canonical
     | with_reducible apply optKeeps_some | with_reducible apply optKeeps_none | with_reducible apply optKeeps_ite
     | fail_if_no_progress with_reducible refine canonical_mk (canonical_fold ?_)

theorem lvIn_canonical {t v a2 a3 a4} (ha3 : a3.canonical) :
    (@lvIn t v a2 a3 a4).1.canonical := by
  induction a2 generalizing a3 a4 with
  | zero =>
    unfold lvIn
    repeat' first
       | with_reducible assumption
  | succ f ih =>
    unfold lvIn
    repeat' first
       | with_reducible assumption | with_reducible apply takeRow_canonical | with_reducible apply setLv_canonical
       | with_reducible apply lvEnter_canonical | with_reducible apply ih | with_reducible apply canonical_ite_fst
       | with_reducible refine opt_canonical (by assumption) ?_ | with_reducible refine opt1_canonical (by assumption) ?_
       | split

theorem setCell_canonical {t o s j bytes badG} (hs : s.canonical) :
    (@setCell t o s j bytes badG).canonical := by
  unfold setCell
  repeat' first
     | with_reducible assumption
     | (extract_lets +onlyGivenNames y; refine canonical_cut y ?_ ?_; (on_goal 2 => intro _; clear_value y); subst y)
     | (extract_lets +onlyGivenNames y; subst y) | with_reducible apply satAdd_canonical
     | with_reducible apply canonical_ite | fail_if_no_progress with_reducible refine canonical_mk (canonical_fold ?_)

theorem tileOut_canonical {s t} (hs : s.canonical) :
    (@tileOut s t).canonical := by
  unfold tileOut
  repeat' first
     | with_reducible assumption | with_reducible apply setLv_canonical | with_reducible apply perfTile_canonical
     | with_reducible apply satAdd_canonical | split

theorem loadTurned_canonical {s t o} (hs : s.canonical) :
    (@loadTurned s t o).1.canonical := by
  unfold loadTurned
  repeat' first
     | with_reducible assumption | with_reducible intro _
     | (extract_lets +onlyGivenNames y; refine canonical_cut y ?_ ?_; (on_goal 2 => intro _; clear_value y); subst y)
     | (extract_lets +onlyGivenNames y; subst y) | with_reducible apply lvIn_canonical
     | with_reducible apply setCell_canonical | with_reducible apply tileOut_canonical
     | with_reducible apply canonical_foldl | with_reducible apply canonical_ite_fst | split

theorem loadStat_canonical {a0 a1 a2 a3} (ha1 : a1.canonical) :
    (@loadStat a0 a1 a2 a3).1.canonical := by
  induction a0 generalizing a1 a2 a3 with
  | zero =>
    unfold loadStat
    repeat' first
       | with_reducible assumption
  | succ f ih =>
    unfold loadStat
    repeat' first
       | with_reducible assumption | with_reducible apply takeRow_canonical | with_reducible apply setCell_canonical
       | with_reducible apply ih | with_reducible apply canonical_ite_fst
       | with_reducible refine opt1_canonical (by assumption) ?_ | split

theorem passLoad_canonical {s t o} (hs : s.canonical) :
    (@passLoad s t o).1.canonical := by
  unfold passLoad
  repeat' first
     | with_reducible assumption
     | (extract_lets +onlyGivenNames y; refine canonical_cut y ?_ ?_; (on_goal 2 => intro _; clear_value y); subst y)
     | with_reducible apply loadTurned_canonical | with_reducible apply loadStat_canonical
     | with_reducible apply setFld_canonical | with_reducible apply satAdd_canonical
     | with_reducible apply canonical_ite_fst | split
     | fail_if_no_progress with_reducible refine canonical_mk (canonical_fold ?_)

theorem outElem_canonical {s t o row col x} (hs : s.canonical) :
    (@outElem s t o row col x).canonical := by
  unfold outElem
  repeat' first
     | with_reducible assumption
     | (extract_lets +onlyGivenNames y; refine canonical_cut y ?_ ?_; (on_goal 2 => intro _; clear_value y); subst y)
     | (extract_lets +onlyGivenNames y; subst y) | with_reducible apply accSet_canonical
     | with_reducible apply perfTile_canonical | with_reducible apply satAdd_canonical
     | with_reducible apply canonical_ite

theorem outRowOf_canonical {dec tr s t o bytes} (hs : s.canonical) :
    (@outRowOf dec tr s t o bytes).canonical := by
  unfold outRowOf
  repeat' first
     | with_reducible assumption | with_reducible intro _ | (extract_lets +onlyGivenNames y; subst y)
     | with_reducible apply outElem_canonical | with_reducible apply canonical_foldl

theorem outRow_canonical {s t o bytes} (hs : s.canonical) :
    (@outRow s t o bytes).canonical := by
  unfold outRow
  repeat' first
     | with_reducible assumption | with_reducible apply outRowOf_canonical

theorem showPass_canonical {s t o} (hs : s.canonical) :
    (@showPass s t o).canonical := by
  unfold showPass
  repeat' first
     | with_reducible assumption
     | (extract_lets +onlyGivenNames y; refine canonical_cut y ?_ ?_; (on_goal 2 => intro _; clear_value y); subst y)
     | (extract_lets +onlyGivenNames y; subst y) | with_reducible apply setFld_canonical
     | with_reducible apply canonical_ite

theorem passEnd_canonical {s t o} (hs : s.canonical) :
    (@passEnd s t o).canonical := by
  unfold passEnd
  repeat' first
     | with_reducible assumption
     | (extract_lets +onlyGivenNames y; refine canonical_cut y ?_ ?_; (on_goal 2 => intro _; clear_value y); subst y)
     | with_reducible apply outRow_canonical | with_reducible apply setFld_canonical
     | with_reducible apply retire_canonical | with_reducible apply showPass_canonical
     | with_reducible apply opComplete_canonical | with_reducible apply perfTile_canonical
     | with_reducible apply satAdd_canonical

theorem execArr_canonical {t h s} (hs : s.canonical) :
    OutKeeps (@execArr t h s) := by
  unfold execArr
  repeat' first
     | with_reducible assumption | with_reducible intro _ | (extract_lets +onlyGivenNames y; subst y)
     | with_reducible apply issue_canonical | with_reducible apply Iss.check_canonical
     | with_reducible apply Iss.next_canonical | with_reducible apply acceptOp_canonical
     | with_reducible apply Iss.wait_canonical | with_reducible apply canonical_ite | with_reducible apply outKeeps_next

theorem ringMeets_canonical {s x} (hs : s.canonical) :
    (@ringMeets s x).canonical := by
  unfold ringMeets
  repeat' first
     | with_reducible assumption | with_reducible apply meet_canonical

theorem setCirc_canonical {s r v} (hs : s.canonical) :
    (@setCirc s r v).canonical := by
  unfold setCirc
  repeat' first
     | with_reducible assumption | with_reducible intro _ | with_reducible apply setFld_canonical
     | with_reducible apply canonical_foldl

theorem returnBeats_canonical {s r} (hs : s.canonical) :
    (@returnBeats s r).canonical := by
  unfold returnBeats
  repeat' first
     | with_reducible assumption
     | (extract_lets +onlyGivenNames y; refine canonical_cut y ?_ ?_; (on_goal 2 => intro _; clear_value y); subst y)
     | (extract_lets +onlyGivenNames y; subst y) | with_reducible apply setCirc_canonical
     | with_reducible apply canonical_ite | fail_if_no_progress with_reducible refine canonical_mk (canonical_fold ?_)

theorem reach_canonical {s t parity} (hs : s.canonical) :
    (@reach s t parity).canonical := by
  unfold reach
  repeat' first
     | with_reducible assumption
     | (extract_lets +onlyGivenNames y; refine canonical_cut y ?_ ?_; (on_goal 2 => intro _; clear_value y); subst y)
     | (extract_lets +onlyGivenNames y; subst y) | with_reducible apply parityAt_canonical
     | with_reducible apply returnBeats_canonical | with_reducible apply canonical_ite | split
     | fail_if_no_progress with_reducible refine canonical_mk (canonical_fold ?_)

theorem takeBeats_canonical {t parity again a3 a4 a5} (ha5 : a5.canonical) :
    OptKeeps1 (@takeBeats t parity again a3 a4 a5) := by
  induction a3 generalizing a4 a5 with
  | zero =>
    unfold takeBeats
    repeat' first
       | with_reducible assumption | with_reducible apply optKeeps1_some
  | succ f ih =>
    unfold takeBeats
    repeat' first
       | with_reducible assumption | with_reducible intro _
       | (extract_lets +onlyGivenNames y; refine canonical_cut y ?_ ?_; (on_goal 2 => intro _; clear_value y); subst y)
       | with_reducible apply reach_canonical | with_reducible apply ih | with_reducible apply canonical_ite
       | with_reducible apply optKeeps1_none | with_reducible apply optKeeps1_ite | with_reducible apply optKeeps1_map

theorem inject_canonical {s t o bytes poison} (hs : s.canonical) :
    (@inject s t o bytes poison).canonical := by
  unfold inject
  repeat' first
     | with_reducible assumption
     | (extract_lets +onlyGivenNames y; refine canonical_cut y ?_ ?_; (on_goal 2 => intro _; clear_value y); subst y)
     | (extract_lets +onlyGivenNames y; subst y) | with_reducible apply returnBeats_canonical
     | with_reducible apply setCirc_canonical | with_reducible apply canonical_ite | split
     | fail_if_no_progress with_reducible refine canonical_mk (canonical_fold ?_)

/-- A moving row whose state is canonical where it holds one. -/
def Moving.Keeps : Moving → Prop
  | .absent s _ => s.canonical
  | .bad _ => True
  | .row s _ _ _ _ => s.canonical

theorem memberRow_keeps {s : State} {t : TileId} {o : EOp} {parity again : List Nat} (hs : s.canonical) :
    (memberRow s t o parity again).Keeps := by
  unfold memberRow
  extract_lets k
  cases e : takeBeats t parity again k (o.row * k) s with
  | none => exact hs
  | some p =>
    obtain ⟨s1, bs⟩ := p
    have h := opt1_canonical e (takeBeats_canonical hs)
    dsimp only
    split
    · trivial
    · exact h

theorem turnedRow_keeps {s : State} {t : TileId} {o : EOp} (hs : s.canonical) : (turnedRow s t o).Keeps := by
  unfold turnedRow
  split
  rename_i s1 o1 f e
  have h1 : s1.canonical := pair1_canonical e (lvIn_canonical hs)
  split
  · trivial
  · split
    · exact h1
    · extract_lets bad row s2 s3
      have h2 : s2.canonical := setLv_canonical h1
      show s3.canonical
      unfold s3
      split
      · exact tileOut_canonical h2
      · exact h2

theorem movingRow_keeps {s : State} {t : TileId} {o : EOp} {parity again : List Nat} (hs : s.canonical) :
    (movingRow s t o parity again).Keeps := by
  unfold movingRow
  split
  · exact memberRow_keeps hs
  split
  · exact hs
  split
  · exact turnedRow_keeps hs
  · cases e : takeRow s t o.task o.b o.row o.sizeM with
    | none => exact hs
    | some p => exact opt1_canonical e (takeRow_canonical hs)

theorem movingRow_absent {s s' : State} {t : TileId} {o o' : EOp} {parity again : List Nat}
    (e : movingRow s t o parity again = .absent s' o') (hs : s.canonical) : s'.canonical := by
  have h := movingRow_keeps (t := t) (o := o) (parity := parity) (again := again) hs
  rw [e] at h
  exact h

theorem movingRow_row {s s' : State} {t : TileId} {o o' : EOp} {parity again : List Nat} {b m d}
    (e : movingRow s t o parity again = .row s' o' b m d) (hs : s.canonical) : s'.canonical := by
  have h := movingRow_keeps (t := t) (o := o) (parity := parity) (again := again) hs
  rw [e] at h
  exact h

theorem runRows_canonical {parity again a2 a3 a4 a5} (ha3 : a3.canonical) :
    (@runRows parity again a2 a3 a4 a5).1.canonical := by
  induction a2 generalizing a3 a4 a5 with
  | zero =>
    unfold runRows
    repeat' first
       | with_reducible assumption
  | succ f ih =>
    unfold runRows
    repeat' first
       | with_reducible assumption
       | (extract_lets +onlyGivenNames y; refine canonical_cut y ?_ ?_; (on_goal 2 => intro _; clear_value y); subst y)
       | with_reducible apply perfTile_canonical | with_reducible apply satAdd_canonical
       | with_reducible apply inject_canonical | with_reducible apply outRow_canonical
       | refine movingRow_absent (by assumption) ?_ | refine movingRow_row (by assumption) ?_ | with_reducible apply ih
       | with_reducible apply canonical_ite | with_reducible apply canonical_ite_fst | split

theorem ringExpire_canonical {s r} (hs : s.canonical) :
    (@ringExpire s r).canonical := by
  unfold ringExpire
  repeat' first
     | with_reducible assumption | with_reducible intro _ | (extract_lets +onlyGivenNames y; subst y)
     | with_reducible apply reach_canonical | with_reducible apply canonical_foldl

theorem drainEnd_canonical {s t} (hs : s.canonical) :
    (@drainEnd s t).canonical := by
  unfold drainEnd
  repeat' first
     | with_reducible assumption
     | (extract_lets +onlyGivenNames y; refine canonical_cut y ?_ ?_; (on_goal 2 => intro _; clear_value y); subst y)
     | (extract_lets +onlyGivenNames y; subst y) | with_reducible apply outRowOf_canonical
     | with_reducible apply setFld_canonical | with_reducible apply opComplete_canonical
     | with_reducible apply perfTile_canonical | with_reducible apply satAdd_canonical
     | with_reducible apply canonical_ite | split
     | fail_if_no_progress with_reducible refine canonical_mk (canonical_fold ?_)

theorem passRun_canonical {s t o parity again} (hs : s.canonical) :
    (@passRun s t o parity again).canonical := by
  unfold passRun
  repeat' first
     | with_reducible assumption | with_reducible apply passEnd_canonical | with_reducible apply passLoad_canonical
     | with_reducible apply opFault_canonical | with_reducible apply runRows_canonical
     | with_reducible apply progress_canonical | with_reducible apply showPass_canonical
     | with_reducible apply canonical_ite | with_reducible apply canonical_ite_fst

theorem ringFault_canonical {s x} (hs : s.canonical) :
    (@ringFault s x).canonical := by
  unfold ringFault
  repeat' first
     | with_reducible assumption
     | (extract_lets +onlyGivenNames y; refine canonical_cut y ?_ ?_; (on_goal 2 => intro _; clear_value y); subst y)
     | with_reducible apply parityAt_canonical | split
     | fail_if_no_progress with_reducible refine canonical_mk (canonical_fold ?_)

theorem execArrayPassComplete_canonical {a0 a1} (ha1 : a1.canonical) :
    OutKeeps (@execArrayPassComplete a0 a1) := by
  unfold execArrayPassComplete
  repeat' first
     | with_reducible assumption | with_reducible intro _
     | (extract_lets +onlyGivenNames y; refine canonical_cut y ?_ ?_; (on_goal 2 => intro _; clear_value y); subst y)
     | with_reducible apply ringMeets_canonical | with_reducible apply ringFault_canonical
     | with_reducible apply drainEnd_canonical | with_reducible apply passRun_canonical
     | with_reducible apply ringExpire_canonical | with_reducible apply canonical_ite
     | with_reducible apply canonical_foldl | with_reducible apply outKeeps_next | split

theorem drainPass_canonical {s t} (hs : s.canonical) :
    (@drainPass s t).canonical := by
  unfold drainPass
  repeat' first
     | with_reducible assumption
     | (extract_lets +onlyGivenNames y; refine canonical_cut y ?_ ?_; (on_goal 2 => intro _; clear_value y); subst y)
     | with_reducible apply setEng_canonical | split
     | fail_if_no_progress with_reducible refine canonical_mk (canonical_fold ?_)

theorem execArrayPassBegin_canonical {a0 a1} (ha1 : a1.canonical) :
    OutKeeps (@execArrayPassBegin a0 a1) := by
  unfold execArrayPassBegin
  repeat' first
     | with_reducible assumption | with_reducible intro _
     | (extract_lets +onlyGivenNames y; refine canonical_cut y ?_ ?_; (on_goal 2 => intro _; clear_value y); subst y)
     | (extract_lets +onlyGivenNames y; subst y) | with_reducible apply drainPass_canonical
     | with_reducible apply opFault_canonical | with_reducible apply setEng_canonical
     | with_reducible apply setFld_canonical | with_reducible apply ringExpire_canonical
     | with_reducible apply reach_canonical | with_reducible apply showPass_canonical
     | with_reducible apply canonical_ite | with_reducible apply canonical_foldl | with_reducible apply outKeeps_next
     | split

/-! ## Machine/Louvre.lean -/

theorem lvEmit_canonical {a0 a1 a2 a3} (ha1 : a1.canonical) :
    (@lvEmit a0 a1 a2 a3).1.canonical := by
  induction a0 generalizing a1 a2 a3 with
  | zero =>
    unfold lvEmit
    repeat' first
       | with_reducible assumption
  | succ f ih =>
    unfold lvEmit
    repeat' first
       | with_reducible assumption | (extract_lets +onlyGivenNames y; subst y) | with_reducible apply putRow_canonical
       | with_reducible apply ih | with_reducible apply canonical_ite_fst
       | with_reducible refine opt_canonical (by assumption) ?_ | split

theorem lvOutput_canonical {s t} (hs : s.canonical) :
    (@lvOutput s t).canonical := by
  unfold lvOutput
  repeat' first
     | with_reducible assumption
     | (extract_lets +onlyGivenNames y; refine canonical_cut y ?_ ?_; (on_goal 2 => intro _; clear_value y); subst y)
     | with_reducible apply lvEmit_canonical | with_reducible apply bump_canonical
     | with_reducible apply setLv_canonical | with_reducible apply tileOut_canonical
     | with_reducible apply opComplete_canonical | with_reducible apply canonical_ite | split

theorem lvInput_canonical {s t} (hs : s.canonical) :
    (@lvInput s t).canonical := by
  unfold lvInput
  repeat' first
     | with_reducible assumption | with_reducible apply lvIn_canonical | with_reducible apply opFault_canonical
     | with_reducible apply retire_canonical | with_reducible apply progress_canonical
     | with_reducible apply canonical_ite | split

theorem lvRun_canonical {a0 a1 a2} (ha1 : a1.canonical) :
    (@lvRun a0 a1 a2).canonical := by
  induction a0 generalizing a1 a2 with
  | zero =>
    unfold lvRun
    repeat' first
       | with_reducible assumption
  | succ f ih =>
    unfold lvRun
    repeat' first
       | with_reducible assumption
       | (extract_lets +onlyGivenNames y; refine canonical_cut y ?_ ?_; (on_goal 2 => intro _; clear_value y); subst y)
       | with_reducible apply lvOutput_canonical | with_reducible apply lvInput_canonical | with_reducible apply ih
       | with_reducible apply canonical_ite

theorem execLouvreTransferComplete_canonical {t s} (hs : s.canonical) :
    OutKeeps (@execLouvreTransferComplete t s) := by
  unfold execLouvreTransferComplete
  repeat' first
     | with_reducible assumption | with_reducible apply lvRun_canonical | with_reducible apply canonical_ite
     | with_reducible apply outKeeps_next

theorem execLvr_canonical {t h s} (hs : s.canonical) :
    OutKeeps (@execLvr t h s) := by
  unfold execLvr
  repeat' first
     | with_reducible assumption | with_reducible intro _ | (extract_lets +onlyGivenNames y; subst y)
     | with_reducible apply issue_canonical | with_reducible apply Iss.check_canonical
     | with_reducible apply Iss.next_canonical | with_reducible apply acceptOp_canonical
     | with_reducible apply Iss.wait_canonical | with_reducible apply canonical_ite | with_reducible apply outKeeps_next

/-! ## Machine/Vector.lean -/

theorem execCurveLoadComplete_canonical {t slot s} (hs : s.canonical) :
    OutKeeps (@execCurveLoadComplete t slot s) := by
  unfold execCurveLoadComplete
  repeat' first
     | with_reducible assumption | (extract_lets +onlyGivenNames y; subst y) | with_reducible apply setFld_canonical
     | with_reducible apply canonical_ite | with_reducible apply outKeeps_next | split
     | fail_if_no_progress with_reducible refine canonical_mk (canonical_fold ?_)

theorem vDest_canonical {s t o rc poison} (hs : s.canonical) :
    OptKeeps (@vDest s t o rc poison) := by
  unfold vDest
  repeat' first
     | with_reducible assumption | with_reducible apply accSetRow_canonical | with_reducible apply putRow_canonical
     | with_reducible apply optKeeps_some | split

theorem vCount_canonical {s t o rc} (hs : s.canonical) :
    (@vCount s t o rc).canonical := by
  unfold vCount
  repeat' first
     | with_reducible assumption
     | (extract_lets +onlyGivenNames y; refine canonical_cut y ?_ ?_; (on_goal 2 => intro _; clear_value y); subst y)
     | (extract_lets +onlyGivenNames y; subst y) | with_reducible apply satAdd_canonical
     | with_reducible apply perfTile_canonical | with_reducible apply canonical_ite

theorem vec_canonical {t h minor s} (hs : s.canonical) :
    (@vec t h minor s).canonical := by
  unfold vec
  repeat' first
     | with_reducible assumption | with_reducible intro _ | (extract_lets +onlyGivenNames y; subst y)
     | with_reducible apply issue_canonical | with_reducible apply Iss.check_canonical
     | with_reducible apply Iss.next_canonical | with_reducible apply acceptOp_canonical
     | with_reducible apply Iss.wait_canonical | with_reducible apply canonical_ite

theorem execDropmask_canonical {t h s} (hs : s.canonical) :
    OutKeeps (@execDropmask t h s) := by
  unfold execDropmask
  repeat' first
     | with_reducible assumption | with_reducible apply vec_canonical | with_reducible apply outKeeps_next

theorem execMask_canonical {t h s} (hs : s.canonical) :
    OutKeeps (@execMask t h s) := by
  unfold execMask
  repeat' first
     | with_reducible assumption | with_reducible apply vec_canonical | with_reducible apply outKeeps_next

theorem execDcurve_canonical {t h s} (hs : s.canonical) :
    OutKeeps (@execDcurve t h s) := by
  unfold execDcurve
  repeat' first
     | with_reducible assumption | with_reducible apply vec_canonical | with_reducible apply outKeeps_next

theorem execRsqrt_canonical {t h s} (hs : s.canonical) :
    OutKeeps (@execRsqrt t h s) := by
  unfold execRsqrt
  repeat' first
     | with_reducible assumption | with_reducible apply vec_canonical | with_reducible apply outKeeps_next

theorem vSource_canonical {s t o loc} (hs : s.canonical) :
    OptKeeps1 (@vSource s t o loc) := by
  unfold vSource
  repeat' first
     | with_reducible assumption | (extract_lets +onlyGivenNames y; subst y) | with_reducible apply takeRow_canonical
     | with_reducible apply optKeeps1_some | with_reducible apply optKeeps1_none
     | with_reducible refine opt1_canonical (by assumption) ?_ | split

theorem vFetch_canonical {s t o} (hs : s.canonical) :
    OptKeeps1 (@vFetch s t o) := by
  unfold vFetch
  repeat' first
     | with_reducible assumption | (extract_lets +onlyGivenNames y; subst y) | with_reducible apply vSource_canonical
     | with_reducible apply optKeeps1_some | with_reducible apply optKeeps1_none | with_reducible apply optKeeps1_ite
     | with_reducible refine opt1_canonical (by assumption) ?_ | split

theorem loadWords_canonical {s t c pa n} (hs : s.canonical) :
    (@loadWords s t c pa n).1.canonical := by
  unfold loadWords
  repeat' first
     | with_reducible assumption | (extract_lets +onlyGivenNames y; subst y) | with_reducible apply readPiece_canonical
     | with_reducible apply perfTile_canonical | with_reducible apply satAdd_canonical
     | with_reducible apply canonical_ite | with_reducible apply canonical_ite_fst

theorem execTableLoadComplete_canonical {t n slot s} (hs : s.canonical) :
    OutKeeps (@execTableLoadComplete t n slot s) := by
  unfold execTableLoadComplete
  repeat' first
     | with_reducible assumption
     | (extract_lets +onlyGivenNames y; refine canonical_cut y ?_ ?_; (on_goal 2 => intro _; clear_value y); subst y)
     | (extract_lets +onlyGivenNames y; subst y) | with_reducible apply setFld_canonical
     | with_reducible apply canonical_ite | with_reducible apply outKeeps_next | split
     | fail_if_no_progress with_reducible refine canonical_mk (canonical_fold ?_)

theorem execMin_canonical {t h s} (hs : s.canonical) :
    OutKeeps (@execMin t h s) := by
  unfold execMin
  repeat' first
     | with_reducible assumption | with_reducible apply vec_canonical | with_reducible apply outKeeps_next

theorem execRcp_canonical {t h s} (hs : s.canonical) :
    OutKeeps (@execRcp t h s) := by
  unfold execRcp
  repeat' first
     | with_reducible assumption | with_reducible apply vec_canonical | with_reducible apply outKeeps_next

theorem vMaskWord_canonical {s t o} (hs : s.canonical) :
    (@vMaskWord s t o).1.canonical := by
  unfold vMaskWord
  repeat' first
     | with_reducible assumption | with_reducible apply readPiece_canonical | split

theorem execTableLoad_canonical {t h s} (hs : s.canonical) :
    OutKeeps (@execTableLoad t h s) := by
  unfold execTableLoad
  repeat' first
     | with_reducible assumption | with_reducible intro _ | (extract_lets +onlyGivenNames y; subst y)
     | with_reducible apply issue_canonical | with_reducible apply Iss.check_canonical
     | with_reducible apply Iss.wait_canonical | with_reducible apply loadWords_canonical
     | with_reducible apply Iss.next_canonical | with_reducible apply canonical_ite | with_reducible apply outKeeps_next
     | split | fail_if_no_progress with_reducible refine canonical_mk (canonical_fold ?_)

theorem execMax_canonical {t h s} (hs : s.canonical) :
    OutKeeps (@execMax t h s) := by
  unfold execMax
  repeat' first
     | with_reducible assumption | with_reducible apply vec_canonical | with_reducible apply outKeeps_next

theorem execCvt_canonical {t h s} (hs : s.canonical) :
    OutKeeps (@execCvt t h s) := by
  unfold execCvt
  repeat' first
     | with_reducible assumption | with_reducible apply vec_canonical | with_reducible apply outKeeps_next

theorem vRun_canonical {a0 a1 a2 a3} (ha1 : a1.canonical) :
    (@vRun a0 a1 a2 a3).canonical := by
  induction a0 generalizing a1 a2 a3 with
  | zero =>
    unfold vRun
    repeat' first
       | with_reducible assumption | with_reducible apply progress_canonical
  | succ f ih =>
    unfold vRun
    repeat' first
       | with_reducible assumption
       | (extract_lets +onlyGivenNames y; refine canonical_cut y ?_ ?_; (on_goal 2 => intro _; clear_value y); subst y)
       | (extract_lets +onlyGivenNames y; subst y) | with_reducible apply progress_canonical
       | with_reducible apply opComplete_canonical | with_reducible apply retire_canonical
       | with_reducible apply vFetch_canonical | with_reducible apply vMaskWord_canonical
       | with_reducible apply opFault_canonical | with_reducible apply vDest_canonical
       | with_reducible apply perfTile_canonical | with_reducible apply vCount_canonical
       | with_reducible apply satAdd_canonical | with_reducible apply ih | with_reducible apply canonical_ite
       | with_reducible apply canonical_ite_fst | with_reducible refine opt_canonical (by assumption) ?_
       | with_reducible refine opt1_canonical (by assumption) ?_ | split

theorem execVectorOpComplete_canonical {t s} (hs : s.canonical) :
    OutKeeps (@execVectorOpComplete t s) := by
  unfold execVectorOpComplete
  repeat' first
     | with_reducible assumption | with_reducible apply vRun_canonical | with_reducible apply canonical_ite
     | with_reducible apply outKeeps_next | split

theorem execMul_canonical {t h s} (hs : s.canonical) :
    OutKeeps (@execMul t h s) := by
  unfold execMul
  repeat' first
     | with_reducible assumption | with_reducible apply vec_canonical | with_reducible apply outKeeps_next

theorem execRsum_canonical {t h s} (hs : s.canonical) :
    OutKeeps (@execRsum t h s) := by
  unfold execRsum
  repeat' first
     | with_reducible assumption | with_reducible apply vec_canonical | with_reducible apply outKeeps_next

theorem execFma_canonical {t h s} (hs : s.canonical) :
    OutKeeps (@execFma t h s) := by
  unfold execFma
  repeat' first
     | with_reducible assumption | with_reducible apply vec_canonical | with_reducible apply outKeeps_next

theorem execRmax_canonical {t h s} (hs : s.canonical) :
    OutKeeps (@execRmax t h s) := by
  unfold execRmax
  repeat' first
     | with_reducible assumption | with_reducible apply vec_canonical | with_reducible apply outKeeps_next

theorem execCurveLoad_canonical {t h s} (hs : s.canonical) :
    OutKeeps (@execCurveLoad t h s) := by
  unfold execCurveLoad
  repeat' first
     | with_reducible assumption | with_reducible intro _
     | (extract_lets +onlyGivenNames y; refine canonical_cut y ?_ ?_; (on_goal 2 => intro _; clear_value y); subst y)
     | (extract_lets +onlyGivenNames y; subst y) | with_reducible apply issue_canonical
     | with_reducible apply Iss.check_canonical | with_reducible apply Iss.wait_canonical
     | with_reducible apply loadWords_canonical | with_reducible apply Iss.next_canonical
     | with_reducible apply setFld_canonical | with_reducible apply canonical_ite | with_reducible apply outKeeps_next
     | fail_if_no_progress with_reducible refine canonical_mk (canonical_fold ?_)

theorem execSign_canonical {t h s} (hs : s.canonical) :
    OutKeeps (@execSign t h s) := by
  unfold execSign
  repeat' first
     | with_reducible assumption | with_reducible apply vec_canonical | with_reducible apply outKeeps_next

theorem execAdd_canonical {t h s} (hs : s.canonical) :
    OutKeeps (@execAdd t h s) := by
  unfold execAdd
  repeat' first
     | with_reducible assumption | with_reducible apply vec_canonical | with_reducible apply outKeeps_next

theorem execCurve_canonical {t h s} (hs : s.canonical) :
    OutKeeps (@execCurve t h s) := by
  unfold execCurve
  repeat' first
     | with_reducible assumption | with_reducible apply vec_canonical | with_reducible apply outKeeps_next

end Sys2Proof.Machine
end

