-- ==== Sys2Proof/Laws/CanonThreads.lean ====
section
/-! SUPPORT. The canonical form is kept by the functions and meanings of the threads and the chains: one lemma each. -/

namespace Sys2Proof.Machine

/-! ## Machine/Scalar.lean -/

theorem execJr_canonical {t h s} (hs : s.canonical) :
    OutKeeps (@execJr t h s) := by
  unfold execJr
  repeat' first
     | with_reducible assumption | with_reducible intro _ | (extract_lets +onlyGivenNames y; subst y)
     | with_reducible apply issue_canonical | with_reducible apply Iss.goto_canonical
     | with_reducible apply setGreg_canonical | with_reducible apply outKeeps_next

theorem execHalt_canonical {t h s} (hs : s.canonical) :
    OutKeeps (@execHalt t h s) := by
  unfold execHalt
  repeat' first
     | with_reducible assumption | with_reducible intro _ | with_reducible apply issue_canonical
     | with_reducible apply setThreadState_canonical | with_reducible apply outKeeps_next

theorem execPcmp_canonical {t h s} (hs : s.canonical) :
    OutKeeps (@execPcmp t h s) := by
  unfold execPcmp
  repeat' first
     | with_reducible assumption | with_reducible intro _ | (extract_lets +onlyGivenNames y; subst y)
     | with_reducible apply issue_canonical | with_reducible apply Iss.next_canonical
     | with_reducible apply setPred_canonical | with_reducible apply outKeeps_next

theorem execLoop_canonical {t h s} (hs : s.canonical) :
    OutKeeps (@execLoop t h s) := by
  unfold execLoop
  repeat' first
     | with_reducible assumption | with_reducible intro _
     | (extract_lets +onlyGivenNames y; refine canonical_cut y ?_ ?_; (on_goal 2 => intro _; clear_value y); subst y)
     | (extract_lets +onlyGivenNames y; subst y) | with_reducible apply issue_canonical
     | with_reducible apply setGreg_canonical | with_reducible apply Iss.goto_canonical
     | with_reducible apply outKeeps_next

theorem execFence_canonical {t h s} (hs : s.canonical) :
    OutKeeps (@execFence t h s) := by
  unfold execFence
  repeat' first
     | with_reducible assumption | with_reducible intro _ | with_reducible apply issue_canonical
     | with_reducible apply Iss.next_canonical | with_reducible apply outKeeps_next

theorem execBr_canonical {t h s} (hs : s.canonical) :
    OutKeeps (@execBr t h s) := by
  unfold execBr
  repeat' first
     | with_reducible assumption | with_reducible intro _ | with_reducible apply issue_canonical
     | with_reducible apply Iss.goto_canonical | with_reducible apply setGreg_canonical
     | with_reducible apply outKeeps_next

theorem execSpawn_canonical {t h s} (hs : s.canonical) :
    OutKeeps (@execSpawn t h s) := by
  unfold execSpawn
  repeat' first
     | with_reducible assumption | with_reducible intro _
     | (extract_lets +onlyGivenNames y; refine canonical_cut y ?_ ?_; (on_goal 2 => intro _; clear_value y); subst y)
     | (extract_lets +onlyGivenNames y; subst y) | with_reducible apply issue_canonical
     | with_reducible apply Iss.check_canonical | with_reducible apply startThread_canonical
     | with_reducible apply Iss.next_canonical | with_reducible apply outKeeps_next

theorem execPlog_canonical {t h s} (hs : s.canonical) :
    OutKeeps (@execPlog t h s) := by
  unfold execPlog
  repeat' first
     | with_reducible assumption | with_reducible intro _ | (extract_lets +onlyGivenNames y; subst y)
     | with_reducible apply issue_canonical | with_reducible apply Iss.next_canonical
     | with_reducible apply setPred_canonical | with_reducible apply outKeeps_next

theorem execAlu_canonical {t h s} (hs : s.canonical) :
    OutKeeps (@execAlu t h s) := by
  unfold execAlu
  repeat' first
     | with_reducible assumption | with_reducible intro _ | with_reducible apply issue_canonical
     | with_reducible apply Iss.next_canonical | with_reducible apply setGreg_canonical
     | with_reducible apply outKeeps_next

theorem execLi_canonical {t h s} (hs : s.canonical) :
    OutKeeps (@execLi t h s) := by
  unfold execLi
  repeat' first
     | with_reducible assumption | with_reducible intro _ | (extract_lets +onlyGivenNames y; subst y)
     | with_reducible apply issue_canonical | with_reducible apply Iss.next_canonical
     | with_reducible apply setGreg_canonical | with_reducible apply outKeeps_next

theorem execWaitc_canonical {t h s} (hs : s.canonical) :
    OutKeeps (@execWaitc t h s) := by
  unfold execWaitc
  repeat' first
     | with_reducible assumption | with_reducible intro _
     | (extract_lets +onlyGivenNames y; refine canonical_cut y ?_ ?_; (on_goal 2 => intro _; clear_value y); subst y)
     | with_reducible apply issue_canonical | with_reducible apply Iss.next_canonical
     | with_reducible apply setThreadState_canonical | with_reducible apply canonical_ite
     | with_reducible apply outKeeps_next | fail_if_no_progress with_reducible refine canonical_mk (canonical_fold ?_)

theorem execEngineFault_canonical {t h cause s} (hs : s.canonical) :
    OutKeeps (@execEngineFault t h cause s) := by
  unfold execEngineFault
  repeat' first
     | with_reducible assumption | (extract_lets +onlyGivenNames y; subst y)
     | with_reducible apply threadFault_canonical | with_reducible apply lateFault_canonical
     | with_reducible apply canonical_ite | with_reducible apply outKeeps_next

theorem execAlui_canonical {t h s} (hs : s.canonical) :
    OutKeeps (@execAlui t h s) := by
  unfold execAlui
  repeat' first
     | with_reducible assumption | with_reducible intro _ | with_reducible apply issue_canonical
     | with_reducible apply Iss.next_canonical | with_reducible apply setGreg_canonical
     | with_reducible apply outKeeps_next

theorem execRdsr_canonical {t h s} (hs : s.canonical) :
    OutKeeps (@execRdsr t h s) := by
  unfold execRdsr
  repeat' first
     | with_reducible assumption | with_reducible intro _ | with_reducible apply issue_canonical
     | with_reducible apply Iss.next_canonical | with_reducible apply setGreg_canonical
     | with_reducible apply Iss.fault_canonical | with_reducible apply outKeeps_next | split

theorem execWrsr_canonical {t h s} (hs : s.canonical) :
    OutKeeps (@execWrsr t h s) := by
  unfold execWrsr
  repeat' first
     | with_reducible assumption | with_reducible intro _ | (extract_lets +onlyGivenNames y; subst y)
     | with_reducible apply issue_canonical | with_reducible apply Iss.next_canonical
     | with_reducible apply setReg_canonical | with_reducible apply Iss.fault_canonical
     | with_reducible apply outKeeps_next | split
     | fail_if_no_progress with_reducible refine canonical_mk (canonical_fold ?_)

/-! ## Machine/ThreadMem.lean -/

theorem execSt_canonical {t h s} (hs : s.canonical) :
    OutKeeps (@execSt t h s) := by
  unfold execSt
  repeat' first
     | with_reducible assumption | with_reducible intro _ | (extract_lets +onlyGivenNames y; subst y)
     | with_reducible apply issue_canonical | with_reducible apply Iss.check_canonical
     | with_reducible apply Iss.next_canonical | with_reducible apply spStamp_canonical
     | with_reducible apply spWrite_canonical
     | with_reducible apply outKeeps_next

theorem captureLoad_canonical {x s pa size sx} (hs : s.canonical) :
    (@captureLoad x s pa size sx).canonical := by
  unfold captureLoad
  repeat' first
     | with_reducible assumption
     | (extract_lets +onlyGivenNames y; refine canonical_cut y ?_ ?_; (on_goal 2 => intro _; clear_value y); subst y)
     | (extract_lets +onlyGivenNames y; subst y) | with_reducible apply eccRead_canonical
     | fail_if_no_progress with_reducible refine canonical_mk (canonical_fold ?_)

theorem amo_canonical {t h minor s} (hs : s.canonical) :
    (@amo t h minor s).canonical := by
  unfold amo
  repeat' first
     | with_reducible assumption | with_reducible intro _
     | (extract_lets +onlyGivenNames y; refine canonical_cut y ?_ ?_; (on_goal 2 => intro _; clear_value y); subst y)
     | (extract_lets +onlyGivenNames y; subst y) | with_reducible apply issue_canonical
     | with_reducible apply Iss.check_canonical | with_reducible apply captureLoad_canonical
     | with_reducible apply Iss.next_canonical | with_reducible apply spStamp_canonical
     | with_reducible apply spMerge_canonical
     | with_reducible apply canonical_ite

theorem execAmoadd_canonical {t h s} (hs : s.canonical) :
    OutKeeps (@execAmoadd t h s) := by
  unfold execAmoadd
  repeat' first
     | with_reducible assumption | with_reducible apply amo_canonical | with_reducible apply outKeeps_next

theorem execLd_canonical {t h s} (hs : s.canonical) :
    OutKeeps (@execLd t h s) := by
  unfold execLd
  repeat' first
     | with_reducible assumption | with_reducible intro _ | (extract_lets +onlyGivenNames y; subst y)
     | with_reducible apply issue_canonical | with_reducible apply Iss.check_canonical
     | with_reducible apply Iss.next_canonical | with_reducible apply captureLoad_canonical
     | with_reducible apply outKeeps_next

theorem execAmocas_canonical {t h s} (hs : s.canonical) :
    OutKeeps (@execAmocas t h s) := by
  unfold execAmocas
  repeat' first
     | with_reducible assumption | with_reducible apply amo_canonical | with_reducible apply outKeeps_next

theorem execLoadDelivery_canonical {t h s} (hs : s.canonical) :
    OutKeeps (@execLoadDelivery t h s) := by
  unfold execLoadDelivery
  repeat' first
     | with_reducible assumption
     | (extract_lets +onlyGivenNames y; refine canonical_cut y ?_ ?_; (on_goal 2 => intro _; clear_value y); subst y)
     | with_reducible apply threadFault_canonical | with_reducible apply setFld_canonical
     | with_reducible apply setGreg_canonical | with_reducible apply perfTile_canonical
     | with_reducible apply satAdd_canonical | with_reducible apply canonical_ite | with_reducible apply outKeeps_next
     | split | fail_if_no_progress with_reducible refine canonical_mk (canonical_fold ?_)

theorem execAmoswap_canonical {t h s} (hs : s.canonical) :
    OutKeeps (@execAmoswap t h s) := by
  unfold execAmoswap
  repeat' first
     | with_reducible assumption | with_reducible apply amo_canonical | with_reducible apply outKeeps_next

/-! ## Machine/Chain.lean -/

theorem execChainEnd_canonical {t slot s} (hs : s.canonical) :
    OutKeeps (@execChainEnd t slot s) := by
  unfold execChainEnd
  repeat' first
     | with_reducible assumption
     | (extract_lets +onlyGivenNames y; refine canonical_cut y ?_ ?_; (on_goal 2 => intro _; clear_value y); subst y)
     | (extract_lets +onlyGivenNames y; subst y) | with_reducible apply setReg_canonical
     | with_reducible apply tokAdd_canonical | with_reducible apply completeId_canonical
     | with_reducible apply canonical_ite | with_reducible apply outKeeps_next | split
     | fail_if_no_progress with_reducible refine canonical_mk (canonical_fold ?_)

theorem advanceCycles_canonical {s row target} (hs : s.canonical) :
    (@advanceCycles s row target).canonical := by
  unfold advanceCycles
  repeat' first
     | with_reducible assumption | (extract_lets +onlyGivenNames y; subst y)
     | with_reducible apply advancePeriod_canonical | with_reducible apply canonical_ite

theorem execUcmdComplete_canonical {t s} (hs : s.canonical) :
    OutKeeps (@execUcmdComplete t s) := by
  unfold execUcmdComplete
  repeat' first
     | with_reducible assumption
     | (extract_lets +onlyGivenNames y; refine canonical_cut y ?_ ?_; (on_goal 2 => intro _; clear_value y); subst y)
     | with_reducible apply tokDone_canonical | with_reducible apply spWrite_canonical
     | with_reducible apply canonical_ite | with_reducible apply outKeeps_next | split
     | fail_if_no_progress with_reducible refine canonical_mk (canonical_fold ?_)

theorem readChain_canonical {s t k loc} (hs : s.canonical) :
    (@readChain s t k loc).1.canonical := by
  unfold readChain
  repeat' first
     | with_reducible assumption | (extract_lets +onlyGivenNames y; subst y) | with_reducible apply readPiece_canonical
     | with_reducible apply canonical_ite_fst | split

theorem execChain_canonical {t h s} (hs : s.canonical) :
    OutKeeps (@execChain t h s) := by
  unfold execChain
  repeat' first
     | with_reducible assumption | with_reducible intro _
     | (extract_lets +onlyGivenNames y; refine canonical_cut y ?_ ?_; (on_goal 2 => intro _; clear_value y); subst y)
     | (extract_lets +onlyGivenNames y; subst y) | with_reducible apply issue_canonical
     | with_reducible apply Iss.wait_canonical | with_reducible apply readChain_canonical
     | with_reducible apply Iss.fault_canonical | with_reducible apply canonical_ite
     | with_reducible apply outKeeps_next | with_reducible refine pair1_canonical (by assumption) ?_ | split
     | fail_if_no_progress with_reducible refine canonical_mk (canonical_fold ?_)

theorem beginChain_canonical {s w} (hs : s.canonical) :
    (@beginChain s w).canonical := by
  unfold beginChain
  repeat' first
     | with_reducible assumption
     | (extract_lets +onlyGivenNames y; refine canonical_cut y ?_ ?_; (on_goal 2 => intro _; clear_value y); subst y)
     | (extract_lets +onlyGivenNames y; subst y) | with_reducible apply setReg_canonical
     | with_reducible apply setThreadState_canonical | with_reducible apply perfTile_canonical
     | with_reducible apply Iss.next_canonical | split
     | fail_if_no_progress with_reducible refine canonical_mk (canonical_fold ?_)

theorem execChainBegin_canonical {t cmd s} (hs : s.canonical) :
    OutKeeps (@execChainBegin t cmd s) := by
  unfold execChainBegin
  repeat' first
     | with_reducible assumption | with_reducible intro _ | (extract_lets +onlyGivenNames y; subst y)
     | with_reducible apply beginChain_canonical | with_reducible apply canonical_ite
     | with_reducible apply canonical_foldl | with_reducible apply outKeeps_next | split

theorem markStarted_canonical {s t slot st c} (hs : s.canonical) :
    (@markStarted s t slot st c).canonical := by
  unfold markStarted
  repeat' first
     | with_reducible assumption
     | (extract_lets +onlyGivenNames y; refine canonical_cut y ?_ ?_; (on_goal 2 => intro _; clear_value y); subst y)
     | (extract_lets +onlyGivenNames y; subst y) | with_reducible apply tokSet_canonical | split
     | fail_if_no_progress with_reducible refine canonical_mk (canonical_fold ?_)

theorem startStream_canonical {s t slot st c} (hs : s.canonical) :
    (@startStream s t slot st c).canonical := by
  unfold startStream
  repeat' first
     | with_reducible assumption
     | (extract_lets +onlyGivenNames y; refine canonical_cut y ?_ ?_; (on_goal 2 => intro _; clear_value y); subst y)
     | (extract_lets +onlyGivenNames y; subst y) | with_reducible apply engineFaultOp_canonical
     | with_reducible apply markStarted_canonical | with_reducible apply strmStart_canonical
     | with_reducible apply pumpTile_canonical | with_reducible apply canonical_ite
     | with_reducible refine pair1_canonical (by assumption) ?_ | split

theorem execUcmd_canonical {t h s} (hs : s.canonical) :
    OutKeeps (@execUcmd t h s) := by
  unfold execUcmd
  repeat' first
     | with_reducible assumption | with_reducible intro _ | (extract_lets +onlyGivenNames y; subst y)
     | with_reducible apply issue_canonical | with_reducible apply Iss.check_canonical
     | with_reducible apply Iss.fault_canonical | with_reducible apply Iss.wait_canonical
     | with_reducible apply readPiece_canonical | with_reducible apply Iss.next_canonical
     | with_reducible apply canonical_ite | with_reducible apply outKeeps_next | split
     | fail_if_no_progress with_reducible refine canonical_mk (canonical_fold ?_)

theorem execChainIterationStart_canonical {t slot stage s} (hs : s.canonical) :
    OutKeeps (@execChainIterationStart t slot stage s) := by
  unfold execChainIterationStart
  repeat' first
     | with_reducible assumption
     | (extract_lets +onlyGivenNames y; refine canonical_cut y ?_ ?_; (on_goal 2 => intro _; clear_value y); subst y)
     | (extract_lets +onlyGivenNames y; subst y) | with_reducible apply advanceCycles_canonical
     | with_reducible apply startStream_canonical | with_reducible apply engineFaultOp_canonical
     | with_reducible apply acceptOp_canonical | with_reducible apply markStarted_canonical
     | with_reducible apply canonical_ite | with_reducible apply outKeeps_next | split

theorem execLookaheadCheck_canonical {t n s} (hs : s.canonical) :
    OutKeeps (@execLookaheadCheck t n s) := by
  unfold execLookaheadCheck
  repeat' first
     | with_reducible assumption | with_reducible apply shutRaise_canonical | with_reducible apply canonical_ite
     | with_reducible apply outKeeps_next | split

/-! ## Machine/Threads.lean -/

theorem stateOf_canonical {s o} (hs : s.canonical) (ho : OutKeeps o) :
    (@stateOf s o).canonical := by
  cases o with
  | next t => exact ho t rfl
  | fault f => exact hs
  | refused r => exact hs

theorem present_canonical {t h s} (hs : s.canonical) :
    (@present t h s).canonical := by
  unfold present
  repeat' first
     | with_reducible assumption | (extract_lets +onlyGivenNames y; subst y) | with_reducible apply stateOf_canonical
     | with_reducible apply execAlu_canonical | with_reducible apply execAlui_canonical
     | with_reducible apply execLi_canonical | with_reducible apply execPcmp_canonical
     | with_reducible apply execPlog_canonical | with_reducible apply execBr_canonical
     | with_reducible apply execJr_canonical | with_reducible apply execLoop_canonical
     | with_reducible apply execLd_canonical | with_reducible apply execSt_canonical
     | with_reducible apply execAmoadd_canonical | with_reducible apply execAmoswap_canonical
     | with_reducible apply execAmocas_canonical | with_reducible apply execSpawn_canonical
     | with_reducible apply execHalt_canonical | with_reducible apply execWaitc_canonical
     | with_reducible apply execFence_canonical | with_reducible apply execRdsr_canonical
     | with_reducible apply execWrsr_canonical | with_reducible apply execStrmStart_canonical
     | with_reducible apply execStrmStop_canonical | with_reducible apply execStrmWait_canonical
     | with_reducible apply execBarrier_canonical | with_reducible apply execStrmStat_canonical
     | with_reducible apply execGath_canonical | with_reducible apply execArr_canonical
     | with_reducible apply execLvr_canonical | with_reducible apply vec_canonical
     | with_reducible apply execCurveLoad_canonical | with_reducible apply execTableLoad_canonical
     | with_reducible apply execSend_canonical | with_reducible apply execMsend_canonical
     | with_reducible apply execChain_canonical | with_reducible apply execTinc_canonical
     | with_reducible apply execTwait_canonical | with_reducible apply execTtake_canonical
     | with_reducible apply execTread_canonical | with_reducible apply execTsig_canonical
     | with_reducible apply execUcmd_canonical | with_reducible apply outKeeps_next | with_reducible apply outKeeps_ite
     | split

theorem execThreadWaitEnd_canonical {t h s} (hs : s.canonical) :
    OutKeeps (@execThreadWaitEnd t h s) := by
  unfold execThreadWaitEnd
  repeat' first
     | with_reducible assumption
     | (extract_lets +onlyGivenNames y; refine canonical_cut y ?_ ?_; (on_goal 2 => intro _; clear_value y); subst y)
     | (extract_lets +onlyGivenNames y; subst y) | with_reducible apply advanceCycles_canonical
     | with_reducible apply setThreadState_canonical | with_reducible apply present_canonical
     | with_reducible apply canonical_ite | with_reducible apply outKeeps_next
     | fail_if_no_progress with_reducible refine canonical_mk (canonical_fold ?_)

end Sys2Proof.Machine
end

