-- ==== Sys2Proof/Laws/CanonQueues.lean ====
section
/-! SUPPORT. The canonical form is kept by the functions and meanings of commands: what the X-die engines share, queues, contexts and the loader: one lemma each. -/

namespace Sys2Proof.Machine

/-! ## Machine/Xdie.lean -/

theorem ledgerFlag_canonical {s n j} (hs : s.canonical) :
    (@ledgerFlag s n j).canonical := by
  unfold ledgerFlag
  repeat' first
     | with_reducible assumption | with_reducible apply setFld_canonical

theorem leaveReplay_canonical {s n} (hs : s.canonical) :
    (@leaveReplay s n).canonical := by
  unfold leaveReplay
  repeat' first
     | with_reducible assumption | with_reducible apply setFld_canonical | with_reducible apply setRed_canonical | split

theorem putBucket_canonical {s n b} (hs : s.canonical) :
    (@putBucket s n b).canonical := by
  unfold putBucket
  repeat' first
     | with_reducible assumption | with_reducible apply setRed_canonical | split

theorem replayDrop_canonical {s n b} (hs : s.canonical) :
    (@replayDrop s n b).canonical := by
  unfold replayDrop
  repeat' first
     | with_reducible assumption | with_reducible apply setRed_canonical | split

theorem openFates_canonical {s N} (hs : s.canonical) :
    (@openFates s N).2.canonical := by
  unfold openFates
  repeat' first
     | with_reducible assumption | with_reducible intro _ | with_reducible apply takeFree_canonical
     | with_reducible apply canonical_foldl_snd

theorem recDecision_canonical {s j b N} (hs : s.canonical) :
    (@recDecision s j b N).2.canonical := by
  unfold recDecision
  repeat' first
     | with_reducible assumption | with_reducible apply openFates_canonical | with_reducible apply takeFree_canonical
     | split

theorem othersZeroed_canonical {s n b N fate} (hs : s.canonical) :
    (@othersZeroed s n b N fate).2.canonical := by
  unfold othersZeroed
  repeat' first
     | with_reducible assumption | with_reducible intro _ | with_reducible apply takeFree_canonical
     | with_reducible apply canonical_foldl_snd

theorem mkRecord_canonical {s n j b aborted diverged} (hs : s.canonical) :
    (@mkRecord s n j b aborted diverged).2.canonical := by
  unfold mkRecord
  repeat' first
     | with_reducible assumption | (extract_lets +onlyGivenNames y; subst y)
     | with_reducible apply recDecision_canonical | with_reducible apply othersZeroed_canonical
     | with_reducible apply canonical_ite_snd

theorem engineWrite_canonical {s n va bs poison} (hs : s.canonical) :
    (@engineWrite s n va bs poison).canonical := by
  unfold engineWrite
  repeat' first
     | with_reducible assumption | with_reducible apply writeVa_canonical | with_reducible apply canonical_ite

theorem writeDone_canonical {s n va step phase} (hs : s.canonical) :
    (@writeDone s n va step phase).canonical := by
  unfold writeDone
  repeat' first
     | with_reducible assumption | with_reducible apply engineWrite_canonical

theorem ledgerWrite_canonical {s n j rec'} (hs : s.canonical) :
    (@ledgerWrite s n j rec').canonical := by
  unfold ledgerWrite
  repeat' first
     | with_reducible assumption
     | (extract_lets +onlyGivenNames y; refine canonical_cut y ?_ ?_; (on_goal 2 => intro _; clear_value y); subst y)
     | (extract_lets +onlyGivenNames y; subst y) | with_reducible apply engineWrite_canonical
     | with_reducible apply ledgerFlag_canonical | with_reducible apply setFld_canonical

theorem flushRecs_canonical {a0 a1 a2} (ha2 : a2.canonical) :
    (@flushRecs a0 a1 a2).canonical := by
  induction a0 generalizing a1 a2 with
  | zero =>
    unfold flushRecs
    repeat' first
       | with_reducible assumption
  | succ f ih =>
    unfold flushRecs
    repeat' first
       | with_reducible assumption
       | (extract_lets +onlyGivenNames y; refine canonical_cut y ?_ ?_; (on_goal 2 => intro _; clear_value y); subst y)
       | (extract_lets +onlyGivenNames y; subst y) | with_reducible apply ledgerWrite_canonical
       | with_reducible apply setRed_canonical | with_reducible apply writeDone_canonical
       | with_reducible apply putBucket_canonical | with_reducible apply ih | with_reducible apply canonical_ite | split

theorem endBucket_canonical {s n b aborted diverged} (hs : s.canonical) :
    (@endBucket s n b aborted diverged).canonical := by
  unfold endBucket
  repeat' first
     | with_reducible assumption | (extract_lets +onlyGivenNames y; subst y) | with_reducible apply mkRecord_canonical
     | with_reducible apply setRed_canonical | with_reducible apply putBucket_canonical
     | with_reducible apply writeDone_canonical | with_reducible apply flushRecs_canonical
     | with_reducible apply canonical_ite | split

theorem abortStep_canonical {s n b} (hs : s.canonical) :
    (@abortStep s n b).canonical := by
  unfold abortStep
  repeat' first
     | with_reducible assumption
     | (extract_lets +onlyGivenNames y; refine canonical_cut y ?_ ?_; (on_goal 2 => intro _; clear_value y); subst y)
     | (extract_lets +onlyGivenNames y; subst y) | with_reducible apply satAdd_canonical
     | with_reducible apply replayDrop_canonical | with_reducible apply endBucket_canonical
     | with_reducible apply putBucket_canonical | with_reducible apply canonical_ite

theorem abortBucket_canonical {s n b} (hs : s.canonical) :
    (@abortBucket s n b).canonical := by
  unfold abortBucket
  repeat' first
     | with_reducible assumption | with_reducible apply abortStep_canonical | with_reducible apply canonical_ite

theorem sendRank_canonical {s n k op payload poison} (hs : s.canonical) :
    (@sendRank s n k op payload poison).canonical := by
  unfold sendRank
  repeat' first
     | with_reducible assumption | fail_if_no_progress with_reducible refine canonical_mk (canonical_fold ?_)

theorem sendAll_canonical {s n op payload poison} (hs : s.canonical) :
    (@sendAll s n op payload poison).canonical := by
  unfold sendAll
  repeat' first
     | with_reducible assumption | with_reducible intro _ | with_reducible apply sendRank_canonical
     | with_reducible apply canonical_ite | with_reducible apply canonical_foldl

theorem sendHead_canonical {s n op payload} (hs : s.canonical) :
    (@sendHead s n op payload).canonical := by
  unfold sendHead
  repeat' first
     | with_reducible assumption | with_reducible apply canonical_ite
     | fail_if_no_progress with_reducible refine canonical_mk (canonical_fold ?_)

theorem sendAbort_canonical {s n b cause} (hs : s.canonical) :
    (@sendAbort s n b cause).canonical := by
  unfold sendAbort
  repeat' first
     | with_reducible assumption | with_reducible apply sendAll_canonical | with_reducible apply sendHead_canonical
     | with_reducible apply canonical_ite

theorem abortBuckets_canonical {s n cause} (hs : s.canonical) :
    (@abortBuckets s n cause).canonical := by
  unfold abortBuckets
  repeat' first
     | with_reducible assumption | with_reducible intro _ | with_reducible apply leaveReplay_canonical
     | with_reducible apply putBucket_canonical | with_reducible apply abortBucket_canonical
     | with_reducible apply sendAbort_canonical | with_reducible apply canonical_ite
     | with_reducible apply canonical_foldl | split

theorem abortBatch_canonical {s n} (hs : s.canonical) :
    (@abortBatch s n).canonical := by
  unfold abortBatch
  repeat' first
     | with_reducible assumption
     | (extract_lets +onlyGivenNames y; refine canonical_cut y ?_ ?_; (on_goal 2 => intro _; clear_value y); subst y)
     | (extract_lets +onlyGivenNames y; subst y) | with_reducible apply writeDone_canonical
     | with_reducible apply setDsp_canonical | with_reducible apply canonical_ite | split

theorem setInfo_canonical {s n x} (hs : s.canonical) :
    (@setInfo s n x).canonical := by
  unfold setInfo
  repeat' first
     | with_reducible assumption | fail_if_no_progress with_reducible refine canonical_mk (canonical_fold ?_)

theorem takeRandom_canonical {s n} (hs : s.canonical) :
    (@takeRandom s n).2.canonical := by
  unfold takeRandom
  repeat' first
     | with_reducible assumption | (extract_lets +onlyGivenNames y; subst y)
     | fail_if_no_progress with_reducible refine canonical_mk (canonical_fold ?_)

/-! ## Machine/Queue.lean -/

theorem finish_canonical {s c st} (hs : s.canonical) :
    (@finish s c st).canonical := by
  unfold finish
  repeat' first
     | with_reducible assumption | with_reducible apply complete_canonical

theorem copyTo_canonical {s c ps} (hs : s.canonical) :
    (@copyTo s c ps).canonical := by
  unfold copyTo
  repeat' first
     | with_reducible assumption | (extract_lets +onlyGivenNames y; subst y)
     | fail_if_no_progress with_reducible refine canonical_mk (canonical_fold ?_)

theorem runChainTile_canonical {t c s} (hs : s.canonical) :
    (@runChainTile t c s).canonical := by
  unfold runChainTile
  repeat' first
     | with_reducible assumption | (extract_lets +onlyGivenNames y; subst y) | with_reducible apply finish_canonical
     | with_reducible apply readLines_canonical | with_reducible apply canonical_ite | split
     | fail_if_no_progress with_reducible refine canonical_mk (canonical_fold ?_)

theorem noteGang_canonical {s src g n e} (hs : s.canonical) :
    (@noteGang s src g n e).canonical := by
  unfold noteGang
  repeat' first
     | with_reducible assumption | fail_if_no_progress with_reducible refine canonical_mk (canonical_fold ?_)

theorem putCmd_canonical {s c} (hs : s.canonical) :
    (@putCmd s c).canonical := by
  unfold putCmd
  repeat' first
     | with_reducible assumption | fail_if_no_progress with_reducible refine canonical_mk (canonical_fold ?_)

theorem memberRefuses_canonical {s c unit} (hs : s.canonical) :
    (@memberRefuses s c unit).canonical := by
  unfold memberRefuses
  repeat' first
     | with_reducible assumption | with_reducible apply putCmd_canonical

theorem passMember_canonical {s c m mtag twice} (hs : s.canonical) :
    (@passMember s c m mtag twice).canonical := by
  unfold passMember
  repeat' first
     | with_reducible assumption
     | (extract_lets +onlyGivenNames y; refine canonical_cut y ?_ ?_; (on_goal 2 => intro _; clear_value y); subst y)
     | (extract_lets +onlyGivenNames y; subst y) | with_reducible apply noteGang_canonical
     | with_reducible apply memberRefuses_canonical | with_reducible apply copyTo_canonical
     | with_reducible apply putCmd_canonical | with_reducible apply canonical_ite | split
     | fail_if_no_progress with_reducible refine canonical_mk (canonical_fold ?_)

theorem passGang_canonical {s c} (hs : s.canonical) :
    (@passGang s c).canonical := by
  unfold passGang
  repeat' first
     | with_reducible assumption | with_reducible intro _ | (extract_lets +onlyGivenNames y; subst y)
     | with_reducible apply finish_canonical | with_reducible apply passMember_canonical
     | with_reducible apply canonical_foldl | split
     | fail_if_no_progress with_reducible refine canonical_mk (canonical_fold ?_)

theorem runChain_canonical {c s} (hs : s.canonical) :
    (@runChain c s).canonical := by
  unfold runChain
  repeat' first
     | with_reducible assumption | with_reducible apply finish_canonical | with_reducible apply copyTo_canonical
     | with_reducible apply runChainTile_canonical | with_reducible apply passGang_canonical
     | with_reducible apply canonical_ite | split

theorem readEntry_canonical {s p} (hs : s.canonical) :
    (@readEntry s p).1.canonical := by
  unfold readEntry
  repeat' first
     | with_reducible assumption | (extract_lets +onlyGivenNames y; subst y) | with_reducible apply readPhys_canonical
     | with_reducible apply readVa_canonical | with_reducible apply canonical_ite_fst
     | with_reducible refine pair1_canonical (by assumption) ?_ | split

theorem advanceHead_canonical {s p} (hs : s.canonical) :
    (@advanceHead s p).canonical := by
  unfold advanceHead
  repeat' first
     | with_reducible assumption
     | (extract_lets +onlyGivenNames y; refine canonical_cut y ?_ ?_; (on_goal 2 => intro _; clear_value y); subst y)
     | (extract_lets +onlyGivenNames y; subst y) | with_reducible apply setFld_canonical
     | with_reducible apply canonical_ite | split
     | fail_if_no_progress with_reducible refine canonical_mk (canonical_fold ?_)

theorem badState_canonical {s c} (hs : s.canonical) :
    (@badState s c).canonical := by
  unfold badState
  repeat' first
     | with_reducible assumption
     | (extract_lets +onlyGivenNames y; refine canonical_cut y ?_ ?_; (on_goal 2 => intro _; clear_value y); subst y)
     | with_reducible apply setFld_canonical | with_reducible apply complete_canonical
     | with_reducible apply canonical_ite

theorem takeIn_canonical {s c body} (hs : s.canonical) (hbody : ∀ v0 v1, v1.canonical → (body v0 v1).canonical) :
    (@takeIn s c body).canonical := by
  unfold takeIn
  repeat' first
     | with_reducible assumption | (extract_lets +onlyGivenNames y; subst y) | with_reducible apply complete_canonical
     | with_reducible apply badState_canonical | with_reducible apply hbody | with_reducible apply canonical_ite

theorem takeHead_canonical {op p body s} (hbody : ∀ v0 v1, v1.canonical → (body v0 v1).canonical) (hs : s.canonical) :
    (@takeHead op p body s).canonical := by
  unfold takeHead
  repeat' first
     | with_reducible assumption
     | (extract_lets +onlyGivenNames y; refine canonical_cut y ?_ ?_; (on_goal 2 => intro _; clear_value y); subst y)
     | (extract_lets +onlyGivenNames y; subst y) | with_reducible apply readEntry_canonical
     | with_reducible apply errRecord_canonical | with_reducible apply advanceHead_canonical
     | with_reducible apply postCq_canonical | with_reducible apply takeIn_canonical
     | with_reducible apply canonical_ite | with_reducible refine pair1_canonical (by assumption) ?_ | split
     | fail_if_no_progress with_reducible refine canonical_mk (canonical_fold ?_)

theorem takeHeld_canonical {op p body s c} (hbody : ∀ v0 v1, v1.canonical → (body v0 v1).canonical) (hs : s.canonical) :
    (@takeHeld op p body s c).canonical := by
  unfold takeHeld
  repeat' first
     | with_reducible assumption | (extract_lets +onlyGivenNames y; subst y) | with_reducible apply takeIn_canonical
     | with_reducible apply canonical_ite | fail_if_no_progress with_reducible refine canonical_mk (canonical_fold ?_)

theorem command_canonical {op p body s} (hbody : ∀ v0 v1, v1.canonical → (body v0 v1).canonical) (hs : s.canonical) :
    (@command op p body s).canonical := by
  unfold command
  repeat' first
     | with_reducible assumption | (extract_lets +onlyGivenNames y; subst y) | with_reducible apply takeHead_canonical
     | with_reducible apply takeHeld_canonical | with_reducible apply canonical_ite | split

theorem execRunChain_canonical {p s} (hs : s.canonical) :
    OutKeeps (@execRunChain p s) := by
  unfold execRunChain
  repeat' first
     | with_reducible assumption | with_reducible intro _ | with_reducible apply command_canonical
     | with_reducible apply runChain_canonical | with_reducible apply outKeeps_next

theorem execGroupCommandComplete_canonical {id s} (hs : s.canonical) :
    OutKeeps (@execGroupCommandComplete id s) := by
  unfold execGroupCommandComplete
  repeat' first
     | with_reducible assumption | (extract_lets +onlyGivenNames y; subst y) | with_reducible apply complete_canonical
     | with_reducible apply outKeeps_next | split

theorem execQuery_canonical {p s} (hs : s.canonical) :
    OutKeeps (@execQuery p s) := by
  unfold execQuery
  repeat' first
     | with_reducible assumption | with_reducible intro _
     | (extract_lets +onlyGivenNames y; refine canonical_cut y ?_ ?_; (on_goal 2 => intro _; clear_value y); subst y)
     | (extract_lets +onlyGivenNames y; subst y) | with_reducible apply command_canonical
     | with_reducible apply deliver_canonical | with_reducible apply outKeeps_next
     | fail_if_no_progress with_reducible refine canonical_mk (canonical_fold ?_)

theorem execNop_canonical {p s} (hs : s.canonical) :
    OutKeeps (@execNop p s) := by
  unfold execNop
  repeat' first
     | with_reducible assumption | with_reducible intro _ | with_reducible apply command_canonical
     | with_reducible apply finish_canonical | with_reducible apply outKeeps_next

theorem viaGang_canonical {body c s} (hbody : ∀ v0 v1, v1.canonical → (body v0 v1).canonical) (hs : s.canonical) :
    (@viaGang body c s).canonical := by
  unfold viaGang
  repeat' first
     | with_reducible assumption | with_reducible apply passGang_canonical | with_reducible apply hbody | split

/-! ## Machine/Contexts.lean -/

theorem ctxCreate_canonical {c s} (hs : s.canonical) :
    (@ctxCreate c s).canonical := by
  unfold ctxCreate
  repeat' first
     | with_reducible assumption | (extract_lets +onlyGivenNames y; subst y) | with_reducible apply finish_canonical
     | with_reducible apply takeRandom_canonical | with_reducible apply setInfo_canonical
     | with_reducible apply setFld_canonical | with_reducible apply setCtxState_canonical
     | with_reducible apply canonical_ite

theorem execCtxCreate_canonical {p s} (hs : s.canonical) :
    OutKeeps (@execCtxCreate p s) := by
  unfold execCtxCreate
  repeat' first
     | with_reducible assumption | with_reducible intro _ | with_reducible apply command_canonical
     | with_reducible apply ctxCreate_canonical | with_reducible apply outKeeps_next

theorem pairOff_canonical {s q} (hs : s.canonical) :
    (@pairOff s q).canonical := by
  unfold pairOff
  repeat' first
     | with_reducible assumption
     | (extract_lets +onlyGivenNames y; refine canonical_cut y ?_ ?_; (on_goal 2 => intro _; clear_value y); subst y)
     | (extract_lets +onlyGivenNames y; subst y) | with_reducible apply setFld_canonical
     | with_reducible apply satAdd_canonical
     | fail_if_no_progress with_reducible refine canonical_mk (canonical_fold ?_)

theorem closeSessions_canonical {s p} (hs : s.canonical) :
    (@closeSessions s p).canonical := by
  unfold closeSessions
  repeat' first
     | with_reducible assumption | with_reducible intro _
     | (extract_lets +onlyGivenNames y; refine canonical_cut y ?_ ?_; (on_goal 2 => intro _; clear_value y); subst y)
     | (extract_lets +onlyGivenNames y; subst y) | with_reducible apply pairOff_canonical
     | with_reducible apply setFld_canonical | with_reducible apply canonical_foldl
     | fail_if_no_progress with_reducible refine canonical_mk (canonical_fold ?_)

theorem freeTask_canonical {s t k} (hs : s.canonical) :
    (@freeTask s t k).canonical := by
  unfold freeTask
  repeat' first
     | with_reducible assumption | with_reducible intro _
     | (extract_lets +onlyGivenNames y; refine canonical_cut y ?_ ?_; (on_goal 2 => intro _; clear_value y); subst y)
     | with_reducible apply spZero_canonical | with_reducible apply setReg_canonical
     | with_reducible apply ownStrms_canonical | with_reducible apply canonical_ite
     | with_reducible apply canonical_foldl | fail_if_no_progress with_reducible refine canonical_mk (canonical_fold ?_)

theorem freeRing_canonical {s r} (hs : s.canonical) :
    (@freeRing s r).canonical := by
  unfold freeRing
  repeat' first
     | with_reducible assumption
     | (extract_lets +onlyGivenNames y; refine canonical_cut y ?_ ?_; (on_goal 2 => intro _; clear_value y); subst y)
     | with_reducible apply shutWithdraw_canonical | with_reducible apply setFld_canonical
     | with_reducible apply setReg_canonical

theorem releasePlace_canonical {s n} (hs : s.canonical) :
    (@releasePlace s n).canonical := by
  unfold releasePlace
  repeat' first
     | with_reducible assumption | with_reducible intro _
     | (extract_lets +onlyGivenNames y; refine canonical_cut y ?_ ?_; (on_goal 2 => intro _; clear_value y); subst y)
     | with_reducible apply freeTask_canonical | with_reducible apply freeRing_canonical
     | with_reducible apply canonical_foldl

theorem withdrawOwned_canonical {s n} (hs : s.canonical) :
    (@withdrawOwned s n).canonical := by
  unfold withdrawOwned
  repeat' first
     | with_reducible assumption | with_reducible intro _ | with_reducible apply shutDrop_canonical
     | with_reducible apply canonical_foldl

theorem memUnmap_canonical {c s} (hs : s.canonical) :
    (@memUnmap c s).canonical := by
  unfold memUnmap
  repeat' first
     | with_reducible assumption
     | (extract_lets +onlyGivenNames y; refine canonical_cut y ?_ ?_; (on_goal 2 => intro _; clear_value y); subst y)
     | (extract_lets +onlyGivenNames y; subst y) | with_reducible apply finish_canonical
     | with_reducible apply unmapPages_canonical | with_reducible apply canonical_ite
     | fail_if_no_progress with_reducible refine canonical_mk (canonical_fold ?_)

theorem execMemUnmap_canonical {p s} (hs : s.canonical) :
    OutKeeps (@execMemUnmap p s) := by
  unfold execMemUnmap
  repeat' first
     | with_reducible assumption | with_reducible intro _ | with_reducible apply command_canonical
     | with_reducible apply memUnmap_canonical | with_reducible apply outKeeps_next

theorem execCtxPause_canonical {p s} (hs : s.canonical) :
    OutKeeps (@execCtxPause p s) := by
  unfold execCtxPause
  repeat' first
     | with_reducible assumption | with_reducible intro _ | with_reducible apply command_canonical
     | with_reducible apply viaGang_canonical | with_reducible apply setCtxState_canonical
     | with_reducible apply outKeeps_next

theorem releaseDebug_canonical {s n} (hs : s.canonical) :
    (@releaseDebug s n).canonical := by
  unfold releaseDebug
  repeat' first
     | with_reducible assumption | with_reducible intro _ | with_reducible apply setFld_canonical
     | with_reducible apply shutDrop_canonical | with_reducible apply canonical_foldl

theorem dbgMode_canonical {c s} (hs : s.canonical) :
    (@dbgMode c s).canonical := by
  unfold dbgMode
  repeat' first
     | with_reducible assumption
     | (extract_lets +onlyGivenNames y; refine canonical_cut y ?_ ?_; (on_goal 2 => intro _; clear_value y); subst y)
     | (extract_lets +onlyGivenNames y; subst y) | with_reducible apply releaseDebug_canonical
     | with_reducible apply finish_canonical | with_reducible apply setReg_canonical
     | with_reducible apply setFld_canonical | with_reducible apply canonical_ite
     | fail_if_no_progress with_reducible refine canonical_mk (canonical_fold ?_)

theorem memMap_canonical {c s} (hs : s.canonical) :
    (@memMap c s).canonical := by
  unfold memMap
  repeat' first
     | with_reducible assumption | (extract_lets +onlyGivenNames y; subst y) | with_reducible apply finish_canonical
     | with_reducible apply mapPages_canonical | with_reducible apply canonical_ite

theorem addRun_canonical {s o acted} (hs : s.canonical) :
    (@addRun s o acted).canonical := by
  unfold addRun
  repeat' first
     | with_reducible assumption | fail_if_no_progress with_reducible refine canonical_mk (canonical_fold ?_)

theorem resetRec_canonical {s level part cause n} (hs : s.canonical) :
    (@resetRec s level part cause n).canonical := by
  unfold resetRec
  repeat' first
     | with_reducible assumption
     | (extract_lets +onlyGivenNames y; refine canonical_cut y ?_ ?_; (on_goal 2 => intro _; clear_value y); subst y)
     | (extract_lets +onlyGivenNames y; subst y) | with_reducible apply setReg_canonical
     | with_reducible apply recordEv_canonical

theorem enableQueues_canonical {s n} (hs : s.canonical) :
    (@enableQueues s n).canonical := by
  unfold enableQueues
  repeat' first
     | with_reducible assumption | with_reducible intro _
     | (extract_lets +onlyGivenNames y; refine canonical_cut y ?_ ?_; (on_goal 2 => intro _; clear_value y); subst y)
     | (extract_lets +onlyGivenNames y; subst y) | with_reducible apply setFld_canonical
     | with_reducible apply canonical_ite | with_reducible apply canonical_foldl

theorem abortCmd_canonical {s id} (hs : s.canonical) :
    (@abortCmd s id).canonical := by
  unfold abortCmd
  repeat' first
     | with_reducible assumption | with_reducible apply complete_canonical | split

theorem abortCommands_canonical {s n} (hs : s.canonical) :
    (@abortCommands s n).canonical := by
  unfold abortCommands
  repeat' first
     | with_reducible assumption | with_reducible intro _ | (extract_lets +onlyGivenNames y; subst y)
     | with_reducible apply abortCmd_canonical | with_reducible apply canonical_foldl

theorem sweepTask_canonical {s t k} (hs : s.canonical) :
    (@sweepTask s t k).canonical := by
  unfold sweepTask
  repeat' first
     | with_reducible assumption | with_reducible intro _
     | (extract_lets +onlyGivenNames y; refine canonical_cut y ?_ ?_; (on_goal 2 => intro _; clear_value y); subst y)
     | (extract_lets +onlyGivenNames y; subst y) | with_reducible apply setThreadState_canonical
     | with_reducible apply setFld_canonical | with_reducible apply accZero_canonical
     | with_reducible apply canonical_ite | with_reducible apply canonical_foldl
     | fail_if_no_progress with_reducible refine canonical_mk (canonical_fold ?_)

theorem sweepTile_canonical {n s t} (hs : s.canonical) :
    (@sweepTile n s t).canonical := by
  unfold sweepTile
  repeat' first
     | with_reducible assumption | with_reducible intro _
     | (extract_lets +onlyGivenNames y; refine canonical_cut y ?_ ?_; (on_goal 2 => intro _; clear_value y); subst y)
     | (extract_lets +onlyGivenNames y; subst y) | with_reducible apply setReg_canonical
     | with_reducible apply canonical_ite | with_reducible apply canonical_foldl
     | fail_if_no_progress with_reducible refine canonical_mk (canonical_fold ?_)

theorem sweepOpen_canonical {s n} (hs : s.canonical) :
    (@sweepOpen s n).canonical := by
  unfold sweepOpen
  repeat' first
     | with_reducible assumption | with_reducible intro _
     | (extract_lets +onlyGivenNames y; refine canonical_cut y ?_ ?_; (on_goal 2 => intro _; clear_value y); subst y)
     | with_reducible apply sweepTask_canonical | with_reducible apply sweepTile_canonical
     | with_reducible apply canonical_foldl

theorem releaseWork_canonical {s n cause final} (hs : s.canonical) :
    (@releaseWork s n cause final).canonical := by
  unfold releaseWork
  repeat' first
     | with_reducible assumption
     | (extract_lets +onlyGivenNames y; refine canonical_cut y ?_ ?_; (on_goal 2 => intro _; clear_value y); subst y)
     | with_reducible apply abortCommands_canonical | with_reducible apply idleStreams_canonical
     | with_reducible apply abortTasks_canonical | with_reducible apply withdrawOwned_canonical
     | with_reducible apply sweepOpen_canonical | with_reducible apply discardWhere_canonical
     | with_reducible apply abortBatch_canonical | with_reducible apply abortBuckets_canonical
     | with_reducible apply casAbort_canonical
     | fail_if_no_progress with_reducible refine canonical_mk (canonical_fold ?_)

theorem beginReset_canonical {s n unload cause} (hs : s.canonical) :
    (@beginReset s n unload cause).canonical := by
  unfold beginReset
  repeat' first
     | with_reducible assumption
     | (extract_lets +onlyGivenNames y; refine canonical_cut y ?_ ?_; (on_goal 2 => intro _; clear_value y); subst y)
     | (extract_lets +onlyGivenNames y; subst y) | with_reducible apply setInfo_canonical
     | with_reducible apply addRun_canonical | with_reducible apply resetRec_canonical
     | with_reducible apply setFld_canonical | with_reducible apply setCtxState_canonical
     | with_reducible apply enableQueues_canonical | with_reducible apply releaseWork_canonical
     | with_reducible apply canonical_ite

theorem execCtxReset_canonical {p s} (hs : s.canonical) :
    OutKeeps (@execCtxReset p s) := by
  unfold execCtxReset
  repeat' first
     | with_reducible assumption | with_reducible intro _ | with_reducible apply command_canonical
     | with_reducible apply viaGang_canonical | with_reducible apply beginReset_canonical
     | with_reducible apply outKeeps_next

theorem execDbgMode_canonical {p s} (hs : s.canonical) :
    OutKeeps (@execDbgMode p s) := by
  unfold execDbgMode
  repeat' first
     | with_reducible assumption | with_reducible intro _ | with_reducible apply command_canonical
     | with_reducible apply viaGang_canonical | with_reducible apply dbgMode_canonical
     | with_reducible apply outKeeps_next

theorem execMemMap_canonical {p s} (hs : s.canonical) :
    OutKeeps (@execMemMap p s) := by
  unfold execMemMap
  repeat' first
     | with_reducible assumption | with_reducible intro _ | with_reducible apply command_canonical
     | with_reducible apply memMap_canonical | with_reducible apply outKeeps_next

theorem beginDestroy_canonical {s n} (hs : s.canonical) :
    (@beginDestroy s n).canonical := by
  unfold beginDestroy
  repeat' first
     | with_reducible assumption
     | (extract_lets +onlyGivenNames y; refine canonical_cut y ?_ ?_; (on_goal 2 => intro _; clear_value y); subst y)
     | with_reducible apply setCtxState_canonical | with_reducible apply releaseWork_canonical
     | with_reducible apply setDsp_canonical | with_reducible apply setRed_canonical
     | with_reducible apply closeSessions_canonical

theorem readOwner_canonical {s va len align} (hs : s.canonical) :
    (@readOwner s va len align).1.canonical := by
  unfold readOwner
  repeat' first
     | with_reducible assumption | with_reducible apply readPhys_canonical | with_reducible apply canonical_ite_fst
     | with_reducible refine pair1_canonical (by assumption) ?_ | split

theorem gangDefine_canonical {answers c s} (hs : s.canonical) :
    (@gangDefine answers c s).canonical := by
  unfold gangDefine
  repeat' first
     | with_reducible assumption | (extract_lets +onlyGivenNames y; subst y) | with_reducible apply readOwner_canonical
     | with_reducible apply finish_canonical | with_reducible apply badState_canonical
     | with_reducible apply canonical_ite | with_reducible refine pair1_canonical (by assumption) ?_ | split
     | fail_if_no_progress with_reducible refine canonical_mk (canonical_fold ?_)

theorem zeroise_canonical {s n} (hs : s.canonical) :
    (@zeroise s n).canonical := by
  unfold zeroise
  repeat' first
     | with_reducible assumption
     | (extract_lets +onlyGivenNames y; refine canonical_cut y ?_ ?_; (on_goal 2 => intro _; clear_value y); subst y)
     | with_reducible apply unmapAll_canonical | with_reducible apply releasePlace_canonical
     | with_reducible apply resetRegs_canonical
     | fail_if_no_progress with_reducible refine canonical_mk (canonical_fold ?_)

theorem execZeroisationEnd_canonical {n s} (hs : s.canonical) :
    OutKeeps (@execZeroisationEnd n s) := by
  unfold execZeroisationEnd
  repeat' first
     | with_reducible assumption | with_reducible intro _ | (extract_lets +onlyGivenNames y; subst y)
     | with_reducible apply finish_canonical | with_reducible apply zeroise_canonical
     | with_reducible apply sweepOpen_canonical | with_reducible apply canonical_ite
     | with_reducible apply canonical_foldl | with_reducible apply outKeeps_next

theorem startTask_canonical {s t k} (hs : s.canonical) :
    (@startTask s t k).canonical := by
  unfold startTask
  repeat' first
     | with_reducible assumption | with_reducible apply startThread_canonical | split

theorem execCtxPauseComplete_canonical {n s} (hs : s.canonical) :
    OutKeeps (@execCtxPauseComplete n s) := by
  unfold execCtxPauseComplete
  repeat' first
     | with_reducible assumption | with_reducible intro _ | with_reducible apply finish_canonical
     | with_reducible apply canonical_ite | with_reducible apply canonical_foldl | with_reducible apply outKeeps_next

theorem ctxStart_canonical {c s} (hs : s.canonical) :
    (@ctxStart c s).canonical := by
  unfold ctxStart
  repeat' first
     | with_reducible assumption | with_reducible intro _
     | (extract_lets +onlyGivenNames y; refine canonical_cut y ?_ ?_; (on_goal 2 => intro _; clear_value y); subst y)
     | with_reducible apply finish_canonical | with_reducible apply startTask_canonical
     | with_reducible apply setCtxState_canonical | with_reducible apply canonical_ite
     | with_reducible apply canonical_foldl

theorem execCtxDestroy_canonical {p s} (hs : s.canonical) :
    OutKeeps (@execCtxDestroy p s) := by
  unfold execCtxDestroy
  repeat' first
     | with_reducible assumption | with_reducible intro _ | with_reducible apply command_canonical
     | with_reducible apply beginDestroy_canonical | with_reducible apply outKeeps_next

theorem gangBind_canonical {c s} (hs : s.canonical) :
    (@gangBind c s).canonical := by
  unfold gangBind
  repeat' first
     | with_reducible assumption
     | (extract_lets +onlyGivenNames y; refine canonical_cut y ?_ ?_; (on_goal 2 => intro _; clear_value y); subst y)
     | (extract_lets +onlyGivenNames y; subst y) | with_reducible apply setDsp_canonical
     | with_reducible apply setRed_canonical | with_reducible apply resetRegs_canonical
     | with_reducible apply finish_canonical | with_reducible apply setFld_canonical
     | with_reducible apply canonical_ite | fail_if_no_progress with_reducible refine canonical_mk (canonical_fold ?_)

theorem execGangBind_canonical {p s} (hs : s.canonical) :
    OutKeeps (@execGangBind p s) := by
  unfold execGangBind
  repeat' first
     | with_reducible assumption | with_reducible intro _ | with_reducible apply command_canonical
     | with_reducible apply viaGang_canonical | with_reducible apply gangBind_canonical
     | with_reducible apply outKeeps_next

theorem execCtxStart_canonical {p s} (hs : s.canonical) :
    OutKeeps (@execCtxStart p s) := by
  unfold execCtxStart
  repeat' first
     | with_reducible assumption | with_reducible intro _ | with_reducible apply command_canonical
     | with_reducible apply viaGang_canonical | with_reducible apply ctxStart_canonical
     | with_reducible apply outKeeps_next

theorem resetDone_canonical {s o} (hs : s.canonical) :
    (@resetDone s o).canonical := by
  unfold resetDone
  repeat' first
     | with_reducible assumption | fail_if_no_progress with_reducible refine canonical_mk (canonical_fold ?_)

theorem execCtxResume_canonical {p s} (hs : s.canonical) :
    OutKeeps (@execCtxResume p s) := by
  unfold execCtxResume
  repeat' first
     | with_reducible assumption | with_reducible intro _ | with_reducible apply command_canonical
     | with_reducible apply viaGang_canonical | with_reducible apply finish_canonical
     | with_reducible apply setCtxState_canonical | with_reducible apply outKeeps_next

theorem readCtx_canonical {s n va len align} (hs : s.canonical) :
    (@readCtx s n va len align).1.canonical := by
  unfold readCtx
  repeat' first
     | with_reducible assumption | with_reducible apply readVa_canonical | with_reducible apply canonical_ite_fst
     | with_reducible refine pair1_canonical (by assumption) ?_ | split

theorem execReclaimSweepEnd_canonical {n s} (hs : s.canonical) :
    OutKeeps (@execReclaimSweepEnd n s) := by
  unfold execReclaimSweepEnd
  repeat' first
     | with_reducible assumption | with_reducible intro _
     | (extract_lets +onlyGivenNames y; refine canonical_cut y ?_ ?_; (on_goal 2 => intro _; clear_value y); subst y)
     | (extract_lets +onlyGivenNames y; subst y) | with_reducible apply sweepOpen_canonical
     | with_reducible apply releasePlace_canonical | with_reducible apply unmapPages_canonical
     | with_reducible apply setInfo_canonical | with_reducible apply setFld_canonical
     | with_reducible apply setCtxState_canonical | with_reducible apply resetDone_canonical
     | with_reducible apply finish_canonical | with_reducible apply canonical_ite | with_reducible apply canonical_foldl
     | with_reducible apply outKeeps_next | fail_if_no_progress with_reducible refine canonical_mk (canonical_fold ?_)

theorem execGangDefine_canonical {p answers s} (hs : s.canonical) :
    OutKeeps (@execGangDefine p answers s) := by
  unfold execGangDefine
  repeat' first
     | with_reducible assumption | with_reducible intro _ | with_reducible apply command_canonical
     | with_reducible apply gangDefine_canonical | with_reducible apply outKeeps_next

/-! ## Machine/Loader.lean -/

theorem askDividers_canonical {s rs} (hs : s.canonical) :
    (@askDividers s rs).canonical := by
  unfold askDividers
  repeat' first
     | with_reducible assumption | (extract_lets +onlyGivenNames y; subst y)
     | fail_if_no_progress with_reducible refine canonical_mk (canonical_fold ?_)

theorem lintelWrite_canonical {s n va bs} (hs : s.canonical) :
    (@lintelWrite s n va bs).canonical := by
  unfold lintelWrite
  repeat' first
     | with_reducible assumption | with_reducible intro _ | (extract_lets +onlyGivenNames y; subst y)
     | with_reducible apply writePart_canonical | with_reducible apply dieBytes_canonical
     | with_reducible apply canonical_foldl

theorem loadSeg_canonical {n o s i} (hs : s.canonical) :
    (@loadSeg n o s i).canonical := by
  unfold loadSeg
  repeat' first
     | with_reducible assumption
     | (extract_lets +onlyGivenNames y; refine canonical_cut y ?_ ?_; (on_goal 2 => intro _; clear_value y); subst y)
     | (extract_lets +onlyGivenNames y; subst y) | with_reducible apply mapPages_canonical
     | with_reducible apply lintelWrite_canonical
     | fail_if_no_progress with_reducible refine canonical_mk (canonical_fold ?_)

theorem loadTask_canonical {n o s e} (hs : s.canonical) :
    (@loadTask n o s e).canonical := by
  unfold loadTask
  repeat' first
     | with_reducible assumption | with_reducible intro _
     | (extract_lets +onlyGivenNames y; refine canonical_cut y ?_ ?_; (on_goal 2 => intro _; clear_value y); subst y)
     | (extract_lets +onlyGivenNames y; subst y) | with_reducible apply setReg_canonical
     | with_reducible apply ownStrms_canonical | with_reducible apply canonical_foldl
     | fail_if_no_progress with_reducible refine canonical_mk (canonical_fold ?_)

theorem claimRing_canonical {n o s r} (hs : s.canonical) :
    (@claimRing n o s r).canonical := by
  unfold claimRing
  repeat' first
     | with_reducible assumption
     | (extract_lets +onlyGivenNames y; refine canonical_cut y ?_ ?_; (on_goal 2 => intro _; clear_value y); subst y)
     | (extract_lets +onlyGivenNames y; subst y) | with_reducible apply shutWithdraw_canonical
     | with_reducible apply setReg_canonical | with_reducible apply setFld_canonical
     | with_reducible apply canonical_ite

theorem ctxLoad_canonical {c s} (hs : s.canonical) :
    (@ctxLoad c s).canonical := by
  unfold ctxLoad
  repeat' first
     | with_reducible assumption | with_reducible intro _
     | (extract_lets +onlyGivenNames y; refine canonical_cut y ?_ ?_; (on_goal 2 => intro _; clear_value y); subst y)
     | (extract_lets +onlyGivenNames y; subst y) | with_reducible apply readCtx_canonical
     | with_reducible apply finish_canonical | with_reducible apply askDividers_canonical
     | with_reducible apply loadSeg_canonical | with_reducible apply loadTask_canonical
     | with_reducible apply claimRing_canonical | with_reducible apply setReg_canonical
     | with_reducible apply setInfo_canonical | with_reducible apply setCtxState_canonical
     | with_reducible apply canonical_ite | with_reducible apply canonical_foldl
     | with_reducible refine pair1_canonical (by assumption) ?_ | split

theorem execCtxLoad_canonical {p s} (hs : s.canonical) :
    OutKeeps (@execCtxLoad p s) := by
  unfold execCtxLoad
  repeat' first
     | with_reducible assumption | with_reducible intro _ | with_reducible apply command_canonical
     | with_reducible apply viaGang_canonical | with_reducible apply ctxLoad_canonical
     | with_reducible apply outKeeps_next

end Sys2Proof.Machine
end

