-- ==== Sys2Proof/Laws/CanonUnits.lean ====
section
/-! SUPPORT. The canonical form is kept by the functions and meanings of links, the reduction engine, the dispatch engine, Casement and the requests for a closed ring: one lemma each. -/

namespace Sys2Proof.Machine

/-! ## Machine/Links.lean -/

theorem formReplies_canonical {s} (hs : s.canonical) :
    (@formReplies s).canonical := by
  unfold formReplies
  repeat' first
     | with_reducible assumption | fail_if_no_progress with_reducible refine canonical_mk (canonical_fold ?_)

theorem setPort_canonical {s p x} (hs : s.canonical) :
    (@setPort s p x).canonical := by
  unfold setPort
  repeat' first
     | with_reducible assumption | fail_if_no_progress with_reducible refine canonical_mk (canonical_fold ?_)

theorem putTx_canonical {s p f} (hs : s.canonical) :
    (@putTx s p f).canonical := by
  unfold putTx
  repeat' first
     | with_reducible assumption
     | (extract_lets +onlyGivenNames y; refine canonical_cut y ?_ ?_; (on_goal 2 => intro _; clear_value y); subst y)
     | (extract_lets +onlyGivenNames y; subst y) | with_reducible apply setPort_canonical
     | with_reducible apply canonical_ite | fail_if_no_progress with_reducible refine canonical_mk (canonical_fold ?_)

theorem sendSeqd_canonical {s p f} (hs : s.canonical) :
    (@sendSeqd s p f).canonical := by
  unfold sendSeqd
  repeat' first
     | with_reducible assumption | (extract_lets +onlyGivenNames y; subst y) | with_reducible apply putTx_canonical
     | with_reducible apply setPort_canonical

theorem repliesLeft_canonical {s} (hs : s.canonical) :
    (@repliesLeft s).canonical := by
  unfold repliesLeft
  repeat' first
     | with_reducible assumption | (extract_lets +onlyGivenNames y; subst y)
     | fail_if_no_progress with_reducible refine canonical_mk (canonical_fold ?_)

theorem sendHost_canonical {s q f} (hs : s.canonical) :
    (@sendHost s q f).canonical := by
  unfold sendHost
  repeat' first
     | with_reducible assumption
     | (extract_lets +onlyGivenNames y; refine canonical_cut y ?_ ?_; (on_goal 2 => intro _; clear_value y); subst y)
     | (extract_lets +onlyGivenNames y; subst y) | with_reducible apply sendSeqd_canonical
     | with_reducible apply repliesLeft_canonical | with_reducible apply canonical_ite
     | fail_if_no_progress with_reducible refine canonical_mk (canonical_fold ?_)

theorem sendAnswers_canonical {a0 a1} (ha1 : a1.canonical) :
    (@sendAnswers a0 a1).canonical := by
  induction a0 generalizing a1 with
  | zero =>
    unfold sendAnswers
    repeat' first
       | with_reducible assumption
  | succ f ih =>
    unfold sendAnswers
    repeat' first
       | with_reducible assumption | with_reducible apply sendHost_canonical | with_reducible apply ih | split
       | fail_if_no_progress with_reducible refine canonical_mk (canonical_fold ?_)

theorem releaseCq_canonical {a0 a1 a2} (ha2 : a2.canonical) :
    (@releaseCq a0 a1 a2).canonical := by
  induction a0 generalizing a1 a2 with
  | zero =>
    unfold releaseCq
    repeat' first
       | with_reducible assumption
  | succ f ih =>
    unfold releaseCq
    repeat' first
       | with_reducible assumption | with_reducible intro _ | (extract_lets +onlyGivenNames y; subst y)
       | with_reducible apply sendHost_canonical | with_reducible apply ih | with_reducible apply canonical_ite
       | with_reducible apply canonical_foldl | fail_if_no_progress with_reducible refine canonical_mk (canonical_fold ?_)

theorem sendHostAll_canonical {s} (hs : s.canonical) :
    (@sendHostAll s).canonical := by
  unfold sendHostAll
  repeat' first
     | with_reducible assumption | with_reducible intro _
     | (extract_lets +onlyGivenNames y; refine canonical_cut y ?_ ?_; (on_goal 2 => intro _; clear_value y); subst y)
     | with_reducible apply formReplies_canonical | with_reducible apply sendAnswers_canonical
     | with_reducible apply releaseCq_canonical | with_reducible apply canonical_foldl

theorem setPortState_canonical {s p x} (hs : s.canonical) :
    (@setPortState s p x).canonical := by
  unfold setPortState
  repeat' first
     | with_reducible assumption
     | (extract_lets +onlyGivenNames y; refine canonical_cut y ?_ ?_; (on_goal 2 => intro _; clear_value y); subst y)
     | (extract_lets +onlyGivenNames y; subst y) | with_reducible apply setFld_canonical
     | with_reducible apply setPort_canonical | with_reducible apply canonical_ite
     | fail_if_no_progress with_reducible refine canonical_mk (canonical_fold ?_)

theorem dropOnes_canonical {s} (hs : s.canonical) :
    (@dropOnes s).canonical := by
  unfold dropOnes
  repeat' first
     | with_reducible assumption | with_reducible intro _ | with_reducible apply setPortState_canonical
     | with_reducible apply canonical_ite | with_reducible apply canonical_foldl

theorem sendData_canonical {s p f} (hs : s.canonical) :
    (@sendData s p f).canonical := by
  unfold sendData
  repeat' first
     | with_reducible assumption
     | (extract_lets +onlyGivenNames y; refine canonical_cut y ?_ ?_; (on_goal 2 => intro _; clear_value y); subst y)
     | (extract_lets +onlyGivenNames y; subst y) | with_reducible apply setPort_canonical
     | with_reducible apply bwAdd_canonical | with_reducible apply perfMod_canonical
     | with_reducible apply sendSeqd_canonical

theorem sendIdle_canonical {s p nakr crVc crCnt} (hs : s.canonical) :
    (@sendIdle s p nakr crVc crCnt).canonical := by
  unfold sendIdle
  repeat' first
     | with_reducible assumption | (extract_lets +onlyGivenNames y; subst y) | with_reducible apply putTx_canonical

theorem freeBuf_canonical {s q vc} (hs : s.canonical) :
    (@freeBuf s q vc).canonical := by
  unfold freeBuf
  repeat' first
     | with_reducible assumption | with_reducible apply sendIdle_canonical | with_reducible apply canonical_ite

theorem noRoute_canonical {s p} (hs : s.canonical) :
    (@noRoute s p).canonical := by
  unfold noRoute
  repeat' first
     | with_reducible assumption | with_reducible apply satAdd_canonical

theorem sendWaiting_canonical {a0 a1 a2} (ha2 : a2.canonical) :
    (@sendWaiting a0 a1 a2).canonical := by
  induction a0 generalizing a1 a2 with
  | zero =>
    unfold sendWaiting
    repeat' first
       | with_reducible assumption
  | succ f ih =>
    unfold sendWaiting
    repeat' first
       | with_reducible assumption | (extract_lets +onlyGivenNames y; subst y) | with_reducible apply sendSeqd_canonical
       | with_reducible apply setPort_canonical | with_reducible apply ih | with_reducible apply canonical_ite | split

theorem moveFirst_canonical {s q vc} (hs : s.canonical) :
    OptKeeps (@moveFirst s q vc) := by
  unfold moveFirst
  repeat' first
     | with_reducible assumption
     | (extract_lets +onlyGivenNames y; refine canonical_cut y ?_ ?_; (on_goal 2 => intro _; clear_value y); subst y)
     | (extract_lets +onlyGivenNames y; subst y) | with_reducible apply setPort_canonical
     | with_reducible apply freeBuf_canonical | with_reducible apply noRoute_canonical
     | with_reducible apply sendData_canonical | with_reducible apply optKeeps_some | with_reducible apply optKeeps_none
     | with_reducible apply optKeeps_ite | split

theorem moveAll_canonical {a0 a1 a2 a3} (ha3 : a3.canonical) :
    (@moveAll a0 a1 a2 a3).canonical := by
  induction a0 generalizing a1 a2 a3 with
  | zero =>
    unfold moveAll
    repeat' first
       | with_reducible assumption
  | succ f ih =>
    unfold moveAll
    repeat' first
       | with_reducible assumption | with_reducible apply moveFirst_canonical | with_reducible apply ih
       | with_reducible refine opt_canonical (by assumption) ?_ | split

theorem drain_canonical {s} (hs : s.canonical) :
    (@drain s).canonical := by
  unfold drain
  repeat' first
     | with_reducible assumption | with_reducible intro _
     | (extract_lets +onlyGivenNames y; refine canonical_cut y ?_ ?_; (on_goal 2 => intro _; clear_value y); subst y)
     | with_reducible apply sendWaiting_canonical | with_reducible apply moveAll_canonical
     | with_reducible apply canonical_ite | with_reducible apply canonical_foldl

theorem injectMsg_canonical {m s} (hs : s.canonical) :
    (@injectMsg m s).canonical := by
  unfold injectMsg
  repeat' first
     | with_reducible assumption | (extract_lets +onlyGivenNames y; subst y) | with_reducible apply noRoute_canonical
     | with_reducible apply drain_canonical | with_reducible apply setPort_canonical
     | with_reducible apply canonical_ite

theorem retrain_canonical {s p rekey} (hs : s.canonical) :
    (@retrain s p rekey).canonical := by
  unfold retrain
  repeat' first
     | with_reducible assumption
     | (extract_lets +onlyGivenNames y; refine canonical_cut y ?_ ?_; (on_goal 2 => intro _; clear_value y); subst y)
     | (extract_lets +onlyGivenNames y; subst y) | with_reducible apply setPortState_canonical
     | with_reducible apply setPort_canonical

theorem sendLink_canonical {s p op bs} (hs : s.canonical) :
    (@sendLink s p op bs).canonical := by
  unfold sendLink
  repeat' first
     | with_reducible assumption | (extract_lets +onlyGivenNames y; subst y) | with_reducible apply sendSeqd_canonical
     | with_reducible apply setPort_canonical | with_reducible apply canonical_ite

theorem sendFrags_canonical {s p op bs} (hs : s.canonical) :
    (@sendFrags s p op bs).canonical := by
  unfold sendFrags
  repeat' first
     | with_reducible assumption | with_reducible intro _ | (extract_lets +onlyGivenNames y; subst y)
     | with_reducible apply sendLink_canonical | with_reducible apply canonical_foldl

theorem disablePort_canonical {s p} (hs : s.canonical) :
    (@disablePort s p).canonical := by
  unfold disablePort
  repeat' first
     | with_reducible assumption
     | (extract_lets +onlyGivenNames y; refine canonical_cut y ?_ ?_; (on_goal 2 => intro _; clear_value y); subst y)
     | (extract_lets +onlyGivenNames y; subst y) | with_reducible apply satAdd_canonical
     | with_reducible apply setPortState_canonical | with_reducible apply drain_canonical
     | with_reducible apply setPort_canonical

/-! ## Machine/Reduce.lean -/

theorem storeRange_canonical {s n b m} (hs : s.canonical) :
    (@storeRange s n b m).1.canonical := by
  unfold storeRange
  repeat' first
     | with_reducible assumption | with_reducible apply engineWrite_canonical

theorem batchAborted_canonical {s n step rank cause} (hs : s.canonical) :
    (@batchAborted s n step rank cause).canonical := by
  unfold batchAborted
  repeat' first
     | with_reducible assumption
     | (extract_lets +onlyGivenNames y; refine canonical_cut y ?_ ?_; (on_goal 2 => intro _; clear_value y); subst y)
     | with_reducible apply sendAll_canonical | with_reducible apply abortBatch_canonical
     | with_reducible apply setFld_canonical | with_reducible apply canonical_ite

theorem replayEnd_canonical {s n} (hs : s.canonical) :
    (@replayEnd s n).canonical := by
  unfold replayEnd
  repeat' first
     | with_reducible assumption
     | (extract_lets +onlyGivenNames y; refine canonical_cut y ?_ ?_; (on_goal 2 => intro _; clear_value y); subst y)
     | with_reducible apply setFld_canonical | with_reducible apply setRed_canonical
     | with_reducible apply completeId_canonical | with_reducible apply canonical_ite | split

theorem execRedAbort_canonical {n chan bucket step rank cause s} (hs : s.canonical) :
    OutKeeps (@execRedAbort n chan bucket step rank cause s) := by
  unfold execRedAbort
  repeat' first
     | with_reducible assumption
     | (extract_lets +onlyGivenNames y; refine canonical_cut y ?_ ?_; (on_goal 2 => intro _; clear_value y); subst y)
     | with_reducible apply batchAborted_canonical | with_reducible apply sendAll_canonical
     | with_reducible apply replayEnd_canonical | with_reducible apply abortBucket_canonical
     | with_reducible apply sendAbort_canonical | with_reducible apply redFault_canonical
     | with_reducible apply abortStep_canonical | with_reducible apply setFld_canonical
     | with_reducible apply canonical_ite | with_reducible apply outKeeps_next | split

theorem takeEarly_canonical {s n b} (hs : s.canonical) :
    (@takeEarly s n b).1.canonical := by
  unfold takeEarly
  repeat' first
     | with_reducible assumption | with_reducible intro _ | with_reducible apply storeRange_canonical
     | with_reducible apply canonical_foldl_fst

theorem endStep_canonical {s n b} (hs : s.canonical) :
    (@endStep s n b).canonical := by
  unfold endStep
  repeat' first
     | with_reducible assumption
     | (extract_lets +onlyGivenNames y; refine canonical_cut y ?_ ?_; (on_goal 2 => intro _; clear_value y); subst y)
     | (extract_lets +onlyGivenNames y; subst y) | with_reducible apply putBucket_canonical
     | with_reducible apply endBucket_canonical | with_reducible apply replayDrop_canonical
     | with_reducible apply setRed_canonical | with_reducible apply replayEnd_canonical
     | with_reducible apply setFld_canonical | with_reducible apply canonical_ite | split

theorem shardDone_canonical {s n b v} (hs : s.canonical) :
    (@shardDone s n b v).canonical := by
  unfold shardDone
  repeat' first
     | with_reducible assumption
     | (extract_lets +onlyGivenNames y; refine canonical_cut y ?_ ?_; (on_goal 2 => intro _; clear_value y); subst y)
     | (extract_lets +onlyGivenNames y; subst y) | with_reducible apply engineWrite_canonical
     | with_reducible apply writeDone_canonical | with_reducible apply perfMod_canonical
     | with_reducible apply putBucket_canonical | with_reducible apply endStep_canonical
     | with_reducible apply canonical_ite

theorem orderedPass_canonical {s n b sum} (hs : s.canonical) :
    (@orderedPass s n b sum).canonical := by
  unfold orderedPass
  repeat' first
     | with_reducible assumption | (extract_lets +onlyGivenNames y; subst y) | with_reducible apply putBucket_canonical
     | with_reducible apply sendRank_canonical | with_reducible apply shardDone_canonical
     | with_reducible apply sendAll_canonical | with_reducible apply canonical_ite

theorem orderedGo_canonical {s n b} (hs : s.canonical) :
    (@orderedGo s n b).canonical := by
  unfold orderedGo
  repeat' first
     | with_reducible assumption | (extract_lets +onlyGivenNames y; subst y) | with_reducible apply shardDone_canonical
     | with_reducible apply orderedPass_canonical | with_reducible apply putBucket_canonical | split

theorem shardGo_canonical {s n b} (hs : s.canonical) :
    (@shardGo s n b).canonical := by
  unfold shardGo
  repeat' first
     | with_reducible assumption | (extract_lets +onlyGivenNames y; subst y) | with_reducible apply shardDone_canonical
     | with_reducible apply putBucket_canonical | split

theorem contribute_canonical {s n b} (hs : s.canonical) :
    (@contribute s n b).canonical := by
  unfold contribute
  repeat' first
     | with_reducible assumption | with_reducible intro _
     | (extract_lets +onlyGivenNames y; refine canonical_cut y ?_ ?_; (on_goal 2 => intro _; clear_value y); subst y)
     | (extract_lets +onlyGivenNames y; subst y) | with_reducible apply takeEarly_canonical
     | with_reducible apply orderedPass_canonical | with_reducible apply orderedGo_canonical
     | with_reducible apply shardGo_canonical | with_reducible apply sendRank_canonical
     | with_reducible apply canonical_ite | with_reducible apply canonical_foldl

theorem readBuckets_canonical {s n d} (hs : s.canonical) :
    (@readBuckets s n d).1.canonical := by
  unfold readBuckets
  repeat' first
     | with_reducible assumption | with_reducible intro _ | (extract_lets +onlyGivenNames y; subst y)
     | with_reducible apply readCtx_canonical | with_reducible apply canonical_foldl_fst
     | with_reducible refine pair1_canonical (by assumption) ?_ | split

theorem engineRead_canonical {s n va len} (hs : s.canonical) :
    (@engineRead s n va len).1.canonical := by
  unfold engineRead
  repeat' first
     | with_reducible assumption | with_reducible apply ctxFault_canonical | with_reducible apply readVa_canonical
     | with_reducible apply canonical_ite_fst

theorem lateEnd_canonical {s n b c} (hs : s.canonical) :
    (@lateEnd s n b c).1.canonical := by
  unfold lateEnd
  repeat' first
     | with_reducible assumption
     | (extract_lets +onlyGivenNames y; refine canonical_cut y ?_ ?_; (on_goal 2 => intro _; clear_value y); subst y)
     | (extract_lets +onlyGivenNames y; subst y) | with_reducible apply engineRead_canonical
     | with_reducible apply satAdd_canonical | with_reducible apply engineWrite_canonical
     | with_reducible apply canonical_ite | with_reducible apply canonical_ite_fst
     | with_reducible refine pair1_canonical (by assumption) ?_ | split

theorem applyDecision_canonical {s n b step d} (hs : s.canonical) :
    (@applyDecision s n b step d).canonical := by
  unfold applyDecision
  repeat' first
     | with_reducible assumption | (extract_lets +onlyGivenNames y; subst y) | with_reducible apply putBucket_canonical
     | with_reducible apply contribute_canonical | with_reducible apply lateEnd_canonical
     | with_reducible apply canonical_ite | with_reducible refine pair1_canonical (by assumption) ?_ | split

theorem takeAhead_canonical {n s key} (hs : s.canonical) :
    (@takeAhead n s key).canonical := by
  unfold takeAhead
  repeat' first
     | with_reducible assumption | with_reducible apply applyDecision_canonical
     | with_reducible apply putBucket_canonical | with_reducible apply canonical_ite | split

theorem sendBatchAbort_canonical {s n step} (hs : s.canonical) :
    (@sendBatchAbort s n step).canonical := by
  unfold sendBatchAbort
  repeat' first
     | with_reducible assumption | (extract_lets +onlyGivenNames y; subst y) | with_reducible apply sendAll_canonical
     | with_reducible apply sendHead_canonical | with_reducible apply canonical_ite

theorem sendGather_canonical {s n b} (hs : s.canonical) :
    (@sendGather s n b).1.canonical := by
  unfold sendGather
  repeat' first
     | with_reducible assumption | (extract_lets +onlyGivenNames y; subst y) | with_reducible apply engineRead_canonical
     | with_reducible apply sendAll_canonical | with_reducible refine pair1_canonical (by assumption) ?_ | split

theorem gatherEnd_canonical {s n b} (hs : s.canonical) :
    (@gatherEnd s n b).canonical := by
  unfold gatherEnd
  repeat' first
     | with_reducible assumption | (extract_lets +onlyGivenNames y; subst y) | with_reducible apply putBucket_canonical
     | with_reducible apply endStep_canonical | with_reducible apply canonical_ite

theorem replayBucket_canonical {n N isLocal s x} (hs : s.canonical) :
    (@replayBucket n N isLocal s x).canonical := by
  unfold replayBucket
  repeat' first
     | with_reducible assumption | (extract_lets +onlyGivenNames y; subst y) | with_reducible apply putBucket_canonical
     | with_reducible apply sendGather_canonical | with_reducible apply takeEarly_canonical
     | with_reducible apply gatherEnd_canonical | with_reducible apply canonical_ite
     | with_reducible refine pair1_canonical (by assumption) ?_ | split

theorem localSeal_canonical {s n b} (hs : s.canonical) :
    (@localSeal s n b).canonical := by
  unfold localSeal
  repeat' first
     | with_reducible assumption | (extract_lets +onlyGivenNames y; subst y) | with_reducible apply endStep_canonical
     | with_reducible apply lateEnd_canonical | with_reducible apply canonical_ite
     | with_reducible refine pair1_canonical (by assumption) ?_ | split

theorem redConfig_canonical {c s} (hs : s.canonical) :
    (@redConfig c s).canonical := by
  unfold redConfig
  repeat' first
     | with_reducible assumption | with_reducible intro _
     | (extract_lets +onlyGivenNames y; refine canonical_cut y ?_ ?_; (on_goal 2 => intro _; clear_value y); subst y)
     | (extract_lets +onlyGivenNames y; subst y) | with_reducible apply readCtx_canonical
     | with_reducible apply finish_canonical | with_reducible apply readBuckets_canonical
     | with_reducible apply setReg_canonical | with_reducible apply setFld_canonical
     | with_reducible apply engineWrite_canonical | with_reducible apply setRed_canonical
     | with_reducible apply canonical_ite | with_reducible apply canonical_foldl
     | with_reducible refine pair1_canonical (by assumption) ?_ | split

theorem redReplay_canonical {c s} (hs : s.canonical) :
    (@redReplay c s).canonical := by
  unfold redReplay
  repeat' first
     | with_reducible assumption | with_reducible intro _
     | (extract_lets +onlyGivenNames y; refine canonical_cut y ?_ ?_; (on_goal 2 => intro _; clear_value y); subst y)
     | (extract_lets +onlyGivenNames y; subst y) | with_reducible apply finish_canonical
     | with_reducible apply readCtx_canonical | with_reducible apply setReg_canonical
     | with_reducible apply setFld_canonical | with_reducible apply replayBucket_canonical
     | with_reducible apply setRed_canonical | with_reducible apply canonical_ite | with_reducible apply canonical_foldl
     | with_reducible refine pair1_canonical (by assumption) ?_ | split

theorem execRedReplay_canonical {p s} (hs : s.canonical) :
    OutKeeps (@execRedReplay p s) := by
  unfold execRedReplay
  repeat' first
     | with_reducible assumption | with_reducible intro _ | with_reducible apply command_canonical
     | with_reducible apply viaGang_canonical | with_reducible apply redReplay_canonical
     | with_reducible apply outKeeps_next

theorem mismatch_canonical {s n b rank step} (hs : s.canonical) :
    (@mismatch s n b rank step).canonical := by
  unfold mismatch
  repeat' first
     | with_reducible assumption | with_reducible apply redFault_canonical | with_reducible apply sendRank_canonical
     | with_reducible apply canonical_ite

theorem decideNow_canonical {s n b step atDeadline allowed} (hs : s.canonical) :
    (@decideNow s n b step atDeadline allowed).canonical := by
  unfold decideNow
  repeat' first
     | with_reducible assumption
     | (extract_lets +onlyGivenNames y; refine canonical_cut y ?_ ?_; (on_goal 2 => intro _; clear_value y); subst y)
     | (extract_lets +onlyGivenNames y; subst y) | with_reducible apply sendAll_canonical
     | with_reducible apply putBucket_canonical | with_reducible apply applyDecision_canonical

theorem headNotice_canonical {s n b rank step quar} (hs : s.canonical) :
    (@headNotice s n b rank step quar).canonical := by
  unfold headNotice
  repeat' first
     | with_reducible assumption
     | (extract_lets +onlyGivenNames y; refine canonical_cut y ?_ ?_; (on_goal 2 => intro _; clear_value y); subst y)
     | (extract_lets +onlyGivenNames y; subst y) | with_reducible apply mismatch_canonical
     | with_reducible apply putBucket_canonical | with_reducible apply decideNow_canonical
     | with_reducible apply canonical_ite

theorem takeAheadAll_canonical {s n} (hs : s.canonical) :
    (@takeAheadAll s n).canonical := by
  unfold takeAheadAll
  repeat' first
     | with_reducible assumption | with_reducible intro _ | with_reducible apply takeAhead_canonical
     | with_reducible apply canonical_foldl | split

theorem execBucketReduceStart_canonical {n s} (hs : s.canonical) :
    OutKeeps (@execBucketReduceStart n s) := by
  unfold execBucketReduceStart
  repeat' first
     | with_reducible assumption
     | (extract_lets +onlyGivenNames y; refine canonical_cut y ?_ ?_; (on_goal 2 => intro _; clear_value y); subst y)
     | (extract_lets +onlyGivenNames y; subst y) | with_reducible apply takeAheadAll_canonical
     | with_reducible apply contribute_canonical | with_reducible apply putBucket_canonical
     | with_reducible apply canonical_ite | with_reducible apply outKeeps_next | split

theorem execRedDecide_canonical {n m s} (hs : s.canonical) :
    OutKeeps (@execRedDecide n m s) := by
  unfold execRedDecide
  repeat' first
     | with_reducible assumption | with_reducible apply applyDecision_canonical | with_reducible apply canonical_ite
     | with_reducible apply outKeeps_next | split

theorem execGatherFill_canonical {n chan bucket s} (hs : s.canonical) :
    OutKeeps (@execGatherFill n chan bucket s) := by
  unfold execGatherFill
  repeat' first
     | with_reducible assumption | (extract_lets +onlyGivenNames y; subst y) | with_reducible apply redFault_canonical
     | with_reducible apply sendGather_canonical | with_reducible apply gatherEnd_canonical
     | with_reducible apply canonical_ite | with_reducible apply outKeeps_next
     | with_reducible refine pair1_canonical (by assumption) ?_ | split

theorem execLateFillComplete_canonical {n chan bucket s} (hs : s.canonical) :
    OutKeeps (@execLateFillComplete n chan bucket s) := by
  unfold execLateFillComplete
  repeat' first
     | with_reducible assumption | (extract_lets +onlyGivenNames y; subst y) | with_reducible apply redFault_canonical
     | with_reducible apply engineRead_canonical | with_reducible apply lateEnd_canonical
     | with_reducible apply endStep_canonical | with_reducible apply putBucket_canonical
     | with_reducible apply canonical_ite | with_reducible apply outKeeps_next
     | with_reducible refine pair1_canonical (by assumption) ?_ | split

theorem execBucketSeal_canonical {n chan bucket s} (hs : s.canonical) :
    OutKeeps (@execBucketSeal n chan bucket s) := by
  unfold execBucketSeal
  repeat' first
     | with_reducible assumption
     | (extract_lets +onlyGivenNames y; refine canonical_cut y ?_ ?_; (on_goal 2 => intro _; clear_value y); subst y)
     | (extract_lets +onlyGivenNames y; subst y) | with_reducible apply takeAheadAll_canonical
     | with_reducible apply redFault_canonical | with_reducible apply engineRead_canonical
     | with_reducible apply engineWrite_canonical | with_reducible apply satAdd_canonical
     | with_reducible apply setRed_canonical | with_reducible apply putBucket_canonical
     | with_reducible apply localSeal_canonical | with_reducible apply headNotice_canonical
     | with_reducible apply sendHead_canonical | with_reducible apply canonical_ite
     | with_reducible apply canonical_ite_fst | with_reducible apply outKeeps_next
     | with_reducible refine pair1_canonical (by assumption) ?_ | split

theorem execRedDeadline_canonical {n chan bucket s} (hs : s.canonical) :
    OutKeeps (@execRedDeadline n chan bucket s) := by
  unfold execRedDeadline
  repeat' first
     | with_reducible assumption | with_reducible apply decideNow_canonical | with_reducible apply advanceTo_canonical
     | with_reducible apply canonical_ite | with_reducible apply outKeeps_next | split

theorem execRedConfig_canonical {p s} (hs : s.canonical) :
    OutKeeps (@execRedConfig p s) := by
  unfold execRedConfig
  repeat' first
     | with_reducible assumption | with_reducible intro _ | with_reducible apply command_canonical
     | with_reducible apply viaGang_canonical | with_reducible apply redConfig_canonical
     | with_reducible apply outKeeps_next

theorem execRedPart_canonical {n m s} (hs : s.canonical) :
    OutKeeps (@execRedPart n m s) := by
  unfold execRedPart
  repeat' first
     | with_reducible assumption | with_reducible apply putBucket_canonical | with_reducible apply outKeeps_next | split

theorem execRedOrdered_canonical {n m s} (hs : s.canonical) :
    OutKeeps (@execRedOrdered n m s) := by
  unfold execRedOrdered
  repeat' first
     | with_reducible assumption | with_reducible apply orderedGo_canonical | with_reducible apply putBucket_canonical
     | with_reducible apply canonical_ite | with_reducible apply outKeeps_next | split

theorem execRedShard_canonical {n m s} (hs : s.canonical) :
    OutKeeps (@execRedShard n m s) := by
  unfold execRedShard
  repeat' first
     | with_reducible assumption | (extract_lets +onlyGivenNames y; subst y) | with_reducible apply shardDone_canonical
     | with_reducible apply putBucket_canonical | with_reducible apply outKeeps_next | split

theorem execRedGather_canonical {n m s} (hs : s.canonical) :
    OutKeeps (@execRedGather n m s) := by
  unfold execRedGather
  repeat' first
     | with_reducible assumption | (extract_lets +onlyGivenNames y; subst y) | with_reducible apply storeRange_canonical
     | with_reducible apply gatherEnd_canonical | with_reducible apply putBucket_canonical
     | with_reducible apply canonical_ite | with_reducible apply outKeeps_next | split

theorem execRedNotice_canonical {n m s} (hs : s.canonical) :
    OutKeeps (@execRedNotice n m s) := by
  unfold execRedNotice
  repeat' first
     | with_reducible assumption | with_reducible apply headNotice_canonical | with_reducible apply canonical_ite
     | with_reducible apply outKeeps_next | split

/-! ## Machine/Experts.lean -/

theorem batchProgress_canonical {s n} (hs : s.canonical) :
    (@batchProgress s n).canonical := by
  unfold batchProgress
  repeat' first
     | with_reducible assumption | (extract_lets +onlyGivenNames y; subst y) | with_reducible apply writeDone_canonical
     | with_reducible apply setDsp_canonical | with_reducible apply canonical_ite
     | with_reducible apply canonical_ite_fst | split

theorem leftElsewhere_canonical {s j r xs} (hs : s.canonical) :
    (@leftElsewhere s j r xs).2.canonical := by
  unfold leftElsewhere
  repeat' first
     | with_reducible assumption | with_reducible intro _ | (extract_lets +onlyGivenNames y; subst y)
     | with_reducible apply takeFree_canonical | with_reducible apply canonical_foldl_snd

theorem putStat_canonical {s n i st} (hs : s.canonical) :
    (@putStat s n i st).canonical := by
  unfold putStat
  repeat' first
     | with_reducible assumption
     | (extract_lets +onlyGivenNames y; refine canonical_cut y ?_ ?_; (on_goal 2 => intro _; clear_value y); subst y)
     | with_reducible apply engineWrite_canonical | with_reducible apply perfMod_canonical
     | with_reducible apply satAdd_canonical | with_reducible apply setDsp_canonical
     | with_reducible apply canonical_ite | split

theorem takeDspRow_canonical {s n m} (hs : s.canonical) :
    (@takeDspRow s n m).canonical := by
  unfold takeDspRow
  repeat' first
     | with_reducible assumption
     | (extract_lets +onlyGivenNames y; refine canonical_cut y ?_ ?_; (on_goal 2 => intro _; clear_value y); subst y)
     | (extract_lets +onlyGivenNames y; subst y) | with_reducible apply engineWrite_canonical
     | with_reducible apply batchProgress_canonical | with_reducible apply setDsp_canonical
     | with_reducible apply canonical_ite | split

theorem sendRow_canonical {s n i st} (hs : s.canonical) :
    (@sendRow s n i st).canonical := by
  unfold sendRow
  repeat' first
     | with_reducible assumption | (extract_lets +onlyGivenNames y; subst y) | with_reducible apply engineRead_canonical
     | with_reducible apply takeDspRow_canonical | with_reducible apply sendRank_canonical
     | with_reducible apply canonical_ite | with_reducible refine pair1_canonical (by assumption) ?_ | split

theorem takeAdmit_canonical {s n step es} (hs : s.canonical) :
    (@takeAdmit s n step es).canonical := by
  unfold takeAdmit
  repeat' first
     | with_reducible assumption | with_reducible intro _
     | (extract_lets +onlyGivenNames y; refine canonical_cut y ?_ ?_; (on_goal 2 => intro _; clear_value y); subst y)
     | with_reducible apply putStat_canonical | with_reducible apply sendRow_canonical
     | with_reducible apply batchProgress_canonical | with_reducible apply canonical_ite
     | with_reducible apply canonical_foldl | split

theorem execDspAdmission_canonical {n s} (hs : s.canonical) :
    OutKeeps (@execDspAdmission n s) := by
  unfold execDspAdmission
  repeat' first
     | with_reducible assumption | with_reducible intro _ | (extract_lets +onlyGivenNames y; subst y)
     | with_reducible apply leftElsewhere_canonical | with_reducible apply engineWrite_canonical
     | with_reducible apply satAdd_canonical | with_reducible apply perfMod_canonical
     | with_reducible apply setDsp_canonical | with_reducible apply takeAdmit_canonical
     | with_reducible apply sendRank_canonical | with_reducible apply batchProgress_canonical
     | with_reducible apply canonical_ite | with_reducible apply canonical_foldl
     | with_reducible apply canonical_ite_snd | with_reducible apply outKeeps_next | split

theorem takeRet_canonical {s n step i data poison} (hs : s.canonical) :
    (@takeRet s n step i data poison).canonical := by
  unfold takeRet
  repeat' first
     | with_reducible assumption
     | (extract_lets +onlyGivenNames y; refine canonical_cut y ?_ ?_; (on_goal 2 => intro _; clear_value y); subst y)
     | with_reducible apply perfMod_canonical | with_reducible apply engineWrite_canonical
     | with_reducible apply batchProgress_canonical | with_reducible apply setDsp_canonical
     | with_reducible apply canonical_ite | split

theorem execDspOutFill_canonical {n s} (hs : s.canonical) :
    OutKeeps (@execDspOutFill n s) := by
  unfold execDspOutFill
  repeat' first
     | with_reducible assumption | with_reducible intro _
     | (extract_lets +onlyGivenNames y; refine canonical_cut y ?_ ?_; (on_goal 2 => intro _; clear_value y); subst y)
     | (extract_lets +onlyGivenNames y; subst y) | with_reducible apply redFault_canonical
     | with_reducible apply setDsp_canonical | with_reducible apply engineRead_canonical
     | with_reducible apply takeRet_canonical | with_reducible apply sendRank_canonical
     | with_reducible apply batchProgress_canonical | with_reducible apply canonical_ite
     | with_reducible apply canonical_foldl | with_reducible apply outKeeps_next
     | with_reducible refine pair1_canonical (by assumption) ?_ | split

theorem dspConfig_canonical {c s} (hs : s.canonical) :
    (@dspConfig c s).canonical := by
  unfold dspConfig
  repeat' first
     | with_reducible assumption
     | (extract_lets +onlyGivenNames y; refine canonical_cut y ?_ ?_; (on_goal 2 => intro _; clear_value y); subst y)
     | (extract_lets +onlyGivenNames y; subst y) | with_reducible apply readCtx_canonical
     | with_reducible apply finish_canonical | with_reducible apply setReg_canonical
     | with_reducible apply setDsp_canonical | with_reducible apply canonical_ite
     | with_reducible refine pair1_canonical (by assumption) ?_ | split

theorem takeRoutes_canonical {s n m} (hs : s.canonical) :
    (@takeRoutes s n m).canonical := by
  unfold takeRoutes
  repeat' first
     | with_reducible assumption | with_reducible apply setDsp_canonical | with_reducible apply canonical_ite | split

theorem execDspRoutes_canonical {n step src entries s} (hs : s.canonical) :
    OutKeeps (@execDspRoutes n step src entries s) := by
  unfold execDspRoutes
  repeat' first
     | with_reducible assumption | with_reducible apply takeRoutes_canonical | with_reducible apply outKeeps_next

theorem execDspAdmit_canonical {n step entries s} (hs : s.canonical) :
    OutKeeps (@execDspAdmit n step entries s) := by
  unfold execDspAdmit
  repeat' first
     | with_reducible assumption | with_reducible apply takeAdmit_canonical | with_reducible apply outKeeps_next

theorem execDspConfig_canonical {p s} (hs : s.canonical) :
    OutKeeps (@execDspConfig p s) := by
  unfold execDspConfig
  repeat' first
     | with_reducible assumption | with_reducible intro _ | with_reducible apply command_canonical
     | with_reducible apply viaGang_canonical | with_reducible apply dspConfig_canonical
     | with_reducible apply outKeeps_next

theorem execDspRet_canonical {n step index data s} (hs : s.canonical) :
    OutKeeps (@execDspRet n step index data s) := by
  unfold execDspRet
  repeat' first
     | with_reducible assumption | with_reducible apply takeRet_canonical | with_reducible apply outKeeps_next

theorem execDspRows_canonical {n m s} (hs : s.canonical) :
    OutKeeps (@execDspRows n m s) := by
  unfold execDspRows
  repeat' first
     | with_reducible assumption | with_reducible apply takeDspRow_canonical | with_reducible apply outKeeps_next

theorem execRouteListFill_canonical {n s} (hs : s.canonical) :
    OutKeeps (@execRouteListFill n s) := by
  unfold execRouteListFill
  repeat' first
     | with_reducible assumption | with_reducible intro _
     | (extract_lets +onlyGivenNames y; refine canonical_cut y ?_ ?_; (on_goal 2 => intro _; clear_value y); subst y)
     | (extract_lets +onlyGivenNames y; subst y) | with_reducible apply redFault_canonical
     | with_reducible apply engineRead_canonical | with_reducible apply setDsp_canonical
     | with_reducible apply putStat_canonical | with_reducible apply takeRoutes_canonical
     | with_reducible apply sendRank_canonical | with_reducible apply batchProgress_canonical
     | with_reducible apply canonical_ite | with_reducible apply canonical_foldl | with_reducible apply outKeeps_next
     | with_reducible refine pair1_canonical (by assumption) ?_ | split

/-! ## Machine/Casement.lean -/

theorem casRead_canonical {s n va len} (hs : s.canonical) :
    (@casRead s n va len).1.canonical := by
  unfold casRead
  repeat' first
     | with_reducible assumption | with_reducible apply readVa_canonical | with_reducible apply canonical_ite_fst

theorem readTable_canonical {s n d k} (hs : s.canonical) :
    (@readTable s n d k).1.canonical := by
  unfold readTable
  repeat' first
     | with_reducible assumption | (extract_lets +onlyGivenNames y; subst y) | with_reducible apply readCtx_canonical
     | with_reducible apply canonical_ite_fst | with_reducible refine pair1_canonical (by assumption) ?_ | split

theorem casFault_canonical {s n code} (hs : s.canonical) :
    (@casFault s n code).canonical := by
  unfold casFault
  repeat' first
     | with_reducible assumption
     | (extract_lets +onlyGivenNames y; refine canonical_cut y ?_ ?_; (on_goal 2 => intro _; clear_value y); subst y)
     | with_reducible apply ctxFault_canonical | with_reducible apply casAbort_canonical
     | with_reducible apply setFld_canonical | with_reducible apply setCtxState_canonical
     | with_reducible apply errRecord_canonical | with_reducible apply canonical_ite

theorem setCas_canonical {s n j} (hs : s.canonical) :
    (@setCas s n j).canonical := by
  unfold setCas
  repeat' first
     | with_reducible assumption | fail_if_no_progress with_reducible refine canonical_mk (canonical_fold ?_)

theorem latchSeed_canonical {s n} (hs : s.canonical) :
    (@latchSeed s n).canonical := by
  unfold latchSeed
  repeat' first
     | with_reducible assumption | with_reducible apply setCas_canonical | split

theorem casFails_canonical {s n code} (hs : s.canonical) :
    OptKeeps (@casFails s n code) := by
  unfold casFails
  repeat' first
     | with_reducible assumption | with_reducible apply casFault_canonical | with_reducible apply optKeeps_some
     | with_reducible apply optKeeps_none | with_reducible apply optKeeps_ite

theorem slotRoom_canonical {s n j q} (hs : s.canonical) :
    (@slotRoom s n j q).1.canonical := by
  unfold slotRoom
  repeat' first
     | with_reducible assumption | with_reducible apply casRead_canonical
     | with_reducible refine pair1_canonical (by assumption) ?_ | split

theorem tagTensor_canonical {s n va len id} (hs : s.canonical) :
    (@tagTensor s n va len id).canonical := by
  unfold tagTensor
  repeat' first
     | with_reducible assumption | with_reducible intro _ | (extract_lets +onlyGivenNames y; subst y)
     | with_reducible apply setGrp_canonical | with_reducible apply canonical_ite | with_reducible apply canonical_foldl
     | split

theorem casWrite_canonical {s n va bs tensor} (hs : s.canonical) :
    OptKeeps (@casWrite s n va bs tensor) := by
  unfold casWrite
  repeat' first
     | with_reducible assumption
     | (extract_lets +onlyGivenNames y; refine canonical_cut y ?_ ?_; (on_goal 2 => intro _; clear_value y); subst y)
     | with_reducible apply writeVa_canonical | with_reducible apply tagTensor_canonical
     | with_reducible apply optKeeps_some | with_reducible apply optKeeps_none | with_reducible apply optKeeps_ite
     | split

theorem rowsTo_canonical {s n j x} (hs : s.canonical) :
    (@rowsTo s n j x).1.canonical := by
  unfold rowsTo
  repeat' first
     | with_reducible assumption | (extract_lets +onlyGivenNames y; subst y) | with_reducible apply slotRoom_canonical
     | with_reducible apply casFails_canonical | with_reducible apply bump_canonical
     | with_reducible apply setCas_canonical | with_reducible apply casWrite_canonical
     | with_reducible apply canonical_ite_fst | with_reducible refine pair1_canonical (by assumption) ?_
     | with_reducible refine opt_canonical (by assumption) ?_ | split

theorem scratchLate_canonical {s n} (hs : s.canonical) :
    (@scratchLate s n).canonical := by
  unfold scratchLate
  repeat' first
     | with_reducible assumption | with_reducible apply shutRaise_canonical | with_reducible apply shutDrop_canonical
     | with_reducible apply canonical_ite

theorem injectSample_canonical {s n j r x} (hs : s.canonical) :
    (@injectSample s n j r x).canonical := by
  unfold injectSample
  repeat' first
     | with_reducible assumption
     | (extract_lets +onlyGivenNames y; refine canonical_cut y ?_ ?_; (on_goal 2 => intro _; clear_value y); subst y)
     | (extract_lets +onlyGivenNames y; subst y) | with_reducible apply advanceCycles_canonical
     | with_reducible apply dieBytes_canonical | split
     | fail_if_no_progress with_reducible refine canonical_mk (canonical_fold ?_)

theorem casLog_canonical {s n j x} (hs : s.canonical) :
    OptKeeps (@casLog s n j x) := by
  unfold casLog
  repeat' first
     | with_reducible assumption | with_reducible intro _ | (extract_lets +onlyGivenNames y; subst y)
     | with_reducible apply setFld_canonical | with_reducible apply casWrite_canonical
     | with_reducible apply optKeeps_map

theorem sampleGone_canonical {s n j x} (hs : s.canonical) :
    (@sampleGone s n j x).canonical := by
  unfold sampleGone
  repeat' first
     | with_reducible assumption
     | (extract_lets +onlyGivenNames y; refine canonical_cut y ?_ ?_; (on_goal 2 => intro _; clear_value y); subst y)
     | with_reducible apply satAdd_canonical | with_reducible apply setCas_canonical
     | with_reducible apply casLog_canonical | with_reducible apply casFails_canonical
     | with_reducible apply canonical_ite | with_reducible apply canonical_getD
     | with_reducible refine opt_canonical (by assumption) ?_ | split

theorem flushSamples_canonical {a0 a1 a2} (ha2 : a2.canonical) :
    (@flushSamples a0 a1 a2).canonical := by
  induction a0 generalizing a1 a2 with
  | zero =>
    unfold flushSamples
    repeat' first
       | with_reducible assumption
  | succ f ih =>
    unfold flushSamples
    repeat' first
       | with_reducible assumption
       | (extract_lets +onlyGivenNames y; refine canonical_cut y ?_ ?_; (on_goal 2 => intro _; clear_value y); subst y)
       | (extract_lets +onlyGivenNames y; subst y) | with_reducible apply bump_canonical
       | with_reducible apply injectSample_canonical | with_reducible apply sampleGone_canonical
       | with_reducible apply rowsTo_canonical | with_reducible apply casWrite_canonical
       | with_reducible apply casFails_canonical | with_reducible apply ih | with_reducible apply canonical_ite
       | with_reducible refine pair1_canonical (by assumption) ?_ | with_reducible refine opt_canonical (by assumption) ?_
       | split

theorem casFlush_canonical {s n} (hs : s.canonical) :
    (@casFlush s n).canonical := by
  unfold casFlush
  repeat' first
     | with_reducible assumption | with_reducible intro _
     | (extract_lets +onlyGivenNames y; refine canonical_cut y ?_ ?_; (on_goal 2 => intro _; clear_value y); subst y)
     | with_reducible apply rowsTo_canonical | with_reducible apply scratchLate_canonical
     | with_reducible apply flushSamples_canonical | with_reducible apply canonical_ite
     | with_reducible apply canonical_foldl | split

theorem casTake_canonical {s n e} (hs : s.canonical) :
    (@casTake s n e).canonical := by
  unfold casTake
  repeat' first
     | with_reducible assumption
     | (extract_lets +onlyGivenNames y; refine canonical_cut y ?_ ?_; (on_goal 2 => intro _; clear_value y); subst y)
     | (extract_lets +onlyGivenNames y; subst y) | with_reducible apply bump_canonical
     | with_reducible apply setReg_canonical | with_reducible apply setCas_canonical
     | with_reducible apply casRead_canonical | with_reducible apply setFld_canonical
     | with_reducible apply casFails_canonical | with_reducible apply casFlush_canonical
     | with_reducible refine pair1_canonical (by assumption) ?_ | with_reducible refine opt_canonical (by assumption) ?_
     | split | fail_if_no_progress with_reducible refine canonical_mk (canonical_fold ?_)

theorem decodeFree_canonical {s n e code luma} (hs : s.canonical) :
    (@decodeFree s n e code luma).canonical := by
  unfold decodeFree
  repeat' first
     | with_reducible assumption | with_reducible intro _
     | (extract_lets +onlyGivenNames y; refine canonical_cut y ?_ ?_; (on_goal 2 => intro _; clear_value y); subst y)
     | with_reducible apply setFld_canonical | with_reducible apply bump_canonical
     | with_reducible apply perfMod_canonical | with_reducible apply canonical_ite
     | with_reducible apply canonical_foldl

theorem readTables_canonical {s n d} (hs : s.canonical) :
    (@readTables s n d).1.canonical := by
  unfold readTables
  repeat' first
     | with_reducible assumption | with_reducible intro _ | with_reducible apply readTable_canonical
     | with_reducible apply canonical_foldl_fst | with_reducible refine pair1_canonical (by assumption) ?_ | split

theorem execConsumedRecheck_canonical {n s} (hs : s.canonical) :
    OutKeeps (@execConsumedRecheck n s) := by
  unfold execConsumedRecheck
  repeat' first
     | with_reducible assumption | with_reducible apply casFlush_canonical | with_reducible apply outKeeps_next

theorem casStart_canonical {c s} (hs : s.canonical) :
    (@casStart c s).canonical := by
  unfold casStart
  repeat' first
     | with_reducible assumption | with_reducible apply finish_canonical | with_reducible apply setFld_canonical
     | with_reducible apply latchSeed_canonical

theorem execCasStart_canonical {p s} (hs : s.canonical) :
    OutKeeps (@execCasStart p s) := by
  unfold execCasStart
  repeat' first
     | with_reducible assumption | with_reducible intro _ | with_reducible apply command_canonical
     | with_reducible apply viaGang_canonical | with_reducible apply casStart_canonical
     | with_reducible apply outKeeps_next

theorem execScratchRun_canonical {n cmd s} (hs : s.canonical) :
    OutKeeps (@execScratchRun n cmd s) := by
  unfold execScratchRun
  repeat' first
     | with_reducible assumption | (extract_lets +onlyGivenNames y; subst y) | with_reducible apply casFlush_canonical
     | with_reducible apply setCas_canonical | with_reducible apply canonical_ite | with_reducible apply outKeeps_next
     | split

theorem casSeek_canonical {c s} (hs : s.canonical) :
    (@casSeek c s).canonical := by
  unfold casSeek
  repeat' first
     | with_reducible assumption
     | (extract_lets +onlyGivenNames y; refine canonical_cut y ?_ ?_; (on_goal 2 => intro _; clear_value y); subst y)
     | with_reducible apply finish_canonical | with_reducible apply setReg_canonical
     | with_reducible apply latchSeed_canonical | with_reducible apply canonical_ite | split

theorem casMayTake_canonical {s n} (hs : s.canonical) :
    (@casMayTake s n).1.canonical := by
  unfold casMayTake
  repeat' first
     | with_reducible assumption | (extract_lets +onlyGivenNames y; subst y) | with_reducible apply slotRoom_canonical
     | with_reducible apply casFails_canonical | with_reducible apply canonical_ite_fst
     | with_reducible apply canonical_getD | with_reducible refine pair1_canonical (by assumption) ?_ | split

theorem execCasDispatch_canonical {e s} (hs : s.canonical) :
    OutKeeps (@execCasDispatch e s) := by
  unfold execCasDispatch
  repeat' first
     | with_reducible assumption | with_reducible intro _ | (extract_lets +onlyGivenNames y; subst y)
     | with_reducible apply casMayTake_canonical | with_reducible apply casTake_canonical
     | with_reducible apply canonical_ite | with_reducible apply canonical_foldl_fst
     | with_reducible apply canonical_ite_fst | with_reducible apply outKeeps_next
     | with_reducible refine pair1_canonical (by assumption) ?_ | split

theorem execCasSeek_canonical {p s} (hs : s.canonical) :
    OutKeeps (@execCasSeek p s) := by
  unfold execCasSeek
  repeat' first
     | with_reducible assumption | with_reducible intro _ | with_reducible apply command_canonical
     | with_reducible apply viaGang_canonical | with_reducible apply casSeek_canonical
     | with_reducible apply outKeeps_next

theorem casConfig_canonical {c s} (hs : s.canonical) :
    (@casConfig c s).canonical := by
  unfold casConfig
  repeat' first
     | with_reducible assumption
     | (extract_lets +onlyGivenNames y; refine canonical_cut y ?_ ?_; (on_goal 2 => intro _; clear_value y); subst y)
     | (extract_lets +onlyGivenNames y; subst y) | with_reducible apply readCtx_canonical
     | with_reducible apply finish_canonical | with_reducible apply readTables_canonical
     | with_reducible apply setReg_canonical | with_reducible apply setCas_canonical
     | with_reducible apply canonical_ite | with_reducible refine pair1_canonical (by assumption) ?_ | split

theorem execCasConfig_canonical {p s} (hs : s.canonical) :
    OutKeeps (@execCasConfig p s) := by
  unfold execCasConfig
  repeat' first
     | with_reducible assumption | with_reducible intro _ | with_reducible apply command_canonical
     | with_reducible apply viaGang_canonical | with_reducible apply casConfig_canonical
     | with_reducible apply outKeeps_next

theorem execSampleDecodeComplete_canonical {e s} (hs : s.canonical) :
    OutKeeps (@execSampleDecodeComplete e s) := by
  unfold execSampleDecodeComplete
  repeat' first
     | with_reducible assumption | (extract_lets +onlyGivenNames y; subst y) | with_reducible apply casFlush_canonical
     | with_reducible apply setCas_canonical | with_reducible apply decodeFree_canonical
     | with_reducible apply casRead_canonical | with_reducible apply casFails_canonical
     | with_reducible apply canonical_ite | with_reducible apply outKeeps_next
     | with_reducible refine pair1_canonical (by assumption) ?_ | with_reducible refine opt_canonical (by assumption) ?_
     | split

theorem execCasStopComplete_canonical {n s} (hs : s.canonical) :
    OutKeeps (@execCasStopComplete n s) := by
  unfold execCasStopComplete
  repeat' first
     | with_reducible assumption | with_reducible intro _
     | (extract_lets +onlyGivenNames y; refine canonical_cut y ?_ ?_; (on_goal 2 => intro _; clear_value y); subst y)
     | with_reducible apply setFld_canonical | with_reducible apply setCas_canonical
     | with_reducible apply completeId_canonical | with_reducible apply canonical_ite
     | with_reducible apply canonical_foldl | with_reducible apply outKeeps_next | split

theorem casStop_canonical {c s} (hs : s.canonical) :
    (@casStop c s).canonical := by
  unfold casStop
  repeat' first
     | with_reducible assumption | with_reducible apply finish_canonical | with_reducible apply setFld_canonical
     | with_reducible apply setCas_canonical | with_reducible apply canonical_ite | split

theorem execCasStop_canonical {p s} (hs : s.canonical) :
    OutKeeps (@execCasStop p s) := by
  unfold execCasStop
  repeat' first
     | with_reducible assumption | with_reducible intro _ | with_reducible apply command_canonical
     | with_reducible apply viaGang_canonical | with_reducible apply casStop_canonical
     | with_reducible apply outKeeps_next

/-! ## Machine/Requests.lean -/

theorem execShutterRequest_canonical {r cause src s} (hs : s.canonical) :
    OutKeeps (@execShutterRequest r cause src s) := by
  unfold execShutterRequest
  repeat' first
     | with_reducible assumption | with_reducible apply powered_canonical | with_reducible apply shutRaise_canonical
     | with_reducible apply canonical_ite | with_reducible apply outKeeps_next

theorem execShutterWithdraw_canonical {r cause src s} (hs : s.canonical) :
    OutKeeps (@execShutterWithdraw r cause src s) := by
  unfold execShutterWithdraw
  repeat' first
     | with_reducible assumption | with_reducible apply shutWithdraw_canonical | with_reducible apply canonical_ite
     | with_reducible apply outKeeps_next

end Sys2Proof.Machine
end

