-- ==== Sys2Proof/Laws/CanonHost.lean ====
section
/-! SUPPORT. The canonical form is kept by the functions and meanings of host registers, host requests, keys and the fabric: one lemma each. -/

namespace Sys2Proof.Machine

/-! ## Machine/HostReg.lean -/

theorem dieReg_canonical {s a write} (hs : s.canonical) :
    (@dieReg s a write).canonical := by
  unfold dieReg
  repeat' first
     | with_reducible assumption | with_reducible apply dieBytes_canonical | with_reducible apply canonical_ite

theorem abortUntaken_canonical {a0 a1 a2} (ha2 : a2.canonical) :
    (@abortUntaken a0 a1 a2).canonical := by
  induction a0 generalizing a1 a2 with
  | zero =>
    unfold abortUntaken
    repeat' first
       | with_reducible assumption
  | succ f ih =>
    unfold abortUntaken
    repeat' first
       | with_reducible assumption | (extract_lets +onlyGivenNames y; subst y) | with_reducible apply setFld_canonical
       | with_reducible apply readEntry_canonical | with_reducible apply advanceHead_canonical
       | with_reducible apply complete_canonical | with_reducible apply ih | with_reducible apply canonical_ite | split

theorem abortQueue_canonical {s p} (hs : s.canonical) :
    (@abortQueue s p).canonical := by
  unfold abortQueue
  repeat' first
     | with_reducible assumption | with_reducible apply abortUntaken_canonical

theorem served_canonical {s t} (hs : s.canonical) (ht : t.canonical) :
    (@served s t).canonical := by
  unfold served
  repeat' first
     | with_reducible assumption | with_reducible apply powered_canonical | with_reducible apply canonical_ite

theorem errEntry_canonical {s q tag status addr} (hs : s.canonical) :
    (@errEntry s q tag status addr).canonical := by
  unfold errEntry
  repeat' first
     | with_reducible assumption | with_reducible apply postCq_canonical

theorem errRefuse_canonical {s q tag addr} (hs : s.canonical) :
    (@errRefuse s q tag addr).canonical := by
  unfold errRefuse
  repeat' first
     | with_reducible assumption | with_reducible apply errEntry_canonical | with_reducible apply canonical_ite
     | fail_if_no_progress with_reducible refine canonical_mk (canonical_fold ?_)

theorem refuseReq_canonical {s q tag addr} (hs : s.canonical) :
    (@refuseReq s q tag addr).canonical := by
  unfold refuseReq
  repeat' first
     | with_reducible assumption | with_reducible apply errRefuse_canonical | with_reducible apply satAdd_canonical
     | with_reducible apply errEntry_canonical | with_reducible apply canonical_ite

theorem doorbellViolation_canonical {s q p a} (hs : s.canonical) :
    (@doorbellViolation s q p a).canonical := by
  unfold doorbellViolation
  repeat' first
     | with_reducible assumption
     | (extract_lets +onlyGivenNames y; refine canonical_cut y ?_ ?_; (on_goal 2 => intro _; clear_value y); subst y)
     | (extract_lets +onlyGivenNames y; subst y) | with_reducible apply violation_canonical
     | with_reducible apply abortQueue_canonical | with_reducible apply setFld_canonical
     | with_reducible apply canonical_ite | fail_if_no_progress with_reducible refine canonical_mk (canonical_fold ?_)

theorem writeDoorbell_canonical {s q p v} (hs : s.canonical) :
    (@writeDoorbell s q p v).canonical := by
  unfold writeDoorbell
  repeat' first
     | with_reducible assumption
     | (extract_lets +onlyGivenNames y; refine canonical_cut y ?_ ?_; (on_goal 2 => intro _; clear_value y); subst y)
     | (extract_lets +onlyGivenNames y; subst y) | with_reducible apply doorbellViolation_canonical
     | with_reducible apply setFld_canonical | with_reducible apply canonical_ite
     | fail_if_no_progress with_reducible refine canonical_mk (canonical_fold ?_)

theorem writeCq_canonical {s p b v} (hs : s.canonical) :
    (@writeCq s p b v).canonical := by
  unfold writeCq
  repeat' first
     | with_reducible assumption
     | (extract_lets +onlyGivenNames y; refine canonical_cut y ?_ ?_; (on_goal 2 => intro _; clear_value y); subst y)
     | with_reducible apply setReg_canonical | with_reducible apply setFld_canonical
     | with_reducible apply canonical_ite | fail_if_no_progress with_reducible refine canonical_mk (canonical_fold ?_)

theorem clearRecFlag_canonical {s a flag ovr setNow recs} (hs : s.canonical) :
    (@clearRecFlag s a flag ovr setNow recs).canonical := by
  unfold clearRecFlag
  repeat' first
     | with_reducible assumption | with_reducible intro _
     | (extract_lets +onlyGivenNames y; refine canonical_cut y ?_ ?_; (on_goal 2 => intro _; clear_value y); subst y)
     | (extract_lets +onlyGivenNames y; subst y) | with_reducible apply flagClear_canonical
     | with_reducible apply takeFree_canonical | with_reducible apply setFld_canonical
     | with_reducible apply canonical_ite | with_reducible apply canonical_foldl

theorem writeStatus_canonical {s p v setNow} (hs : s.canonical) :
    (@writeStatus s p v setNow).canonical := by
  unfold writeStatus
  repeat' first
     | with_reducible assumption
     | (extract_lets +onlyGivenNames y; refine canonical_cut y ?_ ?_; (on_goal 2 => intro _; clear_value y); subst y)
     | (extract_lets +onlyGivenNames y; subst y) | with_reducible apply clearRecFlag_canonical
     | with_reducible apply setFld_canonical | with_reducible apply abortQueue_canonical
     | with_reducible apply canonical_ite

theorem writePage_canonical {s q p off a b v setNow} (hs : s.canonical) :
    (@writePage s q p off a b v setNow).canonical := by
  unfold writePage
  repeat' first
     | with_reducible assumption | with_reducible apply violation_canonical
     | with_reducible apply writeDoorbell_canonical | with_reducible apply writeCq_canonical
     | with_reducible apply writeStatus_canonical | with_reducible apply setReg_canonical
     | with_reducible apply canonical_ite

theorem writeHold_canonical {s r v} (hs : s.canonical) :
    (@writeHold s r v).canonical := by
  unfold writeHold
  repeat' first
     | with_reducible assumption
     | (extract_lets +onlyGivenNames y; refine canonical_cut y ?_ ?_; (on_goal 2 => intro _; clear_value y); subst y)
     | (extract_lets +onlyGivenNames y; subst y) | with_reducible apply setFld_canonical
     | with_reducible apply shutRaise_canonical | with_reducible apply shutWithdraw_canonical
     | with_reducible apply canonical_ite

theorem writeLedgerRd_canonical {s q n a v} (hs : s.canonical) :
    (@writeLedgerRd s q n a v).canonical := by
  unfold writeLedgerRd
  repeat' first
     | with_reducible assumption
     | (extract_lets +onlyGivenNames y; refine canonical_cut y ?_ ?_; (on_goal 2 => intro _; clear_value y); subst y)
     | (extract_lets +onlyGivenNames y; subst y) | with_reducible apply violation_canonical
     | with_reducible apply setFld_canonical | with_reducible apply replayEnd_canonical
     | with_reducible apply flushRecs_canonical | with_reducible apply ledgerFlag_canonical
     | with_reducible apply canonical_ite | split

theorem writeDisable_canonical {s p v} (hs : s.canonical) :
    (@writeDisable s p v).canonical := by
  unfold writeDisable
  repeat' first
     | with_reducible assumption
     | (extract_lets +onlyGivenNames y; refine canonical_cut y ?_ ?_; (on_goal 2 => intro _; clear_value y); subst y)
     | (extract_lets +onlyGivenNames y; subst y) | with_reducible apply setFld_canonical
     | with_reducible apply disablePort_canonical | with_reducible apply setPortState_canonical
     | with_reducible apply canonical_ite

theorem writeSel_canonical {s q tile k a b v} (hs : s.canonical) :
    (@writeSel s q tile k a b v).canonical := by
  unfold writeSel
  repeat' first
     | with_reducible assumption
     | (extract_lets +onlyGivenNames y; refine canonical_cut y ?_ ?_; (on_goal 2 => intro _; clear_value y); subst y)
     | with_reducible apply setReg_canonical | with_reducible apply resetRegs_canonical
     | with_reducible apply violation_canonical | with_reducible apply canonical_ite

theorem writeWindow_canonical {s q a v} (hs : s.canonical) :
    (@writeWindow s q a v).canonical := by
  unfold writeWindow
  repeat' first
     | with_reducible assumption
     | (extract_lets +onlyGivenNames y; refine canonical_cut y ?_ ?_; (on_goal 2 => intro _; clear_value y); subst y)
     | (extract_lets +onlyGivenNames y; subst y) | with_reducible apply violation_canonical
     | with_reducible apply setFld_canonical | with_reducible apply canonical_ite
     | fail_if_no_progress with_reducible refine canonical_mk (canonical_fold ?_)

theorem ownerWrite_canonical {s q a b v} (hs : s.canonical) :
    (@ownerWrite s q a b v).canonical := by
  unfold ownerWrite
  repeat' first
     | with_reducible assumption
     | (extract_lets +onlyGivenNames y; refine canonical_cut y ?_ ?_; (on_goal 2 => intro _; clear_value y); subst y)
     | (extract_lets +onlyGivenNames y; subst y) | with_reducible apply setReg_canonical
     | with_reducible apply violation_canonical | with_reducible apply dropOnes_canonical
     | with_reducible apply writeDisable_canonical | with_reducible apply setFld_canonical
     | with_reducible apply writeSel_canonical | with_reducible apply writeWindow_canonical
     | with_reducible apply canonical_ite | fail_if_no_progress with_reducible refine canonical_mk (canonical_fold ?_)

theorem writeModule_canonical {s q a b v setNow} (hs : s.canonical) :
    (@writeModule s q a b v setNow).canonical := by
  unfold writeModule
  repeat' first
     | with_reducible assumption | with_reducible apply violation_canonical
     | with_reducible apply clearRecFlag_canonical | with_reducible apply writeHold_canonical
     | with_reducible apply writeLedgerRd_canonical | with_reducible apply ownerWrite_canonical
     | with_reducible apply canonical_ite

theorem writeReg_canonical {s q a v setNow} (hs : s.canonical) :
    (@writeReg s q a v setNow).canonical := by
  unfold writeReg
  repeat' first
     | with_reducible assumption | with_reducible apply violation_canonical | with_reducible apply writePage_canonical
     | with_reducible apply dieReg_canonical | with_reducible apply writeModule_canonical
     | with_reducible apply canonical_ite | split

theorem hostWrite_canonical {s q a v setNow} (hs : s.canonical) :
    (@hostWrite s q a v setNow).canonical := by
  unfold hostWrite
  repeat' first
     | with_reducible assumption | with_reducible apply served_canonical | with_reducible apply violation_canonical
     | with_reducible apply takeFree_canonical | with_reducible apply refuseReq_canonical
     | with_reducible apply writeReg_canonical | with_reducible apply canonical_ite

theorem execResume_canonical {q p s} (hs : s.canonical) :
    OutKeeps (@execResume q p s) := by
  unfold execResume
  repeat' first
     | with_reducible assumption | with_reducible apply hostWrite_canonical | with_reducible apply outKeeps_next

theorem execUcbCqWrite_canonical {q p v s} (hs : s.canonical) :
    OutKeeps (@execUcbCqWrite q p v s) := by
  unfold execUcbCqWrite
  repeat' first
     | with_reducible assumption | with_reducible apply hostWrite_canonical | with_reducible apply outKeeps_next

theorem readReg_canonical {s q a} (hs : s.canonical) :
    (@readReg s q a).2.canonical := by
  unfold readReg
  repeat' first
     | with_reducible assumption | (extract_lets +onlyGivenNames y; subst y) | with_reducible apply violation_canonical
     | with_reducible apply dieReg_canonical | with_reducible apply canonical_ite
     | with_reducible apply canonical_ite_snd | split

theorem execWindowWrite_canonical {q v s} (hs : s.canonical) :
    OutKeeps (@execWindowWrite q v s) := by
  unfold execWindowWrite
  repeat' first
     | with_reducible assumption | with_reducible apply hostWrite_canonical | with_reducible apply outKeeps_next

theorem execHold_canonical {q r v s} (hs : s.canonical) :
    OutKeeps (@execHold q r v s) := by
  unfold execHold
  repeat' first
     | with_reducible assumption | with_reducible apply hostWrite_canonical | with_reducible apply outKeeps_next

theorem execFlush_canonical {q p s} (hs : s.canonical) :
    OutKeeps (@execFlush q p s) := by
  unfold execFlush
  repeat' first
     | with_reducible assumption | with_reducible apply hostWrite_canonical | with_reducible apply outKeeps_next

theorem execDoorbell_canonical {q p v s} (hs : s.canonical) :
    OutKeeps (@execDoorbell q p v s) := by
  unfold execDoorbell
  repeat' first
     | with_reducible assumption | with_reducible apply hostWrite_canonical | with_reducible apply outKeeps_next

theorem execReenable_canonical {q pair s} (hs : s.canonical) :
    OutKeeps (@execReenable q pair s) := by
  unfold execReenable
  repeat' first
     | with_reducible assumption | with_reducible apply hostWrite_canonical | with_reducible apply outKeeps_next

theorem execLedgerRdWrite_canonical {q n v s} (hs : s.canonical) :
    OutKeeps (@execLedgerRdWrite q n v s) := by
  unfold execLedgerRdWrite
  repeat' first
     | with_reducible assumption | with_reducible apply hostWrite_canonical | with_reducible apply outKeeps_next

theorem execRegisterWrite_canonical {q addr v s} (hs : s.canonical) :
    OutKeeps (@execRegisterWrite q addr v s) := by
  unfold execRegisterWrite
  repeat' first
     | with_reducible assumption | with_reducible apply hostWrite_canonical | with_reducible apply outKeeps_next

theorem execErrValidClear_canonical {q addr setNow s} (hs : s.canonical) :
    OutKeeps (@execErrValidClear q addr setNow s) := by
  unfold execErrValidClear
  repeat' first
     | with_reducible assumption | (extract_lets +onlyGivenNames y; subst y) | with_reducible apply hostWrite_canonical
     | with_reducible apply canonical_ite | with_reducible apply outKeeps_next | split

theorem execPerfSelWrite_canonical {q k v s} (hs : s.canonical) :
    OutKeeps (@execPerfSelWrite q k v s) := by
  unfold execPerfSelWrite
  repeat' first
     | with_reducible assumption | with_reducible apply hostWrite_canonical | with_reducible apply outKeeps_next

theorem execPerfMselWrite_canonical {q k v s} (hs : s.canonical) :
    OutKeeps (@execPerfMselWrite q k v s) := by
  unfold execPerfMselWrite
  repeat' first
     | with_reducible assumption | with_reducible apply hostWrite_canonical | with_reducible apply outKeeps_next

theorem execDisable_canonical {q port v s} (hs : s.canonical) :
    OutKeeps (@execDisable q port v s) := by
  unfold execDisable
  repeat' first
     | with_reducible assumption | with_reducible apply hostWrite_canonical | with_reducible apply outKeeps_next

/-! ## Machine/HostReq.lean -/

theorem badRequest_canonical {s q addr} (hs : s.canonical) :
    (@badRequest s q addr).canonical := by
  unfold badRequest
  repeat' first
     | with_reducible assumption | with_reducible apply violation_canonical

theorem request_canonical {q tag addr bytes ok body s} (hbody : ∀ v0, v0.canonical → (body v0).canonical) (hs : s.canonical) :
    (@request q tag addr bytes ok body s).canonical := by
  unfold request
  repeat' first
     | with_reducible assumption
     | (extract_lets +onlyGivenNames y; refine canonical_cut y ?_ ?_; (on_goal 2 => intro _; clear_value y); subst y)
     | with_reducible apply served_canonical | with_reducible apply bwAdd_canonical
     | with_reducible apply perfMod_canonical | with_reducible apply badRequest_canonical
     | with_reducible apply refuseReq_canonical | with_reducible apply hbody | with_reducible apply canonical_ite

theorem sendReply_canonical {s q tag status addr data} (hs : s.canonical) :
    (@sendReply s q tag status addr data).canonical := by
  unfold sendReply
  repeat' first
     | with_reducible assumption
     | (extract_lets +onlyGivenNames y; refine canonical_cut y ?_ ?_; (on_goal 2 => intro _; clear_value y); subst y)
     | with_reducible apply bwAdd_canonical | fail_if_no_progress with_reducible refine canonical_mk (canonical_fold ?_)

theorem execMemRd_canonical {q tag va len s} (hs : s.canonical) :
    OutKeeps (@execMemRd q tag va len s) := by
  unfold execMemRd
  repeat' first
     | with_reducible assumption | with_reducible intro _ | (extract_lets +onlyGivenNames y; subst y)
     | with_reducible apply request_canonical | with_reducible apply errEntry_canonical
     | with_reducible apply readPhys_canonical | with_reducible apply readVa_canonical
     | with_reducible apply sendReply_canonical | with_reducible apply canonical_ite
     | with_reducible apply canonical_ite_fst | with_reducible apply outKeeps_next

theorem execRegWr_canonical {q tag addr len v s} (hs : s.canonical) :
    OutKeeps (@execRegWr q tag addr len v s) := by
  unfold execRegWr
  repeat' first
     | with_reducible assumption | with_reducible intro _ | with_reducible apply request_canonical
     | with_reducible apply writeReg_canonical | with_reducible apply outKeeps_next

theorem execRegRd_canonical {q tag addr len s} (hs : s.canonical) :
    OutKeeps (@execRegRd q tag addr len s) := by
  unfold execRegRd
  repeat' first
     | with_reducible assumption | with_reducible intro _ | with_reducible apply request_canonical
     | with_reducible apply readReg_canonical | with_reducible apply sendReply_canonical
     | with_reducible apply outKeeps_next

theorem execMemWr_canonical {q tag va len data s} (hs : s.canonical) :
    OutKeeps (@execMemWr q tag va len data s) := by
  unfold execMemWr
  repeat' first
     | with_reducible assumption | with_reducible intro _ | (extract_lets +onlyGivenNames y; subst y)
     | with_reducible apply request_canonical | with_reducible apply errEntry_canonical
     | with_reducible apply writePhys_canonical | with_reducible apply writeVa_canonical
     | with_reducible apply canonical_ite | with_reducible apply outKeeps_next

/-! ## Machine/Keys.lean -/

theorem entropyFail_canonical {s} (hs : s.canonical) :
    (@entropyFail s).canonical := by
  unfold entropyFail
  repeat' first
     | with_reducible assumption
     | (extract_lets +onlyGivenNames y; refine canonical_cut y ?_ ?_; (on_goal 2 => intro _; clear_value y); subst y)
     | (extract_lets +onlyGivenNames y; subst y) | with_reducible apply satAdd_canonical
     | with_reducible apply setFld_canonical
     | fail_if_no_progress with_reducible refine canonical_mk (canonical_fold ?_)

theorem mgmtCount_canonical {s bytes} (hs : s.canonical) :
    (@mgmtCount s bytes).canonical := by
  unfold mgmtCount
  repeat' first
     | with_reducible assumption | with_reducible apply bwAdd_canonical | with_reducible apply perfMod_canonical

theorem mgmtReply_canonical {s tag ok data} (hs : s.canonical) :
    (@mgmtReply s tag ok data).canonical := by
  unfold mgmtReply
  repeat' first
     | with_reducible assumption | with_reducible apply sendReply_canonical

theorem execNonce_canonical {tag s} (hs : s.canonical) :
    OutKeeps (@execNonce tag s) := by
  unfold execNonce
  repeat' first
     | with_reducible assumption
     | (extract_lets +onlyGivenNames y; refine canonical_cut y ?_ ?_; (on_goal 2 => intro _; clear_value y); subst y)
     | (extract_lets +onlyGivenNames y; subst y) | with_reducible apply served_canonical
     | with_reducible apply mgmtCount_canonical | with_reducible apply mgmtReply_canonical
     | with_reducible apply takeRandom_canonical | with_reducible apply canonical_ite
     | with_reducible apply outKeeps_next | fail_if_no_progress with_reducible refine canonical_mk (canonical_fold ?_)

theorem rejectPeer_canonical {s p} (hs : s.canonical) :
    (@rejectPeer s p).canonical := by
  unfold rejectPeer
  repeat' first
     | with_reducible assumption | with_reducible apply takeFree_canonical | with_reducible apply recordEv_canonical
     | with_reducible apply setPort_canonical

theorem deriveLink_canonical {s p ss ct} (hs : s.canonical) :
    (@deriveLink s p ss ct).canonical := by
  unfold deriveLink
  repeat' first
     | with_reducible assumption
     | (extract_lets +onlyGivenNames y; refine canonical_cut y ?_ ?_; (on_goal 2 => intro _; clear_value y); subst y)
     | (extract_lets +onlyGivenNames y; subst y) | with_reducible apply setPort_canonical
     | with_reducible apply sendLink_canonical | split

theorem execKeyEncaps_canonical {port ct s} (hs : s.canonical) :
    OutKeeps (@execKeyEncaps port ct s) := by
  unfold execKeyEncaps
  repeat' first
     | with_reducible assumption | (extract_lets +onlyGivenNames y; subst y) | with_reducible apply deriveLink_canonical
     | with_reducible apply canonical_ite | with_reducible apply outKeeps_next | split

theorem announce_canonical {s p} (hs : s.canonical) :
    (@announce s p).canonical := by
  unfold announce
  repeat' first
     | with_reducible assumption | (extract_lets +onlyGivenNames y; subst y) | with_reducible apply sendLink_canonical

theorem restoreLink_canonical {s p} (hs : s.canonical) :
    (@restoreLink s p).canonical := by
  unfold restoreLink
  repeat' first
     | with_reducible assumption | with_reducible intro _ | (extract_lets +onlyGivenNames y; subst y)
     | with_reducible apply setPort_canonical | with_reducible apply putTx_canonical
     | with_reducible apply canonical_ite | with_reducible apply canonical_foldl | split

theorem execKeyConfirm_canonical {port v s} (hs : s.canonical) :
    OutKeeps (@execKeyConfirm port v s) := by
  unfold execKeyConfirm
  repeat' first
     | with_reducible assumption
     | (extract_lets +onlyGivenNames y; refine canonical_cut y ?_ ?_; (on_goal 2 => intro _; clear_value y); subst y)
     | (extract_lets +onlyGivenNames y; subst y) | with_reducible apply rejectPeer_canonical
     | with_reducible apply setPortState_canonical | with_reducible apply setPort_canonical
     | with_reducible apply drain_canonical | with_reducible apply announce_canonical
     | with_reducible apply restoreLink_canonical | with_reducible apply canonical_ite
     | with_reducible apply outKeeps_next

theorem execTbParent_canonical {tag port s} (hs : s.canonical) :
    OutKeeps (@execTbParent tag port s) := by
  unfold execTbParent
  repeat' first
     | with_reducible assumption
     | (extract_lets +onlyGivenNames y; refine canonical_cut y ?_ ?_; (on_goal 2 => intro _; clear_value y); subst y)
     | (extract_lets +onlyGivenNames y; subst y) | with_reducible apply served_canonical
     | with_reducible apply mgmtCount_canonical | with_reducible apply mgmtReply_canonical
     | with_reducible apply canonical_ite | with_reducible apply outKeeps_next
     | fail_if_no_progress with_reducible refine canonical_mk (canonical_fold ?_)

theorem counterOk_canonical {s} (hs : s.canonical) :
    (@counterOk s).2.canonical := by
  unfold counterOk
  repeat' first
     | with_reducible assumption | with_reducible apply takeFree_canonical

theorem reserve_canonical {s ok} (hs : s.canonical) :
    (@reserve s ok).canonical := by
  unfold reserve
  repeat' first
     | with_reducible assumption
     | (extract_lets +onlyGivenNames y; refine canonical_cut y ?_ ?_; (on_goal 2 => intro _; clear_value y); subst y)
     | (extract_lets +onlyGivenNames y; subst y) | with_reducible apply setFld_canonical
     | with_reducible apply canonical_ite | fail_if_no_progress with_reducible refine canonical_mk (canonical_fold ?_)

theorem stepReserve_canonical {s ok} (hs : s.canonical) :
    (@stepReserve s ok).canonical := by
  unfold stepReserve
  repeat' first
     | with_reducible assumption
     | (extract_lets +onlyGivenNames y; refine canonical_cut y ?_ ?_; (on_goal 2 => intro _; clear_value y); subst y)
     | (extract_lets +onlyGivenNames y; subst y) | with_reducible apply setFld_canonical
     | with_reducible apply reserve_canonical | with_reducible apply canonical_ite
     | fail_if_no_progress with_reducible refine canonical_mk (canonical_fold ?_)

theorem takeDue_canonical {s} (hs : s.canonical) :
    (@takeDue s).canonical := by
  unfold takeDue
  repeat' first
     | with_reducible assumption | with_reducible apply counterOk_canonical | with_reducible apply stepReserve_canonical
     | with_reducible apply canonical_ite

theorem takeLeaf_canonical {s} (hs : s.canonical) :
    (@takeLeaf s).2.canonical := by
  unfold takeLeaf
  repeat' first
     | with_reducible assumption
     | (extract_lets +onlyGivenNames y; refine canonical_cut y ?_ ?_; (on_goal 2 => intro _; clear_value y); subst y)
     | (extract_lets +onlyGivenNames y; subst y) | with_reducible apply setFld_canonical
     | with_reducible apply counterOk_canonical | with_reducible apply reserve_canonical
     | with_reducible apply canonical_ite | fail_if_no_progress with_reducible refine canonical_mk (canonical_fold ?_)

theorem makeReport_canonical {s ctx nonce} (hs : s.canonical) :
    (@makeReport s ctx nonce).2.2.canonical := by
  unfold makeReport
  repeat' first
     | with_reducible assumption | with_reducible apply takeRandom_canonical | with_reducible apply takeLeaf_canonical

theorem attestNow_canonical {s tag nonce ctx} (hs : s.canonical) :
    (@attestNow s tag nonce ctx).canonical := by
  unfold attestNow
  repeat' first
     | with_reducible assumption | (extract_lets +onlyGivenNames y; subst y) | with_reducible apply makeReport_canonical
     | with_reducible apply mgmtReply_canonical
     | fail_if_no_progress with_reducible refine canonical_mk (canonical_fold ?_)

theorem execAttest_canonical {tag nonce ctx s} (hs : s.canonical) :
    OutKeeps (@execAttest tag nonce ctx s) := by
  unfold execAttest
  repeat' first
     | with_reducible assumption
     | (extract_lets +onlyGivenNames y; refine canonical_cut y ?_ ?_; (on_goal 2 => intro _; clear_value y); subst y)
     | (extract_lets +onlyGivenNames y; subst y) | with_reducible apply served_canonical
     | with_reducible apply mgmtCount_canonical | with_reducible apply mgmtReply_canonical
     | with_reducible apply takeDue_canonical | with_reducible apply attestNow_canonical
     | with_reducible apply canonical_ite | with_reducible apply outKeeps_next
     | fail_if_no_progress with_reducible refine canonical_mk (canonical_fold ?_)

theorem showSlots_canonical {s} (hs : s.canonical) :
    (@showSlots s).canonical := by
  unfold showSlots
  repeat' first
     | with_reducible assumption | with_reducible apply setFld_canonical

theorem announceHost_canonical {s} (hs : s.canonical) :
    (@announceHost s).canonical := by
  unfold announceHost
  repeat' first
     | with_reducible assumption | with_reducible apply sendLink_canonical

theorem hostKeys_canonical {s ss} (hs : s.canonical) :
    (@hostKeys s ss).canonical := by
  unfold hostKeys
  repeat' first
     | with_reducible assumption | (extract_lets +onlyGivenNames y; subst y)
     | with_reducible apply announceHost_canonical | with_reducible apply restoreLink_canonical
     | with_reducible apply setPortState_canonical
     | fail_if_no_progress with_reducible refine canonical_mk (canonical_fold ?_)

theorem execKeyEk_canonical {ct s} (hs : s.canonical) :
    OutKeeps (@execKeyEk ct s) := by
  unfold execKeyEk
  repeat' first
     | with_reducible assumption | with_reducible apply hostKeys_canonical | with_reducible apply canonical_ite
     | with_reducible apply outKeeps_next

theorem execDecapsKeyExpire_canonical {s} (hs : s.canonical) :
    OutKeeps (@execDecapsKeyExpire s) := by
  unfold execDecapsKeyExpire
  repeat' first
     | with_reducible assumption | (extract_lets +onlyGivenNames y; subst y) | with_reducible apply advanceTo_canonical
     | with_reducible apply outKeeps_next | split
     | fail_if_no_progress with_reducible refine canonical_mk (canonical_fold ?_)

theorem makeImage_canonical {s} (hs : s.canonical) :
    (@makeImage s).canonical := by
  unfold makeImage
  repeat' first
     | with_reducible assumption | with_reducible intro _
     | (extract_lets +onlyGivenNames y; refine canonical_cut y ?_ ?_; (on_goal 2 => intro _; clear_value y); subst y)
     | (extract_lets +onlyGivenNames y; subst y) | with_reducible apply setReg_canonical
     | with_reducible apply canonical_foldl

theorem execEntropyRetest_canonical {ok s} (hs : s.canonical) :
    OutKeeps (@execEntropyRetest ok s) := by
  unfold execEntropyRetest
  repeat' first
     | with_reducible assumption
     | (extract_lets +onlyGivenNames y; refine canonical_cut y ?_ ?_; (on_goal 2 => intro _; clear_value y); subst y)
     | (extract_lets +onlyGivenNames y; subst y) | with_reducible apply powered_canonical
     | with_reducible apply advanceTo_canonical | with_reducible apply setFld_canonical
     | with_reducible apply entropyFail_canonical | with_reducible apply canonical_ite
     | with_reducible apply outKeeps_next | fail_if_no_progress with_reducible refine canonical_mk (canonical_fold ?_)

theorem tryEncaps_canonical {s p} (hs : s.canonical) :
    (@tryEncaps s p).canonical := by
  unfold tryEncaps
  repeat' first
     | with_reducible assumption | (extract_lets +onlyGivenNames y; subst y) | with_reducible apply takeRandom_canonical
     | with_reducible apply deriveLink_canonical | with_reducible apply sendFrags_canonical
     | with_reducible apply canonical_ite | split

theorem answerAttest_canonical {s p nonce} (hs : s.canonical) :
    (@answerAttest s p nonce).canonical := by
  unfold answerAttest
  repeat' first
     | with_reducible assumption | (extract_lets +onlyGivenNames y; subst y) | with_reducible apply makeReport_canonical
     | with_reducible apply tryEncaps_canonical | with_reducible apply sendFrags_canonical
     | with_reducible apply setPort_canonical

theorem execBottomTreeBuild_canonical {s} (hs : s.canonical) :
    OutKeeps (@execBottomTreeBuild s) := by
  unfold execBottomTreeBuild
  repeat' first
     | with_reducible assumption | with_reducible intro _
     | (extract_lets +onlyGivenNames y; refine canonical_cut y ?_ ?_; (on_goal 2 => intro _; clear_value y); subst y)
     | (extract_lets +onlyGivenNames y; subst y) | with_reducible apply powered_canonical
     | with_reducible apply mgmtReply_canonical | with_reducible apply attestNow_canonical
     | with_reducible apply answerAttest_canonical | with_reducible apply canonical_ite
     | with_reducible apply canonical_foldl | with_reducible apply outKeeps_next
     | fail_if_no_progress with_reducible refine canonical_mk (canonical_fold ?_)

theorem execOpenSession_canonical {tag ct role ctx pairs pub sig s} (hs : s.canonical) :
    OutKeeps (@execOpenSession tag ct role ctx pairs pub sig s) := by
  unfold execOpenSession
  repeat' first
     | with_reducible assumption | with_reducible intro _
     | (extract_lets +onlyGivenNames y; refine canonical_cut y ?_ ?_; (on_goal 2 => intro _; clear_value y); subst y)
     | (extract_lets +onlyGivenNames y; subst y) | with_reducible apply served_canonical
     | with_reducible apply mgmtCount_canonical | with_reducible apply takeFree_canonical
     | with_reducible apply mgmtReply_canonical | with_reducible apply recordEv_canonical
     | with_reducible apply setFld_canonical | with_reducible apply canonical_ite | with_reducible apply canonical_foldl
     | with_reducible apply outKeeps_next | split
     | fail_if_no_progress with_reducible refine canonical_mk (canonical_fold ?_)

theorem execHealth_canonical {tag s} (hs : s.canonical) :
    OutKeeps (@execHealth tag s) := by
  unfold execHealth
  repeat' first
     | with_reducible assumption
     | (extract_lets +onlyGivenNames y; refine canonical_cut y ?_ ?_; (on_goal 2 => intro _; clear_value y); subst y)
     | (extract_lets +onlyGivenNames y; subst y) | with_reducible apply served_canonical
     | with_reducible apply mgmtCount_canonical | with_reducible apply mgmtReply_canonical
     | with_reducible apply outKeeps_next

theorem startKeying_canonical {s p} (hs : s.canonical) :
    (@startKeying s p).canonical := by
  unfold startKeying
  repeat' first
     | with_reducible assumption
     | (extract_lets +onlyGivenNames y; refine canonical_cut y ?_ ?_; (on_goal 2 => intro _; clear_value y); subst y)
     | (extract_lets +onlyGivenNames y; subst y) | with_reducible apply setPortState_canonical
     | with_reducible apply setPort_canonical | with_reducible apply takeRandom_canonical
     | with_reducible apply sendLink_canonical | with_reducible apply canonical_ite

theorem execPeerReset_canonical {tag node s} (hs : s.canonical) :
    OutKeeps (@execPeerReset tag node s) := by
  unfold execPeerReset
  repeat' first
     | with_reducible assumption | with_reducible intro _
     | (extract_lets +onlyGivenNames y; refine canonical_cut y ?_ ?_; (on_goal 2 => intro _; clear_value y); subst y)
     | (extract_lets +onlyGivenNames y; subst y) | with_reducible apply served_canonical
     | with_reducible apply mgmtCount_canonical | with_reducible apply mgmtReply_canonical
     | with_reducible apply startKeying_canonical | with_reducible apply setPort_canonical
     | with_reducible apply canonical_ite | with_reducible apply canonical_foldl | with_reducible apply outKeeps_next

theorem setMeas_canonical {s m v} (hs : s.canonical) :
    (@setMeas s m v).canonical := by
  unfold setMeas
  repeat' first
     | with_reducible assumption | with_reducible intro _ | with_reducible apply setReg_canonical
     | with_reducible apply canonical_foldl

theorem execKeyReport_canonical {port rep s} (hs : s.canonical) :
    OutKeeps (@execKeyReport port rep s) := by
  unfold execKeyReport
  repeat' first
     | with_reducible assumption | (extract_lets +onlyGivenNames y; subst y)
     | with_reducible apply startKeying_canonical | with_reducible apply setPort_canonical
     | with_reducible apply rejectPeer_canonical | with_reducible apply tryEncaps_canonical
     | with_reducible apply canonical_ite | with_reducible apply outKeeps_next

theorem execEntropyTestFail_canonical {s} (hs : s.canonical) :
    OutKeeps (@execEntropyTestFail s) := by
  unfold execEntropyTestFail
  repeat' first
     | with_reducible assumption | (extract_lets +onlyGivenNames y; subst y) | with_reducible apply powered_canonical
     | with_reducible apply entropyFail_canonical | with_reducible apply canonical_ite
     | with_reducible apply outKeeps_next | fail_if_no_progress with_reducible refine canonical_mk (canonical_fold ?_)

theorem execKeyAttest_canonical {port nonce s} (hs : s.canonical) :
    OutKeeps (@execKeyAttest port nonce s) := by
  unfold execKeyAttest
  repeat' first
     | with_reducible assumption | (extract_lets +onlyGivenNames y; subst y)
     | with_reducible apply answerAttest_canonical | with_reducible apply canonical_ite
     | with_reducible apply outKeeps_next | fail_if_no_progress with_reducible refine canonical_mk (canonical_fold ?_)

theorem execKeyingRetry_canonical {port s} (hs : s.canonical) :
    OutKeeps (@execKeyingRetry port s) := by
  unfold execKeyingRetry
  repeat' first
     | with_reducible assumption | with_reducible apply startKeying_canonical | with_reducible apply advanceTo_canonical
     | with_reducible apply canonical_ite | with_reducible apply outKeeps_next | split

/-! ## Machine/Fabric.lean -/

theorem recordTraining_canonical {s p rep} (hs : s.canonical) :
    (@recordTraining s p rep).canonical := by
  unfold recordTraining
  repeat' first
     | with_reducible assumption | with_reducible intro _
     | (extract_lets +onlyGivenNames y; refine canonical_cut y ?_ ?_; (on_goal 2 => intro _; clear_value y); subst y)
     | (extract_lets +onlyGivenNames y; subst y) | with_reducible apply setFld_canonical
     | with_reducible apply setReg_canonical | with_reducible apply satAdd_canonical
     | with_reducible apply canonical_ite | with_reducible apply canonical_foldl | split

theorem refuseMsg_canonical {s port dst gang ctx mtag op reason} (hs : s.canonical) :
    (@refuseMsg s port dst gang ctx mtag op reason).canonical := by
  unfold refuseMsg
  repeat' first
     | with_reducible assumption
     | (extract_lets +onlyGivenNames y; refine canonical_cut y ?_ ?_; (on_goal 2 => intro _; clear_value y); subst y)
     | with_reducible apply satAdd_canonical | with_reducible apply canonical_ite
     | fail_if_no_progress with_reducible refine canonical_mk (canonical_fold ?_)

theorem sendTime_canonical {s p mk} (hs : s.canonical) :
    (@sendTime s p mk).canonical := by
  unfold sendTime
  repeat' first
     | with_reducible assumption | (extract_lets +onlyGivenNames y; subst y) | with_reducible apply sendLink_canonical

theorem correctTime_canonical {s off first} (hs : s.canonical) :
    (@correctTime s off first).canonical := by
  unfold correctTime
  repeat' first
     | with_reducible assumption | (extract_lets +onlyGivenNames y; subst y) | with_reducible apply setReg_canonical
     | with_reducible apply canonical_ite | fail_if_no_progress with_reducible refine canonical_mk (canonical_fold ?_)

theorem showUntrusted_canonical {s} (hs : s.canonical) :
    (@showUntrusted s).canonical := by
  unfold showUntrusted
  repeat' first
     | with_reducible assumption
     | (extract_lets +onlyGivenNames y; refine canonical_cut y ?_ ?_; (on_goal 2 => intro _; clear_value y); subst y)
     | (extract_lets +onlyGivenNames y; subst y) | with_reducible apply setFld_canonical
     | with_reducible apply canonical_ite

theorem takeReply_canonical {s m} (hs : s.canonical) :
    (@takeReply s m).canonical := by
  unfold takeReply
  repeat' first
     | with_reducible assumption
     | (extract_lets +onlyGivenNames y; refine canonical_cut y ?_ ?_; (on_goal 2 => intro _; clear_value y); subst y)
     | (extract_lets +onlyGivenNames y; subst y) | with_reducible apply setFld_canonical
     | with_reducible apply correctTime_canonical | with_reducible apply showUntrusted_canonical
     | with_reducible apply canonical_ite | split
     | fail_if_no_progress with_reducible refine canonical_mk (canonical_fold ?_)

theorem takeTime_canonical {s p m} (hs : s.canonical) :
    (@takeTime s p m).canonical := by
  unfold takeTime
  repeat' first
     | with_reducible assumption | with_reducible apply sendTime_canonical | with_reducible apply takeReply_canonical
     | with_reducible apply canonical_ite

theorem freshLink_canonical {s p} (hs : s.canonical) :
    (@freshLink s p).canonical := by
  unfold freshLink
  repeat' first
     | with_reducible assumption | (extract_lets +onlyGivenNames y; subst y) | with_reducible apply setPort_canonical

theorem hostLink_canonical {s rep} (hs : s.canonical) :
    (@hostLink s rep).canonical := by
  unfold hostLink
  repeat' first
     | with_reducible assumption
     | (extract_lets +onlyGivenNames y; refine canonical_cut y ?_ ?_; (on_goal 2 => intro _; clear_value y); subst y)
     | with_reducible apply recordTraining_canonical | with_reducible apply setPort_canonical
     | with_reducible apply freshLink_canonical | with_reducible apply canonical_ite

theorem firstTraining_canonical {s p rep} (hs : s.canonical) :
    (@firstTraining s p rep).canonical := by
  unfold firstTraining
  repeat' first
     | with_reducible assumption | with_reducible apply recordTraining_canonical | with_reducible apply canonical_ite

theorem execPortTraining_canonical {port rep s} (hs : s.canonical) :
    OutKeeps (@execPortTraining port rep s) := by
  unfold execPortTraining
  repeat' first
     | with_reducible assumption | with_reducible intro _
     | (extract_lets +onlyGivenNames y; refine canonical_cut y ?_ ?_; (on_goal 2 => intro _; clear_value y); subst y)
     | (extract_lets +onlyGivenNames y; subst y) | with_reducible apply powered_canonical
     | with_reducible apply setPortState_canonical | with_reducible apply firstTraining_canonical
     | with_reducible apply recordTraining_canonical | with_reducible apply setPort_canonical
     | with_reducible apply putTx_canonical | with_reducible apply drain_canonical
     | with_reducible apply announce_canonical | with_reducible apply startKeying_canonical
     | with_reducible apply freshLink_canonical | with_reducible apply canonical_ite
     | with_reducible apply canonical_foldl | with_reducible apply outKeeps_next

theorem takeCredit_canonical {s p counts} (hs : s.canonical) :
    (@takeCredit s p counts).canonical := by
  unfold takeCredit
  repeat' first
     | with_reducible assumption | with_reducible intro _
     | (extract_lets +onlyGivenNames y; refine canonical_cut y ?_ ?_; (on_goal 2 => intro _; clear_value y); subst y)
     | (extract_lets +onlyGivenNames y; subst y) | with_reducible apply satAdd_canonical
     | with_reducible apply drain_canonical | with_reducible apply setPort_canonical
     | with_reducible apply sendHostAll_canonical | with_reducible apply canonical_ite
     | with_reducible apply canonical_foldl | fail_if_no_progress with_reducible refine canonical_mk (canonical_fold ?_)

theorem takeGangCmd_canonical {s port m} (hs : s.canonical) :
    (@takeGangCmd s port m).canonical := by
  unfold takeGangCmd
  repeat' first
     | with_reducible assumption
     | (extract_lets +onlyGivenNames y; refine canonical_cut y ?_ ?_; (on_goal 2 => intro _; clear_value y); subst y)
     | (extract_lets +onlyGivenNames y; subst y) | with_reducible apply refuseMsg_canonical
     | with_reducible apply noteGang_canonical | with_reducible apply canonical_ite | split
     | fail_if_no_progress with_reducible refine canonical_mk (canonical_fold ?_)

theorem memberDone_canonical {s mtag status err} (hs : s.canonical) :
    (@memberDone s mtag status err).canonical := by
  unfold memberDone
  repeat' first
     | with_reducible assumption | fail_if_no_progress with_reducible refine canonical_mk (canonical_fold ?_)

theorem execNoCodewordTimeout_canonical {port s} (hs : s.canonical) :
    OutKeeps (@execNoCodewordTimeout port s) := by
  unfold execNoCodewordTimeout
  repeat' first
     | with_reducible assumption | (extract_lets +onlyGivenNames y; subst y) | with_reducible apply powered_canonical
     | with_reducible apply drain_canonical | with_reducible apply setPortState_canonical
     | with_reducible apply canonical_ite | with_reducible apply outKeeps_next

theorem execRefuse_canonical {src mtag op _reason s} (hs : s.canonical) :
    OutKeeps (@execRefuse src mtag op _reason s) := by
  unfold execRefuse
  repeat' first
     | with_reducible assumption | with_reducible apply powered_canonical | with_reducible apply memberDone_canonical
     | with_reducible apply canonical_ite | with_reducible apply outKeeps_next | split
     | fail_if_no_progress with_reducible refine canonical_mk (canonical_fold ?_)

theorem execGangCmd_canonical {m s} (hs : s.canonical) :
    OutKeeps (@execGangCmd m s) := by
  unfold execGangCmd
  repeat' first
     | with_reducible assumption | with_reducible apply powered_canonical | with_reducible apply takeGangCmd_canonical
     | with_reducible apply outKeeps_next

theorem execCredit_canonical {port counts s} (hs : s.canonical) :
    OutKeeps (@execCredit port counts s) := by
  unfold execCredit
  repeat' first
     | with_reducible assumption | with_reducible apply powered_canonical | with_reducible apply takeCredit_canonical
     | with_reducible apply canonical_ite | with_reducible apply outKeeps_next

theorem execTime_canonical {port m s} (hs : s.canonical) :
    OutKeeps (@execTime port m s) := by
  unfold execTime
  repeat' first
     | with_reducible assumption | with_reducible apply powered_canonical | with_reducible apply takeTime_canonical
     | with_reducible apply outKeeps_next

theorem execGangCpl_canonical {_src mtag status err s} (hs : s.canonical) :
    OutKeeps (@execGangCpl _src mtag status err s) := by
  unfold execGangCpl
  repeat' first
     | with_reducible assumption | with_reducible apply powered_canonical | with_reducible apply memberDone_canonical
     | with_reducible apply outKeeps_next

theorem execCersinTraining_canonical {rep s} (hs : s.canonical) :
    OutKeeps (@execCersinTraining rep s) := by
  unfold execCersinTraining
  repeat' first
     | with_reducible assumption
     | (extract_lets +onlyGivenNames y; refine canonical_cut y ?_ ?_; (on_goal 2 => intro _; clear_value y); subst y)
     | (extract_lets +onlyGivenNames y; subst y) | with_reducible apply setPortState_canonical
     | with_reducible apply hostLink_canonical | with_reducible apply setPort_canonical
     | with_reducible apply takeRandom_canonical | with_reducible apply sendFrags_canonical
     | with_reducible apply canonical_ite | with_reducible apply outKeeps_next
     | fail_if_no_progress with_reducible refine canonical_mk (canonical_fold ?_)

theorem execTimeExchange_canonical {s} (hs : s.canonical) :
    OutKeeps (@execTimeExchange s) := by
  unfold execTimeExchange
  repeat' first
     | with_reducible assumption
     | (extract_lets +onlyGivenNames y; refine canonical_cut y ?_ ?_; (on_goal 2 => intro _; clear_value y); subst y)
     | (extract_lets +onlyGivenNames y; subst y) | with_reducible apply powered_canonical
     | with_reducible apply advanceTo_canonical | with_reducible apply sendTime_canonical
     | with_reducible apply canonical_ite | with_reducible apply outKeeps_next
     | fail_if_no_progress with_reducible refine canonical_mk (canonical_fold ?_)

end Sys2Proof.Machine
end

