-- ==== Sys2Proof/Laws/CanonModule.lean ====
section
/-! SUPPORT. The canonical form is kept by the functions and meanings of clocks, repair, starts, receipt, resets, the tick, owner commands and the management bus: one lemma each. -/

namespace Sys2Proof.Machine

/-! ## Machine/Clocks.lean -/

theorem alertSet_canonical {s bit} (hs : s.canonical) :
    (@alertSet s bit).canonical := by
  unfold alertSet
  repeat' first
     | with_reducible assumption | (extract_lets +onlyGivenNames y; subst y)
     | fail_if_no_progress with_reducible refine canonical_mk (canonical_fold ?_)

theorem execRefLoss_canonical {s} (hs : s.canonical) :
    OutKeeps (@execRefLoss s) := by
  unfold execRefLoss
  repeat' first
     | with_reducible assumption
     | (extract_lets +onlyGivenNames y; refine canonical_cut y ?_ ?_; (on_goal 2 => intro _; clear_value y); subst y)
     | (extract_lets +onlyGivenNames y; subst y) | with_reducible apply powered_canonical
     | with_reducible apply satAdd_canonical | with_reducible apply setFld_canonical
     | with_reducible apply showUntrusted_canonical | with_reducible apply alertSet_canonical
     | with_reducible apply recordEv_canonical | with_reducible apply outKeeps_next
     | fail_if_no_progress with_reducible refine canonical_mk (canonical_fold ?_)

theorem setChange_canonical {s c} (hs : s.canonical) :
    (@setChange s c).canonical := by
  unfold setChange
  repeat' first
     | with_reducible assumption | (extract_lets +onlyGivenNames y; subst y)
     | fail_if_no_progress with_reducible refine canonical_mk (canonical_fold ?_)

theorem beginChange_canonical {s target thermal} (hs : s.canonical) :
    (@beginChange s target thermal).canonical := by
  unfold beginChange
  repeat' first
     | with_reducible assumption | (extract_lets +onlyGivenNames y; subst y) | with_reducible apply setFld_canonical
     | with_reducible apply setChange_canonical

theorem showVcore_canonical {s} (hs : s.canonical) :
    (@showVcore s).canonical := by
  unfold showVcore
  repeat' first
     | with_reducible assumption | with_reducible apply setFld_canonical

theorem endChange_canonical {s} (hs : s.canonical) :
    (@endChange s).canonical := by
  unfold endChange
  repeat' first
     | with_reducible assumption
     | (extract_lets +onlyGivenNames y; refine canonical_cut y ?_ ?_; (on_goal 2 => intro _; clear_value y); subst y)
     | with_reducible apply setFld_canonical | with_reducible apply setChange_canonical
     | fail_if_no_progress with_reducible refine canonical_mk (canonical_fold ?_)

theorem tickChange_canonical {s locked} (hs : s.canonical) :
    (@tickChange s locked).canonical := by
  unfold tickChange
  repeat' first
     | with_reducible assumption
     | (extract_lets +onlyGivenNames y; refine canonical_cut y ?_ ?_; (on_goal 2 => intro _; clear_value y); subst y)
     | with_reducible apply showVcore_canonical | with_reducible apply endChange_canonical
     | with_reducible apply setFld_canonical | with_reducible apply setChange_canonical
     | with_reducible apply canonical_ite | split

theorem completeChange_canonical {s} (hs : s.canonical) :
    (@completeChange s).canonical := by
  unfold completeChange
  repeat' first
     | with_reducible assumption
     | (extract_lets +onlyGivenNames y; refine canonical_cut y ?_ ?_; (on_goal 2 => intro _; clear_value y); subst y)
     | (extract_lets +onlyGivenNames y; subst y) | with_reducible apply endChange_canonical
     | fail_if_no_progress with_reducible refine canonical_mk (canonical_fold ?_)

theorem regionStop_canonical {s r n div} (hs : s.canonical) :
    (@regionStop s r n div).canonical := by
  unfold regionStop
  repeat' first
     | with_reducible assumption
     | (extract_lets +onlyGivenNames y; refine canonical_cut y ?_ ?_; (on_goal 2 => intro _; clear_value y); subst y)
     | (extract_lets +onlyGivenNames y; subst y) | with_reducible apply charge_canonical
     | fail_if_no_progress with_reducible refine canonical_mk (canonical_fold ?_)

theorem execPreSwitchSkewHold_canonical {s} (hs : s.canonical) :
    OutKeeps (@execPreSwitchSkewHold s) := by
  unfold execPreSwitchSkewHold
  repeat' first
     | with_reducible assumption | with_reducible apply preSwitchAll_canonical
     | with_reducible apply advanceTo_canonical | with_reducible apply canonical_ite
     | with_reducible apply outKeeps_next | split

theorem tickRestore_canonical {s} (hs : s.canonical) :
    (@tickRestore s).canonical := by
  unfold tickRestore
  repeat' first
     | with_reducible assumption
     | (extract_lets +onlyGivenNames y; refine canonical_cut y ?_ ?_; (on_goal 2 => intro _; clear_value y); subst y)
     | (extract_lets +onlyGivenNames y; subst y) | with_reducible apply setFld_canonical
     | with_reducible apply showUntrusted_canonical | with_reducible apply canonical_ite | split
     | fail_if_no_progress with_reducible refine canonical_mk (canonical_fold ?_)

theorem holdAll_canonical {s src} (hs : s.canonical) :
    (@holdAll s src).canonical := by
  unfold holdAll
  repeat' first
     | with_reducible assumption | with_reducible intro _ | with_reducible apply shutRaise_canonical
     | with_reducible apply canonical_foldl

theorem execFastTrip_canonical {inputW s} (hs : s.canonical) :
    OutKeeps (@execFastTrip inputW s) := by
  unfold execFastTrip
  repeat' first
     | with_reducible assumption
     | (extract_lets +onlyGivenNames y; refine canonical_cut y ?_ ?_; (on_goal 2 => intro _; clear_value y); subst y)
     | with_reducible apply powered_canonical | with_reducible apply setFld_canonical
     | with_reducible apply holdAll_canonical | with_reducible apply alertSet_canonical
     | with_reducible apply recordEv_canonical | with_reducible apply canonical_ite | with_reducible apply outKeeps_next

theorem execPllLockTimeout_canonical {s} (hs : s.canonical) :
    OutKeeps (@execPllLockTimeout s) := by
  unfold execPllLockTimeout
  repeat' first
     | with_reducible assumption
     | (extract_lets +onlyGivenNames y; refine canonical_cut y ?_ ?_; (on_goal 2 => intro _; clear_value y); subst y)
     | with_reducible apply setFld_canonical | with_reducible apply endChange_canonical
     | with_reducible apply recordEv_canonical | with_reducible apply canonical_ite | with_reducible apply outKeeps_next
     | split

theorem regionChange_canonical {s r div} (hs : s.canonical) :
    (@regionChange s r div).canonical := by
  unfold regionChange
  repeat' first
     | with_reducible assumption | with_reducible apply takeFree_canonical | with_reducible apply skewClear_canonical
     | with_reducible apply setFld_canonical | with_reducible apply regionStop_canonical

theorem execVcoreSettled_canonical {s} (hs : s.canonical) :
    OutKeeps (@execVcoreSettled s) := by
  unfold execVcoreSettled
  repeat' first
     | with_reducible assumption
     | (extract_lets +onlyGivenNames y; refine canonical_cut y ?_ ?_; (on_goal 2 => intro _; clear_value y); subst y)
     | with_reducible apply advanceTo_canonical | with_reducible apply completeChange_canonical
     | with_reducible apply setFld_canonical | with_reducible apply canonical_ite | with_reducible apply outKeeps_next
     | split

theorem dropAll_canonical {s src} (hs : s.canonical) :
    (@dropAll s src).canonical := by
  unfold dropAll
  repeat' first
     | with_reducible assumption | with_reducible intro _ | with_reducible apply shutDrop_canonical
     | with_reducible apply canonical_foldl

theorem switchSkew_canonical {s} (hs : s.canonical) :
    (@switchSkew s).canonical := by
  unfold switchSkew
  repeat' first
     | with_reducible assumption | with_reducible intro _ | (extract_lets +onlyGivenNames y; subst y)
     | with_reducible apply takeFree_canonical | with_reducible apply canonical_foldl
     | with_reducible refine pair2_canonical (by assumption) ?_ | split
     | fail_if_no_progress with_reducible refine canonical_mk (canonical_fold ?_)

theorem execRegionChange_canonical {r div s} (hs : s.canonical) :
    OutKeeps (@execRegionChange r div s) := by
  unfold execRegionChange
  repeat' first
     | with_reducible assumption | (extract_lets +onlyGivenNames y; subst y) | with_reducible apply powered_canonical
     | with_reducible apply recordEv_canonical | with_reducible apply regionChange_canonical
     | with_reducible apply canonical_ite | with_reducible apply outKeeps_next
     | fail_if_no_progress with_reducible refine canonical_mk (canonical_fold ?_)

theorem execPllSwitch_canonical {s} (hs : s.canonical) :
    OutKeeps (@execPllSwitch s) := by
  unfold execPllSwitch
  repeat' first
     | with_reducible assumption
     | (extract_lets +onlyGivenNames y; refine canonical_cut y ?_ ?_; (on_goal 2 => intro _; clear_value y); subst y)
     | (extract_lets +onlyGivenNames y; subst y) | with_reducible apply advanceTo_canonical
     | with_reducible apply endChange_canonical | with_reducible apply setFld_canonical
     | with_reducible apply switchSkew_canonical | with_reducible apply completeChange_canonical
     | with_reducible apply setChange_canonical | with_reducible apply canonical_ite
     | with_reducible apply outKeeps_next | split
     | fail_if_no_progress with_reducible refine canonical_mk (canonical_fold ?_)

theorem execRefRestore_canonical {s} (hs : s.canonical) :
    OutKeeps (@execRefRestore s) := by
  unfold execRefRestore
  repeat' first
     | with_reducible assumption | (extract_lets +onlyGivenNames y; subst y) | with_reducible apply powered_canonical
     | with_reducible apply canonical_ite | with_reducible apply outKeeps_next
     | fail_if_no_progress with_reducible refine canonical_mk (canonical_fold ?_)

theorem execBandwidthWindowEnd_canonical {s} (hs : s.canonical) :
    OutKeeps (@execBandwidthWindowEnd s) := by
  unfold execBandwidthWindowEnd
  repeat' first
     | with_reducible assumption | with_reducible intro _
     | (extract_lets +onlyGivenNames y; refine canonical_cut y ?_ ?_; (on_goal 2 => intro _; clear_value y); subst y)
     | (extract_lets +onlyGivenNames y; subst y) | with_reducible apply powered_canonical
     | with_reducible apply advanceTo_canonical | with_reducible apply setReg_canonical
     | with_reducible apply setFld_canonical | with_reducible apply canonical_ite | with_reducible apply canonical_foldl
     | with_reducible apply outKeeps_next | fail_if_no_progress with_reducible refine canonical_mk (canonical_fold ?_)

theorem execCrit_canonical {tempC s} (hs : s.canonical) :
    OutKeeps (@execCrit tempC s) := by
  unfold execCrit
  repeat' first
     | with_reducible assumption | with_reducible apply powered_canonical | with_reducible apply alertSet_canonical
     | with_reducible apply setFld_canonical | with_reducible apply holdAll_canonical
     | with_reducible apply canonical_ite | with_reducible apply outKeeps_next

/-! ## Machine/Repair.lean -/

theorem askFence_canonical {s t} (hs : s.canonical) :
    (@askFence s t).canonical := by
  unfold askFence
  repeat' first
     | with_reducible assumption | (extract_lets +onlyGivenNames y; subst y) | with_reducible apply canonical_ite
     | fail_if_no_progress with_reducible refine canonical_mk (canonical_fold ?_)

theorem moveRow_canonical {s t bank src dst} (hs : s.canonical) :
    (@moveRow s t bank src dst).canonical := by
  unfold moveRow
  extract_lets sp marks
  refine canonical_mk ⟨hs.1, ?_, hs.2.2⟩
  exact SMap.wf_foldl (fun m i h => SMap.wf_set _ _ _ _ (SMap.wf_set _ _ _ _ h)) hs.2.1

theorem recordMapOut_canonical {s t bank row} (hs : s.canonical) :
    (@recordMapOut s t bank row).canonical := by
  unfold recordMapOut
  repeat' first
     | with_reducible assumption | (extract_lets +onlyGivenNames y; subst y) | split
     | fail_if_no_progress with_reducible refine canonical_mk (canonical_fold ?_)

theorem setRmap_canonical {s t bank e source row} (hs : s.canonical) :
    (@setRmap s t bank e source row).canonical := by
  unfold setRmap
  repeat' first
     | with_reducible assumption | with_reducible apply setReg_canonical

theorem mapOut_canonical {s t bank row} (hs : s.canonical) :
    (@mapOut s t bank row).canonical := by
  unfold mapOut
  repeat' first
     | with_reducible assumption
     | (extract_lets +onlyGivenNames y; refine canonical_cut y ?_ ?_; (on_goal 2 => intro _; clear_value y); subst y)
     | (extract_lets +onlyGivenNames y; subst y) | with_reducible apply askFence_canonical
     | with_reducible apply moveRow_canonical | with_reducible apply recordMapOut_canonical
     | with_reducible apply setReg_canonical | with_reducible apply recordEv_canonical
     | with_reducible apply setRmap_canonical | split

theorem mapKey_canonical {s k} (hs : s.canonical) :
    (@mapKey s k).canonical := by
  unfold mapKey
  repeat' first
     | with_reducible assumption | with_reducible apply mapOut_canonical

theorem takeDeferred_canonical {s p} (hs : s.canonical) :
    (@takeDeferred s p).canonical := by
  unfold takeDeferred
  repeat' first
     | with_reducible assumption | with_reducible intro _ | (extract_lets +onlyGivenNames y; subst y)
     | with_reducible apply mapKey_canonical | with_reducible apply canonical_foldl
     | fail_if_no_progress with_reducible refine canonical_mk (canonical_fold ?_)

theorem execRowMapOutDeferred_canonical {n s} (hs : s.canonical) :
    OutKeeps (@execRowMapOutDeferred n s) := by
  unfold execRowMapOutDeferred
  repeat' first
     | with_reducible assumption | with_reducible apply takeDeferred_canonical | with_reducible apply canonical_ite
     | with_reducible apply outKeeps_next

theorem fenceBit_canonical {s t} (hs : s.canonical) :
    (@fenceBit s t).canonical := by
  unfold fenceBit
  repeat' first
     | with_reducible assumption | with_reducible apply setFld_canonical

theorem showUses_canonical {s r} (hs : s.canonical) :
    (@showUses s r).canonical := by
  unfold showUses
  repeat' first
     | with_reducible assumption | with_reducible intro _ | with_reducible apply setFld_canonical
     | with_reducible apply canonical_foldl

theorem fenceTile_canonical {s t} (hs : s.canonical) :
    (@fenceTile s t).canonical := by
  unfold fenceTile
  repeat' first
     | with_reducible assumption
     | (extract_lets +onlyGivenNames y; refine canonical_cut y ?_ ?_; (on_goal 2 => intro _; clear_value y); subst y)
     | (extract_lets +onlyGivenNames y; subst y) | with_reducible apply fenceBit_canonical
     | with_reducible apply showUses_canonical | with_reducible apply makeImage_canonical
     | with_reducible apply recordEv_canonical | with_reducible apply canonical_ite
     | fail_if_no_progress with_reducible refine canonical_mk (canonical_fold ?_)

theorem fenceAsked_canonical {s p} (hs : s.canonical) :
    (@fenceAsked s p).canonical := by
  unfold fenceAsked
  repeat' first
     | with_reducible assumption | with_reducible intro _ | (extract_lets +onlyGivenNames y; subst y)
     | with_reducible apply fenceTile_canonical | with_reducible apply canonical_foldl
     | fail_if_no_progress with_reducible refine canonical_mk (canonical_fold ?_)

theorem oosRing_canonical {s r} (hs : s.canonical) :
    (@oosRing s r).canonical := by
  unfold oosRing
  repeat' first
     | with_reducible assumption
     | (extract_lets +onlyGivenNames y; refine canonical_cut y ?_ ?_; (on_goal 2 => intro _; clear_value y); subst y)
     | with_reducible apply makeImage_canonical | with_reducible apply setFld_canonical
     | with_reducible apply recordEv_canonical | with_reducible apply canonical_ite

theorem mapOrDefer_canonical {s k ue} (hs : s.canonical) :
    (@mapOrDefer s k ue).canonical := by
  unfold mapOrDefer
  repeat' first
     | with_reducible assumption | (extract_lets +onlyGivenNames y; subst y) | with_reducible apply mapKey_canonical
     | with_reducible apply recordMapOut_canonical | with_reducible apply canonical_ite
     | fail_if_no_progress with_reducible refine canonical_mk (canonical_fold ?_)

theorem tickRows_canonical {s} (hs : s.canonical) :
    (@tickRows s).canonical := by
  unfold tickRows
  repeat' first
     | with_reducible assumption | with_reducible intro _
     | (extract_lets +onlyGivenNames y; refine canonical_cut y ?_ ?_; (on_goal 2 => intro _; clear_value y); subst y)
     | (extract_lets +onlyGivenNames y; subst y) | with_reducible apply mapOrDefer_canonical
     | with_reducible apply canonical_foldl | fail_if_no_progress with_reducible refine canonical_mk (canonical_fold ?_)

theorem applyWaiting_canonical {s r} (hs : s.canonical) :
    (@applyWaiting s r).canonical := by
  unfold applyWaiting
  repeat' first
     | with_reducible assumption
     | (extract_lets +onlyGivenNames y; refine canonical_cut y ?_ ?_; (on_goal 2 => intro _; clear_value y); subst y)
     | with_reducible apply takeDeferred_canonical | with_reducible apply oosRing_canonical
     | with_reducible apply fenceAsked_canonical

/-! ## Machine/Starts.lean -/

theorem hostUp_canonical {s} (hs : s.canonical) :
    (@hostUp s).canonical := by
  unfold hostUp
  repeat' first
     | with_reducible assumption | with_reducible apply setFld_canonical

theorem toRecoveryMode_canonical {s resOk} (hs : s.canonical) :
    (@toRecoveryMode s resOk).canonical := by
  unfold toRecoveryMode
  repeat' first
     | with_reducible assumption
     | (extract_lets +onlyGivenNames y; refine canonical_cut y ?_ ?_; (on_goal 2 => intro _; clear_value y); subst y)
     | (extract_lets +onlyGivenNames y; subst y) | with_reducible apply setFld_canonical
     | with_reducible apply hostUp_canonical
     | fail_if_no_progress with_reducible refine canonical_mk (canonical_fold ?_)

theorem stepReady_canonical {s} (hs : s.canonical) :
    (@stepReady s).canonical := by
  unfold stepReady
  repeat' first
     | with_reducible assumption
     | (extract_lets +onlyGivenNames y; refine canonical_cut y ?_ ?_; (on_goal 2 => intro _; clear_value y); subst y)
     | (extract_lets +onlyGivenNames y; subst y) | with_reducible apply setFld_canonical
     | fail_if_no_progress with_reducible refine canonical_mk (canonical_fold ?_)

theorem execImgWrite_canonical {tag bank offset len data s} (hs : s.canonical) :
    OutKeeps (@execImgWrite tag bank offset len data s) := by
  unfold execImgWrite
  repeat' first
     | with_reducible assumption
     | (extract_lets +onlyGivenNames y; refine canonical_cut y ?_ ?_; (on_goal 2 => intro _; clear_value y); subst y)
     | (extract_lets +onlyGivenNames y; subst y) | with_reducible apply served_canonical
     | with_reducible apply mgmtCount_canonical | with_reducible apply mgmtReply_canonical
     | with_reducible apply canonical_ite | with_reducible apply outKeeps_next
     | fail_if_no_progress with_reducible refine canonical_mk (canonical_fold ?_)

theorem informPeers_canonical {s} (hs : s.canonical) :
    (@informPeers s).canonical := by
  unfold informPeers
  repeat' first
     | with_reducible assumption | with_reducible intro _
     | (extract_lets +onlyGivenNames y; refine canonical_cut y ?_ ?_; (on_goal 2 => intro _; clear_value y); subst y)
     | with_reducible apply abortBatch_canonical | with_reducible apply abortBuckets_canonical
     | with_reducible apply injectMsg_canonical | with_reducible apply canonical_ite
     | with_reducible apply canonical_foldl | fail_if_no_progress with_reducible refine canonical_mk (canonical_fold ?_)

theorem keepPhy_canonical {r s} (hr : r.canonical) (_hs : s.canonical) :
    (@keepPhy r s).canonical := by
  unfold keepPhy
  repeat' first
     | with_reducible assumption | with_reducible intro _
     | (extract_lets +onlyGivenNames y; refine canonical_cut y ?_ ?_; (on_goal 2 => intro _; clear_value y); subst y)
     | with_reducible apply setFld_canonical | with_reducible apply canonical_foldl

theorem beginStart_canonical {s cold} (hs : s.canonical) :
    (@beginStart s cold).canonical := by
  unfold beginStart
  extract_lets s1 tb st r ks r1 sup r2
  have h1 : s1.canonical := canonical_ite hs (takeDeferred_canonical hs)
  clear_value s1
  have hk : ks.canonical := keepPhy_canonical reset_canonical h1
  clear_value ks
  have hr : r1.canonical := by
    refine canonical_ite reset_canonical (canonical_mk ?_)
    exact ⟨h1.1, h1.2.1, hk.2.2⟩
  clear_value r1
  have h2 : r2.canonical := canonical_mk (canonical_fold hr)
  clear_value r2
  exact setReg_canonical (setReg_canonical h2)

theorem warmStart_canonical {s cause} (hs : s.canonical) :
    (@warmStart s cause).canonical := by
  unfold warmStart
  repeat' first
     | with_reducible assumption
     | (extract_lets +onlyGivenNames y; refine canonical_cut y ?_ ?_; (on_goal 2 => intro _; clear_value y); subst y)
     | (extract_lets +onlyGivenNames y; subst y) | with_reducible apply resetRec_canonical
     | with_reducible apply informPeers_canonical | with_reducible apply setReg_canonical
     | with_reducible apply beginStart_canonical | with_reducible apply canonical_ite

theorem stopAll_canonical {s} (_hs : s.canonical) :
    (@stopAll s).canonical := by
  unfold stopAll
  repeat' first
     | with_reducible assumption
     | (extract_lets +onlyGivenNames y; refine canonical_cut y ?_ ?_; (on_goal 2 => intro _; clear_value y); subst y)
     | (extract_lets +onlyGivenNames y; subst y) | with_reducible apply setReg_canonical
     | with_reducible apply reset_canonical | split
     | fail_if_no_progress with_reducible refine canonical_mk (canonical_fold ?_)

theorem execInputLoss_canonical {s} (hs : s.canonical) :
    OutKeeps (@execInputLoss s) := by
  unfold execInputLoss
  repeat' first
     | with_reducible assumption
     | (extract_lets +onlyGivenNames y; refine canonical_cut y ?_ ?_; (on_goal 2 => intro _; clear_value y); subst y)
     | (extract_lets +onlyGivenNames y; subst y) | with_reducible apply stopAll_canonical
     | with_reducible apply setReg_canonical | with_reducible apply canonical_ite | with_reducible apply outKeeps_next
     | fail_if_no_progress with_reducible refine canonical_mk (canonical_fold ?_)

theorem stepTrain_canonical {s} (hs : s.canonical) :
    (@stepTrain s).canonical := by
  unfold stepTrain
  repeat' first
     | with_reducible assumption | (extract_lets +onlyGivenNames y; subst y)
     | fail_if_no_progress with_reducible refine canonical_mk (canonical_fold ?_)

theorem execImgSelect_canonical {tag bank flags s} (hs : s.canonical) :
    OutKeeps (@execImgSelect tag bank flags s) := by
  unfold execImgSelect
  repeat' first
     | with_reducible assumption
     | (extract_lets +onlyGivenNames y; refine canonical_cut y ?_ ?_; (on_goal 2 => intro _; clear_value y); subst y)
     | (extract_lets +onlyGivenNames y; subst y) | with_reducible apply served_canonical
     | with_reducible apply mgmtCount_canonical | with_reducible apply mgmtReply_canonical
     | with_reducible apply canonical_ite | with_reducible apply outKeeps_next
     | fail_if_no_progress with_reducible refine canonical_mk (canonical_fold ?_)

theorem execChipReset_canonical {s} (hs : s.canonical) :
    OutKeeps (@execChipReset s) := by
  unfold execChipReset
  repeat' first
     | with_reducible assumption | with_reducible apply powered_canonical | with_reducible apply warmStart_canonical
     | with_reducible apply outKeeps_next

theorem lanesOff_canonical {s} (hs : s.canonical) :
    (@lanesOff s).canonical := by
  unfold lanesOff
  repeat' first
     | with_reducible assumption | with_reducible intro _ | with_reducible apply setPortState_canonical
     | with_reducible apply canonical_foldl

theorem failStart_canonical {s} (hs : s.canonical) :
    (@failStart s).canonical := by
  unfold failStart
  repeat' first
     | with_reducible assumption
     | (extract_lets +onlyGivenNames y; refine canonical_cut y ?_ ?_; (on_goal 2 => intro _; clear_value y); subst y)
     | (extract_lets +onlyGivenNames y; subst y) | with_reducible apply setFld_canonical
     | with_reducible apply alertSet_canonical | with_reducible apply recordEv_canonical
     | with_reducible apply lanesOff_canonical | with_reducible apply canonical_ite | split
     | fail_if_no_progress with_reducible refine canonical_mk (canonical_fold ?_)

theorem mapRowAt_canonical {s t b row source} (hs : s.canonical) :
    (@mapRowAt s t b row source).canonical := by
  unfold mapRowAt
  repeat' first
     | with_reducible assumption | with_reducible apply setRmap_canonical | with_reducible apply askFence_canonical
     | with_reducible apply canonical_ite | split

theorem loadRows_canonical {s} (hs : s.canonical) :
    (@loadRows s).canonical := by
  unfold loadRows
  repeat' first
     | with_reducible assumption | with_reducible intro _
     | (extract_lets +onlyGivenNames y; refine canonical_cut y ?_ ?_; (on_goal 2 => intro _; clear_value y); subst y)
     | with_reducible apply setRmap_canonical | with_reducible apply mapRowAt_canonical
     | with_reducible apply canonical_foldl

theorem stepMemory_canonical {s rep} (hs : s.canonical) :
    (@stepMemory s rep).canonical := by
  unfold stepMemory
  repeat' first
     | with_reducible assumption | (extract_lets +onlyGivenNames y; subst y) | with_reducible apply setFld_canonical
     | fail_if_no_progress with_reducible refine canonical_mk (canonical_fold ?_)

theorem stepLatch_canonical {s rep} (hs : s.canonical) :
    (@stepLatch s rep).canonical := by
  unfold stepLatch
  repeat' first
     | with_reducible assumption
     | (extract_lets +onlyGivenNames y; refine canonical_cut y ?_ ?_; (on_goal 2 => intro _; clear_value y); subst y)
     | with_reducible apply showSlots_canonical | with_reducible apply setReg_canonical
     | with_reducible apply setFld_canonical | with_reducible apply entropyFail_canonical
     | with_reducible apply canonical_ite

theorem runAster_canonical {s b resOk} (hs : s.canonical) :
    (@runAster s b resOk).canonical := by
  unfold runAster
  repeat' first
     | with_reducible assumption | (extract_lets +onlyGivenNames y; subst y)
     | with_reducible apply stepReserve_canonical
     | fail_if_no_progress with_reducible refine canonical_mk (canonical_fold ?_)

theorem trySet_canonical {s bank resOk} (hs : s.canonical) :
    (@trySet s bank resOk).1.canonical := by
  unfold trySet
  repeat' first
     | with_reducible assumption
     | (extract_lets +onlyGivenNames y; refine canonical_cut y ?_ ?_; (on_goal 2 => intro _; clear_value y); subst y)
     | (extract_lets +onlyGivenNames y; subst y) | with_reducible apply runAster_canonical | split

theorem runBank_canonical {s b} (hs : s.canonical) :
    (@runBank s b).canonical := by
  unfold runBank
  repeat' first
     | with_reducible assumption | with_reducible intro _
     | (extract_lets +onlyGivenNames y; refine canonical_cut y ?_ ?_; (on_goal 2 => intro _; clear_value y); subst y)
     | (extract_lets +onlyGivenNames y; subst y) | with_reducible apply setFld_canonical
     | with_reducible apply setMeas_canonical | with_reducible apply setReg_canonical
     | with_reducible apply canonical_foldl

theorem refuseSet_canonical {s b why} (hs : s.canonical) :
    (@refuseSet s b why).canonical := by
  unfold refuseSet
  repeat' first
     | with_reducible assumption | with_reducible apply recordEv_canonical

theorem stepFirmware_canonical {s rep} (hs : s.canonical) :
    (@stepFirmware s rep).1.canonical := by
  unfold stepFirmware
  repeat' first
     | with_reducible assumption
     | (extract_lets +onlyGivenNames y; refine canonical_cut y ?_ ?_; (on_goal 2 => intro _; clear_value y); subst y)
     | (extract_lets +onlyGivenNames y; subst y) | with_reducible apply trySet_canonical
     | with_reducible apply runBank_canonical | with_reducible apply refuseSet_canonical
     | with_reducible apply toRecoveryMode_canonical | with_reducible apply canonical_ite_fst
     | with_reducible refine pair1_canonical (by assumption) ?_ | split

theorem stepRows_canonical {s rep} (hs : s.canonical) :
    (@stepRows s rep).canonical := by
  unfold stepRows
  repeat' first
     | with_reducible assumption | (extract_lets +onlyGivenNames y; subst y) | with_reducible apply loadRows_canonical
     | with_reducible apply canonical_ite | fail_if_no_progress with_reducible refine canonical_mk (canonical_fold ?_)

theorem zeroiseAll_canonical {s} (hs : s.canonical) :
    (@zeroiseAll s).canonical := by
  unfold zeroiseAll
  extract_lets s1 s2
  have h1 : s1.canonical := canonical_mk (canonical_clearDram hs)
  clear_value s1
  have h2 : s2.canonical := canonical_foldl (fun s t h => canonical_foldl (fun s k h => setReg_canonical h) h) h1
  clear_value s2
  split
  rename_i key s3 e
  have h3 : s3.canonical := pair2_canonical e (takeRandom_canonical h2)
  exact setFld_canonical (canonical_mk (canonical_fold h3))

theorem stepImage_canonical {s} (hs : s.canonical) :
    (@stepImage s).canonical := by
  unfold stepImage
  repeat' first
     | with_reducible assumption | with_reducible intro _
     | (extract_lets +onlyGivenNames y; refine canonical_cut y ?_ ?_; (on_goal 2 => intro _; clear_value y); subst y)
     | (extract_lets +onlyGivenNames y; subst y) | with_reducible apply fenceBit_canonical
     | with_reducible apply setFld_canonical | with_reducible apply oosRing_canonical
     | with_reducible apply fenceAsked_canonical | with_reducible apply makeImage_canonical
     | with_reducible apply showUses_canonical | with_reducible apply setMeas_canonical
     | with_reducible apply canonical_ite | with_reducible apply canonical_foldl

theorem execStartStepComplete_canonical {rep s} (hs : s.canonical) :
    OutKeeps (@execStartStepComplete rep s) := by
  unfold execStartStepComplete
  repeat' first
     | with_reducible assumption | (extract_lets +onlyGivenNames y; subst y) | with_reducible apply failStart_canonical
     | with_reducible apply setFld_canonical | with_reducible apply stepMemory_canonical
     | with_reducible apply stepLatch_canonical | with_reducible apply stepFirmware_canonical
     | with_reducible apply stepRows_canonical | with_reducible apply stepTrain_canonical
     | with_reducible apply zeroiseAll_canonical | with_reducible apply stepImage_canonical
     | with_reducible apply hostUp_canonical | with_reducible apply stepReady_canonical
     | with_reducible apply canonical_ite | with_reducible apply outKeeps_next
     | with_reducible refine pair1_canonical (by assumption) ?_ | split
     | fail_if_no_progress with_reducible refine canonical_mk (canonical_fold ?_)

theorem execStartRetry_canonical {s} (hs : s.canonical) :
    OutKeeps (@execStartRetry s) := by
  unfold execStartRetry
  repeat' first
     | with_reducible assumption | with_reducible apply beginStart_canonical | with_reducible apply advanceTo_canonical
     | with_reducible apply canonical_ite | with_reducible apply outKeeps_next | split

theorem execStartStepTimeout_canonical {s} (hs : s.canonical) :
    OutKeeps (@execStartStepTimeout s) := by
  unfold execStartStepTimeout
  repeat' first
     | with_reducible assumption | with_reducible apply failStart_canonical | with_reducible apply advanceTo_canonical
     | with_reducible apply canonical_ite | with_reducible apply outKeeps_next

theorem execInputOn_canonical {s} (hs : s.canonical) :
    OutKeeps (@execInputOn s) := by
  unfold execInputOn
  repeat' first
     | with_reducible assumption
     | (extract_lets +onlyGivenNames y; refine canonical_cut y ?_ ?_; (on_goal 2 => intro _; clear_value y); subst y)
     | (extract_lets +onlyGivenNames y; subst y) | with_reducible apply beginStart_canonical
     | with_reducible apply canonical_ite | with_reducible apply outKeeps_next
     | fail_if_no_progress with_reducible refine canonical_mk (canonical_fold ?_)

theorem execPowerCycle_canonical {s} (hs : s.canonical) :
    OutKeeps (@execPowerCycle s) := by
  unfold execPowerCycle
  repeat' first
     | with_reducible assumption | with_reducible apply powered_canonical | with_reducible apply alertSet_canonical
     | with_reducible apply resetRec_canonical | with_reducible apply canonical_ite | with_reducible apply outKeeps_next

theorem execInputStop_canonical {s} (hs : s.canonical) :
    OutKeeps (@execInputStop s) := by
  unfold execInputStop
  repeat' first
     | with_reducible assumption | with_reducible apply stopAll_canonical | with_reducible apply canonical_ite
     | with_reducible apply outKeeps_next

theorem execKnownGood_canonical {s} (hs : s.canonical) :
    OutKeeps (@execKnownGood s) := by
  unfold execKnownGood
  repeat' first
     | with_reducible assumption | (extract_lets +onlyGivenNames y; subst y) | with_reducible apply setFld_canonical
     | with_reducible apply canonical_ite | with_reducible apply outKeeps_next
     | fail_if_no_progress with_reducible refine canonical_mk (canonical_fold ?_)

/-! ## Machine/Receive.lean -/

theorem askReplay_canonical {s p} (hs : s.canonical) :
    (@askReplay s p).canonical := by
  unfold askReplay
  repeat' first
     | with_reducible assumption | (extract_lets +onlyGivenNames y; subst y) | with_reducible apply sendIdle_canonical
     | with_reducible apply satAdd_canonical | with_reducible apply setPort_canonical

theorem askAgain_canonical {s p} (hs : s.canonical) :
    (@askAgain s p).canonical := by
  unfold askAgain
  repeat' first
     | with_reducible assumption | with_reducible apply askReplay_canonical | with_reducible apply canonical_ite

theorem toRecovery_canonical {s p} (hs : s.canonical) :
    (@toRecovery s p).canonical := by
  unfold toRecovery
  repeat' first
     | with_reducible assumption | (extract_lets +onlyGivenNames y; subst y) | with_reducible apply askAgain_canonical
     | with_reducible apply askReplay_canonical | with_reducible apply setPort_canonical
     | with_reducible apply canonical_ite

theorem authFail_canonical {s p} (hs : s.canonical) :
    (@authFail s p).canonical := by
  unfold authFail
  repeat' first
     | with_reducible assumption
     | (extract_lets +onlyGivenNames y; refine canonical_cut y ?_ ?_; (on_goal 2 => intro _; clear_value y); subst y)
     | (extract_lets +onlyGivenNames y; subst y) | with_reducible apply toRecovery_canonical
     | with_reducible apply satAdd_canonical | with_reducible apply setPort_canonical
     | with_reducible apply disablePort_canonical | with_reducible apply retrain_canonical
     | with_reducible apply canonical_ite

theorem inOrder_canonical {s p seq} (hs : s.canonical) :
    (@inOrder s p seq).canonical := by
  unfold inOrder
  repeat' first
     | with_reducible assumption | (extract_lets +onlyGivenNames y; subst y) | with_reducible apply setPort_canonical

theorem countSeq_canonical {s p} (hs : s.canonical) :
    (@countSeq s p).canonical := by
  unfold countSeq
  repeat' first
     | with_reducible assumption
     | (extract_lets +onlyGivenNames y; refine canonical_cut y ?_ ?_; (on_goal 2 => intro _; clear_value y); subst y)
     | (extract_lets +onlyGivenNames y; subst y) | with_reducible apply satAdd_canonical
     | with_reducible apply setPort_canonical | with_reducible apply retrain_canonical
     | with_reducible apply canonical_ite

theorem actOn_canonical {s p h} (hs : s.canonical) :
    (@actOn s p h).canonical := by
  unfold actOn
  repeat' first
     | with_reducible assumption | with_reducible intro _
     | (extract_lets +onlyGivenNames y; refine canonical_cut y ?_ ?_; (on_goal 2 => intro _; clear_value y); subst y)
     | (extract_lets +onlyGivenNames y; subst y) | with_reducible apply countSeq_canonical
     | with_reducible apply setPort_canonical | with_reducible apply perfMod_canonical
     | with_reducible apply putTx_canonical | with_reducible apply satAdd_canonical
     | with_reducible apply drain_canonical | with_reducible apply canonical_ite | with_reducible apply canonical_foldl

theorem nextOr_canonical {s a1} (hs : s.canonical) (ha1 : OutKeeps a1) :
    (@nextOr s a1).canonical := by
  cases a1 with
  | next t => exact ha1 t rfl
  | fault f => exact hs
  | refused r => exact hs

theorem takeFrag_canonical {s p f} (hs : s.canonical) :
    (@takeFrag s p f).2.canonical := by
  unfold takeFrag
  repeat' first
     | with_reducible assumption | (extract_lets +onlyGivenNames y; subst y) | with_reducible apply setPort_canonical

theorem takeLink_canonical {s p f stamp} (hs : s.canonical) :
    (@takeLink s p f stamp).canonical := by
  unfold takeLink
  repeat' first
     | with_reducible assumption | (extract_lets +onlyGivenNames y; subst y) | with_reducible apply takeCredit_canonical
     | with_reducible apply takeTime_canonical | with_reducible apply nextOr_canonical
     | with_reducible apply execKeyAttest_canonical | with_reducible apply takeFrag_canonical
     | with_reducible apply execKeyReport_canonical | with_reducible apply execKeyEk_canonical
     | with_reducible apply execKeyEncaps_canonical | with_reducible apply execKeyConfirm_canonical
     | with_reducible apply canonical_ite | with_reducible refine pair2_canonical (by assumption) ?_ | split

theorem takeRequest_canonical {s q op bs} (hs : s.canonical) :
    (@takeRequest s q op bs).canonical := by
  unfold takeRequest
  repeat' first
     | with_reducible assumption | with_reducible intro _ | (extract_lets +onlyGivenNames y; subst y)
     | with_reducible apply request_canonical | with_reducible apply nextOr_canonical
     | with_reducible apply execRegWr_canonical | with_reducible apply execRegRd_canonical
     | with_reducible apply execMemWr_canonical | with_reducible apply execMemRd_canonical
     | with_reducible apply execHealth_canonical | with_reducible apply execTbParent_canonical
     | with_reducible apply execPeerReset_canonical | with_reducible apply execAttest_canonical
     | with_reducible apply execOpenSession_canonical | with_reducible apply execNonce_canonical
     | with_reducible apply execImgWrite_canonical | with_reducible apply execImgSelect_canonical
     | with_reducible apply mgmtReply_canonical | with_reducible apply violation_canonical
     | with_reducible apply canonical_ite | with_reducible apply outKeeps_next | with_reducible apply canonical_id
     | split

theorem takeHost_canonical {s f} (hs : s.canonical) :
    (@takeHost s f).canonical := by
  unfold takeHost
  repeat' first
     | with_reducible assumption
     | (extract_lets +onlyGivenNames y; refine canonical_cut y ?_ ?_; (on_goal 2 => intro _; clear_value y); subst y)
     | (extract_lets +onlyGivenNames y; subst y) | with_reducible apply setPort_canonical
     | with_reducible apply sendLink_canonical | with_reducible apply takeRequest_canonical | split

theorem actMsg_canonical {s port h mtag p} (hs : s.canonical) :
    (@actMsg s port h mtag p).canonical := by
  unfold actMsg
  repeat' first
     | with_reducible assumption | (extract_lets +onlyGivenNames y; subst y) | with_reducible apply nextOr_canonical
     | with_reducible apply takeGangCmd_canonical | with_reducible apply execGangCpl_canonical
     | with_reducible apply execRefuse_canonical | with_reducible apply execRedNotice_canonical
     | with_reducible apply execRedDecide_canonical | with_reducible apply execRedAbort_canonical
     | with_reducible apply execRedPart_canonical | with_reducible apply execRedShard_canonical
     | with_reducible apply execRedOrdered_canonical | with_reducible apply execRedGather_canonical
     | with_reducible apply execDspRoutes_canonical | with_reducible apply execDspAdmit_canonical
     | with_reducible apply execDspRows_canonical | with_reducible apply execDspRet_canonical
     | with_reducible apply outKeeps_next | split

theorem takeMsg_canonical {s port h bs} (hs : s.canonical) :
    (@takeMsg s port h bs).canonical := by
  unfold takeMsg
  repeat' first
     | with_reducible assumption | (extract_lets +onlyGivenNames y; subst y) | with_reducible apply sendIdle_canonical
     | with_reducible apply satAdd_canonical | with_reducible apply actMsg_canonical
     | with_reducible apply refuseMsg_canonical | with_reducible apply canonical_ite | split

theorem deliverData_canonical {s p f} (hs : s.canonical) :
    (@deliverData s p f).canonical := by
  unfold deliverData
  repeat' first
     | with_reducible assumption
     | (extract_lets +onlyGivenNames y; refine canonical_cut y ?_ ?_; (on_goal 2 => intro _; clear_value y); subst y)
     | (extract_lets +onlyGivenNames y; subst y) | with_reducible apply setPort_canonical
     | with_reducible apply takeMsg_canonical | split

theorem takeData_canonical {s p f} (hs : s.canonical) :
    (@takeData s p f).canonical := by
  unfold takeData
  repeat' first
     | with_reducible assumption
     | (extract_lets +onlyGivenNames y; refine canonical_cut y ?_ ?_; (on_goal 2 => intro _; clear_value y); subst y)
     | (extract_lets +onlyGivenNames y; subst y) | with_reducible apply bwAdd_canonical
     | with_reducible apply perfMod_canonical | with_reducible apply freeBuf_canonical
     | with_reducible apply deliverData_canonical | with_reducible apply noRoute_canonical
     | with_reducible apply drain_canonical | with_reducible apply setPort_canonical
     | with_reducible apply canonical_ite

theorem takeSeqd_canonical {s p f stamp} (hs : s.canonical) :
    (@takeSeqd s p f stamp).canonical := by
  unfold takeSeqd
  repeat' first
     | with_reducible assumption
     | (extract_lets +onlyGivenNames y; refine canonical_cut y ?_ ?_; (on_goal 2 => intro _; clear_value y); subst y)
     | (extract_lets +onlyGivenNames y; subst y) | with_reducible apply askAgain_canonical
     | with_reducible apply askReplay_canonical | with_reducible apply countSeq_canonical
     | with_reducible apply satAdd_canonical | with_reducible apply sendIdle_canonical
     | with_reducible apply inOrder_canonical | with_reducible apply takeLink_canonical
     | with_reducible apply takeHost_canonical | with_reducible apply takeData_canonical
     | with_reducible apply canonical_ite

theorem receive_canonical {s p f stamp} (hs : s.canonical) :
    (@receive s p f stamp).canonical := by
  unfold receive
  repeat' first
     | with_reducible assumption
     | (extract_lets +onlyGivenNames y; refine canonical_cut y ?_ ?_; (on_goal 2 => intro _; clear_value y); subst y)
     | (extract_lets +onlyGivenNames y; subst y) | with_reducible apply toRecovery_canonical
     | with_reducible apply satAdd_canonical | with_reducible apply authFail_canonical
     | with_reducible apply inOrder_canonical | with_reducible apply sendIdle_canonical
     | with_reducible apply actOn_canonical | with_reducible apply takeSeqd_canonical
     | with_reducible apply canonical_ite

theorem tookSlot_canonical {s p w} (hs : s.canonical) :
    (@tookSlot s p w).canonical := by
  unfold tookSlot
  repeat' first
     | with_reducible assumption | with_reducible intro _
     | (extract_lets +onlyGivenNames y; refine canonical_cut y ?_ ?_; (on_goal 2 => intro _; clear_value y); subst y)
     | (extract_lets +onlyGivenNames y; subst y) | with_reducible apply setPort_canonical
     | with_reducible apply satAdd_canonical | with_reducible apply canonical_ite | with_reducible apply canonical_foldl

theorem execFlitReceive_canonical {port w s} (hs : s.canonical) :
    OutKeeps (@execFlitReceive port w s) := by
  unfold execFlitReceive
  repeat' first
     | with_reducible assumption | (extract_lets +onlyGivenNames y; subst y) | with_reducible apply receive_canonical
     | with_reducible apply tookSlot_canonical | with_reducible apply canonical_ite | with_reducible apply outKeeps_next

theorem sendOut_canonical {s} (hs : s.canonical) :
    (@sendOut s).canonical := by
  unfold sendOut
  repeat' first
     | with_reducible assumption
     | (extract_lets +onlyGivenNames y; refine canonical_cut y ?_ ?_; (on_goal 2 => intro _; clear_value y); subst y)
     | (extract_lets +onlyGivenNames y; subst y) | with_reducible apply takeMsg_canonical
     | with_reducible apply injectMsg_canonical | with_reducible apply canonical_ite | split
     | fail_if_no_progress with_reducible refine canonical_mk (canonical_fold ?_)

theorem hostIdle_canonical {s} (hs : s.canonical) :
    (@hostIdle s).canonical := by
  unfold hostIdle
  repeat' first
     | with_reducible assumption
     | (extract_lets +onlyGivenNames y; refine canonical_cut y ?_ ?_; (on_goal 2 => intro _; clear_value y); subst y)
     | (extract_lets +onlyGivenNames y; subst y) | with_reducible apply sendHostAll_canonical
     | with_reducible apply warmStart_canonical | with_reducible apply canonical_ite
     | fail_if_no_progress with_reducible refine canonical_mk (canonical_fold ?_)

/-! ## Machine/Resets.lean -/

theorem setActed_canonical {s o} (hs : s.canonical) :
    (@setActed s o).canonical := by
  unfold setActed
  repeat' first
     | with_reducible assumption | fail_if_no_progress with_reducible refine canonical_mk (canonical_fold ?_)

theorem forceFault_canonical {s unit n} (hs : s.canonical) :
    (@forceFault s unit n).canonical := by
  unfold forceFault
  repeat' first
     | with_reducible assumption | with_reducible intro _
     | (extract_lets +onlyGivenNames y; refine canonical_cut y ?_ ?_; (on_goal 2 => intro _; clear_value y); subst y)
     | (extract_lets +onlyGivenNames y; subst y) | with_reducible apply casAbort_canonical
     | with_reducible apply abortTasks_canonical | with_reducible apply completeId_canonical
     | with_reducible apply setCtxState_canonical | with_reducible apply errRecord_canonical
     | with_reducible apply canonical_ite | with_reducible apply canonical_foldl

theorem abortRed_canonical {s n} (hs : s.canonical) :
    (@abortRed s n).canonical := by
  unfold abortRed
  repeat' first
     | with_reducible assumption | with_reducible apply abortBatch_canonical
     | with_reducible apply abortBuckets_canonical

theorem clearGaths_canonical {s t} (hs : s.canonical) :
    (@clearGaths s t).canonical := by
  unfold clearGaths
  repeat' first
     | with_reducible assumption
     | (extract_lets +onlyGivenNames y; refine canonical_cut y ?_ ?_; (on_goal 2 => intro _; clear_value y); subst y)
     | with_reducible apply discardWhere_canonical
     | fail_if_no_progress with_reducible refine canonical_mk (canonical_fold ?_)

theorem clearStreams_canonical {s t} (hs : s.canonical) :
    (@clearStreams s t).canonical := by
  unfold clearStreams
  repeat' first
     | with_reducible assumption | with_reducible intro _
     | (extract_lets +onlyGivenNames y; refine canonical_cut y ?_ ?_; (on_goal 2 => intro _; clear_value y); subst y)
     | (extract_lets +onlyGivenNames y; subst y) | with_reducible apply discardWhere_canonical
     | with_reducible apply portFree_canonical | with_reducible apply setFld_canonical
     | with_reducible apply canonical_foldl | fail_if_no_progress with_reducible refine canonical_mk (canonical_fold ?_)

theorem resetTileRegs_canonical {s t} (hs : s.canonical) :
    (@resetTileRegs s t).canonical := by
  unfold resetTileRegs
  repeat' first
     | with_reducible assumption | with_reducible intro _
     | (extract_lets +onlyGivenNames y; refine canonical_cut y ?_ ?_; (on_goal 2 => intro _; clear_value y); subst y)
     | with_reducible apply setReg_canonical | with_reducible apply setFld_canonical
     | with_reducible apply resetRegs_canonical | with_reducible apply canonical_foldl

theorem clearStat_canonical {s t} (hs : s.canonical) :
    (@clearStat s t).canonical := by
  unfold clearStat
  repeat' first
     | with_reducible assumption | with_reducible apply setReg_canonical
     | fail_if_no_progress with_reducible refine canonical_mk (canonical_fold ?_)

theorem resetTile_canonical {s t} (hs : s.canonical) :
    (@resetTile s t).canonical := by
  unfold resetTile
  repeat' first
     | with_reducible assumption | with_reducible intro _
     | (extract_lets +onlyGivenNames y; refine canonical_cut y ?_ ?_; (on_goal 2 => intro _; clear_value y); subst y)
     | with_reducible apply clearGaths_canonical | with_reducible apply clearStreams_canonical
     | with_reducible apply setEng_canonical | with_reducible apply resetTileRegs_canonical
     | with_reducible apply clearStat_canonical | with_reducible apply accZero_canonical
     | refine canonical_mk (canonical_clearSp ?_) | with_reducible apply canonical_foldl

theorem resetRing_canonical {s r} (hs : s.canonical) :
    (@resetRing s r).canonical := by
  unfold resetRing
  repeat' first
     | with_reducible assumption | with_reducible intro _
     | (extract_lets +onlyGivenNames y; refine canonical_cut y ?_ ?_; (on_goal 2 => intro _; clear_value y); subst y)
     | (extract_lets +onlyGivenNames y; subst y) | with_reducible apply forceFault_canonical
     | with_reducible apply abortRed_canonical | with_reducible apply resetTile_canonical
     | with_reducible apply skewClear_canonical | with_reducible apply canonical_foldl
     | fail_if_no_progress with_reducible refine canonical_mk (canonical_fold ?_)

theorem takeCode_canonical {s w} (hs : s.canonical) :
    (@takeCode s w).2.canonical := by
  unfold takeCode
  repeat' first
     | with_reducible assumption | with_reducible apply takeFree_canonical

theorem resetMemory_canonical {s} (hs : s.canonical) :
    (@resetMemory s).canonical := by
  unfold resetMemory
  repeat' first
     | with_reducible assumption | with_reducible intro _
     | (extract_lets +onlyGivenNames y; refine canonical_cut y ?_ ?_; (on_goal 2 => intro _; clear_value y); subst y)
     | with_reducible apply forceFault_canonical | with_reducible apply casAbort_canonical
     | with_reducible apply takeCode_canonical | with_reducible apply setFld_canonical
     | with_reducible apply abortRed_canonical | with_reducible apply discardWhere_canonical
     | with_reducible apply dropGroup_canonical | with_reducible apply canonical_ite
     | with_reducible apply canonical_foldl | fail_if_no_progress with_reducible refine canonical_mk (canonical_fold ?_)

theorem resetFabric_canonical {s} (hs : s.canonical) :
    (@resetFabric s).canonical := by
  unfold resetFabric
  repeat' first
     | with_reducible assumption | with_reducible intro _
     | (extract_lets +onlyGivenNames y; refine canonical_cut y ?_ ?_; (on_goal 2 => intro _; clear_value y); subst y)
     | (extract_lets +onlyGivenNames y; subst y) | with_reducible apply abortRed_canonical
     | with_reducible apply setPort_canonical | with_reducible apply retrain_canonical
     | with_reducible apply canonical_ite | with_reducible apply canonical_foldl

theorem resetHost_canonical {s} (hs : s.canonical) :
    (@resetHost s).canonical := by
  unfold resetHost
  repeat' first
     | with_reducible assumption | with_reducible intro _
     | (extract_lets +onlyGivenNames y; refine canonical_cut y ?_ ?_; (on_goal 2 => intro _; clear_value y); subst y)
     | (extract_lets +onlyGivenNames y; subst y) | with_reducible apply satAdd_canonical
     | with_reducible apply setPort_canonical | with_reducible apply retrain_canonical
     | with_reducible apply canonical_ite | with_reducible apply canonical_foldl
     | fail_if_no_progress with_reducible refine canonical_mk (canonical_fold ?_)

theorem execPartitionReset_canonical {p s} (hs : s.canonical) :
    OutKeeps (@execPartitionReset p s) := by
  unfold execPartitionReset
  repeat' first
     | with_reducible assumption | with_reducible intro _
     | (extract_lets +onlyGivenNames y; refine canonical_cut y ?_ ?_; (on_goal 2 => intro _; clear_value y); subst y)
     | with_reducible apply setActed_canonical | with_reducible apply resetRing_canonical
     | with_reducible apply resetMemory_canonical | with_reducible apply casAbort_canonical
     | with_reducible apply resetFabric_canonical | with_reducible apply resetHost_canonical
     | with_reducible apply canonical_ite | with_reducible apply canonical_foldl | with_reducible apply outKeeps_next

theorem showSpan_canonical {s h} (hs : s.canonical) :
    (@showSpan s h).canonical := by
  unfold showSpan
  repeat' first
     | with_reducible assumption | with_reducible intro _ | (extract_lets +onlyGivenNames y; subst y)
     | with_reducible apply setFld_canonical | with_reducible apply canonical_foldl

theorem openRing_canonical {s r} (hs : s.canonical) :
    (@openRing s r).canonical := by
  unfold openRing
  repeat' first
     | with_reducible assumption | with_reducible apply setShutState_canonical | with_reducible apply setShut_canonical
     | with_reducible apply setReg_canonical

theorem ownDomain_canonical {s r} (hs : s.canonical) :
    (@ownDomain s r).canonical := by
  unfold ownDomain
  repeat' first
     | with_reducible assumption | with_reducible intro _
     | (extract_lets +onlyGivenNames y; refine canonical_cut y ?_ ?_; (on_goal 2 => intro _; clear_value y); subst y)
     | (extract_lets +onlyGivenNames y; subst y) | with_reducible apply setFld_canonical
     | with_reducible apply showSpan_canonical | with_reducible apply setShutState_canonical
     | with_reducible apply setShut_canonical | with_reducible apply openRing_canonical
     | with_reducible apply canonical_ite | with_reducible apply canonical_foldl | split

theorem execPartitionResetComplete_canonical {p s} (hs : s.canonical) :
    OutKeeps (@execPartitionResetComplete p s) := by
  unfold execPartitionResetComplete
  repeat' first
     | with_reducible assumption | with_reducible intro _
     | (extract_lets +onlyGivenNames y; refine canonical_cut y ?_ ?_; (on_goal 2 => intro _; clear_value y); subst y)
     | (extract_lets +onlyGivenNames y; subst y) | with_reducible apply resetDone_canonical
     | with_reducible apply ownDomain_canonical | with_reducible apply applyWaiting_canonical
     | with_reducible apply finish_canonical | with_reducible apply canonical_ite | with_reducible apply canonical_foldl
     | with_reducible apply outKeeps_next

theorem beginPart_canonical {s p cause} (hs : s.canonical) :
    (@beginPart s p cause).canonical := by
  unfold beginPart
  repeat' first
     | with_reducible assumption
     | (extract_lets +onlyGivenNames y; refine canonical_cut y ?_ ?_; (on_goal 2 => intro _; clear_value y); subst y)
     | with_reducible apply addRun_canonical | with_reducible apply resetRec_canonical
     | with_reducible apply canonical_ite | fail_if_no_progress with_reducible refine canonical_mk (canonical_fold ?_)

theorem routerFault_canonical {s r} (hs : s.canonical) :
    (@routerFault s r).canonical := by
  unfold routerFault
  repeat' first
     | with_reducible assumption
     | (extract_lets +onlyGivenNames y; refine canonical_cut y ?_ ?_; (on_goal 2 => intro _; clear_value y); subst y)
     | (extract_lets +onlyGivenNames y; subst y) | with_reducible apply takeCode_canonical
     | with_reducible apply beginPart_canonical | with_reducible apply canonical_ite
     | fail_if_no_progress with_reducible refine canonical_mk (canonical_fold ?_)

theorem execRouterFault_canonical {r s} (hs : s.canonical) :
    OutKeeps (@execRouterFault r s) := by
  unfold execRouterFault
  repeat' first
     | with_reducible assumption | with_reducible apply powered_canonical | with_reducible apply routerFault_canonical
     | with_reducible apply outKeeps_next

theorem clearEngine_canonical {s e} (hs : s.canonical) :
    (@clearEngine s e).canonical := by
  unfold clearEngine
  repeat' first
     | with_reducible assumption
     | (extract_lets +onlyGivenNames y; refine canonical_cut y ?_ ?_; (on_goal 2 => intro _; clear_value y); subst y)
     | with_reducible apply clearStat_canonical | with_reducible apply accZero_canonical
     | with_reducible apply setEng_canonical | with_reducible apply setReg_canonical
     | with_reducible apply clearStreams_canonical | with_reducible apply clearGaths_canonical | split
     | fail_if_no_progress with_reducible refine canonical_mk (canonical_fold ?_)

theorem execEngineReset_canonical {e s} (hs : s.canonical) :
    OutKeeps (@execEngineReset e s) := by
  unfold execEngineReset
  repeat' first
     | with_reducible assumption | with_reducible intro _
     | (extract_lets +onlyGivenNames y; refine canonical_cut y ?_ ?_; (on_goal 2 => intro _; clear_value y); subst y)
     | (extract_lets +onlyGivenNames y; subst y) | with_reducible apply setActed_canonical
     | with_reducible apply clearEngine_canonical | with_reducible apply forceFault_canonical
     | with_reducible apply casAbort_canonical | with_reducible apply abortBuckets_canonical
     | with_reducible apply abortBatch_canonical | with_reducible apply canonical_ite
     | with_reducible apply canonical_foldl | with_reducible apply outKeeps_next | split

theorem execEngineResetComplete_canonical {e s} (hs : s.canonical) :
    OutKeeps (@execEngineResetComplete e s) := by
  unfold execEngineResetComplete
  repeat' first
     | with_reducible assumption | with_reducible apply resetDone_canonical | with_reducible apply canonical_ite
     | with_reducible apply outKeeps_next

theorem execBooksOutOfBalance_canonical {b s} (hs : s.canonical) :
    OutKeeps (@execBooksOutOfBalance b s) := by
  unfold execBooksOutOfBalance
  repeat' first
     | with_reducible assumption | (extract_lets +onlyGivenNames y; subst y) | with_reducible apply powered_canonical
     | with_reducible apply takeFree_canonical | with_reducible apply takeCode_canonical
     | with_reducible apply beginPart_canonical | with_reducible apply recordEv_canonical
     | with_reducible apply canonical_ite | with_reducible apply outKeeps_next | split

theorem beginEngine_canonical {s e cause} (hs : s.canonical) :
    (@beginEngine s e cause).canonical := by
  unfold beginEngine
  repeat' first
     | with_reducible assumption | with_reducible apply addRun_canonical | with_reducible apply resetRec_canonical
     | with_reducible apply canonical_ite

theorem escalate_canonical {s o cause} (hs : s.canonical) :
    (@escalate s o cause).canonical := by
  unfold escalate
  repeat' first
     | with_reducible assumption | with_reducible intro _ | with_reducible apply beginEngine_canonical
     | with_reducible apply beginPart_canonical | with_reducible apply warmStart_canonical
     | with_reducible apply canonical_foldl | split
     | fail_if_no_progress with_reducible refine canonical_mk (canonical_fold ?_)

theorem detect_canonical {s o cause} (hs : s.canonical) :
    (@detect s o cause).canonical := by
  unfold detect
  repeat' first
     | with_reducible assumption | with_reducible apply escalate_canonical | with_reducible apply beginReset_canonical
     | with_reducible apply beginEngine_canonical | with_reducible apply beginPart_canonical
     | with_reducible apply canonical_ite | split

theorem execLintelWatchdog_canonical {s} (hs : s.canonical) :
    OutKeeps (@execLintelWatchdog s) := by
  unfold execLintelWatchdog
  repeat' first
     | with_reducible assumption | with_reducible apply powered_canonical | with_reducible apply warmStart_canonical
     | with_reducible apply outKeeps_next

theorem execResync_canonical {crossing s} (hs : s.canonical) :
    OutKeeps (@execResync crossing s) := by
  unfold execResync
  repeat' first
     | with_reducible assumption | (extract_lets +onlyGivenNames y; subst y) | with_reducible apply powered_canonical
     | with_reducible apply canonical_ite | with_reducible apply outKeeps_next
     | fail_if_no_progress with_reducible refine canonical_mk (canonical_fold ?_)

theorem execEngineHang_canonical {e s} (hs : s.canonical) :
    OutKeeps (@execEngineHang e s) := by
  unfold execEngineHang
  repeat' first
     | with_reducible assumption | with_reducible apply powered_canonical | with_reducible apply detect_canonical
     | with_reducible apply canonical_ite | with_reducible apply outKeeps_next | split

theorem execShutterHang_canonical {r s} (hs : s.canonical) :
    OutKeeps (@execShutterHang r s) := by
  unfold execShutterHang
  repeat' first
     | with_reducible assumption | with_reducible intro _ | (extract_lets +onlyGivenNames y; subst y)
     | with_reducible apply detect_canonical | with_reducible apply beginReset_canonical
     | with_reducible apply canonical_ite | with_reducible apply canonical_foldl | with_reducible apply outKeeps_next

theorem execContextDeadline_canonical {n s} (hs : s.canonical) :
    OutKeeps (@execContextDeadline n s) := by
  unfold execContextDeadline
  repeat' first
     | with_reducible assumption | with_reducible intro _ | with_reducible apply abortCmd_canonical
     | with_reducible apply detect_canonical | with_reducible apply canonical_ite | with_reducible apply canonical_foldl
     | with_reducible apply outKeeps_next

theorem execResetLimitExceeded_canonical {x s} (hs : s.canonical) :
    OutKeeps (@execResetLimitExceeded x s) := by
  unfold execResetLimitExceeded
  repeat' first
     | with_reducible assumption | with_reducible apply escalate_canonical | with_reducible apply canonical_ite
     | with_reducible apply outKeeps_next

theorem execModReset_canonical {p s} (hs : s.canonical) :
    OutKeeps (@execModReset p s) := by
  unfold execModReset
  repeat' first
     | with_reducible assumption | with_reducible intro _ | with_reducible apply command_canonical
     | with_reducible apply warmStart_canonical | with_reducible apply finish_canonical
     | with_reducible apply outKeeps_next

theorem tickRouters_canonical {s} (hs : s.canonical) :
    (@tickRouters s).canonical := by
  unfold tickRouters
  repeat' first
     | with_reducible assumption | with_reducible intro _
     | (extract_lets +onlyGivenNames y; refine canonical_cut y ?_ ?_; (on_goal 2 => intro _; clear_value y); subst y)
     | (extract_lets +onlyGivenNames y; subst y) | with_reducible apply routerFault_canonical
     | with_reducible apply canonical_foldl | fail_if_no_progress with_reducible refine canonical_mk (canonical_fold ?_)

theorem execPeerSilent_canonical {x s} (hs : s.canonical) :
    OutKeeps (@execPeerSilent x s) := by
  unfold execPeerSilent
  repeat' first
     | with_reducible assumption
     | (extract_lets +onlyGivenNames y; refine canonical_cut y ?_ ?_; (on_goal 2 => intro _; clear_value y); subst y)
     | (extract_lets +onlyGivenNames y; subst y) | with_reducible apply powered_canonical
     | with_reducible apply recordEv_canonical | with_reducible apply setPort_canonical
     | with_reducible apply replayEnd_canonical | with_reducible apply abortBucket_canonical
     | with_reducible apply sendAbort_canonical | with_reducible apply abortBatch_canonical
     | with_reducible apply sendBatchAbort_canonical | with_reducible apply canonical_ite
     | with_reducible apply outKeeps_next | split

theorem execCdcStall_canonical {crossing regionA regionB s} (hs : s.canonical) :
    OutKeeps (@execCdcStall crossing regionA regionB s) := by
  unfold execCdcStall
  repeat' first
     | with_reducible assumption
     | (extract_lets +onlyGivenNames y; refine canonical_cut y ?_ ?_; (on_goal 2 => intro _; clear_value y); subst y)
     | (extract_lets +onlyGivenNames y; subst y) | with_reducible apply powered_canonical
     | with_reducible apply satAdd_canonical | with_reducible apply setFld_canonical
     | with_reducible apply recordEv_canonical | with_reducible apply detect_canonical
     | with_reducible apply warmStart_canonical | with_reducible apply canonical_ite
     | with_reducible apply outKeeps_next | split
     | fail_if_no_progress with_reducible refine canonical_mk (canonical_fold ?_)

theorem execPartReset_canonical {p s} (hs : s.canonical) :
    OutKeeps (@execPartReset p s) := by
  unfold execPartReset
  repeat' first
     | with_reducible assumption | with_reducible intro _ | with_reducible apply command_canonical
     | with_reducible apply beginPart_canonical | with_reducible apply outKeeps_next

/-! ## Machine/Tick.lean -/

theorem watchEngine_canonical {seen idle s e} (hs : s.canonical) :
    (@watchEngine seen idle s e).canonical := by
  unfold watchEngine
  repeat' first
     | with_reducible assumption | (extract_lets +onlyGivenNames y; subst y) | with_reducible apply canonical_ite
     | split | fail_if_no_progress with_reducible refine canonical_mk (canonical_fold ?_)

theorem tickWatch_canonical {s} (hs : s.canonical) :
    (@tickWatch s).canonical := by
  unfold tickWatch
  repeat' first
     | with_reducible assumption | with_reducible intro _
     | (extract_lets +onlyGivenNames y; refine canonical_cut y ?_ ?_; (on_goal 2 => intro _; clear_value y); subst y)
     | (extract_lets +onlyGivenNames y; subst y) | with_reducible apply watchEngine_canonical
     | with_reducible apply canonical_foldl | fail_if_no_progress with_reducible refine canonical_mk (canonical_fold ?_)

theorem setDuty_canonical {s h x} (hs : s.canonical) :
    (@setDuty s h x).canonical := by
  unfold setDuty
  repeat' first
     | with_reducible assumption | with_reducible apply setFld_canonical

theorem eccTogether_canonical {s x} (hs : s.canonical) :
    (@eccTogether s x).canonical := by
  unfold eccTogether
  repeat' first
     | with_reducible assumption
     | (extract_lets +onlyGivenNames y; refine canonical_cut y ?_ ?_; (on_goal 2 => intro _; clear_value y); subst y)
     | (extract_lets +onlyGivenNames y; subst y) | with_reducible apply satAdd_canonical
     | with_reducible apply setFld_canonical | with_reducible apply canonical_ite

theorem dutyOwn_canonical {s h} (hs : s.canonical) :
    (@dutyOwn s h).canonical := by
  unfold dutyOwn
  repeat' first
     | with_reducible assumption | (extract_lets +onlyGivenNames y; subst y) | with_reducible apply setDuty_canonical
     | with_reducible apply canonical_ite | split

theorem writeEv_canonical {s e} (hs : s.canonical) :
    (@writeEv s e).canonical := by
  unfold writeEv
  repeat' first
     | with_reducible assumption | (extract_lets +onlyGivenNames y; subst y) | with_reducible apply setFld_canonical
     | with_reducible apply writePhys_canonical

theorem tickLimits_canonical {s tempC} (hs : s.canonical) :
    (@tickLimits s tempC).canonical := by
  unfold tickLimits
  repeat' first
     | with_reducible assumption
     | (extract_lets +onlyGivenNames y; refine canonical_cut y ?_ ?_; (on_goal 2 => intro _; clear_value y); subst y)
     | (extract_lets +onlyGivenNames y; subst y) | with_reducible apply dropAll_canonical
     | with_reducible apply setFld_canonical | with_reducible apply canonical_ite

theorem tickEcc_canonical {s now} (hs : s.canonical) :
    (@tickEcc s now).canonical := by
  unfold tickEcc
  repeat' first
     | with_reducible assumption | with_reducible intro _ | with_reducible apply eccTogether_canonical
     | with_reducible apply setFld_canonical | with_reducible apply canonical_ite | with_reducible apply canonical_foldl
     | split

theorem tickLatch_canonical {s} (hs : s.canonical) :
    (@tickLatch s).canonical := by
  unfold tickLatch
  repeat' first
     | with_reducible assumption | (extract_lets +onlyGivenNames y; subst y)
     | fail_if_no_progress with_reducible refine canonical_mk (canonical_fold ?_)

theorem tickTelem_canonical {s m} (hs : s.canonical) :
    (@tickTelem s m).canonical := by
  unfold tickTelem
  repeat' first
     | with_reducible assumption | with_reducible intro _
     | (extract_lets +onlyGivenNames y; refine canonical_cut y ?_ ?_; (on_goal 2 => intro _; clear_value y); subst y)
     | (extract_lets +onlyGivenNames y; subst y) | with_reducible apply setFld_canonical
     | with_reducible apply setReg_canonical | with_reducible apply satAdd_canonical
     | with_reducible apply canonical_ite | with_reducible apply canonical_foldl

theorem tickEvents_canonical {s} (hs : s.canonical) :
    (@tickEvents s).canonical := by
  unfold tickEvents
  repeat' first
     | with_reducible assumption | with_reducible intro _ | with_reducible apply writeEv_canonical
     | with_reducible apply canonical_foldl | fail_if_no_progress with_reducible refine canonical_mk (canonical_fold ?_)

theorem dutyHot_canonical {s} (hs : s.canonical) :
    (@dutyHot s).canonical := by
  unfold dutyHot
  repeat' first
     | with_reducible assumption | with_reducible intro _ | with_reducible apply setDuty_canonical
     | with_reducible apply canonical_ite | with_reducible apply canonical_foldl

theorem dutyCeil_canonical {s} (hs : s.canonical) :
    (@dutyCeil s).canonical := by
  unfold dutyCeil
  repeat' first
     | with_reducible assumption | with_reducible intro _ | (extract_lets +onlyGivenNames y; subst y)
     | with_reducible apply setDuty_canonical | with_reducible apply canonical_ite
     | with_reducible apply canonical_foldl | split

theorem tickLoads_canonical {s} (hs : s.canonical) :
    (@tickLoads s).canonical := by
  unfold tickLoads
  repeat' first
     | with_reducible assumption | with_reducible intro _ | with_reducible apply ctxLoad_canonical
     | with_reducible apply canonical_foldl

theorem tickHolds_canonical {s} (hs : s.canonical) :
    (@tickHolds s).canonical := by
  unfold tickHolds
  repeat' first
     | with_reducible assumption | with_reducible intro _ | with_reducible apply satAdd_canonical
     | with_reducible apply shutRaise_canonical | with_reducible apply shutDrop_canonical
     | with_reducible apply canonical_ite | with_reducible apply canonical_foldl

theorem tickFreq_canonical {s} (hs : s.canonical) :
    (@tickFreq s).canonical := by
  unfold tickFreq
  repeat' first
     | with_reducible assumption
     | (extract_lets +onlyGivenNames y; refine canonical_cut y ?_ ?_; (on_goal 2 => intro _; clear_value y); subst y)
     | (extract_lets +onlyGivenNames y; subst y) | with_reducible apply beginChange_canonical
     | with_reducible apply regionChange_canonical | with_reducible apply setDuty_canonical
     | with_reducible apply canonical_ite | split
     | fail_if_no_progress with_reducible refine canonical_mk (canonical_fold ?_)

theorem tickCounts_canonical {s} (hs : s.canonical) :
    (@tickCounts s).canonical := by
  unfold tickCounts
  repeat' first
     | with_reducible assumption | (extract_lets +onlyGivenNames y; subst y) | split
     | fail_if_no_progress with_reducible refine canonical_mk (canonical_fold ?_)

theorem tickParent_canonical {s} (hs : s.canonical) :
    (@tickParent s).canonical := by
  unfold tickParent
  repeat' first
     | with_reducible assumption
     | (extract_lets +onlyGivenNames y; refine canonical_cut y ?_ ?_; (on_goal 2 => intro _; clear_value y); subst y)
     | (extract_lets +onlyGivenNames y; subst y) | with_reducible apply setFld_canonical
     | with_reducible apply showUntrusted_canonical | with_reducible apply canonical_ite | split
     | fail_if_no_progress with_reducible refine canonical_mk (canonical_fold ?_)

theorem execManagementTick_canonical {m s} (hs : s.canonical) :
    OutKeeps (@execManagementTick m s) := by
  unfold execManagementTick
  repeat' first
     | with_reducible assumption | with_reducible intro _
     | (extract_lets +onlyGivenNames y; refine canonical_cut y ?_ ?_; (on_goal 2 => intro _; clear_value y); subst y)
     | (extract_lets +onlyGivenNames y; subst y) | with_reducible apply powered_canonical
     | with_reducible apply advanceTo_canonical | with_reducible apply tickLatch_canonical
     | with_reducible apply tickLimits_canonical | with_reducible apply tickTelem_canonical
     | with_reducible apply tickEcc_canonical | with_reducible apply tickEvents_canonical
     | with_reducible apply tickChange_canonical | with_reducible apply tickRestore_canonical
     | with_reducible apply dutyHot_canonical | with_reducible apply dutyCeil_canonical
     | with_reducible apply dutyOwn_canonical | with_reducible apply tickLoads_canonical
     | with_reducible apply tickHolds_canonical | with_reducible apply tickFreq_canonical
     | with_reducible apply tickCounts_canonical | with_reducible apply tickWatch_canonical
     | with_reducible apply tickRouters_canonical | with_reducible apply tickRows_canonical
     | with_reducible apply tickParent_canonical | with_reducible apply canonical_ite
     | with_reducible apply canonical_foldl | with_reducible apply outKeeps_next
     | fail_if_no_progress with_reducible refine canonical_mk (canonical_fold ?_)

/-! ## Machine/OwnerCmds.lean -/

theorem programOwner_canonical {c k s} (hs : s.canonical) :
    (@programOwner c k s).canonical := by
  unfold programOwner
  repeat' first
     | with_reducible assumption
     | (extract_lets +onlyGivenNames y; refine canonical_cut y ?_ ?_; (on_goal 2 => intro _; clear_value y); subst y)
     | (extract_lets +onlyGivenNames y; subst y) | with_reducible apply finish_canonical
     | with_reducible apply showSlots_canonical
     | fail_if_no_progress with_reducible refine canonical_mk (canonical_fold ?_)

theorem readToken_canonical {s c} (hs : s.canonical) :
    (@readToken s c).1.canonical := by
  unfold readToken
  repeat' first
     | with_reducible assumption | (extract_lets +onlyGivenNames y; subst y) | with_reducible apply readOwner_canonical
     | with_reducible refine pair1_canonical (by assumption) ?_ | split

theorem withToken_canonical {s c good body} (hs : s.canonical) (hbody : ∀ v0 v1, v1.canonical → (body v0 v1).canonical) :
    (@withToken s c good body).canonical := by
  unfold withToken
  repeat' first
     | with_reducible assumption | with_reducible apply readToken_canonical | with_reducible apply finish_canonical
     | with_reducible apply hbody | with_reducible apply canonical_ite
     | with_reducible refine pair1_canonical (by assumption) ?_ | split

theorem useNonce_canonical {s k} (hs : s.canonical) :
    (@useNonce s k).canonical := by
  unfold useNonce
  repeat' first
     | with_reducible assumption | (extract_lets +onlyGivenNames y; subst y)
     | fail_if_no_progress with_reducible refine canonical_mk (canonical_fold ?_)

theorem ownerSet_canonical {c s} (hs : s.canonical) :
    (@ownerSet c s).canonical := by
  unfold ownerSet
  repeat' first
     | with_reducible assumption | with_reducible intro _ | with_reducible apply finish_canonical
     | with_reducible apply readToken_canonical | with_reducible apply programOwner_canonical
     | with_reducible apply withToken_canonical | with_reducible apply useNonce_canonical
     | with_reducible apply canonical_ite | with_reducible refine pair1_canonical (by assumption) ?_ | split

theorem execOwnerSet_canonical {p s} (hs : s.canonical) :
    OutKeeps (@execOwnerSet p s) := by
  unfold execOwnerSet
  repeat' first
     | with_reducible assumption | with_reducible intro _ | with_reducible apply command_canonical
     | with_reducible apply ownerSet_canonical | with_reducible apply outKeeps_next

theorem peerPolicy_canonical {c s} (hs : s.canonical) :
    (@peerPolicy c s).canonical := by
  unfold peerPolicy
  repeat' first
     | with_reducible assumption | with_reducible intro _
     | (extract_lets +onlyGivenNames y; refine canonical_cut y ?_ ?_; (on_goal 2 => intro _; clear_value y); subst y)
     | (extract_lets +onlyGivenNames y; subst y) | with_reducible apply withToken_canonical
     | with_reducible apply useNonce_canonical | with_reducible apply finish_canonical
     | fail_if_no_progress with_reducible refine canonical_mk (canonical_fold ?_)

theorem abortEvery_canonical {s n} (hs : s.canonical) :
    (@abortEvery s n).canonical := by
  unfold abortEvery
  repeat' first
     | with_reducible assumption | with_reducible intro _
     | (extract_lets +onlyGivenNames y; refine canonical_cut y ?_ ?_; (on_goal 2 => intro _; clear_value y); subst y)
     | with_reducible apply abortQueue_canonical | with_reducible apply complete_canonical
     | with_reducible apply canonical_ite | with_reducible apply canonical_foldl

theorem destroyAll_canonical {s} (hs : s.canonical) :
    (@destroyAll s).canonical := by
  unfold destroyAll
  repeat' first
     | with_reducible assumption | with_reducible intro _
     | (extract_lets +onlyGivenNames y; refine canonical_cut y ?_ ?_; (on_goal 2 => intro _; clear_value y); subst y)
     | with_reducible apply abortEvery_canonical | with_reducible apply zeroise_canonical
     | with_reducible apply beginDestroy_canonical | with_reducible apply setReg_canonical
     | with_reducible apply canonical_ite | with_reducible apply canonical_foldl
     | fail_if_no_progress with_reducible refine canonical_mk (canonical_fold ?_)

theorem unlock_canonical {c k s} (hs : s.canonical) :
    (@unlock c k s).canonical := by
  unfold unlock
  repeat' first
     | with_reducible assumption
     | (extract_lets +onlyGivenNames y; refine canonical_cut y ?_ ?_; (on_goal 2 => intro _; clear_value y); subst y)
     | (extract_lets +onlyGivenNames y; subst y) | with_reducible apply closeSessions_canonical
     | with_reducible apply destroyAll_canonical | with_reducible apply takeRandom_canonical
     | with_reducible apply setMeas_canonical | with_reducible apply finish_canonical
     | with_reducible apply setFld_canonical | refine canonical_mk (canonical_noSp ?_)
     | fail_if_no_progress with_reducible refine canonical_mk (canonical_fold ?_)

theorem dbgUnlock_canonical {c s} (hs : s.canonical) :
    (@dbgUnlock c s).canonical := by
  unfold dbgUnlock
  repeat' first
     | with_reducible assumption | with_reducible intro _ | with_reducible apply withToken_canonical
     | with_reducible apply unlock_canonical | with_reducible apply useNonce_canonical
     | with_reducible apply finish_canonical | with_reducible apply canonical_ite

theorem execDbgUnlock_canonical {p s} (hs : s.canonical) :
    OutKeeps (@execDbgUnlock p s) := by
  unfold execDbgUnlock
  repeat' first
     | with_reducible assumption | with_reducible intro _ | with_reducible apply command_canonical
     | with_reducible apply dbgUnlock_canonical | with_reducible apply outKeeps_next

theorem commitSvn_canonical {c s} (hs : s.canonical) :
    (@commitSvn c s).canonical := by
  unfold commitSvn
  repeat' first
     | with_reducible assumption
     | (extract_lets +onlyGivenNames y; refine canonical_cut y ?_ ?_; (on_goal 2 => intro _; clear_value y); subst y)
     | (extract_lets +onlyGivenNames y; subst y) | with_reducible apply setReg_canonical
     | with_reducible apply finish_canonical
     | fail_if_no_progress with_reducible refine canonical_mk (canonical_fold ?_)

theorem execCommit_canonical {p s} (hs : s.canonical) :
    OutKeeps (@execCommit p s) := by
  unfold execCommit
  repeat' first
     | with_reducible assumption | with_reducible intro _ | with_reducible apply command_canonical
     | with_reducible apply commitSvn_canonical | with_reducible apply outKeeps_next

theorem execPeerPolicy_canonical {p s} (hs : s.canonical) :
    OutKeeps (@execPeerPolicy p s) := by
  unfold execPeerPolicy
  repeat' first
     | with_reducible assumption | with_reducible intro _ | with_reducible apply command_canonical
     | with_reducible apply peerPolicy_canonical | with_reducible apply outKeeps_next

/-! ## Machine/Bus.lean -/

theorem setTap_canonical {s i} (hs : s.canonical) :
    (@setTap s i).canonical := by
  unfold setTap
  repeat' first
     | with_reducible assumption | (extract_lets +onlyGivenNames y; subst y)
     | fail_if_no_progress with_reducible refine canonical_mk (canonical_fold ?_)

theorem endTest_canonical {s} (hs : s.canonical) :
    (@endTest s).canonical := by
  unfold endTest
  repeat' first
     | with_reducible assumption | with_reducible apply setFld_canonical | with_reducible apply canonical_ite

theorem execJtagInstruction_canonical {i s} (hs : s.canonical) :
    OutKeeps (@execJtagInstruction i s) := by
  unfold execJtagInstruction
  repeat' first
     | with_reducible assumption
     | (extract_lets +onlyGivenNames y; refine canonical_cut y ?_ ?_; (on_goal 2 => intro _; clear_value y); subst y)
     | with_reducible apply powered_canonical | with_reducible apply setTap_canonical
     | with_reducible apply setFld_canonical | with_reducible apply endTest_canonical
     | with_reducible apply canonical_ite | with_reducible apply outKeeps_next | split

theorem execTrstNLow_canonical {s} (hs : s.canonical) :
    OutKeeps (@execTrstNLow s) := by
  unfold execTrstNLow
  repeat' first
     | with_reducible assumption | with_reducible apply powered_canonical | with_reducible apply endTest_canonical
     | with_reducible apply setTap_canonical | with_reducible apply outKeeps_next

theorem busReply_canonical {s bs} (hs : s.canonical) :
    (@busReply s bs).canonical := by
  unfold busReply
  repeat' first
     | with_reducible assumption | (extract_lets +onlyGivenNames y; subst y)
     | fail_if_no_progress with_reducible refine canonical_mk (canonical_fold ?_)

theorem execStatus_canonical {pecOk s} (hs : s.canonical) :
    OutKeeps (@execStatus pecOk s) := by
  unfold execStatus
  repeat' first
     | with_reducible assumption | with_reducible apply busReply_canonical | with_reducible apply canonical_ite
     | with_reducible apply outKeeps_next

theorem execDebugHold_canonical {r raise s} (hs : s.canonical) :
    OutKeeps (@execDebugHold r raise s) := by
  unfold execDebugHold
  repeat' first
     | with_reducible assumption | with_reducible apply powered_canonical | with_reducible apply shutRaise_canonical
     | with_reducible apply shutWithdraw_canonical | with_reducible apply canonical_ite
     | with_reducible apply outKeeps_next

theorem execWarmReset_canonical {pecOk s} (hs : s.canonical) :
    OutKeeps (@execWarmReset pecOk s) := by
  unfold execWarmReset
  repeat' first
     | with_reducible assumption | with_reducible apply warmStart_canonical | with_reducible apply canonical_ite
     | with_reducible apply outKeeps_next

theorem execAlertRead_canonical {pecOk s} (hs : s.canonical) :
    OutKeeps (@execAlertRead pecOk s) := by
  unfold execAlertRead
  repeat' first
     | with_reducible assumption | with_reducible apply busReply_canonical | with_reducible apply canonical_ite
     | with_reducible apply outKeeps_next

theorem execBusId_canonical {pecOk s} (hs : s.canonical) :
    OutKeeps (@execBusId pecOk s) := by
  unfold execBusId
  repeat' first
     | with_reducible assumption | with_reducible apply busReply_canonical | with_reducible apply canonical_ite
     | with_reducible apply outKeeps_next

theorem execAlertWrite_canonical {pecOk v s} (hs : s.canonical) :
    OutKeeps (@execAlertWrite pecOk v s) := by
  unfold execAlertWrite
  repeat' first
     | with_reducible assumption | (extract_lets +onlyGivenNames y; subst y) | with_reducible apply canonical_ite
     | with_reducible apply outKeeps_next | fail_if_no_progress with_reducible refine canonical_mk (canonical_fold ?_)

end Sys2Proof.Machine
end

