-- ==== Sys2Proof/Laws/State.lean ====
section
/-! SUPPORT. The state's fields after the named updates: registers and their bit fields, thread registers, engines, tokens,
and the counters of events. -/

namespace Sys2Proof.Machine

/-! ## A register written: every other field stays -/

@[simp] theorem setReg_pending (s : State) (a : Nat) (v : Word64) : (setReg s a v).pending = s.pending := rfl
@[simp] theorem setReg_freeCtr (s : State) (a : Nat) (v : Word64) : (setReg s a v).freeCtr = s.freeCtr := rfl
@[simp] theorem setReg_nextId (s : State) (a : Nat) (v : Word64) : (setReg s a v).nextId = s.nextId := rfl
@[simp] theorem setReg_covers (s : State) (a : Nat) (v : Word64) : (setReg s a v).covers = s.covers := rfl
@[simp] theorem setReg_cmds (s : State) (a : Nat) (v : Word64) : (setReg s a v).cmds = s.cmds := rfl
@[simp] theorem setReg_cq (s : State) (a : Nat) (v : Word64) : (setReg s a v).cq = s.cq := rfl
@[simp] theorem setReg_cqOut (s : State) (a : Nat) (v : Word64) : (setReg s a v).cqOut = s.cqOut := rfl
@[simp] theorem setReg_cqCredit (s : State) (a : Nat) (v : Word64) : (setReg s a v).cqCredit = s.cqCredit := rfl
@[simp] theorem setReg_replies (s : State) (a : Nat) (v : Word64) : (setReg s a v).replies = s.replies := rfl
@[simp] theorem setReg_hostOut (s : State) (a : Nat) (v : Word64) : (setReg s a v).hostOut = s.hostOut := rfl
@[simp] theorem setReg_refusals (s : State) (a : Nat) (v : Word64) : (setReg s a v).refusals = s.refusals := rfl
@[simp] theorem setReg_codeDone (s : State) (a : Nat) (v : Word64) : (setReg s a v).codeDone = s.codeDone := rfl
@[simp] theorem setReg_violTimes (s : State) (a : Nat) (v : Word64) : (setReg s a v).violTimes = s.violTimes := rfl
@[simp] theorem setReg_locks (s : State) (a : Nat) (v : Word64) : (setReg s a v).locks = s.locks := rfl
@[simp] theorem setReg_evs (s : State) (a : Nat) (v : Word64) : (setReg s a v).evs = s.evs := rfl
@[simp] theorem setReg_out (s : State) (a : Nat) (v : Word64) : (setReg s a v).out = s.out := rfl
@[simp] theorem setReg_bw (s : State) (a : Nat) (v : Word64) : (setReg s a v).bw = s.bw := rfl
@[simp] theorem setReg_gregs (s : State) (a : Nat) (v : Word64) : (setReg s a v).gregs = s.gregs := rfl
@[simp] theorem setReg_preds (s : State) (a : Nat) (v : Word64) : (setReg s a v).preds = s.preds := rfl
@[simp] theorem setReg_pcOut (s : State) (a : Nat) (v : Word64) : (setReg s a v).pcOut = s.pcOut := rfl
@[simp] theorem setReg_wake (s : State) (a : Nat) (v : Word64) : (setReg s a v).wake = s.wake := rfl
@[simp] theorem setReg_tslots (s : State) (a : Nat) (v : Word64) : (setReg s a v).tslots = s.tslots := rfl
@[simp] theorem setReg_entryPc (s : State) (a : Nat) (v : Word64) : (setReg s a v).entryPc = s.entryPc := rfl
@[simp] theorem setReg_tokens (s : State) (a : Nat) (v : Word64) : (setReg s a v).tokens = s.tokens := rfl
@[simp] theorem setReg_imem (s : State) (a : Nat) (v : Word64) : (setReg s a v).imem = s.imem := rfl
@[simp] theorem setReg_sp (s : State) (a : Nat) (v : Word64) : (setReg s a v).sp = s.sp := rfl
@[simp] theorem setReg_spMark (s : State) (a : Nat) (v : Word64) : (setReg s a v).spMark = s.spMark := rfl
@[simp] theorem setReg_acc (s : State) (a : Nat) (v : Word64) : (setReg s a v).acc = s.acc := rfl
@[simp] theorem setReg_stat (s : State) (a : Nat) (v : Word64) : (setReg s a v).stat = s.stat := rfl
@[simp] theorem setReg_statMeta (s : State) (a : Nat) (v : Word64) : (setReg s a v).statMeta = s.statMeta := rfl
@[simp] theorem setReg_qhead (s : State) (a : Nat) (v : Word64) : (setReg s a v).qhead = s.qhead := rfl
@[simp] theorem setReg_curves (s : State) (a : Nat) (v : Word64) : (setReg s a v).curves = s.curves := rfl
@[simp] theorem setReg_curveOwned (s : State) (a : Nat) (v : Word64) : (setReg s a v).curveOwned = s.curveOwned := rfl
@[simp] theorem setReg_tables (s : State) (a : Nat) (v : Word64) : (setReg s a v).tables = s.tables := rfl
@[simp] theorem setReg_loads (s : State) (a : Nat) (v : Word64) : (setReg s a v).loads = s.loads := rfl
@[simp] theorem setReg_vloads (s : State) (a : Nat) (v : Word64) : (setReg s a v).vloads = s.vloads := rfl
@[simp] theorem setReg_engines (s : State) (a : Nat) (v : Word64) : (setReg s a v).engines = s.engines := rfl
@[simp] theorem setReg_drains (s : State) (a : Nat) (v : Word64) : (setReg s a v).drains = s.drains := rfl
@[simp] theorem setReg_serial (s : State) (a : Nat) (v : Word64) : (setReg s a v).serial = s.serial := rfl
@[simp] theorem setReg_faultAt (s : State) (a : Nat) (v : Word64) : (setReg s a v).faultAt = s.faultAt := rfl
@[simp] theorem setReg_badGroups (s : State) (a : Nat) (v : Word64) : (setReg s a v).badGroups = s.badGroups := rfl
@[simp] theorem setReg_stamps (s : State) (a : Nat) (v : Word64) : (setReg s a v).stamps = s.stamps := rfl
@[simp] theorem setReg_chains (s : State) (a : Nat) (v : Word64) : (setReg s a v).chains = s.chains := rfl
@[simp] theorem setReg_chainWaits (s : State) (a : Nat) (v : Word64) : (setReg s a v).chainWaits = s.chainWaits := rfl
@[simp] theorem setReg_ringBeats (s : State) (a : Nat) (v : Word64) : (setReg s a v).ringBeats = s.ringBeats := rfl
@[simp] theorem setReg_sends (s : State) (a : Nat) (v : Word64) : (setReg s a v).sends = s.sends := rfl
@[simp] theorem setReg_beats (s : State) (a : Nat) (v : Word64) : (setReg s a v).beats = s.beats := rfl
@[simp] theorem setReg_tsigs (s : State) (a : Nat) (v : Word64) : (setReg s a v).tsigs = s.tsigs := rfl
@[simp] theorem setReg_lvrNext (s : State) (a : Nat) (v : Word64) : (setReg s a v).lvrNext = s.lvrNext := rfl
@[simp] theorem setReg_lvTiles (s : State) (a : Nat) (v : Word64) : (setReg s a v).lvTiles = s.lvTiles := rfl
@[simp] theorem setReg_ringIn (s : State) (a : Nat) (v : Word64) : (setReg s a v).ringIn = s.ringIn := rfl
@[simp] theorem setReg_barriers (s : State) (a : Nat) (v : Word64) : (setReg s a v).barriers = s.barriers := rfl
@[simp] theorem setReg_shuts (s : State) (a : Nat) (v : Word64) : (setReg s a v).shuts = s.shuts := rfl
@[simp] theorem setReg_charged (s : State) (a : Nat) (v : Word64) : (setReg s a v).charged = s.charged := rfl
@[simp] theorem setReg_cycles (s : State) (a : Nat) (v : Word64) : (setReg s a v).cycles = s.cycles := rfl
@[simp] theorem setReg_frac (s : State) (a : Nat) (v : Word64) : (setReg s a v).frac = s.frac := rfl
@[simp] theorem setReg_debt (s : State) (a : Nat) (v : Word64) : (setReg s a v).debt = s.debt := rfl
@[simp] theorem setReg_skew (s : State) (a : Nat) (v : Word64) : (setReg s a v).skew = s.skew := rfl
@[simp] theorem setReg_dram (s : State) (a : Nat) (v : Word64) : (setReg s a v).dram = s.dram := rfl
@[simp] theorem setReg_tagDiff (s : State) (a : Nat) (v : Word64) : (setReg s a v).tagDiff = s.tagDiff := rfl
@[simp] theorem setReg_groups (s : State) (a : Nat) (v : Word64) : (setReg s a v).groups = s.groups := rfl
@[simp] theorem setReg_useCtr (s : State) (a : Nat) (v : Word64) : (setReg s a v).useCtr = s.useCtr := rfl
@[simp] theorem setReg_ptes (s : State) (a : Nat) (v : Word64) : (setReg s a v).ptes = s.ptes := rfl
@[simp] theorem setReg_freeFrames (s : State) (a : Nat) (v : Word64) : (setReg s a v).freeFrames = s.freeFrames := rfl
@[simp] theorem setReg_nextFrame (s : State) (a : Nat) (v : Word64) : (setReg s a v).nextFrame = s.nextFrame := rfl
@[simp] theorem setReg_nextTable (s : State) (a : Nat) (v : Word64) : (setReg s a v).nextTable = s.nextTable := rfl
@[simp] theorem setReg_frameCtx (s : State) (a : Nat) (v : Word64) : (setReg s a v).frameCtx = s.frameCtx := rfl
@[simp] theorem setReg_loadPages (s : State) (a : Nat) (v : Word64) : (setReg s a v).loadPages = s.loadPages := rfl
@[simp] theorem setReg_gens (s : State) (a : Nat) (v : Word64) : (setReg s a v).gens = s.gens := rfl
@[simp] theorem setReg_strms (s : State) (a : Nat) (v : Word64) : (setReg s a v).strms = s.strms := rfl
@[simp] theorem setReg_gaths (s : State) (a : Nat) (v : Word64) : (setReg s a v).gaths = s.gaths := rfl
@[simp] theorem setReg_tlb (s : State) (a : Nat) (v : Word64) : (setReg s a v).tlb = s.tlb := rfl
@[simp] theorem setReg_walks (s : State) (a : Nat) (v : Word64) : (setReg s a v).walks = s.walks := rfl
@[simp] theorem setReg_reqs (s : State) (a : Nat) (v : Word64) : (setReg s a v).reqs = s.reqs := rfl
@[simp] theorem setReg_curLvl (s : State) (a : Nat) (v : Word64) : (setReg s a v).curLvl = s.curLvl := rfl
@[simp] theorem setReg_fills (s : State) (a : Nat) (v : Word64) : (setReg s a v).fills = s.fills := rfl
@[simp] theorem setReg_merges (s : State) (a : Nat) (v : Word64) : (setReg s a v).merges = s.merges := rfl
@[simp] theorem setReg_stretchAt (s : State) (a : Nat) (v : Word64) : (setReg s a v).stretchAt = s.stretchAt := rfl
@[simp] theorem setReg_preSwitch (s : State) (a : Nat) (v : Word64) : (setReg s a v).preSwitch = s.preSwitch := rfl
@[simp] theorem setReg_dbgScope (s : State) (a : Nat) (v : Word64) : (setReg s a v).dbgScope = s.dbgScope := rfl
@[simp] theorem setReg_hzRing (s : State) (a : Nat) (v : Word64) : (setReg s a v).hzRing = s.hzRing := rfl
@[simp] theorem setReg_hzSlots (s : State) (a : Nat) (v : Word64) : (setReg s a v).hzSlots = s.hzSlots := rfl
@[simp] theorem setReg_portUse (s : State) (a : Nat) (v : Word64) : (setReg s a v).portUse = s.portUse := rfl
@[simp] theorem setReg_tagCache (s : State) (a : Nat) (v : Word64) : (setReg s a v).tagCache = s.tagCache := rfl
@[simp] theorem setReg_ctxInfo (s : State) (a : Nat) (v : Word64) : (setReg s a v).ctxInfo = s.ctxInfo := rfl
@[simp] theorem setReg_gangs (s : State) (a : Nat) (v : Word64) : (setReg s a v).gangs = s.gangs := rfl
@[simp] theorem setReg_dupSeen (s : State) (a : Nat) (v : Word64) : (setReg s a v).dupSeen = s.dupSeen := rfl
@[simp] theorem setReg_gangSeen (s : State) (a : Nat) (v : Word64) : (setReg s a v).gangSeen = s.gangSeen := rfl
@[simp] theorem setReg_tick (s : State) (a : Nat) (v : Word64) : (setReg s a v).tick = s.tick := rfl
@[simp] theorem setReg_resets (s : State) (a : Nat) (v : Word64) : (setReg s a v).resets = s.resets := rfl
@[simp] theorem setReg_progress (s : State) (a : Nat) (v : Word64) : (setReg s a v).progress = s.progress := rfl
@[simp] theorem setReg_watchSeen (s : State) (a : Nat) (v : Word64) : (setReg s a v).watchSeen = s.watchSeen := rfl
@[simp] theorem setReg_watchIdle (s : State) (a : Nat) (v : Word64) : (setReg s a v).watchIdle = s.watchIdle := rfl
@[simp] theorem setReg_openSeen (s : State) (a : Nat) (v : Word64) : (setReg s a v).openSeen = s.openSeen := rfl
@[simp] theorem setReg_red (s : State) (a : Nat) (v : Word64) : (setReg s a v).red = s.red := rfl
@[simp] theorem setReg_dsp (s : State) (a : Nat) (v : Word64) : (setReg s a v).dsp = s.dsp := rfl
@[simp] theorem setReg_cas (s : State) (a : Nat) (v : Word64) : (setReg s a v).cas = s.cas := rfl
@[simp] theorem setReg_casLast (s : State) (a : Nat) (v : Word64) : (setReg s a v).casLast = s.casLast := rfl
@[simp] theorem setReg_otp (s : State) (a : Nat) (v : Word64) : (setReg s a v).otp = s.otp := rfl
@[simp] theorem setReg_flash (s : State) (a : Nat) (v : Word64) : (setReg s a v).flash = s.flash := rfl
@[simp] theorem setReg_latch (s : State) (a : Nat) (v : Word64) : (setReg s a v).latch = s.latch := rfl
@[simp] theorem setReg_ports (s : State) (a : Nat) (v : Word64) : (setReg s a v).ports = s.ports := rfl
@[simp] theorem setReg_tx (s : State) (a : Nat) (v : Word64) : (setReg s a v).tx = s.tx := rfl
@[simp] theorem setReg_gov (s : State) (a : Nat) (v : Word64) : (setReg s a v).gov = s.gov := rfl
@[simp] theorem setReg_sup (s : State) (a : Nat) (v : Word64) : (setReg s a v).sup = s.sup := rfl
@[simp] theorem setReg_bwWait (s : State) (a : Nat) (v : Word64) : (setReg s a v).bwWait = s.bwWait := rfl

/-! ## A field of a register written -/

@[simp] theorem setFld_pending (s : State) (a lo w x : Nat) : (setFld s a lo w x).pending = s.pending := rfl
@[simp] theorem setFld_freeCtr (s : State) (a lo w x : Nat) : (setFld s a lo w x).freeCtr = s.freeCtr := rfl
@[simp] theorem setFld_nextId (s : State) (a lo w x : Nat) : (setFld s a lo w x).nextId = s.nextId := rfl
@[simp] theorem setFld_covers (s : State) (a lo w x : Nat) : (setFld s a lo w x).covers = s.covers := rfl
@[simp] theorem setFld_cmds (s : State) (a lo w x : Nat) : (setFld s a lo w x).cmds = s.cmds := rfl
@[simp] theorem setFld_cq (s : State) (a lo w x : Nat) : (setFld s a lo w x).cq = s.cq := rfl
@[simp] theorem setFld_cqOut (s : State) (a lo w x : Nat) : (setFld s a lo w x).cqOut = s.cqOut := rfl
@[simp] theorem setFld_cqCredit (s : State) (a lo w x : Nat) : (setFld s a lo w x).cqCredit = s.cqCredit := rfl
@[simp] theorem setFld_replies (s : State) (a lo w x : Nat) : (setFld s a lo w x).replies = s.replies := rfl
@[simp] theorem setFld_hostOut (s : State) (a lo w x : Nat) : (setFld s a lo w x).hostOut = s.hostOut := rfl
@[simp] theorem setFld_refusals (s : State) (a lo w x : Nat) : (setFld s a lo w x).refusals = s.refusals := rfl
@[simp] theorem setFld_codeDone (s : State) (a lo w x : Nat) : (setFld s a lo w x).codeDone = s.codeDone := rfl
@[simp] theorem setFld_violTimes (s : State) (a lo w x : Nat) : (setFld s a lo w x).violTimes = s.violTimes := rfl
@[simp] theorem setFld_locks (s : State) (a lo w x : Nat) : (setFld s a lo w x).locks = s.locks := rfl
@[simp] theorem setFld_evs (s : State) (a lo w x : Nat) : (setFld s a lo w x).evs = s.evs := rfl
@[simp] theorem setFld_out (s : State) (a lo w x : Nat) : (setFld s a lo w x).out = s.out := rfl
@[simp] theorem setFld_bw (s : State) (a lo w x : Nat) : (setFld s a lo w x).bw = s.bw := rfl
@[simp] theorem setFld_gregs (s : State) (a lo w x : Nat) : (setFld s a lo w x).gregs = s.gregs := rfl
@[simp] theorem setFld_preds (s : State) (a lo w x : Nat) : (setFld s a lo w x).preds = s.preds := rfl
@[simp] theorem setFld_pcOut (s : State) (a lo w x : Nat) : (setFld s a lo w x).pcOut = s.pcOut := rfl
@[simp] theorem setFld_wake (s : State) (a lo w x : Nat) : (setFld s a lo w x).wake = s.wake := rfl
@[simp] theorem setFld_tslots (s : State) (a lo w x : Nat) : (setFld s a lo w x).tslots = s.tslots := rfl
@[simp] theorem setFld_entryPc (s : State) (a lo w x : Nat) : (setFld s a lo w x).entryPc = s.entryPc := rfl
@[simp] theorem setFld_tokens (s : State) (a lo w x : Nat) : (setFld s a lo w x).tokens = s.tokens := rfl
@[simp] theorem setFld_imem (s : State) (a lo w x : Nat) : (setFld s a lo w x).imem = s.imem := rfl
@[simp] theorem setFld_sp (s : State) (a lo w x : Nat) : (setFld s a lo w x).sp = s.sp := rfl
@[simp] theorem setFld_spMark (s : State) (a lo w x : Nat) : (setFld s a lo w x).spMark = s.spMark := rfl
@[simp] theorem setFld_acc (s : State) (a lo w x : Nat) : (setFld s a lo w x).acc = s.acc := rfl
@[simp] theorem setFld_stat (s : State) (a lo w x : Nat) : (setFld s a lo w x).stat = s.stat := rfl
@[simp] theorem setFld_statMeta (s : State) (a lo w x : Nat) : (setFld s a lo w x).statMeta = s.statMeta := rfl
@[simp] theorem setFld_qhead (s : State) (a lo w x : Nat) : (setFld s a lo w x).qhead = s.qhead := rfl
@[simp] theorem setFld_curves (s : State) (a lo w x : Nat) : (setFld s a lo w x).curves = s.curves := rfl
@[simp] theorem setFld_curveOwned (s : State) (a lo w x : Nat) : (setFld s a lo w x).curveOwned = s.curveOwned := rfl
@[simp] theorem setFld_tables (s : State) (a lo w x : Nat) : (setFld s a lo w x).tables = s.tables := rfl
@[simp] theorem setFld_loads (s : State) (a lo w x : Nat) : (setFld s a lo w x).loads = s.loads := rfl
@[simp] theorem setFld_vloads (s : State) (a lo w x : Nat) : (setFld s a lo w x).vloads = s.vloads := rfl
@[simp] theorem setFld_engines (s : State) (a lo w x : Nat) : (setFld s a lo w x).engines = s.engines := rfl
@[simp] theorem setFld_drains (s : State) (a lo w x : Nat) : (setFld s a lo w x).drains = s.drains := rfl
@[simp] theorem setFld_serial (s : State) (a lo w x : Nat) : (setFld s a lo w x).serial = s.serial := rfl
@[simp] theorem setFld_faultAt (s : State) (a lo w x : Nat) : (setFld s a lo w x).faultAt = s.faultAt := rfl
@[simp] theorem setFld_badGroups (s : State) (a lo w x : Nat) : (setFld s a lo w x).badGroups = s.badGroups := rfl
@[simp] theorem setFld_stamps (s : State) (a lo w x : Nat) : (setFld s a lo w x).stamps = s.stamps := rfl
@[simp] theorem setFld_chains (s : State) (a lo w x : Nat) : (setFld s a lo w x).chains = s.chains := rfl
@[simp] theorem setFld_chainWaits (s : State) (a lo w x : Nat) : (setFld s a lo w x).chainWaits = s.chainWaits := rfl
@[simp] theorem setFld_ringBeats (s : State) (a lo w x : Nat) : (setFld s a lo w x).ringBeats = s.ringBeats := rfl
@[simp] theorem setFld_sends (s : State) (a lo w x : Nat) : (setFld s a lo w x).sends = s.sends := rfl
@[simp] theorem setFld_beats (s : State) (a lo w x : Nat) : (setFld s a lo w x).beats = s.beats := rfl
@[simp] theorem setFld_tsigs (s : State) (a lo w x : Nat) : (setFld s a lo w x).tsigs = s.tsigs := rfl
@[simp] theorem setFld_lvrNext (s : State) (a lo w x : Nat) : (setFld s a lo w x).lvrNext = s.lvrNext := rfl
@[simp] theorem setFld_lvTiles (s : State) (a lo w x : Nat) : (setFld s a lo w x).lvTiles = s.lvTiles := rfl
@[simp] theorem setFld_ringIn (s : State) (a lo w x : Nat) : (setFld s a lo w x).ringIn = s.ringIn := rfl
@[simp] theorem setFld_barriers (s : State) (a lo w x : Nat) : (setFld s a lo w x).barriers = s.barriers := rfl
@[simp] theorem setFld_shuts (s : State) (a lo w x : Nat) : (setFld s a lo w x).shuts = s.shuts := rfl
@[simp] theorem setFld_charged (s : State) (a lo w x : Nat) : (setFld s a lo w x).charged = s.charged := rfl
@[simp] theorem setFld_cycles (s : State) (a lo w x : Nat) : (setFld s a lo w x).cycles = s.cycles := rfl
@[simp] theorem setFld_frac (s : State) (a lo w x : Nat) : (setFld s a lo w x).frac = s.frac := rfl
@[simp] theorem setFld_debt (s : State) (a lo w x : Nat) : (setFld s a lo w x).debt = s.debt := rfl
@[simp] theorem setFld_skew (s : State) (a lo w x : Nat) : (setFld s a lo w x).skew = s.skew := rfl
@[simp] theorem setFld_dram (s : State) (a lo w x : Nat) : (setFld s a lo w x).dram = s.dram := rfl
@[simp] theorem setFld_tagDiff (s : State) (a lo w x : Nat) : (setFld s a lo w x).tagDiff = s.tagDiff := rfl
@[simp] theorem setFld_groups (s : State) (a lo w x : Nat) : (setFld s a lo w x).groups = s.groups := rfl
@[simp] theorem setFld_useCtr (s : State) (a lo w x : Nat) : (setFld s a lo w x).useCtr = s.useCtr := rfl
@[simp] theorem setFld_ptes (s : State) (a lo w x : Nat) : (setFld s a lo w x).ptes = s.ptes := rfl
@[simp] theorem setFld_freeFrames (s : State) (a lo w x : Nat) : (setFld s a lo w x).freeFrames = s.freeFrames := rfl
@[simp] theorem setFld_nextFrame (s : State) (a lo w x : Nat) : (setFld s a lo w x).nextFrame = s.nextFrame := rfl
@[simp] theorem setFld_nextTable (s : State) (a lo w x : Nat) : (setFld s a lo w x).nextTable = s.nextTable := rfl
@[simp] theorem setFld_frameCtx (s : State) (a lo w x : Nat) : (setFld s a lo w x).frameCtx = s.frameCtx := rfl
@[simp] theorem setFld_loadPages (s : State) (a lo w x : Nat) : (setFld s a lo w x).loadPages = s.loadPages := rfl
@[simp] theorem setFld_gens (s : State) (a lo w x : Nat) : (setFld s a lo w x).gens = s.gens := rfl
@[simp] theorem setFld_strms (s : State) (a lo w x : Nat) : (setFld s a lo w x).strms = s.strms := rfl
@[simp] theorem setFld_gaths (s : State) (a lo w x : Nat) : (setFld s a lo w x).gaths = s.gaths := rfl
@[simp] theorem setFld_tlb (s : State) (a lo w x : Nat) : (setFld s a lo w x).tlb = s.tlb := rfl
@[simp] theorem setFld_walks (s : State) (a lo w x : Nat) : (setFld s a lo w x).walks = s.walks := rfl
@[simp] theorem setFld_reqs (s : State) (a lo w x : Nat) : (setFld s a lo w x).reqs = s.reqs := rfl
@[simp] theorem setFld_curLvl (s : State) (a lo w x : Nat) : (setFld s a lo w x).curLvl = s.curLvl := rfl
@[simp] theorem setFld_fills (s : State) (a lo w x : Nat) : (setFld s a lo w x).fills = s.fills := rfl
@[simp] theorem setFld_merges (s : State) (a lo w x : Nat) : (setFld s a lo w x).merges = s.merges := rfl
@[simp] theorem setFld_stretchAt (s : State) (a lo w x : Nat) : (setFld s a lo w x).stretchAt = s.stretchAt := rfl
@[simp] theorem setFld_preSwitch (s : State) (a lo w x : Nat) : (setFld s a lo w x).preSwitch = s.preSwitch := rfl
@[simp] theorem setFld_dbgScope (s : State) (a lo w x : Nat) : (setFld s a lo w x).dbgScope = s.dbgScope := rfl
@[simp] theorem setFld_hzRing (s : State) (a lo w x : Nat) : (setFld s a lo w x).hzRing = s.hzRing := rfl
@[simp] theorem setFld_hzSlots (s : State) (a lo w x : Nat) : (setFld s a lo w x).hzSlots = s.hzSlots := rfl
@[simp] theorem setFld_portUse (s : State) (a lo w x : Nat) : (setFld s a lo w x).portUse = s.portUse := rfl
@[simp] theorem setFld_tagCache (s : State) (a lo w x : Nat) : (setFld s a lo w x).tagCache = s.tagCache := rfl
@[simp] theorem setFld_ctxInfo (s : State) (a lo w x : Nat) : (setFld s a lo w x).ctxInfo = s.ctxInfo := rfl
@[simp] theorem setFld_gangs (s : State) (a lo w x : Nat) : (setFld s a lo w x).gangs = s.gangs := rfl
@[simp] theorem setFld_dupSeen (s : State) (a lo w x : Nat) : (setFld s a lo w x).dupSeen = s.dupSeen := rfl
@[simp] theorem setFld_gangSeen (s : State) (a lo w x : Nat) : (setFld s a lo w x).gangSeen = s.gangSeen := rfl
@[simp] theorem setFld_tick (s : State) (a lo w x : Nat) : (setFld s a lo w x).tick = s.tick := rfl
@[simp] theorem setFld_resets (s : State) (a lo w x : Nat) : (setFld s a lo w x).resets = s.resets := rfl
@[simp] theorem setFld_progress (s : State) (a lo w x : Nat) : (setFld s a lo w x).progress = s.progress := rfl
@[simp] theorem setFld_watchSeen (s : State) (a lo w x : Nat) : (setFld s a lo w x).watchSeen = s.watchSeen := rfl
@[simp] theorem setFld_watchIdle (s : State) (a lo w x : Nat) : (setFld s a lo w x).watchIdle = s.watchIdle := rfl
@[simp] theorem setFld_openSeen (s : State) (a lo w x : Nat) : (setFld s a lo w x).openSeen = s.openSeen := rfl
@[simp] theorem setFld_red (s : State) (a lo w x : Nat) : (setFld s a lo w x).red = s.red := rfl
@[simp] theorem setFld_dsp (s : State) (a lo w x : Nat) : (setFld s a lo w x).dsp = s.dsp := rfl
@[simp] theorem setFld_cas (s : State) (a lo w x : Nat) : (setFld s a lo w x).cas = s.cas := rfl
@[simp] theorem setFld_casLast (s : State) (a lo w x : Nat) : (setFld s a lo w x).casLast = s.casLast := rfl
@[simp] theorem setFld_otp (s : State) (a lo w x : Nat) : (setFld s a lo w x).otp = s.otp := rfl
@[simp] theorem setFld_flash (s : State) (a lo w x : Nat) : (setFld s a lo w x).flash = s.flash := rfl
@[simp] theorem setFld_latch (s : State) (a lo w x : Nat) : (setFld s a lo w x).latch = s.latch := rfl
@[simp] theorem setFld_ports (s : State) (a lo w x : Nat) : (setFld s a lo w x).ports = s.ports := rfl
@[simp] theorem setFld_tx (s : State) (a lo w x : Nat) : (setFld s a lo w x).tx = s.tx := rfl
@[simp] theorem setFld_gov (s : State) (a lo w x : Nat) : (setFld s a lo w x).gov = s.gov := rfl
@[simp] theorem setFld_sup (s : State) (a lo w x : Nat) : (setFld s a lo w x).sup = s.sup := rfl
@[simp] theorem setFld_bwWait (s : State) (a lo w x : Nat) : (setFld s a lo w x).bwWait = s.bwWait := rfl

/-! ## Registers and bit fields read back -/

@[simp] theorem reg_setReg_same (s : State) (a : Nat) (v : Word64) : reg (setReg s a v) a = v := by
  simp [reg, setReg]

theorem reg_setReg_ne (s : State) {a b : Nat} (v : Word64) (h : b ≠ a) : reg (setReg s a v) b = reg s b := by
  simp [reg, setReg, SMap.get_set_ne regReset s.regs v h]

@[simp] theorem fld_setReg_same (s : State) (a : Nat) (v : Word64) (lo w : Nat) :
    fld (setReg s a v) a lo w = getF v lo w := by
  simp [fld]

theorem fld_setReg_ne (s : State) {a b : Nat} (v : Word64) (lo w : Nat) (h : b ≠ a) :
    fld (setReg s a v) b lo w = fld s b lo w := by
  simp [fld, reg_setReg_ne s v h]

theorem reg_setFld_ne (s : State) {a b : Nat} (lo w x : Nat) (h : b ≠ a) : reg (setFld s a lo w x) b = reg s b :=
  reg_setReg_ne s _ h

theorem fld_setFld_ne (s : State) {a b : Nat} (lo w x lo' w' : Nat) (h : b ≠ a) :
    fld (setFld s a lo w x) b lo' w' = fld s b lo' w' :=
  fld_setReg_ne s _ lo' w' h

/-- A word with a field replaced, as the sum of the parts above, at and below the field. -/
theorem putF_toNat (v : Word64) (lo w x : Nat) (h : lo + w ≤ 64) :
    (putF v lo w x).toNat = v.toNat / 2 ^ (lo + w) * 2 ^ (lo + w) + x % 2 ^ w * 2 ^ lo + v.toNat % 2 ^ lo := by
  have hv : v.toNat < 2 ^ 64 := v.isLt
  have e1 : v.toNat / 2 ^ lo * 2 ^ lo + v.toNat % 2 ^ lo = v.toNat := Nat.div_add_mod' _ _
  have e2 : v.toNat / 2 ^ lo / 2 ^ w * 2 ^ w + v.toNat / 2 ^ lo % 2 ^ w = v.toNat / 2 ^ lo := Nat.div_add_mod' _ _
  have e3 : v.toNat / 2 ^ lo / 2 ^ w = v.toNat / 2 ^ (lo + w) := by rw [Nat.div_div_eq_div_mul, ← pow_add]
  have hx : x % 2 ^ w < 2 ^ w := Nat.mod_lt _ (Nat.two_pow_pos w)
  have hl : v.toNat % 2 ^ lo < 2 ^ lo := Nat.mod_lt _ (Nat.two_pow_pos lo)
  have hh : v.toNat / 2 ^ (lo + w) < 2 ^ (64 - (lo + w)) := by
    rw [Nat.div_lt_iff_lt_mul (Nat.two_pow_pos _), ← pow_add, Nat.sub_add_cancel h]
    exact hv
  have key : v.toNat - v.toNat / 2 ^ lo % 2 ^ w * 2 ^ lo + x % 2 ^ w * 2 ^ lo =
      v.toNat / 2 ^ (lo + w) * 2 ^ (lo + w) + x % 2 ^ w * 2 ^ lo + v.toNat % 2 ^ lo := by
    have : v.toNat = v.toNat / 2 ^ (lo + w) * 2 ^ (lo + w) + v.toNat / 2 ^ lo % 2 ^ w * 2 ^ lo + v.toNat % 2 ^ lo := by
      calc v.toNat = v.toNat / 2 ^ lo * 2 ^ lo + v.toNat % 2 ^ lo := e1.symm
        _ = (v.toNat / 2 ^ lo / 2 ^ w * 2 ^ w + v.toNat / 2 ^ lo % 2 ^ w) * 2 ^ lo + v.toNat % 2 ^ lo := by rw [e2]
        _ = _ := by rw [e3, add_mul, pow_add, mul_assoc, mul_comm (2 ^ w) (2 ^ lo)]
    omega
  have bound : v.toNat / 2 ^ (lo + w) * 2 ^ (lo + w) + x % 2 ^ w * 2 ^ lo + v.toNat % 2 ^ lo < 2 ^ 64 := by
    have a1 : (v.toNat / 2 ^ (lo + w) + 1) * 2 ^ (lo + w) ≤ 2 ^ 64 := by
      calc (v.toNat / 2 ^ (lo + w) + 1) * 2 ^ (lo + w) ≤ 2 ^ (64 - (lo + w)) * 2 ^ (lo + w) :=
            Nat.mul_le_mul_right _ hh
        _ = 2 ^ 64 := by rw [← pow_add, Nat.sub_add_cancel h]
    have a2 : (x % 2 ^ w + 1) * 2 ^ lo ≤ 2 ^ (lo + w) := by
      calc (x % 2 ^ w + 1) * 2 ^ lo ≤ 2 ^ w * 2 ^ lo := Nat.mul_le_mul_right _ hx
        _ = 2 ^ (lo + w) := by rw [← pow_add, Nat.add_comm]
    rw [add_mul, one_mul] at a1 a2
    omega
  unfold putF
  rw [BitVec.toNat_ofNat, Nat.shiftRight_eq_div_pow, Nat.shiftLeft_eq, Nat.shiftLeft_eq, key]
  exact Nat.mod_eq_of_lt bound

/-- A field just written reads back, cut to its width. -/
@[simp] theorem getF_putF_same (v : Word64) (lo w x : Nat) (h : lo + w ≤ 64) : getF (putF v lo w x) lo w = x % 2 ^ w := by
  have hl : v.toNat % 2 ^ lo < 2 ^ lo := Nat.mod_lt _ (Nat.two_pow_pos lo)
  have e : v.toNat / 2 ^ (lo + w) * 2 ^ (lo + w) + x % 2 ^ w * 2 ^ lo + v.toNat % 2 ^ lo =
      2 ^ lo * (2 ^ w * (v.toNat / 2 ^ (lo + w)) + x % 2 ^ w) + v.toNat % 2 ^ lo := by
    rw [pow_add]
    ring
  rw [getF, putF_toNat v lo w x h, Nat.shiftRight_eq_div_pow, e, Nat.mul_add_div (Nat.two_pow_pos lo),
    Nat.div_eq_of_lt hl, Nat.add_zero, Nat.mul_add_mod, Nat.mod_mod]

/-- Writing a field leaves the fields above it. -/
theorem getF_putF_above (v : Word64) (lo w x lo' w' : Nat) (h : lo + w ≤ 64) (hd : lo + w ≤ lo') :
    getF (putF v lo w x) lo' w' = getF v lo' w' := by
  have hl : v.toNat % 2 ^ lo < 2 ^ lo := Nat.mod_lt _ (Nat.two_pow_pos lo)
  have hx : x % 2 ^ w < 2 ^ w := Nat.mod_lt _ (Nat.two_pow_pos w)
  have hlow : x % 2 ^ w * 2 ^ lo + v.toNat % 2 ^ lo < 2 ^ (lo + w) := by
    have a2 : (x % 2 ^ w + 1) * 2 ^ lo ≤ 2 ^ (lo + w) := by
      calc (x % 2 ^ w + 1) * 2 ^ lo ≤ 2 ^ w * 2 ^ lo := Nat.mul_le_mul_right _ hx
        _ = 2 ^ (lo + w) := by rw [← pow_add, Nat.add_comm]
    rw [add_mul, one_mul] at a2
    omega
  have hq : (putF v lo w x).toNat / 2 ^ (lo + w) = v.toNat / 2 ^ (lo + w) := by
    rw [putF_toNat v lo w x h, Nat.add_assoc, Nat.mul_comm, Nat.mul_add_div (Nat.two_pow_pos _), Nat.div_eq_of_lt hlow,
      Nat.add_zero]
  obtain ⟨k, rfl⟩ := Nat.exists_eq_add_of_le hd
  rw [getF, getF, Nat.shiftRight_eq_div_pow, Nat.shiftRight_eq_div_pow, pow_add _ (lo + w) k, ← Nat.div_div_eq_div_mul,
    ← Nat.div_div_eq_div_mul, hq]

/-- Writing a field leaves the fields below it. -/
theorem getF_putF_below (v : Word64) (lo w x lo' w' : Nat) (h : lo + w ≤ 64) (hd : lo' + w' ≤ lo) :
    getF (putF v lo w x) lo' w' = getF v lo' w' := by
  have hm : (putF v lo w x).toNat % 2 ^ lo = v.toNat % 2 ^ lo := by
    have e : v.toNat / 2 ^ (lo + w) * 2 ^ (lo + w) + x % 2 ^ w * 2 ^ lo + v.toNat % 2 ^ lo =
        2 ^ lo * (2 ^ w * (v.toNat / 2 ^ (lo + w)) + x % 2 ^ w) + v.toNat % 2 ^ lo := by
      rw [pow_add]
      ring
    rw [putF_toNat v lo w x h, e, Nat.mul_add_mod, Nat.mod_mod]
  have key : ∀ n : Nat, n / 2 ^ lo' % 2 ^ w' = n % 2 ^ lo / 2 ^ lo' % 2 ^ w' := by
    intro n
    obtain ⟨k, rfl⟩ := Nat.exists_eq_add_of_le hd
    rw [Nat.add_assoc, pow_add, Nat.mod_mul_right_div_self, pow_add, Nat.mod_mul_right_mod]
  rw [getF, getF, Nat.shiftRight_eq_div_pow, Nat.shiftRight_eq_div_pow, key, hm, ← key]

@[simp] theorem fld_setFld_same (s : State) (a lo w x : Nat) (h : lo + w ≤ 64) :
    fld (setFld s a lo w x) a lo w = x % 2 ^ w := by
  simp [fld, setFld, getF_putF_same _ lo w x h]

theorem fld_setFld_apart (s : State) (a lo w x lo' w' : Nat) (h : lo + w ≤ 64) (hd : lo + w ≤ lo' ∨ lo' + w' ≤ lo) :
    fld (setFld s a lo w x) a lo' w' = fld s a lo' w' := by
  rcases hd with hd | hd
  · simp [fld, setFld, getF_putF_above _ lo w x lo' w' h hd]
  · simp [fld, setFld, getF_putF_below _ lo w x lo' w' h hd]

/-! ## Operations that write registers only -/

/-- An update that touches the registers alone. -/
def RegsOnly (s u : State) : Prop := u = { s with regs := u.regs }

theorem RegsOnly.refl (s : State) : RegsOnly s s := rfl

theorem RegsOnly.trans {s u v : State} (h : RegsOnly s u) (k : RegsOnly u v) : RegsOnly s v := by
  unfold RegsOnly at *
  rw [k, h]

/-- What does not read the registers is unchanged. -/
theorem RegsOnly.keeps {β : Type} {s u : State} (h : RegsOnly s u) (f : State → β)
    (hf : ∀ r, f { s with regs := r } = f s) : f u = f s := by
  rw [h]
  exact hf _

theorem setReg_regsOnly (s : State) (a : Nat) (v : Word64) : RegsOnly s (setReg s a v) := rfl

theorem setFld_regsOnly (s : State) (a lo w x : Nat) : RegsOnly s (setFld s a lo w x) := rfl

theorem satAdd_regsOnly (s : State) (a lo w n : Nat) : RegsOnly s (satAdd s a lo w n) := rfl

theorem foldl_regsOnly {α : Type} {f : State → α → State} (hf : ∀ s a, RegsOnly s (f s a)) (l : List α) (s : State) :
    RegsOnly s (l.foldl f s) := by
  induction l generalizing s with
  | nil => exact RegsOnly.refl s
  | cons a l ih => exact (hf s a).trans (ih (f s a))

/-- Counting an event of a tile touches the registers alone. -/
theorem perfTile_regsOnly (s : State) (t : TileId) (n : Option CtxId) (e k : Nat) (q : Option Nat) (c : Nat) :
    RegsOnly s (perfTile s t n e k q c) := by
  refine foldl_regsOnly (fun s j => ?_) _ s
  split
  · exact satAdd_regsOnly _ _ _ _ _
  · exact RegsOnly.refl _

/-- Counting an event of a tile leaves every register but the tile's selected counters. -/
theorem perfTile_reg (s : State) (t : TileId) (n : Option CtxId) (e k : Nat) (q : Option Nat) (c a : Nat)
    (h : isPmc t a = false) : reg (perfTile s t n e k q c) a = reg s a := by
  have key : ∀ (l : List Nat) (s : State), (∀ j ∈ l, j < 8) →
      reg (l.foldl (fun s j => if selCounts (reg s (modG (0x4100 + 8 * j))) n e k q
        then satAdd s (tileA t.toNat (0x2F80 + 8 * j)) 0 64 c else s) s) a = reg s a := by
    intro l
    induction l with
    | nil => intro s _; rfl
    | cons j l ih =>
      intro s hl
      rw [List.foldl_cons, ih _ (fun i hi => hl i (List.mem_cons_of_mem _ hi))]
      split
      · refine reg_setFld_ne s 0 64 _ ?_
        intro e
        have hj := hl j List.mem_cons_self
        subst e
        simp [isPmc, tileA] at h
        omega
      · rfl
  exact key _ s (fun j hj => List.mem_range.mp hj)

theorem perfTile_fld (s : State) (t : TileId) (n : Option CtxId) (e k : Nat) (q : Option Nat) (c a lo w : Nat)
    (h : isPmc t a = false) : fld (perfTile s t n e k q c) a lo w = fld s a lo w := by
  rw [fld, perfTile_reg s t n e k q c a h, fld]

/-! ## Counting an event of a tile: every other field stays -/

@[simp] theorem perfTile_pending (s : State) (t : TileId) (n : Option CtxId) (e k : Nat) (q : Option Nat) (c : Nat) :
    (perfTile s t n e k q c).pending = s.pending :=
    (perfTile_regsOnly s t n e k q c).keeps State.pending (fun _ => rfl)
@[simp] theorem perfTile_freeCtr (s : State) (t : TileId) (n : Option CtxId) (e k : Nat) (q : Option Nat) (c : Nat) :
    (perfTile s t n e k q c).freeCtr = s.freeCtr :=
    (perfTile_regsOnly s t n e k q c).keeps State.freeCtr (fun _ => rfl)
@[simp] theorem perfTile_nextId (s : State) (t : TileId) (n : Option CtxId) (e k : Nat) (q : Option Nat) (c : Nat) :
    (perfTile s t n e k q c).nextId = s.nextId :=
    (perfTile_regsOnly s t n e k q c).keeps State.nextId (fun _ => rfl)
@[simp] theorem perfTile_covers (s : State) (t : TileId) (n : Option CtxId) (e k : Nat) (q : Option Nat) (c : Nat) :
    (perfTile s t n e k q c).covers = s.covers :=
    (perfTile_regsOnly s t n e k q c).keeps State.covers (fun _ => rfl)
@[simp] theorem perfTile_cmds (s : State) (t : TileId) (n : Option CtxId) (e k : Nat) (q : Option Nat) (c : Nat) :
    (perfTile s t n e k q c).cmds = s.cmds :=
    (perfTile_regsOnly s t n e k q c).keeps State.cmds (fun _ => rfl)
@[simp] theorem perfTile_cq (s : State) (t : TileId) (n : Option CtxId) (e k : Nat) (q : Option Nat) (c : Nat) :
    (perfTile s t n e k q c).cq = s.cq :=
    (perfTile_regsOnly s t n e k q c).keeps State.cq (fun _ => rfl)
@[simp] theorem perfTile_cqOut (s : State) (t : TileId) (n : Option CtxId) (e k : Nat) (q : Option Nat) (c : Nat) :
    (perfTile s t n e k q c).cqOut = s.cqOut :=
    (perfTile_regsOnly s t n e k q c).keeps State.cqOut (fun _ => rfl)
@[simp] theorem perfTile_cqCredit (s : State) (t : TileId) (n : Option CtxId) (e k : Nat) (q : Option Nat) (c : Nat) :
    (perfTile s t n e k q c).cqCredit = s.cqCredit :=
    (perfTile_regsOnly s t n e k q c).keeps State.cqCredit (fun _ => rfl)
@[simp] theorem perfTile_replies (s : State) (t : TileId) (n : Option CtxId) (e k : Nat) (q : Option Nat) (c : Nat) :
    (perfTile s t n e k q c).replies = s.replies :=
    (perfTile_regsOnly s t n e k q c).keeps State.replies (fun _ => rfl)
@[simp] theorem perfTile_hostOut (s : State) (t : TileId) (n : Option CtxId) (e k : Nat) (q : Option Nat) (c : Nat) :
    (perfTile s t n e k q c).hostOut = s.hostOut :=
    (perfTile_regsOnly s t n e k q c).keeps State.hostOut (fun _ => rfl)
@[simp] theorem perfTile_refusals (s : State) (t : TileId) (n : Option CtxId) (e k : Nat) (q : Option Nat) (c : Nat) :
    (perfTile s t n e k q c).refusals = s.refusals :=
    (perfTile_regsOnly s t n e k q c).keeps State.refusals (fun _ => rfl)
@[simp] theorem perfTile_codeDone (s : State) (t : TileId) (n : Option CtxId) (e k : Nat) (q : Option Nat) (c : Nat) :
    (perfTile s t n e k q c).codeDone = s.codeDone :=
    (perfTile_regsOnly s t n e k q c).keeps State.codeDone (fun _ => rfl)
@[simp] theorem perfTile_violTimes (s : State) (t : TileId) (n : Option CtxId) (e k : Nat) (q : Option Nat) (c : Nat) :
    (perfTile s t n e k q c).violTimes = s.violTimes :=
    (perfTile_regsOnly s t n e k q c).keeps State.violTimes (fun _ => rfl)
@[simp] theorem perfTile_locks (s : State) (t : TileId) (n : Option CtxId) (e k : Nat) (q : Option Nat) (c : Nat) :
    (perfTile s t n e k q c).locks = s.locks :=
    (perfTile_regsOnly s t n e k q c).keeps State.locks (fun _ => rfl)
@[simp] theorem perfTile_evs (s : State) (t : TileId) (n : Option CtxId) (e k : Nat) (q : Option Nat) (c : Nat) :
    (perfTile s t n e k q c).evs = s.evs :=
    (perfTile_regsOnly s t n e k q c).keeps State.evs (fun _ => rfl)
@[simp] theorem perfTile_out (s : State) (t : TileId) (n : Option CtxId) (e k : Nat) (q : Option Nat) (c : Nat) :
    (perfTile s t n e k q c).out = s.out :=
    (perfTile_regsOnly s t n e k q c).keeps State.out (fun _ => rfl)
@[simp] theorem perfTile_bw (s : State) (t : TileId) (n : Option CtxId) (e k : Nat) (q : Option Nat) (c : Nat) :
    (perfTile s t n e k q c).bw = s.bw :=
    (perfTile_regsOnly s t n e k q c).keeps State.bw (fun _ => rfl)
@[simp] theorem perfTile_gregs (s : State) (t : TileId) (n : Option CtxId) (e k : Nat) (q : Option Nat) (c : Nat) :
    (perfTile s t n e k q c).gregs = s.gregs :=
    (perfTile_regsOnly s t n e k q c).keeps State.gregs (fun _ => rfl)
@[simp] theorem perfTile_preds (s : State) (t : TileId) (n : Option CtxId) (e k : Nat) (q : Option Nat) (c : Nat) :
    (perfTile s t n e k q c).preds = s.preds :=
    (perfTile_regsOnly s t n e k q c).keeps State.preds (fun _ => rfl)
@[simp] theorem perfTile_pcOut (s : State) (t : TileId) (n : Option CtxId) (e k : Nat) (q : Option Nat) (c : Nat) :
    (perfTile s t n e k q c).pcOut = s.pcOut :=
    (perfTile_regsOnly s t n e k q c).keeps State.pcOut (fun _ => rfl)
@[simp] theorem perfTile_wake (s : State) (t : TileId) (n : Option CtxId) (e k : Nat) (q : Option Nat) (c : Nat) :
    (perfTile s t n e k q c).wake = s.wake :=
    (perfTile_regsOnly s t n e k q c).keeps State.wake (fun _ => rfl)
@[simp] theorem perfTile_tslots (s : State) (t : TileId) (n : Option CtxId) (e k : Nat) (q : Option Nat) (c : Nat) :
    (perfTile s t n e k q c).tslots = s.tslots :=
    (perfTile_regsOnly s t n e k q c).keeps State.tslots (fun _ => rfl)
@[simp] theorem perfTile_entryPc (s : State) (t : TileId) (n : Option CtxId) (e k : Nat) (q : Option Nat) (c : Nat) :
    (perfTile s t n e k q c).entryPc = s.entryPc :=
    (perfTile_regsOnly s t n e k q c).keeps State.entryPc (fun _ => rfl)
@[simp] theorem perfTile_tokens (s : State) (t : TileId) (n : Option CtxId) (e k : Nat) (q : Option Nat) (c : Nat) :
    (perfTile s t n e k q c).tokens = s.tokens :=
    (perfTile_regsOnly s t n e k q c).keeps State.tokens (fun _ => rfl)
@[simp] theorem perfTile_imem (s : State) (t : TileId) (n : Option CtxId) (e k : Nat) (q : Option Nat) (c : Nat) :
    (perfTile s t n e k q c).imem = s.imem :=
    (perfTile_regsOnly s t n e k q c).keeps State.imem (fun _ => rfl)
@[simp] theorem perfTile_sp (s : State) (t : TileId) (n : Option CtxId) (e k : Nat) (q : Option Nat) (c : Nat) :
    (perfTile s t n e k q c).sp = s.sp :=
    (perfTile_regsOnly s t n e k q c).keeps State.sp (fun _ => rfl)
@[simp] theorem perfTile_spMark (s : State) (t : TileId) (n : Option CtxId) (e k : Nat) (q : Option Nat) (c : Nat) :
    (perfTile s t n e k q c).spMark = s.spMark :=
    (perfTile_regsOnly s t n e k q c).keeps State.spMark (fun _ => rfl)
@[simp] theorem perfTile_acc (s : State) (t : TileId) (n : Option CtxId) (e k : Nat) (q : Option Nat) (c : Nat) :
    (perfTile s t n e k q c).acc = s.acc :=
    (perfTile_regsOnly s t n e k q c).keeps State.acc (fun _ => rfl)
@[simp] theorem perfTile_stat (s : State) (t : TileId) (n : Option CtxId) (e k : Nat) (q : Option Nat) (c : Nat) :
    (perfTile s t n e k q c).stat = s.stat :=
    (perfTile_regsOnly s t n e k q c).keeps State.stat (fun _ => rfl)
@[simp] theorem perfTile_statMeta (s : State) (t : TileId) (n : Option CtxId) (e k : Nat) (q : Option Nat) (c : Nat) :
    (perfTile s t n e k q c).statMeta = s.statMeta :=
    (perfTile_regsOnly s t n e k q c).keeps State.statMeta (fun _ => rfl)
@[simp] theorem perfTile_qhead (s : State) (t : TileId) (n : Option CtxId) (e k : Nat) (q : Option Nat) (c : Nat) :
    (perfTile s t n e k q c).qhead = s.qhead :=
    (perfTile_regsOnly s t n e k q c).keeps State.qhead (fun _ => rfl)
@[simp] theorem perfTile_curves (s : State) (t : TileId) (n : Option CtxId) (e k : Nat) (q : Option Nat) (c : Nat) :
    (perfTile s t n e k q c).curves = s.curves :=
    (perfTile_regsOnly s t n e k q c).keeps State.curves (fun _ => rfl)
@[simp] theorem perfTile_curveOwned (s : State) (t : TileId) (n : Option CtxId) (e k : Nat) (q : Option Nat) (c : Nat) :
    (perfTile s t n e k q c).curveOwned = s.curveOwned :=
    (perfTile_regsOnly s t n e k q c).keeps State.curveOwned (fun _ => rfl)
@[simp] theorem perfTile_tables (s : State) (t : TileId) (n : Option CtxId) (e k : Nat) (q : Option Nat) (c : Nat) :
    (perfTile s t n e k q c).tables = s.tables :=
    (perfTile_regsOnly s t n e k q c).keeps State.tables (fun _ => rfl)
@[simp] theorem perfTile_loads (s : State) (t : TileId) (n : Option CtxId) (e k : Nat) (q : Option Nat) (c : Nat) :
    (perfTile s t n e k q c).loads = s.loads :=
    (perfTile_regsOnly s t n e k q c).keeps State.loads (fun _ => rfl)
@[simp] theorem perfTile_vloads (s : State) (t : TileId) (n : Option CtxId) (e k : Nat) (q : Option Nat) (c : Nat) :
    (perfTile s t n e k q c).vloads = s.vloads :=
    (perfTile_regsOnly s t n e k q c).keeps State.vloads (fun _ => rfl)
@[simp] theorem perfTile_engines (s : State) (t : TileId) (n : Option CtxId) (e k : Nat) (q : Option Nat) (c : Nat) :
    (perfTile s t n e k q c).engines = s.engines :=
    (perfTile_regsOnly s t n e k q c).keeps State.engines (fun _ => rfl)
@[simp] theorem perfTile_drains (s : State) (t : TileId) (n : Option CtxId) (e k : Nat) (q : Option Nat) (c : Nat) :
    (perfTile s t n e k q c).drains = s.drains :=
    (perfTile_regsOnly s t n e k q c).keeps State.drains (fun _ => rfl)
@[simp] theorem perfTile_serial (s : State) (t : TileId) (n : Option CtxId) (e k : Nat) (q : Option Nat) (c : Nat) :
    (perfTile s t n e k q c).serial = s.serial :=
    (perfTile_regsOnly s t n e k q c).keeps State.serial (fun _ => rfl)
@[simp] theorem perfTile_faultAt (s : State) (t : TileId) (n : Option CtxId) (e k : Nat) (q : Option Nat) (c : Nat) :
    (perfTile s t n e k q c).faultAt = s.faultAt :=
    (perfTile_regsOnly s t n e k q c).keeps State.faultAt (fun _ => rfl)
@[simp] theorem perfTile_badGroups (s : State) (t : TileId) (n : Option CtxId) (e k : Nat) (q : Option Nat) (c : Nat) :
    (perfTile s t n e k q c).badGroups = s.badGroups :=
    (perfTile_regsOnly s t n e k q c).keeps State.badGroups (fun _ => rfl)
@[simp] theorem perfTile_stamps (s : State) (t : TileId) (n : Option CtxId) (e k : Nat) (q : Option Nat) (c : Nat) :
    (perfTile s t n e k q c).stamps = s.stamps :=
    (perfTile_regsOnly s t n e k q c).keeps State.stamps (fun _ => rfl)
@[simp] theorem perfTile_chains (s : State) (t : TileId) (n : Option CtxId) (e k : Nat) (q : Option Nat) (c : Nat) :
    (perfTile s t n e k q c).chains = s.chains :=
    (perfTile_regsOnly s t n e k q c).keeps State.chains (fun _ => rfl)
@[simp] theorem perfTile_chainWaits (s : State) (t : TileId) (n : Option CtxId) (e k : Nat) (q : Option Nat) (c : Nat) :
    (perfTile s t n e k q c).chainWaits = s.chainWaits :=
    (perfTile_regsOnly s t n e k q c).keeps State.chainWaits (fun _ => rfl)
@[simp] theorem perfTile_ringBeats (s : State) (t : TileId) (n : Option CtxId) (e k : Nat) (q : Option Nat) (c : Nat) :
    (perfTile s t n e k q c).ringBeats = s.ringBeats :=
    (perfTile_regsOnly s t n e k q c).keeps State.ringBeats (fun _ => rfl)
@[simp] theorem perfTile_sends (s : State) (t : TileId) (n : Option CtxId) (e k : Nat) (q : Option Nat) (c : Nat) :
    (perfTile s t n e k q c).sends = s.sends :=
    (perfTile_regsOnly s t n e k q c).keeps State.sends (fun _ => rfl)
@[simp] theorem perfTile_beats (s : State) (t : TileId) (n : Option CtxId) (e k : Nat) (q : Option Nat) (c : Nat) :
    (perfTile s t n e k q c).beats = s.beats :=
    (perfTile_regsOnly s t n e k q c).keeps State.beats (fun _ => rfl)
@[simp] theorem perfTile_tsigs (s : State) (t : TileId) (n : Option CtxId) (e k : Nat) (q : Option Nat) (c : Nat) :
    (perfTile s t n e k q c).tsigs = s.tsigs :=
    (perfTile_regsOnly s t n e k q c).keeps State.tsigs (fun _ => rfl)
@[simp] theorem perfTile_lvrNext (s : State) (t : TileId) (n : Option CtxId) (e k : Nat) (q : Option Nat) (c : Nat) :
    (perfTile s t n e k q c).lvrNext = s.lvrNext :=
    (perfTile_regsOnly s t n e k q c).keeps State.lvrNext (fun _ => rfl)
@[simp] theorem perfTile_lvTiles (s : State) (t : TileId) (n : Option CtxId) (e k : Nat) (q : Option Nat) (c : Nat) :
    (perfTile s t n e k q c).lvTiles = s.lvTiles :=
    (perfTile_regsOnly s t n e k q c).keeps State.lvTiles (fun _ => rfl)
@[simp] theorem perfTile_ringIn (s : State) (t : TileId) (n : Option CtxId) (e k : Nat) (q : Option Nat) (c : Nat) :
    (perfTile s t n e k q c).ringIn = s.ringIn :=
    (perfTile_regsOnly s t n e k q c).keeps State.ringIn (fun _ => rfl)
@[simp] theorem perfTile_barriers (s : State) (t : TileId) (n : Option CtxId) (e k : Nat) (q : Option Nat) (c : Nat) :
    (perfTile s t n e k q c).barriers = s.barriers :=
    (perfTile_regsOnly s t n e k q c).keeps State.barriers (fun _ => rfl)
@[simp] theorem perfTile_shuts (s : State) (t : TileId) (n : Option CtxId) (e k : Nat) (q : Option Nat) (c : Nat) :
    (perfTile s t n e k q c).shuts = s.shuts :=
    (perfTile_regsOnly s t n e k q c).keeps State.shuts (fun _ => rfl)
@[simp] theorem perfTile_charged (s : State) (t : TileId) (n : Option CtxId) (e k : Nat) (q : Option Nat) (c : Nat) :
    (perfTile s t n e k q c).charged = s.charged :=
    (perfTile_regsOnly s t n e k q c).keeps State.charged (fun _ => rfl)
@[simp] theorem perfTile_cycles (s : State) (t : TileId) (n : Option CtxId) (e k : Nat) (q : Option Nat) (c : Nat) :
    (perfTile s t n e k q c).cycles = s.cycles :=
    (perfTile_regsOnly s t n e k q c).keeps State.cycles (fun _ => rfl)
@[simp] theorem perfTile_frac (s : State) (t : TileId) (n : Option CtxId) (e k : Nat) (q : Option Nat) (c : Nat) :
    (perfTile s t n e k q c).frac = s.frac :=
    (perfTile_regsOnly s t n e k q c).keeps State.frac (fun _ => rfl)
@[simp] theorem perfTile_debt (s : State) (t : TileId) (n : Option CtxId) (e k : Nat) (q : Option Nat) (c : Nat) :
    (perfTile s t n e k q c).debt = s.debt :=
    (perfTile_regsOnly s t n e k q c).keeps State.debt (fun _ => rfl)
@[simp] theorem perfTile_skew (s : State) (t : TileId) (n : Option CtxId) (e k : Nat) (q : Option Nat) (c : Nat) :
    (perfTile s t n e k q c).skew = s.skew :=
    (perfTile_regsOnly s t n e k q c).keeps State.skew (fun _ => rfl)
@[simp] theorem perfTile_dram (s : State) (t : TileId) (n : Option CtxId) (e k : Nat) (q : Option Nat) (c : Nat) :
    (perfTile s t n e k q c).dram = s.dram :=
    (perfTile_regsOnly s t n e k q c).keeps State.dram (fun _ => rfl)
@[simp] theorem perfTile_tagDiff (s : State) (t : TileId) (n : Option CtxId) (e k : Nat) (q : Option Nat) (c : Nat) :
    (perfTile s t n e k q c).tagDiff = s.tagDiff :=
    (perfTile_regsOnly s t n e k q c).keeps State.tagDiff (fun _ => rfl)
@[simp] theorem perfTile_groups (s : State) (t : TileId) (n : Option CtxId) (e k : Nat) (q : Option Nat) (c : Nat) :
    (perfTile s t n e k q c).groups = s.groups :=
    (perfTile_regsOnly s t n e k q c).keeps State.groups (fun _ => rfl)
@[simp] theorem perfTile_useCtr (s : State) (t : TileId) (n : Option CtxId) (e k : Nat) (q : Option Nat) (c : Nat) :
    (perfTile s t n e k q c).useCtr = s.useCtr :=
    (perfTile_regsOnly s t n e k q c).keeps State.useCtr (fun _ => rfl)
@[simp] theorem perfTile_ptes (s : State) (t : TileId) (n : Option CtxId) (e k : Nat) (q : Option Nat) (c : Nat) :
    (perfTile s t n e k q c).ptes = s.ptes :=
    (perfTile_regsOnly s t n e k q c).keeps State.ptes (fun _ => rfl)
@[simp] theorem perfTile_freeFrames (s : State) (t : TileId) (n : Option CtxId) (e k : Nat) (q : Option Nat) (c : Nat) :
    (perfTile s t n e k q c).freeFrames = s.freeFrames :=
    (perfTile_regsOnly s t n e k q c).keeps State.freeFrames (fun _ => rfl)
@[simp] theorem perfTile_nextFrame (s : State) (t : TileId) (n : Option CtxId) (e k : Nat) (q : Option Nat) (c : Nat) :
    (perfTile s t n e k q c).nextFrame = s.nextFrame :=
    (perfTile_regsOnly s t n e k q c).keeps State.nextFrame (fun _ => rfl)
@[simp] theorem perfTile_nextTable (s : State) (t : TileId) (n : Option CtxId) (e k : Nat) (q : Option Nat) (c : Nat) :
    (perfTile s t n e k q c).nextTable = s.nextTable :=
    (perfTile_regsOnly s t n e k q c).keeps State.nextTable (fun _ => rfl)
@[simp] theorem perfTile_frameCtx (s : State) (t : TileId) (n : Option CtxId) (e k : Nat) (q : Option Nat) (c : Nat) :
    (perfTile s t n e k q c).frameCtx = s.frameCtx :=
    (perfTile_regsOnly s t n e k q c).keeps State.frameCtx (fun _ => rfl)
@[simp] theorem perfTile_loadPages (s : State) (t : TileId) (n : Option CtxId) (e k : Nat) (q : Option Nat) (c : Nat) :
    (perfTile s t n e k q c).loadPages = s.loadPages :=
    (perfTile_regsOnly s t n e k q c).keeps State.loadPages (fun _ => rfl)
@[simp] theorem perfTile_gens (s : State) (t : TileId) (n : Option CtxId) (e k : Nat) (q : Option Nat) (c : Nat) :
    (perfTile s t n e k q c).gens = s.gens :=
    (perfTile_regsOnly s t n e k q c).keeps State.gens (fun _ => rfl)
@[simp] theorem perfTile_strms (s : State) (t : TileId) (n : Option CtxId) (e k : Nat) (q : Option Nat) (c : Nat) :
    (perfTile s t n e k q c).strms = s.strms :=
    (perfTile_regsOnly s t n e k q c).keeps State.strms (fun _ => rfl)
@[simp] theorem perfTile_gaths (s : State) (t : TileId) (n : Option CtxId) (e k : Nat) (q : Option Nat) (c : Nat) :
    (perfTile s t n e k q c).gaths = s.gaths :=
    (perfTile_regsOnly s t n e k q c).keeps State.gaths (fun _ => rfl)
@[simp] theorem perfTile_tlb (s : State) (t : TileId) (n : Option CtxId) (e k : Nat) (q : Option Nat) (c : Nat) :
    (perfTile s t n e k q c).tlb = s.tlb :=
    (perfTile_regsOnly s t n e k q c).keeps State.tlb (fun _ => rfl)
@[simp] theorem perfTile_walks (s : State) (t : TileId) (n : Option CtxId) (e k : Nat) (q : Option Nat) (c : Nat) :
    (perfTile s t n e k q c).walks = s.walks :=
    (perfTile_regsOnly s t n e k q c).keeps State.walks (fun _ => rfl)
@[simp] theorem perfTile_reqs (s : State) (t : TileId) (n : Option CtxId) (e k : Nat) (q : Option Nat) (c : Nat) :
    (perfTile s t n e k q c).reqs = s.reqs :=
    (perfTile_regsOnly s t n e k q c).keeps State.reqs (fun _ => rfl)
@[simp] theorem perfTile_curLvl (s : State) (t : TileId) (n : Option CtxId) (e k : Nat) (q : Option Nat) (c : Nat) :
    (perfTile s t n e k q c).curLvl = s.curLvl :=
    (perfTile_regsOnly s t n e k q c).keeps State.curLvl (fun _ => rfl)
@[simp] theorem perfTile_fills (s : State) (t : TileId) (n : Option CtxId) (e k : Nat) (q : Option Nat) (c : Nat) :
    (perfTile s t n e k q c).fills = s.fills :=
    (perfTile_regsOnly s t n e k q c).keeps State.fills (fun _ => rfl)
@[simp] theorem perfTile_merges (s : State) (t : TileId) (n : Option CtxId) (e k : Nat) (q : Option Nat) (c : Nat) :
    (perfTile s t n e k q c).merges = s.merges :=
    (perfTile_regsOnly s t n e k q c).keeps State.merges (fun _ => rfl)
@[simp] theorem perfTile_stretchAt (s : State) (t : TileId) (n : Option CtxId) (e k : Nat) (q : Option Nat) (c : Nat) :
    (perfTile s t n e k q c).stretchAt = s.stretchAt :=
    (perfTile_regsOnly s t n e k q c).keeps State.stretchAt (fun _ => rfl)
@[simp] theorem perfTile_preSwitch (s : State) (t : TileId) (n : Option CtxId) (e k : Nat) (q : Option Nat) (c : Nat) :
    (perfTile s t n e k q c).preSwitch = s.preSwitch :=
    (perfTile_regsOnly s t n e k q c).keeps State.preSwitch (fun _ => rfl)
@[simp] theorem perfTile_dbgScope (s : State) (t : TileId) (n : Option CtxId) (e k : Nat) (q : Option Nat) (c : Nat) :
    (perfTile s t n e k q c).dbgScope = s.dbgScope :=
    (perfTile_regsOnly s t n e k q c).keeps State.dbgScope (fun _ => rfl)
@[simp] theorem perfTile_hzRing (s : State) (t : TileId) (n : Option CtxId) (e k : Nat) (q : Option Nat) (c : Nat) :
    (perfTile s t n e k q c).hzRing = s.hzRing :=
    (perfTile_regsOnly s t n e k q c).keeps State.hzRing (fun _ => rfl)
@[simp] theorem perfTile_hzSlots (s : State) (t : TileId) (n : Option CtxId) (e k : Nat) (q : Option Nat) (c : Nat) :
    (perfTile s t n e k q c).hzSlots = s.hzSlots :=
    (perfTile_regsOnly s t n e k q c).keeps State.hzSlots (fun _ => rfl)
@[simp] theorem perfTile_portUse (s : State) (t : TileId) (n : Option CtxId) (e k : Nat) (q : Option Nat) (c : Nat) :
    (perfTile s t n e k q c).portUse = s.portUse :=
    (perfTile_regsOnly s t n e k q c).keeps State.portUse (fun _ => rfl)
@[simp] theorem perfTile_tagCache (s : State) (t : TileId) (n : Option CtxId) (e k : Nat) (q : Option Nat) (c : Nat) :
    (perfTile s t n e k q c).tagCache = s.tagCache :=
    (perfTile_regsOnly s t n e k q c).keeps State.tagCache (fun _ => rfl)
@[simp] theorem perfTile_ctxInfo (s : State) (t : TileId) (n : Option CtxId) (e k : Nat) (q : Option Nat) (c : Nat) :
    (perfTile s t n e k q c).ctxInfo = s.ctxInfo :=
    (perfTile_regsOnly s t n e k q c).keeps State.ctxInfo (fun _ => rfl)
@[simp] theorem perfTile_gangs (s : State) (t : TileId) (n : Option CtxId) (e k : Nat) (q : Option Nat) (c : Nat) :
    (perfTile s t n e k q c).gangs = s.gangs :=
    (perfTile_regsOnly s t n e k q c).keeps State.gangs (fun _ => rfl)
@[simp] theorem perfTile_dupSeen (s : State) (t : TileId) (n : Option CtxId) (e k : Nat) (q : Option Nat) (c : Nat) :
    (perfTile s t n e k q c).dupSeen = s.dupSeen :=
    (perfTile_regsOnly s t n e k q c).keeps State.dupSeen (fun _ => rfl)
@[simp] theorem perfTile_gangSeen (s : State) (t : TileId) (n : Option CtxId) (e k : Nat) (q : Option Nat) (c : Nat) :
    (perfTile s t n e k q c).gangSeen = s.gangSeen :=
    (perfTile_regsOnly s t n e k q c).keeps State.gangSeen (fun _ => rfl)
@[simp] theorem perfTile_tick (s : State) (t : TileId) (n : Option CtxId) (e k : Nat) (q : Option Nat) (c : Nat) :
    (perfTile s t n e k q c).tick = s.tick :=
    (perfTile_regsOnly s t n e k q c).keeps State.tick (fun _ => rfl)
@[simp] theorem perfTile_resets (s : State) (t : TileId) (n : Option CtxId) (e k : Nat) (q : Option Nat) (c : Nat) :
    (perfTile s t n e k q c).resets = s.resets :=
    (perfTile_regsOnly s t n e k q c).keeps State.resets (fun _ => rfl)
@[simp] theorem perfTile_progress (s : State) (t : TileId) (n : Option CtxId) (e k : Nat) (q : Option Nat) (c : Nat) :
    (perfTile s t n e k q c).progress = s.progress :=
    (perfTile_regsOnly s t n e k q c).keeps State.progress (fun _ => rfl)
@[simp] theorem perfTile_watchSeen (s : State) (t : TileId) (n : Option CtxId) (e k : Nat) (q : Option Nat) (c : Nat) :
    (perfTile s t n e k q c).watchSeen = s.watchSeen :=
    (perfTile_regsOnly s t n e k q c).keeps State.watchSeen (fun _ => rfl)
@[simp] theorem perfTile_watchIdle (s : State) (t : TileId) (n : Option CtxId) (e k : Nat) (q : Option Nat) (c : Nat) :
    (perfTile s t n e k q c).watchIdle = s.watchIdle :=
    (perfTile_regsOnly s t n e k q c).keeps State.watchIdle (fun _ => rfl)
@[simp] theorem perfTile_openSeen (s : State) (t : TileId) (n : Option CtxId) (e k : Nat) (q : Option Nat) (c : Nat) :
    (perfTile s t n e k q c).openSeen = s.openSeen :=
    (perfTile_regsOnly s t n e k q c).keeps State.openSeen (fun _ => rfl)
@[simp] theorem perfTile_red (s : State) (t : TileId) (n : Option CtxId) (e k : Nat) (q : Option Nat) (c : Nat) :
    (perfTile s t n e k q c).red = s.red :=
    (perfTile_regsOnly s t n e k q c).keeps State.red (fun _ => rfl)
@[simp] theorem perfTile_dsp (s : State) (t : TileId) (n : Option CtxId) (e k : Nat) (q : Option Nat) (c : Nat) :
    (perfTile s t n e k q c).dsp = s.dsp :=
    (perfTile_regsOnly s t n e k q c).keeps State.dsp (fun _ => rfl)
@[simp] theorem perfTile_cas (s : State) (t : TileId) (n : Option CtxId) (e k : Nat) (q : Option Nat) (c : Nat) :
    (perfTile s t n e k q c).cas = s.cas :=
    (perfTile_regsOnly s t n e k q c).keeps State.cas (fun _ => rfl)
@[simp] theorem perfTile_casLast (s : State) (t : TileId) (n : Option CtxId) (e k : Nat) (q : Option Nat) (c : Nat) :
    (perfTile s t n e k q c).casLast = s.casLast :=
    (perfTile_regsOnly s t n e k q c).keeps State.casLast (fun _ => rfl)
@[simp] theorem perfTile_otp (s : State) (t : TileId) (n : Option CtxId) (e k : Nat) (q : Option Nat) (c : Nat) :
    (perfTile s t n e k q c).otp = s.otp :=
    (perfTile_regsOnly s t n e k q c).keeps State.otp (fun _ => rfl)
@[simp] theorem perfTile_flash (s : State) (t : TileId) (n : Option CtxId) (e k : Nat) (q : Option Nat) (c : Nat) :
    (perfTile s t n e k q c).flash = s.flash :=
    (perfTile_regsOnly s t n e k q c).keeps State.flash (fun _ => rfl)
@[simp] theorem perfTile_latch (s : State) (t : TileId) (n : Option CtxId) (e k : Nat) (q : Option Nat) (c : Nat) :
    (perfTile s t n e k q c).latch = s.latch :=
    (perfTile_regsOnly s t n e k q c).keeps State.latch (fun _ => rfl)
@[simp] theorem perfTile_ports (s : State) (t : TileId) (n : Option CtxId) (e k : Nat) (q : Option Nat) (c : Nat) :
    (perfTile s t n e k q c).ports = s.ports :=
    (perfTile_regsOnly s t n e k q c).keeps State.ports (fun _ => rfl)
@[simp] theorem perfTile_tx (s : State) (t : TileId) (n : Option CtxId) (e k : Nat) (q : Option Nat) (c : Nat) :
    (perfTile s t n e k q c).tx = s.tx :=
    (perfTile_regsOnly s t n e k q c).keeps State.tx (fun _ => rfl)
@[simp] theorem perfTile_gov (s : State) (t : TileId) (n : Option CtxId) (e k : Nat) (q : Option Nat) (c : Nat) :
    (perfTile s t n e k q c).gov = s.gov :=
    (perfTile_regsOnly s t n e k q c).keeps State.gov (fun _ => rfl)
@[simp] theorem perfTile_sup (s : State) (t : TileId) (n : Option CtxId) (e k : Nat) (q : Option Nat) (c : Nat) :
    (perfTile s t n e k q c).sup = s.sup :=
    (perfTile_regsOnly s t n e k q c).keeps State.sup (fun _ => rfl)
@[simp] theorem perfTile_bwWait (s : State) (t : TileId) (n : Option CtxId) (e k : Nat) (q : Option Nat) (c : Nat) :
    (perfTile s t n e k q c).bwWait = s.bwWait :=
    (perfTile_regsOnly s t n e k q c).keeps State.bwWait (fun _ => rfl)

/-! ## Thread registers -/

/-- A g register just written reads back; g0 reads 0. -/
theorem greg_setGreg (s : State) (t t' : TileId) (h h' : ThreadId) (r r' : Nat) (v : Word64) (hr : r < 32) (hr' : r' < 32) :
    greg (setGreg s t h r v) t' h' r' = if t' = t ∧ h' = h ∧ r' = r ∧ r ≠ 0 then v else greg s t' h' r' := by
  by_cases h0 : r = 0
  · simp [setGreg, h0]
  · by_cases e : t' = t ∧ h' = h ∧ r' = r
    · obtain ⟨rfl, rfl, rfl⟩ := e
      simp [greg, setGreg, h0]
    · have hk : keyThread t' h' * 32 + r' ≠ keyThread t h * 32 + r := by
        intro hk
        apply e
        have a1 := h.isLt
        have a2 := h'.isLt
        unfold keyThread at hk
        refine ⟨BitVec.eq_of_toNat_eq (by omega), BitVec.eq_of_toNat_eq (by omega), by omega⟩
      have e' : ¬(t' = t ∧ h' = h ∧ r' = r ∧ r ≠ 0) := fun x => e ⟨x.1, x.2.1, x.2.2.1⟩
      rw [if_neg e']
      simp [greg, setGreg, h0, SMap.get_set_ne _ s.gregs v hk]

end Sys2Proof.Machine
end

