-- ==== Sys2Proof/Laws/Issue.lean ====
section
/-! SUPPORT. The issue of an instruction: what it counts, when its effect is reached, and the advance of the PC. -/

namespace Sys2Proof.Machine

/-! ## Registers that the selected counters are not -/

theorem isPmc_below (t : TileId) (u off : Nat) (h : off < 0x2F80) : isPmc t (tileA u off) = false := by
  unfold isPmc tileA
  rw [Bool.and_eq_false_iff, decide_eq_false_iff_not, decide_eq_false_iff_not]
  omega

theorem isPmc_aThread (t u : TileId) (h : ThreadId) : isPmc t (aThread u h) = false :=
  isPmc_below t _ _ (by have := h.isLt; omega)

theorem isPmc_aTask (t u : TileId) (k : Nat) (hk : k < 8) : isPmc t (aTask u k) = false := isPmc_below t _ _ (by omega)

theorem isPmc_aBase (t u : TileId) (k : Nat) (hk : k < 8) : isPmc t (aBase u k) = false := isPmc_below t _ _ (by omega)

theorem isPmc_aBound (t u : TileId) (k : Nat) (hk : k < 8) : isPmc t (aBound u k) = false := isPmc_below t _ _ (by omega)

theorem isPmc_low (t : TileId) (a : Nat) (h : a < 0x10000000) : isPmc t a = false := by
  unfold isPmc tileA
  rw [Bool.and_eq_false_iff, decide_eq_false_iff_not, decide_eq_false_iff_not]
  omega

theorem threadTask_lt (s : State) (t : TileId) (h : ThreadId) : threadTask s t h < 8 := Nat.mod_lt _ (by decide)

/-! ## The counted state -/

theorem counted_regsOnly (s : State) (t : TileId) (h : ThreadId) : RegsOnly s (counted s t h) :=
  perfTile_regsOnly _ _ _ _ _ _ _

@[simp] theorem counted_fld_thread (s : State) (t u : TileId) (h j : ThreadId) (lo n : Nat) :
    fld (counted s t h) (aThread u j) lo n = fld s (aThread u j) lo n :=
  perfTile_fld _ _ _ _ _ _ _ _ _ _ (isPmc_aThread t u j)

theorem counted_fld_task (s : State) (t u : TileId) (h : ThreadId) (k lo n : Nat) (hk : k < 8) :
    fld (counted s t h) (aTask u k) lo n = fld s (aTask u k) lo n :=
  perfTile_fld _ _ _ _ _ _ _ _ _ _ (isPmc_aTask t u k hk)

theorem counted_reg_low (s : State) (t : TileId) (h : ThreadId) (a : Nat) (ha : a < 0x10000000) :
    reg (counted s t h) a = reg s a := perfTile_reg _ _ _ _ _ _ _ _ (isPmc_low t a ha)

@[simp] theorem counted_threadTask (s : State) (t : TileId) (h j : ThreadId) :
    threadTask (counted s t h) t j = threadTask s t j := by
  simp [threadTask]

@[simp] theorem counted_threadPc (s : State) (t : TileId) (h j : ThreadId) :
    threadPc (counted s t h) t j = threadPc s t j := by
  simp [threadPc]

@[simp] theorem counted_threadState (s : State) (t : TileId) (h j : ThreadId) :
    threadState (counted s t h) t j = threadState s t j := by
  simp [threadState]

@[simp] theorem counted_ilimit (s : State) (t : TileId) (h j : ThreadId) :
    taskIlimit (counted s t h) t (threadTask s t j) = taskIlimit s t (threadTask s t j) :=
  counted_fld_task _ _ _ _ _ _ _ (threadTask_lt s t j)

@[simp] theorem counted_ibase (s : State) (t : TileId) (h j : ThreadId) :
    taskIbase (counted s t h) t (threadTask s t j) = taskIbase s t (threadTask s t j) :=
  counted_fld_task _ _ _ _ _ _ _ (threadTask_lt s t j)

@[simp] theorem counted_taskCtx (s : State) (t : TileId) (h j : ThreadId) :
    taskCtx (counted s t h) t (threadTask s t j) = taskCtx s t (threadTask s t j) := by
  rw [taskCtx, counted_fld_task _ _ _ _ _ _ _ (threadTask_lt s t j), taskCtx]

@[simp] theorem counted_gregs (s : State) (t : TileId) (h : ThreadId) : (counted s t h).gregs = s.gregs :=
  (counted_regsOnly s t h).keeps State.gregs (fun _ => rfl)

@[simp] theorem counted_preds (s : State) (t : TileId) (h : ThreadId) : (counted s t h).preds = s.preds :=
  (counted_regsOnly s t h).keeps State.preds (fun _ => rfl)

@[simp] theorem counted_pcOut (s : State) (t : TileId) (h : ThreadId) : (counted s t h).pcOut = s.pcOut :=
  (counted_regsOnly s t h).keeps State.pcOut (fun _ => rfl)

@[simp] theorem counted_loads (s : State) (t : TileId) (h : ThreadId) : (counted s t h).loads = s.loads :=
  (counted_regsOnly s t h).keeps State.loads (fun _ => rfl)

@[simp] theorem counted_greg (s : State) (t u : TileId) (h j : ThreadId) (r : Nat) :
    greg (counted s t h) u j r = greg s u j r := by
  simp [greg]

@[simp] theorem counted_predOf (s : State) (t u : TileId) (h j : ThreadId) (p : Nat) :
    predOf (counted s t h) u j p = predOf s u j p := by
  simp [predOf]

/-! ## The effect is reached -/

theorem issue_can {s : State} {t : TileId} {h : ThreadId} {mine : Word64 → Bool} {body : Iss → State → State}
    (c : canIssue s t h = true) : issue s t h mine body = attempt s t h mine body := by
  simp [issue, c]

/-- The effect of an instruction that issues is its body on the counted state. -/
theorem issue_runs {s : State} {t : TileId} {h : ThreadId} {w : Word64} {mine : Word64 → Bool} {body : Iss → State → State}
    (i : Issues s t h w) (m : mine w = true) : issue s t h mine body = body (issOf s t h) (counted s t h) := by
  have hw := i.word
  have hg : guardOk (counted s t h) t h w = true := by
    have := i.guard
    simpa [guardOk] using this
  have hl : loadBlocks (counted s t h) t h w = false := by
    have := i.loads
    simpa [loadBlocks] using this
  rw [issue_can i.can]
  unfold attempt
  simp only [hw, i.fetch, i.enc, m]
  change (if !guardOk (counted s t h) t h w then (issOf s t h).next (counted s t h)
    else if loadBlocks (counted s t h) t h w then (issOf s t h).wait else body (issOf s t h) (counted s t h)) = _
  rw [hg, hl]
  rfl

theorem issue_cannot {s : State} {t : TileId} {h : ThreadId} {mine : Word64 → Bool} {body : Iss → State → State}
    (c : canIssue s t h = false) (d : canFault s t h = false) : issue s t h mine body = s := by
  simp [issue, c, d]

/-- Where another thread of the tile has made the context FAULTED in this cycle, a fault of its own is recorded, and nothing else
takes place. -/
theorem issue_late {s : State} {t : TileId} {h : ThreadId} {mine : Word64 → Bool} {body : Iss → State → State}
    (c : canIssue s t h = false) (d : canFault s t h = true) : issue s t h mine body =
      if threadState (attempt s t h mine body) t h = 4 then
        threadRecord s t h (fld (attempt s t h mine body) (aThread t h) 32 8) else s := by
  simp [issue, c, d]

theorem issue_fetch {s : State} {t : TileId} {h : ThreadId} {mine : Word64 → Bool} {body : Iss → State → State}
    (c : canIssue s t h = true) (f : fetchOut s t h = true) :
    issue s t h mine body = threadFault s t h cPcBound := by
  simp [issue_can c, attempt, f, Iss.fault, issOf]

theorem issue_enc {s : State} {t : TileId} {h : ThreadId} {mine : Word64 → Bool} {body : Iss → State → State}
    (c : canIssue s t h = true) (f : fetchOut s t h = false) (e : encOk (issOf s t h).w = false) :
    issue s t h mine body = threadFault s t h cIllegalEnc := by
  rw [issue_can c]
  unfold attempt
  simp only [f, e]
  rfl

/-- A false guard: the issue is counted and the thread goes on. -/
theorem issue_guard {s : State} {t : TileId} {h : ThreadId} {mine : Word64 → Bool} {body : Iss → State → State}
    (c : canIssue s t h = true) (f : fetchOut s t h = false) (e : encOk (issOf s t h).w = true)
    (m : mine (issOf s t h).w = true) (g : guardOk s t h (issOf s t h).w = false) :
    issue s t h mine body = (issOf s t h).next (counted s t h) := by
  have hg : guardOk (counted s t h) t h (issOf s t h).w = false := by simpa [guardOk] using g
  rw [issue_can c]
  unfold attempt
  simp only [f, e, m]
  change (if !guardOk (counted s t h) t h (issOf s t h).w then (issOf s t h).next (counted s t h) else _) = _
  rw [hg]
  rfl

theorem issue_loads {s : State} {t : TileId} {h : ThreadId} {mine : Word64 → Bool} {body : Iss → State → State}
    (c : canIssue s t h = true) (f : fetchOut s t h = false) (e : encOk (issOf s t h).w = true)
    (m : mine (issOf s t h).w = true) (g : guardOk s t h (issOf s t h).w = true)
    (l : loadBlocks s t h (issOf s t h).w = true) : issue s t h mine body = setThreadState s t h 2 := by
  have hg : guardOk (counted s t h) t h (issOf s t h).w = true := by simpa [guardOk] using g
  have hl : loadBlocks (counted s t h) t h (issOf s t h).w = true := by simpa [loadBlocks] using l
  rw [issue_can c]
  unfold attempt
  simp only [f, e, m]
  change (if !guardOk (counted s t h) t h (issOf s t h).w then _
    else if loadBlocks (counted s t h) t h (issOf s t h).w then (issOf s t h).wait else _) = _
  rw [hg, hl]
  rfl

/-! ## The advance of the PC -/

@[simp] theorem issOf_t (s : State) (t : TileId) (h : ThreadId) : (issOf s t h).t = t := rfl
@[simp] theorem issOf_h (s : State) (t : TileId) (h : ThreadId) : (issOf s t h).h = h := rfl
@[simp] theorem issOf_k (s : State) (t : TileId) (h : ThreadId) : (issOf s t h).k = threadTask s t h := rfl
@[simp] theorem issOf_n (s : State) (t : TileId) (h : ThreadId) : (issOf s t h).n = taskCtx s t (threadTask s t h) := rfl
@[simp] theorem issOf_pc (s : State) (t : TileId) (h : ThreadId) : (issOf s t h).pc = threadPc s t h := rfl
@[simp] theorem issOf_base (s : State) (t : TileId) (h : ThreadId) : (issOf s t h).base = s := rfl

/-- Falling through writes the PC and, at the last instruction, the mark of having run off. -/
theorem next_eq (x : Iss) (s : State) : x.next s =
    { setFld s (aThread x.t x.h) 8 13 ((x.pc + 1) % 8192) with
      pcOut := if x.pc + 1 < taskIlimit s x.t x.k - taskIbase s x.t x.k then s.pcOut
        else s.pcOut.set (fun _ => false) (keyThread x.t x.h) true } := by
  unfold Iss.next
  extract_lets lim s1
  split
  · rfl
  · rfl

theorem next_reg (x : Iss) (s : State) {a : Nat} (h : a ≠ aThread x.t x.h) : reg (x.next s) a = reg s a := by
  rw [next_eq]
  exact reg_setFld_ne s _ _ _ h

theorem next_fld (x : Iss) (s : State) {lo n : Nat} (h : lo + n ≤ 8 ∨ 21 ≤ lo) :
    fld (x.next s) (aThread x.t x.h) lo n = fld s (aThread x.t x.h) lo n := by
  rw [next_eq]
  exact fld_setFld_apart s _ _ _ _ _ _ (by decide) (by omega)

theorem next_pc (x : Iss) (s : State) : threadPc (x.next s) x.t x.h = (x.pc + 1) % 8192 := by
  rw [next_eq]
  have key := fld_setFld_same s (aThread x.t x.h) 8 13 ((x.pc + 1) % 8192) (by decide)
  rw [show 2 ^ 13 = 8192 from rfl, Nat.mod_mod] at key
  exact key

@[simp] theorem next_gregs (x : Iss) (s : State) : (x.next s).gregs = s.gregs := by
  rw [next_eq]
  rfl

@[simp] theorem next_preds (x : Iss) (s : State) : (x.next s).preds = s.preds := by
  rw [next_eq]
  rfl

theorem next_greg (x : Iss) (s : State) (t : TileId) (h : ThreadId) (r : Nat) : greg (x.next s) t h r = greg s t h r := by
  simp [greg, next_gregs]

theorem next_predOf (x : Iss) (s : State) (t : TileId) (h : ThreadId) (p : Nat) :
    predOf (x.next s) t h p = predOf s t h p := by
  simp [predOf, next_preds]

/-- The mark of having run off, after a fall through of a thread that had not. -/
theorem next_pcOut (x : Iss) (s : State) (ho : s.pcOut.get (fun _ => false) (keyThread x.t x.h) = false) :
    (x.next s).pcOut.get (fun _ => false) (keyThread x.t x.h) =
      !decide (x.pc + 1 < taskIlimit s x.t x.k - taskIbase s x.t x.k) := by
  rw [next_eq]
  dsimp only
  split
  · rename_i hl
    simpa [hl] using ho
  · rename_i hl
    simp [hl]

theorem aThread_ne_aTask (t u : TileId) (h : ThreadId) (k : Nat) (hk : k < 8) : aTask u k ≠ aThread t h := by
  unfold aTask aThread tileA
  omega

theorem next_task (x : Iss) (s : State) (u : TileId) (k lo n : Nat) (hk : k < 8) :
    fld (x.next s) (aTask u k) lo n = fld s (aTask u k) lo n := by
  rw [fld, next_reg x s (aThread_ne_aTask x.t u x.h k hk), fld]

/-- The PC of a thread whose fetch lies inside its task is below the size of the task's instructions. -/
theorem fetchOut_false {s : State} {t : TileId} {h : ThreadId} (f : fetchOut s t h = false) :
    s.pcOut.get (fun _ => false) (keyThread t h) = false ∧
      threadPc s t h < taskIlimit s t (threadTask s t h) - taskIbase s t (threadTask s t h) := by
  simpa [fetchOut] using f

/-- The thread falls through, from any state that its instruction has made without touching its PC, its task and its mark. -/
theorem next_advances {s v : State} {t : TileId} {h : ThreadId} (hf : fetchOut s t h = false)
    (hv : v.pcOut = s.pcOut)
    (hk : fld v (aThread t h) 4 3 = fld s (aThread t h) 4 3)
    (hl : ∀ k lo n, k < 8 → fld v (aTask t k) lo n = fld s (aTask t k) lo n) :
    Advances s ((issOf s t h).next v) t h := by
  have hk8 := threadTask_lt s t h
  obtain ⟨hp, hpc⟩ := fetchOut_false hf
  have ht : threadTask ((issOf s t h).next v) t h = threadTask s t h := by
    have := next_fld (issOf s t h) v (lo := 4) (n := 3) (by decide)
    simp only [issOf_t, issOf_h] at this
    simp [threadTask, this, hk]
  have hlim : ∀ lo n, fld ((issOf s t h).next v) (aTask t (threadTask s t h)) lo n =
      fld s (aTask t (threadTask s t h)) lo n := by
    intro lo n
    rw [next_task _ _ _ _ _ _ hk8, hl _ _ _ hk8]
  have hpcu := next_pc (issOf s t h) v
  simp only [issOf_t, issOf_h, issOf_pc] at hpcu
  refine ⟨hpcu, ?_⟩
  have ho := next_pcOut (issOf s t h) v (by simp only [issOf_t, issOf_h, hv, hp])
  simp only [issOf_t, issOf_h, issOf_k, issOf_pc, taskIlimit, taskIbase, hl _ _ _ hk8] at ho
  rw [fetchOut, ht, hpcu, ho]
  simp only [taskIlimit, taskIbase, hlim]
  by_cases hb : threadPc s t h + 1 < fld s (aTask t (threadTask s t h)) 21 14 - fld s (aTask t (threadTask s t h)) 8 13
  · have : (threadPc s t h + 1) % 8192 ≤ threadPc s t h + 1 := Nat.mod_le _ _
    simp [hb]
    omega
  · simp [hb]

theorem iss_next_reg {s v : State} {t : TileId} {h : ThreadId} {a : Nat} (ha : a ≠ aThread t h) :
    reg ((issOf s t h).next v) a = reg v a := next_reg (issOf s t h) v ha

theorem iss_next_fld {s v : State} {t : TileId} {h : ThreadId} {lo n : Nat} (hl : lo + n ≤ 8 ∨ 21 ≤ lo) :
    fld ((issOf s t h).next v) (aThread t h) lo n = fld v (aThread t h) lo n := next_fld (issOf s t h) v hl

/-- The whole effect of an instruction that writes registers of its thread and falls through: `v` is the counted state with
g registers and predicates written. -/
theorem thread_frame {s v : State} {t : TileId} {h : ThreadId} (hf : fetchOut s t h = false)
    (hv : v = { counted s t h with gregs := v.gregs, preds := v.preds }) :
    ThreadFrame s ((issOf s t h).next v) t h ∧ Advances s ((issOf s t h).next v) t h := by
  have hreg : ∀ a, reg v a = reg (counted s t h) a := by
    intro a
    rw [hv]
    rfl
  have hfld : ∀ a lo n, fld v a lo n = fld (counted s t h) a lo n := by
    intro a lo n
    rw [fld, hreg, fld]
  refine ⟨⟨?_, ?_, ?_⟩, ?_⟩
  · rw [next_eq, hv, counted_regsOnly s t h]
    rfl
  · intro a ha hp
    rw [iss_next_reg ha, hreg]
    exact perfTile_reg _ _ _ _ _ _ _ _ hp
  · intro lo n hl
    rw [iss_next_fld hl, hfld, counted_fld_thread]
  · refine next_advances hf ?_ ?_ ?_
    · rw [hv]
      simp
    · rw [hfld, counted_fld_thread]
    · intro k lo n hk
      rw [hfld, counted_fld_task _ _ _ _ _ _ _ hk]

/-- An instruction that writes one g register and falls through. -/
theorem scalar_done {s : State} {t : TileId} {h : ThreadId} {w : Word64} (i : Issues s t h w) {r : Nat} (hr : r < 32)
    (v : Word64) : ScalarDone s ((issOf s t h).next (setGreg (counted s t h) t h r v)) t h r v := by
  have f := thread_frame (v := setGreg (counted s t h) t h r v) i.fetch (by
    unfold setGreg
    split <;> rfl)
  refine ⟨f.1, f.2, ?_, ?_⟩
  · intro t' h' r' hr'
    rw [next_greg, greg_setGreg _ _ _ _ _ _ _ _ hr hr', counted_greg]
  · rw [next_preds, setGreg]
    split <;> simp


/-! ## Predicates and branches -/

/-- A field of a word is below two to its width. -/
theorem wf_lt (w : Word64) (lo n k : Nat) (h : 2^n ≤ k) : wf w lo n < k := Nat.lt_of_lt_of_le (Nat.mod_lt _ (Nat.two_pow_pos n)) h

/-- One bit of a predicate byte written. -/
theorem pred_bits : ∀ p p' o : Nat, p < 8 → p' < 8 → o < 256 → 
   ((o - ((o / 2^p) % 2) * 2^p + 2^p) % 256 / 2^p') % 2 = (if p' = p then 1 else (o / 2^p') % 2) ∧ 
   ((o - ((o / 2^p) % 2) * 2^p) % 256 / 2^p') % 2 = (if p' = p then 0 else (o / 2^p') % 2) := by
  intro p p' o hp hp' ho
  interval_cases p <;> interval_cases p' <;> simp <;> omega

/-- A predicate after a write of one. -/
theorem predOf_setPred (s : State) (t t' : TileId) (h h' : ThreadId) (p p' : Nat) (b : Bool) (hp : p < 8) (hp' : p' < 8) :
   predOf (setPred s t h p b) t' h' p' = if t' = t ∧ h' = h ∧ p' = p ∧ p ≠ 0 then b else predOf s t' h' p' := by
  by_cases h0 : p = 0
  · simp [setPred, h0]
  by_cases e : t' = t ∧ h' = h
  · obtain ⟨rfl, rfl⟩ := e
    by_cases h1 : p' = 0
    · have : ¬ p' = p := by omega
      simp [predOf, h1, setPred, h0]; exact Or.inl (fun h => h0 h.symm)
    have k := pred_bits p p' (SMap.get (fun _ => 0) s.preds (keyThread t' h')).toNat hp hp' (BitVec.isLt _)
    simp only [predOf, setPred, h0, beq_iff_eq, if_false, SMap.get_set_same,
      Nat.shiftRight_eq_div_pow, Nat.shiftLeft_eq, BitVec.toNat_ofNat]
    cases b
    · simp only [if_false, Bool.false_eq_true, Nat.add_zero, k.2]
      have hz : (p' == 0) = false := by simpa using h1
      simp only [hz, Bool.false_or]
      by_cases he : p' = p <;> simp [he, h0]
    · simp only [if_true, Nat.one_mul, k.1]
      have hz : (p' == 0) = false := by simpa using h1
      simp only [hz, Bool.false_or]
      by_cases he : p' = p <;> simp [he, h0]
  · have hk : keyThread t' h' ≠ keyThread t h := by
      intro hk
      apply e
      have a1 := h.isLt
      have a2 := h'.isLt
      unfold keyThread at hk
      exact ⟨BitVec.eq_of_toNat_eq (by omega), BitVec.eq_of_toNat_eq (by omega)⟩
    have e' : ¬(t' = t ∧ h' = h ∧ p' = p ∧ p ≠ 0) := fun x => e ⟨x.1, x.2.1⟩
    rw [if_neg e']
    simp [predOf, setPred, h0, SMap.get_set_ne _ s.preds _ hk]

/-- A predicate write touches the predicates only. -/
theorem setPred_rest (s : State) (t h p b) : setPred s t h p b = { s with preds := (setPred s t h p b).preds } := by
  unfold setPred; split <;> rfl

/-- The end of an instruction that writes one predicate. -/
theorem pred_done {s t h w} (i : Issues s t h w) {p : Nat} (hp : p < 8) (b : Bool) :
    ThreadFrame s ((issOf s t h).next (setPred (counted s t h) t h p b)) t h ∧ Advances s ((issOf s t h).next (setPred (counted s t h) t h p b)) t h ∧
    KeepsG s ((issOf s t h).next (setPred (counted s t h) t h p b)) ∧ WritesP s ((issOf s t h).next (setPred (counted s t h) t h p b)) t h p b := by
  have f := thread_frame (v := setPred (counted s t h) t h p b) i.fetch (by unfold setPred; split <;> rfl)
  refine ⟨f.1, f.2, ?_, ?_⟩
  · rw [KeepsG, next_gregs, setPred_rest]; simp
  · intro t' h' p' hp'
    rw [next_predOf, predOf_setPred _ _ _ _ _ _ _ _ hp hp', counted_predOf]

/-- A branch to a target. -/
theorem goto_spec {s v : State} {t : TileId} {h : ThreadId} (target : Int) (hf : fetchOut s t h = false)
    (hv : v = { counted s t h with gregs := v.gregs }) :
    ThreadFrame s ((issOf s t h).goto v target) t h ∧ Jumps s ((issOf s t h).goto v target) t h target ∧
    ((issOf s t h).goto v target).gregs = v.gregs ∧ ((issOf s t h).goto v target).preds = s.preds := by
  have hreg : ∀ a, reg v a = reg (counted s t h) a := by
    intro a; rw [hv]; rfl
  have hfld : ∀ a lo n, fld v a lo n = fld (counted s t h) a lo n := by
    intro a lo n; rw [fld, hreg, fld]
  have hk8 := threadTask_lt s t h
  obtain ⟨hp, hpc⟩ := fetchOut_false hf
  have hl1 : taskIlimit v t (threadTask s t h) = taskIlimit s t (threadTask s t h) := by
    rw [taskIlimit, hfld, counted_fld_task _ _ _ _ _ _ _ hk8, taskIlimit]
  have hl2 : taskIbase v t (threadTask s t h) = taskIbase s t (threadTask s t h) := by
    rw [taskIbase, hfld, counted_fld_task _ _ _ _ _ _ _ hk8, taskIbase]
  have hvp : v.pcOut = s.pcOut := by rw [hv]; simp
  have hvr : v.preds = s.preds := by rw [hv]; simp
  have hvs : v = { s with regs := v.regs, gregs := v.gregs } := by
    have hr : v.regs = (counted s t h).regs := by
      rw [hv]
    rw [hr]
    refine hv.trans ?_
    conv_lhs => rw [counted_regsOnly s t h]
  unfold Iss.goto
  simp only [issOf_t, issOf_h, issOf_k, hl1, hl2]
  split
  · rename_i hin
    have hne : ∀ k, k < 8 → aTask t k ≠ aThread t h := fun k hk => aThread_ne_aTask t t h k hk
    have hpcu : threadPc (setFld v (aThread t h) 8 13 target.toNat) t h = target.toNat % 8192 := fld_setFld_same v _ _ _ _ (by decide)
    have hth : threadTask (setFld v (aThread t h) 8 13 target.toNat) t h = threadTask s t h := by
      rw [threadTask, fld_setFld_apart v _ _ _ _ _ _ (by decide) (by decide), hfld, counted_fld_thread, threadTask]
    have hlm : ∀ lo n, fld (setFld v (aThread t h) 8 13 target.toNat) (aTask t (threadTask s t h)) lo n = fld s (aTask t (threadTask s t h)) lo n := by
      intro lo n
      rw [fld_setFld_ne v _ _ _ _ _ (hne _ hk8), hfld, counted_fld_task _ _ _ _ _ _ _ hk8]
    refine ⟨⟨?_, ?_, ?_⟩, ⟨fun _ => ⟨hpcu, ?_⟩, fun c => absurd hin c⟩, rfl, by simp [hvr]⟩
    · conv_lhs => rw [hvs]
      simp [setFld, setReg, hvr, hvp, reg]
    · intro a ha hpm
      rw [reg_setFld_ne v _ _ _ ha, hreg]
      exact perfTile_reg _ _ _ _ _ _ _ _ hpm
    · intro lo n hl
      rw [fld_setFld_apart v _ _ _ _ _ _ (by decide) (by omega), hfld, counted_fld_thread]
    · rw [fetchOut, hth, hpcu]
      simp only [setFld_pcOut, hvp, hp, Bool.false_or, taskIlimit, taskIbase, hlm]
      have : target.toNat % 8192 ≤ target.toNat := Nat.mod_le _ _
      simp only [taskIlimit, taskIbase] at hin
      simp
      omega
  · rename_i hin
    refine ⟨⟨?_, ?_, ?_⟩, ⟨fun c => absurd c hin, fun _ => ⟨?_, ?_⟩⟩, rfl, by simp [hvr]⟩
    · conv_lhs => rw [hvs]
      simp [hvr, hvp]
    · intro a ha hpm
      show reg v a = _
      rw [hreg]
      exact perfTile_reg _ _ _ _ _ _ _ _ hpm
    · intro lo n hl
      show fld v _ _ _ = _
      rw [hfld, counted_fld_thread]
    · show fld v _ _ _ = _
      rw [hfld, counted_fld_thread, threadPc]
    · simp [fetchOut]

/-- A g register write touches the g registers only. -/
theorem setGreg_rest (s : State) (t h r v) : setGreg s t h r v = { s with gregs := (setGreg s t h r v).gregs } := by
  unfold setGreg; split <;> rfl

/-- The end of a branch that writes one g register. -/
theorem jump_done {s t h w} (i : Issues s t h w) {r : Nat} (hr : r < 32) (v : Word64) (target : Int) :
    ThreadFrame s ((issOf s t h).goto (setGreg (counted s t h) t h r v) target) t h ∧
     ((issOf s t h).goto (setGreg (counted s t h) t h r v) target).preds = s.preds ∧
     WritesG s ((issOf s t h).goto (setGreg (counted s t h) t h r v) target) t h r v ∧
     Jumps s ((issOf s t h).goto (setGreg (counted s t h) t h r v) target) t h target := by
  obtain ⟨a, b, c, d⟩ := goto_spec (v := setGreg (counted s t h) t h r v) target i.fetch (setGreg_rest _ _ _ _ _)
  refine ⟨a, d, ?_, b⟩
  intro t' h' r' hr'
  have := greg_setGreg (counted s t h) t t' h h' r r' v hr hr'
  rw [counted_greg] at this
  rw [← this, greg, c, greg]

end Sys2Proof.Machine
end

