-- ==== Sys2Proof/Laws/Scratch.lean ====
section
/-! SUPPORT. The scratchpad: what the error record and a write touch, that the row map is one to one, and a byte read after
a write. -/

namespace Sys2Proof.Machine

/-! ## Error records -/

/-- An update that touches the error record of a tile: its register and the rows that Lintel follows. -/
structure EccOnly (t : TileId) (s u : State) : Prop where
  rest : u = { s with regs := u.regs, gov := u.gov }
  regs : ∀ a, a ≠ aEcc t → reg u a = reg s a

theorem EccOnly.refl (t : TileId) (s : State) : EccOnly t s s := ⟨rfl, fun _ _ => rfl⟩

theorem EccOnly.trans {t : TileId} {s u v : State} (h : EccOnly t s u) (k : EccOnly t u v) : EccOnly t s v := by
  refine ⟨?_, fun a ha => (k.regs a ha).trans (h.regs a ha)⟩
  have hk := k.rest
  have hh := h.rest
  rw [hk, hh]

theorem EccOnly.keeps {β : Type} {t : TileId} {s u : State} (h : EccOnly t s u) (f : State → β)
    (hf : ∀ r g, f { s with regs := r, gov := g } = f s) : f u = f s := by
  rw [h.rest]
  exact hf _ _

theorem setFld_eccOnly (t : TileId) (s : State) (lo w x : Nat) : EccOnly t s (setFld s (aEcc t) lo w x) :=
  ⟨rfl, fun _ ha => reg_setFld_ne s _ _ _ ha⟩

theorem satAdd_eccOnly (t : TileId) (s : State) (lo w n : Nat) : EccOnly t s (satAdd s (aEcc t) lo w n) :=
  setFld_eccOnly t s lo w _

theorem gov_eccOnly (t : TileId) (s : State) (g : Gov) : EccOnly t s { s with gov := g } := ⟨rfl, fun _ _ => rfl⟩

theorem ite_eccOnly {t : TileId} {c : Prop} [Decidable c] {s u v : State} (h : EccOnly t s u) (k : EccOnly t s v) :
    EccOnly t s (if c then u else v) := by
  split <;> assumption

theorem eccRecord_eccOnly (s : State) (t : TileId) (pa : Nat) (ue : Bool) : EccOnly t s (eccRecord s t pa ue) := by
  unfold eccRecord
  extract_lets a key g s1 s2 ce u
  have h1 : EccOnly t s s1 := ite_eccOnly (gov_eccOnly t s _) (gov_eccOnly t s _)
  have h2 : EccOnly t s s2 := h1.trans (ite_eccOnly (EccOnly.refl t s1) (satAdd_eccOnly t s1 _ _ _))
  split
  · exact h2.trans (satAdd_eccOnly t s2 _ _ _)
  · exact (((h2.trans (ite_eccOnly (setFld_eccOnly t s2 _ _ _) (EccOnly.refl t s2))).trans
      (setFld_eccOnly t _ _ _ _)).trans (setFld_eccOnly t _ _ _ _)).trans (setFld_eccOnly t _ _ _ _)

/-- The record that a read leaves touches the error record only. -/
theorem eccRead_eccOnly (s : State) (t : TileId) (pa len : Nat) : EccOnly t s (eccRead s t pa len) := by
  unfold eccRead
  generalize granules pa len = l
  induction l generalizing s with
  | nil => exact EccOnly.refl t s
  | cons g l ih =>
    rw [List.foldl_cons]
    refine EccOnly.trans ?_ (ih _)
    extract_lets m
    split
    · exact eccRecord_eccOnly _ _ _ _
    · split
      · exact eccRecord_eccOnly _ _ _ _
      · exact EccOnly.refl t s

/-! ## The row map -/

theorem aRmap_ne_aEcc (t u : TileId) (bank e : Nat) (hb : bank < 16) (he : e < 16) : aRmap u bank e ≠ aEcc t := by
  unfold aRmap aEcc tileA
  omega

/-- A mapped row is a row of its own: 0 to 1,023 as it stands, a spare above. -/
theorem mapRow_inj (s : State) (t : TileId) (bank : Nat) {r r' : Nat} (h : r < 1024) (h' : r' < 1024)
    (e : mapRow s t bank r = mapRow s t bank r') : r = r' := by
  unfold mapRow at e
  cases hf : (List.range 16).find? (fun e => fld s (aRmap t bank e) 0 1 == 1 && fld s (aRmap t bank e) 4 10 == r) with
  | none =>
    cases hf' : (List.range 16).find? (fun e => fld s (aRmap t bank e) 0 1 == 1 && fld s (aRmap t bank e) 4 10 == r') with
    | none => simpa [hf, hf'] using e
    | some j =>
      simp only [hf, hf'] at e
      omega
  | some i =>
    cases hf' : (List.range 16).find? (fun e => fld s (aRmap t bank e) 0 1 == 1 && fld s (aRmap t bank e) 4 10 == r') with
    | none =>
      simp only [hf, hf'] at e
      omega
    | some j =>
      simp only [hf, hf'] at e
      have hij : i = j := by omega
      have a := List.find?_some hf
      have b := List.find?_some hf'
      rw [hij] at a
      simp only [Bool.and_eq_true, beq_iff_eq] at a b
      exact a.2.symm.trans b.2

theorem mapRow_lt (s : State) (t : TileId) (bank r : Nat) (h : r < 1024) : mapRow s t bank r < 1040 := by
  unfold mapRow
  split
  · rename_i e he
    have := List.mem_range.mp (List.mem_of_find?_eq_some he)
    omega
  · omega

/-- The keys of scratchpad bytes are one to one. -/
theorem spKey_inj (s : State) {t t' : TileId} {a a' : Nat} (h : a < 2 ^ 21) (h' : a' < 2 ^ 21)
    (e : spKey s t a = spKey s t' a') : t = t' ∧ a = a' := by
  have b1 := mapRow_lt s t (a / 128 % 16) (a / 2048) (by omega)
  have b2 := mapRow_lt s t' (a' / 128 % 16) (a' / 2048) (by omega)
  unfold spKey at e
  have ht : t = t' := BitVec.eq_of_toNat_eq (by omega)
  subst ht
  have hm : a % 2048 = a' % 2048 := by omega
  have hbank : a / 128 % 16 = a' / 128 % 16 := by omega
  have hr : mapRow s t (a / 128 % 16) (a / 2048) = mapRow s t (a' / 128 % 16) (a' / 2048) := by omega
  rw [hbank] at hr
  have := mapRow_inj s t _ (by omega) (by omega) hr
  exact ⟨rfl, by omega⟩

/-- The row map is read through registers that an error record leaves. -/
theorem EccOnly.spKey {t : TileId} {s u : State} (h : EccOnly t s u) (t' : TileId) (a : Nat) :
    Machine.spKey u t' a = Machine.spKey s t' a := by
  have hm : ∀ bank row, bank < 16 → mapRow u t' bank row = mapRow s t' bank row := by
    intro bank row hb
    unfold mapRow
    have : (List.range 16).find? (fun e => fld u (aRmap t' bank e) 0 1 == 1 && fld u (aRmap t' bank e) 4 10 == row) =
        (List.range 16).find? (fun e => fld s (aRmap t' bank e) 0 1 == 1 && fld s (aRmap t' bank e) 4 10 == row) := by
      apply List.find?_congr
      intro e he
      have hne := aRmap_ne_aEcc t t' bank e hb (List.mem_range.mp he)
      simp [fld, h.regs _ hne]
    rw [this]
  unfold Machine.spKey
  rw [hm _ _ (Nat.mod_lt _ (by decide))]

/-! ## Writes -/

/-- A key that none of the bytes of a list is written to keeps its value. -/
theorem get_writes_ne (key : Nat → Nat) (k : Nat) (bs : List Byte) (n : Nat)
    (hk : ∀ i, n ≤ i → i < n + bs.length → key i ≠ k) (m : SMap Byte) :
    SMap.get spDef ((bs.zipIdx n).foldl (fun m e => SMap.set spDef m (key e.2) e.1) m) k = SMap.get spDef m k := by
  induction bs generalizing m n with
  | nil => rfl
  | cons b bs ih =>
    rw [List.zipIdx_cons, List.foldl_cons,
      ih (n + 1) (fun i h1 h2 => hk i (by omega) (by simp only [List.length_cons]; omega))]
    exact SMap.get_set_ne spDef m b (fun c => hk n (le_refl _) (by simp) c.symm)

/-- The bytes of a list written to keys that are one to one read back. -/
theorem get_writes (key : Nat → Nat) (bs : List Byte) (n : Nat)
    (hk : ∀ i j, i < n + bs.length → j < n + bs.length → key i = key j → i = j) (m : SMap Byte) (j : Nat)
    (hj : j < bs.length) :
    SMap.get spDef ((bs.zipIdx n).foldl (fun m e => SMap.set spDef m (key e.2) e.1) m) (key (n + j)) = bs.getD j 0 := by
  induction bs generalizing m n j with
  | nil => simp at hj
  | cons b bs ih =>
    rw [List.zipIdx_cons, List.foldl_cons]
    simp only [List.length_cons] at hk hj
    cases j with
    | zero =>
      rw [get_writes_ne key (key (n + 0)) bs (n + 1)
        (fun i h1 h2 c => by have := hk i (n + 0) (by omega) (by omega) c; omega)]
      simp
    | succ j =>
      have e : n + (j + 1) = n + 1 + j := by omega
      rw [e, ih (n + 1) (fun i j h1 h2 => hk i j (by omega) (by omega)) _ j (by omega)]
      simp

/-- An update that leaves the bytes of the scratchpads and where they stand. -/
structure BytesKept (s u : State) : Prop where
  sp : u.sp = s.sp
  key : ∀ t a, spKey u t a = spKey s t a

theorem BytesKept.trans {s u v : State} (h : BytesKept s u) (k : BytesKept u v) : BytesKept s v :=
  ⟨k.sp.trans h.sp, fun t a => (k.key t a).trans (h.key t a)⟩

theorem EccOnly.bytesKept {t : TileId} {s u : State} (h : EccOnly t s u) : BytesKept s u :=
  ⟨h.keeps State.sp (fun _ _ => rfl), h.spKey⟩

theorem setMark_bytesKept (s : State) (t : TileId) (g m : Nat) : BytesKept s (setMark s t g m) := ⟨rfl, fun _ _ => rfl⟩

/-- The byte of a scratchpad after a write: the byte written inside the range of the tile, else the byte it had. -/
theorem spWrite_spByte (s : State) (t t' : TileId) (pa a : Nat) (bs : List Byte) (poison : Bool)
    (hp : pa + bs.length ≤ 2 ^ 21) (ha : a < 2 ^ 21) :
    spByte (spWrite s t pa bs poison) t' a =
      if t' = t ∧ pa ≤ a ∧ a < pa + bs.length then bs.getD (a - pa) 0 else spByte s t' a := by
  unfold spWrite spMerge
  extract_lets len s1
  have h1 : BytesKept s s1 := by
    suffices h : ∀ (l : List Nat) (u : State), BytesKept s u → BytesKept s (l.foldl (fun s g =>
        let whole := decide (pa ≤ g * 32 ∧ g * 32 + 32 ≤ pa + len)
        let m := spMarkAt s t (g * 32)
        let s := if whole || !true then s
          else if m == 2 then eccRecord s t (g * 32) true
          else if m == 3 then eccRecord s t (g * 32) false else s
        if poison then setMark s t g 1
        else if whole then setMark s t g 0
        else if m == 2 then setMark s t g 1
        else if m == 3 then setMark s t g 0 else s) u) from h _ s ⟨rfl, fun _ _ => rfl⟩
    intro l
    induction l with
    | nil => exact fun u hu => hu
    | cons g l ih =>
      intro u hu
      rw [List.foldl_cons]
      apply ih
      extract_lets whole m u2
      have h2 : BytesKept s u2 := by
        unfold u2
        split
        · exact hu
        split
        · exact hu.trans (eccRecord_eccOnly u t (g * 32) true).bytesKept
        split
        · exact hu.trans (eccRecord_eccOnly u t (g * 32) false).bytesKept
        · exact hu
      split
      · exact h2.trans (setMark_bytesKept u2 t g 1)
      split
      · exact h2.trans (setMark_bytesKept u2 t g 0)
      split
      · exact h2.trans (setMark_bytesKept u2 t g 1)
      split
      · exact h2.trans (setMark_bytesKept u2 t g 0)
      · exact h2
  generalize s1 = u at h1
  have hk : ∀ x, Machine.spKey { u with sp := bs.zipIdx.foldl (fun m e => SMap.set spDef m (Machine.spKey u t (pa + e.2)) e.1) u.sp } t' x =
      Machine.spKey s t' x := fun x => h1.key t' x
  rw [spByte, hk, spByte]
  show SMap.get spDef (bs.zipIdx.foldl (fun m e => SMap.set spDef m (Machine.spKey u t (pa + e.2)) e.1) u.sp) _ = _
  simp only [h1.key, h1.sp]
  split
  · rename_i hin
    obtain ⟨rfl, hlo, hhi⟩ := hin
    have := get_writes (fun i => Machine.spKey s t' (pa + i)) bs 0 (fun i j hi hj e => by
      have := (spKey_inj s (by omega) (by omega) e).2
      omega) s.sp (a - pa) (by omega)
    rwa [show pa + (0 + (a - pa)) = a by omega] at this
  · rename_i hout
    apply get_writes_ne (fun i => Machine.spKey s t (pa + i))
    intro i h1 h2 c
    have := spKey_inj s (by omega) ha c
    exact hout ⟨this.1.symm, by omega, by omega⟩

end Sys2Proof.Machine
end

