-- ==== Sys2Proof/Laws/Ucb.lean ====
section
/-! SUPPORT. The commands of a UCB queue: what an accepted command runs, and what the end of a command touches. -/

namespace Sys2Proof.Machine

/-- A command taken runs through the checks of R41 in the state that took it. -/
theorem command_takes {s v : State} {p : Page} {op : Nat} {c : Cmd} (t : Takes s p op c v) (body : Cmd → State → State) :
    command op p body s = takeIn v c body := by
  cases t with
  | held c later first ready is order =>
    have mt : mayTake op s p c.entry = true := by simp [mayTake, is, order]
    unfold command
    extract_lets inReset
    have hb : inReset = false := ready
    simp [hb, later, first, takeHeld, mt]
  | host w s' e none' ready cover read is order =>
    have mt : mayTake op s p e = true := by simp [mayTake, is, order]
    have th : takeHead op p body s = takeIn (advanceHead { s' with
        cmds := s'.cmds ++ [⟨s'.nextId, p, w.ctx, .host w.q, e, true, [], stOk, none, BitVec.ofNat 16 (qHead s p), s.tick⟩],
        nextId := s'.nextId + 1 } p)
        ⟨s'.nextId, p, w.ctx, .host w.q, e, true, [], stOk, none, BitVec.ofNat 16 (qHead s p), s.tick⟩ body := by
      simp [takeHead, cover, read, mt]
    unfold command
    extract_lets inReset
    have hb : inReset = false := ready
    rcases none' with h | h
    · simp [hb, h, th]
    · cases hc : headAtOnce op s p <;> simp [hb, h, th]

theorem Takes.op {s v : State} {p : Page} {op : Nat} {c : Cmd} (t : Takes s p op c v) : (entryOp c.entry).toNat = op := by
  cases t <;> assumption

/-- An accepted command runs its own effect. -/
theorem command_runs {s v : State} {p : Page} {op : Nat} {c : Cmd} (a : Accepts s p op c v) (body : Cmd → State → State) :
    command op p body s = body c v := by
  rw [command_takes a.takes]
  unfold takeIn
  simp only [a.takes.op, a.wellFormed, a.inRange, a.legal, a.also]
  rcases a.inService with h | h | h <;> simp [h]

theorem viaGang_other {c : Cmd} (h : pageKind c.page ≠ 3) (body : Cmd → State → State) (s : State) :
    viaGang body c s = body c s := by
  unfold viaGang
  split
  · rename_i e
    rw [e] at h
    exact absurd rfl h
  · rfl

theorem viaGang_gang {c : Cmd} {n : CtxId} (h : c.page = .gang n) (body : Cmd → State → State) (s : State) :
    viaGang body c s = passGang s c := by
  unfold viaGang
  rw [h]

/-! ## The end of a command -/

/-- Counting an event of a module engine touches the registers alone. -/
theorem perfMod_regsOnly (s : State) (n : Option CtxId) (e k : Nat) (q : Option Nat) (c : Nat) :
    RegsOnly s (perfMod s n e k q c) := by
  refine foldl_regsOnly (fun s j => ?_) _ s
  split
  · exact satAdd_regsOnly _ _ _ _ _
  · exact RegsOnly.refl _

/-- Counting an event of a module engine leaves every register but the module's selected counters. -/
theorem perfMod_reg (s : State) (n : Option CtxId) (e k : Nat) (q : Option Nat) (c a : Nat)
    (h : ¬(modG 0x4180 ≤ a ∧ a < modG 0x41C0)) : reg (perfMod s n e k q c) a = reg s a := by
  have key : ∀ (l : List Nat) (s : State), (∀ j ∈ l, j < 8) →
      reg (l.foldl (fun s j => if selCounts (reg s (modG (0x4140 + 8 * j))) n e k q
        then satAdd s (modG (0x4180 + 8 * j)) 0 64 c else s) s) a = reg s a := by
    intro l
    induction l with
    | nil => intro s _; rfl
    | cons j l ih =>
      intro s hl
      rw [List.foldl_cons, ih _ (fun i hi => hl i (List.mem_cons_of_mem _ hi))]
      split
      · refine reg_setFld_ne s 0 64 _ ?_
        intro e
        have hj := hl j List.mem_cons_self
        subst e
        simp only [modG] at h
        omega
      · rfl
  exact key _ s (fun j hj => List.mem_range.mp hj)

theorem EndsOnly.trans {s u v : State} {c : Cmd} (h : EndsOnly s u c) (k : EndsOnly u v c) : EndsOnly s v c := by
  refine ⟨?_, fun a h1 h2 h3 h4 => (k.regs a h1 h2 h3 h4).trans (h.regs a h1 h2 h3 h4)⟩
  have hh := h.rest
  have hk := k.rest
  rw [hk, hh]

theorem RegsOnly.endsOnly {s u : State} {c : Cmd} (h : RegsOnly s u)
    (hr : ∀ a, a ≠ pageA c.page + 0x30 → a ≠ pageA c.page + 0x38 → ¬(modG 0x4180 ≤ a ∧ a < modG 0x41C0) →
      (∀ q, c.src = .host q → a ≠ aPair q) → reg u a = reg s a) : EndsOnly s u c := by
  refine ⟨?_, hr⟩
  unfold RegsOnly at h
  rw [h]

/-- A completion entry waits to leave for its queue; only its pair's count, the selected counters and the bandwidth count change. -/
theorem postCq_endsOnly (s : State) (c : Cmd) (e : CqEntry) (h : c.src = .host e.q) : EndsOnly s (postCq s e) c := by
  unfold postCq
  split
  · refine RegsOnly.endsOnly (satAdd_regsOnly _ _ _ _ _) (fun a _ _ _ hp => reg_setFld_ne s _ _ _ (hp _ h))
  · extract_lets s1
    have h1 : EndsOnly s s1 c := by
      have hm : EndsOnly s (perfMod s (some e.ctx) 15 0x11 (some e.q.toNat) 1) c :=
        RegsOnly.endsOnly (perfMod_regsOnly _ _ _ _ _ _) (fun a _ _ hc _ => perfMod_reg s _ _ _ _ _ a hc)
      exact hm.trans ⟨rfl, fun _ _ _ _ _ => rfl⟩
    exact h1.trans ⟨rfl, fun _ _ _ _ _ => rfl⟩

theorem deliver_endsOnly (s : State) (c : Cmd) (st : Byte) (w0 w1 w2 : Word64) :
    EndsOnly s (deliver s c st w0 w1 w2) c := by
  unfold deliver
  extract_lets tag
  split
  · rename_i q hq
    exact postCq_endsOnly s c _ hq
  · exact ⟨rfl, fun _ _ _ _ _ => rfl⟩
  · exact ⟨rfl, fun _ _ _ _ _ => rfl⟩
  · exact ⟨rfl, fun _ _ _ _ _ => rfl⟩

theorem errRecord_endsOnly (s : State) (c : Cmd) (w : Word64) : EndsOnly s (errRecord s c.page w) c := by
  unfold errRecord
  extract_lets a
  split
  · exact RegsOnly.endsOnly (satAdd_regsOnly _ _ _ _ _) (fun b h1 _ _ _ => reg_setFld_ne s _ _ _ h1)
  · refine RegsOnly.endsOnly ((setFld_regsOnly s a 48 1 1).trans (setReg_regsOnly _ _ _)) (fun b h1 h2 _ _ => ?_)
    rw [reg_setReg_ne _ _ h2, reg_setFld_ne s _ _ _ h1]

/-- The end of a command touches no more than `EndsOnly` says. -/
theorem complete_endsOnly (s : State) (c : Cmd) (st : Byte) (unit : BitVec 32) : EndsOnly s (complete s c st unit) c := by
  unfold complete
  extract_lets s1 w
  have h1 : EndsOnly s s1 c := ⟨rfl, fun _ _ _ _ _ => rfl⟩
  split
  · exact h1.trans (deliver_endsOnly _ _ _ _ _ _)
  · exact (h1.trans (errRecord_endsOnly _ _ _)).trans (deliver_endsOnly _ _ _ _ _ _)

end Sys2Proof.Machine
end

