-- ==== Sys2Proof/Tests/Slice0.lean ====
section
/-! SUPPORT. The model's own tests: for every statement with hypotheses a state that meets them, and small checks of effects
worked out from the manual by hand. -/

namespace Sys2Proof.Tests

set_option Elab.async false

open Sys2Proof.Machine

/-- The state after reset with the 48 V input on. -/
def on : State := { State.reset with sup := { State.reset.sup with inputOn := true } }

/-- A state with some registers set. -/
def mk (rs : List (Nat × Word64)) : State := rs.foldl (fun s r => setReg s r.1 r.2) on

/-- Normal service, Latch READY with random values and signatures, every ring its own domain, context 1 in state `st`. -/
def served (st : Word64) : List (Nat × Word64) :=
  [(aRstStatus, 1), (aLatch, 0xD), (aShtMap, 0xFEDCBA9876543210), (aCtx 1, st), (aMemFree, 289792)]

/-- The word of major opcode `m` with the bits `x`. -/
def word (m x : Nat) : Word64 := BitVec.ofNat 64 (m * 2 ^ 58 + x)

/-- A format E word. -/
def wordE (m mi x : Nat) : Word64 := BitVec.ofNat 64 (m * 2 ^ 58 + mi * 2 ^ 48 + x)

/-- Task 0 of tile 0 belongs to context 1, with 16 instructions and 64 KiB of scratchpad; threads 0 and 1 are its slots, and
thread 0 stands before the word. -/
def thr (w : Word64) : State := { mk (served 3 ++
    [(aTask 0 0, BitVec.ofNat 64 (1 + 2 * 1 + 16 * 2 ^ 21)), (aBound 0 0, BitVec.ofNat 64 (32 * 2 ^ 11)), (aThread 0 0, 1)]) with
  imem := [(0, w)], tslots := [(0, 3)], gregs := [(1, 5), (2, 0x40), (3, 1)] }

/-- What a command leaves. -/
def after (i : Instr) (s : State) : State := match exec i s with | .next t => t | _ => s

/-- The conditions of `Issues`, as one test. -/
def issuesB (s : State) (w : Word64) : Bool :=
  canIssue s 0 0 && !fetchOut s 0 0 && (issOf s 0 0).w == w && encOk w && guardOk s 0 0 w && !loadBlocks s 0 0 w

theorem issues_of {s : State} {w : Word64} (h : issuesB s w = true) : Issues s 0 0 w := by
  simp only [issuesB, Bool.and_eq_true, beq_iff_eq, Bool.not_eq_true'] at h
  obtain ⟨⟨⟨⟨⟨a, b⟩, c⟩, d⟩, e⟩, f⟩ := h
  exact ⟨a, b, c, d, e, f⟩

/-- A copy of a command of context 1 that waits at a page. -/
def held (p : Page) (e : List Byte) : Cmd := ⟨7, p, 1, .copy 3, e, false, [], stOk, none, 0, 0⟩

/-- An entry: its opcode, its operand bytes from byte 8 on, zeros to 64 B. -/
def entry (op : Byte) (x : List Byte) : List Byte := op :: (List.replicate 7 0 ++ x ++ List.replicate (56 - x.length) 0)

/-- A state in which the copy waits at its page. -/
def waits (s : State) (c : Cmd) : State := { s with cmds := [c] }

/-- The opcode of the command that waits. -/
def opOf (s : State) : Nat := match s.cmds with
  | c :: _ => (entryOp c.entry).toNat
  | [] => 0

/-- The command taken, and the state in which its checks begin. -/
def cmdOf (s : State) (p : Page) : Cmd := match nextHeld s p (opOf s) with
  | some c => { c with taken := true, since := s.tick }
  | none => held p []
def takenOf (s : State) (p : Page) : State :=
  { s with cmds := s.cmds.map (fun x => if x.id == (cmdOf s p).id then cmdOf s p else x) }

/-- The conditions of `Accepts` for a copy that waits, as one test. -/
def acceptsB (s : State) (p : Page) (op : Nat) : Bool :=
  let c := cmdOf s p
  let v := takenOf s p
  opOf s == op && !headAtOnce op s p && !seekBeyond v c && (nextHeld s p (opOf s)).isSome && !pageReset s p &&
    (entryOp c.entry).toNat == op && orderOk s p c.entry &&
    entryOk v c.page (isCode c) c.entry && (!pageFenced v c.page || op == 0 || op == 0x11) && legalIn op (ctxState v c.ctx) &&
    legalElse v c.ctx op

theorem accepts_of {s : State} {p : Page} {op : Nat} (h : acceptsB s p op = true) :
    Accepts s p op (cmdOf s p) (takenOf s p) := by
  simp only [acceptsB, Bool.and_eq_true, Bool.not_eq_true', beq_iff_eq, Bool.or_eq_true] at h
  obtain ⟨⟨⟨⟨⟨⟨⟨⟨⟨⟨o, l⟩, k⟩, a⟩, b⟩, c⟩, d⟩, e⟩, f⟩, g⟩, i⟩ := h
  subst o
  obtain ⟨x, hx⟩ := Option.isSome_iff_exists.mp a
  have hc : cmdOf s p = { x with taken := true, since := s.tick } := by simp [cmdOf, hx]
  refine ⟨?_, e, k, by rcases f with (f | f) | f <;> simp [f], g, i⟩
  have ht : takenOf s p = { s with cmds := s.cmds.map (fun y => if y.id == x.id then { x with taken := true, since := s.tick } else y) } := by
    simp [takenOf, hc]
  rw [hc] at c d
  rw [hc, ht]
  exact Takes.held x l hx b c d


/-- Context 1 in state `st` with an entry that waits at a page. -/
def ucb (st : Word64) (p : Page) (e : List Byte) : State := waits (mk (served st)) (held p e)

/-- No command is left. -/
def done (s : State) (i : Instr) : Bool := (after i s).cmds.isEmpty


/-- Context 1 with its first page mapped, readable and writable, and bytes at its start, in
whole lines, which the Transom holds. -/
def withBytes (st : Word64) (bs : List Byte) : State :=
  let s := mapPages (mk (served st)) 1 0 1 true true
  lintelWrite s 1 0 (bs ++ List.replicate (127 - (bs.length + 127) % 128) 0)

/-! ## Guver instructions -/

def aluW : Word64 := word 1 (4 * 2 ^ 49 + 1 * 2 ^ 44 + 2 * 2 ^ 39)

/-- ALU: g4 becomes g1 + g2. -/
theorem test_alu : Issues (thr aluW) 0 0 aluW ∧ greg (after (.alu 0 0) (thr aluW)) 0 0 4 = 0x45 ∧
    threadPc (after (.alu 0 0) (thr aluW)) 0 0 = 1 := ⟨issues_of (by decide +kernel), by decide +kernel, by decide +kernel⟩

/-- ALUI at the top of its immediate: g4 becomes g1 - 1. -/
theorem test_alui : Issues (thr (word 2 (4 * 2 ^ 49 + 1 * 2 ^ 44 + 0xFFFFFFFF))) 0 0 (word 2 (4 * 2 ^ 49 + 1 * 2 ^ 44 + 0xFFFFFFFF)) ∧
    greg (after (.alui 0 0) (thr (word 2 (4 * 2 ^ 49 + 1 * 2 ^ 44 + 0xFFFFFFFF)))) 0 0 4 = 4 :=
  ⟨issues_of (by decide +kernel), by decide +kernel⟩

/-- LI HI keeps the low 48 bits. -/
theorem test_li : Issues (thr (word 3 (1 * 2 ^ 49 + 2 ^ 48 + 0xABCD))) 0 0 (word 3 (1 * 2 ^ 49 + 2 ^ 48 + 0xABCD)) ∧
    greg (after (.li 0 0) (thr (word 3 (1 * 2 ^ 49 + 2 ^ 48 + 0xABCD)))) 0 0 1 = 0xABCD000000000005 :=
  ⟨issues_of (by decide +kernel), by decide +kernel⟩

/-- PCMP EQ of g1 with 5 into p3. -/
theorem test_pcmp : Issues (thr (word 4 (3 * 2 ^ 51 + 1 * 2 ^ 44 + 2 ^ 38 + 5))) 0 0 (word 4 (3 * 2 ^ 51 + 1 * 2 ^ 44 + 2 ^ 38 + 5)) ∧
    predOf (after (.pcmp 0 0) (thr (word 4 (3 * 2 ^ 51 + 1 * 2 ^ 44 + 2 ^ 38 + 5)))) 0 0 3 = true :=
  ⟨issues_of (by decide +kernel), by decide +kernel⟩

/-- PLOG of p0 and p0 looks bit 3 of TRUTH up. -/
theorem test_plog : Issues (thr (word 5 (1 * 2 ^ 51 + 8 * 2 ^ 32))) 0 0 (word 5 (1 * 2 ^ 51 + 8 * 2 ^ 32)) ∧
    predOf (after (.plog 0 0) (thr (word 5 (1 * 2 ^ 51 + 8 * 2 ^ 32)))) 0 0 1 = true :=
  ⟨issues_of (by decide +kernel), by decide +kernel⟩

/-- BR to the last instruction of the task; one further leaves the PC. -/
theorem test_br : Issues (thr (word 8 (4 * 2 ^ 49 + 15))) 0 0 (word 8 (4 * 2 ^ 49 + 15)) ∧ isMinor 0x08 0 (word 8 (4 * 2 ^ 49 + 15)) = true ∧
    threadPc (after (.br 0 0) (thr (word 8 (4 * 2 ^ 49 + 15)))) 0 0 = 15 ∧ fetchOut (after (.br 0 0) (thr (word 8 16))) 0 0 = true :=
  ⟨issues_of (by decide +kernel), by decide +kernel, by decide +kernel, by decide +kernel⟩

theorem test_jr : Issues (thr (word 8 (1 * 2 ^ 44 + 2 ^ 32))) 0 0 (word 8 (1 * 2 ^ 44 + 2 ^ 32)) ∧
    isMinor 0x08 1 (word 8 (1 * 2 ^ 44 + 2 ^ 32)) = true ∧ threadPc (after (.jr 0 0) (thr (word 8 (1 * 2 ^ 44 + 2 ^ 32)))) 0 0 = 5 :=
  ⟨issues_of (by decide +kernel), by decide +kernel, by decide +kernel⟩

/-- LOOP ends where the count was 1. -/
theorem test_loop : Issues (thr (word 8 (3 * 2 ^ 44 + 2 * 2 ^ 32 + 7))) 0 0 (word 8 (3 * 2 ^ 44 + 2 * 2 ^ 32 + 7)) ∧
    isMinor 0x08 2 (word 8 (3 * 2 ^ 44 + 2 * 2 ^ 32 + 7)) = true ∧
    threadPc (after (.loop 0 0) (thr (word 8 (3 * 2 ^ 44 + 2 * 2 ^ 32 + 7)))) 0 0 = 1 ∧
    threadPc (after (.loop 0 0) (thr (word 8 (1 * 2 ^ 44 + 2 * 2 ^ 32 + 7)))) 0 0 = 7 :=
  ⟨issues_of (by decide +kernel), by decide +kernel, by decide +kernel, by decide +kernel⟩

/-- The last 8 bytes of the task's scratchpad are its own. -/
theorem test_sp_bound : spPhys (thr 0) 0 0 0xFFF8 8 = some 0xFFF8 ∧ spPhys (thr 0) 0 0 0xFFF9 8 = none := by decide +kernel

/-- ST stores g1 at g2, which LD of 8 bytes captures. -/
theorem test_st : Issues (thr (word 0xD (1 * 2 ^ 49 + 2 * 2 ^ 44 + 3 * 2 ^ 37))) 0 0 (word 0xD (1 * 2 ^ 49 + 2 * 2 ^ 44 + 3 * 2 ^ 37)) ∧
    spByte (after (.st 0 0) (thr (word 0xD (1 * 2 ^ 49 + 2 * 2 ^ 44 + 3 * 2 ^ 37)))) 0 0x40 = 5 :=
  ⟨issues_of (by decide +kernel), by decide +kernel⟩

theorem test_ld : Issues (thr (word 0xC (4 * 2 ^ 49 + 2 * 2 ^ 44 + 3 * 2 ^ 37))) 0 0 (word 0xC (4 * 2 ^ 49 + 2 * 2 ^ 44 + 3 * 2 ^ 37)) ∧
    (after (.ld 0 0) (thr (word 0xC (4 * 2 ^ 49 + 2 * 2 ^ 44 + 3 * 2 ^ 37)))).loads = [⟨0, 0, 4, 0, 0, 0⟩] :=
  ⟨issues_of (by decide +kernel), by decide +kernel⟩

/-- A load delivers its value. -/
theorem test_load_delivery : tileRuns { thr 0 with loads := [⟨0, 0, 4, 9, 0, 0⟩] } 0 = true ∧
    greg (after (.loadDelivery 0 0) { thr 0 with loads := [⟨0, 0, 4, 9, 0, 0⟩] }) 0 0 4 = 9 ∧
    threadState (after (.loadDelivery 0 0) { thr 0 with loads := [⟨0, 0, 4, 9, 1, 0⟩] }) 0 0 = 4 := by decide +kernel

theorem test_amoadd : Issues (thr (word 0xE (4 * 2 ^ 49 + 2 * 2 ^ 44 + 1 * 2 ^ 39 + 3 * 2 ^ 37))) 0 0
      (word 0xE (4 * 2 ^ 49 + 2 * 2 ^ 44 + 1 * 2 ^ 39 + 3 * 2 ^ 37)) ∧
    spMark (thr 0) 0 0x40 8 = 0 ∧
    spByte (after (.amoadd 0 0) (thr (word 0xE (4 * 2 ^ 49 + 2 * 2 ^ 44 + 1 * 2 ^ 39 + 3 * 2 ^ 37)))) 0 0x40 = 5 :=
  ⟨issues_of (by decide +kernel), by decide +kernel, by decide +kernel⟩

theorem test_amoswap : Issues (thr (word 0xE (4 * 2 ^ 49 + 2 * 2 ^ 44 + 1 * 2 ^ 39 + 3 * 2 ^ 37 + 2 ^ 32))) 0 0
      (word 0xE (4 * 2 ^ 49 + 2 * 2 ^ 44 + 1 * 2 ^ 39 + 3 * 2 ^ 37 + 2 ^ 32)) ∧
    spByte (after (.amoswap 0 0) (thr (word 0xE (4 * 2 ^ 49 + 2 * 2 ^ 44 + 1 * 2 ^ 39 + 3 * 2 ^ 37 + 2 ^ 32)))) 0 0x40 = 5 :=
  ⟨issues_of (by decide +kernel), by decide +kernel⟩

/-- AMOCAS leaves what does not compare. -/
theorem test_amocas : Issues (thr (word 0xE (3 * 2 ^ 49 + 2 * 2 ^ 44 + 1 * 2 ^ 39 + 3 * 2 ^ 37 + 2 * 2 ^ 32))) 0 0
      (word 0xE (3 * 2 ^ 49 + 2 * 2 ^ 44 + 1 * 2 ^ 39 + 3 * 2 ^ 37 + 2 * 2 ^ 32)) ∧
    spByte (after (.amocas 0 0) (thr (word 0xE (3 * 2 ^ 49 + 2 * 2 ^ 44 + 1 * 2 ^ 39 + 3 * 2 ^ 37 + 2 * 2 ^ 32)))) 0 0x40 = 0 ∧
    spByte (after (.amocas 0 0) (thr (word 0xE (3 * 2 ^ 49 + 2 * 2 ^ 44 + 0 * 2 ^ 39 + 3 * 2 ^ 37 + 2 * 2 ^ 32)))) 0 0x40 = 1 :=
  ⟨issues_of (by decide +kernel), by decide +kernel, by decide +kernel⟩

/-- SPAWN of the slot in g3, which is FREE, at instruction 6 with g1 of the new thread g1. -/
theorem test_spawn : Issues (thr (word 0x10 (3 * 2 ^ 44 + 1 * 2 ^ 39 + 6))) 0 0 (word 0x10 (3 * 2 ^ 44 + 1 * 2 ^ 39 + 6)) ∧
    (tslotsOf (thr 0) 0 0).getLsbD 1 = true ∧ threadState (thr 0) 0 1 = 0 ∧
    threadState (after (.spawn 0 0) (thr (word 0x10 (3 * 2 ^ 44 + 1 * 2 ^ 39 + 6)))) 0 1 = 1 ∧
    greg (after (.spawn 0 0) (thr (word 0x10 (3 * 2 ^ 44 + 1 * 2 ^ 39 + 6)))) 0 1 1 = 5 :=
  ⟨issues_of (by decide +kernel), by decide +kernel, by decide +kernel, by decide +kernel, by decide +kernel⟩

theorem test_halt : Issues (thr (word 0x10 (2 ^ 32))) 0 0 (word 0x10 (2 ^ 32)) ∧
    threadState (after (.halt 0 0) (thr (word 0x10 (2 ^ 32)))) 0 0 = 3 := ⟨issues_of (by decide +kernel), by decide +kernel⟩

theorem test_waitc : Issues (thr (word 0x10 (2 * 2 ^ 32 + 9))) 0 0 (word 0x10 (2 * 2 ^ 32 + 9)) ∧
    threadState (after (.waitc 0 0) (thr (word 0x10 (2 * 2 ^ 32 + 9)))) 0 0 = 2 ∧
    threadState (after (.waitc 0 0) (thr (word 0x10 (2 * 2 ^ 32)))) 0 0 = 1 :=
  ⟨issues_of (by decide +kernel), by decide +kernel, by decide +kernel⟩

theorem test_fence : Issues (thr (word 0x10 (3 * 2 ^ 32))) 0 0 (word 0x10 (3 * 2 ^ 32)) ∧
    threadPc (after (.fence 0 0) (thr (word 0x10 (3 * 2 ^ 32)))) 0 0 = 1 := ⟨issues_of (by decide +kernel), by decide +kernel⟩

/-- A WAITC ends. -/
theorem test_wait_end :
    let s := { setFld (thr 0) (aThread 0 0) 0 3 2 with wake := [(0, 9)] }
    threadState s 0 0 = 2 ∧ tileRuns s 0 = true ∧ ctxLive s 1 = true ∧ waitsChain s 0 0 = false ∧
    threadState (after (.threadWaitEnd 0 0) s) 0 0 = 1 := by decide +kernel

/-- RDSR of CTX; of a register that does not exist. -/
theorem test_rdsr : Issues (thr (word 0x11 (4 * 2 ^ 49 + 2))) 0 0 (word 0x11 (4 * 2 ^ 49 + 2)) ∧
    greg (after (.rdsr 0 0) (thr (word 0x11 (4 * 2 ^ 49 + 2)))) 0 0 4 = 1 ∧
    threadState (after (.rdsr 0 0) (thr (word 0x11 (4 * 2 ^ 49 + 6)))) 0 0 = 4 :=
  ⟨issues_of (by decide +kernel), by decide +kernel, by decide +kernel⟩

/-- WRSR of STEP. -/
theorem test_wrsr : Issues (thr (word 0x11 (1 * 2 ^ 44 + 2 ^ 32 + 0x11))) 0 0 (word 0x11 (1 * 2 ^ 44 + 2 ^ 32 + 0x11)) ∧
    fld (after (.wrsr 0 0) (thr (word 0x11 (1 * 2 ^ 44 + 2 ^ 32 + 0x11)))) (aStep 1) 0 32 = 5 :=
  ⟨issues_of (by decide +kernel), by decide +kernel⟩

/-- No issue; a fetch outside; an undefined word; a guard that fails; a load that blocks. -/
theorem test_issue_rules :
    canIssue State.reset 0 0 = false ∧ threadState (after (.alu 0 0) (setFld (thr 0) (aThread 0 0) 8 13 16)) 0 0 = 4 ∧
    encOk 0 = false ∧ guardOk (thr 0) 0 0 (word 1 (2 ^ 57)) = false ∧
    threadState (after (.alu 0 0) { thr aluW with loads := [⟨0, 0, 4, 9, 0, 0⟩] }) 0 0 = 2 := by decide +kernel

/-! ## UCB commands -/

theorem test_nop : Accepts (ucb 3 (.module 1) (entry 0 [])) (.module 1) 0x00 (cmdOf (ucb 3 (.module 1) (entry 0 [])) (.module 1))
      (takenOf (ucb 3 (.module 1) (entry 0 [])) (.module 1)) ∧
    done (ucb 3 (.module 1) (entry 0 [])) (.nop (.module 1)) = true := ⟨accepts_of (by decide +kernel), by decide +kernel⟩

/-- A NOP of a fenced tile page is accepted; a RUN_CHAIN there ends with BAD_STATE. -/
theorem test_fenced_page :
    let s (op : Byte) : State := { ucb 3 (.tile 0 1) (entry op []) with regs := (setReg (ucb 3 (.tile 0 1) (entry op [])) 0x8000 1).regs }
    acceptsB (s 0) (.tile 0 1) 0 = true ∧ acceptsB (s 0x10) (.tile 0 1) 0x10 = false ∧
    getF (reg (after (.runChain (.tile 0 1)) (s 0x10)) (pageA (.tile 0 1) + 0x38)) 0 8 = stBadState.toNat := by decide +kernel

theorem test_query : Accepts (ucb 3 (.module 1) (entry 0x11 [])) (.module 1) 0x11 (cmdOf (ucb 3 (.module 1) (entry 0x11 [])) (.module 1))
      (takenOf (ucb 3 (.module 1) (entry 0x11 [])) (.module 1)) ∧
    done (ucb 3 (.module 1) (entry 0x11 [])) (.query (.module 1)) = true := ⟨accepts_of (by decide +kernel), by decide +kernel⟩

theorem test_pause : Accepts (ucb 3 (.module 1) (entry 0x04 [])) (.module 1) 0x04 (cmdOf (ucb 3 (.module 1) (entry 0x04 [])) (.module 1))
      (takenOf (ucb 3 (.module 1) (entry 0x04 [])) (.module 1)) ∧
    ctxState (after (.ctxPause (.module 1)) (ucb 3 (.module 1) (entry 0x04 []))) 1 = 4 ∧
    done (after (.ctxPause (.module 1)) (ucb 3 (.module 1) (entry 0x04 []))) (.ctxPauseComplete 1) = true :=
  ⟨accepts_of (by decide +kernel), by decide +kernel, by decide +kernel⟩

theorem test_resume : Accepts (ucb 4 (.module 1) (entry 0x05 [])) (.module 1) 0x05 (cmdOf (ucb 4 (.module 1) (entry 0x05 [])) (.module 1))
      (takenOf (ucb 4 (.module 1) (entry 0x05 [])) (.module 1)) ∧
    ctxState (after (.ctxResume (.module 1)) (ucb 4 (.module 1) (entry 0x05 []))) 1 = 3 :=
  ⟨accepts_of (by decide +kernel), by decide +kernel⟩

def createE (b : Nat) : List Byte := entry 0x01 ([7, 0, 0, 0] ++ bytesOf b 4)

/-- A budget of the whole ceiling is accepted; one more W is no well-formed entry. -/
theorem test_create : Accepts (ucb 0 .owner (createE 0x5AA)) .owner 0x01 (cmdOf (ucb 0 .owner (createE 0x5AA)) .owner)
      (takenOf (ucb 0 .owner (createE 0x5AA)) .owner) ∧
    ctxState (after (.ctxCreate .owner) (ucb 0 .owner (createE 0x5AA))) 1 = 1 ∧
    budgetOf (after (.ctxCreate .owner) (ucb 0 .owner (createE 0x5AA))) 1 = 0x5AA ∧
    acceptsB (ucb 0 .owner (createE 0x5AB)) .owner 0x01 = false :=
  ⟨accepts_of (by decide +kernel), by decide +kernel, by decide +kernel, by decide +kernel⟩

/-- With W out to another context the budgets do not fit. -/
theorem test_create_budget :
    let s := setReg (ucb 0 .owner (createE 0x5AA)) (aCtx 2) (BitVec.ofNat 64 (3 + 2 ^ 16))
    ctxState (after (.ctxCreate .owner) s) 1 = 0 ∧ done s (.ctxCreate .owner) = true := by decide +kernel

/-- The smallest object: one task of one instruction on tile 0, one thread, one S register. -/
def smallObject : List Byte :=
  [0x47, 0x55, 0x56, 0x4F, 1, 0, 0, 0] ++ List.replicate 16 0 ++ List.replicate 16 0xFF ++ bytesOf 77 8 ++ bytesOf 5 4 ++ bytesOf 1 4 ++
    bytesOf 0 4 ++ bytesOf 0 4 ++ bytesOf 128 8 ++ bytesOf 0 8 ++ bytesOf 0 8 ++ List.replicate 40 0 ++
    ([0, 0, 1, 1, 0, 0, 0, 0] ++ bytesOf 1 4 ++ bytesOf 0 4 ++ bytesOf 224 8 ++ List.replicate 72 0) ++ bytesOf 0xABCD 8

def loadE (va len : Nat) : List Byte := entry 0x02 (bytesOf va 8 ++ bytesOf len 4)

theorem test_load_object : objectOk (withBytes 1 smallObject) smallObject = true := by decide +kernel

def loadS : State := waits (withBytes 1 smallObject) (held (.module 1) (loadE 0 232))

theorem test_ctx_load : Accepts loadS (.module 1) 0x02 (cmdOf loadS (.module 1)) (takenOf loadS (.module 1)) ∧
    (fun u => (ctxState u 1, reg u (aSeed 1))) (after (.ctxLoad (.module 1)) loadS) = (2, 77) :=
  ⟨accepts_of (by decide +kernel), by decide +kernel⟩

/-- A LOADED context with the task of `thr`. -/
def loadedS (st : Word64) (p : Page) (e : List Byte) : State := waits { setFld (thr 0) (aCtx 1) 0 3 st.toNat with regs :=
  (setReg (setFld (thr 0) (aCtx 1) 0 3 st.toNat) (aThread 0 0) 0).regs } (held p e)

theorem test_ctx_start : Accepts (loadedS 2 (.module 1) (entry 0x03 [])) (.module 1) 0x03
      (cmdOf (loadedS 2 (.module 1) (entry 0x03 [])) (.module 1)) (takenOf (loadedS 2 (.module 1) (entry 0x03 [])) (.module 1)) ∧
    threadState (startTask (loadedS 2 (.module 1) (entry 0x03 [])) 0 0) 0 0 = 1 :=
  ⟨accepts_of (by decide +kernel), by decide +kernel⟩

/-- CTX_RESET is accepted; its sweep of a task frees the thread. -/
theorem test_ctx_reset : Accepts (loadedS 3 (.module 1) (entry 0x06 [])) (.module 1) 0x06
      (cmdOf (loadedS 3 (.module 1) (entry 0x06 [])) (.module 1)) (takenOf (loadedS 3 (.module 1) (entry 0x06 [])) (.module 1)) ∧
    threadState (sweepTask (thr 0) 0 0) 0 0 = 0 := ⟨accepts_of (by decide +kernel), by decide +kernel⟩

/-- A sweep ends in CREATED where no object is recorded as loaded. -/
theorem test_sweep_end : ctxState (mk (served 6)) 1 = 6 ∧ sweepOver (mk (served 6)) 1 = true := by decide +kernel

theorem test_ctx_destroy : Accepts (ucb 1 .owner (entry 0x07 [])) .owner 0x07 (cmdOf (ucb 1 .owner (entry 0x07 [])) .owner)
      (takenOf (ucb 1 .owner (entry 0x07 [])) .owner) ∧
    ctxState (mk (served 7)) 1 = 7 ∧ sweepOver (mk (served 7)) 1 = true ∧ ownedRings (mk (served 7)) 1 = [] :=
  ⟨accepts_of (by decide +kernel), by decide +kernel, by decide +kernel, by decide +kernel⟩

def mapE (op : Byte) (pages : Nat) : List Byte := entry op (bytesOf (3 * 2 ^ 21) 8 ++ bytesOf pages 4 ++ (if op = 0x12 then [1] else []))

/-- The last frame of the module is mapped, and no more. -/
theorem test_mem_map : Accepts (ucb 1 (.module 1) (mapE 0x12 2)) (.module 1) 0x12 (cmdOf (ucb 1 (.module 1) (mapE 0x12 2)) (.module 1))
      (takenOf (ucb 1 (.module 1) (mapE 0x12 2)) (.module 1)) ∧
    mappedPage (after (.memMap (.module 1)) (ucb 1 (.module 1) (mapE 0x12 2))) 1 4 = true ∧
    mappedPage (after (.memMap (.module 1)) (setReg (ucb 1 (.module 1) (mapE 0x12 2)) aMemFree 2)) 1 4 = true ∧
    mappedPage (after (.memMap (.module 1)) (setReg (ucb 1 (.module 1) (mapE 0x12 2)) aMemFree 1)) 1 4 = false :=
  ⟨accepts_of (by decide +kernel), by decide +kernel, by decide +kernel, by decide +kernel⟩

def unmapS : State := waits (mapPages (mk (served 1)) 1 3 2 true true) (held (.module 1) (mapE 0x13 2))

theorem test_mem_unmap : Accepts unmapS (.module 1) 0x13 (cmdOf unmapS (.module 1)) (takenOf unmapS (.module 1)) ∧
    mappedPage unmapS 1 4 = true ∧ mappedPage (after (.memUnmap (.module 1)) unmapS) 1 4 = false :=
  ⟨accepts_of (by decide +kernel), by decide +kernel, by decide +kernel⟩

/-! ## Gangs -/

/-- A state with bytes at the start of the owner area, in whole lines. -/
def withOwner (st : Word64) (bs : List Byte) : State :=
  writePhys (mk (served st)) 0xF ownerBase (bs ++ List.replicate (127 - (bs.length + 127) % 128) 0) 0 false

/-- Gang 5, headed here, with this module and module 9. -/
def gangRec : List Byte := bytesOf 5 2 ++ bytesOf 0 2 ++ [2] ++ List.replicate 11 0 ++ bytesOf 0 8 ++ bytesOf 9 8 ++ List.replicate 112 0

def gangS : State := waits (withOwner 1 gangRec) (held .owner (entry 0x08 (bytesOf 0 8)))

theorem test_gang_define : Accepts gangS .owner 0x08 (cmdOf gangS .owner) (takenOf gangS .owner) ∧ recOk gangS gangRec = true ∧
    gangEntry (after (.gangDefine .owner []) gangS) 5 = some ⟨5, [(0, 0), (9, 0)], [1, 1]⟩ :=
  ⟨accepts_of (by decide +kernel), by decide +kernel, by decide +kernel⟩

/-- A sub-gang whose head answers that the walk meets the gang itself is refused. -/
theorem test_gang_answers : answersOk (memberAnswers gangS 5 [(0, 0), (9, 7)] [⟨true, 3, false⟩]) = true ∧
    answersOk (memberAnswers gangS 5 [(0, 0), (9, 7)] [⟨true, 3, true⟩]) = false ∧
    answersOk (memberAnswers gangS 5 [(0, 0), (9, 7)] []) = false := by decide +kernel

theorem test_gang_bind : Accepts (ucb 1 (.module 1) (entry 0x09 (bytesOf 5 2))) (.module 1) 0x09
      (cmdOf (ucb 1 (.module 1) (entry 0x09 (bytesOf 5 2))) (.module 1)) (takenOf (ucb 1 (.module 1) (entry 0x09 (bytesOf 5 2))) (.module 1)) ∧
    gangOf (after (.gangBind (.module 1)) (ucb 1 (.module 1) (entry 0x09 (bytesOf 5 2)))) 1 = 5 :=
  ⟨accepts_of (by decide +kernel), by decide +kernel⟩

/-- A gang page with gang 5 bound passes CTX_PAUSE to this module's own page and to module 9. -/
def viaS : State := { setFld (ucb 3 (.gang 1) (entry 0x04 [])) (aCtx 1) 32 16 5 with gangs := [⟨5, [(0, 0), (9, 0)], [1, 1]⟩] }

theorem test_gang_pass : Accepts viaS (.gang 1) 0x04 (cmdOf viaS (.gang 1)) (takenOf viaS (.gang 1)) ∧
    ((after (.ctxPause (.gang 1)) viaS).out.map (fun m => (m.dst, m.op)) = [(9, 0x10)]) ∧
    (after (.ctxPause (.gang 1)) viaS).cmds.length = 2 :=
  ⟨accepts_of (by decide +kernel), by decide +kernel, by decide +kernel⟩

/-! ## RUN_CHAIN -/

/-- A chain of one stage: one ADD of a row of BF16 in the scratchpad, at open cycle 0. -/
def chainDesc : List Byte := 1 :: List.replicate 63 0 ++ ([3, 1] ++ List.replicate 10 0 ++ bytesOf (8 * 2 ^ 24 + 8 * 2 ^ 20) 4 ++
  List.replicate 40 0 ++ bytesOf 1 4 ++ List.replicate 4 0)

def runE : List Byte := entry 0x10 (bytesOf 0 8)

theorem test_run_chain_module : Accepts (ucb 3 (.module 1) runE) (.module 1) 0x10 (cmdOf (ucb 3 (.module 1) runE) (.module 1))
      (takenOf (ucb 3 (.module 1) runE) (.module 1)) ∧
    (after (.runChain (.module 1)) (ucb 3 (.module 1) runE)).cmds.length = 17 ∧
    (after (.runChain (.ring 2 1)) (ucb 3 (.ring 2 1) runE)).cmds.length = 33 :=
  ⟨accepts_of (by decide +kernel), by decide +kernel, by decide +kernel⟩

/-- Context 1 runs on tile 0 with its descriptor in memory. -/
def runS : State :=
  let m := thr 0
  let s := mapPages m 1 0 1 true true
  waits (lintelWrite s 1 0 chainDesc) (held (.tile 0 1) runE)

theorem test_run_chain_tile : Accepts runS (.tile 0 1) 0x10 (cmdOf runS (.tile 0 1)) (takenOf runS (.tile 0 1)) ∧
    chainOk runS 0 0 1 chainDesc true = true ∧
    (after (.runChain (.tile 0 1)) runS).chainWaits = [⟨0, 1, 0, none, some 7, chainDesc⟩] :=
  ⟨accepts_of (by decide +kernel), by decide +kernel, by decide +kernel⟩

/-- A group with no members left ends with the status that its members left. -/
theorem test_group_complete :
    let s := waits (mk (served 3)) { held (.module 1) runE with taken := true, status := stAborted }
    done s (.groupCommandComplete 7) = true ∧
    fld (after (.groupCommandComplete 7) s) (pageA (.module 1) + 0x38) 0 8 = stAborted.toNat := by decide +kernel

/-! ## The host queue -/

/-- A queue of 16 entries on the page of context 1, with one entry rung by pair 5, whose bytes stand at VA 0. -/
def hostS (e : List Byte) : State :=
  let s := withBytes 1 e
  let s := setReg (setReg s (pageA (.module 1) + 0x28) (BitVec.ofNat 64 (4 + 2 ^ 63))) (pageA (.module 1) + 0x30) 0x10000
  { s with covers := [⟨.module 1, 1, 5, 1⟩] }

def readOk (s : State) (p : Page) (e : List Byte) : Bool := match (readEntry s p).2 with | .ok x => x == e | .error _ => false

theorem readOk_of {s : State} {p : Page} {e : List Byte} (h : readOk s p e = true) : readEntry s p = ((readEntry s p).1, .ok e) := by
  unfold readOk at h
  split at h
  · rename_i x hx
    rw [← beq_iff_eq.mp h, ← hx]
  · cases h

/-- The host's NOP is taken, and its completion waits for pair 5. -/
theorem test_host_takes : (∃ c v, Takes (hostS (entry 0 [])) (.module 1) 0x00 c v) ∧
    qHead (after (.nop (.module 1)) (setReg (hostS (entry 0 [])) (aPair 5) 1)) (.module 1) = 1 ∧
    (after (.nop (.module 1)) (setReg (hostS (entry 0 [])) (aPair 5) 1)).cq.map (fun e => (e.q, e.status, e.ctx)) = [(5, stOk, 1)] :=
  ⟨⟨_, _, .host ⟨.module 1, 1, 5, 1⟩ _ (entry 0 []) (by decide +kernel) (by decide +kernel) (by decide +kernel)
    (readOk_of (by decide +kernel)) (by decide +kernel) (by decide +kernel)⟩, by decide +kernel, by decide +kernel⟩

/-- Without a mapping the entry cannot be read: HOST_XLATE. -/
theorem test_unreadable :
    let s := { hostS [] with ptes := [] }
    (match (readEntry s (.module 1)).2 with | .error (st, va) => st == stHostXlate && va == 0 | .ok _ => false) = true ∧
    fld (after (.ctxPause (.module 1)) s) (pageA (.module 1) + 0x38) 0 8 = stHostXlate.toNat := by decide +kernel

/-- No entry; another row's entry; an entry after what is in flight; a status of the highest rank. -/
theorem test_command_checks :
    nextHeld State.reset (.module 1) 0 = none ∧ hostReady State.reset (.module 1) = none ∧
    (after (.ctxPause (.module 1)) (ucb 3 (.module 1) (entry 0 []))).cmds.length = 1 ∧
    orderOk { ucb 3 (.module 1) (entry 0x05 []) with cmds := [{ held (.module 1) (entry 0 []) with taken := true }] } (.module 1)
      (entry 0x05 []) = false ∧ statusJoin stAborted stFault = stFault ∧
    pageReset { State.reset with resets := [⟨.part 0, 0, true, false⟩] } (.tile 0 1) = true := by decide +kernel

/-! ## Engine and stream instructions -/

/-- As `thr`, with four accumulator blocks, four stream contexts, queue 0 of four slots at scratchpad byte 0x400, row 0 of every
bank mapped to its first spare row, and the g registers given. -/
def eng (w : Word64) (g : List (Nat × Word64)) : State := { mk (served 3 ++
    [(aTask 0 0, BitVec.ofNat 64 (1 + 2 * 1 + 16 * 2 ^ 21 + 4 * 2 ^ 40 + 4 * 2 ^ 52)), (aBound 0 0, BitVec.ofNat 64 (32 * 2 ^ 11)),
     (aTq 0 0, BitVec.ofNat 64 (8 + 8 * 2 ^ 7 + 4 * 2 ^ 21)), (aThread 0 0, 1)] ++
    (List.range 16).map (fun b => (aRmap 0 b 0, 1))) with
  imem := [(0, w)], tslots := [(0, 3)], gregs := g }

def tincW (n : Nat) : Word64 := wordE 0x38 0 (3 + n * 2 ^ 5)

/-- TINC to the largest value; one further overflows. -/
theorem test_tinc : Issues (eng (tincW 65535) []) 0 0 (tincW 65535) ∧ isEng 0x38 0 (tincW 65535) = true ∧
    tokGet (after (.tinc 0 0) (eng (tincW 65535) [])) 0 0 3 = 65535 ∧
    ctxState (after (.tinc 0 0) { eng (tincW 65535) [] with tokens := [(3, 1)] }) 1 = 5 :=
  ⟨issues_of (by decide +kernel), by decide +kernel, by decide +kernel, by decide +kernel⟩

/-- TWAIT with enough, and with one too few. -/
theorem test_twait : Issues (eng (wordE 0x38 1 (3 + 2 * 2 ^ 5)) []) 0 0 (wordE 0x38 1 (3 + 2 * 2 ^ 5)) ∧
    tokGet (after (.twait 0 0) { eng (wordE 0x38 1 (3 + 2 * 2 ^ 5)) [] with tokens := [(3, 2)] }) 0 0 3 = 0 ∧
    threadState (after (.twait 0 0) { eng (wordE 0x38 1 (3 + 2 * 2 ^ 5)) [] with tokens := [(3, 1)] }) 0 0 = 2 :=
  ⟨issues_of (by decide +kernel), by decide +kernel, by decide +kernel⟩

theorem test_ttake : Issues (eng (wordE 0x38 2 (3 + 2 * 2 ^ 5)) []) 0 0 (wordE 0x38 2 (3 + 2 * 2 ^ 5)) ∧
    tokGet (after (.ttake 0 0) { eng (wordE 0x38 2 (3 + 2 * 2 ^ 5)) [] with tokens := [(3, 2)] }) 0 0 3 = 0 ∧
    threadState (after (.ttake 0 0) { eng (wordE 0x38 2 (3 + 2 * 2 ^ 5)) [] with tokens := [(3, 1)] }) 0 0 = 4 :=
  ⟨issues_of (by decide +kernel), by decide +kernel, by decide +kernel⟩

theorem test_tread : Issues (eng (wordE 0x38 3 (4 * 2 ^ 43 + 3)) []) 0 0 (wordE 0x38 3 (4 * 2 ^ 43 + 3)) ∧
    greg (after (.tread 0 0) { eng (wordE 0x38 3 (4 * 2 ^ 43 + 3)) [] with tokens := [(3, 9)] }) 0 0 4 = 9 :=
  ⟨issues_of (by decide +kernel), by decide +kernel⟩

def tsigW : Word64 := wordE 0x38 4 (5 * 2 ^ 38 + 3 + 2 * 2 ^ 5)

/-- TSIG to the task's own tile: the beat arrives with its amount. -/
theorem test_tsig : Issues (eng tsigW []) 0 0 tsigW ∧ tileOfUnit (eng tsigW []) 0 = some 0 ∧ taskOfCtx (eng tsigW []) 0 1 0 = true ∧
    (after (.tsig 0 0) (eng tsigW [])).beats = [⟨1, 0, 0, some 0, .token 0 3 2, false, 0, 0, []⟩] ∧
    canArrive (after (.tsig 0 0) (eng tsigW [])) 0 ⟨1, 0, 0, some 0, .token 0 3 2, false, 0, 0, []⟩ = true ∧
    tokGet (after (.tsigArrival ⟨0, [], none⟩) (after (.tsig 0 0) (eng tsigW []))) 0 0 3 = 2 :=
  ⟨issues_of (by decide +kernel), by decide +kernel, by decide +kernel, by decide +kernel, by decide +kernel, by decide +kernel⟩

/-- A stream descriptor at 0x100 that delivers one row of the scratchpad tensor at 0x180 into queue 0; the tensor is 64
elements of BF16 at 0. -/
def strmBytes : List Byte := bytesOf (0x180 + 2 ^ 63) 8 ++ bytesOf (2 * 2 ^ 61) 8 ++ [0, 0, 0, 0, 0, 0] ++
  bytesOf (0 + 1 * 8 + 2 * 64 + 3 * 512 + 4 * 4096) 2 ++ List.replicate 20 0 ++ bytesOf 64 4 ++ bytesOf 1 4 ++ bytesOf 1 4 ++ bytesOf 1 4 ++
  bytesOf 1 4
def tensorBytes : List Byte := List.replicate 12 0 ++ [0x48, 1, 0, 0] ++ bytesOf 64 4 ++ List.replicate 108 0

/-- Bytes from an address of row 0 of tile 0 on, in the spare row. -/
def cells (a : Nat) (bs : List Byte) : List Host.Cell := (bs.zipIdx).map (fun e => (2 ^ 21 + a + e.2, e.1))

def strmS (w : Word64) : State := { eng w [(5, 0x100)] with sp := cells 0x100 strmBytes ++ cells 0x180 tensorBytes }

def startW : Word64 := wordE 0x20 0 (5 * 2 ^ 38 + 3)

def startedS : State := after (.strmStart 0 0) (strmS startW)

theorem test_strm_start : Issues (strmS startW) 0 0 startW ∧ handleOf (strmS startW) 0 0 0 = some 0 ∧
    fld startedS (aSte 0 0) 0 3 = 1 ∧ threadPc startedS 0 0 = 1 :=
  ⟨issues_of (by decide +kernel), by decide +kernel, by decide +kernel, by decide +kernel⟩

/-- The handle below SCOUNT is the last one. -/
theorem test_handles : handleOf (eng 0 []) 0 0 3 = some 3 ∧ handleOf (eng 0 []) 0 0 4 = none := by decide +kernel

/-- The row of the scratchpad tensor goes into the queue; then the stream is done and signals its token. -/
theorem test_row_delivery : tqFill (after (.rowDelivery 0 ⟨0, [], none⟩) startedS) 0 0 = 1 ∧
    fld (after (.streamDone 0 ⟨0, [], [], none⟩) (after (.rowDelivery 0 ⟨0, [], none⟩) startedS)) (aSte 0 0) 0 3 = 3 ∧
    tokGet (after (.streamDone 0 ⟨0, [], [], none⟩) (after (.rowDelivery 0 ⟨0, [], none⟩) startedS)) 0 0 3 = 1 := by decide +kernel
/-! ## Streams over memory -/

/-- The stream of `strmBytes` over a tensor in memory, with its one line captured. -/
def memStrm : Strm := { mkStrm ⟨0, 0, 1, some 0, none, 3⟩ strmBytes (parseTDesc (List.replicate 12 0 ++ [0x08, 1, 0, 0] ++ bytesOf 64 4 ++
  List.replicate 108 0)) 1 with issued := 1, caps := [⟨0, List.replicate 128 7, 0, 0⟩] }

def memS (w : Word64) (x : Strm) (st : Nat) : State := { setFld (eng w []) (aSte 0 0) 0 3 st with strms := [(0, some x)] }

theorem test_memory_row : strmOf (memS 0 memStrm 1) 0 0 = some memStrm ∧ rowPresent memStrm 0 = true ∧ rowMark memStrm 0 = 0 ∧
    tqHasSlot (memS 0 memStrm 1) 0 0 = true ∧ tqFill (after (.rowDelivery 0 ⟨0, [], none⟩) (memS 0 memStrm 1)) 0 0 = 1 ∧
    threadState (after (.rowDelivery 0 ⟨0, [], none⟩) (memS 0 { memStrm with caps := [⟨0, [], 1, 0⟩] } 1)) 0 0 = 4 := by decide +kernel

/-- With a send of queue 0 to come. -/
def feedS (x : Strm) : State :=
  { memS 0 x 1 with sends := [⟨0, 1, 0, some 0, 0, BitVec.ofNat 64 (2 * 2 ^ 61), [1], 0, 1, 0⟩] }

/-- A row that a send needs and that is not there closes the shutter; one that is there, or that nothing takes, does not. -/
theorem test_lookahead : shutState (after (.lookaheadCheck 0 0) (feedS { memStrm with caps := [] })) 0 = 1 ∧
    shutState (after (.lookaheadCheck 0 0) (feedS memStrm)) 0 = 0 ∧
    shutState (after (.lookaheadCheck 0 0) (memS 0 { memStrm with caps := [] } 1)) 0 = 0 := by decide +kernel

/-- A stream that drains with nothing out becomes IDLE; with a line out it waits. -/
theorem test_stream_drained : fld (after (.streamDrained 0 0) (memS 0 memStrm 2)) (aSte 0 0) 0 3 = 0 ∧
    fld (after (.streamDrained 0 0) (memS 0 { memStrm with failing := true } 2)) (aSte 0 0) 0 3 = 4 ∧
    fld (after (.streamDrained 0 0) (memS 0 { memStrm with outst := [(0, 0)] } 2)) (aSte 0 0) 0 3 = 2 := by decide +kernel

theorem test_stream_done : strmRows memStrm = 1 ∧
    fld (after (.streamDone 0 ⟨0, [], [], none⟩) (memS 0 { memStrm with moved := 1 } 1)) (aSte 0 0) 0 3 = 3 ∧
    fld (after (.streamDone 0 ⟨0, [], [], none⟩) (memS 0 memStrm 1)) (aSte 0 0) 0 3 = 1 := by decide +kernel

theorem test_strm_stop : Issues (memS (wordE 0x20 1 0) memStrm 1) 0 0 (wordE 0x20 1 0) ∧
    fld (after (.strmStop 0 0) (memS (wordE 0x20 1 0) memStrm 1)) (aSte 0 0) 0 3 = 2 := ⟨issues_of (by decide +kernel), by decide +kernel⟩

theorem test_strm_wait : Issues (memS (wordE 0x20 2 0) memStrm 3) 0 0 (wordE 0x20 2 0) ∧
    threadPc (after (.strmWait 0 0) (memS (wordE 0x20 2 0) memStrm 3)) 0 0 = 1 ∧
    threadState (after (.strmWait 0 0) (memS (wordE 0x20 2 0) memStrm 1)) 0 0 = 2 :=
  ⟨issues_of (by decide +kernel), by decide +kernel, by decide +kernel⟩

theorem test_barrier : Issues (memS (wordE 0x20 3 0) memStrm 3) 0 0 (wordE 0x20 3 0) ∧
    writesDone (memS (wordE 0x20 3 0) memStrm 3) 0 0 (barrierGen (memS (wordE 0x20 3 0) memStrm 3) 0 0 1) = true ∧
    threadPc (after (.barrier 0 0) (memS (wordE 0x20 3 0) memStrm 3)) 0 0 = 1 :=
  ⟨issues_of (by decide +kernel), by decide +kernel, by decide +kernel⟩

theorem test_strm_stat : Issues (memS (wordE 0x20 4 (4 * 2 ^ 43)) memStrm 3) 0 0 (wordE 0x20 4 (4 * 2 ^ 43)) ∧
    greg (after (.strmStat 0 0) (memS (wordE 0x20 4 (4 * 2 ^ 43)) memStrm 3)) 0 0 4 = 3 :=
  ⟨issues_of (by decide +kernel), by decide +kernel⟩

/-! ## Gathers -/

def gathW : Word64 := wordE 0x22 0 (5 * 2 ^ 43 + 6 * 2 ^ 38 + 3 * 2 ^ 5 + 3)

/-- GATH of the 8 bytes at VA 0x48 into 0x40. -/
def gathS : State := mapPages (eng gathW [(5, 0x40), (6, 0x48)]) 1 0 1 true false

/-- With the page in the tile's TLB. -/
def gathHit : State := { gathS with tlb := [⟨0, 1, 0, walk gathS 1 0⟩] }

theorem test_gath : Issues gathS 0 0 gathW ∧ (translate gathS 1 0x48 false).isSome = true ∧
    (after (.gath 0 0) gathS).gaths = [⟨0, 1, 0, some 0, 3, 0x48, 0x40, 8, true, none, 0⟩] ∧
    (after (.gath 0 0) gathHit).gaths = [⟨0, 1, 0, some 0, 3, 0x48, 0x40, 8, false, none, 0⟩] ∧
    threadState (after (.tableWalk 0) (after (.gath 0 0) (eng gathW [(5, 0x40), (6, 0x48)]))) 0 0 = 4 :=
  ⟨issues_of (by decide +kernel), by decide +kernel, by decide +kernel, by decide +kernel, by decide +kernel⟩

theorem test_gather_complete :
    let s := { eng 0 [] with gaths := [⟨0, 1, 0, some 0, 3, 0x48, 0x40, 8, false, some ⟨0, List.replicate 128 9, 0, 0⟩, 0⟩] }
    spByte (after (.gatherComplete 0) s) 0 0x47 = 9 ∧ spByte (after (.gatherComplete 0) s) 0 0x48 = 0 ∧
    tokGet (after (.gatherComplete 0) s) 0 0 3 = 1 ∧ spPhys s 0 0 0x40 8 = some 0x40 := by decide +kernel

/-! ## The array, the Louvre and the vector unit -/

def arrW : Word64 := wordE 0x24 0 (8 * 2 ^ 18 + 8 * 2 ^ 14)

/-- A pass of one row of BF16 is accepted into the pending place, and begins. -/
theorem test_arr : Issues (eng arrW []) 0 0 arrW ∧ (engOf (after (.arr 0 0) (eng arrW [])) 0 0).pend.isSome = true ∧
    fld (after (.arrayPassBegin ⟨0, 0⟩) (after (.arr 0 0) (eng arrW []))) (aArrStatus 0) 0 2 = 1 :=
  ⟨issues_of (by decide +kernel), by decide +kernel, by decide +kernel⟩

def lvrW : Word64 := wordE 0x26 0 (8 * 2 ^ 24)

theorem test_lvr : Issues (eng lvrW []) 0 0 lvrW ∧ (engOf (after (.lvr 0 0) (eng lvrW [])) 0 1).running.isSome = true :=
  ⟨issues_of (by decide +kernel), by decide +kernel⟩

/-- Every vector minor with FIELDS of legal formats; DROPMASK with k = 1 in g5. -/
def vecs : List (Instr × Nat × Nat) :=
  let f : Nat := 8 * 2 ^ 24 + 8 * 2 ^ 20
  [(.fma 0 0, 0, f), (.add 0 0, 1, f), (.mul 0 0, 2, f), (.min 0 0, 3, f), (.max 0 0, 4, f), (.cvt 0 0, 5, f), (.curve 0 0, 6, f),
    (.dcurve 0 0, 7, f), (.rsum 0 0, 8, 10 * 2 ^ 24 + 8 * 2 ^ 20), (.rmax 0 0, 9, 10 * 2 ^ 24 + 8 * 2 ^ 20), (.sign 0 0, 10, f),
    (.mask 0 0, 11, f), (.rcp 0 0, 12, f), (.rsqrt 0 0, 13, f), (.dropmask 0 0, 14, 5 * 2 ^ 38)]

def vecS (x : Instr × Nat × Nat) : State := eng (wordE 0x28 x.2.1 x.2.2) [(5, BitVec.ofNat 64 (3 * 2 ^ 61 + 0x3F800000))]

theorem test_vec_rows : vecs.all (fun x => vecRow x.1 == some (0, 0, x.2.1) && issuesB (vecS x) (wordE 0x28 x.2.1 x.2.2) &&
    isEng 0x28 x.2.1 (wordE 0x28 x.2.1 x.2.2) && placeFree (vecS x) 0 2) = true := by decide +kernel

/-- Each of them is accepted and runs. -/
theorem test_vec : (vecs.filter (fun x => x.2.1 != 6 && x.2.1 != 7)).all (fun x => (engOf (after x.1 (vecS x)) 0 2).running.isSome &&
    threadState (after x.1 (vecS x)) 0 0 == 1) = true := by decide +kernel

/-- An ADD of two rows of BF16, 1.0 and 2.5 in lane 0, with its row still to do or done. -/
def addOp (row : Nat) : EOp := ⟨1, 0, some 0, none, 3, 1, 8 * 2 ^ 24 + 8 * 2 ^ 20, 0x100, 0, 0x80, 0, false, 0, [], [], 0, 0, 0, row, [], 0⟩

def addS (row : Nat) : State := { eng 0 [] with
  engines := [(2, ⟨some (addOp row), none⟩)], sp := cells 0 [0x80, 0x3F] ++ cells 0x80 [0x20, 0x40] }

/-- 1.0 + 2.5 = 3.5, which is 0x4060. -/
theorem test_vector_complete : spRead (after (.vectorOpComplete 0) (addS 0)) 0 0x100 4 = [0x60, 0x40, 0, 0] ∧
    tokGet (after (.vectorOpComplete 0) (addS 0)) 0 0 3 = 1 := by decide +kernel

/-- The last tile of a transfer, all of it written. -/
def lvS : State := { eng 0 [] with lvTiles := [(0, [⟨0, { addOp 0 with fields := 8 * 2 ^ 24 }, false, 0, true, 0, 2, List.replicate 64 ([], []), 64⟩])] }

theorem test_engine_ends : (engOf (after (.vectorOpComplete 0) (addS 1)) 0 2).running = none ∧
    lvOf (after (.louvreTransferComplete 0) lvS) 0 = [] ∧
    fld (after (.arrayPassComplete ⟨0, [], [], [], none⟩) { eng 0 [] with engines := [(0, ⟨some { addOp 1 with done := 0, loaded := 64, fields := 8 * 2 ^ 18 + 8 * 2 ^ 14 }, none⟩)] }) (aArrCount 0) 0 32 = 1 := by
  decide +kernel

/-! ## Curve and table loads -/

/-- The identity as a table of 16 entries of FP32 at 0x200; slot 8 takes it. -/
def tblW : Word64 := wordE 0x2A 1 (5 * 2 ^ 38 + 8)

theorem test_table_load : Issues (eng tblW [(5, 0x200)]) 0 0 tblW ∧ (after (.tableLoad 0 0) (eng tblW [(5, 0x200)])).vloads.length = 1 ∧
    tblLoaded (after (.tableLoadComplete 0 1 8) (after (.tableLoad 0 0) (eng tblW [(5, 0x200)]))) 0 1 8 = true ∧
    threadState (after (.tableLoad 0 0) (eng (wordE 0x2A 1 (5 * 2 ^ 38 + 7)) [(5, 0x200)])) 0 0 = 4 :=
  ⟨issues_of (by decide +kernel), by decide +kernel, by decide +kernel, by decide +kernel⟩

def curveW : Word64 := wordE 0x2A 0 (5 * 2 ^ 38 + 15)
/-- XMIN 0, SCALE 1 and coefficients 0. -/
def curveS : State := { eng curveW [(5, 0)] with sp := cells 6 [0x80, 0x3F] }

theorem test_curve_load : Issues curveS 0 0 curveW ∧ curveBad (wordsAt (spRead curveS 0 0 1056) 264) = false ∧
    curveOwned (after (.curveLoad 0 0) curveS) 0 15 = true ∧ threadState (after (.curveLoad 0 0) { curveS with sp := [] }) 0 0 = 4 :=
  ⟨issues_of (by decide +kernel), by decide +kernel, by decide +kernel, by decide +kernel⟩

theorem test_curve_complete : let s := { eng 0 [] with vloads := [⟨0, 1, 15, false, false, [1, 2]⟩] }
    fld (after (.curveLoadComplete 0 15) s) (aCurve 0 15) 0 1 = 1 ∧
    (after (.curveLoadComplete 0 15) s).curves.get (fun _ => 0) (curveKey 0 15 1) = 2 := by decide +kernel

/-! ## Sends, beats and crossings -/

def sendW (m : Nat) : Word64 := wordE 0x30 m (5 * 2 ^ 38 + 6 * 2 ^ 33 + 3)

/-- SEND of one beat to queue 2 of tile 33, which is in another ring. -/
def sendS (w : Word64) : State := eng w [(5, 0), (6, BitVec.ofNat 64 (33 * 16 + 2 * 2 ^ 32))]

theorem test_send : Issues (sendS (sendW 0)) 0 0 (sendW 0) ∧ (after (.send 0 0) (sendS (sendW 0))).sends.length = 1 ∧
    (after (.latSendComplete 0) (after (.send 0 0) (sendS (sendW 0)))).beats =
      [⟨1, 0, 33, some 0, .data 2 (List.replicate 64 0), false, 0, 0, []⟩] ∧
    tokGet (after (.latSendComplete 0) (after (.send 0 0) (sendS (sendW 0)))) 0 0 3 = 1 :=
  ⟨issues_of (by decide +kernel), by decide +kernel, by decide +kernel, by decide +kernel⟩

/-- MSEND to columns 0 to 1 of ring 0. -/
theorem test_msend : Issues (eng (sendW 1) [(6, 0x100)]) 0 0 (sendW 1) ∧ rectOf (eng (sendW 1) []) 0 0x100 = some [0, 1] ∧
    (after (.msend 0 0) (eng (sendW 1) [(6, 0x100)])).sends.length = 1 ∧
    threadState (after (.msend 0 0) (eng (sendW 1) [(6, 0x10100)])) 0 0 = 4 :=
  ⟨issues_of (by decide +kernel), by decide +kernel, by decide +kernel, by decide +kernel⟩

def beatS (d : TileId) (phase : Nat) : State := { eng 0 [] with beats := [⟨1, 32, d, some 0, .data 0 (List.replicate 64 3), false, phase, 0, []⟩] }

/-- A beat fills the first slot of queue 0 of tile 0. -/
theorem test_beat_arrival : let s := { beatS 0 2 with beats := [⟨1, 0, 0, some 0, .data 0 (List.replicate 64 3), false, 0, 0, []⟩] }
    canArrive s 0 ⟨1, 0, 0, some 0, .data 0 (List.replicate 64 3), false, 0, 0, []⟩ = true ∧ tqFill (after (.beatArrival 0 [] none) s) 0 0 = 1 ∧
    spByte (after (.beatArrival 0 [] none) s) 0 0x43F = 3 ∧ spMark (after (.beatArrival 0 [0] none) s) 0 0x400 128 = 1 ∧
    (after (.beatArrival 0 [] none) s).beats = [] := by decide +kernel

/-- A beat from ring 1 to ring 0 enters the boundary buffer, and is taken out. -/
theorem test_crossing : crossTile (beatS 0 0) ⟨1, 32, 0, some 0, .data 0 (List.replicate 64 3), false, 0, 0, []⟩ = some 0 ∧
    ((after (.boundaryCrossing 0) (beatS 0 0)).beats.map (fun b => b.phase)) = [1] ∧
    ((after (.boundaryCrossing 0) (beatS 0 1)).beats.map (fun b => b.phase)) = [2] ∧
    fld (after (.crossingUnderrun (.beat 0) 0) (beatS 0 1)) (aRtr 0) 48 8 = 1 := by decide +kernel

/-! ## Chains and commands from code -/

def chainW : Word64 := wordE 0x34 0 (5 * 2 ^ 38)
def chainS : State := { eng chainW [(5, 0x200)] with sp := cells 0x200 chainDesc }

/-- CHAIN waits; CHAIN_BEGIN starts it in slot 0 and lets its thread go on. -/
theorem test_chain : Issues chainS 0 0 chainW ∧ (after (.chain 0 0) chainS).chainWaits = [⟨0, 1, 0, some 0, none, chainDesc⟩] ∧
    threadState (after (.chain 0 0) chainS) 0 0 = 2 := ⟨issues_of (by decide +kernel), by decide +kernel, by decide +kernel⟩

def waitS : State := { setFld (eng chainW []) (aThread 0 0) 0 3 2 with chainWaits := [⟨0, 1, 0, some 0, none, chainDesc⟩] }

theorem test_chain_begin : (chainOf (after (.chainBegin 0 none) waitS) 0 0).isSome = true ∧
    threadState (after (.chainBegin 0 none) waitS) 0 0 = 1 ∧ threadPc (after (.chainBegin 0 none) waitS) 0 0 = 1 ∧
    (chainOf (after (.chainBegin 0 (some 7)) { eng 0 [] with chainWaits := [⟨0, 1, 0, none, some 7, chainDesc⟩] }) 0 0).isSome = true := by
  decide +kernel

def chainRun (n m : Nat) : State := { eng 0 [] with chains := [(0, some ⟨1, 0, none, none, chainDesc, 0, [n], [m]⟩)] }

/-- The one iteration of the stage starts in the vector unit; then the chain ends. -/
theorem test_chain_iteration : (engOf (after (.chainIterationStart 0 0 0) (chainRun 0 0)) 0 2).running.isSome = true ∧
    (after (.chainIterationStart 0 0 0) (chainRun 1 0)).engines = [] ∧
    chainOf (after (.chainEnd 0 0) (chainRun 1 1)) 0 0 = none ∧ (chainOf (after (.chainEnd 0 0) (chainRun 1 0)) 0 0).isSome = true := by
  decide +kernel

def ucmdW : Word64 := wordE 0x3C 0 (5 * 2 ^ 38 + 6 * 2 ^ 33 + 3)

/-- UCMD of a NOP to the module's page. -/
theorem test_ucmd : Issues (eng ucmdW [(5, 0x200), (6, 2)]) 0 0 ucmdW ∧ codePage (eng ucmdW []) 1 2 = some (.module 1) ∧
    codeWaiting (eng ucmdW []) (.module 1) = 0 ∧
    (after (.ucmd 0 0) (eng ucmdW [(5, 0x200), (6, 2)])).cmds =
      [⟨0, .module 1, 1, .code 0 0 0 0x200 3, List.replicate 64 0, false, [], stOk, none, 0, 0⟩] :=
  ⟨issues_of (by decide +kernel), by decide +kernel, by decide +kernel, by decide +kernel⟩

theorem test_ucmd_complete : let s := { eng 0 [] with codeDone := [⟨0, 0, 0, 0x200, 3, stAborted, 9⟩] }
    spRead (after (.ucmdComplete 0) s) 0 0x240 8 = [stAborted, 0, 9, 0, 0, 0, 0, 0] ∧ tokGet (after (.ucmdComplete 0) s) 0 0 3 = 1 := by
  decide +kernel

/-- ENGINE_FAULT with cause 0, and with a cause: the context is FAULTED. -/
theorem test_engine_fault : threadState (after (.engineFault 0 0 0) (eng 0 [])) 0 0 = 1 ∧
    threadState (after (.engineFault 0 0 9) (eng 0 [])) 0 0 = 4 ∧ fld (after (.engineFault 0 0 9) (eng 0 [])) (aThread 0 0) 32 8 = 9 ∧
    ctxState (after (.engineFault 0 0 9) (eng 0 [])) 1 = 5 := by decide +kernel
/-! ## Shutters -/

def shutS : State := mk (served 3)

/-- A request closes ring 2, and the freeze, the withdrawal and the opening follow. -/
theorem test_shutter_request : let s := { shutS with dbgScope := 2 }
    mayRaise s 2 6 9 = true ∧ mayRaise s 2 0 9 = false ∧ shutState (after (.shutterRequest 2 6 9) s) 2 = 1 ∧
    shutState (after (.shutterRequest 2 0 9) s) 2 = 0 ∧ (shutOf (after (.shutterRequest 2 6 9) s) 2).reqs = [⟨6, 9, 0⟩] := by decide +kernel

def frozenS : State := { setFld shutS (aShtState 2) 0 2 2 with shuts := [(2, ⟨[⟨0, 9, 0⟩], 0, 1, 0, 0, [], []⟩)] }

theorem test_shutter_withdraw : shutState (after (.shutterWithdraw 2 0 9) frozenS) 2 = 3 ∧
    shutState (after (.shutterWithdraw 2 0 8) frozenS) 2 = 2 ∧
    shutState (after (.shutterOpen 2) { setFld shutS (aShtState 2) 0 2 3 with shuts := [(2, ⟨[], 0, 1, 0, 30, [], []⟩)] }) 2 = 0 ∧
    fld (after (.shutterOpen 2) { setFld shutS (aShtState 2) 0 2 3 with shuts := [(2, ⟨[], 0, 1, 0, 30, [], []⟩)] }) (aShtLast 2) 16 32 = 30 := by
  decide +kernel

/-- Rings 2 and 3 one domain with a skew of 16 eighths at crossing 2. -/
def skewS (e : Nat) : State := { setFld shutS aShtMap 12 4 2 with skew := [(4, e)] }

theorem test_skew_hold : shutState (after (.skewHold 2 0) (skewS 16)) 2 = 1 ∧ shutState (after (.skewHold 2 0) (skewS 15)) 2 = 0 ∧
    (shutOf (after (.skewHoldExpire 2 0) (after (.skewHold 2 0) (skewS 16))) 2).reqs = [] := by decide +kernel

/-- The stretch of region 15 touches its one crossing; 16 periods must pass before the next. -/
theorem test_stretch : (after (.adaptiveStretch 15 4) shutS).skew = [(29, 4)] ∧ (after (.adaptiveStretch 0 1) shutS).skew = [(0, 1)] ∧
    (after (.adaptiveStretch 15 4) (after (.adaptiveStretch 15 4) shutS)).skew = [(29, 4)] := by decide +kernel

/-- From 50 ns before a switch a skew of one cycle holds. -/
theorem test_pre_switch : shutState (skewCheck { skewS 8 with preSwitch := true } 2 0) 2 = 1 ∧ shutState (skewCheck (skewS 8) 2 0) 2 = 0 ∧
    (after .preSwitchSkewHold shutS).preSwitch = false := by decide +kernel

theorem test_debug_hold : shutState (after (.debugHold 1 true) { shutS with dbgScope := 2 }) 1 = 1 ∧
    shutState (after (.debugHold 1 true) { shutS with dbgScope := 1 }) 1 = 0 := by decide +kernel

/-! ## Ill-formed operands change nothing -/

theorem test_wf_cause : Instr.wf (.shutterRequest 0 7 0) = false ∧ after (.shutterRequest 0 7 0) shutS = shutS ∧
    Instr.wf (.shutterWithdraw 0 7 0) = false ∧ after (.shutterWithdraw 0 7 0) shutS = shutS := by decide +kernel

theorem test_wf_stretch : Instr.wf (.adaptiveStretch 23 1) = false ∧ after (.adaptiveStretch 23 1) shutS = shutS ∧
    Instr.wf (.adaptiveStretch 0 0) = false ∧ after (.adaptiveStretch 0 0) shutS = shutS ∧
    Instr.wf (.adaptiveStretch 0 5) = false ∧ after (.adaptiveStretch 0 5) shutS = shutS := by decide +kernel

theorem test_wf_region : Instr.wf (.cdcStall 1 23 0) = false ∧ after (.cdcStall 1 23 0) shutS = shutS ∧
    Instr.wf (.cdcStall 1 0 23) = false ∧ after (.cdcStall 1 0 23) shutS = shutS := by decide +kernel

theorem test_wf_decode : Instr.wf (.sampleDecodeComplete 48) = false ∧ after (.sampleDecodeComplete 48) shutS = shutS ∧
    Instr.wf (.casDispatch 48) = false ∧ after (.casDispatch 48) shutS = shutS := by decide +kernel

/-- An idle flit. -/
def hdr0 : FlitHdr := ⟨0, 0, false, false, 0, true, true, 0, 0, 0, 0, 0, 0, 0, 0, 0, 0, false⟩
def flit0 : Flit := ⟨hdr0, [], true, true, true⟩
def wire0 : WireFlit := ⟨0, [], [], 0⟩

theorem test_wf_port : Instr.wf (.flitReceive 9 wire0) = false ∧ after (.flitReceive 9 wire0) shutS = shutS ∧
    Instr.wf (.credit 9 []) = false ∧ after (.credit 9 []) shutS = shutS ∧
    Instr.wf (.noCodewordTimeout 9) = false ∧ after (.noCodewordTimeout 9) shutS = shutS := by decide +kernel

theorem test_wf_engine : Instr.wf (.engineHang (.decode 48)) = false ∧ after (.engineHang (.decode 48)) shutS = shutS ∧
    Instr.wf (.engineReset (.decode 48)) = false ∧ after (.engineReset (.decode 48)) shutS = shutS ∧
    Instr.wf (.engineResetComplete (.decode 48)) = false ∧ after (.engineResetComplete (.decode 48)) shutS = shutS := by decide +kernel
/-! ## The memory system -/

/-- A line request of context 1 at level 0 with age 8, from cycle 0 or later. -/
def reqOf (since : Nat) (k : ReqKind) : Req := ⟨0, 1, 0, 1, since, 1, 0, 0, false, false, 0, 0, k⟩

/-- A slice with a request; the group of address 0 held where `held` is true. -/
def sliceS (held : Bool) (q : Req) : State := { setFld (eng 0 []) (aMemPrio 0) 8 16 8 with
  reqs := [q], groups := if held then [(0, { grpNone with valid := true, filled := true, ctx := 1, bytes := [(5, some 6)] })] else [] }

/-- A gather that hits is captured; one that misses waits for the fill. -/
theorem test_slice_gather :
    let q := reqOf 0 (.gather 0 0)
    let g : Gath := ⟨0, 1, 0, some 0, 3, 5, 0, 1, false, none, 0⟩
    ((after (.sliceRequest 0) { sliceS true q with gaths := [g] }).gaths.map (fun x => (x.cap.map (fun c => c.data.getD 5 0)))) = [some 6] ∧
    (after (.sliceRequest 0) (sliceS false q)).fills = [⟨0, [q]⟩] ∧ (after (.sliceRequest 0) (sliceS false q)).reqs = [] := by decide +kernel

/-- A request of age 8 is aged at cycle 8, not at 7; of those that are not, the level with the largest credit is served. -/
theorem test_choose :
    let s (since : Nat) : State := { sliceS true (reqOf 0 (.gather 0 0)) with reqs := [{ reqOf since (.gather 0 0) with level := 0 },
      { reqOf since (.gather 1 0) with level := 1 }] }
    let w (x : State) : State := setFld (setFld x (aMemPrio 1) 0 8 9) (aMemPrio 1) 8 16 8
    ((choose (w (s 0)) 0).map (fun x => x.1.level)) = some 1 ∧
    ((choose (setFld (w (s 0)) (aMemPrio 0) 8 16 0) 0).map (fun x => x.1.level)) = some 0 := by decide +kernel

theorem test_slice_read :
    let s := { memS 0 { memStrm with caps := [], outst := [(0, 0)] } 1 with
      reqs := [reqOf 0 (.read 0 0 0)], groups := [(0, { grpNone with valid := true, filled := true, ctx := 1 })] }
    ((strmOf (after (.sliceRequest 0) s) 0 0).map (fun x => (x.caps.length, x.outst))) = some (1, []) := by decide +kernel

theorem test_slice_write :
    let q := reqOf 0 (.write 0 0 [(7, 3)] [] [] 0)
    grpByte (after (.sliceRequest 0) (sliceS true q)) 0 7 = 3 ∧ grpByte (after (.sliceRequest 0) (sliceS true q)) 0 5 = 6 := by decide +kernel

/-- A fill ends with a good word; with a line that link ECC cannot correct in both reads the waiter sees the mark; a word that is
wrong once counts as the success of step 4. -/
theorem test_group_fill :
    let s := { sliceS false (reqOf 0 (.gather 0 0)) with
      reqs := [], fills := [⟨0, [reqOf 0 (.gather 0 0)]⟩],
      gaths := [⟨0, 1, 0, some 0, 3, 5, 0, 1, false, none, 0⟩] }
    let clean : LinkReport := ⟨[], [], [], 0, []⟩
    let noisy : LinkReport := ⟨[], [], [], 0, [1]⟩
    ((after (.groupFill 0 clean) s).gaths.map (fun x => x.cap.map (fun c => c.mark))) = [some 0] ∧
    ((after (.groupFill 0 ⟨[3], [3], [], 0, []⟩) s).gaths.map (fun x => x.cap.map (fun c => c.mark))) = [some 3] ∧
    ((after (.groupFill 0 ⟨[2], [], [], 0, []⟩) s).gaths.map (fun x => x.cap.map (fun c => c.mark))) = [some 0] ∧
    ((after (.groupFill 0 noisy) s).gaths.map (fun x => x.cap.map (fun c => c.mark))) = [some 0] ∧
    fld (after (.groupFill 0 noisy) s) (aTslInteg 0) 0 16 = 1 ∧ (after (.groupFill 0 clean) s).fills = [] := by decide +kernel

def mergeS (joined mcount : Nat) : State := { eng 0 [] with
  merges := [⟨0, 1, 1, mcount, List.replicate joined (reqOf 0 (.gather 0 0), none), some (List.replicate 128 4, 0), 0, false⟩],
  gaths := [⟨0, 1, 0, some 0, 3, 5, 0, 1, false, none, 0⟩] }

/-- Both subscribers have joined: delivery; one has: the split. -/
theorem test_merges : (after (.mergeDelivery 0 0) (mergeS 1 1)).merges = [] ∧
    ((after (.mergeDelivery 0 0) (mergeS 1 1)).gaths.map (fun x => x.cap.map (fun c => c.data.length))) = [some 128] ∧
    ((after (.mergeDelivery 0 0) (mergeS 1 2)).merges.length) = 1 ∧
    ((after (.mergeSplit 0 0) (mergeS 1 2)).merges.map (fun m => m.closed)) = [true] ∧
    ((after (.mergeSplit 0 0) (mergeS 1 1)).merges.map (fun m => m.closed)) = [false] := by decide +kernel

theorem test_table_walk :
    let s := { mapPages (eng 0 []) 1 3 1 true true with walks := [⟨0, 1, 3⟩] }
    getF (walk s 1 3) 0 1 = 1 ∧ s.walks.find? (fun w => w.t == 0) = some ⟨0, 1, 3⟩ ∧ getF (walk (eng 0 []) 1 3) 0 1 = 0 := by decide +kernel

theorem test_stack_hot : fld (after (.stackHot 7 true) shutS) (aStack 7) 48 1 = 1 ∧
    fld (after (.stackHot 7 false) (after (.stackHot 7 true) shutS)) (aStack 7) 48 1 = 0 ∧ (after (.refresh 7) shutS).dram = [] := by
  decide +kernel

/-- A deferred row is mapped out where its context does not run, and waits where it does. -/
theorem test_row_map_out :
    let s (st : Word64) : State := { setFld (mk (served st)) (aTask 0 0) 0 8 3 with gov := { govReset with deferred := [(5, true)] } }
    rowTask (s 4) 0 5 = none ∧ (after (.rowMapOutDeferred 1) (s 4)).gov.deferred = [] ∧
    fld (after (.rowMapOutDeferred 1) (s 4)) (aRmap 0 0 0) 4 10 = 5 ∧ (after (.rowMapOutDeferred 1) (s 3)).gov.deferred = [(5, true)] := by
  decide +kernel

theorem test_cdc : partBusy (after (.cdcStall 9 22 0) shutS) 0 = true ∧ fld (after (.cdcStall 9 22 0) shutS) aCdc 16 5 = 22 ∧
    regionPart 0 = some 0 ∧ (after (.resync 9) { shutS with sup := { supReset with inputOn := true, cdcErr := [9] } }).sup.cdcErr = [] := by decide +kernel

theorem test_router_fault : (after (.routerFault 4) shutS).flash.oos = [4] ∧ ringBusy (after (.routerFault 4) shutS) 4 = true ∧
    (after (.routerFault 4) { shutS with flash := { flashReset with oos := [4] } }).resets = [] := by decide +kernel
/-! ## Owner commands -/

def ownS (op : Byte) (x : List Byte) : State := ucb 1 .owner (entry op x)

theorem test_commit : Accepts (ownS 0x1B []) .owner 0x1B (cmdOf (ownS 0x1B []) .owner) (takenOf (ownS 0x1B []) .owner) ∧
    done (ownS 0x1B []) (.commit .owner) = true := ⟨accepts_of (by decide +kernel), by decide +kernel⟩

/-- OWNER_SET is accepted; with three slots programmed it is malformed. -/
theorem test_owner_set : Accepts (ownS 0x1C []) .owner 0x1C (cmdOf (ownS 0x1C []) .owner) (takenOf (ownS 0x1C []) .owner) ∧
    fld (after (.ownerSet .owner) { ownS 0x1C [] with otp := ⟨[[], [], []], 0, 0, 0, 0, 0⟩ }) (pageA .owner + 0x38) 0 8 = stMalformed.toNat :=
  ⟨accepts_of (by decide +kernel), by decide +kernel⟩

theorem test_peer_policy : Accepts (ownS 0x1D []) .owner 0x1D (cmdOf (ownS 0x1D []) .owner) (takenOf (ownS 0x1D []) .owner) :=
  accepts_of (by decide +kernel)

theorem test_dbg_unlock : Accepts (ownS 0x1E []) .owner 0x1E (cmdOf (ownS 0x1E []) .owner) (takenOf (ownS 0x1E []) .owner) ∧
    entropyOk (ownS 0x1E []) = true := ⟨accepts_of (by decide +kernel), by decide +kernel⟩

theorem test_mod_reset : Accepts (ownS 0x1F []) .owner 0x1F (cmdOf (ownS 0x1F []) .owner) (takenOf (ownS 0x1F []) .owner) ∧
    modeOf (after (.modReset .owner) { ownS 0x1F [] with sup := { supReset with inputOn := true } }) = 0 :=
  ⟨accepts_of (by decide +kernel), by decide +kernel⟩

/-- The last partition is 19. -/
theorem test_part_reset : Accepts (ownS 0x20 [19]) .owner 0x20 (cmdOf (ownS 0x20 [19]) .owner) (takenOf (ownS 0x20 [19]) .owner) ∧
    partBusy (after (.partReset .owner) (ownS 0x20 [19])) 19 = true ∧ acceptsB (ownS 0x20 [20]) .owner 0x20 = false :=
  ⟨accepts_of (by decide +kernel), by decide +kernel, by decide +kernel⟩

def dbgE (slots : Nat) : List Byte := entry 0x21 (List.replicate 8 0 ++ [3] ++ List.replicate 7 0 ++ bytesOf 64 8 ++ bytesOf slots 4)

def dbgS (slots : Nat) : State := waits (mapPages (mk (served 1)) 1 0 1 true true) (held (.module 1) (dbgE slots))

theorem test_dbg_mode : Accepts (dbgS 4) (.module 1) 0x21 (cmdOf (dbgS 4) (.module 1)) (takenOf (dbgS 4) (.module 1)) ∧
    ctxDebug (after (.dbgMode (.module 1)) (dbgS 4)) 1 = true ∧ fld (after (.dbgMode (.module 1)) (dbgS 4)) (aHz 1) 33 1 = 1 ∧
    ctxDebug (after (.dbgMode (.module 1)) (dbgS 0)) 1 = false :=
  ⟨accepts_of (by decide +kernel), by decide +kernel, by decide +kernel, by decide +kernel⟩

/-! ## Register writes by a pair -/

/-- Pair 0 is the owner session's, pair 5 context 1's; the queue of context 1's page has 16 entries. -/
def hosts : State := mk (served 1 ++ [(aPair 0, 5), (aPair 5, 0x11), (pageA (.module 1) + 0x28, BitVec.ofNat 64 (4 + 2 ^ 63)),
  (pageA (.module 1) + 0x38, 0)])

theorem test_host_serves : serves hosts 0 = true ∧ serves hosts 5 = true ∧ serves hosts 6 = false ∧ serves hosts 63 = false ∧
    reaches hosts 5 (.module 1) = true ∧ reaches hosts 0 (.module 1) = false ∧ reaches hosts 0 .owner = true := by decide +kernel

/-- The largest TAIL is 15; 16 is a violation. -/
theorem test_doorbell : qTail (after (.doorbell 5 (.module 1) 15) hosts) (.module 1) = 15 ∧
    qTail (after (.doorbell 5 (.module 1) 16) hosts) (.module 1) = 0 ∧ fld (after (.doorbell 5 (.module 1) 16) hosts) aVlog1 0 8 = 6 ∧
    fld (after (.doorbell 0 (.module 1) 1) hosts) aVlog1 0 8 = 5 := by decide +kernel

theorem test_ucb_cq : fld (after (.ucbCqWrite 5 (.module 1) (BitVec.ofNat 64 (12 + 2 ^ 63))) hosts) (pageA (.module 1) + 0x28) 0 4 = 12 ∧
    (after (.ucbCqWrite 5 (.module 1) 5) (after (.doorbell 5 (.module 1) 1) hosts)) = after (.doorbell 5 (.module 1) 1) hosts := by
  decide +kernel

theorem test_resume_flush :
    let s := setFld hosts (pageA (.module 1) + 0x30) 32 1 1
    qStopped s (.module 1) = true ∧ qStopped (after (.resume 5 (.module 1)) s) (.module 1) = false ∧
    qStopped (after (.flush 5 (.module 1)) s) (.module 1) = false := by decide +kernel

theorem test_err_valid :
    let s := setFld (setFld hosts (pageA (.module 1) + 0x30) 48 1 1) (pageA (.module 1) + 0x30) 40 8 7
    fld (after (.errValidClear 5 0x130 false) s) 0x130 48 1 = 0 ∧ fld (after (.errValidClear 5 0x130 true) s) 0x130 48 1 = 1 ∧
    fld (after (.errValidClear 5 0x130 true) s) 0x130 40 8 = 1 := by decide +kernel

theorem test_register_write : pageCtx (after (.registerWrite 0 0x1018 9) hosts) .owner = 9 ∧
    fld (after (.registerWrite 0 0xC000 2) hosts) 0xC000 0 2 = 2 ∧ fld (after (.registerWrite 5 0xC000 2) hosts) aVlog1 0 8 = 4 ∧
    fld (after (.registerWrite 0 0xC004 2) hosts) aVlog1 0 8 = 1 ∧ fld (after (.registerWrite 0 0x8040 2) hosts) aVlog1 0 8 = 3 := by
  decide +kernel

theorem test_hold : shutState (after (.hold 0 3 1) hosts) 3 = 1 ∧
    (shutOf (after (.hold 0 3 0) (after (.hold 0 3 1) hosts)) 3).reqs = [] := by decide +kernel

theorem test_disable : portState (after (.disable 0 2 8) hosts) 2 = 4 ∧ portState (after (.disable 0 2 0) (after (.disable 0 2 8) hosts)) 2 = 0 := by
  decide +kernel

theorem test_reenable : pairOn (after (.reenable 0 5) (setFld hosts (aPair 5) 0 2 2)) 5 = true ∧
    after (.reenable 0 5) hosts = hosts := by decide +kernel

/-- RD may go as far as WR, and no further. -/
theorem test_ledger : fld (after (.ledgerRdWrite 5 1 (BitVec.ofNat 64 (3 * 2 ^ 32))) (setFld hosts (aLedger 1) 0 32 3)) (aLedger 1) 32 32 = 3 ∧
    fld (after (.ledgerRdWrite 5 1 (BitVec.ofNat 64 (4 * 2 ^ 32))) (setFld hosts (aLedger 1) 0 32 3)) (aLedger 1) 32 32 = 0 := by decide +kernel

theorem test_perf_select : fld (after (.perfSelWrite 0 3 0x12) hosts) (modG 0x4118) 0 8 = 0x12 ∧ selListed true 0x12 = true ∧
    selListed true 0x13 = false ∧ fld (after (.perfMselWrite 0 3 0x800) hosts) (modG 0x4158) 8 4 = 8 ∧ selListed false 0x800 = true := by
  decide +kernel

/-- 1,000 ns and 1 s are windows; 999 ns is not. -/
theorem test_window : fld (after (.windowWrite 0 1000) hosts) (modG 0x4200) 0 32 = 1000 ∧
    fld (after (.windowWrite 0 1000000000) hosts) (modG 0x4200) 0 32 = 1000000000 ∧
    fld (after (.windowWrite 0 999) hosts) (modG 0x4200) 0 32 = 1000000 := by decide +kernel

/-! ## Requests -/

theorem test_reg_requests : fld (after (.regWr 0 9 0xC000 8 2) hosts) 0xC000 0 2 = 2 ∧ fld (after (.regWr 0 9 0xC000 4 2) hosts) aVlog1 0 8 = 7 ∧
    (after (.regRd 0 9 0xC000 8) (setReg hosts 0xC000 2)).replies = [⟨0, 9, stOk, 0xC000, [2, 0, 0, 0, 0, 0, 0, 0]⟩] ∧
    (after (.regRd 0 9 0xC000 4) (setReg hosts 0xC000 2)).replies = [] ∧
    ((after (.regRd 6 9 0xC000 8) hosts).cq.map (fun e => e.status)) = [stRefuse] := by decide +kernel

/-- 4,096 bytes of one 4 KiB page; one byte on, the request crosses. -/
theorem test_mem_length : memLenOk 0x3000 4096 = true ∧ memLenOk 0x3001 4096 = false ∧ memLenOk 0x3000 0 = false ∧
    memLenOk 0x3000 4097 = false := by decide +kernel

def line : List Byte := List.replicate 128 5

theorem test_mem_requests : memOk hosts 0 0x3FF80 128 true = true ∧ memOk hosts 0 0x3FF81 128 true = false ∧
    ((after (.memRd 0 9 0x80 128) (after (.memWr 0 9 0x80 128 line) hosts)).replies.map (fun r => r.data)) = [line] ∧
    ((after (.memRd 5 9 0x80 128) hosts).cq.map (fun e => e.status)) = [stHostXlate] := by decide +kernel
/-! ## The management pair and Latch -/

/-- READY, with the first bottom tree built. -/
def latS : State := { mk (served 1) with latch := { latchReset with treesBuilt := 1 } }

theorem test_health : ((after (.health 9) latS).replies.map (fun r => (r.q, r.tag, r.status, r.data.length))) = [(63, 9, stOk, 43)] := by
  decide +kernel

/-- Port 8 can be the parent; there is no port 9. -/
theorem test_tb_parent : (after (.tbParent 9 8) latS).gov.parentNext = some 8 ∧ (after (.tbParent 9 9) latS).gov.parentNext = none ∧
    ((after (.tbParent 9 9) latS).replies.map (fun r => r.status)) = [stMalformed] := by decide +kernel

/-- Port 2 is keyed with node 7 and UP. -/
def upS : State := setPort (setPortState latS 2 3) 2 { portOf latS 2 with peerNode := 7, secret := [1], trained := true }

theorem test_peer_reset : portState upS 2 = 3 ∧ portState (after (.peerReset 9 7) upS) 2 = 2 ∧
    portState (after (.peerReset 9 8) upS) 2 = 3 := by decide +kernel

/-- ATTEST answers where signing and random values stand; with no tree it waits; without random values it is refused. -/
theorem test_attest : (treeReady latS && latchServes latS && entropyOk latS && signOk latS) = true ∧ treeReady (mk (served 1)) = false ∧
    (after (.attest 9 1 0xFF) (mk (served 1))).latch.attestWait = [(9, 1, 0xFF)] ∧
    ((after (.attest 9 1 0xFF) (setFld latS aLatch 2 1 0)).replies.map (fun r => r.status)) = [stMalformed] ∧
    ((after (.attest 9 1 3) latS).replies.map (fun r => r.status)) = [stMalformed] ∧ mayReport latS 3 = false ∧ mayReport latS 0xFF = true := by decide +kernel

/-- With no decapsulation key held, OPEN is refused. -/
theorem test_open_refused : latS.latch.decaps.find? (fun k => Config.lmsVerify [] (openTh k.report [] 0 0 1 []) []) = none := rfl

theorem test_nonce : entropyOk latS = true ∧ (after (.nonce 9) latS).latch.nonces.length = 1 ∧
    entropyOk (setFld latS aLatch 2 1 0) = false := by decide +kernel

/-- Bank 0 runs, so bank 1 is written; an offset is a multiple of 4,096. -/
theorem test_img_write : (after (.imgWrite 9 1 4096 2 [7, 8]) latS).flash.bytes = [(0x1801000, some 7), (0x1801001, some 8)] ∧
    (after (.imgWrite 9 0 4096 2 [7, 8]) latS).flash.bytes = [] ∧ (after (.imgWrite 9 1 8 2 [7, 8]) latS).flash.bytes = [] := by
  decide +kernel

theorem test_img_select : (after (.imgSelect 9 1 0) latS).flash.active = 1 ∧ (after (.imgSelect 9 2 0) latS).flash.active = 0 := by
  decide +kernel

theorem test_decaps_expire : (after .decapsKeyExpire { latS with latch := { latS.latch with decaps := [⟨[], [], 5⟩] } }).latch.decaps = [] := by
  decide +kernel

/-- A failed test stops random values, and a retest that passes brings them back. -/
theorem test_entropy : entropyOk (after .entropyTestFail latS) = false ∧ fld (after .entropyTestFail latS) aLatch 16 16 = 1 ∧
    entropyOk (after (.entropyRetest true) (after .entropyTestFail latS)) = true ∧
    entropyOk (after (.entropyRetest false) (after .entropyTestFail latS)) = false := by decide +kernel

/-- The next tree is built at once where none is, and past the half of the last one otherwise. -/
theorem test_bottom_tree : (after .bottomTreeBuild (mk (served 1))).latch.treesBuilt = 1 ∧ (after .bottomTreeBuild latS).latch.treesBuilt = 1 ∧
    (after .bottomTreeBuild { latS with latch := { latS.latch with nextLeaf := 2 ^ 19 + 1 } }).latch.treesBuilt = 2 := by decide +kernel

/-! ## The entries of the X-die engines -/

def xdS (st : Word64) (op : Byte) (x : List Byte) : State := ucb st (.module 1) (entry op x)

theorem test_config_entries : (acceptsB (xdS 1 0x14 []) (.module 1) 0x14 && acceptsB (xdS 3 0x15 []) (.module 1) 0x15 &&
    acceptsB (xdS 1 0x16 []) (.module 1) 0x16 && acceptsB (xdS 1 0x17 []) (.module 1) 0x17) = true := by decide +kernel
/-! ## The reduction engine -/

/-- A job of one bucket of 16 FP32 elements at 0x200, one slot of the ledger at 0x400; its bucket descriptor at 128. -/
def redDesc : List Byte :=
  [1, 0, 0, 0, 0, 1, 0, 0] ++ bytesOf 0 4 ++ bytesOf 1 4 ++ bytesOf 0x400 8 ++ List.replicate 40 0 ++
    bytesOf 128 8 ++ bytesOf 1 4 ++ bytesOf 20 4 ++ List.replicate 48 0 ++
    bytesOf 0x200 8 ++ bytesOf 0 4 ++ bytesOf 16 4 ++ bytesOf 0x280 8 ++ bytesOf 0 8 ++ bytesOf 0 8 ++ bytesOf 0 8 ++ bytesOf 0x300 8 ++
    bytesOf 0 8

/-- The first page of context 1 is mapped, with nothing written. -/
def redMap : State := mapPages (mk (served 1)) 1 0 1 true true

theorem test_red_config :
    let b := redDesc.drop 128
    let x := newBucket redDesc 0 0 b
    jobOk redDesc = true ∧ bucketOk redMap 1 redDesc b x true 1 0 = true ∧ regionOk redMap 1 0x400 (recSize 1) = true ∧
    bucketOk redMap 1 redDesc b { x with elems := 15 } true 1 0 = false ∧ x.base = 0x200 ∧ x.elems = 16 ∧ x.cfmt = 10 ∧
    x.shardBase = 0x280 ∧ x.doneVa = 0x300 ∧ recSize 1 = 384 := by decide +kernel

/-- A bucket of 16 FP32 elements whose shard is at 0x40 and whose gather is at 0x80. -/
def bk : Bucket := { newBucket [] 0 0 [] with
  cfmt := 10, gfmt := 10, base := 0, elems := 16, shardBase := 0x40, gatherBase := 0x80, doneVa := 0x40 }

/-- A job of that bucket, of rank r of N, in a context that runs. -/
def redAt (s : State) (N r : Nat) (pol : Word64) (b : Bucket) : State :=
  let s := setReg (setReg s (aRank 1) (BitVec.ofNat 64 (r + N * 65536))) (aPolicy 1) pol
  setRed s 1 (some ⟨4, 0x400, [b], 0, [], [], 0, false, none, false⟩)

/-- With no page mapped. -/
def redS : Nat → Nat → Word64 → Bucket → State := redAt (mk (served 3))

/-- With zeros at the start of its page. -/
def redM : Nat → Nat → Word64 → Bucket → State := redAt (withBytes 3 (List.replicate 128 0))

def bkOf (s : State) : Option Bucket := (redOf s 1).bind (fun j => bucketOf j 0 0)

/-- Nothing has happened to the bucket, and nothing was sent. -/
def still (i : Instr) (s : State) : Bool := bkOf (after i s) == bkOf s && (after i s).out.length == s.out.length

/-- 64 bytes of a filling bucket seal it; a rank alone decides at once. -/
theorem test_seal : ((bkOf (after (.bucketSeal 1 0 0) (redM 1 0 0 { bk with st := 1, count := 64 }))).map
    (fun b => (b.st, b.contrib.length, b.decision.isSome, b.quar))) = some (2, 16, true, false) ∧
    headIsHere (redS 1 0 0 bk) 1 = true := by decide +kernel

theorem test_seal_overrun : ctxState (after (.bucketSeal 1 0 0) (redS 1 0 0 { bk with st := 1, count := 65 })) 1 = 5 ∧
    still (.bucketSeal 1 0 0) (redS 1 0 0 { bk with st := 1, count := 63 }) = true := by
  decide +kernel

/-- The second of two notices decides; the first does not. -/
def note (r : Nat) (step : BitVec 32) : NoticeMsg := ⟨0, 0, step, r, 0, false, false⟩

theorem test_notice :
    let one := after (.redNotice 1 (note 1 5)) (redS 2 0 0 { bk with st := 2, step := 5 })
    (((bkOf one).map (fun b => (b.headOpen, b.notices.length, b.decision.isSome))) = some (some 5, 1, false)) ∧
    (((bkOf (after (.redNotice 1 (note 0 5)) one)).map (fun b => (b.headLast, b.notices.length, b.decision.map (fun d => d.noticed)))) =
      some (some 5, 0, some 3)) ∧
    still (.redNotice 1 (note 2 5)) one = true ∧
    ((after (.redNotice 1 (note 1 6)) one).out.map (fun m => m.op)) = [0x22] := by decide +kernel

/-- At the deadline of a tolerant job, 1,000 ns on, the head decides with what it has. -/
theorem test_deadline :
    let s := after (.redNotice 1 (note 0 5)) (redS 2 0 (BitVec.ofNat 64 (1 + 1000 * 2 ^ 32)) { bk with st := 2, step := 5 })
    ((bkOf (after (.redDeadline 1 0 0) s)).map (fun b => b.decision)) = some (some ⟨true, 1000, 1, 0⟩) ∧
    tolerant s 1 = true ∧ inReplay s 1 = false := by decide +kernel

theorem test_decide :
    ((bkOf (after (.redDecide 1 ⟨0, 0, 5, false, 7, 2, 3, 0⟩) (redS 2 0 0 { bk with st := 2, step := 5 }))).map (fun b => b.decision)) =
      some (some ⟨false, 7, 3, 0⟩) ∧
    still (.redDecide 1 ⟨0, 0, 5, false, 7, 3, 3, 0⟩) (redS 2 0 0 { bk with st := 2, step := 5 }) = true ∧
    still (.redDecide 1 ⟨0, 0, 5, false, 7, 2, 3, 0⟩) (redS 2 0 0 { bk with st := 0 }) = true := by decide +kernel

/-- A sealed bucket enters REDUCING where the ledger has room. -/
theorem test_reduce_start :
    ((bkOf (after (.bucketReduceStart 1) (redS 2 0 0 { bk with st := 2 }))).map (fun b => b.st)) = some 3 ∧
    still (.bucketReduceStart 1) (setFld (redS 2 0 0 { bk with st := 2 }) (aLedger 1) 0 32 4) = true ∧
    ((bkOf (after (.bucketReduceStart 1) (redS 1 0 0
      { bk with st := 2, contrib := List.replicate 16 0, decision := some ⟨false, 0, 1, 0⟩ }))).map
      (fun b => (b.st, b.parts.length))) = some (3, 1) := by decide +kernel

def part (lo span : Nat) : PartMsg := ⟨0, 0, 5, lo, span, 0, 1, false, List.replicate 64 0, false⟩

/-- Rank 1 of 2 owns the one chunk. Its own part and rank 0's make the shard, which is written. -/
theorem test_parts :
    let b := { bk with st := 3, step := 5, decision := some ⟨false, 0, 3, 0⟩, parts := [part 1 1] }
    let s := after (.redPart 1 (part 0 1)) (redS 2 1 0 b)
    ((bkOf s).map (fun b => b.parts.length)) = some 2 ∧ (shardValue b 2 1).isNone ∧
    ((bkOf (after (.redShard 1 (part 0 2)) s)).map (fun b => (b.st, b.result.length))) = some (4, 16) ∧
    ((bkOf (after (.redShard 1 (part 0 2)) (redS 2 1 0 b))).map (fun b => b.st)) = some 4 ∧
    ((bkOf (after (.redShard 1 (part 0 2)) (redS 2 1 0 { b with decision := none }))).map (fun b => (b.st, b.parts.length))) =
      some (3, 2) ∧
    reducing b { part 0 1 with step := 6 } = false ∧ reducing b (part 0 1) = true := by decide +kernel

/-- The sum of ranks 0 comes to rank 1 of 3 and goes on; rank 2's comes whole. -/
theorem test_ordered :
    let b := { bk with st := 3, step := 5, ordered := true, gatherBase := 0, contrib := List.replicate 16 0,
                       decision := some ⟨false, 0, 7, 0⟩ }
    ((after (.redOrdered 1 (part 0 1)) (redS 3 1 0 b)).out.map (fun m => m.op)) = [0x25] ∧
    ((bkOf (after (.redOrdered 1 (part 0 3)) (redS 3 1 0 b))).map (fun b => b.st)) = some 0 ∧
    ((after (.redOrdered 1 (part 0 2)) (redS 3 1 0 b)).out.length,
      ((bkOf (after (.redOrdered 1 (part 0 2)) (redS 3 1 0 b))).map (fun b => (b.st, b.parts.length)))) = (0, some (3, 1)) := by decide +kernel

/-- 64 bytes of rank 1 of 2's range start its gather. -/
theorem test_gather_fill :
    let b := { bk with st := 4, step := 5, gcount := 64, gatherBase := 0x40, decision := some ⟨false, 0, 3, 0⟩ }
    ((bkOf (after (.gatherFill 1 0 0) (redM 2 1 0 b))).map (fun b => (b.st, b.gathered))) = some (0, []) ∧
    gatherOver { b with gathered := [(1, 64)] } 2 = true ∧ gatherOver { b with elems := 128, gathered := [(1, 256)] } 2 = false := by
  decide +kernel

theorem test_gather_fill_due :
    let b := { bk with st := 4, step := 5, gcount := 64, decision := some ⟨false, 0, 3, 0⟩ }
    ctxState (after (.gatherFill 1 0 0) (redS 2 1 0 { b with gcount := 65 })) 1 = 5 ∧
    still (.gatherFill 1 0 0) (redS 2 1 0 { b with gcount := 63 }) = true := by decide +kernel

/-- Bytes of rank 1's range are counted; a byte past it is not taken. -/
theorem test_gather :
    let s := redS 2 0 0 { bk with st := 4, step := 5, decision := some ⟨false, 0, 3, 0⟩ }
    ((bkOf (after (.redGather 1 ⟨0, 0, 5, 1, 0, List.replicate 64 7, false⟩) s)).map (fun b => b.gathered)) = some [(1, 64)] ∧
    still (.redGather 1 ⟨0, 0, 5, 1, 1, List.replicate 64 7, false⟩) s = true := by decide +kernel

theorem test_late_fill :
    let b := { bk with st := 3, late := true, count := 64, carryBase := 0, decision := some ⟨false, 0, 1, 0⟩ }
    let u := after (.lateFillComplete 1 0 0) (redM 2 1 0 b)
    ((bkOf u).map (fun b => b.lateDone)) = some true ∧ fld u (aRedCount 1) 32 16 = 1 ∧
    stepOver { b with lateDone := true } 2 = false := by decide +kernel

/-- An abort of another rank ends the bucket's step; one of this rank needs a context that has faulted. -/
theorem test_abort :
    let s := redS 2 0 0 { bk with st := 3, step := 5 }
    fld (after (.redAbort 1 0 0 5 1 1) s) (aRedCount 1) 48 16 = 1 ∧ fld (after (.redAbort 1 0 0 5 1 1) s) (aRedStatus 1) 0 4 = 4 ∧
    still (.redAbort 1 0 0 5 0 1) s = true ∧ bkOf (after (.redAbort 1 0 0 6 1 1) s) = bkOf s ∧ (after (.redAbort 1 0 0 6 1 1) s).out.length = 1 ∧
    fld (after (.redAbort 1 0 0 5 0 1) (setFld s (aCtx 1) 0 4 5)) (aRedCount 1) 48 16 = 1 := by decide +kernel
/-! ## Expert dispatch -/

/-- Two experts, slot 0 of ranks 0 and 1; rows of 64 B, capacity 1, one route entry; every area at VA 0. -/
def dspDesc : List Byte := [1, 0, 0, 0, 2, 0, 1, 0] ++ bytesOf 1 4 ++ bytesOf 64 4 ++ List.replicate 28 0 ++ bytesOf 1 4 ++
  List.replicate 80 0

def dspJ : DspJob := ⟨dspDesc, [(0, 0), (1, 0)], 0, 0, false, [], [], false, [], [], 0, 0, false, [], 0⟩

theorem test_dsp_descriptor : dspOk redMap 1 dspDesc [(0, 0), (1, 0)] 2 0 = true ∧ dspOk redMap 1 dspDesc [(0, 0), (2, 0)] 2 0 = false ∧
    dspOk redMap 1 dspDesc [(0, 1), (1, 0)] 2 0 = false ∧ ownerOf (1 + 3 * 2 ^ 20) = some (1, 3) ∧ ownerOf (2 ^ 17) = none := by
  decide +kernel

/-- The job on rank 0 of 2. -/
def dspAt (s : State) (j : DspJob) : State := setDsp (setReg s (aRank 1) 0x20000) 1 (some j)

def dspS : DspJob → State := dspAt (mk (served 3))

/-- An entry of TOKEN 0 for expert 0, of source k. -/
def route (k : Nat) : RouteIn := ⟨k, 0, BitVec.ofNat 64 (0xFFF * 2 ^ 32)⟩

theorem test_dsp_routes : ((dspOf (after (.dspRoutes 1 5 1 [(7, 0)]) (dspS dspJ)) 1).map (fun j => j.inbox)) = some [⟨5, 1, [⟨1, 0, 7⟩]⟩] ∧
    ((dspOf (after (.dspRoutes 1 5 1 [(8, 0)]) (dspS { dspJ with inbox := [⟨5, 1, []⟩] })) 1).map (fun j => j.inbox)) =
      some [⟨5, 1, []⟩] := by decide +kernel

/-- The list's one entry goes to the other rank as well; a ninth byte is an overrun. -/
theorem test_route_list :
    let u := after (.routeListFill 1) (dspAt (withBytes 3 (List.replicate 128 0)) { dspJ with rcount := 8 })
    (u.out.map (fun m => m.op)) = [0x40] ∧ ((dspOf u 1).map (fun j => (j.routesOut, j.mine, statAt j 0))) = some (true, [0], 4) ∧
    ctxState (after (.routeListFill 1) (dspS { dspJ with rcount := 9 })) 1 = 5 := by decide +kernel

/-- Of two offers for one place, rank 0's is admitted and rank 1's is not. -/
theorem test_admission :
    let j := { dspJ with routesOut := true, inbox := [⟨0, 1, [route 1]⟩, ⟨0, 0, [route 0]⟩] }
    (roundOne j 0 [route 1, route 0]).1 = [⟨0, 0, 0, 0, 0, false, false⟩] ∧ (roundOne j 0 [route 1, route 0]).2 = [route 1] ∧
    ((dspOf (after (.dspAdmission 1) (dspS j)) 1).map (fun j => (j.admitted, j.admits.length))) = some (true, 1) ∧
    fld (after (.dspAdmission 1) (dspS j)) (aDspCount 1) 0 21 = 1 := by decide +kernel

theorem test_admit_status :
    let j := { dspJ with routesOut := true, mine := [0, 0] }
    fld (after (.dspAdmit 1 0 [⟨0, 2, 0, 0⟩]) (dspS j)) (aDspCount 1) 42 21 = 1 ∧
    ((dspOf (after (.dspAdmit 1 0 [⟨0, 2, 0, 0⟩]) (dspS j)) 1).map (fun j => (statAt j 0, statAt j 1))) = some (2, 4) ∧
    ((dspOf (after (.dspAdmit 1 1 [⟨0, 2, 0, 0⟩]) (dspS j)) 1).map (fun j => statAt j 0)) = some 4 := by decide +kernel

/-- A row of 64 B arrives for the first of two admitted entries. -/
theorem test_row :
    let j := { dspJ with admitted := true, admits := [⟨0, 0, 0, 1, 3, false, false⟩, ⟨0, 0, 1, 1, 4, false, false⟩] }
    let rows (n : Nat) : List Bool := ((dspOf (after (.dspRows 1 ⟨0, 1, 3, 0, false, List.replicate n 0, false⟩) (dspS j)) 1).map
      (fun j => j.admits.map (fun a => a.rowIn))).getD []
    rows 64 = [true, false] ∧ rows 63 = [false, false] := by decide +kernel

/-- The one output row goes back to rank 1. -/
theorem test_out_fill :
    let j := { dspJ with admitted := true, ocount := 64, admits := [⟨0, 0, 0, 1, 3, false, true⟩] }
    ((after (.dspOutFill 1) (dspAt (withBytes 3 (List.replicate 128 0)) j)).out.map (fun m => (m.op, m.payload.length))) = [(0x43, 72)] ∧
    ctxState (after (.dspOutFill 1) (dspS { j with ocount := 65 })) 1 = 5 := by decide +kernel

/-- The last row ends the batch. -/
theorem test_return :
    let j := { dspJ with routesOut := true, phase := 1, mine := [0], stats := [(0, 0)] }
    ((dspOf (after (.dspRet 1 0 0 ⟨List.replicate 64 0, false⟩) (dspS j)) 1).map (fun j => (j.routesOut, j.phase))) = some (false, 0) ∧
    ((dspOf (after (.dspRet 1 0 1 ⟨List.replicate 64 0, false⟩) (dspS j)) 1).map (fun j => (j.routesOut, j.phase))) = some (true, 1) := by
  decide +kernel

/-! ## Casement -/

/-- ROUTE MEMORY, one token of 16 by 16 pixels: a ring of one slot at 0x200, the pool, the consumed word and the log at 0. -/
def casDesc : List Byte := [1, 0, 0, 1, 16, 1, 1, 0] ++ bytesOf 16 2 ++ bytesOf 16 2 ++ List.replicate 24 0 ++ bytesOf 1 4 ++
  bytesOf 0x200 8 ++ List.replicate 24 0 ++ bytesOf 1 4 ++ List.replicate 52 0

def casJ : CasJob := ⟨casDesc, [], 0, [], [], [], []⟩

/-- ROUTE SCRATCH, chain 7, one sample a run. -/
def casSc : CasJob := { casJ with
  desc := (casDesc.set 2 1).take 36 ++ List.replicate 12 0 ++ bytesOf 7 4 ++ bytesOf 1 2 ++ List.replicate 74 0 }

theorem test_cas_descriptor : casDescOk redMap 1 casDesc = true ∧ slotBytes casDesc = 832 ∧ casDescOk redMap 1 (casDesc.set 4 7) = false ∧
    casTable 5 1 ≠ none ∧ casTable 5 2 = none := by decide +kernel

/-- A Casement job of context 1 in state `st`. -/
def casS (s : State) (st : Nat) (j : CasJob) : State := setCas (setFld s (aCasState 1) 0 2 st) 1 j

def casE (op : Byte) (x : List Byte) : State := casS (xdS 3 op x) 1 casJ

theorem test_cas_start : Accepts (casE 0x18 []) (.module 1) 0x18 (cmdOf (casE 0x18 []) (.module 1)) (takenOf (casE 0x18 []) (.module 1)) ∧
    casState (after (.casStart (.module 1)) (casE 0x18 [])) 1 = 2 := ⟨accepts_of (by decide +kernel), by decide +kernel⟩

theorem test_cas_stop :
    let s := casS (xdS 3 0x19 []) 2 casJ
    acceptsB s (.module 1) 0x19 = true ∧ casState (after (.casStop (.module 1)) s) 1 = 3 ∧
    casState (after (.casStopComplete 1) (after (.casStop (.module 1)) s)) 1 = 1 ∧
    done (after (.casStop (.module 1)) s) (.casStopComplete 1) = true ∧ done (casE 0x19 []) (.casStop (.module 1)) = true := by
  decide +kernel

/-- Position 0 of epoch 3, Q 9; the job has one sample, so there is no position 1. -/
theorem test_cas_seek :
    let x (p : Nat) : List Byte := List.replicate 8 0 ++ bytesOf 3 4 ++ bytesOf p 4 ++ bytesOf 9 8
    acceptsB (casE 0x1A (x 0)) (.module 1) 0x1A = true ∧
    reg (after (.casSeek (.module 1)) (casE 0x1A (x 0))) (aCasSeq 1) = 9 ∧
    reg (after (.casSeek (.module 1)) (casE 0x1A (x 0))) (aCasShuf 1) = BitVec.ofNat 64 (3 * 2 ^ 32) ∧
    fld (after (.casSeek (.module 1)) (casE 0x1A (x 1))) (pageA (.module 1) + 0x38) 0 8 = stMalformed.toNat := by decide +kernel

def smp (e : List Byte) : CasSample := ⟨some 0, 0, 0, 0, 0, 0, e, false, 0, 0xFFFF, 0, [], false⟩

/-- The record of a sample whose rows are out follows; the sample is counted. -/
theorem test_consumed :
    let s := casS redMap 2 { casJ with samples := [{ smp [] with eng := none, done := true, rowsOut := true }] }
    ((casOf (after (.consumedRecheck 1) s) 1).map (fun j => j.samples.length)) = some 0 ∧
    fld (after (.consumedRecheck 1) s) (aCasCount 1) 0 32 = 1 := by decide +kernel

/-- A chain of the context with the job's CHAIN_ID starts a run, once. -/
theorem test_scratch_run :
    let ch : Chain := ⟨1, 0, none, some 4, List.replicate 4 0 ++ bytesOf 7 4, 2, [], []⟩
    let s := { casS (mk (served 3)) 2 casSc with chains := [(0, some ch)] }
    let u := after (.scratchRun 1 4) s
    ((casOf u 1).map (fun j => (j.runs.map (fun r => (r.cmd, r.start, r.left)), j.ran))) = some ([(4, 2, 1)], [4]) ∧
    ((casOf (after (.scratchRun 1 4) u) 1).map (fun j => j.runs.length)) = some 1 ∧
    ((casOf (after (.scratchRun 1 5) s) 1).map (fun j => j.runs.length)) = some 0 := by decide +kernel

/-- Engine 0 takes the first position; engine 48 is none. -/
theorem test_cas_dispatch :
    let s := casS (withBytes 3 (List.replicate 128 0)) 2 casSc
    let u := after (.casDispatch 0) s
    (casMayTake s 1).2 = true ∧ ((casOf u 1).map (fun j => j.samples.map (fun x => (x.eng, x.entry.length)))) = some [(some 0, 32)] ∧
    reg u (aCasSeq 1) = 1 ∧ engineBusy u 0 = true ∧
    ((casOf (after (.casDispatch 48) s) 1).map (fun j => j.samples.length)) = some 0 := by decide +kernel

/-- A pool entry with CONTAINER 3 makes a BAD sample of code 07H; CODEC 3 in a transport stream one of code 06H. -/
theorem test_sample_decode :
    let e (b : Byte) : List Byte := List.replicate 8 0 ++ bytesOf 188 4 ++ [b] ++ List.replicate 19 0
    let s (b : Byte) : State := casS (withBytes 3 (List.replicate 256 0)) 2 { casSc with samples := [smp (e b)] }
    let code (b : Byte) : List Byte := ((casOf (after (.sampleDecodeComplete 0) (s b)) 1).map (fun j => j.samples.map (fun x => x.code))).getD []
    entryGood (e 3) = false ∧ code 3 = [7] ∧ entryGood (e 12) = true ∧ code 12 = [6] := by decide +kernel
/-! ## Ports -/

/-- Port 2 is UP and nothing else is. -/
def portS (st : Nat) : State := setPortState (mk (served 1)) 2 st

def data0 (seq : BitVec 12) : Flit := { flit0 with hdr := { hdr0 with type := 1, seq := seq, gang := 7, op := 0x10, dst := 9 } }

def recv (s : State) (f : Flit) : State := receive s 2 f 0

theorem test_flit_bad : fld (recv (portS 3) { flit0 with crcOk := false }) (aPortErr 2) 0 24 = 1 ∧
    ((recv (portS 3) { flit0 with crcOk := false }).tx.map (fun t => (t.port, t.flit.hdr.nakr))) = [(2, 1)] ∧
    (recv (recv (portS 3) { flit0 with crcOk := false }) { flit0 with crcOk := false }).tx.length = 1 ∧
    (recv (portS 1) { flit0 with crcOk := false }).tx.length = 0 ∧
    fld (recv (portS 3) { flit0 with tagOk := false }) (aPortErr 2) 40 16 = 1 := by decide +kernel

/-- TYPE 3 is no flit; its sequence number is spent only where it was due. -/
theorem test_flit_format :
    let f : Flit := { flit0 with hdr := { hdr0 with type := 3 } }
    formatOk (portS 3) 2 f = false ∧ fld (recv (portS 3) f) (aPortViol 2) 16 16 = 1 ∧ (portOf (recv (portS 3) f) 2).expect = 1 ∧
    (portOf (recv (portS 3) { f with hdr := { f.hdr with seq := 1 } }) 2).expect = 0 ∧
    formatOk (portS 3) 2 flit0 = true ∧ formatOk (portS 3) 2 (data0 0) = true := by decide +kernel

/-- A data flit in order is taken, and each one out of order asks for a replay. -/
theorem test_flit_order :
    (portOf (recv (portS 3) (data0 0)) 2).expect = 1 ∧ (portOf (recv (portS 3) (data0 1)) 2).expect = 0 ∧
    (portOf (recv (portS 3) (data0 1)) 2).recovery = false ∧ ((recv (portS 3) (data0 1)).tx.map (fun t => t.flit.hdr.nakr)) = [1] ∧
    (recv (recv (portS 3) { flit0 with fecOk := false }) (data0 1)).tx.length = 1 ∧
    (portOf (recv (portS 2) (data0 0)) 2).expect = 0 := by decide +kernel

/-- 192 flits of a VC that wait for a credit of port 0 are a full buffer. -/
def fullS : State := setPortState (setPort (setReg (portS 3) aNode 0x1FFFF0000) 2
  { portOf (portS 3) 2 with waiting := List.replicate 192 (data0 0) }) 0 3

theorem test_flit_full : (portOf (recv fullS (data0 0)) 2).expect = 0 ∧ fld (recv fullS (data0 0)) (aPortViol 2) 32 16 = 1 := by
  decide +kernel

theorem test_credit : (portOf (after (.credit 2 [192, 193]) (portS 3)) 2).credits.get crDef 0 = 192 ∧
    (portOf (after (.credit 2 [192, 193]) (portS 3)) 2).credits.get crDef 1 = 192 ∧
    fld (after (.credit 2 [192, 193]) (portS 3)) (aPortViol 2) 32 16 = 1 ∧
    fld (after (.credit 2 [192, 192]) (portS 3)) (aPortViol 2) 32 16 = 0 := by decide +kernel

/-- A credit of pair 1 lets its one completion entry go. -/
theorem test_host_credit :
    let e : CqEntry := ⟨1, 0, 0, 0, 1, false, false, 0, 0, 0, 0⟩
    let s := { setPortState (mk (served 1)) 8 3 with cq := [e] }
    (after (.credit 8 [0, 1]) s).cqOut = [e] ∧ (after (.credit 8 [1]) s).cqOut = [] ∧
    (after (.credit 8 [0, 3]) { s with cq := [] }).cqCredit.get crDef 1 = s.cqCredit.get crDef 1 + 3 := by decide +kernel

def ask : TimeMsg := ⟨false, true, false, true, 0, 1, 0, 0, 0⟩

/-- The child of port 2 with exchange 1 out; the parent is 64 units ahead. -/
def childS : State := { setFld (portS 3) aNgTb 0 4 2 with gov := { govReset with exchange := some 1, stepped := true } }

theorem test_time : ((after (.time 2 ask) (portS 3)).tx.map (fun t => (t.flit.hdr.type, t.flit.hdr.op))) = [(2, 2)] ∧
    offsetOf 0 { ask with reply := true, t2 := 64, t3 := 64 } = 64 ∧
    fld (after (.time 2 { ask with reply := true, t2 := 64, t3 := 64 }) childS) aNgTb 16 16 = 64 ∧
    (after (.time 2 { ask with reply := true }) childS).gov.goodOffsets = 1 ∧
    fld (after (.time 2 { ask with reply := true }) childS) aNgTb 8 8 = 1 ∧
    (after (.time 2 { ask with reply := true, number := 2 }) childS).gov.exchange = some 1 ∧
    (after .timeExchange childS).gov.exchange = some 1 ∧ (after .timeExchange childS).tx.length = 1 ∧
    nowNs (after .timeExchange (portS 3)) = 125000 := by decide +kernel

/-- The corrections of R360: 2,000 ns behind at first lock and later, 2,000 ns ahead; then half rate, and slewing by a ns in each
20,001. -/
theorem test_time_corrections :
    let behind : TimeMsg := { ask with reply := true, t2 := 128000, t3 := 128000 }
    let first : State := { childS with gov := { childS.gov with stepped := false } }
    let ahead := after (.time 2 { ask with reply := true, stamp := 128000 }) { childS with gov := { childS.gov with exchangeAt := 128000 } }
    let slow (n : Int) : State := { mk (served 1) with gov := { govReset with slew := n } }
    nowNs (after (.time 2 behind) first) = 2000 ∧ nowNs (after (.time 2 behind) childS) = 0 ∧
    (after (.time 2 behind) childS).gov.slew = 2000 ∧ ahead.gov.half = 1000 ∧ ahead.gov.slew = -1000 ∧
    cyclesIn ahead 1000 = 2000 ∧ nsFor ahead 2000 = 1000 ∧ (advance ahead 1500).gov.tbCycles = 2500 ∧
    cyclesIn (slow 5) 40001 = 40000 ∧ nsFor (slow 5) 40000 = 40001 ∧ cyclesIn (slow (-5)) 40002 = 40004 ∧
    (advance (slow (-5)) 40002).gov.slew = -3 := by decide +kernel

def gcmd (gang : BitVec 16) : GangCmdMsg := ⟨4, 9, gang, 1, List.replicate 64 0⟩

/-- Context 1 is of gang 7. -/
def gangSevenS : State := setFld (mk (served 3)) (aCtx 1) 32 16 7

theorem test_gang_cmd : ((after (.gangCmd (gcmd 7)) gangSevenS).cmds.map (fun c => (c.page, c.ctx, c.taken))) = [(.module 1, 1, false)] ∧
    ((after (.gangCmd (gcmd 6)) gangSevenS).out.map (fun m => (m.dst, m.op, m.payload))) = [(9, 0x12, [4, 0, 0, 0, 0x10, 1])] ∧
    ((after (.gangCmd (gcmd 7)) (after (.gangCmd (gcmd 7)) gangSevenS)).out.map (fun m => m.payload.getD 5 0)) = [3] ∧
    (after (.gangCmd (gcmd 7)) (setFld gangSevenS (aCtx 1) 0 4 6)).cmds.length = 0 := by decide +kernel

/-- A gang command that waits for member 4 takes its status; a refusal counts as REFUSE. -/
theorem test_gang_cpl :
    let s := { gangSevenS with cmds := [⟨1, .gang 1, 1, .host 5, entry 0 [], true, [4, 6], stOk, none, 0, 0⟩] }
    ((after (.gangCpl 9 4 stFault 5) s).cmds.map (fun c => (c.members, c.status, c.err))) = [([6], stFault, some 5)] ∧
    ((after (.refuse 9 4 0x10 1) s).cmds.map (fun c => (c.members, c.status))) = [([6], stRefuse)] ∧
    ((after (.refuse 9 4 0x11 1) s).cmds.map (fun c => c.members)) = [[4, 6]] := by decide +kernel

def trained (ok re : Bool) : TrainReport := ⟨ok, 5, false, 9, [], re, false⟩

theorem test_training : portState (after (.portTraining 2 (trained true false)) (mk (served 1))) 2 = 2 ∧
    portState (after (.portTraining 2 (trained false false)) (portS 3)) 2 = 0 ∧
    fld (after (.portTraining 2 (trained true false)) (mk (served 1))) (aPort 2) 16 12 = 9 ∧
    portState (after (.portTraining 2 (trained true true)) upS) 2 = 3 ∧ portState (after (.portTraining 2 (trained true false)) upS) 2 = 2 ∧
    portState (after (.portTraining 2 (trained true false)) (setFld (portS 4) (aPort 2) 3 1 1)) 2 = 4 := by decide +kernel

theorem test_cersin_training :
    let s := { setFld (mk (served 1)) aLatch 2 1 0 with sup := { supReset with inputOn := true } }
    portState (after (.cersinTraining (trained true false)) s) 8 = 2 ∧ portState (after (.cersinTraining (trained false false)) s) 8 = 0 ∧
    portState (after (.cersinTraining (trained true false)) { s with sup := supReset }) 8 = 0 := by decide +kernel

theorem test_no_codeword : portState (after (.noCodewordTimeout 2) (portS 3)) 2 = 0 ∧
    portState (after (.noCodewordTimeout 2) (portS 4)) 2 = 4 := by decide +kernel

/-! ## Keying -/

/-- Port 2 keys, with a report and a seed of its own. -/
def keyS : State :=
  let s := setPortState latS 2 2
  setPort s 2 { portOf s 2 with myReport := [1], mySeed := [2], secret := [3], linkTh := [7] }

def peer0 : PeerReport := ⟨0, 0, 0, false, false, [], 0, 0, []⟩

theorem test_key_attest : (after (.keyAttest 2 1) (setPortState (mk (served 1)) 2 2)).latch.keyWait = [(2, 1)] ∧
    (portState keyS 2 != 2 || !entropyOk keyS || !signOk keyS) = false ∧ treeReady keyS = true := by decide +kernel

/-- A report whose nonce is not the one sent is rejected and tried again after a second. -/
theorem test_key_report : peerOk keyS 2 { peer0 with nonce := 1 } = false ∧
    (portOf (after (.keyReport 2 { peer0 with nonce := 1 }) keyS) 2).retryAt = some 1000000000 ∧
    ((after (.keyReport 2 { peer0 with nonce := 1 }) keyS).evs.map (fun e => e.code)) = [9] := by decide +kernel

theorem test_key_confirm : portState (after (.keyConfirm 2 7) keyS) 2 = 3 ∧ portState (after (.keyConfirm 2 8) keyS) 2 = 2 ∧
    ((after (.keyConfirm 2 8) keyS).evs.map (fun e => e.code)) = [9] := by decide +kernel

theorem test_key_ek :
    let s := setPortState { latS with latch := { latS.latch with kexSeed := [1] } } 8 2
    (portState s 8 != 2 || s.latch.kexSeed.isEmpty || decide ((List.replicate 1568 (0 : Byte)).length ≠ 1568)) = false ∧
    portState (after (.keyEk []) s) 8 = 2 := by decide +kernel

theorem test_keying_retry :
    let s := setPort (setFld keyS aLatch 2 1 0) 2 { portOf keyS 2 with retryAt := some 500 }
    nowNs (after (.keyingRetry 2) s) = 500 ∧ (portOf (after (.keyingRetry 2) s) 2).retryAt = some 1000000500 ∧
    (portOf (after (.keyingRetry 2) s) 2).secret = [] := by decide +kernel
/-! ## Clocks and power -/

/-- A change in flight to step k, in phase ph, due at 900. -/
def chgS (k ph : Nat) : State := { mk (served 1) with gov := { govReset with change := some ⟨k, 0, ph, 900, false⟩ } }

theorem test_pll_switch : presentStep (after .pllSwitch (chgS 2 1)) = 2 ∧ nowNs (after .pllSwitch (chgS 2 1)) = 900 ∧
    ((after .pllSwitch (chgS 2 1)).gov.change.map (fun c => c.phase)) = some 2 ∧
    fld (after .pllSwitch (chgS 2 1)) aClkStatus 0 1 = 1 - fld (chgS 2 1) aClkStatus 0 1 ∧
    ((after .pllSwitch (setFld (chgS 1 1) aClkStatus 8 3 2)).gov.change.isNone) = true ∧
    presentStep (after .pllSwitch (setFld (chgS 2 1) aClkStatus 2 1 1)) = 0 := by decide +kernel

theorem test_vcore : (after .vcoreSettled (chgS 2 3)).gov.change.isNone = true ∧ nowNs (after .vcoreSettled (chgS 2 3)) = 900 := by
  decide +kernel

/-- Not locked by the fourth tick. -/
theorem test_pll_timeout : fld (after .pllLockTimeout { chgS 2 0 with tick := 4 }) aClkStatus 1 1 = 1 ∧
    fld (after .pllLockTimeout { chgS 2 0 with tick := 3 }) aClkStatus 1 1 = 0 := by decide +kernel

theorem test_region_change : fld (after (.regionChange 3 2) (mk (served 1))) (aRegion 3) 0 2 = 2 ∧ regionFree (mk (served 1)) 3 = true ∧
    fld (after (.regionChange 3 2) (chgS 1 0)) (aRegion 3) 0 2 = 0 := by decide +kernel

/-- A stop of two CLK_CORE cycles at divider 4, then divider 6: charged to power hold. -/
theorem test_region_stop :
    let s := regionStop (mk (served 1)) 3 3 2
    debtOf s 3 = 16 ∧ s.charged.get (fun _ => 0) ((headOf s 3).toNat * 8 + 2) = 3 ∧ s.shuts = [] := by decide +kernel

/-- A region of a domain of two rings that has an owner keeps its divider. -/
theorem test_region_kept :
    let s := setFld (setFld (mk (served 1)) aShtMap 16 4 3) aShtOwned 4 1 1
    regionFree s 4 = false ∧ ((after (.regionChange 4 2) s).evs.map (fun e => (e.code, e.d0))) = [(0xE, 4)] := by decide +kernel

/-- The trip is above 1.25 times the ceiling of 1,600 W. -/
theorem test_fast_trip : (after (.fastTrip 2000) (mk (served 1))).sup.alert = 0 ∧ (after (.fastTrip 2001) (mk (served 1))).sup.alert = 8 ∧
    shutState (after (.fastTrip 2001) (mk (served 1))) 0 = 1 := by decide +kernel

theorem test_crit : (after (.crit 109) (mk (served 1))).sup.alert = 0 ∧ (after (.crit 110) (mk (served 1))).sup.alert = 4 ∧
    shutState (after (.crit 110) (mk (served 1))) 15 = 1 := by decide +kernel

theorem test_reference : (after .refLoss (mk (served 1))).sup.alert = 0x20 ∧ fld (after .refLoss (mk (served 1))) aClkStatus 2 1 = 1 ∧
    (after .refRestore (after .refLoss (mk (served 1)))).gov.refValidAt = some 0 ∧
    (after .refRestore (mk (served 1))).gov.refValidAt = none := by decide +kernel

/-- The first boundary after a write of WINDOW only starts the counting. -/
theorem test_window_end :
    let s := { mk (served 1) with bw := [(66, 5)] }
    reg (after .bandwidthWindowEnd s) (modG (0x4800 + 33 * 0x10)) = BitVec.ofNat 64 (5 + 2 ^ 48) ∧
    (after .bandwidthWindowEnd s).bw.isEmpty = true ∧ (after .bandwidthWindowEnd { s with bwWait := true }).bwWait = false ∧
    nowNs (after .bandwidthWindowEnd s) % 1000000 = 0 := by decide +kernel

/-- With the input on and no command, a nanosecond passes. -/
theorem test_idle : nowNs (match step { mk (served 1) with sup := { supReset with inputOn := true } } with | .next t => t | _ => State.reset) = 1 ∧
    nowNs (match step { mk (served 1) with sup := supReset } with | .next t => t | _ => State.reset) = 0 := by decide +kernel

/-! ## Hangs and resets -/

/-- Sample 1 of context 1 is on decode engine 0, which made no progress for 20 ticks; the watchdog's limit is 20. -/
def hangS : State := { casS (setFld (mk (served 3)) aWdg 0 16 20) 3 { casJ with samples := [smp []] } with
  watchIdle := [(engineCode (.decode 0), 20)] }

theorem test_hang : holders hangS (.decode 0) = [1] ∧ watched hangS (.decode 0) = true ∧
    ctxState (after (.engineHang (.decode 0)) { hangS with watchIdle := [(engineCode (.decode 0), 19)] }) 1 = 3 := by decide +kernel

/-- Two contexts with work on it: the engine is reset. -/
theorem test_hang_engine :
    let s := setCas hangS 2 { casJ with samples := [smp []] }
    holders s (.decode 0) = [1, 2] ∧ resetting (after (.engineHang (.decode 0)) s) (.engine (.decode 0)) = true ∧
    partBusy (after (.engineHang (.decode 0)) { s with resets := [⟨.engine (.decode 0), 0, true, true⟩] }) 17 = true := by decide +kernel

/-- A command taken at tick 0 with a deadline of 10 ticks. -/
theorem test_deadline_ctx :
    let s := { setFld (mk (served 3)) (modG (0x3100 + 8)) 0 32 10 with cmds := [{ held (.module 1) [] with taken := true }], tick := 10 }
    pastDeadline s 1 = true ∧ pastDeadline { s with tick := 9 } 1 = false ∧
    recent s (.context 1) = false := by decide +kernel

/-- Ring 3 belongs to context 1 and is closed by late memory for 40 ticks; the watchdog's limit is 40. -/
def shutHungS : State :=
  let s := setFld (setFld (setFld (mk (served 3)) aWdg 16 16 40) aShtOwned 3 1 1) aShtOwner 12 4 1
  { setShutState (setShut s 3 ⟨[⟨0, 0, 0⟩], 0, 1, 0, 0, [], []⟩) 3 2 with watchIdle := [(shutKey 3, 40)] }

theorem test_shutter_hang : shutHung shutHungS 3 = true ∧ shutHung { shutHungS with watchIdle := [(shutKey 3, 39)] } 3 = false ∧
    partBusy (after (.shutterHang 3) (setFld shutHungS aShtOwned 3 1 0)) 3 = true := by decide +kernel

/-- Context 1 is of gang 7, of this module and module 9. -/
def gangNine (s : State) : State := { setFld s (aCtx 1) 32 16 7 with gangs := [⟨7, [(0, 0), (9, 0)], [1, 1]⟩] }

theorem test_silent :
    let s := { setFld (portS 1) aWdg 32 16 30 with tick := 30 }
    let d := setPort s 2 { portOf s 2 with downTick := some 0 }
    let b := gangNine { setFld (redS 2 0 0 { bk with st := 2 }) aWdg 32 16 30 with tick := 30 }
    ((after (.peerSilent (.port 2)) d).evs.map (fun e => (e.code, e.ctx, e.d0))) = [(8, 0xFF, 2)] ∧
    (after (.peerSilent (.port 2)) { d with tick := 29 }).evs.length = 0 ∧
    fld (after (.peerSilent (.bucket 1 0 0 9)) b) (aRedCount 1) 48 16 = 1 ∧
    fld (after (.peerSilent (.bucket 1 0 0 9)) { b with tick := 29 }) (aRedCount 1) 48 16 = 0 ∧
    fld (after (.peerSilent (.bucket 1 0 0 8)) b) (aRedCount 1) 48 16 = 0 := by decide +kernel

theorem test_silent_batch :
    let s := gangNine { setFld (dspS { dspJ with routesOut := true }) aWdg 32 16 30 with tick := 30 }
    ((dspOf (after (.peerSilent (.batch 1 9)) s) 1).map (fun j => j.routesOut)) = some false ∧
    ((after (.peerSilent (.batch 1 9)) s).out.map (fun m => (m.dst, m.op))) = [(9, 0x22)] ∧
    ((dspOf (after (.peerSilent (.batch 1 8)) s) 1).map (fun j => j.routesOut)) = some true := by decide +kernel

/-- An engine reset of two ticks becomes a partition reset; before, it runs on. -/
theorem test_limit :
    let s := { mk (served 3) with resets := [⟨.engine .reduction, 0, true, false⟩], tick := 2 }
    partBusy (after (.resetLimitExceeded (.engine .reduction)) s) 18 = true ∧
    resetting (after (.resetLimitExceeded (.engine .reduction)) s) (.engine .reduction) = false ∧
    partBusy (after (.resetLimitExceeded (.engine .reduction)) { s with tick := 1 }) 18 = false := by decide +kernel

theorem test_books : partBusy (after (.booksOutOfBalance (.stream 3)) (mk (served 3))) 16 = true ∧
    partBusy (after (.booksOutOfBalance (.fabric 2 0)) (portS 3)) 18 = true ∧
    partBusy (after (.booksOutOfBalance (.fabric 2 0)) (portS 2)) 18 = false := by decide +kernel

/-- The dispatch engine's reset aborts the batch, and the context faults. -/
theorem test_engine_reset :
    let s := { dspS { dspJ with routesOut := true } with resets := [⟨.engine .dispatch, 0, false, false⟩] }
    let u := after (.engineReset .dispatch) s
    ctxState u 1 = 5 ∧ ((dspOf u 1).map (fun j => j.routesOut)) = some false ∧ waiting u (.engine .dispatch) = false ∧
    runOf (after (.engineResetComplete .dispatch) u) (.engine .dispatch) = none := by decide +kernel

/-- The fabric partition's reset; a PART_RESET of partition 18 completes with it. -/
theorem test_partition_reset :
    let c : Cmd := { held .owner (entry 0x20 [18]) with taken := true }
    let s := { keyS with resets := [⟨.part 18, 0, false, false⟩], cmds := [c] }
    let u := after (.partitionReset 18) s
    portState u 2 = 1 ∧ waiting u (.part 18) = false ∧ u.cmds.length = 1 ∧
    (after (.partitionResetComplete 18) u).cmds.length = 0 ∧ partBusy (after (.partitionResetComplete 18) u) 18 = false := by
  decide +kernel

/-! ## Starts -/

/-- The input is on; start step k runs, with random values. -/
def stS (k : Nat) : State := { setFld (mk [(aLatch, 4)]) aRstStatus 3 4 k with sup := { supReset with inputOn := true, running := true } }

def rep0 : StartReport := ⟨true, 0xFF, true, true, [], []⟩

def stepped (k : Nat) (r : StartReport) : State := after (.startStepComplete r) (stS k)

theorem test_start_steps : startStep (stepped 1 rep0) = 2 ∧ startStep (stepped 2 rep0) = 3 ∧ startStep (stepped 5 rep0) = 6 ∧
    modeOf (stepped 9 rep0) = 1 ∧ fld (stepped 9 rep0) aLatch 0 2 = 1 ∧ (stepped 9 rep0).sup.running = false ∧
    (stepped 1 { rep0 with ok := false }).sup.retryAt = some 100000000 ∧ fld (stepped 1 { rep0 with ok := false }) aRstStatus 7 2 = 1 ∧
    fld (stepped 2 { rep0 with entropyOk := false }) aLatch 2 1 = 0 := by decide +kernel

/-- Every vendor key is revoked: no image of a set is accepted, and the module recovers. -/
def revokedS : State := { stS 3 with otp := { (stS 3).otp with vendorRevoke := 15 } }

theorem test_set_refused (b : Nat) : trySet revokedS b true = (revokedS, some 1) ∧ imageOk revokedS ((imagesOf revokedS b).image 0) = false := by
  have h : ∀ im, imageOk revokedS im = false := fun im => by
    have k : ∀ h, vendorKey revokedS h = false := fun h => by simp [vendorKey, revokedS, List.range, List.range.loop]
    simp [imageOk, sigOk, k]
  exact ⟨by simp [trySet, imageFails, h], h _⟩

/-- Images that hold make a set that holds. -/
theorem test_set_holds (s : State) (b : Nat) (ok : Bool) (h : imageFails s (imagesOf s b) 0 = none)
    (k : setFails (runAster s (imagesOf s b) ok) (imagesOf s b) = none) :
    trySet s b ok = (runAster s (imagesOf s b) ok, none) := by simp [trySet, h, k]

/-- The third failed start is the last. -/
theorem test_start_fails :
    startStep (after (.startStepComplete rep0) (setFld (stS 6) aLatch 2 1 0)) = 6 ∧
    quarantined (after (.startStepComplete { rep0 with ok := false }) (setFld (stS 1) aRstStatus 7 2 2)) = true ∧
    (after (.startStepComplete { rep0 with ok := false }) (setFld (stS 1) aRstStatus 7 2 2)).sup.retryAt = none := by decide +kernel

theorem test_start_timeout : nowNs (after .startStepTimeout (stS 1)) = 10000000 ∧ fld (after .startStepTimeout (stS 1)) aRstStatus 7 2 = 1 ∧
    fld (after .startStepTimeout (stS 9)) aRstStatus 7 2 = 0 := by decide +kernel

theorem test_start_retry :
    let s := { mk [] with sup := { supReset with inputOn := true, cold := true, retryAt := some 700 } }
    (after .startRetry s).sup.running = true ∧ startStep (after .startRetry s) = 1 ∧ (after .startRetry (mk [])).sup.running = false := by
  decide +kernel

/-- A chip reset of a module that serves, and the input's coming and going. -/
theorem test_input :
    let s := { mk (served 1) with sup := { supReset with inputOn := true } }
    startStep (after .chipReset s) = 1 ∧ fld (after .chipReset s) aRstStatus 2 1 = 1 ∧ fld (after .chipReset s) aRstLast 8 4 = 0 ∧
    fld (after .lintelWatchdog s) aRstLast 8 4 = 6 ∧ startStep (after .chipReset { s with sup := supReset }) = 0 ∧
    startStep (after .inputOn State.reset) = 1 ∧ fld (after .inputOn State.reset) aRstStatus 2 1 = 0 ∧
    (after .inputStop s).sup.inputOn = false ∧ modeOf (after .inputStop s) = 0 ∧ (after .inputLoss s).sup.alert = 0 := by decide +kernel

/-- In quarantine no start begins; power is cycled. -/
theorem test_quarantine :
    let s := setFld { mk (served 1) with sup := { supReset with inputOn := true } } aRstStatus 9 1 1
    startStep (after .chipReset s) = 0 ∧ fld (after .powerCycle s) aRstLast 0 3 = 5 ∧ (after .powerCycle s).sup.alert = 2 ∧
    (after .powerCycle { s with sup := supReset }).sup.alert = 0 ∧
    startStep (after .inputOn { setFld (mk []) aRstStatus 9 1 1 with sup := supReset }) = 0 := by decide +kernel

/-- 2,000 ticks of NORMAL make the active set known-good. -/
theorem test_known_good :
    let s := setFld { mk (served 1) with sup := { supReset with normalTicks := 2000 } } aRstStatus 10 1 1
    (after .knownGood s).flash.knownGood = 1 ∧ (after .knownGood { s with sup := { s.sup with normalTicks := 1999 } }).flash.knownGood = 0 := by
  decide +kernel

/-! ## The management bus and the TAP -/

def busS : State := { mk (served 1) with sup := { supReset with inputOn := true, alert := 0x3F } }

theorem test_bus : ((after (.status true) busS).sup.bus.map (fun b => b.length)) = [16] ∧
    ((after (.busId true) busS).sup.bus.map (fun b => b.length)) = [20] ∧ (after (.alertRead true) busS).sup.bus = [[0x3F]] ∧
    (after (.status false) busS).sup.bus.length = 0 ∧ (after (.alertWrite true 0xFF) busS).sup.alert = 3 ∧
    startStep (after (.warmReset true) busS) = 0 ∧
    startStep (after (.warmReset true) { busS with sup := { busS.sup with alert := 1 } }) = 1 := by decide +kernel

theorem test_tap :
    let s := { busS with dbgScope := 1 }
    modeOf (after (.jtagInstruction .privateTest) s) = 2 ∧
    modeOf (after (.jtagInstruction .privateEnd) (after (.jtagInstruction .privateTest) s)) = 1 ∧
    modeOf (after .trstNLow (after (.jtagInstruction .privateTest) s)) = 1 ∧ modeOf (after (.jtagInstruction .privateTest) busS) = 1 ∧
    (after (.jtagInstruction .bypass) busS).sup.tap = .bypass := by decide +kernel

/-! ## The owner page's context -/

/-- The owner session rings for one entry with context 9 selected. -/
def ownQ : State := setFld (setFld { mk (served 1) with sup := { supReset with inputOn := true } } (pageA .owner + 0x18) 0 4 9)
  (pageA .owner + 0x28) 63 1 1

theorem test_owner_page :
    let s := setReg (setFld ownQ (pageA .owner + 0x28) 0 4 4) (aPair 0) 5
    ((after (.doorbell 0 .owner 1) s).covers.map (fun c => (c.page, c.tail, c.ctx))) = [(.owner, 1, 9)] ∧
    ((headCover (after (.doorbell 0 .owner 1) s) .owner).map (fun k => k.ctx)) = some 9 ∧
    fld (after (.registerWrite 0 0x1018 5) s) 0x1018 0 4 = 5 ∧
    ((after (.registerWrite 0 0x1018 5) (after (.doorbell 0 .owner 1) s)).covers.map (fun c => c.ctx)) = [9] := by decide +kernel
/-! ## More states that meet the statements' conditions -/

/-- CTX_PAUSE at HEAD is taken at once, before a held copy. -/
theorem test_head_at_once :
    let s := { hostS (entry 4 []) with cmds := [held (.module 1) (entry 0x12 [])] }
    headAtOnce 4 s (.module 1) = true ∧ (nextHeld s (.module 1) 4).isSome = true ∧ headAtOnce 4 (hostS (entry 0 [])) (.module 1) = false ∧
    headAtOnce 0 (hostS (entry 0 [])) (.module 1) = false := by decide +kernel

/-- The job has one sample, so there is no position 1. -/
theorem test_seek_beyond :
    let s := casE 0x1A (List.replicate 8 0 ++ bytesOf 3 4 ++ bytesOf 1 4 ++ bytesOf 9 8)
    seekBeyond (takenOf s (.module 1)) (cmdOf s (.module 1)) = true ∧
    seekBeyond (takenOf (casE 0x1A []) (.module 1)) (cmdOf (casE 0x1A []) (.module 1)) = false := by decide +kernel

/-- Ring 2, on the route from ring 1 to ring 3, is out of service. -/
theorem test_route_idle :
    let b : Beat := ⟨1, 32, 96, some 0, .data 0 (List.replicate 64 3), false, 0, 0, []⟩
    let s := { setFld (eng 0 []) aShtOwned 18 1 1 with beats := [b] }
    routeIdle s b = true ∧ isOos s 2 = true ∧ (after (.beatArrival 0 [] none) s).beats = [] ∧ routeIdle (beatS 0 2) b = false := by decide +kernel

/-- Two beats meet at tile 0's router: the one that the router's own tile sent loses against the one from the east; a beat does not
meet itself. -/
theorem test_meeting :
    let b : Beat := ⟨1, 0, 0, some 0, .data 0 (List.replicate 64 3), false, 0, 0, []⟩
    let s := { eng 0 [] with beats := [b, { b with src := 1 }] }
    let m : Meeting := ⟨0, .beat 1⟩
    (metSides s (.beat 0) 0).isSome = true ∧ metSides s (.beat 1) 0 = some (1, 2, 5) ∧ metSides s (.beat 0) 1 = none ∧
    (after (.beatArrival 0 [] (some m)) s).beats = [{ b with src := 1 }] ∧
    (after (.beatArrival 0 [] (some ⟨0, .beat 0⟩)) s).beats = [{ b with src := 1 }] ∧ fld (after (.beatArrival 0 [] (some m)) s) (aRtr 0) 0 16 = 1 := by decide +kernel

/-- 32 beats fill a boundary buffer; the next finds no room, and faults its context. -/
theorem test_boundary_full :
    let b : Beat := ⟨1, 32, 0, some 0, .data 0 [], false, 1, 0, []⟩
    let s := { eng 0 [] with beats := List.replicate 32 b ++ [{ b with phase := 0 }] }
    bufferFill s 0 false = 32 ∧ crossingOf s { b with phase := 0 } = some (1, 0) ∧ sameOwner s (1, 0) = true ∧
    (after (.boundaryCrossing 32) s).beats.length = 32 ∧ ctxState (after (.boundaryCrossing 32) s) 1 = 5 := by decide +kernel

/-- A KEEP pass of a task that does not own the stationary operand faults as it begins. -/
theorem test_keep_owner :
    let s (task : Nat) : State := setFld (setFld (setFld { eng 0 [] with
      engines := [(0, ⟨none, some { addOp 0 with fields := 2 * 2 ^ 25 + 8 * 2 ^ 18 + 8 * 2 ^ 14 }⟩)] } (aArrStatus 0) 3 1 1)
      (aArrStatus 0) 4 3 task) (aThread 0 0) 0 1 1
    ((engOf (s 0) 0 0).pend.map (fun o => (o.load, o.rows))) = some (2, 1) ∧ statTask (s 1) 0 = 1 ∧
    threadState (after (.arrayPassBegin ⟨0, 0⟩) (s 1)) 0 0 = 4 ∧
    (engOf (after (.arrayPassBegin ⟨0, 0⟩) (s 0)) 0 0).running.isSome = true := by decide +kernel

/-- A second send of another tile stands before the one that goes on. -/
theorem test_two_sends :
    let x : SendOp := ⟨0, 1, 0, some 0, 3, 0, [33], 2, 1, 0⟩
    let s := { sendS (sendW 0) with sends := [{ x with t := 1 }, x] }
    (takeRow s 0 x.task x.src x.sent 64).isSome = true ∧
    (after (.latSendComplete 0) s).sends = [{ x with t := 1 }] ∧ (after (.latSendComplete 0) s).beats.length = 1 := by decide +kernel

/-- The head tells a member that its notice was out of step; the part of a bucket that still fills is kept. -/
theorem test_told :
    let s := setFld (redS 2 1 0 { bk with st := 2, step := 5 }) (aCtx 1) 32 16 7
    headIsHere s 1 = false ∧ abortNow { bk with st := 2, step := 5 } 5 = true ∧
    fld (after (.redAbort 1 0 0 5 1 4) s) (aRedStatus 1) 0 4 = 3 ∧
    (partBucket (redS 2 1 0 { bk with st := 1 }) 1 (part 0 1) false).isSome = true ∧
    (partBucket (redS 2 1 0 { bk with st := 1 }) 1 (part 0 1) true).isNone = true := by decide +kernel

/-- A key exchange flit as it arrives on a port that keys; with 16 wrong symbols the codeword does not decode. -/
def keySlot (bad : Nat) : WireFlit :=
  ⟨0, sealFlit none { hdr0 with type := 2, op := 6, len := 16 } (List.replicate 16 7), [List.range bad, []], 0⟩

theorem test_open_flit :
    let f := openFlit keyS 2 (keySlot 15)
    (f.hdr.type, f.hdr.op, f.payload, f.fecOk) = (2, 6, List.replicate 16 7, true) ∧
    (openFlit keyS 2 (keySlot 16)).fecOk = false ∧
    fld (after (.flitReceive 2 (keySlot 16)) keyS) (aPortErr 2) 0 24 = 1 ∧
    askDue (portOf keyS 2) = true ∧ (portOf (tookSlot keyS 2 (keySlot 15)) 2).rxSlot = 1 := by decide +kernel

/-- A member reached through a second head refuses what it took already. -/
theorem test_second_copy :
    let s := { gangSevenS with gangSeen := [(5, 0, 1, List.replicate 64 0)] }
    secondCopy s 9 0 1 (List.replicate 64 0) = true ∧ secondCopy gangSevenS 9 0 1 (List.replicate 64 0) = false ∧
    ((after (.gangCmd (gcmd 7)) s).out.map (fun m => m.payload.getD 5 0)) = [3] := by decide +kernel

/-- The check value of CRC-32: that of the nine digits 1 to 9. -/
theorem test_crc32 : crc32 [0x31, 0x32, 0x33, 0x34, 0x35, 0x36, 0x37, 0x38, 0x39] = 0xCBF43926 := by decide +kernel

/-- The digest of the three bytes "abc" (FIPS 180-4's own example). -/
theorem test_sha256 : sha256 [0x61, 0x62, 0x63] = beBytes 32 0xBA7816BF8F01CFEA414140DE5DAE2223B00361A396177A9CB410FF61F20015AD := by
  decide +kernel

/-! ## States that meet further conditions -/

/-- The first page of instruction memory is all zero words of 32-byte tasks; thread 0's context faulted in this very cycle. -/
def lateS (w : Word64) : State := { setFld (eng w []) (aCtx 1) 0 4 5 with faultAt := [⟨1, 0, 0⟩] }

/-- A thread that faults at issue in the cycle in which another of its context did records its own cause. -/
theorem test_late_fault : canFault (lateS 0x1F00000000000000) 0 0 = true ∧ fetchOut (lateS 0x1F00000000000000) 0 0 = false ∧
    encOk (issOf (lateS 0x1F00000000000000) 0 0).w = false ∧ threadState (after (.alu 0 0) (lateS 0x1F00000000000000)) 0 0 = 4 ∧
    fetchOut (setFld (lateS 0) (aThread 0 0) 8 13 8000) 0 0 = true ∧
    fld (after (.alu 0 0) (setFld (lateS 0) (aThread 0 0) 8 13 8000)) (aThread 0 0) 32 8 = cPcBound := by decide +kernel

/-- A thread that waits for cycle 5: its ring reaches it, unless it freezes at cycle 4. -/
theorem test_wait_cycle :
    let s := { setFld (eng 0 []) (aThread 0 0) 0 3 2 with wake := [(0, 5)] }
    let z := { setFld s (aShtState 0) 0 2 1 with shuts := [(0, ⟨[⟨6, 9, 0⟩], 6, 64, 0, 0, [], [(0, 4)]⟩)] }
    cycleOk s 0 5 = true ∧ waitsChain s 0 0 = false ∧ threadState (after (.threadWaitEnd 0 0) s) 0 0 = 1 ∧
    cycleOk z 0 5 = false ∧ threadState (after (.threadWaitEnd 0 0) z) 0 0 = 2 := by decide +kernel

/-- A pass begins while the rows of the one before it have all entered; that one drains, and ends after it. -/
theorem test_drain :
    let o := { addOp 0 with fields := 8 * 2 ^ 18 + 8 * 2 ^ 14, done := 0 }
    let s := { eng 0 [] with engines := [(0, ⟨some { o with row := 1, loaded := 64 }, some o⟩)] }
    let u := after (.arrayPassBegin ⟨0, 0⟩) s
    u.drains.map (fun d => d.op.row) = [1] ∧ ((engOf u 0 0).running.map (fun r => r.loaded)) = some 0 ∧
    after (.arrayPassBegin ⟨0, 0⟩) { s with engines := [(0, ⟨some { o with loaded := 64 }, some o⟩)] } =
      { s with engines := [(0, ⟨some { o with loaded := 64 }, some o⟩)] } ∧
    (after (.arrayPassComplete ⟨0, [], [], [], none⟩) { u with engines := [] }).drains = [] := by decide +kernel

/-- A stream that still writes bytes 0x200 to 0x27F of the scratchpad: what reads them waits. -/
def comeS (w : Word64) : State :=
  { setFld (eng w [(5, 0x200)]) (aSte 0 1) 0 3 1 with strms := [(1, some { memStrm with endpoint := 0x200, caps := [] })] }

theorem test_absent : absentIn (comeS 0) 0 0 0x200 64 none = true ∧ absentIn (comeS 0) 0 0 0x280 64 none = false ∧
    Issues (comeS tblW) 0 0 tblW ∧ threadState (after (.tableLoad 0 0) (comeS tblW)) 0 0 = 2 ∧
    threadState (after (.curveLoad 0 0) (comeS curveW)) 0 0 = 2 :=
  ⟨by decide +kernel, by decide +kernel, issues_of (by decide +kernel), by decide +kernel, by decide +kernel⟩

/-- The row that stands at port 0 comes to tile 0 by its own router: a parity error there poisons it; with the ring out of service it
never arrives. -/
theorem test_row_ways : (rowWays 0 memStrm).map (fun w => w.path) = [[0]] ∧ rowLost (memS 0 memStrm 1) 0 memStrm = false ∧
    threadState (after (.rowDelivery 0 ⟨0, [0], none⟩) (memS 0 memStrm 1)) 0 0 = 4 ∧
    fld (after (.rowDelivery 0 ⟨0, [0], none⟩) (memS 0 memStrm 1)) (aRtr 0) 32 16 = 1 ∧
    rowLost (setFld (memS 0 memStrm 1) aShtOwned 16 1 1) 0 memStrm = true := by decide +kernel

/-- A group whose check failed for good fails again at its next fill; a fill of another slice of the controller goes first. -/
theorem test_bad_group :
    let s := { sliceS false (reqOf 0 (.gather 0 0)) with reqs := [], fills := [⟨0, []⟩], badGroups := [0] }
    (chooseFill s 0).isSome = true ∧ (grp (after (.groupFill 0 ⟨[], [], [], 0, []⟩) s) 0).failed = true ∧
    (grp (after (.groupFill 0 ⟨[], [], [], 0, []⟩) { s with badGroups := [] }) 0).failed = false ∧
    (after (.groupFill 1 ⟨[], [], [], 0, []⟩) s).fills = [⟨0, []⟩] := by decide +kernel

/-! ## The host's requests and the management pair -/

/-- A write on a pair out of service is refused, counted, and answered with a REFUSE entry. -/
theorem test_refused_write :
    let s := setFld hosts (aPair 5) 0 2 2
    hostServed s = true ∧ pairOn s 5 = false ∧ ((after (.registerWrite 5 0xC000 2) s).cq.map (fun e => (e.q, e.status))) = [(5, stRefuse)] ∧
    fld (after (.registerWrite 5 0xC000 2) s) (csnA 0x10) 48 16 = 1 ∧ hostServed (setFld hosts aRstStatus 9 1 1) = false ∧
    fld (after (.registerWrite 63 0xC000 2) hosts) aVlog1 0 8 = 7 := by decide +kernel

/-- IMG_SELECT with a start asked for: the start begins once its reply has left. -/
theorem test_start_after :
    let u := after (.imgSelect 9 1 1) latS
    u.sup.startAfter.isSome = true ∧ (after (.imgSelect 9 1 0) latS).sup.startAfter = none ∧
    startStep (hostIdle { latS with sup := { latS.sup with startAfter := some 0 } }) = 1 := by decide +kernel

/-- A failed test is repeated a second later, three times, and not within the start's first steps. -/
theorem test_retest :
    let s := after .entropyTestFail latS
    (after (.entropyRetest false) s).latch.entropyRepeats = 1 ∧ nowNs (after (.entropyRetest false) s) = 1000000000 ∧
    after (.entropyRetest true) { s with latch := { s.latch with entropyRepeats := 3 } } =
      { s with latch := { s.latch with entropyRepeats := 3 } } := by decide +kernel

/-- PEER_RESET in the recovery personality is refused; a port that keys without random values keys again a second later. -/
theorem test_peer_reset_cases :
    let r := setFld upS aRstStatus 0 2 3
    let k := setPortState (setFld upS aLatch 2 1 0) 2 2
    modeOf r = 3 ∧ ((after (.peerReset 9 7) r).replies.map (fun x => x.status)) = [stMalformed] ∧ portState (after (.peerReset 9 7) r) 2 = 3 ∧
    (portOf (after (.peerReset 9 7) k) 2).retryAt = some 1000000000 := by decide +kernel

/-! ## The reduction engine -/

/-- A decision for the next step waits while the bucket is busy, and one for a step that has ended is void. -/
theorem test_decisions_ahead :
    let d (step : BitVec 32) (noticed : Nat) : DecideMsg := ⟨0, 0, step, false, 7, 2, noticed, 0⟩
    let s := redS 2 0 0 { bk with st := 4, step := 5, decision := some ⟨false, 0, 3, 0⟩ }
    busyWith { bk with st := 4, step := 5, decision := some ⟨false, 0, 3, 0⟩ } 6 = true ∧
    ((bkOf (after (.redDecide 1 (d 6 3)) s)).map (fun b => b.ahead)) = some [(6, ⟨false, 7, 3, 0⟩)] ∧
    still (.redDecide 1 (d 5 3)) (redS 2 0 0 { bk with st := 1, ended := some 5 }) = true ∧
    takeAheadAll s 1 = s ∧
    ((bkOf (takeAheadAll (redS 2 0 0 { bk with st := 1, ahead := [(6, ⟨false, 7, 2, 0⟩)] }) 1)).map (fun b => (b.st, b.late))) =
      some (3, true) := by decide +kernel

/-- A rank that the decision excludes while it fills takes a slot at once where one is free, and else waits for one. -/
theorem test_excluded :
    let x : Bucket := { bk with st := 1 }
    let out : DecideMsg := ⟨0, 0, 5, false, 7, 2, 2, 0⟩
    let full (b : Bucket) : State := setRed (redS 2 0 0 b) 1
      (some ⟨4, 0x400, b :: (List.range 8).map (fun i => { bk with idx := i + 1, st := 3 }), 0, [], [], 0, false, none, false⟩)
    let w := { x with late := true, decision := some (⟨false, 7, 2, 0⟩ : Decision) }
    ((bkOf (after (.redDecide 1 out) (redS 2 0 0 x))).map (fun b => (b.st, b.late))) = some (3, true) ∧
    ((bkOf (after (.redDecide 1 out) (full x))).map (fun b => (b.st, b.late))) = some (1, true) ∧ lateWaits w = true ∧
    ((bkOf (after (.bucketReduceStart 1) (redS 2 0 0 w))).map (fun b => b.st)) = some 3 := by decide +kernel

/-- An abort of a batch ends it at its members. -/
theorem test_batch_abort :
    let s := dspS { dspJ with routesOut := true, step := 5 }
    let i (step : BitVec 32) : Instr := .redAbort 1 batchChan batchBucket step 1 5
    ((dspOf (after (i 5) s) 1).map (fun j => j.routesOut)) = some false ∧ ((dspOf (after (i 6) s) 1).map (fun j => j.routesOut)) = some true := by
  decide +kernel

/-! ## Links -/

/-- Of a CREDIT for the host's pairs no allowance rises above 128, and the excess is counted. -/
theorem test_host_credit_cap :
    let s := setPortState (mk (served 1)) 8 3
    (after (.credit 8 [0, 200]) s).cqCredit.get crDef 1 = 128 ∧ fld (after (.credit 8 [0, 200]) s) (aPortViol 8) 32 16 = 1 ∧
    noCredit { portOf s 8 with linkWait := [{ flit0 with hdr := { hdr0 with op := 1 }, payload := [128] }] } 8 { hdr0 with type := 1 } = true := by
  decide +kernel

/-- A first training that a locked PHY skips keeps what is recorded; a retrain of a port not trained is a first training. -/
theorem test_first_training :
    let s := setFld (mk (served 1)) (aPort 2) 16 12 77
    fld (after (.portTraining 2 { trained true false with locked := true }) s) (aPort 2) 16 12 = 77 ∧
    fld (after (.portTraining 2 (trained true true)) s) (aPort 2) 8 8 = 0 ∧ hostTrains s = s.sup.inputOn := by decide +kernel

/-- A REFUSE of a message of the reduction engine is counted there. -/
theorem test_refusals : refusedEngine 0x21 = some 0 ∧ refusedEngine 0x11 = none ∧
    (after (.refuse 9 4 0x21 1) (mk (served 1))).refusals.get (fun _ => 0) 0 = 1 := by decide +kernel

/-! ## Clocks, hangs and starts -/

/-- A region changes at a tick, and keeps what is asked for between ticks. -/
theorem test_region_next :
    let s := { mk (served 1) with tick := 1 }
    (after (.regionChange 3 2) s).gov.regionNext = [(3, 2)] ∧ fld (after (.regionChange 3 2) s) (aRegion 3) 0 2 = 0 ∧
    ((after (.regionChange 3 2) (mk (served 1))).gov.stopped.map (fun e => e.1)) = [3] := by decide +kernel

/-- A step that ends after its limit fails the start, as does a field of the fuses; step 8 waits for the host's link. -/
theorem test_step_late :
    let late := setReg (stS 1) aTbNow 10000001
    stepDue (stS 1) = 10000000 ∧ fld (after (.startStepComplete rep0) late) aRstStatus 7 2 = 1 ∧
    fld (after (.startStepComplete { rep0 with fuses := 0xFE }) (stS 2)) aRstStatus 7 2 = 1 ∧
    startStep (after (.startStepComplete rep0) (stS 8)) = 8 ∧ startStep (after (.startStepComplete rep0) (setPortState (stS 8) 8 3)) = 9 ∧
    (stepped 5 { rep0 with slowMem := [3] }).sup.badStacks = [] := by decide +kernel

/-- A reset that has run its 20 ticks lets the rings' partitions be reset. -/
theorem test_shutter_spent :
    let s := { shutHungS with resets := [⟨.context 1, 0, true, false⟩], tick := 20 }
    shutHung s 3 = true ∧ partBusy (after (.shutterHang 3) s) 3 = true := by decide +kernel

/-- Rings 3 and 4 form one domain; ring 3 has a divider other than 4, and the object waits for it. -/
theorem test_slow_rings :
    let o := (smallObject.set 27 3).set 28 3
    let s := setFld (withBytes 1 o) (aRegion 3) 0 2 1
    slowRings s o = [3] ∧ slowRings (mk (served 1)) o = [] ∧ slowRings s smallObject = [] ∧ objectOk s o = true ∧ domainsOk s 1 o = true := by
  decide +kernel

/-- In debug mode a sample whose slot is not mapped is recorded as lost. -/
theorem test_recorded :
    let s := casS (setFld (mk (served 3)) aRstStatus 0 2 2) 2 casJ
    isNormal s = false ∧ vaOk s 1 (slotVa casJ 0) 64 true = false ∧ (recorded s 1 casJ (smp [])).code = 0x0D ∧
    recorded (mk (served 3)) 1 casJ (smp []) = smp [] := by decide +kernel

/-- A report whose signature holds, with another START_RES, on a port that is UP. -/
theorem test_key_anew (h : Config.reportOk peer0.raw = true) :
    (portState upS 2 == 3 && Config.reportOk peer0.raw && ({ peer0 with startRes := 1 } : PeerReport).startRes != (portOf upS 2).peerRes) = true := by
  rw [h]; decide +kernel

/-- An OPEN whose signature verifies under a key held finds that key. -/
theorem test_open_found (k : DecapKey) (s : State) (role ctx : Byte) (pairs : BitVec 64) (h : Config.lmsVerify [] (openTh k.report [] role ctx pairs []) [] = true)
    (hs : s.latch.decaps = [k]) :
    s.latch.decaps.find? (fun k => Config.lmsVerify [] (openTh k.report [] role ctx pairs []) []) = some k := by
  simp [hs, h]
end Sys2Proof.Tests
end

section
/-! PROOF. O59 fails in its clause on CTX_DESTROY. The release of a context's work may write the DONE word of its batch (R439),
and that write takes its turn at its slice behind the requests that wait there (R273, R283). A waiting write of another context
can be one too many for that context's route list, which makes it FAULTED (R321, R322), and no fill of a group goes on. -/

namespace Sys2Proof.Machine

/-! ## The release of a context's work around its sweep -/

/-- The row of CTX_DESTROY: the page's next entry, with the destruction as its effect. -/
theorem exec_ctxDestroy (p : Page) (s : State) :
    exec (.ctxDestroy p) s = .next (command 0x07 p (fun c s => beginDestroy s c.ctx) s) := rfl

/-- The part of `releaseWork` before the tiles are swept. -/
def stopWork (s : State) (n : CtxId) : State :=
  withdrawOwned (idleStreams 4 (abortTasks (abortCommands s n) n) n) n

/-- The part of `releaseWork` after the tiles are swept: the memory system and the X-die engines. -/
def endWork (s : State) (n : CtxId) (cause final : Nat) : State :=
  let s := discardWhere s (fun q => q.ctx == n)
  let s := { s with
    walks := s.walks.filter (fun w => w.ctx != n),
    codeDone := s.codeDone.filter (fun d => taskCtx s d.t d.task != n) }
  abortBatch (abortBuckets (casAbort s n final) n cause) n

theorem releaseWork_eq (s : State) (n : CtxId) (cause final : Nat) :
    releaseWork s n cause final = endWork (sweepOpen (stopWork s n) n) n cause final := rfl

theorem beginDestroy_eq (s : State) (n : CtxId) :
    beginDestroy s n = closeSessions (setDsp (setRed (releaseWork (setCtxState s n 7) n 3 0) n none) n none)
      (fun x => !x.owner && x.ctx == n) := rfl

/-- With every domain closed no tile is swept yet. -/
theorem sweepOpen_of_closed {s : State} (h : ∀ r, ringOpen s r = false) (n : CtxId) : sweepOpen s n = s := by
  simp [sweepOpen, h]

theorem releaseWork_of_closed {s : State} {n : CtxId} (h : ∀ r, ringOpen (stopWork s n) r = false) (cause final : Nat) :
    releaseWork s n cause final = endWork (stopWork s n) n cause final := by
  rw [releaseWork_eq, sweepOpen_of_closed h]

/-! ## The counterexample -/

/-- A batch with the given descriptor, of whose route list `rcount` bytes have come; `out` where its routes have gone out. -/
def batchWith (desc : List Byte) (rcount : Nat) (out : Bool) : DspJob :=
  ⟨desc, [], 0, rcount, out, [], [], false, [], [], 0, 0, false, [], 0⟩

/-- A descriptor with its DONE word at VA 512. -/
def doneDesc : List Byte := List.replicate 88 0 ++ bytesOf 512 8

/-- A descriptor with a route list of one entry, tensor 7 at VA 512. -/
def routesDesc : List Byte := List.replicate 32 0 ++ bytesOf 512 8 ++ bytesOf 7 4 ++ bytesOf 1 4 ++ List.replicate 48 0

/-- A row of tile 0 that waits at slice 8: eight bytes of context 2 for its route list, whose page has frame 513. -/
def routeWrite : Req :=
  let pa := 513 * frameSize + 512
  ⟨pa, 2, 0, 0, 0, 1, 0, 7, false, false, 0, 0, .write 0 0 ((List.range 8).map (fun i => (pa + i, 0))) [] [] 0⟩

/-- A CTX_DESTROY, as it stands in the owner area. -/
def destroyEntry : List Byte := 7 :: List.replicate 63 0

/-- The cover of the owner's doorbell on pair 0, with context 1 in CTX_SEL. -/
def destroyCover : Cover := ⟨.owner, 1, 0, 1⟩

/-- The owner has rung for the CTX_DESTROY of context 1, which is PAUSED with the routes of its batch out. Context 2 is RUNNING with
its route list full, and `routeWrite` waits. Each has a page mapped at VA 0, in frames 512 and 513. All rings form one domain, which a
host hold has closed. The Transom holds the group of the entry, and no fill goes on. -/
def destroyRung : State :=
  let s := { State.reset with
    sup := { State.reset.sup with inputOn := true },
    regs := [(aCtx 1, 4), (aCtx 2, 3), (pageA .owner + 0x18, 1), (pageA .owner + 0x28, BitVec.ofNat 64 (2 ^ 63 + 4)),
      (pageA .owner + 0x30, BitVec.ofNat 64 (2 ^ 16)), (aShtHold 0, 1), (aRstStatus, 1), (aMemFree, 289792), (aPair 0, 5)],
    covers := [destroyCover],
    dram := [(ownerBase, 7)],
    groups := [(groupOf ownerBase, { grpNone with valid := true, filled := true })],
    reqs := [routeWrite],
    dsp := [(1, some (batchWith doneDesc 0 true)), (2, some (batchWith routesDesc 8 false))] }
  mapPages (mapPages (setShutState (shutRaise s 0 5 (srcHold 0)) 0 2) 1 0 1 true true) 2 0 1 true true

/-- The state once the entry has been read. -/
def destroyRead : State := (readEntry destroyRung .owner).1

/-- The command that the page gives, and the state in which its checks begin. -/
def destroyCmd : Cmd := ⟨destroyRead.nextId, .owner, destroyCover.ctx, .host destroyCover.q, destroyEntry, true, [], stOk, none,
  BitVec.ofNat 16 (qHead destroyRung .owner), destroyRung.tick⟩
def destroyTaken : State := advanceHead { destroyRead with
  cmds := destroyRead.cmds ++ [destroyCmd], nextId := destroyRead.nextId + 1 } .owner

theorem readEntry_destroyRung : readEntry destroyRung .owner = (destroyRead, .ok destroyEntry) := by
  have bytes : (readEntry destroyRung .owner).2 = .ok destroyEntry := by decide +kernel
  exact Prod.ext rfl bytes

/-- The owner page takes the CTX_DESTROY from its host queue. -/
theorem destroyRung_takes : Takes destroyRung .owner 0x07 destroyCmd destroyTaken :=
  .host destroyCover destroyRead destroyEntry (.inr (by decide +kernel)) (by decide +kernel) (by decide +kernel)
    readEntry_destroyRung (by decide +kernel) (by decide +kernel)

/-- It passes every check of R41. -/
theorem destroyRung_accepts : Accepts destroyRung .owner 0x07 destroyCmd destroyTaken where
  takes := destroyRung_takes
  wellFormed := by decide +kernel
  inRange := by decide +kernel
  inService := .inl rfl
  legal := by decide +kernel
  also := rfl

/-- No fill goes on and context 2 is RUNNING when the destruction begins. -/
theorem destroyTaken_quiet : destroyTaken.fills = [] ∧ ctxState destroyTaken 2 = 3 := by decide +kernel

/-- The hold keeps every ring from being swept. -/
theorem destroyTaken_closed : ∀ r, ringOpen (stopWork (setCtxState destroyTaken 1 7) 1) r = false := by decide +kernel

/-- The PHASE 3 word of context 1 lets the slice serve `routeWrite` first, and the batch of context 2 faults. -/
theorem beginDestroy_faults_other : ctxState (beginDestroy destroyTaken 1) 2 = 5 := by
  rw [beginDestroy_eq, releaseWork_of_closed destroyTaken_closed]
  decide +kernel

/-- Refutes O59: a CTX_DESTROY of context 1 makes context 2 FAULTED though no fill of a group goes on, since a write of context 2
that waits at a slice is served ahead of the DONE word of context 1 and overfills context 2's route list. -/
theorem not_ownerPageContext : ¬ Obligations.OwnerPageContext := by
  intro h
  obtain ⟨_, _, _, _, _, destroys⟩ := h destroyRung 0
  obtain ⟨u, ran, _, others⟩ := destroys destroyCmd destroyTaken destroyRung_accepts
  obtain ⟨noFills, running⟩ := destroyTaken_quiet
  rw [exec_ctxDestroy, command_runs destroyRung_accepts] at ran
  injection ran with destroyed
  have kept : ctxState u 2 = ctxState destroyTaken 2 := others noFills 2 (by decide)
  have faulted : ctxState u 2 = 5 := destroyed ▸ beginDestroy_faults_other
  omega

end Sys2Proof.Machine
end

section
/-! PROOF. O4: what each minor of ALU and ALUI computes (R171). The sums, the logical operations and the low product are the
operations of `BitVec`; each other minor has a rule here. -/

namespace Sys2Proof.Machine

/-! ## Shifts and the rotation -/

theorem toNat_shiftLeft_eq_mul_pow (a : Word64) (n : Nat) : (a <<< n).toNat = a.toNat * 2 ^ n % 2 ^ 64 := by
  rw [BitVec.toNat_shiftLeft, Nat.shiftLeft_eq]

theorem toNat_ushiftRight_eq_div_pow (a : Word64) (n : Nat) : (a >>> n).toNat = a.toNat / 2 ^ n := by
  rw [BitVec.toNat_ushiftRight, Nat.shiftRight_eq_div_pow]

theorem toInt_sshiftRight_eq_div_pow (a : Word64) (n : Nat) : (a.sshiftRight n).toInt = a.toInt / 2 ^ n := by
  rw [BitVec.toInt_sshiftRight, Int.shiftRight_eq_div_pow, Nat.cast_pow, Nat.cast_ofNat]

/-- A rotation by n takes bit i to bit i + n, around the end of the word. -/
theorem getLsbD_rotateLeft_add (a : Word64) {i n : Nat} (hi : i < 64) (hn : n < 64) :
    (a.rotateLeft n).getLsbD ((i + n) % 64) = a.getLsbD i := by
  rw [BitVec.getLsbD_rotateLeft, Nat.mod_eq_of_lt hn]
  rcases Nat.lt_or_ge (i + n) 64 with stays | wraps
  · have up : ¬ i + n < n := by omega
    simp [Nat.mod_eq_of_lt stays, up, stays]
  · have place : (i + n) % 64 = i + n - 64 := by omega
    have low : i + n - 64 < n := by omega
    have source : 64 - n + (i + n - 64) = i := by omega
    simp [place, low, source]

/-! ## The high halves of the product -/

theorem toNat_mulhu (a b : Word64) :
    (BitVec.ofNat 64 (a.toNat * b.toNat / 2 ^ 64)).toNat = a.toNat * b.toNat / 2 ^ 64 := by
  have product : a.toNat * b.toNat < 2 ^ 64 * 2 ^ 64 := Nat.mul_lt_mul'' a.isLt b.isLt
  exact Nat.mod_eq_of_lt (Nat.div_lt_of_lt_mul product)

/-- A product of two signed words is at most 2^126 either way, so its high half fits a signed word. -/
theorem toInt_mulh (a b : Word64) :
    (BitVec.ofInt 64 (a.toInt * b.toInt / 2 ^ 64)).toInt = a.toInt * b.toInt / 2 ^ 64 := by
  have upper : a.toInt * b.toInt ≤ 2 ^ 126 := BitVec.toInt_mul_toInt_le
  have lower : -2 ^ 126 ≤ a.toInt * b.toInt := BitVec.le_toInt_mul_toInt
  apply BitVec.toInt_ofInt_eq_self <;> omega

/-! ## Minimum and maximum -/

theorem toInt_signedMin (a b : Word64) : (if a.slt b then a else b).toInt = min a.toInt b.toInt := by
  simp only [min_def_lt, BitVec.slt_iff_toInt_lt, apply_ite BitVec.toInt]

theorem toInt_signedMax (a b : Word64) : (if a.slt b then b else a).toInt = max a.toInt b.toInt := by
  simp only [max_def_lt, BitVec.slt_iff_toInt_lt, apply_ite BitVec.toInt]

theorem toNat_unsignedMin (a b : Word64) : (if a.ult b then a else b).toNat = min a.toNat b.toNat := by
  simp only [min_def_lt, BitVec.ult_iff_toNat_lt, apply_ite BitVec.toNat]

theorem toNat_unsignedMax (a b : Word64) : (if a.ult b then b else a).toNat = max a.toNat b.toNat := by
  simp only [max_def_lt, BitVec.ult_iff_toNat_lt, apply_ite BitVec.toNat]

/-! ## Leading zeros -/

theorem clz64_of_ne_zero {a : Word64} (h : a.toNat ≠ 0) : clz64 a = 63 - a.toNat.log2 := by
  simp only [clz64, bitLen, beq_iff_eq, h, if_false]
  omega

theorem log2_toNat_le {a : Word64} (h : a.toNat ≠ 0) : a.toNat.log2 ≤ 63 :=
  Nat.le_of_lt_succ ((Nat.log2_lt h).mpr a.isLt)

/-- The leading zeros of a word that is not 0 end at its highest set bit. -/
theorem sub_clz64 {a : Word64} (h : a.toNat ≠ 0) : 63 - clz64 a = a.toNat.log2 := by
  rw [clz64_of_ne_zero h, Nat.sub_sub_self (log2_toNat_le h)]

theorem getLsbD_log2 {a : Word64} (h : a.toNat ≠ 0) : a.getLsbD a.toNat.log2 = true := by
  rw [← BitVec.testBit_toNat]
  exact Nat.testBit_log2 h

theorem getLsbD_of_log2_lt (a : Word64) {i : Nat} (hi : a.toNat.log2 < i) : a.getLsbD i = false := by
  rw [← BitVec.testBit_toNat]
  exact Nat.testBit_lt_two_pow (Nat.lt_log2_self.trans_le (Nat.pow_le_pow_right Nat.two_pos hi))

/-! ## Trailing zeros -/

theorem ctzFrom_of_testBit {a i : Nat} (f : Nat) (h : a.testBit i = true) : ctzFrom a (f + 1) i = i := by
  have bit : a >>> i % 2 = 1 := by simpa [Nat.testBit_eq_decide_div_mod_eq, Nat.shiftRight_eq_div_pow] using h
  simp [ctzFrom, bit]

theorem ctzFrom_of_not_testBit {a i : Nat} (f : Nat) (h : a.testBit i = false) :
    ctzFrom a (f + 1) i = ctzFrom a f (i + 1) := by
  have bit : a >>> i % 2 ≠ 1 := by simpa [Nat.testBit_eq_decide_div_mod_eq, Nat.shiftRight_eq_div_pow] using h
  simp [ctzFrom, bit]

theorem testBit_of_lt_ctzFrom {a j : Nat} : ∀ {f i : Nat}, i ≤ j → j < ctzFrom a f i → a.testBit j = false
  | 0, i, hij, hj => absurd hij (Nat.not_le_of_lt hj)
  | f + 1, i, hij, hj => by
    cases bit : a.testBit i with
    | true =>
      rw [ctzFrom_of_testBit f bit] at hj
      exact absurd hij (Nat.not_le_of_lt hj)
    | false =>
      rw [ctzFrom_of_not_testBit f bit] at hj
      rcases Nat.eq_or_lt_of_le hij with rfl | above
      · exact bit
      · exact testBit_of_lt_ctzFrom above hj

/-- The count from bit i stops at a set bit, or all f bits that it looks at are clear. -/
theorem ctzFrom_stops (a : Nat) : ∀ f i : Nat,
    (ctzFrom a f i < i + f ∧ a.testBit (ctzFrom a f i) = true) ∨ ctzFrom a f i = i + f
  | 0, _ => .inr rfl
  | f + 1, i => by
    cases bit : a.testBit i with
    | true =>
      rw [ctzFrom_of_testBit f bit]
      exact .inl ⟨by omega, bit⟩
    | false =>
      rw [ctzFrom_of_not_testBit f bit, Nat.add_comm f, ← Nat.add_assoc]
      exact ctzFrom_stops a f (i + 1)

theorem getLsbD_of_lt_ctz64 {a : Word64} {i : Nat} (h : i < ctz64 a) : a.getLsbD i = false := by
  rw [← BitVec.testBit_toNat]
  exact testBit_of_lt_ctzFrom i.zero_le h

theorem ctz64_of_ne_zero {a : Word64} (h : a ≠ 0) : ctz64 a < 64 ∧ a.getLsbD (ctz64 a) = true := by
  rcases ctzFrom_stops a.toNat 64 0 with ⟨short, bit⟩ | all
  · exact ⟨short, by rwa [BitVec.testBit_toNat] at bit⟩
  · refine absurd (BitVec.eq_of_getLsbD_eq fun i hi => ?_) h
    exact (getLsbD_of_lt_ctz64 (hi.trans_eq all.symm)).trans BitVec.getLsbD_zero.symm

/-! ## Set bits -/

theorem foldl_add_toNat (p : Nat → Bool) (l : List Nat) (n : Nat) :
    l.foldl (fun n i => n + (p i).toNat) n = n + (l.filter p).length := by
  induction l generalizing n with
  | nil => rfl
  | cons i l ih => cases bit : p i <;> simp [ih, bit, Nat.add_comm, Nat.add_left_comm]

theorem popc64_eq (a : Word64) : popc64 a = ((List.range 64).filter (fun i => a.getLsbD i)).length := by
  have bit (i : Nat) : (a.toNat >>> i) % 2 = (a.getLsbD i).toNat := by
    rw [← BitVec.testBit_toNat, Nat.toNat_testBit, Nat.shiftRight_eq_div_pow]
  simp only [popc64, bit]
  rw [foldl_add_toNat, Nat.zero_add]

theorem popc64_le (a : Word64) : popc64 a ≤ 64 := by
  rw [popc64_eq]
  exact (List.length_filter_le _ _).trans_eq List.length_range

/-! ## The counts as results of ALU -/

theorem aluOp_clz_of_ne_zero {a : Word64} (b : Word64) (h : a ≠ 0) :
    (aluOp 0x11 a b).toNat < 64 ∧ a.getLsbD (63 - (aluOp 0x11 a b).toNat) = true ∧
      (∀ i, 63 - (aluOp 0x11 a b).toNat < i → a.getLsbD i = false) := by
  have pos : a.toNat ≠ 0 := mt (fun zero => BitVec.eq_of_toNat_eq zero) h
  have short : clz64 a < 64 := by have := clz64_of_ne_zero pos; omega
  have result : (aluOp 0x11 a b).toNat = clz64 a := Nat.mod_eq_of_lt (by omega)
  rw [result, sub_clz64 pos]
  exact ⟨short, getLsbD_log2 pos, fun i => getLsbD_of_log2_lt a⟩

theorem aluOp_ctz_of_ne_zero {a : Word64} (b : Word64) (h : a ≠ 0) :
    (aluOp 0x12 a b).toNat < 64 ∧ a.getLsbD (aluOp 0x12 a b).toNat = true ∧
      (∀ i, i < (aluOp 0x12 a b).toNat → a.getLsbD i = false) := by
  obtain ⟨short, bit⟩ := ctz64_of_ne_zero h
  have result : (aluOp 0x12 a b).toNat = ctz64 a := Nat.mod_eq_of_lt (by omega)
  rw [result]
  exact ⟨short, bit, fun i => getLsbD_of_lt_ctz64⟩

theorem aluOp_popc (a b : Word64) :
    (aluOp 0x13 a b).toNat = ((List.range 64).filter (fun i => a.getLsbD i)).length := by
  have := popc64_le a
  have result : (aluOp 0x13 a b).toNat = popc64 a := Nat.mod_eq_of_lt (by omega)
  rw [result, popc64_eq]

/-- The two counts of zeros are 64 of the word 0. -/
theorem aluOp_counts_of_zero {a : Word64} (b : Word64) (h : a = 0) : aluOp 0x11 a b = 64 ∧ aluOp 0x12 a b = 64 := by
  subst h
  have clz : clz64 0 = 64 := by decide
  have ctz : ctz64 0 = 64 := by decide
  exact ⟨congrArg (BitVec.ofNat 64) clz, congrArg (BitVec.ofNat 64) ctz⟩

/-- Settles O4: each minor of the two tables computes what R171 gives for it. -/
theorem aluTable : Obligations.AluTable := by
  intro a b
  have amount : b.toNat % 64 < 64 := Nat.mod_lt _ (by decide)
  exact ⟨
    -- ALU: ADD, SUB, AND, OR, XOR, ANDN
    rfl, rfl, rfl, rfl, rfl, rfl,
    -- SLL, SRL, SRA, ROTL
    toNat_shiftLeft_eq_mul_pow a _, toNat_ushiftRight_eq_div_pow a _, toInt_sshiftRight_eq_div_pow a _,
    fun _ hi => getLsbD_rotateLeft_add a hi amount,
    -- MUL, MULHU, MULH
    BitVec.toNat_mul a b, toNat_mulhu a b, toInt_mulh a b,
    -- MIN, MAX, MINU, MAXU
    toInt_signedMin a b, toInt_signedMax a b, toNat_unsignedMin a b, toNat_unsignedMax a b,
    -- CLZ, CTZ, POPC
    aluOp_counts_of_zero b, aluOp_clz_of_ne_zero b, aluOp_ctz_of_ne_zero b, aluOp_popc a b,
    -- ALUI: ADDI, ANDI, ORI, XORI
    rfl, rfl, rfl, rfl,
    -- SLLI, SRLI, SRAI, MULI
    toNat_shiftLeft_eq_mul_pow a _, toNat_ushiftRight_eq_div_pow a _, toInt_sshiftRight_eq_div_pow a _,
    BitVec.toNat_mul a b⟩

end Sys2Proof.Machine
end
